-- ==== Sys2Proof/Word.lean ====
section
/-! DEFINITION. The word types of the DK9 (R68, R71, R81) and their plainest arithmetic. -/

namespace Sys2Proof

/-- A 64-bit scalar register or system register (R71, R74). -/
abbrev Word := BitVec 64

/-- The smallest addressable unit. -/
abbrev Byte := BitVec 8

/-- A 57-bit virtual address (R181). -/
abbrev VAddr := BitVec 57

/-- The bits `[h:l]` of a number (R4). -/
def bitsOf (h l : Nat) (x : Nat) : Nat := (x >>> l) % 2 ^ (h + 1 - l)

/-- Two's complement reading of the low `w` bits of a number. -/
def signedOf (w : Nat) (x : Nat) : Int :=
  let y := x % 2 ^ w
  if 2 ^ w ≤ 2 * y then (y : Int) - 2 ^ w else y

end Sys2Proof
end

