-- ==== Sys2Proof/Syntax.lean ====
section
/-! DEFINITION. The abstract syntax of Lemquel: one constructor for each row of the opcode table.
A slot operation carries the fields of its slot format (R87 to R101) in a record; an event of the
package carries the subject it concerns and whatever the outside supplies with it. -/

namespace Sys2Proof

/-- The slots of a bundle, in ascending header-bit order (R77). SA and SB share one grid. -/
inductive Slot where
  | ct | sa | sb | ls | va | xf | mx | ec
  deriving DecidableEq, Repr

/-- The guard of a slot: PRED and NEG (R82). -/
structure Guard where
  neg : Bool
  pred : BitVec 3
  deriving DecidableEq, Repr

/-- The guard and the binding-time mark K of the CT, SA, SB and XF slots (R82, R83). -/
structure GK where
  g : Guard
  k : Bool
  deriving DecidableEq, Repr

/-- CT format CN (R87). -/
structure CN where
  gk : GK
  deriving DecidableEq, Repr

/-- CT format CI: IMM10. -/
structure CI where
  gk : GK
  imm : BitVec 10
  deriving DecidableEq, Repr

/-- CT format CB: DISP21. -/
structure CB where
  gk : GK
  disp : BitVec 21
  deriving DecidableEq, Repr

/-- CT format CR: Q, IMM8, B, A. -/
structure CR where
  gk : GK
  q : Bool
  imm : BitVec 8
  b : BitVec 6
  a : BitVec 6
  deriving DecidableEq, Repr

/-- CT format CL: II, LEN, A. -/
structure CL where
  gk : GK
  ii : BitVec 5
  len : BitVec 5
  a : BitVec 6
  deriving DecidableEq, Repr

/-- CT format CS: THR, SEM. -/
structure CS where
  gk : GK
  thr : BitVec 6
  sem : BitVec 8
  deriving DecidableEq, Repr

/-- Scalar format SR (R90): UA, UD, B, A, D. -/
structure SR where
  gk : GK
  ua : Bool
  ud : Bool
  b : BitVec 6
  a : BitVec 6
  d : BitVec 6
  deriving DecidableEq, Repr

/-- Scalar format SI: IMM8, A, D. -/
structure SI where
  gk : GK
  imm : BitVec 8
  a : BitVec 6
  d : BitVec 6
  deriving DecidableEq, Repr

/-- Scalar format SU: IMM14, D. -/
structure SU where
  gk : GK
  imm : BitVec 14
  d : BitVec 6
  deriving DecidableEq, Repr

/-- LS format LO (R93): OFF18 and the common fields. -/
structure LO where
  g : Guard
  off : BitVec 18
  ua : Bool
  q : Bool
  m : BitVec 3
  sc : BitVec 3
  a : BitVec 6
  d : BitVec 6
  deriving DecidableEq, Repr

/-- LS format LB: OFF12, B and the common fields. -/
structure LB where
  g : Guard
  off : BitVec 12
  b : BitVec 6
  ua : Bool
  q : Bool
  m : BitVec 3
  sc : BitVec 3
  a : BitVec 6
  d : BitVec 6
  deriving DecidableEq, Repr

/-- The VA slot (R95). -/
structure VF where
  g : Guard
  sat : Bool
  rm : BitVec 2
  u : Bool
  z : Bool
  m : BitVec 3
  c : BitVec 6
  b : BitVec 6
  a : BitVec 6
  d : BitVec 6
  t : BitVec 3
  deriving DecidableEq, Repr

/-- The XF slot (R97). -/
structure XT where
  gk : GK
  ua : Bool
  ud : Bool
  b : BitVec 6
  a : BitVec 6
  d : BitVec 6
  deriving DecidableEq, Repr

/-- The wait and signal fields of the MX and EC slots (R84). -/
structure WaitSig where
  sinc : BitVec 4
  sidx : BitVec 8
  wthr : BitVec 6
  widx : BitVec 8
  deriving DecidableEq, Repr

/-- The MX slot (R98). -/
structure MF where
  g : Guard
  ws : WaitSig
  b : BitVec 6
  a : BitVec 6
  fmt : BitVec 4
  keep : Bool
  om : BitVec 3
  ta : BitVec 4
  ac : BitVec 2
  deriving DecidableEq, Repr

/-- The EC slot (R100). -/
structure EF where
  g : Guard
  ws : WaitSig
  q : BitVec 4
  c : BitVec 6
  b : BitVec 6
  a : BitVec 6
  d : BitVec 6
  deriving DecidableEq, Repr

/-- What names a hart: a Newel core, or a tread by launch number, workgroup and rank (R44). -/
inductive HartId where
  | core (n : Nat)
  | tread (launch wgi rank : Nat)
  deriving DecidableEq, Repr

/-- The kinds of access a translation record tells apart: `XFLT.ACC` (R353). -/
inductive Acc where
  | load | store | fetch | atomic | engRead | engWrite | monWait
  deriving DecidableEq, Repr

/-- Where ECC or a line check found an error (R396, R397). -/
inductive ErrSite where
  /-- corrected: counted only -/
  | corrected
  /-- a line of memory, uncorrectable in DRAM (`true`) or by its check value -/
  | line (pa : Nat) (dram : Bool)
  /-- a clean lease-cache line -/
  | lease (h : HartId) (pa : Nat)
  /-- hub state kept for a line -/
  | hub (pa : Nat)
  /-- tread state: register class and number or offset -/
  | tread (h : HartId) (cls num : Nat)
  deriving DecidableEq, Repr

/-- The operation of an atomic or reduction (R232). -/
inductive AmoOp where
  | add | min | max | minu | maxu | and | or | xor | xchg | cas
  deriving DecidableEq, Repr

/-- What a Treluk flit carries for this hub (R22, R40): the answer to an outstanding request with the time of the
line; a request of the other package for a line whose home is here, with the requester's floor; a replay request; and
the far side's ready signal. (DESIGN CHOICE: log entry 56.) -/
inductive FlitPayload where
  | empty
  | answer (tag time : Nat) (data : List Byte)
  | refused (tag : Nat)
  | poisoned (tag : Nat)
  | read (tag pa len lt : Nat)
  | write (tag pa floor : Nat) (data : List Byte)
  | atomic (tag pa floor : Nat) (op : AmoOp) (d : Bool) (val cmp : Word)
  | replay (seq : Nat)
  | farReady (ready : Bool)
  deriving DecidableEq, Repr

/-- The offset of a base-die register, and the privilege level of the request that names it (R212). -/
structure DieReg where
  lvl : Nat
  off : Nat
  deriving DecidableEq, Repr

/-- An inbound PCIe or CXL.io request (R356). -/
structure HostReq where
  port : Nat
  rid : Nat
  pasid : Bool
  write : Bool
  addr : Nat
  data : List Byte
  deriving DecidableEq, Repr

/-- An incoming RDMA request (R346): `atomic` is a RoCEv2 fetch-and-add (R202). -/
inductive RdmaOp where
  | read | write | fetchAdd | compareSwap
  deriving DecidableEq, Repr

/-- An incoming RDMA request and the credentials it carries (R346). -/
structure RdmaReq where
  part : Nat
  conn : Nat
  gid : Nat
  qpn : Nat
  key : Nat
  psn : Nat
  op : RdmaOp
  addr : Nat
  len : Nat
  data : List Byte
  deriving DecidableEq, Repr

/-- The counters and flags that a write clears (R357, R358, R398). -/
inductive CounterReg where
  | ioflt (part : Nat)
  | iounb
  | errst
  deriving DecidableEq, Repr

/-- A configuration register named by its block and offset (R343, R358). -/
inductive PlainReg where
  | monitor (off : Nat)
  | part (p off : Nat)
  deriving DecidableEq, Repr

/-- One 1 ms reading of the power controller (R428, R429): the input power, and the sampled telemetry, each value with
512 times its KIND plus its INDEX. -/
structure PowerReading where
  milliwatts : Nat
  sample : List (Nat × Nat)
  deriving DecidableEq, Repr

/-- The algorithms an SPDM requester offers (R367). -/
structure SpdmAlgs where
  rsassaPss3072 : Bool
  sha256 : Bool
  deriving DecidableEq, Repr

/-- Every step of the device: the operations of the slots and the events of the package. -/
inductive Instr where
  /-- CT no-operation; the bundle occupies one cycle (R129). -/
  | nop (f : CN)
  /-- The bundle occupies n cycles; its other slots issue in the first of them (R129). -/
  | hold (f : CI)
  /-- PC-relative branch by a signed 21-bit byte displacement (R130). -/
  | br (f : CB)
  /-- PC-relative call that writes the return address to s63 (R130). -/
  | call (f : CB)
  /-- Branch to the address held in a scalar register (R130). -/
  | brR (f : CR)
  /-- Call through a register; writes the return address to s63 (R130). -/
  | callR (f : CR)
  /-- Starts the modulo sequencer over a body of len bundles with initiation interval ii and trip count sa (R291). -/
  | loop (f : CL)
  /-- Stops issue until CLK reaches the operand (R289). -/
  | sleepUntil (f : CR)
  /-- Stalls the bundle until a semaphore of the tread reaches a threshold (R288). -/
  | waitSem (f : CS)
  /-- Writes MEET in every rank and detaches each rank whose guard is true (R54). -/
  | detach (f : CB)
  /-- A detached tread arrives at MEET as though its program counter had reached it (R295). -/
  | meet (f : CN)
  /-- Ends the tread once the other slots of its bundle have issued (R298). -/
  | retire (f : CN)
  /-- Arrives at a group's current phase and returns the phase arrived at (R300). -/
  | barArrive (f : CR)
  /-- Waits for a group phase to complete, or tests it, and writes a status word (R301). -/
  | barWait (f : CR)
  /-- Allocates a new hypothesis node as a child of the node named (R251). -/
  | hypOpen (f : CR)
  /-- Pushes a handler address and sets HYP to a live child node (R252). -/
  | hypEnter (f : CR)
  /-- Pops the handler stack and sets HYP to the parent node (R252). -/
  | hypLeave (f : CN)
  /-- Confirms a node, merging its versions into its parent at one logical time T (R218). -/
  | hypResolveConfirm (f : CR)
  /-- Refutes a node, discarding its and its descendants' versions (R219). -/
  | hypResolveRefute (f : CR)
  /-- Opens the mould over a run of vector registers and fills the shadow (R173). -/
  | mouldOpen (f : CR)
  /-- Discards the shadow and closes an open mould (R175). -/
  | mouldCancel (f : CN)
  /-- Acquires the named vault banks, stalling on draining ones (R304). -/
  | vbankAcq (f : CR)
  /-- Releases the named vault banks, or makes them draining (R304). -/
  | vbankRel (f : CR)
  /-- Raises the software trap precisely at its bundle (R380). -/
  | trap (f : CI)
  /-- Raises the system-call trap after its bundle has issued (R341). -/
  | sys (f : CI)
  /-- Raises the breakpoint trap, or acts as nop under DBG.BSKIP (R380). -/
  | bkpt (f : CI)
  /-- Returns from a handler to TPC and resumes any held schedule (R379). -/
  | eret (f : CN)
  /-- 64-bit wrapping addition (R135). -/
  | add (f : SR)
  /-- 64-bit wrapping subtraction (R135). -/
  | sub (f : SR)
  /-- Bitwise AND (R135). -/
  | and (f : SR)
  /-- Bitwise OR (R135). -/
  | or (f : SR)
  /-- Bitwise XOR (R135). -/
  | xor (f : SR)
  /-- Shift left by b[5:0] (R135). -/
  | shl (f : SR)
  /-- Logical shift right (R135). -/
  | shr (f : SR)
  /-- Arithmetic shift right (R135). -/
  | sra (f : SR)
  /-- Low 64 bits of the product (R135). -/
  | mul (f : SR)
  /-- High 64 bits of the signed product (R135). -/
  | mulhs (f : SR)
  /-- High 64 bits of the unsigned product (R135). -/
  | mulhu (f : SR)
  /-- Signed division truncating toward zero, never trapping (R136). -/
  | div (f : SR)
  /-- Unsigned division (R136). -/
  | divu (f : SR)
  /-- Signed remainder (R136). -/
  | rem (f : SR)
  /-- Unsigned remainder (R136). -/
  | remu (f : SR)
  /-- Copies a register, including between s and g registers (R138). -/
  | mov (f : SR)
  /-- Signed minimum (R135). -/
  | min (f : SR)
  /-- Signed maximum (R135). -/
  | max (f : SR)
  /-- Unsigned minimum (R135). -/
  | minu (f : SR)
  /-- Unsigned maximum (R135). -/
  | maxu (f : SR)
  /-- Sign-extending bit-field extract (R137). -/
  | bfx (f : SR)
  /-- Zero-extending bit-field extract (R137). -/
  | bfxu (f : SR)
  /-- Bit-field insert into the destination (R137). -/
  | bfi (f : SR)
  /-- Selects sa or sb by a predicate named in the opcode (R138). -/
  | sel (pn : BitVec 3) (f : SR)
  /-- Addition of a sign-extended 8-bit immediate (R135). -/
  | addi (f : SI)
  /-- AND with a sign-extended immediate (R135). -/
  | andi (f : SI)
  /-- OR with a sign-extended immediate (R135). -/
  | ori (f : SI)
  /-- XOR with a sign-extended immediate (R135). -/
  | xori (f : SI)
  /-- Shift left by an immediate (R135). -/
  | shli (f : SI)
  /-- Logical shift right by an immediate (R135). -/
  | shri (f : SI)
  /-- Arithmetic shift right by an immediate (R135). -/
  | srai (f : SI)
  /-- Multiply by a sign-extended immediate (R135). -/
  | muli (f : SI)
  /-- Loads a sign-extended 14-bit immediate (R138). -/
  | movi (f : SU)
  /-- Shifts the destination left 14 bits and adds an unsigned immediate (R138). -/
  | movsh (f : SU)
  /-- Counts leading zero bits (R138). -/
  | clz (f : SR)
  /-- Counts trailing zero bits (R138). -/
  | ctz (f : SR)
  /-- Counts one bits (R138). -/
  | popc (f : SR)
  /-- Reverses the eight bytes (R138). -/
  | bswap (f : SR)
  /-- Writes a predicate: equal (R139). -/
  | cmpEq (f : SR)
  /-- Writes a predicate: not equal (R139). -/
  | cmpNe (f : SR)
  /-- Writes a predicate: signed less than (R139). -/
  | cmpLt (f : SR)
  /-- Writes a predicate: signed less or equal (R139). -/
  | cmpLe (f : SR)
  /-- Writes a predicate: unsigned less than (R139). -/
  | cmpLtu (f : SR)
  /-- Writes a predicate: unsigned less or equal (R139). -/
  | cmpLeu (f : SR)
  /-- Compare with an immediate: equal (R139). -/
  | cmpiEq (f : SI)
  /-- Compare with an immediate: not equal (R139). -/
  | cmpiNe (f : SI)
  /-- Compare with an immediate: signed less than (R139). -/
  | cmpiLt (f : SI)
  /-- Compare with an immediate: signed less or equal (R139). -/
  | cmpiLe (f : SI)
  /-- Compare with an immediate: unsigned less than (R139). -/
  | cmpiLtu (f : SI)
  /-- Compare with an immediate: unsigned less or equal (R139). -/
  | cmpiLeu (f : SI)
  /-- Predicate AND (R139). -/
  | pand (f : SR)
  /-- Predicate OR (R139). -/
  | por (f : SR)
  /-- Predicate XOR (R139). -/
  | pxor (f : SR)
  /-- Predicate NOT (R139). -/
  | pnot (f : SR)
  /-- FP32 addition rounded in RNE (R140). -/
  | faddF32 (f : SR)
  /-- FP32 subtraction (R140). -/
  | fsubF32 (f : SR)
  /-- FP32 multiplication (R140). -/
  | fmulF32 (f : SR)
  /-- FP32 fused multiply-add into the destination (R140). -/
  | ffmaF32 (f : SR)
  /-- FP32 division (R140). -/
  | fdivF32 (f : SR)
  /-- FP32 square root (R140). -/
  | fsqrtF32 (f : SR)
  /-- FP32 minimum (R140). -/
  | fminF32 (f : SR)
  /-- FP32 maximum (R140). -/
  | fmaxF32 (f : SR)
  /-- FP64 addition (R140). -/
  | faddF64 (f : SR)
  /-- FP64 subtraction (R140). -/
  | fsubF64 (f : SR)
  /-- FP64 multiplication (R140). -/
  | fmulF64 (f : SR)
  /-- FP64 fused multiply-add (R140). -/
  | ffmaF64 (f : SR)
  /-- FP64 division (R140). -/
  | fdivF64 (f : SR)
  /-- FP64 square root (R140). -/
  | fsqrtF64 (f : SR)
  /-- FP64 minimum (R140). -/
  | fminF64 (f : SR)
  /-- FP64 maximum (R140). -/
  | fmaxF64 (f : SR)
  /-- FP32 equality compare to a predicate (R140). -/
  | fcmpEqF32 (f : SR)
  /-- FP32 less-than compare (R140). -/
  | fcmpLtF32 (f : SR)
  /-- FP32 less-or-equal compare (R140). -/
  | fcmpLeF32 (f : SR)
  /-- FP32 unordered test (R140). -/
  | fcmpUnF32 (f : SR)
  /-- FP64 equality compare (R140). -/
  | fcmpEqF64 (f : SR)
  /-- FP64 less-than compare (R140). -/
  | fcmpLtF64 (f : SR)
  /-- FP64 less-or-equal compare (R140). -/
  | fcmpLeF64 (f : SR)
  /-- FP64 unordered test (R140). -/
  | fcmpUnF64 (f : SR)
  /-- Scalar conversion selected by a code in field B (R141). -/
  | fcvt (f : SR)
  /-- Reads a system register into a scalar register (R340). -/
  | rdsr (f : SI)
  /-- Writes a system register field by field (R340). -/
  | wrsr (f : SI)
  /-- Sends a translation invalidation of the selected kind to the hub (R354). -/
  | tlbinv (f : SR)
  /-- Stalls until every earlier tlbinv of the issuer has completed (R355). -/
  | tlbsync (f : SR)
  /-- Loads a sign-extended byte (R227). -/
  | ldB (f : LO)
  /-- Loads a sign-extended halfword (R227). -/
  | ldH (f : LO)
  /-- Loads a sign-extended word (R227). -/
  | ldW (f : LO)
  /-- Loads a doubleword (R227). -/
  | ldD (f : LO)
  /-- Loads a zero-extended byte (R227). -/
  | ldBu (f : LO)
  /-- Loads a zero-extended halfword (R227). -/
  | ldHu (f : LO)
  /-- Loads a zero-extended word (R227). -/
  | ldWu (f : LO)
  /-- Prefetches a line into the lease cache (R230). -/
  | pf (f : LO)
  /-- Stores a byte (R227). -/
  | stB (f : LO)
  /-- Stores a halfword (R227). -/
  | stH (f : LO)
  /-- Stores a word (R227). -/
  | stW (f : LO)
  /-- Stores a doubleword (R227). -/
  | stD (f : LO)
  /-- Loads 256 bytes into a vector register under a lane mask (R228). -/
  | vld (f : LO)
  /-- Stores the active lanes of a vector register (R228). -/
  | vst (f : LO)
  /-- Loads a 4 KiB tile by rows of a given stride (R229). -/
  | tld (f : LB)
  /-- Stores a 4 KiB tile by rows (R229). -/
  | tst (f : LB)
  /-- Gathers one 4-byte unit per active lane from base plus offsets (R231). -/
  | vgath (f : LB)
  /-- Scatters one 4-byte unit per active lane in lane order (R231). -/
  | vscat (f : LB)
  /-- Atomic add at the home, returning the old value (R232). -/
  | amoAdd (f : LB)
  /-- Atomic signed minimum (R232). -/
  | amoMin (f : LB)
  /-- Atomic signed maximum (R232). -/
  | amoMax (f : LB)
  /-- Atomic unsigned minimum (R232). -/
  | amoMinu (f : LB)
  /-- Atomic unsigned maximum (R232). -/
  | amoMaxu (f : LB)
  /-- Atomic AND (R232). -/
  | amoAnd (f : LB)
  /-- Atomic OR (R232). -/
  | amoOr (f : LB)
  /-- Atomic XOR (R232). -/
  | amoXor (f : LB)
  /-- Atomic exchange (R232). -/
  | amoXchg (f : LB)
  /-- Atomic compare and swap (R232). -/
  | amoCas (f : LB)
  /-- Fire-and-forget add reduction ordered as a store (R232). -/
  | redAdd (f : LB)
  /-- Fire-and-forget signed minimum (R232). -/
  | redMin (f : LB)
  /-- Fire-and-forget signed maximum (R232). -/
  | redMax (f : LB)
  /-- Fire-and-forget AND (R232). -/
  | redAnd (f : LB)
  /-- Fire-and-forget OR (R232). -/
  | redOr (f : LB)
  /-- Fire-and-forget XOR (R232). -/
  | redXor (f : LB)
  /-- Checks a masked word at its home and arms a watch entry until the condition holds (R235). -/
  | monWait (f : LB)
  /-- Stalls until the accesses its scope names complete, then writes the status word (R237). -/
  | fenceScope (f : LB)
  /-- Writes back and invalidates lease-cache lines of a range in the scoped caches (R238). -/
  | flushRegion (f : LB)
  /-- Element-wise addition (R144). -/
  | vadd (f : VF)
  /-- Element-wise subtraction (R144). -/
  | vsub (f : VF)
  /-- Element-wise multiplication (R144). -/
  | vmul (f : VF)
  /-- Element-wise fused multiply-add (R144). -/
  | vfma (f : VF)
  /-- Element-wise minimum (R144). -/
  | vmin (f : VF)
  /-- Element-wise maximum (R144). -/
  | vmax (f : VF)
  /-- Element-wise absolute value (R144). -/
  | vabs (f : VF)
  /-- Element-wise negation (R144). -/
  | vneg (f : VF)
  /-- Bitwise AND of vectors (R145). -/
  | vand (f : VF)
  /-- Bitwise OR of vectors (R145). -/
  | vor (f : VF)
  /-- Bitwise XOR of vectors (R145). -/
  | vxor (f : VF)
  /-- Bitwise NOT of a vector (R145). -/
  | vnot (f : VF)
  /-- Per-element shift left (R145). -/
  | vshl (f : VF)
  /-- Per-element shift right (R145). -/
  | vshr (f : VF)
  /-- Copies a vector (R145). -/
  | vmov (f : VF)
  /-- Selects elements from two vectors by a mask (R145). -/
  | vsel (f : VF)
  /-- Vector equality compare into a mask (R146). -/
  | vcmpEq (f : VF)
  /-- Vector inequality compare into a mask (R146). -/
  | vcmpNe (f : VF)
  /-- Vector less-than compare into a mask (R146). -/
  | vcmpLt (f : VF)
  /-- Vector less-or-equal compare into a mask (R146). -/
  | vcmpLe (f : VF)
  /-- Correctly rounded reciprocal (R147). -/
  | vrcp (f : VF)
  /-- Correctly rounded reciprocal square root (R147). -/
  | vrsqrt (f : VF)
  /-- Correctly rounded square root (R147). -/
  | vsqrt (f : VF)
  /-- Correctly rounded 2 to the x (R147). -/
  | vexp2 (f : VF)
  /-- Correctly rounded base-2 logarithm (R147). -/
  | vlog2 (f : VF)
  /-- Correctly rounded hyperbolic tangent (R147). -/
  | vtanh (f : VF)
  /-- Correctly rounded sin of pi x (R147). -/
  | vsin (f : VF)
  /-- Correctly rounded cos of pi x (R147). -/
  | vcos (f : VF)
  /-- Converts elements between two formats given by codes (R148). -/
  | vcvt (f : VF)
  /-- Quantises 64 FP32 values to a narrow format with group records (R149). -/
  | vquant (f : VF)
  /-- Dequantises narrow values to FP32 with group records (R149). -/
  | vdequant (f : VF)
  /-- Writes a 12-bit immediate to every active element (R150). -/
  | vmovi (f : VF)
  /-- Adds the active elements by a fixed pairwise tree into element 0 (R151). -/
  | vredAdd (f : VF)
  /-- Minimum of the active elements into element 0 (R151). -/
  | vredMin (f : VF)
  /-- Maximum of the active elements into element 0 (R151). -/
  | vredMax (f : VF)
  /-- Permutes elements by lane indices (R152). -/
  | vperm (f : VF)
  /-- Rotates 32-bit lanes by n (R152). -/
  | vrot (f : VF)
  /-- Draws Philox values per lane, or reads the mould counters (R177). -/
  | vrng (f : VF)
  /-- Settles the open mould lane by lane against a uniform draw and closes it (R178). -/
  | accept (f : VF)
  /-- Mask AND (R153). -/
  | mand (f : VF)
  /-- Mask OR (R153). -/
  | mor (f : VF)
  /-- Mask XOR (R153). -/
  | mxor (f : VF)
  /-- Mask AND NOT (R153). -/
  | mandn (f : VF)
  /-- Mask NOT (R153). -/
  | mnot (f : VF)
  /-- Broadcasts a scalar or uniform value into every element of a vector (R154). -/
  | xBcast (f : XT)
  /-- Reads the first active lane of a vector into a scalar (R154). -/
  | xFirst (f : XT)
  /-- Reads lane n of a vector into a scalar (R154). -/
  | xLane (f : XT)
  /-- Sets a predicate when a mask is non-zero (R155). -/
  | xAny (f : XT)
  /-- Sets a predicate when a mask is all ones (R155). -/
  | xAll (f : XT)
  /-- Sets a predicate when a mask is zero (R155). -/
  | xNone (f : XT)
  /-- Counts the set bits of a mask (R155). -/
  | xCnt (f : XT)
  /-- Sends a vector into the next rank's receive queue (R156). -/
  | xPass (f : XT)
  /-- Pops the oldest available receive-queue entry into a vector (R156). -/
  | xRecv (f : XT)
  /-- Matrix multiply-accumulate of a tile or latch with B from an operand map (R161). -/
  | mma (f : MF)
  /-- Asymmetric integer matrix multiply-accumulate using tensor descriptors (R161). -/
  | mmaQ (f : MF)
  /-- Clears every element of an accumulator (R169). -/
  | accClr (f : MF)
  /-- Loads accumulator elements from the vault (R169). -/
  | accLd (f : MF)
  /-- Stores accumulator elements to the vault (R169). -/
  | accSt (f : MF)
  /-- Converts an accumulator into consecutive tiles (R170). -/
  | accCvt (f : MF)
  /-- Empties the operand latch (R169). -/
  | latchRel (f : MF)
  /-- Writes an operand map's vault base and descriptor word (R159). -/
  | omSet (f : MF)
  /-- Copies from global memory to the vault and returns a promise (R239). -/
  | copyGv (f : EF)
  /-- Copies from the vault to global memory (R239). -/
  | copyVg (f : EF)
  /-- Copies between vaults (R239). -/
  | copyVv (f : EF)
  /-- Copies between global addresses (R239). -/
  | copyGg (f : EF)
  /-- Moves one tile between a vault and a tensor in either direction (R243). -/
  | copyTile (f : EF)
  /-- Gathers listed rows into the vault (R244). -/
  | copyIdx (f : EF)
  /-- Reports the state of engine operations promised by a given time (R242). -/
  | copyCheck (f : EF)
  /-- Adds to a semaphore of the tread or of a gang tread (R245). -/
  | semAdd (f : EF)
  /-- Subtracts from a semaphore (R245). -/
  | semSub (f : EF)
  /-- Sets a semaphore (R245). -/
  | semSet (f : EF)
  /-- Writes a completion signal as an atomic after earlier work is stamped (R247). -/
  | sigWr (f : EF)
  /-- Arrives at a group with a contribution and returns the group-wide result (R303). -/
  | grpRed (f : EF)
  /-- RDMA WRITE on a connection with a promise (R248). -/
  | netPut (f : EF)
  /-- RDMA READ on a connection with a promise (R248). -/
  | netGet (f : EF)
  /-- A result with exposed latency is written at the end of its due cycle (R11). -/
  | exposedResultLands (h : HartId)
  /-- A passed vector becomes available in the successor's queue (R156). -/
  | xPassEntryArrives (h : HartId)
  /-- An MX operation's occupancy ends, freeing the unit and releasing the latch if due (R166). -/
  | mxOccupancyEnd (h : HartId)
  /-- A due result or fetch line is absent, so the tread or flight freezes (R50). -/
  | freeze (h : HartId)
  /-- The awaited value arrives and the frozen schedule resumes d cycles later (R50). -/
  | freezeEnd (h : HartId)
  /-- The last awaited rank arrives or retires and the flight resumes in broadcast at MEET (R296). -/
  | flightResumeAtMeet (launch wgi : Nat)
  /-- The hub counts an arrival, completing the phase when the count is reached (R63). -/
  | groupArrival (h : HartId) (group : Nat)
  /-- A parking wait lasts PARK.TICKS and the gang is saved and its flights freed (R66). -/
  | gangPark (launch gang : Nat)
  /-- A parked gang's waking condition is met and it becomes runnable (R66). -/
  | parkedGangWake (launch gang : Nat)
  /-- With the watch table full, the mon.wait condition is re-examined every 4,096 ticks (R235). -/
  | monWaitRecheck (h : HartId)
  /-- An admitted write reaches a watched line and satisfies the entry's condition (R235). -/
  | watchTrigger (h : HartId)
  /-- The hub base time rises by one every 64 ticks of CLK (R189). -/
  | baseTimeRise
  /-- A time reaches 2^40 - 2^32 and the package pauses and resets all logical times (R195). -/
  | logicalTimePause
  /-- A write reaches its home and is stamped after invalidating covered peers (R190). -/
  | writeStamp (h : HartId)
  /-- The home grants a lease on a line to a lease cache (R191). -/
  | leaseFill (h : HartId) (line : Nat)
  /-- A peer answers an invalidation with its LT or not held (R198). -/
  | invalidationAck (peer line : Nat)
  /-- A MOESI peer fills a line, updating the directory entry (R196). -/
  | peerFill (peer line : Nat) (own : Bool)
  /-- A peer's clean or dirty eviction reaches the home (R200). -/
  | evictionNotice (peer line : Nat)
  /-- The home recalls a line from an M or O holder (R201). -/
  | recallLine (line : Nat)
  /-- An atomic executes at the home slice ALU (R201). -/
  | atomicAtHome (h : HartId)
  /-- A deferred recall expires after 256 hub cycles and the RoCEv2 atomic fails and retries (R202). -/
  | lockedSequenceTimeout (peer line : Nat)
  /-- A direct vault store lands in its bank (R185). -/
  | vaultStoreLands (h : HartId)
  /-- A fence that has waited 4,194,304 ticks completes with TIMEOUT (R206). -/
  | fenceTimeout (h : HartId)
  /-- A tagged store finds no free version for 4,096 cycles and traps (R221). -/
  | hypothesisFull (h : HartId)
  /-- A copy engine's tagged write finds no version for 4,096 cycles and the operation fails (R221). -/
  | engineVersionTimeout (h : HartId) (op : Nat)
  /-- A tread under a refuted node takes the hypothesis-lost trap to its handler (R219). -/
  | hypothesisLost (h : HartId)
  /-- An engine operation completes or fails, signalling and ending any drain on its banks (R240). -/
  | copyComplete (h : HartId) (op : Nat)
  /-- A network operation is acknowledged remotely or lands locally (R248). -/
  | netComplete (h : HartId) (op : Nat) (ok : Bool) (data : List Byte)
  /-- A copy meets a translation fault, suspends, and the tread traps at its next boundary (R241). -/
  | engineTranslationFault (h : HartId) (op : Nat)
  /-- CLK reaches the promise of an unfinished operation and the condition latches (R290). -/
  | missedPromiseLatch (h : HartId)
  /-- The tread takes the missed-promise trap at its next bundle boundary (R16). -/
  | missedPromise (h : HartId)
  /-- A gang semaphore update lands in the target's semaphore (R246). -/
  | semGgLands (h : HartId)
  /-- A failed access whose result is awaited traps when the result was due (R205). -/
  | memoryError (h : HartId)
  /-- A walker completes a two-stage walk, filling a cache or faulting (R349). -/
  | translationWalk (h : HartId) (va : Nat) (acc : Acc)
  /-- Every cache has dropped the covered entries and dependent accesses are done (R355). -/
  | tlbinvComplete (id : Nat)
  /-- After one stepped cycle the debug-step trap is taken (R393). -/
  | debugStep (h : HartId)
  /-- An eligible pending core event is taken as a trap on a Newel core (R339). -/
  | coreEvent (core : Nat)
  /-- CLK reaches TCMP and TIMER becomes pending (R339). -/
  | timerExpiry (core : Nat)
  /-- An uncorrectable error in tread state traps to M (R397). -/
  | treadStateError (h : HartId) (cls num : Nat)
  /-- ECC or check detects an error, correcting, dropping or poisoning as its location requires (R397). -/
  | uncorrectableError (site : ErrSite)
  /-- Stack request returning a line's memory copy (R212). -/
  | lineRead (pa : Nat)
  /-- Stack request merging masked bytes into a line (R212). -/
  | lineWrite (pa mask : Nat) (data : List Byte)
  /-- Stack request reading a tile by tensor identifier (R208). -/
  | tileRead (part : Nat) (tid coords : Word)
  /-- Stack request writing the in-range bytes of a tile (R208). -/
  | tileWrite (part : Nat) (tid coords : Word) (data : List Byte)
  /-- Writes a region's dirty MSC lines to DRAM and keeps them (R212). -/
  | regionClean (base len : Nat)
  /-- Cleans and then drops a region's MSC lines (R212). -/
  | regionInvalidate (base len : Nat)
  /-- Stack request reading a base-die register (R212). -/
  | configurationRead (stack : Nat) (reg : DieReg)
  /-- Stack request writing a base-die register (R212). -/
  | configurationWrite (stack : Nat) (reg : DieReg) (val : Word)
  /-- A conflict counter crosses its threshold and the base die adopts a new hash version (R214). -/
  | hashVersionAdopt (stack : Nat)
  /-- The beater engine moves one line to the new placement (R214). -/
  | beaterMove (stack : Nat)
  /-- Background scrub visits lines and writes corrected ones back (R400). -/
  | patrolScrub (site : Nat)
  /-- A Treluk flit arrives, is delivered in order or triggers a replay request (R40). -/
  | flitReceive (link seq : Nat) (crcOk : Bool) (payload : FlitPayload)
  /-- After 8 failed replays the link is declared dead and outstanding accesses fail (R40). -/
  | deadLink (link : Nat)
  /-- A Treluk link trains and its far end reports its package number (R24). -/
  | linkUp (link far : Nat)
  /-- A host CXL.cache snoop reaches a Newel or Arcade cache and is answered (R39). -/
  | hostSnoop (line : Nat) (inv : Bool)
  /-- An inbound PCIe or CXL.io request is bound, translated and performed, or refused (R356). -/
  | inboundHostRequest (req : HostReq)
  /-- An incoming RDMA request is checked against the connection and window (R346). -/
  | incomingRdma (req : RdmaReq)
  /-- A committed write to a WIDX line raises a doorbell event for the queue (R259). -/
  | doorbell (part q : Nat)
  /-- The hub checks and processes a dispatch packet, loading arguments and groups (R261). -/
  | dispatchPacket (part q : Nat)
  /-- The hub processes a barrier packet and evaluates its wait list (R266). -/
  | barrierPacket (part q : Nat)
  /-- The hub performs a signal packet's set or subtract atomic (R268). -/
  | signalPacket (part q : Nat)
  /-- A write to a listed signal re-evaluates a waiting barrier packet (R267). -/
  | barrierEvaluate (part q : Nat)
  /-- With no free watch entry, a barrier signal is re-read every 4,096 ticks (R267). -/
  | barrierSignalReread (part q : Nat)
  /-- All workgroups, drains and release waits are done and CSIG is decremented (R265). -/
  | dispatchComplete (launch : Nat)
  /-- Flights become free and the scheduler places a gang, starting its workgroups (R274). -/
  | gangPlace (launch gang chip flight : Nat)
  /-- At a launch's first placement on a profile the calender hits, specialises or falls back (R307). -/
  | calenderDecision (launch prof : Nat)
  /-- A lower-priority gang is pre-empted to make room for a higher one (R279). -/
  | gangPreempt (launch gang : Nat)
  /-- After outstanding work completes, a pre-empted gang's context is saved (R385). -/
  | contextSave (launch gang : Nat)
  /-- Old contexts move from the MSC reserve to a spill area (R389). -/
  | contextSpill (launch gang : Nat)
  /-- A saved gang is restored onto fitting flights of its profile (R390). -/
  | gangRestore (launch gang chip flight : Nat)
  /-- A waiting gang gains one level of effective priority per 16,777,216 ticks (R277). -/
  | agingTick (launch gang : Nat)
  /-- A slice timer tick event is processed by the mezzanine (R270). -/
  | sliceTimerTick
  /-- Activates a disabled queue after checking its descriptor (R258). -/
  | qctlActivate (part q : Nat)
  /-- Stops processing packets of a queue (R258). -/
  | qctlDisable (part q : Nat)
  /-- Returns an aborted queue to active at RIDX (R258). -/
  | qctlReset (part q : Nat)
  /-- Makes a Vat region non-coherent, or refuses (R211). -/
  | ncrqMakeNoncoherent (part : Nat)
  /-- Makes a region I/O-coherent if it has no dirty lines (R211). -/
  | ncrqMakeCoherent (part : Nat)
  /-- Supervisor pre-emption of a gang of its partition (R280). -/
  | preqPreempt (part : Nat)
  /-- Pre-empts and holds a gang (R280). -/
  | preqPreemptHold (part : Nat)
  /-- Releases a held gang (R280). -/
  | preqRelease (part : Nat)
  /-- Assigns a free chiplet to a partition (R360). -/
  | chctlAssign (chip part : Nat)
  /-- Pre-empts every gang on a chiplet and frees it (R360). -/
  | chctlUnassign (chip : Nat)
  /-- Isolates a chiplet, saving or killing its gangs and closing its link (R361). -/
  | chctlIsolate (chip : Nat)
  /-- A save not finished after 1,048,576 ticks kills the gang (R361). -/
  | isolationSaveTimeout (chip : Nat)
  /-- Drains not complete after 4,194,304 ticks fail with REFUSED (R361). -/
  | isolationDrainTimeout (chip : Nat)
  /-- Resets an isolated chiplet, zeroing banks and tread state (R360). -/
  | chctlReset (chip : Nat)
  /-- Reads and checks a capability record and assigns ranges and class (R360). -/
  | chctlEnumerate (chip : Nat)
  /-- Gives a free Ethernet port to a partition (R360). -/
  | chctlAssignPort (port part : Nat)
  /-- Takes a port back and puts its connections into error (R360). -/
  | chctlUnassignPort (port : Nat)
  /-- Starts a halted Newel core at M at NCADDR (R362). -/
  | ncoreStart (core : Nat)
  /-- Halts a Newel core at a bundle boundary (R362). -/
  | ncoreHalt (core : Nat)
  /-- Raises SOFT on a Newel core of the partition (R339). -/
  | ndoorWrite (part : Nat) (val : Word)
  /-- Raises SOFT on any Newel core from the monitor (R339). -/
  | mdoorWrite (val : Word)
  /-- Sets the timer compare value, clearing TIMER when later (R339). -/
  | tcmpWrite (core : Nat) (val : Word)
  /-- Sets a partition's quire quota unless quotas would exceed 256 (R321). -/
  | calctlQuotaWrite (part : Nat) (val : Word)
  /-- Invalidates the partition's unpinned quire entries (R321). -/
  | calctlFlush (part : Nat)
  /-- A monitor write clears CALST and CALKID (R321). -/
  | calstClear (part : Nat)
  /-- Arcade chiplets re-read the connection table and reset sequence numbers (R346). -/
  | connbWrite (part : Nat) (val : Word)
  /-- Sets watch and version quotas unless sums are exceeded (R345). -/
  | pquotaWrite (part : Nat) (val : Word)
  /-- Records a partition image digest in a measurement index once (R367). -/
  | mextWrite (val : Word)
  /-- Selects a line whose directory entry DIRD then reports (R358). -/
  | dirqWrite (val : Word)
  /-- Sets the package number only while Treluk links are disabled (R24). -/
  | pknumWrite (val : Word)
  /-- Sets the MSC context reserve unless contexts are saved (R388). -/
  | ctxresWrite (val : Word)
  /-- A write to IOFLT, IOUNB or ERRST clears its counter or W1C flag (R357). -/
  | counterClearWrite (reg : CounterReg) (val : Word)
  /-- Requests a level for a requestable island (R427). -/
  | islReqWrite (isl : Nat) (val : Word)
  /-- An island stops up to 4,000 ticks and takes its target level (R427). -/
  | islandLevelChange (isl : Nat)
  /-- Sets the monitor's package power limit (R428). -/
  | pwrctlWrite (val : Word)
  /-- Every 1 ms the controller compares power and temperature and lowers or raises caps (R428). -/
  | powerControlSample (r : PowerReading)
  /-- Selects the telemetry value that TELVAL returns (R429). -/
  | telselWrite (val : Word)
  /-- A write to a register with no behaviour of its own sets its RW fields (R6). -/
  | registerWrite (reg : PlainReg) (val : Word)
  /-- A junction above 115 C or standby loss removes main power at once (R425). -/
  | thermalTrip
  /-- Package reset starts the signed boot sequence on Newel core 0 (R364). -/
  | packageReset
  /-- SPDM request answered with supported versions (R367). -/
  | getVersion (port : Nat)
  /-- SPDM request answered with capabilities (R367). -/
  | getCapabilities (port : Nat)
  /-- SPDM algorithm negotiation (R367). -/
  | negotiateAlgorithms (port : Nat) (req : SpdmAlgs)
  /-- SPDM request for certificate digests (R367). -/
  | getDigests (port : Nat)
  /-- SPDM request for the device identity certificate (R367). -/
  | getCertificate (port off len : Nat)
  /-- SPDM challenge signed with the device identity key (R367). -/
  | challenge (port : Nat) (nonce : List Byte)
  /-- SPDM request for signed measurements (R367). -/
  | getMeasurements (port idx : Nat) (nonce : List Byte)
  /-- Vendor MCTP message reading a telemetry KIND and INDEX (R430). -/
  | readTelemetryMessage (kind idx : Nat)
  /-- Vendor MCTP message reading BSTAT (R430). -/
  | readBstatMessage
  /-- Vendor MCTP message setting PWRCTL.OOB (R430). -/
  | setPwrctlOobMessage (watts : Nat)
  /-- A Treluk receiver raises ready again once buffer space frees, letting the transmitter resume and any waiting replay proceed (R40). -/
  | readyReturn (link : Nat)
  /-- A tier-2 CXL memory device returns data or acknowledges a write, which a .pk fence waits for (R203). -/
  | cxlDeviceAcknowledgement (tag : Nat) (data : List Byte)
  /-- The host completes an access to host memory, or answers a CXL.cache request, over a host port, as a .sy fence waits for (R203). -/
  | hostWriteComplete (tag : Nat) (data : List Byte)
  /-- The hub reports a hyp.open or hyp.resolve done, and its result lands in the stalled tread (R253). -/
  | resolveComplete (h : HartId)
  /-- The base die calibrates a pseudo-channel periodically and after temperature steps (R400). -/
  | dramCalibration (stack : Nat)
  /-- A UCIe, stack or Treluk link is calibrated periodically (R400). -/
  | linkCalibration (link : Nat)
  /-- The base die's programmable engine manages row disturbance on each pseudo-channel (R400). -/
  | rowDisturbanceManagement (stack : Nat)
  /-- The main input supply goes off while standby keeps the management interface alive and power readings read 0 (R430). -/
  | mainInputOff
  deriving DecidableEq, Repr

end Sys2Proof
end

