-- ==== Sys2Proof/WellFormed.lean ====
section
/-! DEFINITION. The decode checks that concern one instruction alone: unused fields are zero (detail
code 0x04, R86) and every field lies in its range and class (detail code 0x05, R86, R92, R94, R95,
R97, R99, R101, R142). -/

namespace Sys2Proof

/-- A 6-bit field that names a predicate, a mask or a tile (R86). -/
def small (x : BitVec 6) : Bool := x.toNat < 8

/-- A field that names a g register when `u` is set, so that its bit 5 must be 0 (R90). -/
def gOk (u : Bool) (x : BitVec 6) : Bool := !u || x.toNat < 32

/-- The floating element types of the VA slot (R95). -/
def VF.isFloat (f : VF) : Bool := f.t = 0#3 || f.t = 1#3 || f.t = 2#3
/-- The integer element types of the VA slot (R95). -/
def VF.isInt (f : VF) : Bool := f.t = 4#3 || f.t = 5#3 || f.t = 6#3

/-- Which qualifiers a row of R142 accepts. -/
inductive Qual where
  | no | int | float | yes
  deriving DecidableEq, Repr

/-- A qualifier bit against its cell of R142 and the exclusions of R95. -/
def Qual.ok (q : Qual) (f : VF) (on : Bool) : Bool :=
  !on || (match q with | .no => false | .int => f.isInt | .float => f.isFloat | .yes => true)

/-- The qualifier cells SAT, U, RM and Z of R142 for one instruction. -/
def VF.quals (f : VF) (sat u rm z : Qual) : Bool :=
  sat.ok f f.sat && u.ok f f.u && rm.ok f (f.rm ≠ 0#2) && z.ok f f.z

/-- The system-register numbers of R74, R337, R339 and R392. -/
def sysRegListed (n : Nat) : Bool :=
  n ≤ 0x12 || (0x18 ≤ n && n ≤ 0x1b) || (0x20 ≤ n && n ≤ 0x2e)

/-- The signed 12-bit immediate of `vmovi` (R150). -/
def VF.imm (f : VF) : Int := signedOf 12 (f.b.toNat * 64 + f.c.toNat)

/-- Fields that the instruction does not use are zero (R86, detail code 0x04). -/
def Instr.reservedOk : Instr → Bool
  | .brR f | .callR f | .sleepUntil f | .vbankAcq f | .vbankRel f =>
      !f.q && f.imm = 0#8 && f.b = 0#6
  | .barArrive f =>
      !f.q && f.a = 0#6
  | .barWait f =>
      !f.q
  | .hypOpen f | .hypEnter f =>
      !f.q && f.imm = 0#8
  | .hypResolveConfirm f =>
      !f.q && f.imm = 0#8
  | .hypResolveRefute f =>
      f.q && f.imm = 0#8
  | .mouldOpen f =>
      !f.q && f.b = 0#6
  | .mov f | .clz f | .ctz f | .popc f | .bswap f | .pnot f | .fsqrtF32 f | .fsqrtF64 f =>
      f.b = 0#6
  | .rdsr f =>
      f.a = 0#6
  | .wrsr f =>
      f.d = 0#6
  | .tlbinv f =>
      f.d = 0#6
  | .tlbsync f =>
      f.d = 0#6 && f.a = 0#6 && f.b = 0#6
  | .ldB f | .ldH f | .ldW f | .ldD f | .ldBu f | .ldHu f | .ldWu f | .stB f | .stH f | .stW f
  | .stD f =>
      f.sc = 0#3 && f.m = 0#3 && !f.q
  | .pf f =>
      f.sc = 0#3 && f.m = 0#3 && !f.q && f.d = 0#6
  | .vld f =>
      f.sc = 0#3
  | .vst f =>
      f.sc = 0#3 && !f.q
  | .tld f | .tst f =>
      f.sc = 0#3 && f.m = 0#3 && !f.q
  | .vgath f =>
      f.sc = 0#3
  | .vscat f =>
      f.sc = 0#3 && !f.q
  | .amoAdd f | .amoMin f | .amoMax f | .amoMinu f | .amoMaxu f | .amoAnd f | .amoOr f | .amoXor f
  | .amoXchg f | .amoCas f | .monWait f =>
      f.m = 0#3
  | .redAdd f | .redMin f | .redMax f | .redAnd f | .redOr f | .redXor f =>
      f.m = 0#3 && f.d = 0#6
  | .fenceScope f =>
      f.m = 0#3 && !f.q && !f.ua && f.a = 0#6 && f.b = 0#6 && f.off = 0#12
  | .flushRegion f =>
      f.m = 0#3 && !f.q && f.d = 0#6
  | .vadd f | .vsub f | .vmul f | .vmin f | .vmax f | .vand f | .vor f | .vxor f | .vshl f
  | .vshr f | .vcmpEq f | .vcmpNe f | .vcmpLt f | .vcmpLe f | .vperm f | .vrot f =>
      f.c = 0#6
  | .vabs f | .vneg f | .vnot f | .vmov f | .vrcp f | .vrsqrt f | .vsqrt f | .vexp2 f | .vlog2 f
  | .vtanh f | .vsin f | .vcos f | .vredAdd f | .vredMin f | .vredMax f | .accept f =>
      f.b = 0#6 && f.c = 0#6
  | .vmovi f =>
      f.a = 0#6
  | .vrng f =>
      f.a = 0#6 && f.b = 0#6 && f.c = 0#6
  | .mand f | .mor f | .mxor f | .mandn f =>
      f.c = 0#6
  | .mnot f =>
      f.b = 0#6 && f.c = 0#6
  | .xAny f | .xAll f | .xNone f | .xCnt f =>
      f.b = 0#6
  | .xPass f =>
      f.d = 0#6 && f.b = 0#6
  | .xRecv f =>
      f.a = 0#6 && f.b = 0#6
  | .mma f =>
      f.a = 0#6 && f.b = 0#6
  | .accClr f =>
      f.a = 0#6 && f.b = 0#6 && f.fmt = 0#4 && !f.keep && f.om = 0#3 && f.ta = 0#4
  | .accLd f | .accSt f =>
      f.fmt = 0#4 && !f.keep && f.om = 0#3 && f.ta = 0#4
  | .accCvt f =>
      f.a = 0#6 && f.b = 0#6 && !f.keep && f.om = 0#3
  | .latchRel f =>
      f.a = 0#6 && f.b = 0#6 && f.fmt = 0#4 && !f.keep && f.om = 0#3 && f.ta = 0#4 && f.ac = 0#2
  | .omSet f =>
      f.fmt = 0#4 && !f.keep && f.ta = 0#4 && f.ac = 0#2
  | .copyGv f | .copyVg f | .copyVv f | .copyGg f =>
      f.q = 0#4
  | .copyTile f =>
      f.q.toNat < 2
  | .copyCheck f =>
      f.q = 0#4 && f.b = 0#6 && f.c = 0#6
  | .semAdd f | .semSub f | .semSet f =>
      f.q.toNat < 2 && f.c.toNat < 4 && (f.q = 1#4 || f.d = 0#6)
  | .sigWr f =>
      f.c = 0#6 && f.d = 0#6
  | .grpRed f =>
      f.q.toNat < 8 && f.c.toNat < 4
  | _ => true

/-- Every field lies in the range and register class listed for it (R86, detail code 0x05).
(DEDUCED: log entry 106.) -/
def Instr.rangeOk : Instr → Bool
  | .mouldOpen f =>
      f.imm.toNat < 8
  | .add f | .sub f | .and f | .or f | .xor f | .shl f | .shr f | .sra f | .mul f | .mulhs f
  | .mulhu f | .div f | .divu f | .rem f | .remu f | .mov f | .min f | .max f | .minu f | .maxu f
  | .bfx f | .bfxu f | .bfi f | .sel _ f | .clz f | .ctz f | .popc f | .bswap f =>
      gOk f.ua f.a && gOk f.ud f.d
  | .cmpEq f | .cmpNe f | .cmpLt f | .cmpLe f | .cmpLtu f | .cmpLeu f =>
      !f.ud && gOk f.ua f.a && small f.d
  | .cmpiEq f | .cmpiNe f | .cmpiLt f | .cmpiLe f | .cmpiLtu f | .cmpiLeu f =>
      small f.d
  | .shli f | .shri f | .srai f =>
      f.imm.toNat < 64
  | .pand f | .por f | .pxor f =>
      !f.ua && !f.ud && small f.d && small f.a && small f.b
  | .pnot f =>
      !f.ua && !f.ud && small f.d && small f.a
  | .faddF32 f | .fsubF32 f | .fmulF32 f | .ffmaF32 f | .fdivF32 f | .fsqrtF32 f | .fminF32 f
  | .fmaxF32 f | .faddF64 f | .fsubF64 f | .fmulF64 f | .ffmaF64 f | .fdivF64 f | .fsqrtF64 f
  | .fminF64 f | .fmaxF64 f | .tlbinv f | .tlbsync f =>
      !f.ua && !f.ud
  | .fcmpEqF32 f | .fcmpLtF32 f | .fcmpLeF32 f | .fcmpUnF32 f | .fcmpEqF64 f | .fcmpLtF64 f
  | .fcmpLeF64 f | .fcmpUnF64 f =>
      !f.ua && !f.ud && small f.d
  | .fcvt f =>
      !f.ua && !f.ud && f.b.toNat < 16
  | .rdsr f | .wrsr f =>
      sysRegListed f.imm.toNat
  | .ldB f | .ldH f | .ldW f | .ldD f | .ldBu f | .ldHu f | .ldWu f | .pf f | .stB f | .stH f
  | .stW f | .stD f | .vld f | .vst f =>
      gOk f.ua f.a
  | .tld f | .tst f =>
      gOk f.ua f.a && small f.d
  | .vgath f | .vscat f =>
      gOk f.ua f.a
  | .amoAdd f | .amoMin f | .amoMax f | .amoMinu f | .amoMaxu f | .amoAnd f | .amoOr f | .amoXor f
  | .amoXchg f | .amoCas f | .redAdd f | .redMin f | .redMax f | .redAnd f | .redOr f | .redXor f
  | .flushRegion f =>
      gOk f.ua f.a && f.sc.toNat < 6
  | .fenceScope f =>
      f.sc.toNat < 6
  | .monWait f =>
      gOk f.ua f.a && f.sc.toNat < 4
  | .vadd f | .vsub f | .vmul f | .vfma f | .vredAdd f =>
      (f.isFloat || f.isInt) && f.quals .int .int .float .yes
  | .vmin f | .vmax f | .vredMin f | .vredMax f =>
      (f.isFloat || f.isInt) && f.quals .no .int .no .yes
  | .vcmpEq f | .vcmpNe f | .vcmpLt f | .vcmpLe f =>
      (f.isFloat || f.isInt) && f.quals .no .int .no .yes && small f.d
  | .vabs f | .vneg f =>
      (f.isFloat || f.isInt) && f.quals .int .no .no .yes
  | .vand f | .vor f | .vxor f | .vnot f | .vmov f | .vperm f =>
      (f.isFloat || f.isInt) && f.quals .no .no .no .yes
  | .vsel f =>
      (f.isFloat || f.isInt) && f.quals .no .no .no .yes && small f.c
  | .vshl f =>
      f.isInt && f.quals .no .no .no .yes
  | .vshr f =>
      f.isInt && f.quals .no .yes .no .yes
  | .vrcp f | .vrsqrt f | .vsqrt f | .vexp2 f | .vlog2 f | .vtanh f | .vsin f | .vcos f =>
      f.isFloat && f.quals .no .no .yes .yes
  | .vcvt f =>
      f.t = 0#3 && f.quals .no .no .yes .yes && f.b.toNat < 10 && f.c.toNat < 10
  | .vquant f | .vdequant f =>
      f.t = 0#3 && f.quals .no .no .yes .yes &&
        (f.b = 3#6 || f.b = 4#6 || f.b = 5#6 || f.b = 8#6 || f.b = 9#6)
  | .vmovi f =>
      (f.isFloat || f.isInt) && f.quals .no .no .float .yes &&
        (f.t ≠ 6#3 || (-128 ≤ f.imm && f.imm ≤ 127))
  | .vrot f =>
      f.t = 4#3 && f.quals .no .no .no .yes
  | .vrng f =>
      (f.t = 0#3 || f.isInt) && f.quals .no .no .float .yes
  | .accept f =>
      f.t = 0#3 && f.quals .no .no .no .no && small f.d
  | .mand f | .mor f | .mxor f | .mandn f =>
      f.t = 0#3 && f.m = 0#3 && f.quals .no .no .no .no && small f.d && small f.a && small f.b
  | .mnot f =>
      f.t = 0#3 && f.m = 0#3 && f.quals .no .no .no .no && small f.d && small f.a
  | .xBcast f =>
      !f.ud && gOk f.ua f.a && f.b.toNat < 3
  | .xFirst f =>
      !f.ua && gOk f.ud f.d && small f.b
  | .xLane f =>
      !f.ua && gOk f.ud f.d
  | .xAny f | .xAll f | .xNone f =>
      !f.ua && !f.ud && small f.d && small f.a
  | .xCnt f =>
      !f.ua && gOk f.ud f.d && small f.a
  | .xPass f | .xRecv f =>
      !f.ua && !f.ud
  | .mma f =>
      f.fmt.toNat < 6 && f.ta.toNat < 9
  | .mmaQ f =>
      (f.fmt = 6#4 || f.fmt = 7#4) && f.ta.toNat < 9
  | .accCvt f =>
      (f.fmt.toNat < 4 || f.fmt = 6#4) && f.ta.toNat < 8
  | .copyIdx f =>
      f.q.toNat < 10
  | .sigWr f =>
      f.q.toNat < 2
  | .grpRed f =>
      f.q.toNat % 4 < 3
  | _ => true

/-- The checks 0x04 and 0x05 of R103 for one instruction. -/
abbrev WellFormed (i : Instr) : Prop := i.reservedOk = true ∧ i.rangeOk = true

/-- The operations that stand in a slot of a bundle; the other constructors are events. -/
def Instr.isOp : Instr → Bool
  | .exposedResultLands .. | .xPassEntryArrives .. | .mxOccupancyEnd .. | .freeze ..
  | .freezeEnd .. | .flightResumeAtMeet .. | .groupArrival .. | .gangPark .. | .parkedGangWake ..
  | .monWaitRecheck .. | .watchTrigger .. | .baseTimeRise | .logicalTimePause | .writeStamp ..
  | .leaseFill .. | .invalidationAck .. | .peerFill .. | .evictionNotice .. | .recallLine ..
  | .atomicAtHome .. | .lockedSequenceTimeout .. | .vaultStoreLands .. | .fenceTimeout ..
  | .hypothesisFull .. | .engineVersionTimeout .. | .hypothesisLost .. | .copyComplete ..
  | .netComplete .. | .engineTranslationFault .. | .missedPromiseLatch .. | .missedPromise ..
  | .semGgLands .. | .memoryError .. | .translationWalk .. | .tlbinvComplete .. | .debugStep ..
  | .coreEvent .. | .timerExpiry .. | .treadStateError .. | .uncorrectableError .. | .lineRead ..
  | .lineWrite .. | .tileRead .. | .tileWrite .. | .regionClean .. | .regionInvalidate ..
  | .configurationRead .. | .configurationWrite .. | .hashVersionAdopt .. | .beaterMove ..
  | .patrolScrub .. | .flitReceive .. | .deadLink .. | .linkUp .. | .hostSnoop ..
  | .inboundHostRequest .. | .incomingRdma .. | .doorbell .. | .dispatchPacket ..
  | .barrierPacket .. | .signalPacket .. | .barrierEvaluate .. | .barrierSignalReread ..
  | .dispatchComplete .. | .gangPlace .. | .calenderDecision .. | .gangPreempt ..
  | .contextSave .. | .contextSpill .. | .gangRestore .. | .agingTick .. | .sliceTimerTick
  | .qctlActivate .. | .qctlDisable .. | .qctlReset .. | .ncrqMakeNoncoherent ..
  | .ncrqMakeCoherent .. | .preqPreempt .. | .preqPreemptHold .. | .preqRelease ..
  | .chctlAssign .. | .chctlUnassign .. | .chctlIsolate .. | .isolationSaveTimeout ..
  | .isolationDrainTimeout .. | .chctlReset .. | .chctlEnumerate .. | .chctlAssignPort ..
  | .chctlUnassignPort .. | .ncoreStart .. | .ncoreHalt .. | .ndoorWrite .. | .mdoorWrite ..
  | .tcmpWrite .. | .calctlQuotaWrite .. | .calctlFlush .. | .calstClear .. | .connbWrite ..
  | .pquotaWrite .. | .mextWrite .. | .dirqWrite .. | .pknumWrite .. | .ctxresWrite ..
  | .counterClearWrite .. | .islReqWrite .. | .islandLevelChange .. | .pwrctlWrite ..
  | .powerControlSample .. | .telselWrite .. | .registerWrite .. | .thermalTrip | .packageReset
  | .getVersion .. | .getCapabilities .. | .negotiateAlgorithms .. | .getDigests ..
  | .getCertificate .. | .challenge .. | .getMeasurements .. | .readTelemetryMessage ..
  | .readBstatMessage | .setPwrctlOobMessage .. | .readyReturn .. | .cxlDeviceAcknowledgement ..
  | .hostWriteComplete .. | .resolveComplete .. | .dramCalibration .. | .linkCalibration ..
  | .rowDisturbanceManagement .. | .mainInputOff => false
  | _ => true

end Sys2Proof
end

