-- ==== Sys2Proof/Decode.lean ====
section
/-! DEFINITION. The decoder (R77 to R103), total on any bytes and rejecting by detail code, and the
encoder of one slot word, both written from the same tables. -/

namespace Sys2Proof

/-- Bit `l` of a word. -/
def bitAt (l w : Nat) : Bool := w / 2 ^ l % 2 = 1

/-- The guard at bits [3:0] (R82). -/
def Guard.dec (w : Nat) : Guard := ⟨bitAt 3 w, BitVec.ofNat 3 w⟩
/-- The guard as a number. -/
def Guard.enc (g : Guard) : Nat := g.pred.toNat + 8 * g.neg.toNat

/-- Guard and K, bits [4:0] (R83). -/
def GK.dec (w : Nat) : GK := ⟨.dec w, bitAt 4 w⟩
/-- Guard and K as a number. -/
def GK.enc (x : GK) : Nat := x.g.enc + 16 * x.k.toNat

/-- CT format CN (R87). -/
def CN.dec (w : Nat) : CN := ⟨.dec w⟩
/-- CT format CN (R87). -/
def CN.enc (op : Nat) (f : CN) : Nat := f.gk.enc + 32 * op
/-- CT format CI (R87). -/
def CI.dec (w : Nat) : CI := ⟨.dec w, BitVec.ofNat 10 (w / 2 ^ 11)⟩
/-- CT format CI (R87). -/
def CI.enc (op : Nat) (f : CI) : Nat := f.gk.enc + 32 * op + 2 ^ 11 * f.imm.toNat
/-- CT format CB (R87). -/
def CB.dec (w : Nat) : CB := ⟨.dec w, BitVec.ofNat 21 (w / 2 ^ 11)⟩
/-- CT format CB (R87). -/
def CB.enc (op : Nat) (f : CB) : Nat := f.gk.enc + 32 * op + 2 ^ 11 * f.disp.toNat
/-- CT format CR (R87). -/
def CR.dec (w : Nat) : CR :=
  ⟨.dec w, bitAt 31 w, BitVec.ofNat 8 (w / 2 ^ 23), BitVec.ofNat 6 (w / 2 ^ 17),
    BitVec.ofNat 6 (w / 2 ^ 11)⟩
/-- CT format CR (R87). -/
def CR.enc (op : Nat) (f : CR) : Nat :=
  f.gk.enc + 32 * op + 2 ^ 11 * f.a.toNat + 2 ^ 17 * f.b.toNat + 2 ^ 23 * f.imm.toNat
    + 2 ^ 31 * f.q.toNat
/-- CT format CL (R87). -/
def CL.dec (w : Nat) : CL :=
  ⟨.dec w, BitVec.ofNat 5 (w / 2 ^ 22), BitVec.ofNat 5 (w / 2 ^ 17), BitVec.ofNat 6 (w / 2 ^ 11)⟩
/-- CT format CL (R87). -/
def CL.enc (op : Nat) (f : CL) : Nat :=
  f.gk.enc + 32 * op + 2 ^ 11 * f.a.toNat + 2 ^ 17 * f.len.toNat + 2 ^ 22 * f.ii.toNat
/-- CT format CS (R87). -/
def CS.dec (w : Nat) : CS := ⟨.dec w, BitVec.ofNat 6 (w / 2 ^ 19), BitVec.ofNat 8 (w / 2 ^ 11)⟩
/-- CT format CS (R87). -/
def CS.enc (op : Nat) (f : CS) : Nat :=
  f.gk.enc + 32 * op + 2 ^ 11 * f.sem.toNat + 2 ^ 19 * f.thr.toNat

/-- Scalar format SR (R90). -/
def SR.dec (w : Nat) : SR :=
  ⟨.dec w, bitAt 31 w, bitAt 30 w, BitVec.ofNat 6 (w / 2 ^ 24), BitVec.ofNat 6 (w / 2 ^ 18),
    BitVec.ofNat 6 (w / 2 ^ 12)⟩
/-- Scalar format SR (R90). -/
def SR.enc (op : Nat) (f : SR) : Nat :=
  f.gk.enc + 32 * op + 2 ^ 12 * f.d.toNat + 2 ^ 18 * f.a.toNat + 2 ^ 24 * f.b.toNat
    + 2 ^ 30 * f.ud.toNat + 2 ^ 31 * f.ua.toNat
/-- Scalar format SI (R90). -/
def SI.dec (w : Nat) : SI :=
  ⟨.dec w, BitVec.ofNat 8 (w / 2 ^ 24), BitVec.ofNat 6 (w / 2 ^ 18), BitVec.ofNat 6 (w / 2 ^ 12)⟩
/-- Scalar format SI (R90). -/
def SI.enc (op : Nat) (f : SI) : Nat :=
  f.gk.enc + 32 * op + 2 ^ 12 * f.d.toNat + 2 ^ 18 * f.a.toNat + 2 ^ 24 * f.imm.toNat
/-- Scalar format SU (R90). -/
def SU.dec (w : Nat) : SU := ⟨.dec w, BitVec.ofNat 14 (w / 2 ^ 18), BitVec.ofNat 6 (w / 2 ^ 12)⟩
/-- Scalar format SU (R90). -/
def SU.enc (op : Nat) (f : SU) : Nat :=
  f.gk.enc + 32 * op + 2 ^ 12 * f.d.toNat + 2 ^ 18 * f.imm.toNat

/-- LS format LO (R93). -/
def LO.dec (w : Nat) : LO :=
  ⟨.dec w, BitVec.ofNat 18 (w / 2 ^ 30), bitAt 29 w, bitAt 28 w, BitVec.ofNat 3 (w / 2 ^ 25),
    BitVec.ofNat 3 (w / 2 ^ 22), BitVec.ofNat 6 (w / 2 ^ 16), BitVec.ofNat 6 (w / 2 ^ 10)⟩
/-- LS format LO (R93). -/
def LO.enc (op : Nat) (f : LO) : Nat :=
  f.g.enc + 16 * op + 2 ^ 10 * f.d.toNat + 2 ^ 16 * f.a.toNat + 2 ^ 22 * f.sc.toNat
    + 2 ^ 25 * f.m.toNat + 2 ^ 28 * f.q.toNat + 2 ^ 29 * f.ua.toNat + 2 ^ 30 * f.off.toNat
/-- LS format LB (R93). -/
def LB.dec (w : Nat) : LB :=
  ⟨.dec w, BitVec.ofNat 12 (w / 2 ^ 36), BitVec.ofNat 6 (w / 2 ^ 30), bitAt 29 w, bitAt 28 w,
    BitVec.ofNat 3 (w / 2 ^ 25), BitVec.ofNat 3 (w / 2 ^ 22), BitVec.ofNat 6 (w / 2 ^ 16),
    BitVec.ofNat 6 (w / 2 ^ 10)⟩
/-- LS format LB (R93). -/
def LB.enc (op : Nat) (f : LB) : Nat :=
  f.g.enc + 16 * op + 2 ^ 10 * f.d.toNat + 2 ^ 16 * f.a.toNat + 2 ^ 22 * f.sc.toNat
    + 2 ^ 25 * f.m.toNat + 2 ^ 28 * f.q.toNat + 2 ^ 29 * f.ua.toNat + 2 ^ 30 * f.b.toNat
    + 2 ^ 36 * f.off.toNat

/-- The VA slot (R95). -/
def VF.dec (w : Nat) : VF :=
  ⟨.dec w, bitAt 44 w, BitVec.ofNat 2 (w / 2 ^ 42), bitAt 41 w, bitAt 40 w,
    BitVec.ofNat 3 (w / 2 ^ 37), BitVec.ofNat 6 (w / 2 ^ 31), BitVec.ofNat 6 (w / 2 ^ 25),
    BitVec.ofNat 6 (w / 2 ^ 19), BitVec.ofNat 6 (w / 2 ^ 13), BitVec.ofNat 3 (w / 2 ^ 10)⟩
/-- The VA slot (R95). -/
def VF.enc (op : Nat) (f : VF) : Nat :=
  f.g.enc + 16 * op + 2 ^ 10 * f.t.toNat + 2 ^ 13 * f.d.toNat + 2 ^ 19 * f.a.toNat
    + 2 ^ 25 * f.b.toNat + 2 ^ 31 * f.c.toNat + 2 ^ 37 * f.m.toNat + 2 ^ 40 * f.z.toNat
    + 2 ^ 41 * f.u.toNat + 2 ^ 42 * f.rm.toNat + 2 ^ 44 * f.sat.toNat

/-- The XF slot (R97). -/
def XT.dec (w : Nat) : XT :=
  ⟨.dec w, bitAt 30 w, bitAt 29 w, BitVec.ofNat 6 (w / 2 ^ 23), BitVec.ofNat 6 (w / 2 ^ 17),
    BitVec.ofNat 6 (w / 2 ^ 11)⟩
/-- The XF slot (R97). -/
def XT.enc (op : Nat) (f : XT) : Nat :=
  f.gk.enc + 32 * op + 2 ^ 11 * f.d.toNat + 2 ^ 17 * f.a.toNat + 2 ^ 23 * f.b.toNat
    + 2 ^ 29 * f.ud.toNat + 2 ^ 30 * f.ua.toNat

/-- The wait and signal fields at bits [63:38] (R84). -/
def WaitSig.dec (w : Nat) : WaitSig :=
  ⟨BitVec.ofNat 4 (w / 2 ^ 60), BitVec.ofNat 8 (w / 2 ^ 52), BitVec.ofNat 6 (w / 2 ^ 46),
    BitVec.ofNat 8 (w / 2 ^ 38)⟩
/-- The wait and signal fields as a number. -/
def WaitSig.enc (x : WaitSig) : Nat :=
  2 ^ 38 * x.widx.toNat + 2 ^ 46 * x.wthr.toNat + 2 ^ 52 * x.sidx.toNat + 2 ^ 60 * x.sinc.toNat

/-- The MX slot (R98). -/
def MF.dec (w : Nat) : MF :=
  ⟨.dec w, .dec w, BitVec.ofNat 6 (w / 2 ^ 30), BitVec.ofNat 6 (w / 2 ^ 24),
    BitVec.ofNat 4 (w / 2 ^ 20), bitAt 19 w, BitVec.ofNat 3 (w / 2 ^ 16),
    BitVec.ofNat 4 (w / 2 ^ 12), BitVec.ofNat 2 (w / 2 ^ 10)⟩
/-- The MX slot (R98). -/
def MF.enc (op : Nat) (f : MF) : Nat :=
  f.g.enc + 16 * op + 2 ^ 10 * f.ac.toNat + 2 ^ 12 * f.ta.toNat + 2 ^ 16 * f.om.toNat
    + 2 ^ 19 * f.keep.toNat + 2 ^ 20 * f.fmt.toNat + 2 ^ 24 * f.a.toNat + 2 ^ 30 * f.b.toNat
    + f.ws.enc

/-- The EC slot (R100). -/
def EF.dec (w : Nat) : EF :=
  ⟨.dec w, .dec w, BitVec.ofNat 4 (w / 2 ^ 34), BitVec.ofNat 6 (w / 2 ^ 28),
    BitVec.ofNat 6 (w / 2 ^ 22), BitVec.ofNat 6 (w / 2 ^ 16), BitVec.ofNat 6 (w / 2 ^ 10)⟩
/-- The EC slot (R100). -/
def EF.enc (op : Nat) (f : EF) : Nat :=
  f.g.enc + 16 * op + 2 ^ 10 * f.d.toNat + 2 ^ 16 * f.a.toNat + 2 ^ 22 * f.b.toNat
    + 2 ^ 28 * f.c.toNat + 2 ^ 34 * f.q.toNat + f.ws.enc

/-- The CT grid (R88). -/
def decodeCt (op w : Nat) : Option Instr :=
  match op with
  | 0 => some (.nop (CN.dec w))
  | 1 => some (.hold (CI.dec w))
  | 2 => some (.br (CB.dec w))
  | 3 => some (.call (CB.dec w))
  | 4 => some (.brR (CR.dec w))
  | 5 => some (.callR (CR.dec w))
  | 6 => some (.loop (CL.dec w))
  | 7 => some (.sleepUntil (CR.dec w))
  | 8 => some (.waitSem (CS.dec w))
  | 9 => some (.detach (CB.dec w))
  | 10 => some (.meet (CN.dec w))
  | 11 => some (.retire (CN.dec w))
  | 12 => some (.barArrive (CR.dec w))
  | 13 => some (.barWait (CR.dec w))
  | 16 => some (.hypOpen (CR.dec w))
  | 17 => some (.hypEnter (CR.dec w))
  | 18 => some (.hypLeave (CN.dec w))
  | 20 => some (.mouldOpen (CR.dec w))
  | 21 => some (.mouldCancel (CN.dec w))
  | 22 => some (.vbankAcq (CR.dec w))
  | 23 => some (.vbankRel (CR.dec w))
  | 24 => some (.trap (CI.dec w))
  | 25 => some (.sys (CI.dec w))
  | 26 => some (.bkpt (CI.dec w))
  | 27 => some (.eret (CN.dec w))
  | 19 => if (CR.dec w).q then some (.hypResolveRefute (CR.dec w)) else some (.hypResolveConfirm (CR.dec w))
  | _ => none

/-- The scalar grid (R91). -/
def decodeScalar (op w : Nat) : Option Instr :=
  match op with
  | 0 => some (.add (SR.dec w))
  | 1 => some (.sub (SR.dec w))
  | 2 => some (.and (SR.dec w))
  | 3 => some (.or (SR.dec w))
  | 4 => some (.xor (SR.dec w))
  | 5 => some (.shl (SR.dec w))
  | 6 => some (.shr (SR.dec w))
  | 7 => some (.sra (SR.dec w))
  | 8 => some (.mul (SR.dec w))
  | 9 => some (.mulhs (SR.dec w))
  | 10 => some (.mulhu (SR.dec w))
  | 11 => some (.div (SR.dec w))
  | 12 => some (.divu (SR.dec w))
  | 13 => some (.rem (SR.dec w))
  | 14 => some (.remu (SR.dec w))
  | 15 => some (.mov (SR.dec w))
  | 16 => some (.min (SR.dec w))
  | 17 => some (.max (SR.dec w))
  | 18 => some (.minu (SR.dec w))
  | 19 => some (.maxu (SR.dec w))
  | 20 => some (.bfx (SR.dec w))
  | 21 => some (.bfxu (SR.dec w))
  | 22 => some (.bfi (SR.dec w))
  | 32 => some (.addi (SI.dec w))
  | 33 => some (.andi (SI.dec w))
  | 34 => some (.ori (SI.dec w))
  | 35 => some (.xori (SI.dec w))
  | 36 => some (.shli (SI.dec w))
  | 37 => some (.shri (SI.dec w))
  | 38 => some (.srai (SI.dec w))
  | 39 => some (.muli (SI.dec w))
  | 40 => some (.movi (SU.dec w))
  | 41 => some (.movsh (SU.dec w))
  | 42 => some (.clz (SR.dec w))
  | 43 => some (.ctz (SR.dec w))
  | 44 => some (.popc (SR.dec w))
  | 45 => some (.bswap (SR.dec w))
  | 48 => some (.cmpEq (SR.dec w))
  | 49 => some (.cmpNe (SR.dec w))
  | 50 => some (.cmpLt (SR.dec w))
  | 51 => some (.cmpLe (SR.dec w))
  | 52 => some (.cmpLtu (SR.dec w))
  | 53 => some (.cmpLeu (SR.dec w))
  | 56 => some (.cmpiEq (SI.dec w))
  | 57 => some (.cmpiNe (SI.dec w))
  | 58 => some (.cmpiLt (SI.dec w))
  | 59 => some (.cmpiLe (SI.dec w))
  | 60 => some (.cmpiLtu (SI.dec w))
  | 61 => some (.cmpiLeu (SI.dec w))
  | 64 => some (.pand (SR.dec w))
  | 65 => some (.por (SR.dec w))
  | 66 => some (.pxor (SR.dec w))
  | 67 => some (.pnot (SR.dec w))
  | 72 => some (.faddF32 (SR.dec w))
  | 73 => some (.fsubF32 (SR.dec w))
  | 74 => some (.fmulF32 (SR.dec w))
  | 75 => some (.ffmaF32 (SR.dec w))
  | 76 => some (.fdivF32 (SR.dec w))
  | 77 => some (.fsqrtF32 (SR.dec w))
  | 78 => some (.fminF32 (SR.dec w))
  | 79 => some (.fmaxF32 (SR.dec w))
  | 80 => some (.faddF64 (SR.dec w))
  | 81 => some (.fsubF64 (SR.dec w))
  | 82 => some (.fmulF64 (SR.dec w))
  | 83 => some (.ffmaF64 (SR.dec w))
  | 84 => some (.fdivF64 (SR.dec w))
  | 85 => some (.fsqrtF64 (SR.dec w))
  | 86 => some (.fminF64 (SR.dec w))
  | 87 => some (.fmaxF64 (SR.dec w))
  | 88 => some (.fcmpEqF32 (SR.dec w))
  | 89 => some (.fcmpLtF32 (SR.dec w))
  | 90 => some (.fcmpLeF32 (SR.dec w))
  | 91 => some (.fcmpUnF32 (SR.dec w))
  | 92 => some (.fcmpEqF64 (SR.dec w))
  | 93 => some (.fcmpLtF64 (SR.dec w))
  | 94 => some (.fcmpLeF64 (SR.dec w))
  | 95 => some (.fcmpUnF64 (SR.dec w))
  | 96 => some (.fcvt (SR.dec w))
  | 112 => some (.rdsr (SI.dec w))
  | 113 => some (.wrsr (SI.dec w))
  | 114 => some (.tlbinv (SR.dec w))
  | 115 => some (.tlbsync (SR.dec w))
  | op => if 24 ≤ op ∧ op ≤ 31 then some (.sel (BitVec.ofNat 3 op) (SR.dec w)) else none

/-- The LS grid (R94). -/
def decodeLs (op w : Nat) : Option Instr :=
  match op with
  | 0 => some (.ldB (LO.dec w))
  | 1 => some (.ldH (LO.dec w))
  | 2 => some (.ldW (LO.dec w))
  | 3 => some (.ldD (LO.dec w))
  | 4 => some (.ldBu (LO.dec w))
  | 5 => some (.ldHu (LO.dec w))
  | 6 => some (.ldWu (LO.dec w))
  | 7 => some (.pf (LO.dec w))
  | 8 => some (.stB (LO.dec w))
  | 9 => some (.stH (LO.dec w))
  | 10 => some (.stW (LO.dec w))
  | 11 => some (.stD (LO.dec w))
  | 12 => some (.vld (LO.dec w))
  | 13 => some (.vst (LO.dec w))
  | 14 => some (.tld (LB.dec w))
  | 15 => some (.tst (LB.dec w))
  | 16 => some (.vgath (LB.dec w))
  | 17 => some (.vscat (LB.dec w))
  | 24 => some (.amoAdd (LB.dec w))
  | 25 => some (.amoMin (LB.dec w))
  | 26 => some (.amoMax (LB.dec w))
  | 27 => some (.amoMinu (LB.dec w))
  | 28 => some (.amoMaxu (LB.dec w))
  | 29 => some (.amoAnd (LB.dec w))
  | 30 => some (.amoOr (LB.dec w))
  | 31 => some (.amoXor (LB.dec w))
  | 32 => some (.amoXchg (LB.dec w))
  | 33 => some (.amoCas (LB.dec w))
  | 34 => some (.redAdd (LB.dec w))
  | 35 => some (.redMin (LB.dec w))
  | 36 => some (.redMax (LB.dec w))
  | 37 => some (.redAnd (LB.dec w))
  | 38 => some (.redOr (LB.dec w))
  | 39 => some (.redXor (LB.dec w))
  | 40 => some (.monWait (LB.dec w))
  | 41 => some (.fenceScope (LB.dec w))
  | 42 => some (.flushRegion (LB.dec w))
  | _ => none

/-- The VA grid (R96). -/
def decodeVa (op w : Nat) : Option Instr :=
  match op with
  | 0 => some (.vadd (VF.dec w))
  | 1 => some (.vsub (VF.dec w))
  | 2 => some (.vmul (VF.dec w))
  | 3 => some (.vfma (VF.dec w))
  | 4 => some (.vmin (VF.dec w))
  | 5 => some (.vmax (VF.dec w))
  | 6 => some (.vabs (VF.dec w))
  | 7 => some (.vneg (VF.dec w))
  | 8 => some (.vand (VF.dec w))
  | 9 => some (.vor (VF.dec w))
  | 10 => some (.vxor (VF.dec w))
  | 11 => some (.vnot (VF.dec w))
  | 12 => some (.vshl (VF.dec w))
  | 13 => some (.vshr (VF.dec w))
  | 14 => some (.vmov (VF.dec w))
  | 15 => some (.vsel (VF.dec w))
  | 16 => some (.vcmpEq (VF.dec w))
  | 17 => some (.vcmpNe (VF.dec w))
  | 18 => some (.vcmpLt (VF.dec w))
  | 19 => some (.vcmpLe (VF.dec w))
  | 20 => some (.vrcp (VF.dec w))
  | 21 => some (.vrsqrt (VF.dec w))
  | 22 => some (.vsqrt (VF.dec w))
  | 23 => some (.vexp2 (VF.dec w))
  | 24 => some (.vlog2 (VF.dec w))
  | 25 => some (.vtanh (VF.dec w))
  | 26 => some (.vsin (VF.dec w))
  | 27 => some (.vcos (VF.dec w))
  | 32 => some (.vcvt (VF.dec w))
  | 33 => some (.vquant (VF.dec w))
  | 34 => some (.vdequant (VF.dec w))
  | 35 => some (.vmovi (VF.dec w))
  | 40 => some (.vredAdd (VF.dec w))
  | 41 => some (.vredMin (VF.dec w))
  | 42 => some (.vredMax (VF.dec w))
  | 43 => some (.vperm (VF.dec w))
  | 44 => some (.vrot (VF.dec w))
  | 48 => some (.vrng (VF.dec w))
  | 49 => some (.accept (VF.dec w))
  | 50 => some (.mand (VF.dec w))
  | 51 => some (.mor (VF.dec w))
  | 52 => some (.mxor (VF.dec w))
  | 53 => some (.mandn (VF.dec w))
  | 54 => some (.mnot (VF.dec w))
  | _ => none

/-- The XF grid (R97). -/
def decodeXf (op w : Nat) : Option Instr :=
  match op with
  | 0 => some (.xBcast (XT.dec w))
  | 1 => some (.xFirst (XT.dec w))
  | 2 => some (.xLane (XT.dec w))
  | 3 => some (.xAny (XT.dec w))
  | 4 => some (.xAll (XT.dec w))
  | 5 => some (.xNone (XT.dec w))
  | 6 => some (.xCnt (XT.dec w))
  | 8 => some (.xPass (XT.dec w))
  | 9 => some (.xRecv (XT.dec w))
  | _ => none

/-- The MX grid (R99). -/
def decodeMx (op w : Nat) : Option Instr :=
  match op with
  | 0 => some (.mma (MF.dec w))
  | 1 => some (.mmaQ (MF.dec w))
  | 2 => some (.accClr (MF.dec w))
  | 3 => some (.accLd (MF.dec w))
  | 4 => some (.accSt (MF.dec w))
  | 5 => some (.accCvt (MF.dec w))
  | 6 => some (.latchRel (MF.dec w))
  | 7 => some (.omSet (MF.dec w))
  | _ => none

/-- The EC grid (R101). -/
def decodeEc (op w : Nat) : Option Instr :=
  match op with
  | 0 => some (.copyGv (EF.dec w))
  | 1 => some (.copyVg (EF.dec w))
  | 2 => some (.copyVv (EF.dec w))
  | 3 => some (.copyGg (EF.dec w))
  | 4 => some (.copyTile (EF.dec w))
  | 5 => some (.copyIdx (EF.dec w))
  | 6 => some (.copyCheck (EF.dec w))
  | 8 => some (.semAdd (EF.dec w))
  | 9 => some (.semSub (EF.dec w))
  | 10 => some (.semSet (EF.dec w))
  | 11 => some (.sigWr (EF.dec w))
  | 12 => some (.grpRed (EF.dec w))
  | 13 => some (.netPut (EF.dec w))
  | 14 => some (.netGet (EF.dec w))
  | _ => none

/-- The size of a slot in bytes (R77). -/
def Slot.size : Slot → Nat
  | .ct | .sa | .sb | .xf => 4
  | .ls | .va => 6
  | .mx | .ec => 8

/-- The header bit of a slot (R77). -/
def Slot.bit : Slot → Nat
  | .ct => 0 | .sa => 1 | .sb => 2 | .ls => 3 | .va => 4 | .xf => 5 | .mx => 6 | .ec => 7

/-- The slots in ascending header-bit order. -/
def Slot.all : List Slot := [.ct, .sa, .sb, .ls, .va, .xf, .mx, .ec]

/-- The slot word of an operation, as its encoding table lays it out; 0 for an event. -/
def encode : Instr → Nat
  | .nop f => f.enc 0
  | .hold f => f.enc 1
  | .br f => f.enc 2
  | .call f => f.enc 3
  | .brR f => f.enc 4
  | .callR f => f.enc 5
  | .loop f => f.enc 6
  | .sleepUntil f => f.enc 7
  | .waitSem f => f.enc 8
  | .detach f => f.enc 9
  | .meet f => f.enc 10
  | .retire f => f.enc 11
  | .barArrive f => f.enc 12
  | .barWait f => f.enc 13
  | .hypOpen f => f.enc 16
  | .hypEnter f => f.enc 17
  | .hypLeave f => f.enc 18
  | .hypResolveConfirm f => f.enc 19
  | .hypResolveRefute f => f.enc 19
  | .mouldOpen f => f.enc 20
  | .mouldCancel f => f.enc 21
  | .vbankAcq f => f.enc 22
  | .vbankRel f => f.enc 23
  | .trap f => f.enc 24
  | .sys f => f.enc 25
  | .bkpt f => f.enc 26
  | .eret f => f.enc 27
  | .add f => f.enc 0
  | .sub f => f.enc 1
  | .and f => f.enc 2
  | .or f => f.enc 3
  | .xor f => f.enc 4
  | .shl f => f.enc 5
  | .shr f => f.enc 6
  | .sra f => f.enc 7
  | .mul f => f.enc 8
  | .mulhs f => f.enc 9
  | .mulhu f => f.enc 10
  | .div f => f.enc 11
  | .divu f => f.enc 12
  | .rem f => f.enc 13
  | .remu f => f.enc 14
  | .mov f => f.enc 15
  | .min f => f.enc 16
  | .max f => f.enc 17
  | .minu f => f.enc 18
  | .maxu f => f.enc 19
  | .bfx f => f.enc 20
  | .bfxu f => f.enc 21
  | .bfi f => f.enc 22
  | .sel pn f => f.enc (24 + pn.toNat)
  | .addi f => f.enc 32
  | .andi f => f.enc 33
  | .ori f => f.enc 34
  | .xori f => f.enc 35
  | .shli f => f.enc 36
  | .shri f => f.enc 37
  | .srai f => f.enc 38
  | .muli f => f.enc 39
  | .movi f => f.enc 40
  | .movsh f => f.enc 41
  | .clz f => f.enc 42
  | .ctz f => f.enc 43
  | .popc f => f.enc 44
  | .bswap f => f.enc 45
  | .cmpEq f => f.enc 48
  | .cmpNe f => f.enc 49
  | .cmpLt f => f.enc 50
  | .cmpLe f => f.enc 51
  | .cmpLtu f => f.enc 52
  | .cmpLeu f => f.enc 53
  | .cmpiEq f => f.enc 56
  | .cmpiNe f => f.enc 57
  | .cmpiLt f => f.enc 58
  | .cmpiLe f => f.enc 59
  | .cmpiLtu f => f.enc 60
  | .cmpiLeu f => f.enc 61
  | .pand f => f.enc 64
  | .por f => f.enc 65
  | .pxor f => f.enc 66
  | .pnot f => f.enc 67
  | .faddF32 f => f.enc 72
  | .fsubF32 f => f.enc 73
  | .fmulF32 f => f.enc 74
  | .ffmaF32 f => f.enc 75
  | .fdivF32 f => f.enc 76
  | .fsqrtF32 f => f.enc 77
  | .fminF32 f => f.enc 78
  | .fmaxF32 f => f.enc 79
  | .faddF64 f => f.enc 80
  | .fsubF64 f => f.enc 81
  | .fmulF64 f => f.enc 82
  | .ffmaF64 f => f.enc 83
  | .fdivF64 f => f.enc 84
  | .fsqrtF64 f => f.enc 85
  | .fminF64 f => f.enc 86
  | .fmaxF64 f => f.enc 87
  | .fcmpEqF32 f => f.enc 88
  | .fcmpLtF32 f => f.enc 89
  | .fcmpLeF32 f => f.enc 90
  | .fcmpUnF32 f => f.enc 91
  | .fcmpEqF64 f => f.enc 92
  | .fcmpLtF64 f => f.enc 93
  | .fcmpLeF64 f => f.enc 94
  | .fcmpUnF64 f => f.enc 95
  | .fcvt f => f.enc 96
  | .rdsr f => f.enc 112
  | .wrsr f => f.enc 113
  | .tlbinv f => f.enc 114
  | .tlbsync f => f.enc 115
  | .ldB f => f.enc 0
  | .ldH f => f.enc 1
  | .ldW f => f.enc 2
  | .ldD f => f.enc 3
  | .ldBu f => f.enc 4
  | .ldHu f => f.enc 5
  | .ldWu f => f.enc 6
  | .pf f => f.enc 7
  | .stB f => f.enc 8
  | .stH f => f.enc 9
  | .stW f => f.enc 10
  | .stD f => f.enc 11
  | .vld f => f.enc 12
  | .vst f => f.enc 13
  | .tld f => f.enc 14
  | .tst f => f.enc 15
  | .vgath f => f.enc 16
  | .vscat f => f.enc 17
  | .amoAdd f => f.enc 24
  | .amoMin f => f.enc 25
  | .amoMax f => f.enc 26
  | .amoMinu f => f.enc 27
  | .amoMaxu f => f.enc 28
  | .amoAnd f => f.enc 29
  | .amoOr f => f.enc 30
  | .amoXor f => f.enc 31
  | .amoXchg f => f.enc 32
  | .amoCas f => f.enc 33
  | .redAdd f => f.enc 34
  | .redMin f => f.enc 35
  | .redMax f => f.enc 36
  | .redAnd f => f.enc 37
  | .redOr f => f.enc 38
  | .redXor f => f.enc 39
  | .monWait f => f.enc 40
  | .fenceScope f => f.enc 41
  | .flushRegion f => f.enc 42
  | .vadd f => f.enc 0
  | .vsub f => f.enc 1
  | .vmul f => f.enc 2
  | .vfma f => f.enc 3
  | .vmin f => f.enc 4
  | .vmax f => f.enc 5
  | .vabs f => f.enc 6
  | .vneg f => f.enc 7
  | .vand f => f.enc 8
  | .vor f => f.enc 9
  | .vxor f => f.enc 10
  | .vnot f => f.enc 11
  | .vshl f => f.enc 12
  | .vshr f => f.enc 13
  | .vmov f => f.enc 14
  | .vsel f => f.enc 15
  | .vcmpEq f => f.enc 16
  | .vcmpNe f => f.enc 17
  | .vcmpLt f => f.enc 18
  | .vcmpLe f => f.enc 19
  | .vrcp f => f.enc 20
  | .vrsqrt f => f.enc 21
  | .vsqrt f => f.enc 22
  | .vexp2 f => f.enc 23
  | .vlog2 f => f.enc 24
  | .vtanh f => f.enc 25
  | .vsin f => f.enc 26
  | .vcos f => f.enc 27
  | .vcvt f => f.enc 32
  | .vquant f => f.enc 33
  | .vdequant f => f.enc 34
  | .vmovi f => f.enc 35
  | .vredAdd f => f.enc 40
  | .vredMin f => f.enc 41
  | .vredMax f => f.enc 42
  | .vperm f => f.enc 43
  | .vrot f => f.enc 44
  | .vrng f => f.enc 48
  | .accept f => f.enc 49
  | .mand f => f.enc 50
  | .mor f => f.enc 51
  | .mxor f => f.enc 52
  | .mandn f => f.enc 53
  | .mnot f => f.enc 54
  | .xBcast f => f.enc 0
  | .xFirst f => f.enc 1
  | .xLane f => f.enc 2
  | .xAny f => f.enc 3
  | .xAll f => f.enc 4
  | .xNone f => f.enc 5
  | .xCnt f => f.enc 6
  | .xPass f => f.enc 8
  | .xRecv f => f.enc 9
  | .mma f => f.enc 0
  | .mmaQ f => f.enc 1
  | .accClr f => f.enc 2
  | .accLd f => f.enc 3
  | .accSt f => f.enc 4
  | .accCvt f => f.enc 5
  | .latchRel f => f.enc 6
  | .omSet f => f.enc 7
  | .copyGv f => f.enc 0
  | .copyVg f => f.enc 1
  | .copyVv f => f.enc 2
  | .copyGg f => f.enc 3
  | .copyTile f => f.enc 4
  | .copyIdx f => f.enc 5
  | .copyCheck f => f.enc 6
  | .semAdd f => f.enc 8
  | .semSub f => f.enc 9
  | .semSet f => f.enc 10
  | .sigWr f => f.enc 11
  | .grpRed f => f.enc 12
  | .netPut f => f.enc 13
  | .netGet f => f.enc 14
  | _ => 0

/-- The slot an operation stands in; a scalar operation is placed in SB (R77). -/
def Instr.slot : Instr → Slot
  | .add _ | .sub _ | .and _ | .or _ | .xor _ | .shl _ | .shr _ | .sra _ | .mul _ | .mulhs _
  | .mulhu _ | .div _ | .divu _ | .rem _ | .remu _ | .mov _ | .min _ | .max _ | .minu _ | .maxu _
  | .bfx _ | .bfxu _ | .bfi _ | .sel _ _ | .addi _ | .andi _ | .ori _ | .xori _ | .shli _
  | .shri _ | .srai _ | .muli _ | .movi _ | .movsh _ | .clz _ | .ctz _ | .popc _ | .bswap _
  | .cmpEq _ | .cmpNe _ | .cmpLt _ | .cmpLe _ | .cmpLtu _ | .cmpLeu _ | .cmpiEq _ | .cmpiNe _
  | .cmpiLt _ | .cmpiLe _ | .cmpiLtu _ | .cmpiLeu _ | .pand _ | .por _ | .pxor _ | .pnot _
  | .faddF32 _ | .fsubF32 _ | .fmulF32 _ | .ffmaF32 _ | .fdivF32 _ | .fsqrtF32 _ | .fminF32 _
  | .fmaxF32 _ | .faddF64 _ | .fsubF64 _ | .fmulF64 _ | .ffmaF64 _ | .fdivF64 _ | .fsqrtF64 _
  | .fminF64 _ | .fmaxF64 _ | .fcmpEqF32 _ | .fcmpLtF32 _ | .fcmpLeF32 _ | .fcmpUnF32 _
  | .fcmpEqF64 _ | .fcmpLtF64 _ | .fcmpLeF64 _ | .fcmpUnF64 _ | .fcvt _ | .rdsr _ | .wrsr _
  | .tlbinv _ | .tlbsync _ => .sb
  | .ldB _ | .ldH _ | .ldW _ | .ldD _ | .ldBu _ | .ldHu _ | .ldWu _ | .pf _ | .stB _ | .stH _
  | .stW _ | .stD _ | .vld _ | .vst _ | .tld _ | .tst _ | .vgath _ | .vscat _ | .amoAdd _
  | .amoMin _ | .amoMax _ | .amoMinu _ | .amoMaxu _ | .amoAnd _ | .amoOr _ | .amoXor _
  | .amoXchg _ | .amoCas _ | .redAdd _ | .redMin _ | .redMax _ | .redAnd _ | .redOr _ | .redXor _
  | .monWait _ | .fenceScope _ | .flushRegion _ => .ls
  | .vadd _ | .vsub _ | .vmul _ | .vfma _ | .vmin _ | .vmax _ | .vabs _ | .vneg _ | .vand _
  | .vor _ | .vxor _ | .vnot _ | .vshl _ | .vshr _ | .vmov _ | .vsel _ | .vcmpEq _ | .vcmpNe _
  | .vcmpLt _ | .vcmpLe _ | .vrcp _ | .vrsqrt _ | .vsqrt _ | .vexp2 _ | .vlog2 _ | .vtanh _
  | .vsin _ | .vcos _ | .vcvt _ | .vquant _ | .vdequant _ | .vmovi _ | .vredAdd _ | .vredMin _
  | .vredMax _ | .vperm _ | .vrot _ | .vrng _ | .accept _ | .mand _ | .mor _ | .mxor _ | .mandn _
  | .mnot _ => .va
  | .xBcast _ | .xFirst _ | .xLane _ | .xAny _ | .xAll _ | .xNone _ | .xCnt _ | .xPass _
  | .xRecv _ => .xf
  | .mma _ | .mmaQ _ | .accClr _ | .accLd _ | .accSt _ | .accCvt _ | .latchRel _ | .omSet _ => .mx
  | .copyGv _ | .copyVg _ | .copyVv _ | .copyGg _ | .copyTile _ | .copyIdx _ | .copyCheck _
  | .semAdd _ | .semSub _ | .semSet _ | .sigWr _ | .grpRed _ | .netPut _ | .netGet _ => .ec
  | _ => .ct

/-- The opcode field of a slot word looked up in the slot's grid (R88, R91, R94, R96, R97, R99,
R101). Row 14 of the scalar grid is defined in SB only. -/
def rawDecode (sl : Slot) (w : Nat) : Option Instr :=
  match sl with
  | .ct => decodeCt (w / 32 % 64) w
  | .sa => if 112 ≤ w / 32 % 128 then none else decodeScalar (w / 32 % 128) w
  | .sb => decodeScalar (w / 32 % 128) w
  | .ls => decodeLs (w / 16 % 64) w
  | .va => decodeVa (w / 16 % 64) w
  | .xf => decodeXf (w / 32 % 64) w
  | .mx => decodeMx (w / 16 % 64) w
  | .ec => decodeEc (w / 16 % 64) w

/-- One slot word: an instruction, or the detail code of the first failing check of 0x03 to 0x05
(R103 step 2). A reserved bit that is set is a bit the instruction's own encoding lacks. -/
def decodeSlot (sl : Slot) (w : Nat) : Except Nat Instr :=
  match rawDecode sl w with
  | none => .error 0x03
  | some i =>
    if encode i ≠ w || !i.reservedOk then .error 0x04
    else if !i.rangeOk then .error 0x05
    else .ok i

/-- Little-endian bytes as a number (R4). -/
def leBytes : List Byte → Nat
  | [] => 0
  | b :: bs => b.toNat + 256 * leBytes bs

/-- The low `n` bytes of a number, little-endian (R4). -/
def toBytes : Nat → Nat → List Byte
  | 0, _ => []
  | n + 1, x => BitVec.ofNat 8 x :: toBytes n (x / 256)

/-- The slots that a header byte names, in ascending header-bit order (R77). -/
def headerSlots (h : Nat) : List Slot := Slot.all.filter (fun s => bitAt s.bit h)

/-- The length of the bundle that a header byte begins (R77). -/
def bundleLen (h : Nat) : Nat := 1 + ((headerSlots h).map Slot.size).sum

/-- What the bytes at a bundle address stand for (R77 to R79). -/
inductive Fetched where
  /-- a line pad: fetch continues at offset 0 of the next line -/
  | pad
  /-- a bundle of the given length with its slot operations -/
  | bundle (len : Nat) (ops : List (Slot × Instr))
  /-- an illegal bundle: its length, its detail code, and the slot that raised it -/
  | illegal (len : Nat) (detail : Nat) (slot : Option Slot)
  deriving DecidableEq, Repr

/-- Decoding of the slots of a bundle in order; `chk` makes the checks 0x06 and 0x07, which depend
on the kernel's views and crossing mode (R69, R73). -/
def decodeSlots (chk : Instr → Option Nat) :
    List Slot → List Byte → Except (Nat × Slot) (List (Slot × Instr))
  | [], _ => .ok []
  | sl :: rest, bs =>
    match decodeSlot sl (leBytes (bs.take sl.size)) with
    | .error d => .error (d, sl)
    | .ok i =>
      match chk i with
      | some d => .error (d, sl)
      | none =>
        match decodeSlots chk rest (bs.drop sl.size) with
        | .error e => .error e
        | .ok l => .ok ((sl, i) :: l)

/-- A register that an operation writes (R12); `spr` is a system register by its number (R74). -/
inductive Dest where
  | s (n : Nat) | g (n : Nat) | p (n : Nat) | m (n : Nat) | v (n : Nat) | t (n : Nat) | a (n : Nat)
  | spr (n : Nat)
  deriving DecidableEq, Repr

/-- `s0`, `p0` and `m0` are never destinations (R12, R71). -/
def Dest.counts : Dest → Bool
  | .s 0 | .p 0 | .m 0 => false
  | _ => true

/-- The scalar or uniform destination that field D names (R90, R97). -/
def gsDest (ud : Bool) (d : BitVec 6) : Dest := if ud then .g d.toNat else .s d.toNat

/-- The tiles that `acc.cvt` writes for a format (R170). -/
def cvtTiles (fmt : BitVec 4) : Nat := if fmt.toNat < 2 then 4 else 2

/-- The registers that an operation's definition writes (R12). -/
def Instr.dests : Instr → List Dest
  | .call _ | .callR _ => [.s 63]
  | .barArrive f | .barWait f | .hypOpen f | .hypResolveConfirm f | .hypResolveRefute f =>
    [.s f.b.toNat]
  | .add f | .sub f | .and f | .or f | .xor f | .shl f | .shr f | .sra f | .mul f | .mulhs f
  | .mulhu f | .div f | .divu f | .rem f | .remu f | .mov f | .min f | .max f | .minu f | .maxu f
  | .bfx f | .bfxu f | .bfi f | .sel _ f | .clz f | .ctz f | .popc f | .bswap f =>
    [gsDest f.ud f.d]
  | .addi f | .andi f | .ori f | .xori f | .shli f | .shri f | .srai f | .muli f | .rdsr f =>
    [.s f.d.toNat]
  | .movi f | .movsh f => [.s f.d.toNat]
  | .cmpEq f | .cmpNe f | .cmpLt f | .cmpLe f | .cmpLtu f | .cmpLeu f | .pand f | .por f | .pxor f
  | .pnot f | .fcmpEqF32 f | .fcmpLtF32 f | .fcmpLeF32 f | .fcmpUnF32 f | .fcmpEqF64 f
  | .fcmpLtF64 f | .fcmpLeF64 f | .fcmpUnF64 f => [.p f.d.toNat]
  | .cmpiEq f | .cmpiNe f | .cmpiLt f | .cmpiLe f | .cmpiLtu f | .cmpiLeu f => [.p f.d.toNat]
  | .faddF32 f | .fsubF32 f | .fmulF32 f | .ffmaF32 f | .fdivF32 f | .fsqrtF32 f | .fminF32 f
  | .fmaxF32 f | .faddF64 f | .fsubF64 f | .fmulF64 f | .ffmaF64 f | .fdivF64 f | .fsqrtF64 f
  | .fminF64 f | .fmaxF64 f | .fcvt f => [.s f.d.toNat]
  | .ldB f | .ldH f | .ldW f | .ldD f | .ldBu f | .ldHu f | .ldWu f => [.s f.d.toNat]
  | .vld f => [.v f.d.toNat]
  | .vgath f => [.v f.d.toNat, .spr 0x09]
  | .vscat _ | .flushRegion _ => [.spr 0x09]
  | .wrsr f => [.spr f.imm.toNat]
  | .hypEnter _ | .hypLeave _ => [.spr 0x02]
  | .detach _ => [.spr 0x08]
  | .eret _ => [.spr 0x20]
  | .bkpt _ => [.spr 0x27]
  | .tld f => [.t f.d.toNat]
  | .amoAdd f | .amoMin f | .amoMax f | .amoMinu f | .amoMaxu f | .amoAnd f | .amoOr f | .amoXor f
  | .amoXchg f | .amoCas f | .fenceScope f => [.s f.d.toNat]
  | .vadd f | .vsub f | .vmul f | .vfma f | .vmin f | .vmax f | .vabs f | .vneg f | .vand f | .vor f
  | .vxor f | .vnot f | .vshl f | .vshr f | .vmov f | .vsel f | .vrcp f | .vrsqrt f | .vsqrt f
  | .vexp2 f | .vlog2 f | .vtanh f | .vsin f | .vcos f | .vcvt f | .vquant f | .vdequant f
  | .vmovi f | .vredAdd f | .vredMin f | .vredMax f | .vperm f | .vrot f | .vrng f =>
    [.v f.d.toNat]
  | .vcmpEq f | .vcmpNe f | .vcmpLt f | .vcmpLe f | .accept f | .mand f | .mor f | .mxor f
  | .mandn f | .mnot f => [.m f.d.toNat]
  | .xBcast f | .xRecv f => [.v f.d.toNat]
  | .xFirst f | .xLane f | .xCnt f => [gsDest f.ud f.d]
  | .xAny f | .xAll f | .xNone f => [.p f.d.toNat]
  | .mma f | .mmaQ f | .accClr f | .accLd f => [.a f.ac.toNat]
  | .accCvt f => (List.range (cvtTiles f.fmt)).map (fun k => .t (f.ta.toNat + k))
  | .copyGv f | .copyVg f | .copyVv f | .copyGg f | .copyTile f | .copyIdx f | .copyCheck f
  | .grpRed f | .netPut f | .netGet f => [.s f.d.toNat]
  | _ => []

/-- The view registers an operation names, as vector, tile and accumulator numbers, destinations and
sources alike (R69, R89). -/
def Instr.viewRegs : Instr → List Dest
  | .mouldOpen f => (List.range (f.imm.toNat + 1)).map (fun k => .v (f.a.toNat + k))
  | .vld f | .vst f => [.v f.d.toNat]
  | .tld f | .tst f => [.t f.d.toNat]
  | .vgath f | .vscat f => [.v f.d.toNat, .v f.b.toNat]
  | .vadd f | .vsub f | .vmul f | .vmin f | .vmax f | .vand f | .vor f | .vxor f | .vshl f
  | .vshr f | .vperm f => [.v f.d.toNat, .v f.a.toNat, .v f.b.toNat]
  | .vsel f => [.v f.d.toNat, .v f.a.toNat, .v f.b.toNat]
  | .vfma f => [.v f.d.toNat, .v f.a.toNat, .v f.b.toNat, .v f.c.toNat]
  | .vabs f | .vneg f | .vnot f | .vmov f | .vrcp f | .vrsqrt f | .vsqrt f | .vexp2 f | .vlog2 f
  | .vtanh f | .vsin f | .vcos f | .vcvt f | .vredAdd f | .vredMin f | .vredMax f | .vrot f =>
    [.v f.d.toNat, .v f.a.toNat]
  | .vquant f | .vdequant f => [.v f.d.toNat, .v f.a.toNat, .v f.c.toNat]
  | .vmovi f | .vrng f => [.v f.d.toNat]
  | .vcmpEq f | .vcmpNe f | .vcmpLt f | .vcmpLe f => [.v f.a.toNat, .v f.b.toNat]
  | .accept f => [.v f.a.toNat]
  | .xBcast f | .xRecv f => [.v f.d.toNat]
  | .xFirst f | .xLane f | .xPass f => [.v f.a.toNat]
  | .mma f | .mmaQ f =>
    (if f.ta = 8#4 then [] else [.t f.ta.toNat]) ++ [.a f.ac.toNat]
  | .accClr f | .accLd f | .accSt f => [.a f.ac.toNat]
  | .accCvt f =>
    .a f.ac.toNat :: (List.range (cvtTiles f.fmt)).map (fun k => .t (f.ta.toNat + k))
  | _ => []

/-- Whether two operations of one bundle name one destination (R12). -/
def clash (ops : List (Slot × Instr)) : Bool :=
  let ds := (ops.flatMap (fun p => p.2.dests)).filter Dest.counts
  !decide ds.Nodup

/-- Decoding of the bytes at an address (R77 to R79, R103 steps 1 to 3): `off` is the offset of the
header in its 64-byte line and `bytes` the rest of that line; `newel` tells a Newel core (R30).
(DEDUCED: log entry 107.) -/
def decodeBundle (newel : Bool) (chk : Instr → Option Nat) (off : Nat) (bytes : List Byte) :
    Fetched :=
  match bytes with
  | [] => .pad
  | h :: rest =>
    if h = 0#8 then .pad
    else
      let len := bundleLen h.toNat
      if 64 < off + len then .illegal len 0x01 none
      else if newel && 16 ≤ h.toNat then
        .illegal len 0x02 ((headerSlots h.toNat).find? (fun s => 4 ≤ s.bit))
      else
        match decodeSlots chk (headerSlots h.toNat) rest with
        | .error (d, sl) => .illegal len d (some sl)
        | .ok ops => if clash ops then .illegal len 0x08 none else .bundle len ops

/-- The bytes of a bundle of one operation: header and slot word (R77). -/
def bundleBytes (i : Instr) : List Byte :=
  BitVec.ofNat 8 (2 ^ i.slot.bit) :: toBytes i.slot.size (encode i)

/-- The slot word of a table row read by the decoder. The opcode table gives 32-bit rows of the CT
and scalar slots without the header byte that tells them apart: a word that is a legal CT word is
read as CT, any other as SB. (DESIGN CHOICE: log entry 7.) -/
def tableSlot (w : Nat) : Slot :=
  match decodeSlot .ct w with
  | .ok _ => .ct
  | .error _ => .sb

/-- The instruction that the decoder reads from a table word laid out as a bundle of its slot. -/
def decodeTableWord (nbits w : Nat) : Option Instr :=
  let w := w % 2 ^ nbits % 2 ^ 32
  let sl := tableSlot w
  match decodeBundle false (fun _ => none) 0 (BitVec.ofNat 8 (2 ^ sl.bit) :: toBytes sl.size w) with
  | .bundle _ [(_, i)] => some i
  | _ => none

end Sys2Proof
end

