-- ==== Sys2Proof/Config.lean ====
section
/-! DEFINITION. What one package fixes, and the free values: constants without a body, so that
nothing in Lean can evaluate them or prove a value of them. A free value is applied to the counter
`State.free`, which the step that uses it advances, or to the operands it depends on. -/

namespace Sys2Proof.Config

/-- A signed object of the boot flash (R363): body and signature. -/
structure Signed where
  body : List Byte
  sig : List Byte
  deriving DecidableEq, Repr, Inhabited

/-- The boot flash (R364): configuration records, the base-die, mezzanine and calender firmware, the owner
certificate, the monitor image, and the certificate of the device identity (R367). -/
structure Flash where
  records : List Signed
  firmware : List Signed
  owner : Option Signed
  image : Option Signed
  identity : List Byte
  deriving DecidableEq, Repr, Inhabited

/-- A free number for the `n`-th open choice of a run: how many ticks an access takes beyond its
schedule, when a write is stamped, when a copy completes (R16, R43, R185, R240).
(DESIGN CHOICE: log entry 5.) -/
opaque freeNat : Nat → Nat

/-- A free choice among `k` possibilities for the `n`-th open choice: a fitting set of flights
(R274), one of several outside `sem.set` (R85). -/
opaque freeChoice : Nat → Nat

/-- The element that `accumulate` may return (R126): a free FP32 pattern, of which the model keeps
the part that lies within the bound of R126. -/
opaque freeAccumulate : Nat → BitVec 32

/-- A free choice of yes or no: whether a B byte written during the occupancy is seen (R167). -/
opaque freeBool : Nat → Bool

/-- The modulus of Velzu's root public key, whose digest the boot ROM holds (R363). -/
opaque rootModulus : Nat

/-- The modulus of the device identity key, and its private exponent, which a physically unclonable function gives
(R363, R367). -/
opaque identityModulus : Nat
opaque identityExponent : Nat

/-- The serial number of chiplet `n` (R32). -/
opaque serial : Nat → Word

/-- `true` for DK9-MD, `false` for DK9-PK (R1, R424, R428). -/
opaque isModule : Bool

/-- The stack capacity that each base die reports, in GiB (R36). (DESIGN CHOICE: log entry 4.) -/
opaque stackGiB : Nat → Nat

/-- LPDDR-6 populated, in GiB (R24). -/
opaque lpddrGiB : Nat

/-- The bytes that the device on tier-2 CXL port `p` offers, 0 for none (R24, R37). -/
opaque cxlBytes : Nat → Nat

/-- What the boot flash holds at package reset. -/
opaque flash : Flash

/-- The digest of the boot ROM, measurement 1 (R364). -/
opaque bootRom : List Byte

/-- The links train at boot (R364 step 3). -/
opaque linksTrain : Bool

/-- The package number that the far end of Treluk link `k` reports when the link comes up at boot (R24). -/
opaque farPackage : Nat → Nat

/-- The capability record that chiplet `n` presents at enumeration (R32, R33, R360). -/
opaque presented : Nat → BitVec 128

/-- Where the owner's monitor image is loaded and started (R364 step 5). (DESIGN CHOICE: log entry 87.) -/
opaque imageBase : List Byte → Nat

/-- Ethernet port `p` runs as two ports at 800 Gb/s; otherwise as one at 1.6 Tb/s (R31).
(DESIGN CHOICE: log entry 102.) -/
opaque portSplit : Nat → Bool

/-- Host port `p` is in CXL mode; otherwise it is in PCIe mode (R39). -/
opaque hostCxl : Nat → Bool

/-- The conflict threshold of a bank group (R214). -/
opaque conflictThreshold : Nat

/-- The bank group of a line under a hash version (R214). -/
opaque bankGroup : Nat → Nat → Nat

/-- The set of a line in the memory-side cache of its stack (R213). -/
opaque mscSet : Nat → Nat

/-- What the compression of a line comes to, by which the sectors it takes are counted (R213). -/
opaque compress : List Byte → Nat

/-- The stack whose memory-side cache holds a line of tier-2 memory (R37). -/
opaque tier2Stack : Nat → Nat

end Sys2Proof.Config
end

