-- ==== Sys2Proof/Machine/Data.lean ====
section
/-! DEFINITION. Sparse maps in one canonical form: keys strictly rising, no entry equal to the
default. Memory, the register space and every other sparse table of the machine are such maps. -/

namespace Sys2Proof.Machine

/-- Puts an element before the first that it may precede. -/
def insertBy {α : Type} (le : α → α → Bool) (a : α) : List α → List α
  | [] => [a]
  | b :: r => if le a b then a :: b :: r else b :: insertBy le a r

/-- A list in order; equal elements keep their order. -/
def sortBy {α : Type} (le : α → α → Bool) : List α → List α
  | [] => []
  | a :: r => insertBy le a (sortBy le r)

/-- A sparse map from numbers. -/
abbrev NMap (α : Type) := List (Nat × α)

/-- The value at a key, `d` where nothing is listed. (DESIGN CHOICE: log entry 2.) -/
def NMap.get {α : Type} (d : α) (k : Nat) : NMap α → α
  | [] => d
  | (j, v) :: r => if j = k then v else if k < j then d else NMap.get d k r

/-- Puts a value at a key; the default value removes the entry. -/
def NMap.put {α : Type} [DecidableEq α] (d : α) (k : Nat) (v : α) : NMap α → NMap α
  | [] => if v = d then [] else [(k, v)]
  | (j, w) :: r =>
    if j = k then (if v = d then r else (k, v) :: r)
    else if k < j then (if v = d then (j, w) :: r else (k, v) :: (j, w) :: r)
    else (j, w) :: NMap.put d k v r

/-- Every key of a map lies above a bound. -/
def NMap.above {α : Type} (b : Nat) (m : NMap α) : Bool := m.all (fun e => b < e.1)

/-- The canonical form. -/
def NMap.wf {α : Type} [DecidableEq α] (d : α) : NMap α → Bool
  | [] => true
  | (k, v) :: r => decide (v ≠ d) && NMap.above k r && NMap.wf d r

/-- Puts several values. -/
def NMap.putAll {α : Type} [DecidableEq α] (d : α) (l : List (Nat × α)) (m : NMap α) : NMap α :=
  l.foldl (fun m e => NMap.put d e.1 e.2 m) m

/-- Removes the entries whose key satisfies a test. -/
def NMap.drop {α : Type} (p : Nat → Bool) (m : NMap α) : NMap α := m.filter (fun e => !p e.1)

end Sys2Proof.Machine
end

