-- ==== Sys2Proof/Machine/HartState.lean ====
section
/-! DEFINITION. The state of one hart: a tread, or a Newel core. -/

namespace Sys2Proof.Machine

/-- The registers outside the system registers (R68, R71). The register space is held by aligned
4-byte unit. `g` is the value of the uniform registers at this rank's own point of the stream
(R48). -/
structure Regs where
  s : Vector Word 64
  g : Vector Word 32
  p : Vector Bool 8
  m : Vector Word 8
  space : NMap (BitVec 32)
  deriving DecidableEq, Repr

/-- The system registers that are storage (R74, R75, R337, R339, R370, R386, R392), each under its
own name, with LT and the store time of R189. -/
structure Sprs where
  lt : Nat
  storeTime : Nat
  hyp : Word
  rank : Word
  flw : Word
  wgi : Word
  gang : Word
  rise : Word
  meet : Word
  pix : Word
  msh : Word
  rngk : Word
  prof : Word
  kcfg : Word
  vwv : Word
  vwt : Word
  vwa : Word
  grps : Word
  tcause : Word
  tpc : Word
  taddr : Word
  titer : Word
  plv : Word
  svec : Word
  mvec : Word
  part : Word
  xflt : Word
  sscr : Word
  mscr : Word
  dbg : Word
  hwsel : Word
  evpend : Word
  even : Word
  evlvl : Word
  tcmp : Word
  deriving DecidableEq, Repr

/-- What a pending result does when it lands. -/
inductive Eff where
  | s (n : BitVec 6) (v : Word)
  | g (n : BitVec 5) (v : Word)
  | p (n : BitVec 3) (v : Bool)
  | m (n : BitVec 3) (v : Word)
  /-- the bits of a mask register that `mask` names; the others keep what they hold then (R15, R146) -/
  | mBits (n : BitVec 3) (mask v : Word)
  /-- 4-byte units of the register space, or of the mould's shadow (R173) -/
  | space (shadow : Bool) (ws : List (Nat × BitVec 32))
  /-- the bits of one unit that `mask` names; the others keep what they hold then (R151) -/
  | bits (shadow : Bool) (k : Nat) (mask v : BitVec 32)
  /-- a signal to a semaphore of the tread (R84) -/
  | sem (n inc : Nat)
  | lt (t : Nat)
  /-- a write of a system register (R340) -/
  | spr (lvl n : Nat) (v : Word)
  /-- an entry of the `x.recv` queue, with its place in the issue order of the rank that sent it (R156) -/
  | xpass (sent : Nat) (lanes : List (BitVec 32))
  /-- the closing of the mould with the lanes that were accepted (R178) -/
  | accept (ok : Word) (active : Word)
  /-- the memory error of a failed access: address and bits of INFO (R205, R371) -/
  | memErr (addr info : Nat)
  /-- bytes of a vault that `acc.st` writes, with its place in the issue order and their aperture address (R169) -/
  | vault (at_ pa : Nat) (bytes : List Byte)
  /-- raises LT for every engine operation promised by a time (R207, R242) -/
  | seen (p : Nat)
  deriving DecidableEq, Repr

/-- A result in flight (R11): its place in the issue order, the cycles left, the bundle that began
it, its kind and register as `HWREC` reports them (R394), and its effects; `none` while the awaited
value has not arrived (R50). -/
structure Pend where
  seq : Nat
  left : Nat
  origin : VAddr
  kind : Nat
  reg : Nat
  effs : Option (List Eff)
  deriving DecidableEq, Repr

/-- What an MX operation in the unit still has to compute (R160, R161, R167): its result in flight,
the aligned vault units it streams with their contents at issue, and, for a multiplication, shape,
format, group, the A operand and the chain source. -/
structure MxJob where
  seq : Nat
  /-- `acc.ld`: the accumulator takes the units as they come -/
  loads : Bool
  ac : Nat
  fmt : Nat
  mm : Nat
  nn : Nat
  kk : Nat
  grp : Nat
  quant : Bool
  /-- address of B in the aperture, its row stride, and of the A and B records -/
  base : Nat
  stride : Nat
  asAt : Nat
  bsAt : Nat
  units : List (Nat × BitVec 32)
  /-- the signal of the slot (R84) -/
  sig : Option (Nat × Nat)
  a : List (BitVec 32)
  c : List (BitVec 32)
  deriving DecidableEq, Repr

/-- An MX operation that occupies the unit (R166): cycles left, cycles done, whether the latch is
released at its end (R18), and the first unit of the A tile it reads (R167); `seq` is the place of its result in the
issue order. -/
structure MxOp where
  seq : Nat
  left : Nat
  done : Nat
  release : Bool
  origin : VAddr
  tile : Option Nat
  job : Option MxJob
  deriving DecidableEq, Repr

/-- The modulo sequencer (R291, R293): sequencer cycle, trip count, interval, the body bundles with the
bytes of their lines from the header on, the bundle after the body, and sequencer cycles before which the
rank waits for its offset, with the cycles (R52). -/
structure LoopSt where
  c : Nat
  n : Nat
  ii : Nat
  body : List (VAddr × List Byte)
  after : VAddr
  origin : VAddr
  pauses : List (Nat × Nat)
  deriving DecidableEq, Repr

/-- The schedule of a tread (R374): results in flight, the MX unit, the MX operations past their occupancy, by the
place of the result in the issue order, with the occupancy cycles that they took (R166, R386), the sequencer, the cycles
of a `hold` that remain, and the bundle that began it (R394). -/
structure Sched where
  pipe : List Pend
  mx : Option MxOp
  tails : List (Nat × Nat)
  loop : Option LoopSt
  hold : Nat
  holdAt : VAddr
  deriving DecidableEq, Repr

/-- How a hart runs (R19, R54, R296, R338, R364, R377). -/
inductive Run where
  /-- fed by the stringer -/
  | attached
  /-- under its own program counter; every running Newel core -/
  | detached
  /-- waits at `MEET` since it arrived -/
  | atMeet
  /-- left its flight by a hypothesis-lost trap (R378) -/
  | orphan
  /-- runs a trap handler taken while attached (R377) -/
  | handler
  | retired
  | halted
  /-- core 0 in the boot ROM (R364) -/
  | bootRom
  deriving DecidableEq, Repr

/-- What became of a slot at the latest examination. -/
inductive Out where
  | ok
  /-- a trap was taken, of the class of R373 -/
  | trapped (cls : Nat)
  /-- the bundle stalls or is held; `parks` as R66 tells -/
  | stalled (parks : Bool)
  /-- the hart freezes: a translation or fetch line is awaited -/
  | frozen
  deriving DecidableEq, Repr

/-- Comparison codes of `mon.wait` (R235). -/
inductive Cmp where
  | eq | ne | ltu | geu
  deriving DecidableEq, Repr

/-- Who waits on a watch entry: a hart (R235) or a barrier packet's queue (R267). -/
inductive Waiter where
  | hart (h : HartId)
  | queue (part q : Nat)
  deriving DecidableEq, Repr

/-- An armed entry of the watch table (R220, R235). -/
structure Watch where
  who : Waiter
  part : Nat
  va : Nat
  pa : Nat
  d64 : Bool
  mask : Word
  val : Word
  cmp : Cmp
  node : Nat
  /-- the stamp of an admitted write that met the condition -/
  hit : Option Nat
  deriving DecidableEq, Repr

/-- The state of a `mon.wait` at its waiting bundle (R235). -/
inductive Mon where
  | none
  /-- an entry of the watch table is armed -/
  | armed
  /-- the table was full; the next recheck of this condition is at the tick -/
  | recheck (tick : Nat) (w : Watch)
  /-- the condition held at this logical time -/
  | satisfied (t : Nat)
  /-- the check failed -/
  | failed (addr info : Nat)
  deriving DecidableEq, Repr

/-- What a piece of an access reaches: memory by its physical address, the quire window, or a vault
directly, at a distance of 0 (own), 1 (flight) or 2 (gang). -/
inductive PSpace where
  | mem (device : Bool)
  | quire
  | vault (dist : Nat)
  deriving DecidableEq, Repr

/-- A contiguous run of bytes of an access within one line: virtual address, the address it reaches,
length. -/
structure Piece where
  va : Nat
  pa : Nat
  len : Nat
  sp : PSpace
  deriving DecidableEq, Repr

/-- Where the bytes of a load go. -/
inductive LoadDest where
  /-- a scalar register, `w` bytes, sign-extended or not (R227) -/
  | scalar (d : BitVec 6) (w : Nat) (signed : Bool)
  /-- 4-byte units of the register space, in order; `zeros` are written with zero (R228, R231) -/
  | units (shadow : Bool) (keys zeros : List Nat)
  deriving DecidableEq, Repr

/-- A load whose value has not arrived: its result in flight, its pieces, the hypothesis and level it
was issued under, the outside requests that answer it with their failure bits and bytes so far, and
the tick from which the home may answer. -/
structure Ask where
  seq : Nat
  pieces : List Piece
  dest : LoadDest
  part : Nat
  hyp : Nat
  lvl : Nat
  tags : List (Nat × Option (Nat × List Byte))
  tick : Nat
  deriving DecidableEq, Repr

/-- What an unstamped write does at its home. -/
inductive WKind where
  /-- bytes at offsets from the address of the write -/
  | store (bytes : List (Nat × Byte))
  /-- dirty bytes of a non-coherent line (R210) -/
  | back (bytes : List (Nat × Byte))
  /-- a fire-and-forget reduction (R232) -/
  | red (op : AmoOp) (d64 : Bool) (v : Word)
  /-- a returning atomic: the result in flight that it feeds (R232) -/
  | amo (op : AmoOp) (d64 : Bool) (v cmp : Word) (seq : Nat) (d : BitVec 6)
  /-- `sig.wr` (R247): set or subtract -/
  | signal (sub : Bool) (v : Word) (sig : Option (Nat × Nat))
  deriving DecidableEq, Repr

/-- A write that has left the tread and has no stamp yet (R190, R191): one line, with its tag, the
level of its code and the tick from which the home may stamp it. -/
structure Write where
  seq : Nat
  pa : Nat
  va : Nat
  kind : WKind
  part : Nat
  hyp : Nat
  lvl : Nat
  wide : Bool
  /-- the page is of device type (R350) -/
  dev : Bool
  tag : Option Nat
  tick : Nat
  deriving DecidableEq, Repr

/-- A direct vault store in flight (R185): the aperture address it lands at, its bytes, how far the
vault lies (0 own, 1 flight, 2 gang), the tick from which it may land, and whether it belongs to a store of a whole
128-byte unit (R396). -/
structure VStore where
  seq : Nat
  pa : Nat
  bytes : List Byte
  dist : Nat
  tick : Nat
  whole : Bool
  deriving DecidableEq, Repr

/-- A gang semaphore update in flight (R246): the target, the change, and the cycles of the issuing
tread's island until it lands. -/
structure SemOut where
  target : HartId
  n : Nat
  op : Nat
  v : Nat
  afterSeq : Nat
  tick : Nat
  deriving DecidableEq, Repr

/-- A change to a semaphore that lands at the end of this cycle (R85): 0 add, 1 sub, 2 set. -/
structure SemUpd where
  n : Nat
  op : Nat
  v : Nat
  seq : Nat
  outside : Bool
  deriving DecidableEq, Repr

/-- A line of a lease cache (R188, R210, R217). -/
structure LeaseLine where
  line : Nat
  node : Nat
  part : Nat
  bytes : List Byte
  wts : Nat
  rts : Nat
  dirty : List Nat
  nc : Bool
  deriving DecidableEq, Repr

/-- A translation that a cache holds (R352): `span` pages of 4 KiB from `vpn` on, one, the group of a leaf with C = 1
(R351) or a larger page, with what each stage grants. -/
structure Xlat where
  part : Nat
  mon : Bool
  vpn : Nat
  span : Nat
  ipn : Nat
  ppn : Nat
  /-- stage 1 translates -/
  one : Bool
  r : Bool
  w : Bool
  x : Bool
  u : Bool
  device : Bool
  deriving DecidableEq, Repr

/-- A translation that is wanted: address, access and level (R225). -/
structure Want where
  va : Nat
  acc : Acc
  lvl : Nat
  part : Nat
  tick : Nat
  deriving DecidableEq, Repr

/-- A translation fault (R353). -/
structure XFault where
  stage : Nat
  level : Nat
  kind : Nat
  ipa : Nat
  deriving DecidableEq, Repr

/-- The kinds of engine operation (R239 to R248): a tile copy keeps the 512 bits of its descriptor as
they were at issue (R121), and the coordinates. -/
inductive EngKind where
  | copy
  | tileLd (desc : Nat) (coords : Word)
  | tileSt (desc : Nat) (coords : Word)
  | idx (row : Nat)
  | netPut (conn : Nat)
  | netGet (conn : Nat)
  deriving DecidableEq, Repr

/-- Where an engine operation stands. -/
inductive EngStat where
  | running
  /-- suspended by a translation fault (R241), and whether its trap has been taken -/
  | suspended (va : Nat) (x : XFault) (acc : Acc) (taken : Bool)
  | done
  | failed
  deriving DecidableEq, Repr

/-- An operation of the copy engine (R207, R240). `id` is its place in the issue order, `turn` its place among the
acceptances of all treads; `left` are the ranges of the operation, offset and length, that are still to be moved. -/
structure EngOp where
  id : Nat
  turn : Nat
  kind : EngKind
  dst : Nat
  src : Nat
  len : Nat
  hyp : Nat
  lt : Nat
  lvl : Nat
  stat : EngStat
  promise : Nat
  latched : Bool
  sig : Option (Nat × Nat)
  /-- greatest stamp of its writes -/
  stamp : Nat
  /-- LT has been raised for it (R207) -/
  seen : Bool
  left : List (Nat × Nat)
  /-- banks that were not held at acceptance: touching one fails (R282) -/
  avoid : List Nat
  /-- the bytes of a `net.get` that have arrived -/
  got : Option (List Byte)
  /-- lines whose writes are held for a free version, with the cycles that they have waited (R221) -/
  verWait : List (Nat × Nat)
  /-- tick from which the engine may move its next unit -/
  tick : Nat
  /-- requests that left the package and are not answered -/
  tags : List Nat
  /-- lines that have taken poisoned bytes from it (R396) -/
  tainted : List Nat
  deriving DecidableEq, Repr

/-- The mould (R172): closed, open or closing. -/
inductive MouldMode where
  | closed | opened | closing
  deriving DecidableEq, Repr

/-- The mould with its draw indices and counts, per lane (R172). -/
structure Mould where
  mode : MouldMode
  first : Nat
  count : Nat
  shadow : NMap (BitVec 32)
  n : NMap Word
  cA : NMap (BitVec 32)
  cC : NMap (BitVec 32)
  deriving DecidableEq, Repr

/-- An operand map (R159). -/
structure OMap where
  base : Word
  desc : Word
  deriving DecidableEq, Repr

/-- An arrival on its way to the hub (R300, R303): the contribution of a `grp.red`, and the writes
that must be stamped first. -/
structure Arrival where
  group : Nat
  phase : Nat
  contrib : Option Word
  afterSeq : Nat
  deriving DecidableEq, Repr

/-- The pending group-operation record (R299). -/
structure GroupRec where
  pc : VAddr
  ct : Option (Nat × Nat)
  ec : Option (Nat × Nat)
  deriving DecidableEq, Repr

/-- A request that the hub has to answer: `hyp.open` (0), confirm (1) or refute (2) (R250, R253); the
answer carries the time that LT must reach. (DEDUCED: log entry 29.) -/
structure HubReq where
  pc : VAddr
  kind : Nat
  node : Word
  answer : Option (Word × Nat)
  deriving DecidableEq, Repr

/-- The conditions that wait for a bundle boundary (R373, R290, R381). -/
structure Latched where
  stateErr : Option (Nat × Nat)
  memErr : List (Nat × Nat)
  missed : List Nat
  /-- shallowest refuted node, its depth, and the parent it hung under -/
  hypLost : Option (Nat × Nat × Nat)
  dbgStep : Bool
  deriving DecidableEq, Repr

/-- A stall (R52): since which tick, at which bundle, whether it parks (R66), the park threshold in force
when it began (R76), the phases of groups whose completion would wake it (R66), and the `CLK` value until which
the bundle sleeps (R289). (DEDUCED: log entry 38.) -/
structure Stall where
  since : Nat
  pc : VAddr
  parks : Bool
  limit : Nat
  waits : List (Nat × Nat)
  asleep : Option Nat
  deriving DecidableEq, Repr

/-- What the stringer presents to a rank behind the leading one (R47, R131): cycles until the rank issues it,
and until the rank's skew has reached it, which is sooner where the flight has stalled (R327); whether the
flight stalls at it; the address of the bundle and its fetch line, the leading rank's decision, the trip count
it read, and the loop body it read; and the pauses of that loop. -/
structure Item where
  due : Nat
  seen : Nat
  wait : Bool
  addr : VAddr
  line : Option (Nat × List Byte)
  taken : Bool
  target : VAddr
  trips : Nat
  code : List (VAddr × List Byte)
  pauses : List (Nat × Nat)
  deriving DecidableEq, Repr

/-- Control of a hart. -/
structure Ctl where
  run : Run
  /-- how it ran before the trap whose handler it runs (R377, R379) -/
  prev : Run
  pc : VAddr
  /-- bundles that the stringer presented and this rank has not issued -/
  fifo : List Item
  /-- the ranks behind have been presented this rank's own bundle, at which the flight stalls (R327) -/
  posted : Bool
  /-- the same of the bundle at which a trap from U was taken, while its handler runs (R53) -/
  kept : Bool
  /-- the decision of the leading rank that governs the bundle being issued (R131) -/
  dec : Option Item
  /-- the bundle at which a trap from U was taken; after a return it stands only where the handler changed
  `TPC` (R374, R377) -/
  origin : Option VAddr
  /-- cycles until the leading rank of a flight that resumes at `MEET` issues (R296) -/
  resume : Option Nat
  /-- the bundle is the held cycle of a resumed schedule (R374) -/
  held : Option Sched
  frozen : Bool
  stall : Option Stall
  /-- whether the phase of a `bar.wait` was complete when the bundle at this address was first examined
  (R301) -/
  bar : Option (VAddr × Bool)
  lsLeft : Nat
  /-- end of one stepped cycle is awaited (R393) -/
  stepping : Bool
  /-- the fetched line: address of its first byte and its 64 bytes (R78) -/
  line : Option (Nat × List Byte)
  /-- a fetch line that is awaited, and the tick of its arrival (R80) -/
  fetchAt : Option Nat
  deriving DecidableEq, Repr

/-- What a bundle in the course of its issue leaves behind: the model's own fields. -/
structure Iss where
  out : Out
  slot : Slot
  len : Nat
  /-- number of slots of the bundle -/
  ops : Nat
  /-- where control goes, if not to the next bundle -/
  next : Option VAddr
  /-- the tread detaches, retires, meets at the end of this bundle -/
  after : Option Run
  seq : Nat
  /-- the place in the issue order at which the operations that issue together began -/
  first : Option Nat
  deriving DecidableEq, Repr

/-- The place of a tread: chiplet, flight, physical position (R26). -/
structure Place where
  chip : Nat
  flight : Nat
  pos : Nat
  deriving DecidableEq, Repr

/-- The units of a hart. -/
structure Units where
  sem : NMap Nat
  semIn : List SemUpd
  semOut : List SemOut
  latch : Option (List (BitVec 32))
  om : NMap OMap
  mould : Mould
  xq : List (Nat × List (BitVec 32))
  eng : List EngOp
  pending : BitVec 5
  arrPhase : Vector (BitVec 16) 4
  grec : Option GroupRec
  arrivals : List Arrival
  /-- groups that the tread has left by retiring in this tick, with its arrival phase at each (R64, R286) -/
  leaves : List (Nat × Nat)
  hstack : List (Nat × VAddr)
  deriving DecidableEq, Repr

/-- The memory side of a hart. -/
structure Lsu where
  writes : List Write
  vstores : List VStore
  asks : List Ask
  lease : List LeaseLine
  tlb : List Xlat
  want : Option Want
  fault : Option (Want × XFault)
  mon : Mon
  hubReq : Option HubReq
  /-- greatest stamp of an earlier store (R203) -/
  maxStamp : Nat
  /-- since when a fence waits (R206) -/
  fenceSince : Option Nat
  /-- cycles that a tagged store has waited for a version, and its address (R221) -/
  verWait : Option (Nat × Nat)
  tlbinvs : List Nat
  /-- write-backs that a `flush.region` waits for (R238) -/
  flush : Option (List (HartId × Nat))
  deriving DecidableEq, Repr

/-- One hart. -/
structure Hart where
  id : HartId
  place : Place
  regs : Regs
  spr : Sprs
  ctl : Ctl
  sched : Sched
  iss : Iss
  units : Units
  lsu : Lsu
  latched : Latched
  deriving DecidableEq, Repr

end Sys2Proof.Machine
end

