-- ==== Sys2Proof/Machine/HubState.lean ====
section
/-! DEFINITION. The state of the package outside the harts: the hub, its home slices and directory,
the scheduler, the calender, the chiplets, the stacks, the links, power and management. -/

namespace Sys2Proof.Machine

/-- A tenure of a MOESI peer (R199): the bound `b` and the time of its last write. -/
structure Tenure where
  peer : Nat
  b : Nat
  last : Option Nat
  deriving DecidableEq, Repr

/-- What the home keeps for a line (R188, R197, R199, R396); `syn` is the check value stored beside the line (R212,
R395) as its difference from the CRC-32C of the bytes that the home holds: 0 where the check fits. -/
structure LineMeta where
  wts : Nat
  rts : Nat
  dir : BitVec 32
  poison : Bool
  syn : BitVec 32
  tenure : Option Tenure
  deriving DecidableEq, Repr

/-- MOESI states (R196). -/
inductive Moesi where
  | M | O | E | S
  deriving DecidableEq, Repr

/-- A line held by a MOESI peer (R196, R199). -/
structure PeerLine where
  peer : Nat
  line : Nat
  st : Moesi
  bytes : List Byte
  deriving DecidableEq, Repr

/-- An invalidation or recall sent to a peer (R198, R200, R201): the tick from which the peer may
answer, `none` once it has, and the logical time it answered with. -/
structure Inv where
  peer : Nat
  line : Nat
  isRecall : Bool
  tick : Option Nat
  lt : Nat
  deriving DecidableEq, Repr

/-- A line version of the hypothesis version store (R216). -/
structure Version where
  part : Nat
  node : Nat
  line : Nat
  wts : Nat
  rts : Nat
  /-- the written bytes: offset in the line and value -/
  bytes : NMap (Option Byte)
  poison : Bool
  deriving DecidableEq, Repr

/-- A live node of a hypothesis tree (R249). -/
structure Node where
  part : Nat
  id : Nat
  parent : Nat
  deriving DecidableEq, Repr

/-- A locked sequence of an Arcade responder (R202): the request, the line, whether the responder holds
the line in M, its contents before the sequence, the tick at which the sequence may finish, and the
tick since which a recall is deferred. -/
structure Locked where
  peer : Nat
  line : Nat
  req : RdmaReq
  held : Bool
  old : List Byte
  tick : Nat
  deferred : Option Nat
  deriving DecidableEq, Repr

/-- A `tlbinv` in progress (R354, R355): the tick from which the caches drop their entries, and, once
they have, the place in each hart's issue order below which accesses must have ended. -/
structure TlbInv where
  id : Nat
  by_ : HartId
  kind : Nat
  part : Nat
  va : Nat
  tick : Nat
  marks : Option (List (HartId × Nat))
  deriving DecidableEq, Repr

/-- A write to an aperture that its home has stamped and that has not landed in its bank (R186): the
cells of one aligned unit, and the tick from which it may land. -/
structure Delivery where
  by_ : HartId
  cells : List (Nat × Byte)
  tick : Nat
  deriving DecidableEq, Repr

/-- The party that answers a request which leaves the package. -/
inductive Far where
  | link (k : Nat)
  | host (p : Nat)
  | cxl (p : Nat)
  | net (port : Nat)
  deriving DecidableEq, Repr

/-- The requests that Newel and Arcade send on a host port in CXL mode (R39). -/
inductive CxlReq where
  | rdCurr | rdShared | rdOwn | cleanEvict | dirtyEvict | itoMWr
  deriving DecidableEq, Repr

/-- What this hub sends over a link (R22, R40): a request by its tag, and the answer to a request of the far package. -/
inductive LinkItem where
  | request (tag : Nat)
  | answer (tag time : Nat) (data : List Byte)
  | refused (tag : Nat)
  | poisoned (tag : Nat)
  deriving DecidableEq, Repr

/-- A request to the outside that has not been answered (R40, R203); `cxl` is the peer that sent it, and what it
asked (R39). -/
structure Ext where
  tag : Nat
  far : Far
  hart : HartId
  pa : Nat
  write : Bool
  len : Nat
  cxl : Option (Nat × CxlReq)
  deriving DecidableEq, Repr

/-- The registers of a partition's block and its park threshold (R343, R76). -/
structure PartRegs where
  qctl : Word
  ncrq : Word
  calst : Word
  calkid : Word
  calctl : Word
  ordc : Word
  pquota : Word
  pchip : Word
  xl1 : Word
  xl2 : Word
  tdtb : Word
  qtb : Word
  connb : Word
  svecp : Word
  ioflt : Word
  iofaddr : Word
  preq : Word
  preqg : Word
  nevc : Word
  park : Word
  deriving DecidableEq, Repr

/-- The registers of the monitor block (R24, R358, R388, R398, R428, R429). -/
structure MonRegs where
  xlm : Word
  chctl : Word
  ncore : Word
  ncaddr : Word
  mvecg : Word
  dirq : Word
  iounb : Word
  chst : Vector Word 15
  mevc : Word
  pknum : Word
  pkdom : Word
  trlen : Word
  hbmcap : Word
  t2base : Vector Word 4
  t2size : Vector Word 4
  streams : Vector (NMap Word) 2
  ctxres : Word
  ctxb : Vector Word 16
  errst : Word
  erraddr : Word
  pwrctl : Word
  telsel : Word
  bstat : Word
  deriving DecidableEq, Repr

/-- An island (R426, R427): REQ, CAP, CUR, and the tick at which a change in progress ends. -/
structure Island where
  req : Nat
  cap : Nat
  cur : Nat
  chg : Option (Nat × Nat)
  deriving DecidableEq, Repr

/-- An entry of the connection table as the Arcades read it, with the running sequence numbers of what it
sends and expects (R346). -/
structure Conn where
  part : Nat
  q : Nat
  raw : Nat
  spsn : Nat
  epsn : Nat
  err : Bool
  deriving DecidableEq, Repr

/-- An event of a queue in the hub's event queue (R270): a doorbell, a write to a signal on its wait list, or a command of
`QCTL`. -/
inductive QEvent where
  | bell
  | poke
  | command
  deriving DecidableEq, Repr

/-- A queue as the hub caches it (R257, R258), with the doorbell bit of its WIDX line (R259), the
waiting barrier packet, and the tick of a re-read when the watch table was full (R267). -/
structure Queue where
  part : Nat
  q : Nat
  /-- virtual address of its descriptor -/
  va : Nat
  base : Nat
  /-- the line of its WIDX -/
  wline : Nat
  log2n : Nat
  pri : Nat
  state : Nat
  ridx : Nat
  widx : Nat
  /-- its pending events, in the order in which they entered the event queue (R270) -/
  pend : List QEvent
  /-- the waiting barrier packet: its wait list and completion signal -/
  barrier : Option (List Nat × Nat)
  reread : Option Nat
  /-- the physical addresses of its wait list -/
  deps : List Nat
  deriving DecidableEq, Repr

/-- An event enters the event queue; one of a kind that is pending already is merged into it (R270). -/
def Queue.enter (e : QEvent) (x : Queue) : Queue :=
  if x.pend.contains e then x else { x with pend := x.pend ++ [e] }

/-- An event has been taken. -/
def Queue.took (e : QEvent) (x : Queue) : Queue := { x with pend := x.pend.filter (fun y => y ≠ e) }

/-- The state of a group for the life of its launch (R63, R299): `release` is the release time of the
phase completed last, `running` the greatest store time among the arrivals at the current one, and `total` how many
phases have completed, 65,536 at most (R305);
`leaving` counts members that retired after arriving. The accumulators are the sum, the signed minimum
and maximum, and the unsigned minimum and maximum: of the current phase, and of the last one. -/
structure Group where
  n : Nat
  phase : Nat
  total : Nat
  arrived : Nat
  expected : Nat
  leaving : Nat
  lost : Bool
  release : Nat
  running : Nat
  accs : Word × Word × Word × Word × Word
  last : Word × Word × Word × Word × Word
  deriving DecidableEq, Repr

/-- Why a gang is taken off its flights (R66, R279, R280, R360). -/
inductive Why where
  | park
  | priority
  | supervisor (hold : Bool)
  | monitor
  deriving DecidableEq, Repr

/-- The state of a gang (R66, R264, R279, R280). -/
inductive GangSt where
  | unstarted
  /-- its treads are on their flights -/
  | placed
  /-- stopped, and its save waits (R385) -/
  | saving (why : Why)
  | parked
  | saved
  | retired
  deriving DecidableEq, Repr

/-- A gang of a launch: its place, the tick since which it is there, since when it waits to be placed, or, while it is
held, for how many ticks it had waited, and the context that the hub has saved. A gang that has not started but has a profile holds its flights while the
calender decides (R307). -/
structure Gang where
  idx : Nat
  st : GangSt
  chip : Nat
  flight : Nat
  since : Nat
  waitSince : Nat
  /-- levels gained by waiting (R277) -/
  aged : Nat
  held : Bool
  prof : Nat
  /-- the saved harts (R387) -/
  ctx : List Hart
  /-- the bytes of their saved banks by offset in the bank (R390) -/
  banks : List (HartId × Nat × NMap Byte)
  /-- their banks that were released or draining -/
  free : List (HartId × Nat)
  /-- bytes of the context, and whether it lies in a spill area (R389) -/
  size : Nat
  spilled : Bool
  /-- logged as not placeable (R391) -/
  logged : Bool
  /-- the last save found no room (R389) -/
  noRoom : Bool
  /-- the waiting gang for which it was pre-empted last: launch and gang (R276, R279) -/
  yields : Option (Nat × Nat)
  deriving DecidableEq, Repr

/-- A kernel header as the hub takes it (R416). -/
structure KHead where
  prof : Nat
  xmode : Bool
  rise : Nat
  vbase : Nat
  vcnt : Nat
  tbase : Nat
  tcnt : Nat
  abase : Nat
  acnt : Nat
  code : Nat
  codelen : Nat
  entry : Nat
  mask : Nat
  kid : Word
  /-- the valid scratchpad plan: bank, ALL, START, END (R420) -/
  plan : Option (List (Nat × Bool × Nat × Nat))
  deriving DecidableEq, Repr

/-- The decision of the calender for a profile (R307): the residual entry's base, or the fallback. -/
structure Decision where
  prof : Nat
  base : Option Nat
  deriving DecidableEq, Repr

/-- The members of a group (R61): workgroups in steps with one rank mask, or listed member words. -/
inductive Members where
  | strided (first count stride mask : Nat)
  | listed (words : List (Nat × Nat))
  deriving DecidableEq, Repr

/-- A launch (R264). Gangs are listed from the first on; the last one listed is the next to be started, if
any is left. -/
structure Launch where
  id : Nat
  part : Nat
  queue : Nat
  index : Nat
  slot : Nat
  pri : Nat
  wgcnt : Nat
  width : Nat
  gsize : Nat
  rel : Nat
  spec : Bool
  csig : Nat
  args : List Word
  kernels : List KHead
  groups : List Group
  members : List (Nat × Members)
  gangs : List Gang
  decisions : List Decision
  /-- held gangs that have not been started (R280) -/
  holds : List Nat
  /-- the place of its latest placement among those of all launches (R278) -/
  served : Nat
  /-- a gang of it was killed (R361) -/
  killed : Bool
  deriving DecidableEq, Repr

/-- A quire entry (R319, R322, R325). -/
structure Quire where
  part : Nat
  base : Nat
  size : Nat
  kid : Word
  prof : Nat
  fp : Word
  key : List Byte
  used : Nat
  pins : List Nat
  stale : Bool
  deriving DecidableEq, Repr

/-- A Treluk link (R24, R40). -/
structure Link where
  trained : Bool
  far : Nat
  dead : Bool
  /-- the flit to be delivered next -/
  next : Nat
  /-- its replay has been requested: the latest flit that has arrived since -/
  asked : Option Nat
  /-- its consecutive failed replays -/
  failed : Nat
  /-- ready, as this side signals it, and the flits that have arrived since it dropped -/
  ready : Bool
  sent : Nat
  /-- ready, as the far side signals it, and the flits sent since it dropped -/
  farReady : Bool
  excess : Nat
  /-- what waits to be sent -/
  queue : List LinkItem
  /-- the number of the flit to be sent next, and the last 512 flits -/
  txSeq : Nat
  held : List (Nat × LinkItem)
  /-- the far side's replay request: the flit from which it goes on -/
  again : Option Nat
  /-- the flit that was replayed last, and its consecutive replay requests after the first -/
  replays : Nat × Nat
  deriving DecidableEq, Repr

/-- A line of a memory-side cache (R213): dirty, and the sectors that it takes.
(DESIGN CHOICE: log entry 24.) -/
structure MscLine where
  line : Nat
  dirty : Bool
  sectors : Nat
  deriving DecidableEq, Repr

/-- A DRAM stack's base die (R34, R212 to R214, R388): hash version, watermark of a migration, conflict counters by
bank group, cached lines, the most recently used first, evicted dirty lines that are not in DRAM yet, and base-die
registers by offset. (DESIGN CHOICE: log entry 54.) -/
structure Stack where
  version : Nat
  migrating : Option Nat
  counts : NMap Nat
  msc : List MscLine
  buffer : List Nat
  regs : NMap Word
  deriving DecidableEq, Repr

/-- The power controller (R428): ms of margin so far, latest reading, whether the main input is on, whether the package
has removed its main power, whether the standby rail holds, and whether either is to be reported after the next reset
(R425, R430). -/
structure Power where
  marginMs : Nat
  sample : List (Nat × Nat)
  mainOn : Bool
  off : Bool
  standby : Bool
  tripped : Bool
  deriving DecidableEq, Repr

/-- An SPDM connection of a requester port (R367). -/
structure Spdm where
  port : Nat
  version : Bool
  caps : Bool
  algs : Bool
  transcript : List Byte
  deriving DecidableEq, Repr

/-- What the device last answered to the outside. -/
inductive Reply where
  | none
  | data (bytes : List Byte)
  | word (w : Word)
  | unsupported
  | accessError
  | poisoned (bytes : List Byte)
  | dropped
  | done
  | signed (bytes sig : List Byte)
  deriving DecidableEq, Repr

/-- The isolation of a chiplet in progress (R361): the tick at which its saves began, whether a gang was
killed, and the tick at which its drains began to be awaited. -/
structure Isolation where
  chip : Nat
  since : Nat
  killed : Bool
  drain : Option Nat
  deriving DecidableEq, Repr

/-- The package outside the harts. -/
structure Hub where
  clk : Nat
  base : Nat
  stamp : Nat
  /-- the tick of CLK at which the base time last rose (R189) -/
  raised : Nat
  mem : NMap Byte
  lines : NMap LineMeta
  peers : List PeerLine
  invs : List Inv
  versions : List Version
  nodes : List Node
  watches : List Watch
  locked : List Locked
  tlbinvs : List TlbInv
  exts : List Ext
  parts : Vector PartRegs 16
  mon : MonRegs
  isl : NMap Island
  mext : NMap (List Byte)
  conns : List Conn
  queues : List Queue
  launches : List Launch
  /-- draining and released banks: 1 released, 2 draining, by physical bank (R282) -/
  banks : NMap Nat
  /-- physical positions whose banks another partition last held (R284) -/
  holders : NMap Nat
  /-- non-coherent regions: Vat chiplet and region number (R211) -/
  regions : List (Nat × Nat)
  quires : List Quire
  quireMem : NMap Byte
  links : Vector Link 8
  dram : Vector Stack 12
  /-- the enable masks of the record in force (R365): body of the record -/
  record : List Byte
  flash : Config.Flash
  power : Power
  spdm : List Spdm
  reply : Reply
  isolations : List Isolation
  /-- launches so far, and the latest of each queue and ring slot (R280) -/
  launched : Nat
  slots : NMap Nat
  deliveries : List Delivery
  /-- the translation caches of the Arcade engines and of the IOMMU (R352) -/
  caches : Vector (List Xlat) 3
  /-- logical time and store time of the Arcade engines, peers 32 and 33 (R189, R196) -/
  arcLt : Vector Nat 2
  deriving DecidableEq, Repr

end Sys2Proof.Machine
end

