-- ==== Sys2Proof/Machine/Init.lean ====
section
/-! DEFINITION. The values at reset: of a hart, of a tread at workgroup start (R58) and of a Newel
core at core start (R362), and of the package (R41, R360 and the reset columns of the registers). -/

namespace Sys2Proof.Machine

/-- Registers all zero (R58, R362). -/
def Regs.zero : Regs :=
  { s := Vector.replicate 64 0#64, g := Vector.replicate 32 0#64, p := Vector.replicate 8 false,
    m := Vector.replicate 8 0#64, space := [] }

/-- System registers at reset: `MSH` at its full shape (R158), `TCMP` all ones and `EVLVL` 0x30
(R339), everything else zero. (DESIGN CHOICE: log entry 3.) -/
def Sprs.zero : Sprs :=
  { lt := 0, storeTime := 0, hyp := 0, rank := 0, flw := 0, wgi := 0, gang := 0, rise := 0,
    meet := 0, pix := 0, msh := 0x20800040, rngk := 0, prof := 0, kcfg := 0, vwv := 0, vwt := 0,
    vwa := 0, grps := 0, tcause := 0, tpc := 0, taddr := 0, titer := 0, plv := 0, svec := 0,
    mvec := 0, part := 0, xflt := 0, sscr := 0, mscr := 0, dbg := 0, hwsel := 0, evpend := 0,
    even := 0, evlvl := 0x30, tcmp := 0xffffffffffffffff }

/-- Nothing in flight. -/
def Sched.empty : Sched := { pipe := [], mx := none, tails := [], loop := none, hold := 0, holdAt := 0 }

/-- The mould closed, its indices and counts zero (R172). -/
def Mould.zero : Mould :=
  { mode := .closed, first := 0, count := 0, shadow := [], n := [], cA := [], cC := [] }

/-- Units at workgroup start (R58). -/
def Units.zero : Units :=
  { sem := [], semIn := [], semOut := [], latch := none, om := [], mould := Mould.zero, xq := [],
    eng := [], pending := 0, arrPhase := Vector.replicate 4 0#16, grec := none, arrivals := [],
    leaves := [], hstack := [] }

/-- The memory side with nothing in flight and nothing cached (R58, R264). -/
def Lsu.zero : Lsu :=
  { writes := [], vstores := [], asks := [], lease := [], tlb := [], want := none, fault := none,
    mon := .none, hubReq := none, maxStamp := 0, fenceSince := none, verWait := none,
    tlbinvs := [], flush := none }

/-- No condition latched. -/
def Latched.none : Latched :=
  { stateErr := .none, memErr := [], missed := [], hypLost := .none,
    dbgStep := false }

/-- Control at an address, running in the given way. -/
def Ctl.start (r : Run) (pc : VAddr) : Ctl :=
  { run := r, prev := r, pc := pc, fifo := [], posted := false, kept := false, dec := none, origin := none, resume := none, held := none, frozen := false,
    stall := none, bar := none, lsLeft := 0, stepping := false, line := none, fetchAt := none }

/-- No bundle in the course of its issue. -/
def Iss.zero : Iss := { out := .ok, slot := .ct, len := 0, ops := 0, next := none, after := none, seq := 0, first := none }

/-- A hart with everything zero. -/
def Hart.zero (id : HartId) (pl : Place) (r : Run) (pc : VAddr) : Hart :=
  { id := id, place := pl, regs := Regs.zero, spr := Sprs.zero, ctl := Ctl.start r pc,
    sched := Sched.empty, iss := Iss.zero, units := Units.zero, lsu := Lsu.zero,
    latched := Latched.none }

/-- A Newel core at core start (R30, R32, R337, R362): level M, profile 3. -/
def Hart.coreStart (n : Nat) (r : Run) (pc : VAddr) (mvec : Word) (svec : Word) : Hart :=
  let h := Hart.zero (.core n) { chip := 12, flight := n, pos := n } r pc
  { h with spr := { h.spr with prof := 3, plv := 2, mvec := mvec, svec := svec } }

/-- A partition's registers at package reset: `ORDC` 16 (R192), `PQUOTA` 4,096 and 65,536 (R345),
`PARK` 65,536 (R75), the rest zero. -/
def PartRegs.zero : PartRegs :=
  { qctl := 0, ncrq := 0, calst := 0, calkid := 0, calctl := 0, ordc := 16,
    pquota := 0x100000010000, pchip := 0, xl1 := 0, xl2 := 0, tdtb := 0, qtb := 0, connb := 0,
    svecp := 0, ioflt := 0, iofaddr := 0, preq := 0, preqg := 0, nevc := 0, park := 65536 }

/-- The reset value of `PWRCTL.LIMIT` (R428). -/
def powerLimit : Nat := if Config.isModule then 3600 else 3200

/-- The monitor block at package reset (R24, R358, R388, R398, R428, R429). -/
def MonRegs.zero : MonRegs :=
  { xlm := 0, chctl := 0, ncore := 0, ncaddr := 0, mvecg := 0, dirq := 0, iounb := 0,
    chst := Vector.replicate 15 0#64, mevc := 0, pknum := 0, pkdom := 0, trlen := 0, hbmcap := 0,
    t2base := Vector.replicate 4 0#64, t2size := Vector.replicate 4 0#64,
    streams := Vector.replicate 2 [], ctxres := 0, ctxb := Vector.replicate 16 0#64, errst := 0,
    erraddr := 0, pwrctl := BitVec.ofNat 64 (65535 * 2 ^ 32 + powerLimit), telsel := 0,
    bstat := 0 }

/-- A line that nobody has touched (R188, R197, R396). -/
def LineMeta.zero : LineMeta := { wts := 0, rts := 0, dir := 0, poison := false, syn := 0, tenure := none }

/-- An island at reset (R427). -/
def Island.zero : Island := { req := 7, cap := 7, cur := 7, chg := none }

/-- A link that has not trained (R24, R40). -/
def Link.zero : Link :=
  { trained := false, far := 0, dead := false, next := 0, asked := none, failed := 0, ready := true, sent := 0,
    farReady := true, excess := 0, queue := [], txSeq := 0, held := [], again := none, replays := (0, 0) }

/-- A base die at reset: hash version 0 (R214). -/
def Stack.zero : Stack := { version := 0, migrating := none, counts := [], msc := [], buffer := [], regs := [] }

/-- The package at reset. -/
def Hub.zero : Hub :=
  { clk := 0, base := 0, stamp := 0, raised := 0, mem := [], lines := [], peers := [], invs := [],
    versions := [], nodes := [], watches := [], locked := [], tlbinvs := [], exts := [],
    parts := Vector.replicate 16 PartRegs.zero, mon := MonRegs.zero, isl := [], mext := [],
    conns := [], queues := [], launches := [], banks := [], holders := [], regions := [],
    quires := [], quireMem := [], links := Vector.replicate 8 Link.zero,
    dram := Vector.replicate 12 Stack.zero, record := [],
    flash := Config.flash,
    power := { marginMs := 0, sample := [], mainOn := true, off := false, standby := true, tripped := false },
    spdm := [], reply := .none, isolations := [], launched := 0, slots := [], deliveries := [],
    caches := Vector.replicate 3 [], arcLt := Vector.replicate 2 0 }

end Sys2Proof.Machine
end

