-- ==== Sys2Proof/Machine/State.lean ====
section
/-! DEFINITION. The state of the machine, the reasons a step can stop, and the state after reset. -/

namespace Sys2Proof.Machine

/-- The state of the machine: the hart that acts, every other hart that exists, the harts whose turn
in the current tick of `CLK` is still to come, whether the turns of that tick have been dealt out, the package,
the events that the outside supplies, and the number of open choices made so far. (DESIGN CHOICE: log entry 90.) -/
structure State where
  me : Hart
  ring : List Hart
  todo : List HartId
  opened : Bool
  hub : Hub
  inbox : List Instr
  free : Nat
  deriving DecidableEq, Repr

/-- Why a machine stops. (DESIGN CHOICE: log entry 93.) -/
inductive Fault where
  /-- raised by the step of a package that has removed its main power (R425) and has no message or
  reset to serve: nothing runs without power, so stopping is safe -/
  | mainPowerOff
  deriving DecidableEq, Repr

/-- Why a step has no meaning. -/
inductive Refusal where
  /-- raised by the dispatch of an instruction that the model does not cover; stopping is safe -/
  | notModelled (mnemonic : String)
  deriving DecidableEq, Repr

/-- The machine right after package reset (R362, R364): core 0 in the boot ROM at level M, no other
hart running, nothing listed in memory, every register at its reset value. -/
def State.reset : State :=
  { me := Hart.coreStart 0 .bootRom 0 0 0, ring := [], todo := [], opened := false, hub := Hub.zero, inbox := [],
    free := 0 }

end Sys2Proof.Machine
end

