-- ==== Sys2Proof/Machine/Ops.lean ====
section
/-! DEFINITION. The named operations over harts, registers and memory that every meaning uses:
reading and writing registers, results in flight, stalls, taking a trap and returning from one. -/

namespace Sys2Proof.Machine

/-- The meaning of an instruction. -/
abbrev Sem := State → Host.Outcome State Fault Refusal

/-! ### Harts -/

/-- Takes the hart of a name out of a list. -/
def takeHart (h : HartId) : List Hart → Option (Hart × List Hart)
  | [] => none
  | x :: r =>
    if x.id = h then some (x, r)
    else match takeHart h r with
      | none => none
      | some (y, r') => some (y, x :: r')

/-- The state with the named hart acting; `none` where no such hart exists. -/
def State.focus (h : HartId) (s : State) : Option State :=
  if s.me.id = h then some s
  else match takeHart h s.ring with
    | none => none
    | some (x, r) => some { s with me := x, ring := s.me :: r }

/-- An event that concerns a hart: nothing happens where the hart does not exist. -/
def State.onHart (h : HartId) (f : State → State) (s : State) : State :=
  match s.focus h with
  | some s' => f s'
  | none => s

/-- Every hart. -/
def State.harts (s : State) : List Hart := s.me :: s.ring

/-- The hart of a name. -/
def State.hart? (h : HartId) (s : State) : Option Hart := s.harts.find? (fun x => x.id = h)

/-- A change of every hart. -/
def State.mapHarts (f : Hart → Hart) (s : State) : State :=
  { s with me := f s.me, ring := s.ring.map f }

/-- A change of the harts that satisfy a test. -/
def State.mapWhere (p : Hart → Bool) (f : Hart → Hart) (s : State) : State :=
  s.mapHarts (fun h => if p h then f h else h)

/-- A change of the hart of a name. -/
def State.mapHart (id : HartId) (f : Hart → Hart) (s : State) : State :=
  s.mapWhere (fun h => h.id = id) f

/-- Whether a hart is a Newel core. -/
def Hart.isCore (h : Hart) : Bool := match h.id with | .core _ => true | .tread .. => false

/-- Whether two harts are ranks of one flight (R44). -/
def Hart.sameFlight (a b : Hart) : Bool :=
  match a.id, b.id with
  | .tread l w _, .tread l' w' _ => l = l' && w = w'
  | _, _ => false

/-- The rank of a hart in its flight (R75). -/
def Hart.rank (h : Hart) : Nat := h.spr.rank.toNat

/-- The privilege level: `PLV.CUR` (R337). -/
def Hart.level (h : Hart) : Nat := h.spr.plv.toNat % 4

/-- The partition of the running code (R337). -/
def Hart.partNo (h : Hart) : Nat := h.spr.part.toNat % 16

/-- The results of a hart that are in flight, those of a held schedule among them (R11, R374). -/
def Hart.inPipe (h : Hart) : List Pend := h.sched.pipe ++ ((h.ctl.held.map (·.pipe)).getD [])

/-- The hart still runs work: neither retired nor halted (R298, R338). -/
def Hart.live (h : Hart) : Bool :=
  match h.ctl.run with
  | .retired | .halted | .bootRom => false
  | _ => true

/-- The lowest-numbered attached rank of a hart's flight has the part of rank 0 (R48, R131, R298,
R378), from the first bundle on that no earlier leading rank has taken: what the stringer still presents to it is the
stream of that rank (R47). -/
def State.isLead (h : Hart) (s : State) : Bool :=
  h.ctl.dec.isNone && h.ctl.fifo.isEmpty && s.harts.all (fun x => !(x.sameFlight h && (x.ctl.run = .attached || x.ctl.run = .handler))
    || h.rank ≤ x.rank)

/-- A free number, and the state in which it has been used. -/
def State.fresh (s : State) : Nat × State := (Config.freeNat s.free, { s with free := s.free + 1 })

/-- The `k`-th of the free numbers that one step uses. -/
def freeAt (n k : Nat) : Nat := Config.freeNat ((n + 1) * 2 ^ 64 + k)

/-- The registers of a partition. -/
def Hub.part (h : Hub) (p : Nat) : PartRegs := h.parts[p % 16]'(Nat.mod_lt _ (by decide))

/-- Changes the registers of a partition. -/
def Hub.setPart (p : Nat) (f : PartRegs → PartRegs) (h : Hub) : Hub :=
  { h with parts := h.parts.set (p % 16) (f (h.part p)) (Nat.mod_lt _ (by decide)) }

/-- The island of a hart (R426). -/
def Hart.island (h : Hart) : Nat :=
  match h.id with
  | .core n => 88 + n
  | .tread .. =>
    if h.place.chip < 8 then 3 * h.place.chip + h.place.flight
    else 24 + 16 * (h.place.chip - 8) + h.place.flight

/-- The island `i` (R427). -/
def Hub.island (h : Hub) (i : Nat) : Island := NMap.get Island.zero i h.isl

/-- Whether an island of level `l` has a cycle in tick `t` of `CLK`: 2.0 GHz × (l + 1) / 8, and no
cycle at level 0 (R426). -/
def hasCycle (l t : Nat) : Bool :=
  0 < l && t * (l + 1) / 8 < (t + 1) * (l + 1) / 8

/-! ### Reading registers (R71) -/

/-- A scalar register; `s0` reads 0. -/
def Regs.sReg (r : Regs) (n : BitVec 6) : Word :=
  if n = 0#6 then 0#64 else r.s[n.toNat]'n.isLt

/-- A uniform register. -/
def Regs.gReg (r : Regs) (n : BitVec 5) : Word := r.g[n.toNat]'n.isLt

/-- A predicate; `p0` reads 1. -/
def Regs.pReg (r : Regs) (n : BitVec 3) : Bool :=
  if n = 0#3 then true else r.p[n.toNat]'n.isLt

/-- A mask register; `m0` reads all ones. -/
def Regs.mReg (r : Regs) (n : BitVec 3) : Word :=
  if n = 0#3 then BitVec.allOnes 64 else r.m[n.toNat]'n.isLt

/-! ### Writing registers when results land (R11, R71) -/

/-- Writes a scalar register; a write to `s0` is discarded. -/
def Regs.setS (r : Regs) (n : BitVec 6) (v : Word) : Regs :=
  if n = 0#6 then r else { r with s := r.s.set n.toNat v n.isLt }

/-- Writes a uniform register. -/
def Regs.setG (r : Regs) (n : BitVec 5) (v : Word) : Regs :=
  { r with g := r.g.set n.toNat v n.isLt }

/-- Writes a predicate; a write to `p0` is discarded. -/
def Regs.setP (r : Regs) (n : BitVec 3) (v : Bool) : Regs :=
  if n = 0#3 then r else { r with p := r.p.set n.toNat v n.isLt }

/-- Writes a mask register; a write to `m0` is discarded. -/
def Regs.setM (r : Regs) (n : BitVec 3) (v : Word) : Regs :=
  if n = 0#3 then r else { r with m := r.m.set n.toNat v n.isLt }

/-- Writes 4-byte units of the register space (R68). -/
def Regs.setUnits (r : Regs) (ws : List (Nat × BitVec 32)) : Regs :=
  { r with space := NMap.putAll 0#32 ws r.space }

/-! ### Results in flight (R11) -/

/-- Adds a result in flight to a hart: latency, kind and register for `HWREC`, effects. -/
def Hart.push (L kind reg : Nat) (effs : Option (List Eff)) (h : Hart) : Hart :=
  { h with
    sched := { h.sched with
      pipe := h.sched.pipe ++ [{ seq := h.iss.seq, left := L, origin := h.ctl.pc, kind := kind,
                                 reg := reg, effs := effs }] },
    iss := { h.iss with seq := h.iss.seq + 1 } }

/-- Records what became of a slot. -/
def Hart.setOut (o : Out) (h : Hart) : Hart := { h with iss := { h.iss with out := o } }

/-- The slot has issued. -/
def State.ok (s : State) : State := { s with me := s.me.setOut .ok }

/-- The slot issues with one result in flight (R11). -/
def State.issue (L kind reg : Nat) (effs : List Eff) (s : State) : State :=
  { s with me := (s.me.push L kind reg (some effs)).setOut .ok }

/-- Changes the acting hart. -/
def State.modMe (f : Hart → Hart) (s : State) : State := { s with me := f s.me }

/-! ### Stalling and freezing (R50, R52) -/

/-- The bundle stalls or is held at this cycle; the tick at which the stall began is kept. -/
def State.stall (parks : Bool) (s : State) : State :=
  let pc := s.me.ctl.pc
  let new : Stall :=
    { since := s.hub.clk, pc := pc, parks := parks,
      limit := (s.hub.part s.me.partNo).park.toNat, waits := [], asleep := none }
  let st : Stall := match s.me.ctl.stall with
    | some t => if t.pc = pc then { t with parks := t.parks || parks } else new
    | none => new
  s.modMe (fun h => { h.setOut (.stalled parks) with ctl := { h.ctl with stall := some st } })

/-- The hart freezes at this bundle: a translation is awaited (R50, R225). -/
def State.freezeFor (w : Want) (s : State) : State :=
  s.modMe (fun h => { h.setOut .frozen with lsu := { h.lsu with want := some w } })

/-! ### Bytes -/

/-- The bits of `v` that a mask names, and those of the old value elsewhere. -/
def mergeBits {w : Nat} (k old v : BitVec w) : BitVec w := (v &&& k) ||| (old &&& ~~~ k)

/-- The `n` bytes at an address, little-endian. -/
def bytesAt (m : NMap Byte) (a n : Nat) : List Byte :=
  (List.range n).map (fun k => NMap.get 0#8 (a + k) m)

/-- The number that `n` bytes at an address hold. -/
def numAt (m : NMap Byte) (a n : Nat) : Nat := leBytes (bytesAt m a n)

/-- Writes bytes from an address on. -/
def putBytes (a : Nat) (bs : List Byte) (m : NMap Byte) : NMap Byte :=
  NMap.putAll 0#8 (bs.mapIdx (fun k b => (a + k, b))) m

/-! ### Lines -/

/-- The state kept for a line. -/
def Hub.lineMeta (h : Hub) (l : Nat) : LineMeta := NMap.get LineMeta.zero l h.lines

/-- Changes the state kept for a line. -/
def Hub.setLine (l : Nat) (f : LineMeta → LineMeta) (h : Hub) : Hub :=
  { h with lines := NMap.put LineMeta.zero l (f (h.lineMeta l)) h.lines }

/-- The check value of a line is tested (R395): a line whose check fails is poisoned (R396). -/
def LineMeta.verify (m : LineMeta) : LineMeta := { m with poison := m.poison || m.syn ≠ 0 }

/-- A write changes a line (R395, R396): the old check value is tested and a new one made; a write of the whole line
clears poison. -/
def LineMeta.rewrite (whole : Bool) (m : LineMeta) : LineMeta :=
  { m.verify with poison := m.verify.poison && !whole, syn := 0 }

/-- The lines of 128 bytes that a range touches, and whether it covers each whole. -/
def touched (a n : Nat) : List (Nat × Bool) :=
  if n = 0 then []
  else (List.range ((a + n - 1) / 128 + 1 - a / 128)).map (fun k =>
    let l := a / 128 + k
    (l, decide (a ≤ 128 * l ∧ 128 * l + 128 ≤ a + n)))

/-- Bytes reach the bank of a vault (R185): each 128-byte unit keeps a check value of its own (R395). -/
def Hub.putVault (pa : Nat) (bs : List Byte) (h : Hub) : Hub :=
  (touched pa bs.length).foldl (fun h (t : Nat × Bool) => h.setLine t.1 (LineMeta.rewrite t.2))
    { h with mem := putBytes pa bs h.mem }

/-- A write to a vault that meets a poisoned unit and does not cover it whole (R396). -/
def Hub.vaultHit (pa n : Nat) (h : Hub) : Bool :=
  (touched pa n).any (fun t => (h.lineMeta t.1).verify.poison && !t.2)

/-- Writes cells into memory; the check value of each of their lines is made anew (R395, R396). -/
def Hub.putCells (cells : List (Nat × Byte)) (h : Hub) : Hub :=
  ((cells.map (fun e => e.1 / 128)).eraseDups).foldl (fun h l =>
      h.setLine l (LineMeta.rewrite ((cells.filter (fun e => e.1 / 128 = l)).length = 128)))
    { h with mem := NMap.putAll 0#8 cells h.mem }

/-- The canonical form of memory: addresses strictly rising, no listed byte that equals what an
unlisted address reads as. -/
def Memory.wf (m : NMap Byte) : Bool := NMap.wf 0#8 m

/-- Sets the bits `[h:l]` of a word. -/
def setBits (h l : Nat) (v : Nat) (w : Word) : Word :=
  BitVec.ofNat 64 (w.toNat - bitsOf h l w.toNat * 2 ^ l + v % 2 ^ (h + 1 - l) * 2 ^ l)

/-- The bits `[h:l]` of a word. -/
def wbits (h l : Nat) (w : Word) : Nat := bitsOf h l w.toNat

/-! ### Taking a trap and returning (R335, R370 to R379) -/

/-- What a trap reports: its class in the order of R373, code, INFO, slot, `TPC`, `TADDR` and the
level it is taken at. -/
structure TrapInfo where
  cls : Nat
  code : Nat
  info : Nat
  slot : Option Slot
  tpc : VAddr
  taddr : Nat
  lvl : Nat
  deriving DecidableEq, Repr

/-- The level of a trap whose entry in R371 reads S (R372). -/
def toS (lvl : Nat) : Nat := if lvl = 2 then 2 else 1

/-- The level of a privileged-operation trap (R335). -/
def toPriv (lvl : Nat) : Nat := if lvl = 0 then 1 else 2

/-- `TCAUSE` (R370). -/
def causeWord (t : TrapInfo) (held : Bool) : Word :=
  BitVec.ofNat 64 (t.code % 2 ^ 8 + t.info % 2 ^ 16 * 2 ^ 8
    + (match t.slot with | some sl => sl.bit * 2 ^ 24 + 2 ^ 27 | none => 0) + held.toNat * 2 ^ 32)

/-- `PLV` on entry to a level (R335). -/
def enterPlv (lvl : Nat) (w : Word) : Word :=
  let cur := wbits 1 0 w
  if lvl = 2 then
    setBits 1 0 2 (setBits 7 7 0 (setBits 9 9 (wbits 7 7 w) (setBits 5 4 cur w)))
  else
    setBits 1 0 1 (setBits 6 6 0 (setBits 8 8 (wbits 6 6 w) (setBits 3 2 cur w)))

/-- `PLV` after `eret` (R379). -/
def leavePlv (w : Word) : Word :=
  if wbits 1 0 w = 2 then setBits 1 0 (wbits 5 4 w) (setBits 7 7 (wbits 9 9 w) w)
  else setBits 1 0 (wbits 3 2 w) (setBits 6 6 (wbits 8 8 w) w)

/-- The launch of a tread. -/
def State.launchOf (h : Hart) (s : State) : Option Launch :=
  match h.id with
  | .tread l _ _ => s.hub.launches.find? (fun x => x.id = l)
  | .core _ => none

/-- The kernel header of the binary a tread runs. -/
def State.kernelOf (h : Hart) (s : State) : Option KHead :=
  match s.launchOf h with
  | some l => l.kernels.find? (fun k => k.prof = h.spr.prof.toNat % 16)
  | none => none

/-- Base of the quire window (R319). -/
def quireBase : Nat := 0x1fffffe00000000

/-- Whether an address lies in the quire window (R319). -/
def inQuire (va : Nat) : Bool := 0x1fffffe00000000 ≤ va && va ≤ 0x1fffffe00ffffff

/-- The record of the back-map for an offset into the code of the entry at `base` (R325). -/
def mapRecord (m : NMap Byte) (base off : Nat) : Option Nat :=
  let mo := base + numAt m (base + 40) 4
  let recs := (List.range (numAt m (base + 36) 4)).map (fun k => numAt m (mo + 16 * k) 16)
  recs.find? (fun r => bitsOf 127 96 r = off)

/-- `TITER` of a trap at an address that these slots raise (R326): zero outside residual code. A trap that no
slot raises counts every slot of the bundle, but for a CT slot that only holds or branches (R317). (DEDUCED: log
entry 99.) (DEDUCED: log entry 99.) -/
def State.titer (h : Hart) (pc : Nat) (slots : List Slot) (s : State) : Word :=
  if !inQuire pc then 0#64
  else
    match s.kernelOf h, s.hub.quires.find? (fun q => q.part = h.partNo && q.base ≤ pc % 2 ^ 24
        && pc % 2 ^ 24 < q.base + q.size) with
    | some k, some q =>
      let off := pc % 2 ^ 24 - q.base - 64
      -- the partition's own quota begins at offset 0 of its window (R319)
      let mem := s.hub.quireMem
      let b := h.partNo * 2 ^ 24 + q.base
      match mapRecord mem b off with
      | none => 0#64
      | some r =>
        let kind := bitsOf 63 62 r
        let oo := bitsOf 95 64 r
        if kind = 1 then
          let hd := NMap.get 0#8 (b + 64 + off) mem
          let all := (List.range 8).filter (fun b => hd.getLsbD b)
          let body := all.filter (fun b => b ≠ Slot.ct.bit)
          let bs := if slots.isEmpty then (if body.isEmpty then all else body) else slots.map Slot.bit
          let js := bs.map (fun b => bitsOf (5 * b + 4) (5 * b) r)
          let j := js.foldl Nat.min 31
          let bodyOff := numAt mem (b + 32) 4
          let o := numAt mem (b + bodyOff + oo + 4 * j) 4
          let it := (bitsOf 55 45 r - j) / (bitsOf 44 40 r + 1)
          BitVec.ofNat 64 (2 ^ 63 + it % 64 * 2 ^ 57 + (k.code + o) % 2 ^ 57)
        else
          let it := if kind = 0 then bitsOf 61 56 r else 0
          BitVec.ofNat 64 (2 ^ 63 + it * 2 ^ 57 + (k.code + oo) % 2 ^ 57)
    | _, _ => 0#64

/-- A hart after it has taken a trap: the saved registers, the level and the handler's address; from
U a tread holds its schedule (R374), and a trap from S or M acts on the handler's as a branch does (R376); a wait at
`MEET` is withdrawn (R297). -/
def Hart.trapEntry (t : TrapInfo) (titer : Word) (h : Hart) : Hart :=
  let holds := h.level = 0 && !h.isCore
  { h with
    spr := { h.spr with
      tcause := causeWord t holds,
      tpc := BitVec.ofNat 64 t.tpc.toNat,
      taddr := BitVec.ofNat 64 t.taddr,
      titer := titer,
      plv := enterPlv t.lvl h.spr.plv },
    ctl := { h.ctl with
      pc := BitVec.ofNat 57 (if t.lvl = 2 then h.spr.mvec else h.spr.svec).toNat,
      prev := if h.level = 0 then (if h.ctl.run = .atMeet then .detached else h.ctl.run)
        else h.ctl.prev,
      run := if h.ctl.run = .attached then .handler
        else if h.ctl.run = .atMeet then .detached else h.ctl.run,
      held := if holds then some h.sched else h.ctl.held,
      origin := if h.level = 0 then some t.tpc else h.ctl.origin,
      posted := if h.level = 0 then false else h.ctl.posted,
      kept := if h.level = 0 then h.ctl.posted else h.ctl.kept,
      resume := none,
      frozen := false,
      line := none,
      fetchAt := none,
      stall := none,
      bar := none },
    sched := if holds then Sched.empty else { h.sched with loop := none, hold := 0 },
    iss := { h.iss with out := .trapped t.cls, next := none, after := none },
    lsu := { h.lsu with want := none, fault := none, mon := .none, fenceSince := none,
                        verWait := none, flush := none,
                        hubReq := h.lsu.hubReq.filter (fun r => r.answer.isSome) } }

/-- Takes a trap (R335, R370 to R372): the acting hart enters the handler; an entry of the watch table
that its bundle had armed is freed (R205, R287). -/
def State.takeTrap (t : TrapInfo) (s : State) : State :=
  let ti := s.titer s.me t.tpc.toNat t.slot.toList
  { s with
    me := s.me.trapEntry t ti,
    hub := { s.hub with watches := s.hub.watches.filter (fun w => w.who ≠ .hart s.me.id) } }

/-- A trap of the bundle itself, taken at S or, from M, at M (R371, R372). -/
def State.trapS (cls code info taddr : Nat) (s : State) : State :=
  s.takeTrap { cls := cls, code := code, info := info, slot := some s.me.iss.slot,
               tpc := s.me.ctl.pc, taddr := taddr, lvl := toS s.me.level }

/-- Classes of R373 within a bundle: the checks 0x01 to 0x08. -/
def clsDecode : Nat := 10
/-- Privileged operation. -/
def clsPriv : Nat := 11
/-- State violations of 0x09. -/
def clsState : Nat := 12
/-- Translation, alignment, vault and descriptor checks. -/
def clsAccess : Nat := 13
/-- `trap` and `bkpt`. -/
def clsSoft : Nat := 14
/-- Hypothesis full. -/
def clsFull : Nat := 15
/-- A trap that follows the issue of its bundle: `sys` (R341). -/
def clsAfter : Nat := 16

/-- The illegal-instruction trap with a detail code (R103, R371). -/
def State.illegal (d : Nat) (s : State) : Host.Outcome State Fault Refusal :=
  .next (s.trapS (if d = 9 then clsState else clsDecode) 0x01 d 0)

/-- The privileged-operation trap (R335, R371). -/
def State.privileged (s : State) : Host.Outcome State Fault Refusal :=
  .next (s.takeTrap { cls := clsPriv, code := 0x02, info := 0, slot := some s.me.iss.slot,
                      tpc := s.me.ctl.pc, taddr := 0, lvl := toPriv s.me.level })

/-- The misaligned-access trap (R224). -/
def State.misaligned (va : Nat) (s : State) : Host.Outcome State Fault Refusal :=
  .next (s.trapS clsAccess 0x08 0 va)

/-- The vault access fault (R183). -/
def State.vaultFault (va : Nat) (s : State) : Host.Outcome State Fault Refusal :=
  .next (s.trapS clsAccess 0x09 0 va)

/-- The descriptor fault (R119). -/
def State.descFault (id : Word) (info : Nat) (s : State) : Host.Outcome State Fault Refusal :=
  .next (s.trapS clsAccess 0x0a info id.toNat)

/-- `XFLT` for a fault (R353). -/
def xfltWord (x : XFault) (acc : Acc) : Word :=
  BitVec.ofNat 64 (2 ^ 63 + x.stage % 4 * 2 ^ 61 + x.level % 8 * 2 ^ 58 + x.kind % 8 * 2 ^ 55
    + (match acc with
       | .load => 0 | .store => 1 | .fetch => 2 | .atomic => 3 | .engRead => 4 | .engWrite => 5
       | .monWait => 6) * 2 ^ 52
    + (if x.stage = 2 then bitsOf 51 12 x.ipa * 2 ^ 12 else 0))

/-- The level at which a translation fault is taken at level `lvl` (R335): stage 1 at S, the others at M; the level
never falls by a trap (R334), so one of stage 1 at M, for which R335 has no cell, is taken at M.
(DEDUCED: log entry 110.) -/
def xfltLevel (lvl : Nat) (x : XFault) : Nat := Nat.max (lvl % 4) (if x.stage = 1 then 1 else 2)

/-- The translation fault of a bundle (R225, R353). -/
def State.xlatFault (x : XFault) (acc : Acc) (va : Nat) (s : State) :
    Host.Outcome State Fault Refusal :=
  let s' := s.takeTrap { cls := clsAccess, code := 0x0c, info := 0, slot := some s.me.iss.slot,
                         tpc := s.me.ctl.pc, taddr := va, lvl := xfltLevel s.me.level x }
  .next (s'.modMe (fun h => { h with spr := { h.spr with xflt := xfltWord x acc } }))

/-- An operation suspended by a fault whose trap has been taken resumes (R241). -/
def EngOp.resume (o : EngOp) : EngOp :=
  match o.stat with
  | .suspended _ _ _ true => { o with stat := .running }
  | _ => o

/-- The return from a handler (R379): the level and the enables that were saved, the address in `TPC`,
and, back at U, the held schedule in the place of the held cycle, its loop where the handler has left `TPC` as it was
(R402; DEDUCED: log entry 28); a stepped return waits for one cycle (R393). Engine operations whose translation fault the handler has served resume (R241). -/
def Hart.eretEntry (h : Hart) : Hart :=
  let plv := leavePlv h.spr.plv
  let toU := wbits 1 0 plv = 0
  let same : Bool := h.ctl.origin = some (BitVec.ofNat 57 h.spr.tpc.toNat)
  let old := h.ctl.held.getD h.sched
  { h with
    spr := { h.spr with plv := plv },
    ctl := { h.ctl with
      run := if toU then (if h.ctl.run = .handler then h.ctl.prev else h.ctl.run) else h.ctl.run,
      held := if toU then none else h.ctl.held,
      origin := if toU ∧ same then none else h.ctl.origin,
      posted := if toU then h.ctl.kept else h.ctl.posted,
      kept := if toU then false else h.ctl.kept,
      line := none,
      fetchAt := none,
      stepping := toU && wbits 0 0 h.spr.dbg = 1 },
    sched := if toU then { old with loop := if same then old.loop else none } else h.sched,
    units := { h.units with eng := h.units.eng.map EngOp.resume },
    iss := { h.iss with out := .ok, next := some (BitVec.ofNat 57 h.spr.tpc.toNat) } }

/-! ### Common parts of the meanings -/

/-- A guard (R82). -/
def guardHolds (g : Guard) (h : Hart) : Bool := h.regs.pReg g.pred ^^ g.neg

/-- A slot whose guard reads false does nothing (R82). -/
def guarded (g : Guard) (k : Sem) : Sem := fun s => if guardHolds g s.me then k s else .next s.ok

/-- An operation with waits (R286, R287): while one is not met it stalls, but a trap or a freeze of the operation
comes first, and of what it would do nothing happens. -/
def waitsOn (wait : State → Bool) (k : Sem) : Sem := fun s =>
  match k s with
  | .next t =>
    (match t.me.iss.out with
      | .ok | .stalled _ => if wait s then .next (s.stall false) else .next t
      | _ => .next t)
  | r => r

/-- Raises `LT` (R189). -/
def Hart.raiseLt (t : Nat) (h : Hart) : Hart :=
  { h with spr := { h.spr with lt := Nat.max h.spr.lt t } }

/-- The floor of a hart's writes (R189). -/
def Hart.floor (h : Hart) : Nat := Nat.max h.spr.lt (h.spr.storeTime + 1)

/-- A semaphore (R85). -/
def Units.semGet (u : Units) (n : Nat) : Nat := NMap.get 0 n u.sem

/-- Queues a change of one of the hart's own semaphores for the end of the cycle (R85, R245). -/
def Hart.semChange (n op v : Nat) (outside : Bool) (h : Hart) : Hart :=
  { h with units := { h.units with
    semIn := h.units.semIn ++ [{ n := n, op := op, v := v, seq := h.iss.seq, outside := outside }] } }

/-- Applies the changes that land together in one semaphore (R85): the winning set, then the sum of
additions and subtractions, clamped to 0 to 65,535. Which of several outside sets wins is not architected (R85): the
model takes the one queued last. (DESIGN CHOICE: log entry 111.) -/
def semApply (old : Nat) (us : List SemUpd) : Nat :=
  let sets := us.filter (fun u => u.op = 2)
  let outs := sets.filter (fun u => u.outside)
  let base := match outs.getLast?, sets.getLast? with
    | some u, _ => u.v
    | none, some u => u.v
    | none, none => old
  let sum := us.foldl (fun (a : Int) u =>
    if u.op = 0 then a + u.v else if u.op = 1 then a - u.v else a) (base : Int)
  (max 0 (min sum 65535)).toNat

/-- Lands every queued change of a hart's semaphores (R85). -/
def Hart.landSems (h : Hart) : Hart :=
  let ns := (h.units.semIn.map (·.n)).eraseDups
  let sem := ns.foldl (fun m n =>
    NMap.put 0 n (semApply (NMap.get 0 n h.units.sem) (h.units.semIn.filter (fun u => u.n = n))) m)
    h.units.sem
  { h with units := { h.units with sem := sem, semIn := [] } }

/-- The wait field of an MX or EC slot (R84). -/
def waitHolds (w : WaitSig) (h : Hart) : Bool :=
  w.wthr.toNat ≤ h.units.semGet w.widx.toNat

/-- The signal field of an MX or EC slot, as effects of the slot's completion (R84). -/
def sigEffs (w : WaitSig) : List Eff :=
  if w.sinc = 0#4 then [] else [.sem w.sidx.toNat w.sinc.toNat]

/-- The signal field as an engine operation keeps it. -/
def sigOpt (w : WaitSig) : Option (Nat × Nat) :=
  if w.sinc = 0#4 then none else some (w.sidx.toNat, w.sinc.toNat)

/-- Sets bits of the pending status (R204): 0 DEAD, 1 REFUSED, 2 POISON, 3 REFUTED, 4 TIMEOUT. -/
def Hart.setPending (bit : Nat) (h : Hart) : Hart :=
  { h with units := { h.units with pending := h.units.pending ||| BitVec.ofNat 5 (2 ^ bit) } }

/-- A word's lowest set bit. -/
def lowestBit (w : Nat) (n : Nat) : Option Nat := (List.range n).find? (fun k => w / 2 ^ k % 2 = 1)

end Sys2Proof.Machine
end

