-- ==== Sys2Proof/Machine/SysRegs.lean ====
section
/-! DEFINITION. The system registers as `rdsr` and `wrsr` see them (R74, R75, R336, R337, R339,
R340, R392), and the landing of every kind of result in flight. -/

namespace Sys2Proof.Machine

/-- A cell of the access tables. -/
inductive Cell where
  | no | ro | rw
  deriving DecidableEq, Repr

/-- The access a register permits at U, S and M; `none` where the number is in no table (R336). -/
def sprAccess (core : Bool) (n : Nat) : Option (Cell × Cell × Cell) :=
  match n with
  | 0x02 | 0x08 | 0x09 | 0x12 | 0x18 | 0x19 | 0x1a | 0x1b | 0x20 => some (.ro, .rw, .rw)
  | 0x0a | 0x0b => some (.rw, .rw, .rw)
  | 0x00 | 0x01 | 0x03 | 0x04 | 0x05 | 0x06 | 0x07 | 0x0c | 0x0d | 0x0e | 0x0f | 0x10 | 0x11 =>
    some (.ro, .ro, .ro)
  | 0x21 | 0x24 | 0x25 | 0x27 | 0x28 | 0x2b | 0x2c | 0x2e => some (.no, .rw, .rw)
  | 0x22 | 0x26 => some (.no, .no, .rw)
  | 0x23 => some (.no, .ro, if core then .rw else .ro)
  | 0x29 | 0x2a => some (.no, .ro, .ro)
  | 0x2d => some (.no, .ro, .rw)
  | _ => none

/-- The cell of the current level. -/
def levelCell (c : Cell × Cell × Cell) (lvl : Nat) : Cell :=
  if lvl = 0 then c.1 else if lvl = 1 then c.2.1 else c.2.2

/-- A higher level's cell is RW. -/
def higherRw (c : Cell × Cell × Cell) (lvl : Nat) : Bool :=
  (lvl < 1 && c.2.1 = .rw) || (lvl < 2 && c.2.2 = .rw)

/-- The value that a result in flight will write, for `HWVAL` (R392). -/
def effValue (h : Hart) : List Eff → Word
  | .s _ v :: _ | .g _ v :: _ | .m _ v :: _ => v
  | .mBits n k v :: _ => mergeBits k (h.regs.mReg n) v
  | .p _ b :: _ => if b then 1 else 0
  | _ :: r => effValue h r
  | [] => 0

/-- The held records in order of their remaining count (R394): kind, register, count, origin and
value. -/
def heldRecords (h : Hart) : List (Nat × Nat × Nat × Nat × Word) :=
  match h.ctl.held with
  | none => []
  | some sc =>
    let ps := (sc.pipe.filter (fun p => p.kind ≠ 0)).map
      (fun p => (p.kind, p.reg, p.left, p.origin.toNat, effValue h (p.effs.getD [])))
    let lp := match sc.loop with
      | some l => [(9, 0, (l.n - 1) * l.ii + l.body.length - l.c, l.origin.toNat, (0 : Word))]
      | none => []
    let hd := if sc.hold = 0 then [] else [(12, 0, sc.hold, sc.holdAt.toNat, (0 : Word))]
    sortBy (fun a b => a.2.2.1 ≤ b.2.2.1) (ps ++ lp ++ hd)

/-- `HWREC` (R394). -/
def hwrec (h : Hart) : Word :=
  match (heldRecords h)[h.spr.hwsel.toNat % 256]? with
  | some (k, r, l, o, _) =>
    BitVec.ofNat 64 (2 ^ 63 + k % 128 * 2 ^ 56 + r % 256 * 2 ^ 48 + l % 65536 * 2 ^ 32 + o % 2 ^ 32)
  | none => 0

/-- `HWVAL` (R392): the value of a record of kind 1 to 4, otherwise 0. -/
def hwval (h : Hart) : Word :=
  match (heldRecords h)[h.spr.hwsel.toNat % 256]? with
  | some (k, _, _, _, v) => if 1 ≤ k ∧ k ≤ 4 then v else 0
  | none => 0

/-- `EVPEND` as read: the stored bits and TIMER, which is pending while `CLK` has reached `TCMP`
(R339). -/
def evpend (clk : Nat) (h : Hart) : Word :=
  if h.isCore then
    BitVec.ofNat 64 (h.spr.evpend.toNat % 64 / 2 * 2 + (decide (h.spr.tcmp.toNat ≤ clk)).toNat)
  else 0

/-- The MX operations of a schedule that are past their occupancy and whose results have not landed (R166). -/
def Sched.liveTails (sc : Sched) : List (Nat × Nat) := sc.tails.filter (fun t => sc.pipe.any (fun p => p.seq = t.1))

/-- The occupancy cycles completed by the latest MX operation in flight in a schedule (R168, R386). -/
def Sched.mxCycles (sc : Sched) : Option Nat :=
  match sc.mx with
  | some o => some o.done
  | none => sc.liveTails.getLast?.map (·.2)

/-- `PIX.MXC` (R386): occupancy cycles completed by the MX operation in flight or held. -/
def mxDone (h : Hart) : Nat :=
  ((h.sched.mxCycles.orElse (fun _ => h.ctl.held.bind Sched.mxCycles)).getD 0) % 512

/-- The value that `rdsr` reads (R340). -/
def sprRead (n : Nat) (s : State) : Word :=
  let h := s.me
  let r := h.spr
  match n with
  | 0x00 => BitVec.ofNat 64 s.hub.clk
  | 0x01 => BitVec.ofNat 64 r.lt
  | 0x02 => r.hyp
  | 0x03 => r.rank
  | 0x04 => r.flw
  | 0x05 => r.wgi
  | 0x06 => r.gang
  | 0x07 => r.rise
  | 0x08 => r.meet
  | 0x09 => BitVec.ofNat 64 (r.pix.toNat % 2 ^ 55 + mxDone h * 2 ^ 55)
  | 0x0a => r.msh
  | 0x0b => r.rngk
  | 0x0c => r.prof
  | 0x0d => r.kcfg
  | 0x0e => r.vwv
  | 0x0f => r.vwt
  | 0x10 => r.vwa
  | 0x11 => r.grps
  | 0x12 => (s.hub.part h.partNo).park
  | 0x18 => r.tcause
  | 0x19 => r.tpc
  | 0x1a => r.taddr
  | 0x1b => r.titer
  | 0x20 => r.plv
  | 0x21 => r.svec
  | 0x22 => r.mvec
  | 0x23 => r.part
  | 0x24 => r.xflt
  | 0x25 => r.sscr
  | 0x26 => r.mscr
  | 0x27 => r.dbg
  | 0x28 => r.hwsel
  | 0x29 => hwrec h
  | 0x2a => hwval h
  | 0x2b => evpend s.hub.clk h
  | 0x2c => if h.isCore then r.even else 0
  | 0x2d => if h.isCore then r.evlvl else 0
  | 0x2e => if h.isCore then r.tcmp else 0
  | _ => 0

/-- Keeps of a write the bits of a mask and of the old value the others. -/
def maskWrite (mask : Nat) (old v : Word) : Word :=
  (v &&& BitVec.ofNat 64 mask) ||| (old &&& ~~~ BitVec.ofNat 64 mask)

/-- A write of `PLV` (R337): CUR never, the M fields at M only, a 3 in a PREV field and a 2 in SPREV
at S leave that field unchanged. -/
def plvWrite (lvl : Nat) (old v : Word) : Word :=
  let w := maskWrite 0x140 old v
  let sp := wbits 3 2 v
  let w := if sp = 3 ∨ (lvl = 1 ∧ sp = 2) then w else setBits 3 2 sp w
  if lvl = 2 then
    let w := maskWrite 0x280 w v
    if wbits 5 4 v = 3 then w else setBits 5 4 (wbits 5 4 v) w
  else w

/-- The path of a node to the root, the node first (R215). -/
def nodePath (ns : List Node) (part : Nat) : Nat → Nat → List Nat
  | 0, _ => []
  | fuel + 1, n =>
    if n = 0 then [0]
    else match ns.find? (fun x => x.part = part && x.id = n) with
      | some x => n :: nodePath ns part fuel x.parent
      | none => [n]

/-- The path of a node to the root; a tree is at most eight deep (R215). -/
def Hub.path (h : Hub) (part n : Nat) : List Nat := nodePath h.nodes part 10 n

/-- A write of `HYP` at S or M (R252): only the current node or an ancestor is accepted, and the
handler stack is popped to its depth. -/
def hypWrite (v : Word) (s : State) : State :=
  let p := s.hub.path s.me.partNo s.me.spr.hyp.toNat
  match p.idxOf? v.toNat with
  | some k => s.modMe (fun h =>
      { h with
        spr := { h.spr with hyp := v },
        units := { h.units with hstack := h.units.hstack.drop k } })
  | none => s

/-- The write that `wrsr` makes when it lands, field by field under the access of the level that
issued it (R340, R337, R339, R392). -/
def sprWrite (lvl n : Nat) (v : Word) (s : State) : State :=
  let r := s.me.spr
  let set (f : Sprs → Sprs) : State := s.modMe (fun h => { h with spr := f h.spr })
  let core := s.me.isCore
  -- events routed to M are beyond the reach of S (R339)
  let reach : Nat := if lvl = 2 then 0x3f else 0x3f - r.evlvl.toNat % 64
  match n with
  | 0x02 => hypWrite v s
  | 0x08 =>
    if core || s.me.ctl.run = .attached || (s.me.ctl.run = .handler && s.me.ctl.prev = .attached)
    then set (fun r => { r with meet := maskWrite (2 ^ 57 - 1) r.meet v }) else s
  | 0x09 => if 4 ≤ wbits 54 52 v then s
    else set (fun r => { r with pix := maskWrite (7 * 2 ^ 52 + (2 ^ 32 - 1)) r.pix v })
  | 0x0a => set (fun r => { r with msh := maskWrite 0xffff007f r.msh v })
  | 0x0b => s.modMe (fun h =>
      { h with
        spr := { h.spr with rngk := v },
        units := { h.units with mould := { h.units.mould with n := [], cA := [], cC := [] } } })
  | 0x12 => { s with hub := s.hub.setPart s.me.partNo (fun p =>
      { p with park := if wbits 31 0 v < 4096 then 4096 else BitVec.ofNat 64 (wbits 31 0 v) }) }
  | 0x18 => set (fun r => { r with tcause := maskWrite 0x10fffffff r.tcause v })
  | 0x19 => set (fun r => { r with tpc := v })
  | 0x1a => set (fun r => { r with taddr := v })
  | 0x1b => set (fun r => { r with titer := v })
  | 0x20 => set (fun r => { r with plv := plvWrite lvl r.plv v })
  | 0x21 => set (fun r => { r with svec := maskWrite (2 ^ 57 - 1) r.svec v })
  | 0x22 => set (fun r => { r with mvec := maskWrite (2 ^ 57 - 1) r.mvec v })
  | 0x23 => if core then set (fun r => { r with part := maskWrite 0xf r.part v }) else s
  | 0x24 => set (fun r => { r with xflt := maskWrite (2 ^ 64 - 4096) r.xflt v })
  | 0x25 => set (fun r => { r with sscr := v })
  | 0x26 => set (fun r => { r with mscr := v })
  | 0x27 => set (fun r => { r with dbg := maskWrite (if lvl = 2 then 0x1d else 0x11) r.dbg v })
  | 0x28 => set (fun r => { r with hwsel := maskWrite 0xff r.hwsel v })
  | 0x2b => if core then set (fun r =>
      { r with evpend := r.evpend &&& ~~~ (v &&& BitVec.ofNat 64 (reach &&& 0x3e)) }) else s
  | 0x2c => if core then set (fun r => { r with even := maskWrite reach r.even v }) else s
  | 0x2d => if core then set (fun r => { r with evlvl := maskWrite 0x3f r.evlvl v }) else s
  | 0x2e => if core then set (fun r => { r with tcmp := v }) else s
  | _ => s

/-- The commit of an `accept` (R178): shadowed lanes that were accepted take the shadow's bytes, the
acceptance counts rise, and the mould closes. -/
def Hart.acceptLands (ok active : Word) (h : Hart) : Hart :=
  let mo := h.units.mould
  let keys := (List.range (64 * mo.count)).filter (fun k => ok.getLsbD (k % 64))
  let base := (h.spr.vwv.toNat / 2 ^ 8 % 2 ^ 10) * 64 + mo.first * 64
  let ws := keys.map (fun k => (base + k, NMap.get 0#32 (base + k) mo.shadow))
  let bump (m : NMap (BitVec 32)) (l : Nat) : NMap (BitVec 32) :=
    let c := NMap.get 0#32 l m
    NMap.put 0#32 l (if c = BitVec.allOnes 32 then c else c + 1) m
  let act := (List.range 64).filter (fun l => active.getLsbD l)
  let oks := (List.range 64).filter (fun l => ok.getLsbD l)
  { h with
    regs := h.regs.setUnits ws,
    units := { h.units with
      mould := { mo with
        mode := .closed, shadow := [], cA := act.foldl bump mo.cA, cC := oks.foldl bump mo.cC } } }

/-- Observing the completion of engine operations (R207): LT rises to the greatest stamp of their writes. -/
def Hart.seeWhere (p : EngOp → Bool) (h : Hart) : Hart :=
  let seen (o : EngOp) : Bool := p o && o.stat = .done
  let t := (h.units.eng.filter seen).foldl (fun t o => Nat.max t o.stamp) 0
  let eng := h.units.eng.map (fun o => if seen o then { o with seen := true } else o)
  Hart.raiseLt t { h with units := { h.units with eng := eng } }

/-- Observing the completion of every engine operation promised by a time (R207, R242). -/
def Hart.seeEngines (p : Nat) (h : Hart) : Hart := h.seeWhere (fun o => o.promise ≤ p)

/-- A direct store that is still on its way takes over the bytes that a later `acc.st` has stored (R169). -/
def VStore.takeOver (n pa : Nat) (bs : List Byte) (v : VStore) : VStore :=
  if v.seq < n then { v with bytes := v.bytes.mapIdx (fun k b =>
    if pa ≤ v.pa + k then bs.getD (v.pa + k - pa) b else b) } else v

/-- Bytes of `acc.st` are in the vault (R169): also where an earlier direct store of the tread has yet to land. -/
def State.vaultLands (n pa : Nat) (bs : List Byte) (s : State) : State :=
  State.modMe (fun h => { h with lsu := { h.lsu with vstores := h.lsu.vstores.map (VStore.takeOver n pa bs) } })
    { s with me := if s.hub.vaultHit pa bs.length then s.me.setPending 2 else s.me, hub := s.hub.putVault pa bs }

/-- The landing of one effect on the acting hart. -/
def State.landEff (s : State) : Eff → State
  | .s n v => s.modMe (fun h => { h with regs := h.regs.setS n v })
  | .g n v => s.modMe (fun h => { h with regs := h.regs.setG n v })
  | .p n v => s.modMe (fun h => { h with regs := h.regs.setP n v })
  | .m n v => s.modMe (fun h => { h with regs := h.regs.setM n v })
  | .mBits n k v => s.modMe (fun h => { h with regs := h.regs.setM n (mergeBits k (h.regs.mReg n) v) })
  | .space false ws => s.modMe (fun h => { h with regs := h.regs.setUnits ws })
  | .space true ws => s.modMe (fun h =>
      { h with units := { h.units with mould := { h.units.mould with
          shadow := NMap.putAll 0#32 ws h.units.mould.shadow } } })
  | .bits false u k v => s.modMe (fun h =>
      { h with regs := h.regs.setUnits [(u, mergeBits k (NMap.get 0#32 u h.regs.space) v)] })
  | .bits true u k v => s.modMe (fun h =>
      { h with units := { h.units with mould := { h.units.mould with
          shadow := NMap.put 0#32 u (mergeBits k (NMap.get 0#32 u h.units.mould.shadow) v)
            h.units.mould.shadow } } })
  | .sem n inc => s.modMe (fun h => h.semChange n 0 inc false)
  | .lt t => s.modMe (fun h => h.raiseLt t)
  | .spr lvl n v => sprWrite lvl n v s
  | .xpass n ls => s.modMe (fun h => { h with units := { h.units with
      xq := sortBy (fun a b => a.1 ≤ b.1) (h.units.xq ++ [(n, ls)]) } })
  | .accept ok active => s.modMe (fun h => h.acceptLands ok active)
  | .memErr a i => s.modMe (fun h =>
      { h with latched := { h.latched with memErr := h.latched.memErr ++ [(a, i)] } })
  | .vault n pa bs => s.vaultLands n pa bs
  | .seen p => s.modMe (fun h => h.seeEngines p)

/-- The landing of the effects of one result. -/
def State.landPend (s : State) (p : Pend) : State := (p.effs.getD []).foldl State.landEff s

/-- Whether a result is due and has arrived. -/
def Pend.ready (p : Pend) : Bool := p.left = 0 && p.effs.isSome

/-- Every due result of the acting hart lands, in the order of issue, so that the result of the
later-issued bundle remains (R11, R12). -/
def State.landDue (s : State) : State :=
  let due := sortBy (fun a b => a.seq ≤ b.seq) (s.me.sched.pipe.filter Pend.ready)
  let s := s.modMe (fun h =>
    { h with sched := { h.sched with pipe := h.sched.pipe.filter (fun p => !p.ready) } })
  due.foldl State.landPend s

end Sys2Proof.Machine
end

