-- ==== Sys2Proof/Machine/Float.lean ====
section
/-! DEFINITION. The number formats and their helpers (R104 to R117): exact values as fractions of
natural numbers, rounded once. -/

namespace Sys2Proof.Machine

/-- The rounding modes, by code (R95, R113). -/
inductive RM where
  | rne | rz | rd | ru
  deriving DecidableEq, Repr

/-- The mode that a VA field RM names. -/
def RM.ofCode (c : BitVec 2) : RM :=
  if c = 0#2 then .rne else if c = 1#2 then .rz else if c = 2#2 then .rd else .ru

/-- How a format encodes infinities and NaNs (R105). -/
inductive FKind where
  | ieee | e4m3 | e2m1
  deriving DecidableEq, Repr

/-- A floating-point format (R104). -/
structure Fmt where
  ebits : Nat
  fbits : Nat
  bias : Nat
  kind : FKind
  deriving DecidableEq, Repr

/-- FP64. -/
def fp64 : Fmt := ⟨11, 52, 1023, .ieee⟩
/-- FP32. -/
def fp32 : Fmt := ⟨8, 23, 127, .ieee⟩
/-- FP16. -/
def fp16 : Fmt := ⟨5, 10, 15, .ieee⟩
/-- BF16. -/
def bf16 : Fmt := ⟨8, 7, 127, .ieee⟩
/-- E5M2. -/
def e5m2 : Fmt := ⟨5, 2, 15, .ieee⟩
/-- E4M3. -/
def e4m3 : Fmt := ⟨4, 3, 7, .e4m3⟩
/-- E2M1. -/
def e2m1 : Fmt := ⟨2, 1, 1, .e2m1⟩

/-- Width of a format. -/
def Fmt.width (f : Fmt) : Nat := 1 + f.ebits + f.fbits

/-- An exact value: NaN, an infinity, or a signed fraction. -/
inductive FVal where
  | nan
  | inf (neg : Bool)
  | fin (neg : Bool) (num den : Nat)
  deriving DecidableEq, Repr

/-- The largest finite code without its sign (R104, R105). -/
def Fmt.maxCode (f : Fmt) : Nat :=
  match f.kind with
  | .ieee => (2 ^ f.ebits - 1) * 2 ^ f.fbits - 1
  | .e4m3 => 0x7e
  | .e2m1 => 0x7

/-- The canonical NaN; E2M1 has none and converts a NaN to +0 (R105, R116). -/
def Fmt.nanCode (f : Fmt) : Nat :=
  match f.kind with
  | .ieee => (2 ^ f.ebits - 1) * 2 ^ f.fbits + 2 ^ (f.fbits - 1)
  | .e4m3 => 0x7f
  | .e2m1 => 0

/-- The code of an infinity (R116). -/
def Fmt.infCode (f : Fmt) (neg : Bool) : Nat :=
  match f.kind with
  | .ieee => (2 ^ f.ebits - 1) * 2 ^ f.fbits + neg.toNat * 2 ^ (f.ebits + f.fbits)
  | .e4m3 => 0x7f
  | .e2m1 => 0x7 + neg.toNat * 8

/-- The value of a code (R104, R105). -/
def Fmt.val (f : Fmt) (x : Nat) : FVal :=
  let x := x % 2 ^ f.width
  let neg := x / 2 ^ (f.ebits + f.fbits) = 1
  let e := x / 2 ^ f.fbits % 2 ^ f.ebits
  let fr := x % 2 ^ f.fbits
  let top := e = 2 ^ f.ebits - 1
  if f.kind = .ieee ∧ top then (if fr = 0 then .inf neg else .nan)
  else if f.kind = .e4m3 ∧ top ∧ fr = 2 ^ f.fbits - 1 then .nan
  else if e = 0 then .fin neg fr (2 ^ (f.bias - 1 + f.fbits))
  else if f.bias + f.fbits ≤ e then .fin neg ((2 ^ f.fbits + fr) * 2 ^ (e - f.bias - f.fbits)) 1
  else .fin neg (2 ^ f.fbits + fr) (2 ^ (f.bias + f.fbits - e))

/-- Rounds a fraction to an integer magnitude (R113). -/
def roundMag (rm : RM) (neg : Bool) (num den : Nat) : Nat :=
  let q := num / den
  let r := num % den
  let up := match rm with
    | .rne => decide (den < 2 * r) || (decide (2 * r = den) && decide (q % 2 = 1))
    | .rz => false
    | .rd => neg && decide (r ≠ 0)
    | .ru => !neg && decide (r ≠ 0)
  q + up.toNat

/-- `⌊log₂ (num / den)⌋` plus `2 ^ 14`, which keeps it a natural number. -/
def ratLog (num den : Nat) : Nat :=
  let k := Nat.log2 num + 2 ^ 14 - Nat.log2 den
  -- the quotient lies in [2 ^ (k - 1), 2 ^ (k + 1))
  if num * 2 ^ (2 ^ 14) < den * 2 ^ k then k - 1 else k

/-- Rounds a finite value to a format (R114): the code. -/
def Fmt.roundFin (f : Fmt) (rm : RM) (neg : Bool) (num den : Nat) : Nat :=
  let sign := neg.toNat * 2 ^ (f.ebits + f.fbits)
  if num = 0 then sign
  else
    let off := 2 ^ 14
    let emin := off + 1 - f.bias
    let e := Nat.max (ratLog num den) emin
    -- the quantum is 2 ^ (e - fbits - off)
    let q := e - f.fbits
    let n := if off ≤ q then roundMag rm neg num (den * 2 ^ (q - off))
      else roundMag rm neg (num * 2 ^ (off - q)) den
    let code := n + (e - emin) * 2 ^ f.fbits
    if code ≤ f.maxCode then sign + code
    else
      let toInf : Bool := match rm with
        | .rne => true
        | .rz => false
        | .rd => neg
        | .ru => !neg
      if f.kind = .ieee ∧ toInf then f.infCode neg else sign + f.maxCode

/-- `convert` to a floating format (R116), and `round` of an exact value (R114). -/
def Fmt.enc (f : Fmt) (rm : RM) : FVal → Nat
  | .nan => f.nanCode
  | .inf neg => f.infCode neg
  | .fin neg n d => f.roundFin rm neg n d

/-- A value is NaN. -/
def FVal.isNan : FVal → Bool
  | .nan => true
  | _ => false

/-- A value is neither NaN nor an infinity. -/
def FVal.isFin : FVal → Bool
  | .fin .. => true
  | _ => false

/-- A value is a zero. -/
def FVal.isZero : FVal → Bool
  | .fin _ n _ => n = 0
  | _ => false

/-- The sign of a value. -/
def FVal.neg? : FVal → Bool
  | .nan => false
  | .inf s => s
  | .fin s _ _ => s

/-- The value with its sign inverted. -/
def FVal.negate : FVal → FVal
  | .nan => .nan
  | .inf s => .inf !s
  | .fin s n d => .fin (!s) n d

/-- The value with its sign cleared. -/
def FVal.abs : FVal → FVal
  | .nan => .nan
  | .inf _ => .inf false
  | .fin _ n d => .fin false n d

/-- The exact sum; an exact zero takes the sign of IEEE 754-2019 (R114). -/
def FVal.add (rm : RM) : FVal → FVal → FVal
  | .nan, _ => .nan
  | _, .nan => .nan
  | .inf s, .inf t => if s = t then .inf s else .nan
  | .inf s, .fin .. => .inf s
  | .fin .., .inf t => .inf t
  | .fin s n d, .fin t m e =>
    if n = 0 ∧ m = 0 then .fin (if s = t then s else rm = .rd) 0 1
    else
      let a := n * e
      let b := m * d
      if s = t then .fin s (a + b) (d * e)
      else if a = b then .fin (rm = .rd) 0 1
      else if b < a then .fin s (a - b) (d * e)
      else .fin t (b - a) (d * e)

/-- The exact product. -/
def FVal.mul : FVal → FVal → FVal
  | .nan, _ => .nan
  | _, .nan => .nan
  | .inf s, .inf t => .inf (s ^^ t)
  | .inf s, .fin t n _ => if n = 0 then .nan else .inf (s ^^ t)
  | .fin t n _, .inf s => if n = 0 then .nan else .inf (s ^^ t)
  | .fin s n d, .fin t m e => .fin (s ^^ t) (n * m) (d * e)

/-- The exact quotient. -/
def FVal.div : FVal → FVal → FVal
  | .nan, _ => .nan
  | _, .nan => .nan
  | .inf _, .inf _ => .nan
  | .inf s, .fin t _ _ => .inf (s ^^ t)
  | .fin s _ _, .inf t => .fin (s ^^ t) 0 1
  | .fin s n d, .fin t m e =>
    if m = 0 then (if n = 0 then .nan else .inf (s ^^ t))
    else .fin (s ^^ t) (n * e) (d * m)

/-- An FP addition with one rounding. -/
def FVal.fma (rm : RM) (a b c : FVal) : FVal := FVal.add rm (FVal.mul a b) c

/-- The integer square root, one bit a step. -/
def isqrtFrom (n : Nat) : Nat → Nat → Nat
  | 0, r => r
  | b + 1, r => isqrtFrom n b (if (r + 2 ^ b) * (r + 2 ^ b) ≤ n then r + 2 ^ b else r)

/-- The square root of a fraction to far more places than any format holds: exact where it is a
fraction of those places, and otherwise strictly between two neighbours. -/
def sqrtFin (num den : Nat) : FVal :=
  -- p places after the point
  let p := 1100
  let n := num * 4 ^ p / den
  let r := isqrtFrom n (Nat.log2 n / 2 + 1) 0
  if r * r * den = num * 4 ^ p then .fin false r (2 ^ p) else .fin false (2 * r + 1) (2 ^ (p + 1))

/-- The square root (R140, R147): `−0` for `−0`, NaN below zero. -/
def FVal.sqrt : FVal → FVal
  | .nan => .nan
  | .inf s => if s then .nan else .inf false
  | .fin s n d => if n = 0 then .fin s 0 1 else if s then .nan else sqrtFin n d

/-- The comparison of two finite or infinite values: `none` if either is NaN; zeros are equal. -/
def FVal.cmp : FVal → FVal → Option Ordering
  | .nan, _ => none
  | _, .nan => none
  | .inf s, .inf t => some (if s = t then .eq else if s then .lt else .gt)
  | .inf s, .fin .. => some (if s then .lt else .gt)
  | .fin .., .inf t => some (if t then .gt else .lt)
  | .fin s n d, .fin t m e =>
    let a : Int := if s then -(n * e : Nat) else (n * e : Nat)
    let b : Int := if t then -(m * d : Nat) else (m * d : Nat)
    some (compare a b)

/-- `minimum` of IEEE 754-2019: NaN if either is, and `−0` below `+0` (R140). -/
def FVal.minimum (a b : FVal) : FVal :=
  match FVal.cmp a b with
  | none => .nan
  | some .lt => a
  | some .gt => b
  | some .eq => if a.neg? then a else b

/-- `maximum` of IEEE 754-2019 (R140). -/
def FVal.maximum (a b : FVal) : FVal :=
  match FVal.cmp a b with
  | none => .nan
  | some .lt => b
  | some .gt => a
  | some .eq => if a.neg? then b else a

/-- The integer of an integer value. -/
def FVal.ofInt (x : Int) : FVal := .fin (decide (x < 0)) x.natAbs 1

/-- `saturate` to the range from `lo` to `hi` (R115). -/
def saturate (lo hi x : Int) : Int := max lo (min hi x)

/-- `convert` to an integer range (R116). -/
def FVal.toInt (rm : RM) (lo hi : Int) : FVal → Int
  | .nan => 0
  | .inf s => if s then lo else hi
  | .fin s n d =>
    let m := roundMag rm s n d
    saturate lo hi (if s then -(m : Int) else m)

/-- The low `w` bits of an integer (R115). -/
def wrapBits (w : Nat) (x : Int) : Nat := (x % (2 ^ w : Nat)).toNat

/-! ### Elementary functions

Fixed-point arithmetic with `wp` binary places. The results are irrational wherever these functions
are called, and the error of each lies far below the distance of any irrational result from a
rounding boundary of a format of R104. -/

/-- Working places. -/
def wp : Nat := 1200

/-- The sum of the series of `exp` for a fixed-point argument: term, index, sum. -/
def expSeries (x : Nat) : Nat → Nat → Nat → Nat → Nat
  | 0, _, _, acc => acc
  | fuel + 1, term, k, acc => expSeries x fuel (term * x / 2 ^ wp / k) (k + 1) (acc + term)

/-- `exp` of a fixed-point number below 1. -/
def expFix (x : Nat) : Nat := expSeries x 260 (2 ^ wp) 1 0

/-- The sum of `z, z³/3, z⁵/5, …`, with alternating signs when `alt`. -/
def oddSeries (alt : Bool) (z2 : Nat) : Nat → Nat → Nat → Int → Int
  | 0, _, _, acc => acc
  | fuel + 1, pw, k, acc =>
    let t : Int := (pw / (2 * k + 1) : Nat)
    oddSeries alt z2 fuel (pw * z2 / 2 ^ wp) (k + 1) (if alt && k % 2 = 1 then acc - t else acc + t)

/-- `artanh` of the fraction `n / d`, at most 1/3. -/
def artanhFix (n d : Nat) : Nat :=
  let z := n * 2 ^ wp / d
  (oddSeries false (z * z / 2 ^ wp) 400 z 0 0).toNat

/-- `arctan` of the fraction `1 / d`. -/
def arctanFix (d : Nat) : Nat :=
  let z := 2 ^ wp / d
  (oddSeries true (z * z / 2 ^ wp) 280 z 0 0).toNat

/-- ln 2. -/
def ln2Fix : Nat := 2 * artanhFix 1 3

/-- π by Machin's formula. -/
def piFix : Nat := 16 * arctanFix 5 - 4 * arctanFix 239

/-- ln of a fraction in [1, 2). -/
def lnFix (n d : Nat) : Nat := 2 * artanhFix (n - d) (n + d)

/-- A positive irrational value, given by its fixed-point part. -/
def irr (neg : Bool) (x : Nat) : FVal := .fin neg (2 * x + 1) (2 ^ (wp + 1))

/-- `2ˣ` (R147): exact for an integer. -/
def exp2Fin (neg : Bool) (n d : Nat) : FVal :=
  if n = 0 then .fin false 1 1
  else if 400 * d < n then (if neg then .fin false 1 (2 ^ 400) else .fin false (2 ^ 400) 1)
  else
    let ip := n / d
    let r := n % d
    if r = 0 then (if neg then .fin false 1 (2 ^ ip) else .fin false (2 ^ ip) 1)
    else
      -- x = ip + r / d, or, for negative x, x = - (ip + 1) + (d - r) / d
      let fr := if neg then d - r else r
      let m := expFix (fr * ln2Fix / d)
      if neg then .fin false (2 * m + 1) (2 ^ (wp + 1 + ip + 1))
      else .fin false ((2 * m + 1) * 2 ^ ip) (2 ^ (wp + 1))

/-- `2ˣ` (R147). -/
def FVal.exp2 : FVal → FVal
  | .nan => .nan
  | .inf s => if s then .fin false 0 1 else .inf false
  | .fin s n d => exp2Fin s n d

/-- The logarithm of a positive fraction in units of `unit` per binary order, as a signed value:
`unit` is 1 for log₂ and ln 2 for ln; `tol` is ln 2 for log₂ and 1 for ln. -/
def logFin (base2 : Bool) (n d : Nat) : FVal :=
  let off := 2 ^ 14
  let e := ratLog n d
  -- n / d = m * 2 ^ (e - off) with m in [1, 2)
  let mn := if off ≤ e then n else n * 2 ^ (off - e)
  let md := if off ≤ e then d * 2 ^ (e - off) else d
  let l := lnFix mn md
  let frac : Nat := if base2 then l * 2 ^ wp / ln2Fix else l
  let unit : Nat := if base2 then 2 ^ wp else ln2Fix
  let total : Int := ((e : Int) - off) * unit + frac
  if mn = md ∧ base2 then .fin (decide (e < off)) ((e : Int) - off).natAbs 1
  else if mn = md ∧ e = off then .fin false 0 1
  else irr (decide (total < 0)) total.natAbs

/-- `log₂ x` (R147). -/
def FVal.log2 : FVal → FVal
  | .nan => .nan
  | .inf s => if s then .nan else .inf false
  | .fin s n d => if n = 0 then .inf true else if s then .nan else logFin true n d

/-- `tanh x` (R147). -/
def FVal.tanh : FVal → FVal
  | .nan => .nan
  | .inf s => .fin s 1 1
  | .fin s n d =>
    if n = 0 then .fin s 0 1
    else if 64 * d ≤ n then .fin s (2 ^ 180 - 1) (2 ^ 180)
    else
      -- e ^ (2x) as 2 ^ k * exp f with 2x = k ln 2 + f
      let t := 2 * n * 2 ^ wp / d
      let k := t / ln2Fix
      let f := t % ln2Fix
      let e := expFix f * 2 ^ k
      irr s ((e - 2 ^ wp) * 2 ^ wp / (e + 2 ^ wp))

/-- The series of sine, from the first term: term, index, sum. -/
def sinSeries (x2 : Nat) : Nat → Nat → Nat → Int → Int
  | 0, _, _, acc => acc
  | fuel + 1, term, k, acc =>
    sinSeries x2 fuel (term * x2 / 2 ^ wp / ((k + 1) * (k + 2))) (k + 2)
      (if k / 2 % 2 = 1 then acc - term else acc + term)

/-- `sin (π n / d)` for `n / d` at most 1/2. -/
def sinPiFix (n d : Nat) : Nat :=
  let x := piFix * n / d
  (sinSeries (x * x / 2 ^ wp) 160 x 1 0).toNat

/-- `sin (π x)` of a positive fraction: the sign and the magnitude, exact at multiples of a half. -/
def sinPiPos (n d : Nat) : FVal :=
  let r := n % (2 * d)
  let neg := d ≤ r
  let r := if d ≤ r then r - d else r
  if r = 0 then .fin false 0 1
  else if 2 * r = d then .fin neg 1 1
  else irr neg (sinPiFix (if 2 * r < d then r else d - r) d)

/-- `sin (π x)` (R147): an integer gives a zero with the sign of x. -/
def FVal.sinPi : FVal → FVal
  | .nan => .nan
  | .inf _ => .nan
  | .fin s n d =>
    if n % d = 0 then .fin s 0 1
    else if s then (sinPiPos n d).negate else sinPiPos n d

/-- `cos (π x)` (R147): `x = n + ½` gives +0. -/
def FVal.cosPi : FVal → FVal
  | .nan => .nan
  | .inf _ => .nan
  | .fin _ n d =>
    if 2 * n % d = 0 ∧ 2 * n / d % 2 = 1 then .fin false 0 1
    else if n % d = 0 then .fin (n / d % 2 = 1) 1 1
    else sinPiPos (2 * n + d) (2 * d)

/-- `1 / x` (R147). -/
def FVal.rcp (x : FVal) : FVal := FVal.div (.fin false 1 1) x

/-- `1 / √x` (R147). -/
def FVal.rsqrt : FVal → FVal
  | .nan => .nan
  | .inf s => if s then .nan else .fin false 0 1
  | .fin s n d => if n = 0 then .inf s else if s then .nan else sqrtFin d n

/-- `ln x` of a positive fraction, for `accept` (R178). -/
def lnPos (n d : Nat) : FVal := logFin false n d

/-! ### Formats by code (R96) -/

/-- The width in bits of a format code. -/
def codeWidth (c : Nat) : Nat :=
  match c with
  | 0 | 6 => 32
  | 1 | 2 | 7 => 16
  | 3 | 4 | 8 => 8
  | _ => 4

/-- The floating format of a code, if it is one. -/
def codeFmt (c : Nat) : Option Fmt :=
  match c with
  | 0 => some fp32
  | 1 => some fp16
  | 2 => some bf16
  | 3 => some e4m3
  | 4 => some e5m2
  | 5 => some e2m1
  | _ => none

/-- The value of an element of a format code (R107). -/
def codeVal (c x : Nat) : FVal :=
  match codeFmt c with
  | some f => f.val x
  | none => .ofInt (signedOf (codeWidth c) x)

/-- `convert` to a format code (R116): the element's bits. -/
def codeEnc (c : Nat) (rm : RM) (v : FVal) : Nat :=
  match codeFmt c with
  | some f => f.enc rm v
  | none =>
    let w := codeWidth c
    wrapBits w (v.toInt rm (-(2 ^ (w - 1) : Nat)) ((2 ^ (w - 1) : Nat) - 1))

end Sys2Proof.Machine
end

