-- ==== Sys2Proof/Machine/Operands.lean ====
section
/-! DEFINITION. The operand forms: sources and destinations of the scalar slots (R90, R133), the
uniform registers (R48, R20), views and their checks (R68, R69, R73), elements of vectors, tiles and
accumulators, write masks (R72, R117), and effective addresses (R222). -/

namespace Sys2Proof.Machine

/-! ### Scalar and uniform operands -/

/-- Field A, a scalar or, under UA, a uniform register (R90, R133). -/
def Hart.srcA (h : Hart) (ua : Bool) (a : BitVec 6) : Word :=
  if ua then h.regs.gReg (BitVec.ofNat 5 a.toNat) else h.regs.sReg a

/-- IMM8 sign-extended (R135). -/
def imm8 (f : SI) : Word := f.imm.signExtend 64

/-- A result for a scalar register. -/
def State.writeS (L : Nat) (d : BitVec 6) (v : Word) (s : State) : State :=
  s.issue L 1 d.toNat [.s d v]

/-- A result for a predicate. -/
def State.writeP (L : Nat) (d : BitVec 6) (v : Bool) (s : State) : State :=
  s.issue L 3 (d.toNat % 8) [.p (BitVec.ofNat 3 d.toNat) v]

/-- A result for the bits of a mask register that `k` names (R15, R146). -/
def State.writeMBits (L : Nat) (d : BitVec 6) (k v : Word) (s : State) : State :=
  s.issue L 4 (d.toNat % 8) [.mBits (BitVec.ofNat 3 d.toNat) k v]

/-- A result for a mask register. -/
def State.writeM (L : Nat) (d : BitVec 6) (v : Word) (s : State) : State :=
  s.issue L 4 (d.toNat % 8) [.m (BitVec.ofNat 3 d.toNat) v]

/-- A write of a uniform register by the leading rank (R48): each attached rank of the flight reads it at the
same point of its own stream; an orphan from the cycle in which the writer does (R378); for a rank that has left the
flight by `detach` nothing changes (R56).
(DEDUCED: log entry 105.) -/
def State.broadcastG (L : Nat) (d : BitVec 5) (v : Word) (s : State) : State :=
  let w := s.me
  s.mapWhere (fun h => h.sameFlight w && (h.ctl.run = .attached || h.ctl.run = .handler || h.ctl.run = .orphan))
    (fun h =>
      let skew := if h.ctl.run = .orphan then 0 else (h.rank - w.rank) * (w.spr.rise.toNat % 16)
      h.push (L + skew) 2 d.toNat (some [.g d v]))

/-- A write of a uniform register (R48, R20): by the leading attached rank for the flight; by another
attached rank discarded; by a detached tread the trap of R20. A Newel core writes its own. -/
def State.writeG (L : Nat) (d : BitVec 5) (v : Word) (s : State) : Host.Outcome State Fault Refusal :=
  if s.me.isCore then .next (s.issue L 2 d.toNat [.g d v])
  else if s.me.ctl.run ≠ .attached then s.illegal 9
  else if s.isLead s.me then .next (s.broadcastG L d v).ok
  else .next s.ok

/-- A result for field D, a scalar or, under UD, a uniform register (R90). -/
def State.writeD (L : Nat) (ud : Bool) (d : BitVec 6) (v : Word) (s : State) :
    Host.Outcome State Fault Refusal :=
  if ud then s.writeG L (BitVec.ofNat 5 d.toNat) v else .next (s.writeS L d v)

/-! ### Views (R68, R69, R70) -/

/-- First 4-byte unit and count of the vector view. -/
def Hart.vBase (h : Hart) : Nat := wbits 17 8 h.spr.vwv * 64
/-- First 4-byte unit of the tile view. -/
def Hart.tBase (h : Hart) : Nat := wbits 13 8 h.spr.vwt * 1024
/-- First 4-byte unit of the accumulator view. -/
def Hart.aBase (h : Hart) : Nat := wbits 10 8 h.spr.vwa * 8192

/-- Units of the register space. -/
def spaceUnits : Nat := 65536

/-- A register number is legal in its view (R69). -/
def Hart.viewOk (h : Hart) : Dest → Bool
  | .v n => n < wbits 6 0 h.spr.vwv && n < 64 && h.vBase + 64 * n + 64 ≤ spaceUnits
  | .t n => n < wbits 3 0 h.spr.vwt && n < 8 && h.tBase + 1024 * n + 1024 ≤ spaceUnits
  | .a n => n < wbits 2 0 h.spr.vwa && n < 4 && h.aBase + 8192 * n + 8192 ≤ spaceUnits
  | _ => true

/-- The instructions that a flags-mode kernel may not issue (R14, R73). -/
def Instr.crosses : Instr → Bool
  | .xBcast _ | .xFirst _ | .xLane _ => true
  | _ => false

/-- The checks that depend on the kernel: 0x06, then 0x07 (R103). -/
def kernelCheck (h : Hart) (i : Instr) : Option Nat :=
  if !(i.viewRegs.all h.viewOk) then some 6
  else if Instr.crosses i && wbits 0 0 h.spr.kcfg = 1 then some 7
  else none

/-- A slot that Newel cores do not have, with the checks that depend on the kernel (R30, R103). -/
def treadSlot (i : Instr) (k : Sem) : Sem := fun s =>
  if s.me.isCore then s.illegal 2
  else match kernelCheck s.me i with
    | some d => s.illegal d
    | none => k s

/-- The checks that depend on the kernel, for a slot that every hart has. -/
def kernelOk (i : Instr) (k : Sem) : Sem := fun s =>
  match kernelCheck s.me i with
  | some d => s.illegal d
  | none => k s

/-! ### The mould as the vector view sees it (R173, R174, R179) -/

/-- A vector register is shadowed. -/
def Hart.shadowed (h : Hart) (n : Nat) : Bool :=
  h.units.mould.mode ≠ .closed && h.units.mould.first ≤ n
    && n < h.units.mould.first + h.units.mould.count

/-- A 4-byte unit of the register space belongs to a shadowed register. -/
def Hart.shadowKey (h : Hart) (k : Nat) : Bool :=
  h.vBase ≤ k && h.shadowed ((k - h.vBase) / 64)

/-- The 32-bit lane of a vector register, through the shadow where it is shadowed. -/
def Hart.vLane (h : Hart) (n l : Nat) : BitVec 32 :=
  let k := h.vBase + 64 * n + l
  if h.shadowed n then NMap.get 0#32 k h.units.mould.shadow else NMap.get 0#32 k h.regs.space

/-- The element `l` of width `w` bits of a vector register. -/
def Hart.vElem (h : Hart) (n w l : Nat) : Nat :=
  (h.vLane n (l * w / 32)).toNat / 2 ^ (l * w % 32) % 2 ^ w

/-- The lanes that a mask governs at 32-bit width (R117). -/
def lanes (m : Word) : List Nat := (List.range 64).filter (fun l => m.getLsbD l)

/-- Packs the elements of width `w` of lane `k` (R68). -/
def packLane (w : Nat) (f : Nat → Nat) (k : Nat) : BitVec 32 :=
  BitVec.ofNat 32 ((List.range (32 / w)).foldl
    (fun a j => a + f (k * (32 / w) + j) % 2 ^ w * 2 ^ (j * w)) 0)

/-- The 4-byte units that a vector result writes: the active lanes, and under `.z` zeros in the
others (R15, R72). -/
def vecWords (base : Nat) (m : Word) (z : Bool) (f : Nat → BitVec 32) : List (Nat × BitVec 32) :=
  (List.range 64).filterMap (fun l =>
    if m.getLsbD l then some (base + l, f l) else if z then some (base + l, 0#32) else none)

/-- A unit belongs to the A tile that the matrix unit is reading (R167). -/
def Hart.tileBusy (h : Hart) (k : Nat) : Bool :=
  match h.sched.mx with
  | some o => (match o.tile with
    | some t => t ≤ k && k < t + 1024
    | none => false)
  | none => false

/-- A write of units of vector register `n` may not issue: the mould is closing (R179), or the A tile
of the matrix unit would be reached (R167). (DEDUCED: log entry 11.) (DEDUCED: log entry 109.) -/
def Hart.vecWriteBad (h : Hart) (n : Nat) (ks : List Nat) : Bool :=
  if h.shadowed n then h.units.mould.mode = .closing else ks.any h.tileBusy

/-- A write of units through the tile or accumulator view may not issue: a shadowed byte (R174) or the
A tile of the matrix unit (R167) would be reached. -/
def Hart.viewWriteBad (h : Hart) (ks : List Nat) : Bool :=
  ks.any (fun k => h.shadowKey k || h.tileBusy k)

/-- A result for a vector register (R15, R143): a write to a shadowed register goes to the shadow
(R173). -/
def State.writeV (L : Nat) (d : BitVec 6) (ws : List (Nat × BitVec 32)) (s : State) :
    Host.Outcome State Fault Refusal :=
  if s.me.vecWriteBad d.toNat (ws.map (·.1)) then s.illegal 9
  else .next (s.issue L 5 d.toNat [.space (s.me.shadowed d.toNat) ws])

/-- A result for some bits of one unit of a vector register (R151); the others keep what they hold then. -/
def State.writeVBits (L : Nat) (d : BitVec 6) (u : Nat) (k v : BitVec 32) (s : State) :
    Host.Outcome State Fault Refusal :=
  if s.me.vecWriteBad d.toNat [u] then s.illegal 9
  else .next (s.issue L 5 d.toNat [.bits (s.me.shadowed d.toNat) u k v])

/-- A result of elements of width `w` for a vector register. -/
def State.writeElems (L : Nat) (f : VF) (w : Nat) (g : Nat → Nat) (s : State) :
    Host.Outcome State Fault Refusal :=
  s.writeV L f.d
    (vecWords (s.me.vBase + 64 * f.d.toNat) (s.me.regs.mReg f.m) f.z (packLane w g))

/-- The unit of element (i, j) of an accumulator (R68). -/
def Hart.aKey (h : Hart) (n i j : Nat) : Nat := h.aBase + 8192 * n + 128 * i + j

/-- A write to these units that is in flight, or held (R173, R178, R374). -/
def Hart.inFlight (h : Hart) (p : Nat → Bool) : Bool :=
  h.inPipe.any (fun e => match e.effs with
    | some l => l.any (fun x => match x with
        | .space _ ws => ws.any (fun u => p u.1)
        | .bits _ u _ _ => p u
        | _ => false)
    | none => h.lsu.asks.any (fun a => a.seq = e.seq && (match a.dest with
        | .units _ ks zs => ks.any p || zs.any p
        | .scalar .. => false)))
  || (h.sched.mx.toList ++ (h.ctl.held.bind (·.mx)).toList).any (fun o => match o.job with
    | some j => (List.range (j.mm * 128)).any (fun k => k % 128 < j.nn
        && p (h.aKey j.ac (k / 128) (k % 128)))
    | none => false)

/-! ### Effective addresses (R181, R222) -/

/-- The 57-bit address of a base and a signed offset. -/
def effAddr (base : Word) (off : Int) : Nat :=
  ((base.toNat : Int) + off).emod (2 ^ 57 : Nat) |>.toNat

/-- The address of an LO operation. -/
def loEa (f : LO) (h : Hart) : Nat := effAddr (h.srcA f.ua f.a) f.off.toInt

/-- The address of an LB operation. -/
def lbEa (f : LB) (h : Hart) : Nat := effAddr (h.srcA f.ua f.a) f.off.toInt

end Sys2Proof.Machine
end

