-- ==== Sys2Proof/Machine/Flags.lean ====
section
/-! DEFINITION. Every flag and status word: predicates of the compares (R139, R140), mask bits of the
vector compares (R146), flags over a mask (R155), the fence status (R204), the status of `bar.wait`
(R302), and the comparison of `mon.wait` (R235). -/

namespace Sys2Proof.Machine

/-- Equality (R139). -/
def cmpEq (a b : Word) : Bool := a = b
/-- Signed less than (R139). -/
def cmpLt (a b : Word) : Bool := a.slt b
/-- Signed less or equal (R139). -/
def cmpLe (a b : Word) : Bool := a.sle b
/-- Unsigned less than (R139). -/
def cmpLtu (a b : Word) : Bool := a.ult b
/-- Unsigned less or equal (R139). -/
def cmpLeu (a b : Word) : Bool := a.ule b

/-- Floating equality; false if either is NaN, and `−0 = +0` (R140). -/
def fEq (a b : FVal) : Bool := FVal.cmp a b = some .eq
/-- Floating less than (R140). -/
def fLt (a b : FVal) : Bool := FVal.cmp a b = some .lt
/-- Floating less or equal (R140). -/
def fLe (a b : FVal) : Bool := FVal.cmp a b = some .lt || FVal.cmp a b = some .eq
/-- Unordered (R140). -/
def fUn (a b : FVal) : Bool := a.isNan || b.isNan

/-- `x.any` (R155). -/
def maskAny (m : Word) : Bool := m ≠ 0
/-- `x.all` (R155). -/
def maskAll (m : Word) : Bool := m = BitVec.allOnes 64
/-- `x.none` (R155). -/
def maskNone (m : Word) : Bool := m = 0
/-- The count of set bits (R138, R155). -/
def popCount (m : Word) : Nat := (List.range 64).countP (fun l => m.getLsbD l)

/-- A vector compare's mask (R146): bit `k` is set when the comparison holds for every element of
width `w` in lane `k`; inactive bits keep their values, or are cleared under `.z`. -/
def cmpMask (old m : Word) (z : Bool) (w : Nat) (p : Nat → Bool) : Word :=
  BitVec.ofNat 64 ((List.range 64).foldl (fun a k =>
    let n := 32 / w
    let bit := if m.getLsbD k then (List.range n).all (fun j => p (k * n + j))
      else !z && old.getLsbD k
    a + bit.toNat * 2 ^ k) 0)

/-- The status word of a fence (R204). -/
def fenceStatus (pending : BitVec 5) (timeout : Bool) : Word :=
  BitVec.ofNat 64 (pending.toNat % 16 + (timeout || pending.getLsbD 4).toNat * 16)

/-- The status word of `bar.wait` (R302). -/
def barStatus (pend lost passed : Bool) : Word :=
  BitVec.ofNat 64 (passed.toNat + 2 * lost.toNat + 4 * pend.toNat)

/-- A phase is completed (R65). -/
def phaseDone (current p : Nat) : Bool :=
  let d := (current + 65536 - p % 65536) % 65536
  1 ≤ d && d ≤ 32768

/-- A phase of a group is completed (R65): one that lies ahead of every phase so far is not (R305).
(DEDUCED: log entry 103.) -/
def Group.done (g : Group) (p : Nat) : Bool :=
  phaseDone g.phase p && decide ((g.phase + 65536 - p % 65536) % 65536 ≤ g.total)

/-- The comparison code of `mon.wait` (R235). -/
def Cmp.ofCode (c : BitVec 3) : Cmp :=
  if c = 0#3 then .eq else if c = 1#3 then .ne else if c = 2#3 then .ltu else .geu

/-- The comparison of `mon.wait` (R235). -/
def Cmp.holds (c : Cmp) (a b : Word) : Bool :=
  match c with
  | .eq => a = b
  | .ne => a ≠ b
  | .ltu => a.ult b
  | .geu => b.ule a

end Sys2Proof.Machine
end

