-- ==== Sys2Proof/Machine/Stacks.lean ====
section
/-! DEFINITION. The base dies of the DRAM stacks (R34, R212 to R214): the memory-side cache with its sets, sectors
and eviction buffer, the bank-conflict counters, and the hash versions with the beater engine. None of it changes a
value that a program reads; the bytes of a line stand in memory. -/

namespace Sys2Proof.Machine

/-- The sectors of 32 bytes that a line takes when it is compressed, 1 to 4 (R213). (DESIGN CHOICE: log entry 24.) -/
def sectorsOf (bs : List Byte) : Nat := 1 + Config.compress bs % 4

/-- The sectors of a set: those of its 16 physical lines, but for the share of the cache that is reserved for
contexts (R213, R388). (DESIGN CHOICE: log entry 24.) -/
def setSectors (mib : Nat) : Nat := 64 * (256 - mib) / 256

/-- The sets of the memory-side cache of a stack: 256 MiB in sets of 16 physical lines (R34, R36, R42, R213). -/
def mscSets : Nat := 131072

/-- The set of a line. -/
def mscSetOf (line : Nat) : Nat := Config.mscSet line % mscSets

/-- The lines of a stack's address range, 128 GiB (R24). -/
def stackLines : Nat := 2 ^ 30

/-- The placement that a line has: the new one below the watermark of a migration, which counts the lines of the
stack, otherwise the old one (R214). -/
def Stack.placement (line : Nat) (d : Stack) : Nat :=
  match d.migrating with
  | some w => if line % stackLines < w then d.version else d.version - 1
  | none => d.version

/-- The base die adopts the next hash version and begins to migrate (R214). -/
def Stack.adopt (d : Stack) : Stack :=
  match d.migrating with
  | some _ => d
  | none => { d with version := d.version + 1, migrating := some 0, counts := [] }

/-- A conflict counter has crossed its threshold, and no migration runs (R214): a crossing during one is deferred. -/
def Stack.crossed (d : Stack) : Bool :=
  d.migrating.isNone && d.counts.any (fun e => Config.conflictThreshold < e.2)

/-- A DRAM access to a line: it may conflict in its bank group (R214), which is free; a line of tier-2 memory is not in
the stack's DRAM (R37).
(DESIGN CHOICE: log entry 55.) -/
def Stack.access (clk line : Nat) (d : Stack) : Stack :=
  let g := Config.bankGroup (d.placement line) line
  if 12 * stackLines ≤ line then d else
  { d with counts := if Config.freeBool (freeAt clk line) then NMap.put 0 g (NMap.get 0 g d.counts + 1) d.counts
                     else d.counts }

/-- Lines leave a set in least-recently-used order until the others fit (R213); a dirty one waits in the eviction
buffer until it is in DRAM. -/
def Stack.fit (limit set : Nat) : Nat → Stack → Stack
  | 0, d => d
  | k + 1, d =>
    let mine := d.msc.filter (fun e => mscSetOf e.line = set)
    if mine.length ≤ 32 ∧ (mine.map (·.sectors)).sum ≤ limit then d
    else match mine.getLast? with
      | none => d
      | some e => Stack.fit limit set k
          { d with msc := d.msc.filter (fun x => x.line ≠ e.line),
                   buffer := if e.dirty then d.buffer ++ [e.line] else d.buffer }

/-- A line is read or written in the cache (R212, R213): it is filled if it is not there, becomes the most recently
used of its set, and others make room: at most three where it has only grown. -/
def Stack.touch (clk limit line : Nat) (dirty : Bool) (bs : List Byte) (d : Stack) : Stack :=
  let old := d.msc.find? (fun e => e.line = line)
  let d := if old.isSome ∨ d.buffer.contains line then d else d.access clk line
  let e : MscLine := { line := line, dirty := dirty || old.any (·.dirty) || d.buffer.contains line,
                       sectors := sectorsOf bs }
  Stack.fit limit (mscSetOf line) (if old.isSome then 3 else 4)
    { d with msc := e :: d.msc.filter (fun x => x.line ≠ line), buffer := d.buffer.filter (fun l => l ≠ line) }

/-- A dirty line is written to DRAM and kept (R212). -/
def Stack.clean (clk line : Nat) (d : Stack) : Stack :=
  if d.msc.any (fun e => e.line = line && e.dirty) then
    Stack.access clk line
      { d with msc := d.msc.map (fun e => if e.line = line then { e with dirty := false } else e) }
  else d

/-- The first line of the eviction buffer reaches DRAM (R213). -/
def Stack.drain (clk : Nat) (d : Stack) : Stack :=
  match d.buffer with
  | [] => d
  | l :: r => Stack.access clk l { d with buffer := r }

end Sys2Proof.Machine
end

