-- ==== Sys2Proof/Machine/Memory.lean ====
section
/-! DEFINITION. Memory: the physical map (R23, R24), vaults and their banks (R182 to R186, R282), lines
and their times (R188 to R191), the directory (R197, R198), hypothesis versions (R216), committing a
write (R190, R220, R259), and forwarding of a hart's own stores (R185, R191). -/

namespace Sys2Proof.Machine

/-! ### The physical map -/

/-- What a physical address names (R23, R24). -/
inductive Loc where
  | hbm | lpddr
  | cxl (p : Nat)
  | vault (chip q : Nat)
  | host (p : Nat)
  | config (off : Nat)
  | remote (link : Nat)
  | dead
  | refused
  deriving DecidableEq, Repr

/-- Bytes of a GiB. -/
def gib : Nat := 2 ^ 30

/-- The location part of a physical address (R23). -/
def locOf (pa : Nat) : Nat := pa % 2 ^ 46

/-- The number of a 128-byte line. -/
def lineOf (pa : Nat) : Nat := locOf pa / 128

/-- A bit of the configuration record in force (R365). -/
def Hub.recBit (h : Hub) (i : Nat) : Bool := (h.record.getD (i / 8) 0#8).getLsbD (i % 8)

/-- Positions built on a chiplet (R25). -/
def builtOn (chip : Nat) : Nat := if chip < 8 then 52 else 68

/-- A position is enabled by the record in force (R365). -/
def Hub.enabled (h : Hub) (chip q : Nat) : Bool :=
  if chip < 8 then q < 52 && h.recBit (384 + 64 * chip + q)
  else chip < 12 && q < 68 && h.recBit (896 + 128 * (chip - 8) + q)

/-- The flight that a position stands in (R26, R365). -/
def Hub.flightOf (h : Hub) (chip q : Nat) : Nat :=
  if chip < 8 then (if q < 17 then 0 else if q < 34 then 1 else 2)
  else
    let l := q / 17
    let i := q % 17
    let b := 896 + 128 * (chip - 8) + 68 + 2 * l
    4 * l + (if i < 16 then i / 4 else (h.recBit b).toNat + 2 * (h.recBit (b + 1)).toNat)

/-- The enabled positions of a flight in chain order (R26, R431). -/
def Hub.chain (h : Hub) (chip flight : Nat) : List Nat :=
  (List.range (builtOn chip)).filter (fun q => h.enabled chip q && h.flightOf chip q = flight)

/-- `CHST.STATE` of a chiplet (R360). -/
def Hub.chipState (h : Hub) (chip : Nat) : Nat := if g : chip < 15 then wbits 2 0 (h.mon.chst[chip]'g) else 0

/-- Bytes of a vault (R25). -/
def vaultSize (chip : Nat) : Nat := if chip < 8 then 2 ^ 23 else 2 ^ 22

/-- The aperture address of a vault (R24). -/
def apertureBase (chip q : Nat) : Nat := 0x100000000000 + chip * 2 ^ 32 + q * vaultSize chip

/-- The link that reaches package `n` (R24). -/
def Hub.linkTo (h : Hub) (n : Nat) : Option (Fin 8) :=
  (List.finRange 8).find? (fun k =>
    let l := h.links[k]
    h.mon.trlen.getLsbD k.val && l.trained && !l.dead && l.far = n)

/-- The populated LPDDR-6 in bytes, at most 4,096 GiB (R1, R24, R37). -/
def lpBytes : Nat := Nat.min Config.lpddrGiB 4096 * gib

/-- The CXL tier-2 port that maps a location (R24). -/
def Hub.cxlPort (h : Hub) (off : Nat) : Option Nat :=
  (List.finRange 4).findSome? (fun p =>
    let b := (h.mon.t2base[p]).toNat
    let n := (h.mon.t2size[p]).toNat
    if b ≤ off ∧ off < b + n then some p.val else none)

/-- A location in the configuration space of a package (R342). -/
def configOff (off : Nat) : Bool := 0x3fff00000000 ≤ off && off < 0x3fff00200000

/-- What a location within this package names (R24). -/
def Hub.localLoc (h : Hub) (off : Nat) : Loc :=
  if off < 0x18000000000 then
    if off % 2 ^ 37 < wbits 7 0 h.mon.hbmcap * gib then .hbm else .refused
  else if off < 0x20000000000 then .refused
  else if off < 0x80000000000 then
    if off - 0x20000000000 < lpBytes then .lpddr
    else match h.cxlPort off with
      | some p => .cxl p
      | none => .refused
  else if off < 0x100000000000 then .refused
  else if off < 0x100f00000000 then
    let c := (off - 0x100000000000) / 2 ^ 32
    let q := off % 2 ^ 32 / vaultSize c
    let st := h.chipState c
    if c < 12 ∧ h.enabled c q ∧ 1 ≤ st ∧ st ≤ 3 then .vault c q else .refused
  else if off < 0x200000000000 then .refused
  else if off < 0x300000000000 then .host ((off - 0x200000000000) / 2 ^ 43)
  else if configOff off then .config (off - 0x3fff00000000)
  else .refused

/-- What a physical address names (R23, R24); the configuration space of another package is refused (R342). -/
def Hub.loc (h : Hub) (pa : Nat) : Loc :=
  let n := pa / 2 ^ 46 % 64
  if n = h.mon.pknum.toNat % 64 then h.localLoc (locOf pa)
  else if h.mon.pkdom.getLsbD n then
    match h.linkTo n with
    | some k => if configOff (locOf pa) then .refused else .remote k.val
    | none => .dead
  else .refused

/-- A location whose home is in this package and whose bytes the hub holds. -/
def Loc.here : Loc → Bool
  | .hbm | .lpddr | .cxl _ | .vault .. => true
  | _ => false

/-- A location that the hub of this package orders: a home here, or a register of its configuration space (R342). -/
def Loc.homed : Loc → Bool
  | .config _ => true
  | l => l.here

/-- A location outside the package (R24). -/
def Loc.outside : Loc → Option Far
  | .remote k => some (.link k)
  | .host p => some (.host p)
  | _ => none

/-- Local memory that lease caches may hold (R186, R203, R342). -/
def Loc.leasable : Loc → Bool
  | .hbm | .lpddr | .cxl _ => true
  | _ => false

/-- Memory that a MOESI peer may hold: local memory, and host memory behind a port in CXL mode (R39, R196). -/
def Loc.cacheable : Loc → Bool
  | .hbm | .lpddr | .cxl _ => true
  | .host p => Config.hostCxl p
  | _ => false

/-- Host memory (R24). -/
def Loc.isHost : Loc → Bool
  | .host _ => true
  | _ => false

/-- The failure bits of R205 (bit 0 DEAD, 1 REFUSED, 2 POISON) that an access to a location meets. -/
def Loc.failure : Loc → Nat
  | .dead => 1
  | .refused => 2
  | _ => 0

/-! ### Vaults -/

/-- Whether an address lies in the vault window (R182). -/
def inVault (va : Nat) : Bool := 0x1ffffff00000000 ≤ va && va < 2 ^ 57

/-- The key of a bank of a physical vault. -/
def bankKey (p : Place) (b : Nat) : Nat := (p.chip * 128 + p.pos) * 32 + b

/-- Bytes of a bank (R184). -/
def bankSize (chip : Nat) : Nat := vaultSize chip / 32

/-- A bank is held: neither released nor draining (R282). -/
def Hub.bankHeld (h : Hub) (k : Nat) : Bool := NMap.get 0 k h.banks = 0

/-- The tread of a hart's gang with this position and rank (R182, R246). -/
def State.gangTread (gpos rnk : Nat) (s : State) : Option Hart :=
  match s.me.id with
  | .core _ => none
  | .tread l w _ => s.hart? (.tread l (w - wbits 2 0 s.me.spr.gang + gpos) rnk)

/-- The position and rank pass R183. -/
def Hart.selectorOk (h : Hart) (gpos rnk : Nat) : Bool :=
  gpos < wbits 11 8 h.spr.gang && rnk < h.spr.flw.toNat % 32

/-- How far a tread of the gang lies: 0 itself, 1 its flight, 2 its gang. -/
def Hart.distTo (h t : Hart) : Nat := if t.id = h.id then 0 else if t.sameFlight h then 1 else 2

/-- The tread that a vault-window address names, and how far it lies; `none` where R183 forbids the
address on its own fields. -/
def State.vaultTarget (va : Nat) (s : State) : Option (Hart × Nat) :=
  let h := s.me
  if h.isCore then none
  else if va / 2 ^ 23 % 2 = 1 then none
  else if va / 2 ^ 31 % 2 = 0 then
    if va / 2 ^ 24 % 2 ^ 7 = 0 then some (h, 0) else none
  else
    let gpos := va / 2 ^ 28 % 8
    let rnk := va / 2 ^ 24 % 16
    if h.selectorOk gpos rnk then (s.gangTread gpos rnk).map (fun t => (t, h.distTo t)) else none

/-- The banks that `len` bytes at an offset touch. -/
def banksOf (chip off len : Nat) : List Nat :=
  if len = 0 then []
  else (List.range 32).filter (fun b =>
    off / bankSize chip ≤ b && b ≤ (off + len - 1) / bankSize chip)

/-- The aperture address and the distance of `len` bytes in the vault window; `none` where the vault
access fault is raised (R183, R282). -/
def State.vaultMap (va len : Nat) (s : State) : Option (Nat × Nat) :=
  match s.vaultTarget va with
  | none => none
  | some (t, d) =>
    let off := va % 2 ^ 23
    let p := t.place
    if vaultSize p.chip < off + len then none
    else if (banksOf p.chip off len).all (fun b => s.hub.bankHeld (bankKey p b)) then
      some (apertureBase p.chip p.pos + off, d)
    else none

/-! ### Lines, the directory and versions -/

/-- The peers that a directory entry covers (R197, R198). -/
def covered (d : BitVec 32) : List Nat :=
  if d.getLsbD 31 then (List.range 34).filter (fun p => d.getLsbD (p / 4))
  else (List.range (bitsOf 29 27 d.toNat)).map (fun j => bitsOf (6 * j + 5) (6 * j) d.toNat)

/-- A directory entry in pointer form. -/
def pointers (own : Bool) (ps : List Nat) : BitVec 32 :=
  BitVec.ofNat 32 (own.toNat * 2 ^ 30 + ps.length * 2 ^ 27
    + (ps.mapIdx (fun j p => p % 64 * 2 ^ (6 * j))).sum)

/-- A directory entry in coarse form. -/
def coarse (ps : List Nat) : BitVec 32 :=
  BitVec.ofNat 32 (2 ^ 31 + (((List.range 9).filter (fun k => ps.any (fun p => p / 4 = k))).map
    (fun k => 2 ^ k)).sum)

/-- The entry after peer `p` has filled the line (R198). -/
def dirFill (p : Nat) (own : Bool) (d : BitVec 32) : BitVec 32 :=
  let ps := covered d
  if d.getLsbD 31 then coarse (p :: ps)
  else if own then pointers true [p]
  else if ps.contains p then d
  else if ps.length < 4 then pointers (d.getLsbD 30) (ps ++ [p])
  else coarse (p :: ps)

/-- The entry after peer `p` has dropped the line (R200): a coarse vector is unchanged. -/
def dirDrop (p : Nat) (d : BitVec 32) : BitVec 32 :=
  if d.getLsbD 31 then d
  else
    let ps := covered d
    pointers (d.getLsbD 30 && ps.head? ≠ some p) (ps.filter (fun q => q ≠ p))

/-- The peer that holds a line in M or O, and so its latest bytes (R196). -/
def Hub.owner (h : Hub) (l : Nat) : Option PeerLine :=
  h.peers.find? (fun p => p.line = l && (p.st = .M || p.st = .O))

/-- The latest aperture write to a byte that its home has stamped and not yet delivered (R186). -/
def Hub.undelivered (h : Hub) (a : Nat) : Option Byte :=
  (h.deliveries.filterMap (fun d =>
    (d.cells.find? (fun (e : Nat × Byte) => e.1 = a)).map (·.2))).getLast?

/-- The committed byte at a location (R191). -/
def Hub.peek (h : Hub) (a : Nat) : Byte :=
  match h.owner (a / 128) with
  | some p => p.bytes.getD (a % 128) 0#8
  | none => (h.undelivered a).getD (NMap.get 0#8 a h.mem)

/-- One bit of CRC-32C (R395): the Castagnoli polynomial, reflected. -/
def crcBit (c : BitVec 32) : BitVec 32 := if c.getLsbD 0 then (c >>> 1) ^^^ 0x82f63b78#32 else c >>> 1

/-- CRC-32C of bytes in address order (R395). -/
def crc32c (bs : List Byte) : BitVec 32 :=
  ~~~ bs.foldl (fun c b => Nat.iterate crcBit 8 (c ^^^ b.setWidth 32)) 0xffffffff#32

/-- The check value stored beside a line (R212, R395): that of its bytes, but for the difference that State keeps.
(DESIGN CHOICE: log entry 102.) -/
def Hub.lineCheck (h : Hub) (line : Nat) : BitVec 32 :=
  crc32c (bytesAt h.mem (128 * line) 128) ^^^ (h.lineMeta line).syn

/-- The stored check value of a line fits its bytes (R395). -/
def Hub.checkFits (h : Hub) (line : Nat) : Bool := (h.lineMeta line).syn = 0

/-- The version of a line under a node (R216). -/
def Hub.version (h : Hub) (part node line : Nat) : Option Version :=
  h.versions.find? (fun v => v.part = part && v.node = node && v.line = line)

/-- The byte at a location that a node sees (R216): the deepest node on the path that has written it,
otherwise the committed byte. -/
def Hub.visByte (h : Hub) (part node a : Nat) : Byte :=
  let nodes := (h.path part node).filter (fun n => n ≠ 0)
  match nodes.findSome? (fun n =>
    (h.version part n (a / 128)).bind (fun v => NMap.get none (a % 128) v.bytes)) with
  | some b => b
  | none => h.peek a

/-- The `n` bytes at a location that a node sees. -/
def Hub.visBytes (h : Hub) (part node a n : Nat) : List Byte :=
  (List.range n).map (fun k => h.visByte part node (a + k))

/-- The times of a line under a node: its last write and its longest lease (R188, R216). Where the node has no
version, those of the committed line stand for it (R255). -/
def Hub.times (h : Hub) (part node line : Nat) : Nat × Nat :=
  let m := ((h.lineMeta line).wts, (h.lineMeta line).rts)
  if node = 0 then m
  else match h.version part node line with
    | some v => (v.wts, v.rts)
    | none => m

/-- The node whose state gives a byte at a location (R216): 0 is the committed line. -/
def Hub.source (h : Hub) (part node a : Nat) : Nat :=
  (((h.path part node).filter (fun n => n ≠ 0)).find? (fun n =>
    ((h.version part n (a / 128)).bind (fun v => NMap.get none (a % 128) v.bytes)).isSome)).getD 0

/-- The nodes whose states give `n` bytes at a location (R216). -/
def Hub.sources (h : Hub) (part node a n : Nat) : List Nat :=
  if node = 0 then [0] else ((List.range n).map (fun k => h.source part node (a + k))).eraseDups

/-- The greatest write time of the states that give `n` bytes at a location (R191, R216). -/
def Hub.seenAt (h : Hub) (part node a n : Nat) : Nat :=
  (h.sources part node a n).foldl (fun t x => Nat.max t (h.times part x (a / 128)).1) 0

/-- The write time of the copy of a line that a node sees. -/
def Hub.seenWts (h : Hub) (part node line : Nat) : Nat := h.seenAt part node (line * 128) 128

/-- The nodes of a path, the root apart, that hold a version of a line. -/
def Hub.written (h : Hub) (part node line : Nat) : List Nat :=
  (h.path part node).filter (fun n => n ≠ 0 && (h.version part n line).isSome)

/-- The states that a read of a byte protects (R255): the version on the path that gave it, and the deeper ones on the
path, whose writers could still hide it; the committed line where no version on the path has written the byte.
(DEDUCED: log entry 97.) -/
def Hub.readsAt (h : Hub) (part node a : Nat) : List Nat :=
  let ns := h.written part node (a / 128)
  match h.source part node a with
  | 0 => ns ++ [0]
  | n => ns.takeWhile (fun x => x ≠ n) ++ [n]

/-- The states that a read of `n` bytes at a location protects (R255). -/
def Hub.reads (h : Hub) (part node a n : Nat) : List Nat :=
  if node = 0 then [0] else ((List.range n).flatMap (fun k => h.readsAt part node (a + k))).eraseDups

/-- A read of `n` bytes at a location at the home protects what it reads (R191, R255): the lease of each of its states
ends at `t` or later. -/
def Hub.protect (part node a n t : Nat) (h : Hub) : Hub :=
  let ns := h.reads part node a n
  let h : Hub := if ns.contains 0 then h.setLine (a / 128) (fun m => { m with rts := Nat.max m.rts t }) else h
  { h with versions := h.versions.map (fun v =>
    if v.part = part ∧ v.line = a / 128 ∧ ns.contains v.node then { v with rts := Nat.max v.rts t } else v) }

/-- The end of the lease that a copy of a line carries (R191): the first to end of those of the states that gave a byte
of it. (DEDUCED: log entry 97.) -/
def Hub.leaseEnd (h : Hub) (part node line : Nat) : Nat :=
  let ns := h.sources part node (line * 128) 128
  let ts := ns.map (fun n => (h.times part n line).2)
  ts.foldl Nat.min (ts.headD 0)

/-- What the answers to the invalidations of a line add to a stamp: LT + 1 of each peer (R190, R198). -/
def Hub.ackTime (h : Hub) (line : Nat) : Nat :=
  (h.invs.filter (fun i => i.line = line && !i.isRecall && i.tick.isNone)).foldl
    (fun t i => Nat.max t (i.lt + 1)) 0

/-- The time that a write takes at its home (R190). -/
def Hub.stampTime (h : Hub) (part node line floor : Nat) : Nat :=
  Nat.max floor (Nat.max ((h.times part node line).1 + 1)
    (Nat.max ((h.times part node line).2 + 1) (h.ackTime line)))

/-- The word of a watch entry as its node sees it (R220). -/
def Hub.watchWord (h : Hub) (w : Watch) : Word :=
  BitVec.ofNat 64 (leBytes (h.visBytes w.part w.node (locOf w.pa) (if w.d64 then 8 else 4)))

/-- The condition of a watch entry (R235). -/
def Hub.watchHolds (h : Hub) (w : Watch) : Bool :=
  w.cmp.holds (h.watchWord w &&& w.mask) (w.val &&& w.mask)

/-- A write of `node` is admitted to a watch entry (R220). -/
def Hub.admits (h : Hub) (part node line : Nat) (w : Watch) : Bool :=
  lineOf w.pa = line && (node = 0 || (w.part = part && (h.path part w.node).contains node))

/-- Tests the watch entries of a line against a write stamped `t` (R235). -/
def Hub.testWatches (part node line t : Nat) (h : Hub) : Hub :=
  { h with watches := h.watches.map (fun w =>
    if w.hit.isNone && h.admits part node line w && h.watchHolds w then { w with hit := some t }
    else w) }

/-- A stamp has been given: the base time follows it (R189). -/
def Hub.raise (t : Nat) (h : Hub) : Hub :=
  { h with stamp := Nat.max h.stamp t, base := Nat.max h.base (t - 32) }

/-- The hub events that committed bytes of a line raise (R259, R267, R270): doorbells, and writes to a signal on a wait
list. -/
def Hub.ringBells (line : Nat) (bs : List (Nat × Byte)) (h : Hub) : Hub :=
  let hits (pa : Nat) : Bool :=
    lineOf pa = line && bs.any (fun e => decide (pa % 128 ≤ e.1) && decide (e.1 < pa % 128 + 8))
  { h with queues := h.queues.map (fun q =>
    let q := if q.state ≠ 0 ∧ q.wline = line ∧ !bs.isEmpty then q.enter .bell else q
    if q.deps.any hits then q.enter .poke else q) }

/-- The stack whose memory-side cache holds a line of the home memory (R36, R37). -/
def Hub.stackOf (h : Hub) (line : Nat) : Option (Fin 12) :=
  match h.localLoc (line * 128) with
  | .hbm => if g : line * 128 / 2 ^ 37 < 12 then some ⟨line * 128 / 2 ^ 37, g⟩ else none
  | .lpddr | .cxl _ => some ⟨Config.tier2Stack line % 12, Nat.mod_lt _ (by decide)⟩
  | _ => none

/-- Changes the base die of a line. -/
def Hub.onStack (line : Nat) (f : Stack → Stack) (h : Hub) : Hub :=
  match h.stackOf line with
  | some k => { h with dram := h.dram.set k.val (f h.dram[k]) k.isLt }
  | none => h

/-- A line of the home memory passes through the memory-side cache of its stack (R212, R213). -/
def Hub.mscTouch (line : Nat) (dirty : Bool) (h : Hub) : Hub :=
  h.onStack line (Stack.touch h.clk (setSectors (wbits 6 0 h.mon.ctxres)) line dirty (bytesAt h.mem (line * 128) 128))

/-- A written line is dirty in the memory-side cache (R212, R213). -/
def Hub.mscWrite (line : Nat) (h : Hub) : Hub := h.mscTouch line true

/-- The home reads a line (R35, R212): from the memory-side cache, or from DRAM with a fill; its check value is
tested (R395, R396). -/
def Hub.readLine (line : Nat) (h : Hub) : Hub := (h.mscTouch line false).setLine line LineMeta.verify

/-- A read of `n` bytes at a location of the home memory at time `t` (R191, R212, R255). -/
def Hub.readAt (part node a n t : Nat) (h : Hub) : Hub := (h.readLine (a / 128)).protect part node a n t

/-- The base die writes a dirty line to DRAM, or to tier-2 memory, and keeps it (R212, R238). -/
def Hub.mscClean (line : Nat) (h : Hub) : Hub := h.onStack line (Stack.clean h.clk line)

/-- Whether a line lies in a vault aperture (R186). -/
def Hub.vaultLine (h : Hub) (line : Nat) : Bool :=
  match h.localLoc (line * 128) with
  | .vault .. => true
  | _ => false

/-- The bytes of a line write as deliveries to a bank, one for each aligned unit (R185, R186). -/
def deliveriesOf (who : HartId) (tick : Nat) (cells : List (Nat × Byte)) : List Delivery :=
  ((cells.map (fun (e : Nat × Byte) => e.1 / 4)).eraseDups).map (fun u =>
    { by_ := who, cells := cells.filter (fun (e : Nat × Byte) => e.1 / 4 = u), tick := tick })

/-- Commits bytes, given by offset in the line, to a line under a node at time `t` (R190, R216): the
memory copy or the version takes them, with a new check value (R395), an aperture's bank receives them later (R186), the
times follow, the directory entry is empty, watches are tested unless the write is `quiet` (R232), and
doorbells ring. A whole line clears poison (R396). -/
def Hub.commit (who : HartId) (tick : Nat) (part node line : Nat) (bs : List (Nat × Byte)) (t : Nat)
    (quiet : Bool) (h : Hub) : Hub :=
  let whole : Bool := (List.range 128).all (fun k => bs.any (fun e => e.1 = k))
  let h : Hub :=
    if node = 0 then
      let cells : List (Nat × Byte) := bs.map (fun (e : Nat × Byte) => (line * 128 + e.1, e.2))
      let h : Hub :=
        if h.vaultLine line then { h with deliveries := h.deliveries ++ deliveriesOf who tick cells }
        else { h with mem := NMap.putAll 0#8 cells h.mem }
      let h := h.setLine line (fun m =>
        { m.rewrite whole with wts := t, rts := t, dir := 0, tenure := none })
      let h : Hub := { h with invs := h.invs.filter (fun i => i.line ≠ line) }
      (h.mscWrite line).ringBells line bs
    else
      let old := (h.version part node line).getD
        { part := part, node := node, line := line, wts := 0, rts := 0, bytes := [], poison := false }
      let new := { old with wts := t, rts := t, poison := old.poison && !whole,
                            bytes := NMap.putAll none (bs.map (fun e => (e.1, some e.2))) old.bytes }
      let h := h.setLine line (fun m => { m with dir := 0 })
      { h with
        invs := h.invs.filter (fun i => i.line ≠ line),
        versions := new :: h.versions.filter (fun v =>
          !(v.part = part && v.node = node && v.line = line)) }
  let h := h.raise t
  if quiet then h else h.testWatches part node line t

/-- Whether the store and the quota of a partition have room for `n` versions (R221, R345) besides the `all` in use,
of which `mine` are the partition's. -/
def Hub.versionRoom (h : Hub) (part all mine n : Nat) : Bool :=
  all + n ≤ 1048576 && mine + n ≤ wbits 20 0 (h.part part).pquota

/-- Entries that a partition may still arm in the watch table (R67, R345). -/
def Hub.watchFree (h : Hub) (part : Nat) : Bool :=
  h.watches.length < 65536
    && (h.watches.filter (fun w => w.part = part)).length < wbits 47 32 (h.part part).pquota

/-! ### A hart's own stores and its lease cache -/

/-- A line lies in a region that is non-coherent for some Vat chiplet (R210, R215). -/
def Hub.ncRegion (hb : Hub) (pa : Nat) : Bool := hb.regions.any (fun r => r.2 = pa / 2 ^ 21)

/-- A region of 2 MiB is non-coherent for the chiplet of a hart (R210, R211). -/
def Hub.nonCoherent (hb : Hub) (h : Hart) (pa : Nat) : Bool :=
  !h.isCore && 8 ≤ h.place.chip && hb.regions.contains (h.place.chip - 8, pa / 2 ^ 21)

/-- The line of a hart's lease cache filled under a node (R217). -/
def Hart.leaseLine (h : Hart) (part node line : Nat) : Option LeaseLine :=
  h.lsu.lease.find? (fun l => l.line = line && l.node = node && l.part = part)

/-- Overwrites bytes of a line image. -/
def patch (bs : List (Nat × Byte)) (img : List Byte) : List Byte :=
  bs.foldl (fun (m : List Byte) (e : Nat × Byte) => m.set e.1 e.2) img

/-- The hart's own cached copies after its write to a line was stamped (R190, R234): the copy under the
node takes the bytes and the time, but for bytes that are dirty and so newer; copies under other nodes are dropped. -/
def Hart.leaseWrite (part node line : Nat) (bs : List (Nat × Byte)) (t : Nat) (h : Hart) : Hart :=
  let upd (l : LeaseLine) : Option LeaseLine :=
    if l.line = line ∧ l.part = part then
      if l.node = node then
        some { l with bytes := patch (bs.filter (fun e => !l.dirty.contains e.1)) l.bytes, wts := t, rts := t }
      else if l.nc then some l else none
    else some l
  { h with lsu := { h.lsu with lease := h.lsu.lease.filterMap upd } }

/-- The hart's youngest own unstamped store to a byte under a node, issued before `lim` (R191). -/
def Hart.ownAt (h : Hart) (node lim pa : Nat) : Option Byte :=
  let hits := h.lsu.writes.filterMap (fun w =>
    if w.seq < lim ∧ w.hyp = node ∧ w.pa ≤ pa then
      match w.kind with
      | .store bs => ((bs.filter (fun (e : Nat × Byte) => w.pa + e.1 = pa)).getLast?).map (fun e => e.2)
      | _ => none
    else none)
  hits.getLast?

/-- A version of a node gives a byte (R216). -/
def Hub.gives (h : Hub) (part node a : Nat) : Bool :=
  node ≠ 0 && ((h.version part node (a / 128)).bind (fun v => NMap.get none (a % 128) v.bytes)).isSome

/-- The hart's own unstamped store that gives a byte to a load, issued before `lim` (R191, R216): that of the deepest
node on the path that has written the byte, if that is no version. -/
def Hart.ownByte (h : Hart) (hb : Hub) (part : Nat) (path : List Nat) (lim pa : Nat) : Option Byte :=
  (path.findSome? (fun n =>
    match h.ownAt n lim pa with
    | some b => some (some b)
    | none => if hb.gives part n (locOf pa) then some none else none)).join

/-- A byte of a vault as the hart's direct loads see it: its own earlier direct stores first (R185). -/
def Hart.vaultByte (h : Hart) (lim : Nat) (m : NMap Byte) (pa : Nat) : Byte :=
  let hits := h.lsu.vstores.filterMap (fun v =>
    if v.seq < lim ∧ v.pa ≤ pa ∧ pa < v.pa + v.bytes.length then v.bytes[pa - v.pa]? else none)
  hits.getLast?.getD (NMap.get 0#8 pa m)

/-- Splits a range at line boundaries: address and length of each part, ascending (R187). -/
def splitLines (va len : Nat) : List (Nat × Nat) :=
  if len = 0 then []
  else (List.range ((va % 128 + len + 127) / 128)).map (fun k =>
    let a := if k = 0 then va else (va / 128 + k) * 128
    let e := Nat.min (va + len) ((va / 128 + k + 1) * 128)
    (a, e - a))

end Sys2Proof.Machine
end

