-- ==== Sys2Proof/Machine/Translate.lean ====
section
/-! DEFINITION. Two-stage translation (R344, R347 to R353) and the pieces of an access (R181, R222,
R225). -/

namespace Sys2Proof.Machine

/-- What one stage of a walk ends in (R348, R349). -/
structure Leaf where
  base : Nat
  level : Nat
  r : Bool
  w : Bool
  x : Bool
  u : Bool
  device : Bool
  /-- member of a 64 KiB group (R351) -/
  c : Bool
  deriving DecidableEq, Repr

/-- The bits of a descriptor that must be 0 (R348): in a table pointer [63:56] and [11:2]; in a leaf
[63:56], [10], [7], [2] and the reserved memory types, C above level 0, and U at stage 2.
(DEDUCED: log entry 15.) -/
def descBad (stage level : Nat) (d : Word) : Bool :=
  wbits 63 56 d ≠ 0 ||
    (if d.getLsbD 1 then
      d.getLsbD 10 || d.getLsbD 9 || d.getLsbD 7 || d.getLsbD 2 || (d.getLsbD 11 && 0 < level)
        || (d.getLsbD 6 && stage = 2)
    else wbits 11 2 d ≠ 0)

/-- The index of an address at a level (R347). -/
def levelIndex (addr level : Nat) : Nat := addr / 2 ^ (12 + 9 * level) % 512

/-- One stage of a walk from a table downwards (R349); `rd` reads a descriptor at its level.
(DEDUCED: log entry 16.) -/
def walkFrom (rd : Nat → Nat → Except XFault Word) (stage addr : Nat) :
    List Nat → Nat → Except XFault Leaf
  | [], _ => .error { stage := stage, level := 0, kind := 2, ipa := addr }
  | level :: rest, table =>
    let fault (k : Nat) : XFault := { stage := stage, level := level, kind := k, ipa := addr }
    match rd level (table + 8 * levelIndex addr level) with
    | .error x => .error x
    | .ok d =>
      let oa := wbits 51 12 d * 4096
      if !d.getLsbD 0 then .error (fault 0)
      else if descBad stage level d then .error (fault 2)
      else if d.getLsbD 1 then
        if 2 < level ∨ oa % 2 ^ (12 + 9 * level) ≠ 0 then .error (fault 2)
        else .ok { base := oa, level := level, r := d.getLsbD 3, w := d.getLsbD 4,
                   x := d.getLsbD 5, u := d.getLsbD 6, device := wbits 9 8 d = 1, c := d.getLsbD 11 }
      else if level = 0 then .error (fault 2)
      else walkFrom rd stage addr rest oa

/-- The levels of a walk (R347). -/
def walkLevels : List Nat := [4, 3, 2, 1, 0]

/-- The address that a leaf gives (R347). -/
def Leaf.addr (l : Leaf) (a : Nat) : Nat := l.base + a % 2 ^ (12 + 9 * l.level)

/-- The leaf is a member of a 64 KiB group (R348, R351). -/
def Leaf.grouped (l : Leaf) : Bool := l.level = 0 && l.c

/-- The pages that a cache may hold in one entry for a leaf (R351). -/
def Leaf.pages (l : Leaf) : Nat := if l.grouped then 16 else 512 ^ l.level

/-- The address that a leaf gives where its whole group stands in one entry (R351). -/
def Leaf.groupAddr (l : Leaf) (a : Nat) : Nat :=
  if l.grouped then l.base / 65536 * 65536 + a % 65536 else l.addr a

/-- A poisoned line (R396): also one whose check value does not fit (R395). -/
def Hub.poisoned (h : Hub) (pa : Nat) : Bool := (h.lineMeta (lineOf pa)).verify.poison

/-- The failure bits that a read of a location meets (R205, R396). -/
def Hub.readFailure (h : Hub) (pa : Nat) : Nat :=
  match h.loc pa with
  | .dead => 1
  | .refused | .config _ => 2
  | l => if l.here && h.poisoned pa then 4 else 0

/-- The bytes that the hub reads at their home at the latest time under the root; bytes held outside
the package are free, but for those of host memory that a peer holds (R39). (DESIGN CHOICE: log entry 17.) -/
def Hub.hubBytes (h : Hub) (fr pa n : Nat) : List Byte :=
  if (h.loc pa).outside.isSome then (List.range n).map (fun k =>
    match if (h.loc pa).isHost then h.peers.find? (fun p => p.line = lineOf (pa + k)) else none with
    | some p => p.bytes.getD ((pa + k) % 128) 0#8
    | none => BitVec.ofNat 8 (freeAt fr (pa + k)))
  else (List.range n).map (fun k => h.peek (locOf pa + k))

/-- A descriptor at a physical address; a failed read gives KIND 4 (R349). -/
def Hub.descAt (h : Hub) (fr : Nat) (x : XFault) (pa : Nat) : Except XFault Word :=
  if h.readFailure pa ≠ 0 then .error { x with kind := 4 }
  else .ok (BitVec.ofNat 64 (leBytes (h.hubBytes fr pa 8)))

/-- Whether a page lies in a spill area (R388). -/
def Hub.inSpill (h : Hub) (pa : Nat) : Bool :=
  h.mon.ctxb.toList.any (fun c =>
    let b := wbits 51 28 c * 2 ^ 28
    b ≤ pa && pa < b + wbits 59 52 c * 2 ^ 28)

/-- Stage 2 (R347, R349). -/
def Hub.stage2 (h : Hub) (fr part ipa : Nat) : Except XFault Leaf :=
  let xl2 := (h.part part).xl2
  if !xl2.getLsbD 63 then .error { stage := 2, level := 4, kind := 0, ipa := ipa }
  else walkFrom (fun lvl pa => h.descAt fr { stage := 2, level := lvl, kind := 4, ipa := ipa } pa)
    2 ipa walkLevels (wbits 51 12 xl2 * 4096)

/-- The ranges of physical memory that the leaves below a table give: base and size (R347, R348). -/
def tableLeaves (rd : Nat → Nat → Except XFault Word) : List Nat → Nat → List (Nat × Nat)
  | [], _ => []
  | level :: rest, table =>
    (List.range 512).flatMap (fun k => match rd level (table + 8 * k) with
      | .error _ => []
      | .ok d =>
        let oa := wbits 51 12 d * 4096
        if !d.getLsbD 0 ∨ descBad 2 level d then []
        else if d.getLsbD 1 then
          if 2 < level ∨ oa % 2 ^ (12 + 9 * level) ≠ 0 then [] else [(oa, 2 ^ (12 + 9 * level))]
        else if level = 0 then []
        else tableLeaves rd rest oa)

/-- A range of pages is memory of a partition: its second stage gives every page of it (R211, R347).
(DEDUCED: log entry 79.) -/
def Hub.ofPart (h : Hub) (fr part base pages : Nat) : Bool :=
  let xl2 := (h.part part).xl2
  let ls := if xl2.getLsbD 63 then
      tableLeaves (fun lvl pa => h.descAt fr { stage := 2, level := lvl, kind := 4, ipa := 0 } pa)
        walkLevels (wbits 51 12 xl2 * 4096)
    else []
  (List.range pages).all (fun k => ls.any (fun l =>
    decide (l.1 ≤ base + 4096 * k) && decide (base + 4096 * k < l.1 + l.2)))

/-- A stage-1 descriptor: its address is translated by stage 2, which must grant R (R349). -/
def Hub.desc1 (h : Hub) (fr part lvl ipa : Nat) : Except XFault Word :=
  match h.stage2 fr part ipa with
  | .error x => .error x
  | .ok l =>
    if !l.r || h.inSpill (l.addr ipa) then
      .error { stage := 2, level := l.level, kind := 1, ipa := ipa }
    else h.descAt fr { stage := 1, level := lvl, kind := 4, ipa := 0 } (l.addr ipa)

/-- What an access needs of every stage: R, W, X (R350). -/
def Leaf.grants (l : Leaf) (a : Acc) : Bool :=
  match a with
  | .load | .engRead | .monWait => l.r
  | .store | .engWrite => l.w
  | .atomic => l.r && l.w
  | .fetch => l.x

/-- The stage-1 conditions at U and at S (R350). -/
def Leaf.levelOk (l : Leaf) (a : Acc) (lvl : Nat) : Bool :=
  if lvl = 0 then l.u else if lvl = 1 then !(a = .fetch && l.u) else true

/-- The leaf of a stage that does not translate: every address is its own. -/
def Leaf.all : Leaf :=
  { base := 0, level := 5, r := true, w := true, x := true, u := true, device := false, c := false }

/-- What a cache takes from a walk of an address (R351, R352): the page alone, or, `wide`, the widest range of pages
that one entry may hold. (DESIGN CHOICE: log entry 33.) -/
def cacheEntry (wide one mon : Bool) (part va : Nat) (l1 l2 : Leaf) : Xlat :=
  let span := if wide then Nat.min l1.pages l2.pages else 1
  let a := va / (4096 * span) * (4096 * span)
  let ipa := if wide then l1.groupAddr a else l1.addr a
  { part := part, mon := mon, vpn := a / 4096, span := span, ipn := ipa / 4096,
    ppn := (if wide then l2.groupAddr ipa else l2.addr ipa) / 4096, one := one,
    r := l1.r && l2.r, w := l1.w && l2.w, x := l1.x && l2.x, u := l1.u, device := l1.device || l2.device }

/-- A translation with its permission checks, stage 1 first (R347 to R350). -/
def Hub.resolve (h : Hub) (fr : Nat) (wide : Bool) (w : Want) : Except XFault Xlat :=
  if w.lvl = 2 then
    let xlm := h.mon.xlm
    match walkFrom (fun lvl pa => h.descAt fr { stage := 3, level := lvl, kind := 4, ipa := 0 } pa)
        3 w.va walkLevels (wbits 51 12 xlm * 4096) with
    | .error x => .error x
    | .ok l =>
      if l.grants w.acc then .ok (cacheEntry wide true true w.part w.va l .all)
      else .error { stage := 3, level := l.level, kind := 1, ipa := 0 }
  else
    let xl1 := (h.part w.part).xl1
    let first : Except XFault (Bool × Leaf × Nat) :=
      if xl1.getLsbD 63 then
        match walkFrom (fun lvl ipa => h.desc1 fr w.part lvl ipa) 1 w.va walkLevels
            (wbits 51 12 xl1 * 4096) with
        | .error x => .error x
        | .ok l =>
          if l.grants w.acc && l.levelOk w.acc w.lvl then .ok (true, l, l.addr w.va)
          else .error { stage := 1, level := l.level, kind := 1, ipa := 0 }
      else if w.va / 2 ^ 52 % 32 ≠ 0 then .error { stage := 1, level := 4, kind := 3, ipa := 0 }
      else .ok (false, .all, w.va)
    match first with
    | .error x => .error x
    | .ok (one, l1, ipa) =>
      match h.stage2 fr w.part ipa with
      | .error x => .error x
      | .ok l2 =>
        if l2.grants w.acc && !h.inSpill (l2.addr ipa) then
          .ok (cacheEntry wide one false w.part w.va l1 l2)
        else .error { stage := 2, level := l2.level, kind := 1, ipa := ipa }

/-- What a cached translation permits (R350, R352). -/
def Xlat.permits (x : Xlat) (a : Acc) (lvl : Nat) : Bool :=
  let l : Leaf :=
    { Leaf.all with r := x.r, w := x.w, x := x.x, u := x.u, device := x.device }
  l.grants a && (x.mon || !x.one || l.levelOk a lvl)

/-- The answer of the translation caches. -/
inductive XRes where
  | ok (pa : Nat) (device : Bool)
  | wait
  | fault (x : XFault)
  deriving DecidableEq, Repr

/-- A cached translation is one of an address (R352). -/
def Xlat.hits (x : Xlat) (part lvl va : Nat) : Bool :=
  decide (x.vpn ≤ va / 4096) && decide (va / 4096 < x.vpn + x.span) && x.mon = decide (lvl = 2)
    && (x.mon || x.part = part)

/-- The address that a cached translation gives. -/
def Xlat.addr (x : Xlat) (va : Nat) : Nat := (x.ppn + (va / 4096 - x.vpn)) * 4096 + va % 4096

/-- A cached translation that serves an access. -/
def cachedIn (c : List Xlat) (part : Nat) (acc : Acc) (lvl va : Nat) : Option Xlat :=
  c.find? (fun x => x.hits part lvl va && x.permits acc lvl)

/-- A cached translation of a hart that serves an access. -/
def Hart.cached (h : Hart) (part : Nat) (acc : Acc) (lvl va : Nat) : Option Xlat :=
  cachedIn h.lsu.tlb part acc lvl va

/-- The entries that are left where none serves an access: those that deny it are dropped (R352). -/
def dropDenying (part lvl va : Nat) (c : List Xlat) : List Xlat := c.filter (fun x => !x.hits part lvl va)

/-- Entries of a cache may be evicted at any time (R352): one, freely chosen, or none. -/
def evictFrom (fr : Nat) (c : List Xlat) : List Xlat := c.eraseIdx (Config.freeChoice fr % (c.length + 1))

/-- An access through a translation cache of the package (R352): 0 and 1 of the Arcade engines, 2 of the IOMMU. -/
def Hub.translate (h : Hub) (fr : Nat) (k : Fin 3) (w : Want) : Except XFault Xlat × Hub :=
  let c := evictFrom fr h.caches[k]
  match cachedIn c w.part w.acc w.lvl w.va with
  | some x => (.ok x, { h with caches := h.caches.set k c })
  | none =>
    let c := dropDenying w.part w.lvl w.va c
    match h.resolve fr (Config.freeBool fr) w with
    | .ok x => (.ok x, { h with caches := h.caches.set k (x :: c) })
    | .error x => (.error x, { h with caches := h.caches.set k c })

/-- Translation of an address by the acting hart (R344, R347, R352, R358): a fault that the walk of
this very access ended in stands until the bundle has taken it. -/
def State.xlate (acc : Acc) (lvl va : Nat) (s : State) : XRes :=
  let h := s.me
  if lvl = 2 ∧ !s.hub.mon.xlm.getLsbD 63 then
    if va / 2 ^ 52 ≠ 0 then .fault { stage := 3, level := 4, kind := 3, ipa := 0 } else .ok va false
  else
    match h.cached h.partNo acc lvl va with
    | some x => .ok (x.addr va) x.device
    | none =>
      match h.lsu.fault with
      | some (w, x) =>
        if w.va / 4096 = va / 4096 ∧ w.acc = acc ∧ w.lvl = lvl ∧ w.part = h.partNo then .fault x
        else .wait
      | none => .wait

/-- The pieces of an access, or what stops it. -/
inductive PRes where
  | ok (ps : List Piece)
  | wait (w : Want)
  | fault (x : XFault) (va : Nat)
  | vault (va : Nat)
  deriving DecidableEq, Repr

/-- One piece of an access, within a line (R181, R183, R225, R319). -/
def State.piece (acc : Acc) (lvl va len : Nat) (s : State) : PRes :=
  if inVault va then
    match s.vaultMap va len with
    | some (pa, d) => .ok [{ va := va, pa := pa, len := len, sp := .vault d }]
    | none => .vault va
  else if inQuire va then
    if acc = .load ∧ 1 ≤ lvl then
      .ok [{ va := va, pa := s.me.partNo * 2 ^ 24 + va % 2 ^ 24, len := len, sp := .quire }]
    else .fault { stage := if lvl = 2 then 3 else 1, level := 4, kind := 5, ipa := 0 } va
  else
    match s.xlate acc lvl va with
    | .ok pa dev => .ok [{ va := va, pa := pa, len := len, sp := .mem dev }]
    | .fault x => .fault x va
    | .wait => .wait { va := va, acc := acc, lvl := lvl, part := s.me.partNo, tick := 0 }

/-- The pieces of ranges of bytes, in order; the first that stops the access decides. -/
def State.pieces (acc : Acc) (lvl : Nat) (s : State) : List (Nat × Nat) → PRes
  | [] => .ok []
  | (va, len) :: rest =>
    match s.piece acc lvl (va % 2 ^ 57) len with
    | .ok p =>
      match s.pieces acc lvl rest with
      | .ok ps => .ok (p ++ ps)
      | r => r
    | r => r

/-- The acting hart freezes for a translation (R225, R352): a cached one that denies the access is dropped, and the walk
may end at a free tick. -/
def State.awaitXlat (w : Want) (s : State) : State :=
  let same : Bool := match s.me.lsu.want with
    | some v => v.va = w.va && v.acc = w.acc && v.lvl = w.lvl && v.part = w.part
    | none => false
  if same then s.modMe (fun h => h.setOut .frozen)
  else
    let (n, s) := s.fresh
    (s.modMe (fun h => { h with lsu := { h.lsu with tlb := dropDenying w.part w.lvl w.va h.lsu.tlb } })).freezeFor
      { w with tick := s.hub.clk + n }

end Sys2Proof.Machine
end

