-- ==== Sys2Proof/Machine/LoadStore.lean ====
section
/-! DEFINITION. The load-store slot (R222 to R238). A load leaves a result in flight whose value is
awaited; a store leaves a write on its way to its home, or a direct store on its way to its bank. -/

namespace Sys2Proof.Machine

/-! ### Common parts -/

/-- An LS operation: kernel checks (R69), guard (R82), occupancy (R223). -/
def lsSlot (i : Instr) (g : Guard) (k : Sem) : Sem :=
  kernelOk i (guarded g (waitsOn (fun s => s.me.ctl.lsLeft ≠ 0) k))

/-- The column of the latency table of R222: 0 own vault, 1 another tread's vault, 2 elsewhere. -/
def State.lsClass (va : Nat) (s : State) : Nat :=
  if inVault va then (match s.vaultTarget va with
    | some (_, 0) => 0
    | _ => 1)
  else 2

/-- Latency by class (R222). -/
def lsLat (own gang other cls : Nat) : Nat := if cls = 0 then own else if cls = 1 then gang else other

/-- Resolves the pieces of an access and goes on with them (R224, R225, R373): a translation is
awaited, its fault taken, then alignment and the vault are checked. (DEDUCED: log entry 10.) -/
def accessing (acc : Acc) (ranges : State → List (Nat × Nat)) (misaligned : State → Option Nat)
    (k : List Piece → Sem) : Sem := fun s =>
  match s.pieces acc s.me.level (ranges s) with
  | .wait w => .next (s.awaitXlat w)
  | .fault x va => s.xlatFault x acc va
  | .ok ps =>
    match misaligned s with
    | some va => s.misaligned va
    | none => k ps s
  | .vault va =>
    match misaligned s with
    | some a => s.misaligned a
    | none => s.vaultFault va

/-- An address that is not a multiple of `n` (R224). -/
def notAligned (n va : Nat) : Option Nat := if va % n = 0 then none else some va

/-- The LS slot is occupied for `n` cycles (R223). -/
def Hart.occupyLs (n : Nat) (h : Hart) : Hart := { h with ctl := { h.ctl with lsLeft := n } }

/-- Sends a request of a hart out of the package; its tag names the answer (R40, R203). What goes over a link waits
there until it is sent. -/
def State.sendFor (who : HartId) (cxl : Option (Nat × CxlReq)) (far : Far) (pa len : Nat) (write : Bool)
    (s : State) : Nat × State :=
  let t := s.free
  let links := match far with
    | .link k =>
      if g : k < 8 then
        let l := s.hub.links[k]'g
        s.hub.links.set k { l with queue := l.queue ++ [.request t] } g
      else s.hub.links
    | _ => s.hub.links
  (t, { s with
    free := t + 1,
    hub := { s.hub with links := links, exts := s.hub.exts ++
      [{ tag := t, far := far, hart := who, pa := pa, write := write, len := len, cxl := cxl }] } })

/-- The number of a core. -/
def Hart.coreNo (h : Hart) : Option Nat :=
  match h.id with
  | .core n => some n
  | .tread .. => none

/-- Sends a request of the acting hart out of the package: one of a core through a port in CXL mode that is not
cached is `RdCurr` or `ItoMWr` (R39). -/
def State.sendOut (far : Far) (pa len : Nat) (write : Bool) (s : State) : Nat × State :=
  let cxl := match far with
    | .host p => if Config.hostCxl p then s.me.coreNo.map (fun n => (n, if write then .itoMWr else .rdCurr)) else none
    | _ => none
  s.sendFor s.me.id cxl far pa len write

/-- The memory outside the package that an access of the acting hart goes to: a core reaches host memory through its
cache where it may (R39). -/
def State.abroad (hyp : Nat) (dev : Bool) (pa : Nat) (s : State) : Option Far :=
  let l := s.hub.loc pa
  if s.me.isCore ∧ hyp = 0 ∧ !dev ∧ l.cacheable then none else l.outside

/-- Sends out the pieces of a load that lie outside the package; `none` for the others. -/
def State.sendPieces : List Piece → State → List (Nat × Option (Nat × List Byte)) × State
  | [], s => ([], s)
  | p :: ps, s =>
    let far := match p.sp with
      | .mem dev => s.abroad s.me.spr.hyp.toNat dev p.pa
      | _ => none
    match far with
    | some f =>
      let (t, s) := s.sendOut f p.pa p.len false
      let (ts, s) := s.sendPieces ps
      ((t, none) :: ts, s)
    | none => s.sendPieces ps

/-- A load has been sent: its result in flight after `L` cycles and what it awaits (R222, R227). -/
def State.sendLoad (L kind reg occ : Nat) (dest : LoadDest) (ps : List Piece) (s : State) : State :=
  let (n, s) := s.fresh
  let (tags, s) := s.sendPieces ps
  let a : Ask := { seq := s.me.iss.seq, pieces := ps, dest := dest, part := s.me.partNo, hyp := s.me.spr.hyp.toNat,
                   lvl := s.me.level, tags := tags, tick := s.hub.clk + n }
  s.modMe (fun h =>
    let h := (h.push L kind reg none).occupyLs occ
    { h.setOut .ok with lsu := { h.lsu with asks := h.lsu.asks ++ [a] } })

/-- A tagged write that is not performed (R215). -/
def State.tagRefused (pa : Nat) (s : State) : Bool :=
  s.me.spr.hyp ≠ 0 && (match s.hub.loc pa with
    | .remote _ | .host _ | .cxl _ | .dead => true
    | _ => s.hub.ncRegion pa)

/-- The versions that tagged writes on their way will take (R221): partition, node, line. -/
def State.owed (s : State) : List (Nat × Nat × Nat) :=
  (s.harts.flatMap (fun h => h.lsu.writes.filterMap (fun w =>
    let v := (w.part, w.hyp, lineOf w.pa)
    if w.hyp ≠ 0 ∧ (s.hub.loc w.pa).here ∧ (s.hub.version v.1 v.2.1 v.2.2).isNone then some v else none))).eraseDups

/-- Whether `n` more versions may be taken for a partition, besides those that writes on their way will take
(R221, R345). (DESIGN CHOICE: log entry 35.) -/
def State.roomForVersions (part n : Nat) (s : State) : Bool :=
  let owed := s.owed
  s.hub.versionRoom part (s.hub.versions.length + owed.length)
    (s.hub.versions.countP (fun v => v.part = part) + owed.countP (fun v => v.1 = part)) n

/-- The lines for which tagged writes of pieces need a new version (R216), each with its first address. -/
def State.newVersions (ps : List Piece) (s : State) : List (Nat × Nat) :=
  let h := s.me
  let node := h.spr.hyp.toNat
  let owed := s.owed
  ps.foldl (fun l p => match p.sp with
    | .mem _ =>
      let line := lineOf p.pa
      if (s.hub.loc p.pa).here ∧ !s.tagRefused p.pa ∧ (s.hub.version h.partNo node line).isNone
        ∧ !owed.contains (h.partNo, node, line) ∧ !l.any (fun (e : Nat × Nat) => e.1 = line)
      then l ++ [(line, p.va)] else l
    | _ => l) []

/-- The tagged writes of pieces wait for a version (R221): the first line that finds none free.
(DESIGN CHOICE: log entry 35.) -/
def State.versionWanted (ps : List Piece) (s : State) : Option Nat :=
  if s.me.spr.hyp = 0 then none
  else (((s.newVersions ps).mapIdx (fun i (e : Nat × Nat) => (i + 1, e.2))).find? (fun (e : Nat × Nat) =>
    !s.roomForVersions s.me.partNo e.1)).map (·.2)

/-- Stalls for a version (R221). -/
def State.stallVersion (va : Nat) (s : State) : State :=
  (s.stall false).modMe (fun h => { h with lsu := { h.lsu with
    verWait := some ((h.lsu.verWait.getD (0, va)).1, va) } })

/-- A peer that holds a line exclusively. -/
def Hub.exclusive (hb : Hub) (line : Nat) : Option PeerLine :=
  hb.peers.find? (fun p => p.line = line && p.st ≠ .S)

/-- Recalls a line from its exclusive holder (R198, R199, R201): `none` when nobody holds it so. -/
def State.recallOf (line : Nat) (s : State) : Option State :=
  match s.hub.exclusive line with
  | none => none
  | some p =>
    if s.hub.invs.any (fun i => i.line = line && i.isRecall) then some s
    else some { s with
      free := s.free + 1,
      hub := { s.hub with invs := s.hub.invs ++
        [{ peer := p.peer, line := line, isRecall := true,
           tick := some (s.hub.clk + freeAt s.free p.peer), lt := 0 }] } }

/-- Dirty bytes of a cached line become a write-back, of which `clean` says that the base die then writes the line to
DRAM (R210, R238). -/
def Hart.backLine (clk : Nat) (clean : Bool) (l : LeaseLine) (h : Hart) : Hart :=
  if l.dirty.isEmpty then h
  else
    let w : Write :=
      { seq := h.iss.seq, pa := l.line * 128, va := l.line * 128,
        kind := .back (l.dirty.map (fun o => (o, l.bytes.getD o 0#8))), part := h.partNo, hyp := 0,
        lvl := h.level, wide := clean, dev := false, tag := none, tick := clk }
    { h with
      iss := { h.iss with seq := h.iss.seq + 1 },
      lsu := { h.lsu with writes := h.lsu.writes ++ [w] } }

/-- A lease cache holds 128 KiB, 1,024 lines (R25). -/
def leaseLines : Nat := 1024

/-- A lease cache that is too full gives up a line other than the newest, freely chosen (R25). Dirty bytes of it are
written back (R210). (DESIGN CHOICE: log entry 32.) -/
def State.leaseRoom (s : State) : State :=
  let ls := s.me.lsu.lease
  if ls.length ≤ leaseLines then s
  else match ls[1 + Config.freeChoice s.free % (ls.length - 1)]? with
    | some l => { s with free := s.free + 1 }.modMe (fun h =>
        let h := h.backLine s.hub.clk false l
        { h with lsu := { h.lsu with lease := h.lsu.lease.erase l } })
    | none => s

/-- The lease-cache line of an address is filled or renewed at the home for one logical time, of which `n` bytes are
read (R191, R210, R255). The copy carries the lease of the line, which an earlier grant to another tread may have
carried further. -/
def State.fillLine (part node t pa n : Nat) (s : State) : State :=
  let line := lineOf pa
  let hb := s.hub.readAt part node (locOf pa) n (t + wbits 7 0 (s.hub.part part).ordc)
  let l : LeaseLine :=
    { line := line, node := node, part := part,
      bytes := hb.visBytes part node (line * 128) 128, wts := hb.seenWts part node line,
      rts := hb.leaseEnd part node line, dirty := [], nc := hb.nonCoherent s.me pa }
  State.leaseRoom (State.modMe (fun h => { h with lsu := { h.lsu with
    lease := l :: h.lsu.lease.filter (fun x =>
      !(x.line = line && x.node = node && x.part = part)) } })
    { s with hub := hb })

/-- Bytes of a cached line of a non-coherent region are written, and marked dirty one by one (R210). -/
def Hart.ncStore (hb : Hub) (pa : Nat) (bs : List (Nat × Byte)) (h : Hart) : Hart :=
  let line := lineOf pa
  let off := pa % 128
  let bs := bs.map (fun e => (off + e.1, e.2))
  let old := (h.leaseLine h.partNo 0 line).getD
    { line := line, node := 0, part := h.partNo, bytes := hb.visBytes h.partNo 0 (line * 128) 128,
      wts := 0, rts := 0, dirty := [], nc := true }
  let new := { old with bytes := patch bs old.bytes, nc := true,
                        dirty := (old.dirty ++ bs.map (·.1)).eraseDups }
  { h with lsu := { h.lsu with
    lease := new :: h.lsu.lease.filter (fun l =>
      !(l.line = line && l.node = 0 && l.part = h.partNo)) } }

/-- A store to a non-coherent region goes to the lease cache (R210), which fills a line that it does not hold; the fill
reads it as a load does (R191). (DEDUCED: log entry 113.) -/
def State.ncWrite (pa : Nat) (bs : List (Nat × Byte)) (s : State) : State :=
  let part := s.me.partNo
  let seen := s.hub.seenWts part 0 (lineOf pa)
  let s := if (s.me.leaseLine part 0 (lineOf pa)).isSome then s
    else (s.fillLine part 0 (Nat.max s.me.spr.lt seen) pa 128).modMe (Hart.raiseLt seen)
  (s.modMe (Hart.ncStore s.hub pa bs)).leaseRoom

/-- A store to a non-coherent region that the lease cache does not hold yet, of which a peer holds the line
exclusively, waits for its recall (R199, R210). -/
def State.ncRecall (ps : List Piece) (s : State) : Option State :=
  ps.findSome? (fun p => match p.sp with
    | .mem false =>
      if s.hub.nonCoherent s.me p.pa ∧ !s.tagRefused p.pa ∧ (s.me.leaseLine s.me.partNo 0 (lineOf p.pa)).isNone
      then s.recallOf (lineOf p.pa) else none
    | _ => none)

/-- Queues a write for its home (R190), tagged with a node; `dev` tells a page of device type (R350). -/
def State.queueUnder (dev : Bool) (node va pa : Nat) (kind : WKind) (wide : Bool) (s : State) : State :=
  let (n, s) := s.fresh
  let later : Bool := match kind with
    | .signal .. => true
    | _ => false
  let (tag, s) := match later, s.abroad node dev pa with
    | false, some f =>
      let (t, s) := s.sendOut f pa 8 true
      (some t, s)
    | _, _ => (none, s)
  let w : Write := { seq := s.me.iss.seq, pa := pa, va := va, kind := kind, part := s.me.partNo,
                     hyp := node, lvl := s.me.level, wide := wide, dev := dev, tag := tag,
                     tick := s.hub.clk + n }
  s.modMe (fun h => { h with
    iss := { h.iss with seq := h.iss.seq + 1 },
    lsu := { h.lsu with writes := h.lsu.writes ++ [w] } })

/-- Queues a write for its home, tagged with `HYP` (R190, R215). -/
def State.queueWrite (dev : Bool) (va pa : Nat) (kind : WKind) (wide : Bool) (s : State) : State :=
  s.queueUnder dev s.me.spr.hyp.toNat va pa kind wide

/-- Sends a direct store, or a unit of one that covers a `whole` 128-byte unit, to its bank (R185). -/
def State.queueVault (whole : Bool) (pa dist : Nat) (bytes : List Byte) (s : State) : State :=
  let (n, s) := s.fresh
  let v : VStore := { seq := s.me.iss.seq, pa := pa, bytes := bytes, dist := dist,
                      tick := s.hub.clk + n, whole := whole }
  s.modMe (fun h => { h with
    iss := { h.iss with seq := h.iss.seq + 1 },
    lsu := { h.lsu with vstores := h.lsu.vstores ++ [v] } })

/-- Cuts bytes into the 4-byte units that a bank takes one by one (R185, R187). -/
def units4 (bs : List Byte) : List (Nat × List Byte) :=
  (List.range (bs.length / 4)).map (fun k => (4 * k, (bs.drop (4 * k)).take 4))

/-- A direct store: up to 8 bytes land as one, more land unit by unit (R185, R187). -/
def State.storeVault (pa dist : Nat) (bytes : List Byte) (s : State) : State :=
  if bytes.length ≤ 8 then s.queueVault false pa dist bytes
  else (units4 bytes).foldl (fun s e => s.queueVault (pa % 128 = 0 && bytes.length = 128) (pa + e.1) dist e.2) s

/-- A piece of an access lies in a page of device type (R350). -/
def Piece.device (p : Piece) : Bool := p.sp = .mem true

/-- A store to memory: where it goes, and its bytes by offset (R190, R210, R215, R350). -/
def State.storeMem (p : Piece) (bs : List (Nat × Byte)) (wide : Bool) (s : State) : State :=
  if s.tagRefused p.pa then s.modMe (Hart.setPending 1)
  else if s.hub.nonCoherent s.me p.pa && !p.device then s.ncWrite p.pa bs
  else s.queueWrite p.device p.va p.pa (.store bs) wide

/-- One piece of a store, by what it reaches. -/
def State.storePiece (p : Piece) (bytes : List Byte) (wide : Bool) (s : State) : State :=
  match p.sp with
  | .vault d => s.storeVault p.pa d bytes
  | _ => s.storeMem p (bytes.mapIdx (fun k b => (k, b))) wide

/-- Pieces with their bytes: neighbours that reach one line of memory become one write (R187). -/
def mergeLines : List (Piece × List (Nat × Byte)) → List (Piece × List (Nat × Byte))
  | [] => []
  | (p, bs) :: rest =>
    match mergeLines rest with
    | [] => [(p, bs)]
    | (q, cs) :: more =>
      let mem : Bool := match p.sp, q.sp with
        | .mem _, .mem _ => true
        | _, _ => false
      if mem ∧ p.sp = q.sp ∧ lineOf p.pa = lineOf q.pa ∧ p.pa / 128 = q.pa / 128 then
        let a := Nat.min p.pa q.pa
        ({ p with pa := a, va := Nat.min p.va q.va },
          bs.map (fun e => (e.1 + (p.pa - a), e.2)) ++ cs.map (fun e => (e.1 + (q.pa - a), e.2)))
          :: more
      else (p, bs) :: (q, cs) :: more

/-- Stores pieces with their bytes, the lines in ascending order of address (R187); the slot is occupied for `occ`
cycles. A tagged store that finds no version free stalls (R221). -/
def State.sendStores (occ : Nat) (wide merge : Bool) (ps : List (Piece × List Byte)) (s : State) :
    State :=
  match s.versionWanted (ps.map (·.1)) with
  | some va => s.stallVersion va
  | none =>
  match s.ncRecall (ps.map (·.1)) with
  | some s => s.stall false
  | none =>
    let ps := sortBy (fun a b => a.1.va ≤ b.1.va) ps
    let vs := ps.filter (fun e => match e.1.sp with | .vault _ => true | _ => false)
    let ms := (ps.filter (fun e => match e.1.sp with | .vault _ => false | _ => true)).map
      (fun e => (e.1, e.2.mapIdx (fun k b => (k, b))))
    let s := vs.foldl (fun s e => s.storePiece e.1 e.2 wide) s
    let s := (if merge then mergeLines ms else ms).foldl (fun s e => s.storeMem e.1 e.2 wide) s
    s.modMe (fun h => { (h.occupyLs occ).setOut .ok with lsu := { h.lsu with verWait := none } })

/-! ### Scalar loads and stores (R227) -/

/-- A scalar load of `w` bytes. -/
def scalarLoad (i : Instr) (w : Nat) (signed : Bool) (f : LO) : Sem :=
  lsSlot i f.g (fun s =>
    let va := loEa f s.me
    accessing .load (fun _ => splitLines va w) (fun _ => notAligned w va) (fun ps s =>
      .next (s.sendLoad (lsLat 8 20 14 (s.lsClass va)) 1 f.d.toNat 1 (.scalar f.d w signed) ps)) s)

/-- `ld.b` (R227). -/
def execLdB (f : LO) : Sem := scalarLoad (.ldB f) 1 true f
/-- `ld.h` (R227). -/
def execLdH (f : LO) : Sem := scalarLoad (.ldH f) 2 true f
/-- `ld.w` (R227). -/
def execLdW (f : LO) : Sem := scalarLoad (.ldW f) 4 true f
/-- `ld.d` (R227). -/
def execLdD (f : LO) : Sem := scalarLoad (.ldD f) 8 false f
/-- `ld.bu` (R227). -/
def execLdBu (f : LO) : Sem := scalarLoad (.ldBu f) 1 false f
/-- `ld.hu` (R227). -/
def execLdHu (f : LO) : Sem := scalarLoad (.ldHu f) 2 false f
/-- `ld.wu` (R227). -/
def execLdWu (f : LO) : Sem := scalarLoad (.ldWu f) 4 false f

/-- A scalar store of `w` bytes. -/
def scalarStore (i : Instr) (w : Nat) (f : LO) : Sem :=
  lsSlot i f.g (fun s =>
    let va := loEa f s.me
    let bytes := toBytes w (s.me.regs.sReg f.d).toNat
    accessing .store (fun _ => splitLines va w) (fun _ => notAligned w va) (fun ps s =>
      .next (s.sendStores 1 (w = 8) false (ps.map (fun p => (p, (bytes.drop (p.va - va)).take p.len)))))
      s)

/-- `st.b` (R227). -/
def execStB (f : LO) : Sem := scalarStore (.stB f) 1 f
/-- `st.h` (R227). -/
def execStH (f : LO) : Sem := scalarStore (.stH f) 2 f
/-- `st.w` (R227). -/
def execStW (f : LO) : Sem := scalarStore (.stW f) 4 f
/-- `st.d` (R227). -/
def execStD (f : LO) : Sem := scalarStore (.stD f) 8 f

/-- `pf` (R230): fills the line into the lease cache, or renews a lease that has ended, without a register and
without moving LT; it does nothing for the vault window, for a line homed elsewhere and for an address that would
fault. A miss of the translation cache is awaited, and the recall of a line that a peer holds exclusively (R199). -/
def execPf (f : LO) : Sem :=
  lsSlot (.pf f) f.g (fun s =>
    let va := loEa f s.me
    let s1 := s.modMe (fun h => h.occupyLs 1)
    if inVault va || inQuire va then .next s1.ok
    else match s.xlate .load s.me.level va with
      | .wait =>
        .next (s.awaitXlat { va := va, acc := .load, lvl := s.me.level, part := s.me.partNo,
                             tick := 0 })
      | .fault _ => .next (s1.modMe (fun h => { h.setOut .ok with
          lsu := { h.lsu with fault := none } }))
      | .ok pa dev =>
        let h := s.me
        let hb := s.hub
        let node := h.spr.hyp.toNat
        let line := lineOf pa
        if dev || h.isCore || !(hb.loc pa).leasable || hb.poisoned pa
          || (h.leaseLine h.partNo node line).any (fun l => l.nc || decide (h.spr.lt ≤ l.rts)) then .next s1.ok
        else match s.recallOf line with
        | some s => .next (s.stall false)
        | none => .next (s1.fillLine h.partNo node (Nat.max (hb.seenWts h.partNo node line) h.spr.lt) pa 1).ok)

/-! ### Vectors and tiles (R228, R229) -/

/-- The active lanes of a vector access. -/
def loLanes (f : LO) (h : Hart) : List Nat := lanes (h.regs.mReg f.m)

/-- `vld` (R228). -/
def execVld (f : LO) : Sem :=
  lsSlot (.vld f) f.g (fun s =>
    let h := s.me
    let va := loEa f h
    let act := loLanes f h
    let base := h.vBase + 64 * f.d.toNat
    let rest := (List.range 64).filter (fun l => !act.contains l)
    let zeros := if f.q then rest.map (base + ·) else []
    let keys := act.map (base + ·)
    if h.vecWriteBad f.d.toNat (keys ++ zeros) then s.illegal 9
    else accessing .load (fun _ => act.map (fun l => (va + 4 * l, 4)))
      (fun _ => notAligned 4 va) (fun ps s =>
        .next (s.sendLoad (lsLat 8 20 14 (s.lsClass va)) 5 f.d.toNat 1
          (.units (h.shadowed f.d.toNat) keys zeros) ps)) s)

/-- `vst` (R228). -/
def execVst (f : LO) : Sem :=
  lsSlot (.vst f) f.g (fun s =>
    let h := s.me
    let va := loEa f h
    let act := loLanes f h
    accessing .store (fun _ => act.map (fun l => (va + 4 * l, 4)))
      (fun _ => notAligned 4 va) (fun ps s =>
        .next (s.sendStores 1 false true
          (List.zipWith (fun p l => (p, toBytes 4 (h.vLane f.d.toNat l).toNat)) ps act))) s)

/-- The rows of a tile access: address and length, and the first misaligned address (R224, R229). -/
def tileRows (va stride : Nat) : List (Nat × Nat) := (List.range 64).map (fun i => (va + i * stride, 64))

/-- Alignment of a tile access: a 64-byte aligned base and a stride that is a multiple of 64 (R224); the lowest row
address that is not a multiple of 64. -/
def tileAligned (va stride : Nat) : Option Nat :=
  (((List.range 64).map (fun i => (va + i * stride) % 2 ^ 57)).filter (fun a => a % 64 ≠ 0)).min?

/-- `tld` (R229). -/
def execTld (f : LB) : Sem :=
  lsSlot (.tld f) f.g (fun s =>
    let h := s.me
    let va := lbEa f h
    let st := (h.regs.sReg f.b).toNat
    let base := h.tBase + 1024 * f.d.toNat
    let keys := (List.range 1024).map (base + ·)
    if h.viewWriteBad keys then s.illegal 9
    else accessing .load (fun _ => tileRows va st) (fun _ => tileAligned va st) (fun ps s =>
      .next (s.sendLoad (lsLat 24 36 30 (s.lsClass va)) 6 f.d.toNat 16 (.units false keys []) ps)) s)

/-- `tst` (R229). -/
def execTst (f : LB) : Sem :=
  lsSlot (.tst f) f.g (fun s =>
    let h := s.me
    let va := lbEa f h
    let st := (h.regs.sReg f.b).toNat
    let base := h.tBase + 1024 * f.d.toNat
    let row (i : Nat) : List Byte := (List.range 16).flatMap (fun c =>
      toBytes 4 (NMap.get 0#32 (base + 16 * i + c) h.regs.space).toNat)
    accessing .store (fun _ => tileRows va st) (fun _ => tileAligned va st) (fun ps s =>
      .next (s.sendStores 16 false true (ps.mapIdx (fun i p => (p, row i))))) s)

/-! ### Gather and scatter (R231) -/

/-- The lanes that a gather or scatter still has to do: those that `PIX` of this kind counts are
skipped (R386). -/
def pixLanes (kind : Nat) (h : Hart) (act : List Nat) : List Nat :=
  if wbits 54 52 h.spr.pix = kind then act.drop (wbits 31 0 h.spr.pix) else act

/-- `PIX` with KIND and COUNT cleared (R386). -/
def Hart.clearPix (h : Hart) : Hart := { h with spr := { h.spr with pix := 0 } }

/-- `PIX` with a KIND and a COUNT (R386). -/
def Hart.setPix (kind count : Nat) (h : Hart) : Hart :=
  { h with spr := { h.spr with pix := BitVec.ofNat 64 (kind * 2 ^ 52 + count % 2 ^ 32) } }

/-- The address of a lane (R231): unsigned 32-bit offsets from vb. -/
def laneAddr (f : LB) (h : Hart) (l : Nat) : Nat :=
  (lbEa f h + (h.vLane f.b.toNat l).toNat) % 2 ^ 57

/-- The lowest address of a gather or scatter that is not aligned (R224). -/
def lowestOdd (as : List Nat) : Option Nat := (as.filter (fun a => a % 4 ≠ 0)).min?

/-- A gather or scatter that must wait for the translation of a later lane may stop between lanes (R386), freely: the
pieces of the lanes before it, which it then does, and the translation that it waits for. (DESIGN CHOICE: log entry
112.) (DESIGN CHOICE: log entry 112.) -/
def State.stopsAfter (acc : Acc) (as : List Nat) (s : State) : Option (List Piece × Want) :=
  let at_ (l : List Nat) : PRes := s.pieces acc s.me.level (l.map (fun a => (a, 4)))
  match at_ as with
  | .wait w =>
    (match at_ (as.takeWhile (fun a => match at_ [a] with | .ok _ => a % 4 = 0 | _ => false)) with
      | .ok ps => if !ps.isEmpty && Config.freeBool s.free then some (ps, w) else none
      | _ => none)
  | _ => none

/-- A gather or scatter has stopped after `n` more lanes (R386): `PIX` counts them, and the hart waits. -/
def State.stopLanes (kind n : Nat) (w : Want) (s : State) : State :=
  let k := if wbits 54 52 s.me.spr.pix = kind then wbits 31 0 s.me.spr.pix else 0
  ({ s with free := s.free + 1 }.modMe (Hart.setPix kind (k + n))).awaitXlat w

/-- `vgath` (R231): the class is that of the lowest active lane (R222). -/
def execVgath (f : LB) : Sem :=
  lsSlot (.vgath f) f.g (fun s =>
    let h := s.me
    let all := lanes (h.regs.mReg f.m)
    let act := pixLanes 1 h all
    let base := h.vBase + 64 * f.d.toNat
    let rest := (List.range 64).filter (fun l => !all.contains l)
    let zeros := if f.q then rest.map (base + ·) else []
    let keys := act.map (base + ·)
    let at_ := laneAddr f h
    let L := lsLat 16 28 22 (s.lsClass (at_ (all.headD 0)))
    if h.vecWriteBad f.d.toNat (keys ++ zeros) then s.illegal 9
    else match s.stopsAfter .load (act.map at_) with
    | some (ps, w) =>
      .next ((s.sendLoad L 5 f.d.toNat 0 (.units (h.shadowed f.d.toNat) (keys.take ps.length) []) ps).stopLanes 1
        ps.length w)
    | none => accessing .load (fun _ => act.map (fun l => (at_ l, 4))) (fun _ => lowestOdd (act.map at_)) (fun ps s =>
        .next ((s.sendLoad L 5 f.d.toNat 4 (.units (h.shadowed f.d.toNat) keys zeros) ps).modMe Hart.clearPix)) s)

/-- `vscat` (R231): stores in lane order. -/
def execVscat (f : LB) : Sem :=
  lsSlot (.vscat f) f.g (fun s =>
    let h := s.me
    let act := pixLanes 2 h (lanes (h.regs.mReg f.m))
    let at_ := laneAddr f h
    let store (ps : List Piece) (s : State) : State :=
      (List.zipWith (fun p l => (p, toBytes 4 (h.vLane f.d.toNat l).toNat)) ps act).foldl
        (fun s e => s.storePiece e.1 e.2 false) s
    match (s.stopsAfter .store (act.map at_)).filter (fun e => (s.versionWanted e.1).isNone && (s.ncRecall e.1).isNone) with
    | some (ps, w) => .next ((store ps s).stopLanes 2 ps.length w)
    | none => accessing .store (fun _ => act.map (fun l => (at_ l, 4))) (fun _ => lowestOdd (act.map at_)) (fun ps s =>
        match s.versionWanted ps, s.ncRecall ps with
        | some va, _ => .next (s.stallVersion va)
        | none, some s => .next (s.stall false)
        | none, none =>
          let s := store ps s
          .next (s.modMe (fun h =>
            { (h.occupyLs 4).clearPix.setOut .ok with lsu := { h.lsu with verWait := none } }))) s)

/-! ### Fences (R203 to R206, R237) -/

/-- A write that a fence of the tread's own accesses waits for: `sig.wr` is an engine's (R247). -/
def Write.ofTread (w : Write) : Bool :=
  match w.kind with
  | .signal .. => false
  | _ => true

/-- A write-back of dirty bytes (R210). -/
def Write.isBack (w : Write) : Bool :=
  match w.kind with
  | .back _ => true
  | _ => false

/-- A place in the issue order lies before the bundle that a hart issues. -/
def Hart.earlier (h : Hart) (q : Nat) : Bool := h.iss.first.all (fun n => q < n)

/-- The waits of a scope for every access that a hart issued before its bundle (R203). -/
def Hub.fenceDone (hb : Hub) (sc : Nat) (h : Hart) : Bool :=
  let ws := h.lsu.writes.filter (fun w => w.ofTread && h.earlier w.seq)
  let mine (d : Delivery) : Bool := d.by_ = h.id
  let ownChip (d : Delivery) : Bool :=
    match hb.localLoc ((d.cells.head?.map (·.1)).getD 0) with
    | .vault c _ => c = h.place.chip
    | _ => false
  let accSt (p : Pend) : Bool := (p.effs.getD []).any (fun e => match e with
    | .vault .. => true
    | _ => false)
  ws.all (fun w => w.tag.isSome)
    && h.sched.pipe.all (fun p => !(accSt p && h.earlier p.seq))
    && h.lsu.vstores.all (fun v => !h.earlier v.seq || Nat.min sc 2 < v.dist)
    && (sc < 3 || hb.deliveries.all (fun d => !(mine d && ownChip d)))
    && (sc < 4 || (hb.deliveries.all (fun d => !mine d)
        && hb.exts.all (fun e => !(e.hart = h.id && e.write && (match e.far with
          | .cxl _ => true
          | _ => false)))))
    && (sc < 5 || ws.isEmpty)

/-- `fence.scope` (R203, R204, R206, R237). -/
def execFenceScope (f : LB) : Sem :=
  lsSlot (.fenceScope f) f.g (fun s =>
    let h := s.me
    let timeout := h.units.pending.getLsbD 4
    if s.hub.fenceDone f.sc.toNat h || timeout then
      let v := fenceStatus h.units.pending timeout
      .next ((s.modMe (fun h => (h.occupyLs 1).raiseLt h.lsu.maxStamp)).modMe (fun h =>
        { (h.push 1 1 f.d.toNat (some [.s f.d v])).setOut .ok with
          units := { h.units with pending := 0 },
          lsu := { h.lsu with fenceSince := none } }))
    else
      .next ((s.stall false).modMe (fun h => { h with lsu := { h.lsu with
        fenceSince := some (h.lsu.fenceSince.getD s.hub.clk) } })))

/-! ### Atomics and reductions (R232 to R234) -/

/-- Width of an atomic in bytes. -/
def amoWidth (f : LB) : Nat := if f.q then 8 else 4

/-- An operand of an atomic: 64 or 32 bits (R232). -/
def amoWord (f : LB) (w : Word) : Word := if f.q then w else BitVec.ofNat 64 (w.toNat % 2 ^ 32)

/-- Writes back the hart's own dirty bytes of a non-coherent line before an atomic (R234). -/
def State.backOwn (va pa : Nat) (s : State) : State :=
  let line := lineOf pa
  match s.me.leaseLine s.me.partNo 0 line with
  | some l =>
    if s.hub.nonCoherent s.me pa ∧ !l.dirty.isEmpty then
      let bs := l.dirty.map (fun o => (o, l.bytes.getD o 0#8))
      let s := s.queueUnder false 0 (va / 128 * 128) (pa / 128 * 128) (.back bs) false
      s.modMe (fun h => { h with lsu := { h.lsu with
        lease := h.lsu.lease.map (fun m => if m = l then { m with dirty := [] } else m) } })
    else s
  | none => s

/-- The common part of atomics and reductions: address, alignment, vault, the waits of a scope other than `.tr`, tag
and version checks (R224, R233, R234). -/
def atomically (i : Instr) (f : LB) (k : Piece → Sem) : Sem :=
  lsSlot i f.g (fun s =>
    let va := lbEa f s.me
    let w := amoWidth f
    if inVault va then
      match notAligned w va with
      | some a => s.misaligned a
      | none => s.vaultFault va
    else accessing .atomic (fun _ => splitLines va w) (fun _ => notAligned w va) (fun ps s =>
      match ps with
      | [p] =>
        if f.sc.toNat ≠ 0 ∧ !s.hub.fenceDone f.sc.toNat s.me then .next (s.stall false)
        else match s.versionWanted ps with
          | some a => .next (s.stallVersion a)
          | none => k p ((s.backOwn va p.pa).modMe (fun h =>
              { h.occupyLs 1 with lsu := { h.lsu with verWait := none } }))
      | _ => .next s.ok) s)

/-- A returning atomic: 128 c (R222, R232). -/
def amo (i : Instr) (op : AmoOp) (f : LB) : Sem :=
  atomically i f (fun p s =>
    let v := amoWord f (s.me.regs.sReg f.b)
    let cmp := amoWord f (s.me.regs.sReg f.d)
    if s.tagRefused p.pa then
      .next (s.issue 128 1 f.d.toNat [.memErr p.va 2])
    else
      let seq := s.me.iss.seq
      let s := s.modMe (fun h => h.push 128 1 f.d.toNat none)
      .next (s.queueWrite p.device p.va p.pa (.amo op f.q v cmp seq f.d) false).ok)

/-- `amo.add` (R232). -/
def execAmoAdd (f : LB) : Sem := amo (.amoAdd f) .add f
/-- `amo.min` (R232). -/
def execAmoMin (f : LB) : Sem := amo (.amoMin f) .min f
/-- `amo.max` (R232). -/
def execAmoMax (f : LB) : Sem := amo (.amoMax f) .max f
/-- `amo.minu` (R232). -/
def execAmoMinu (f : LB) : Sem := amo (.amoMinu f) .minu f
/-- `amo.maxu` (R232). -/
def execAmoMaxu (f : LB) : Sem := amo (.amoMaxu f) .maxu f
/-- `amo.and` (R232). -/
def execAmoAnd (f : LB) : Sem := amo (.amoAnd f) .and f
/-- `amo.or` (R232). -/
def execAmoOr (f : LB) : Sem := amo (.amoOr f) .or f
/-- `amo.xor` (R232). -/
def execAmoXor (f : LB) : Sem := amo (.amoXor f) .xor f
/-- `amo.xchg` (R232). -/
def execAmoXchg (f : LB) : Sem := amo (.amoXchg f) .xchg f
/-- `amo.cas` (R232). -/
def execAmoCas (f : LB) : Sem := amo (.amoCas f) .cas f

/-- A fire-and-forget reduction, ordered as a store (R232, R233). -/
def red (i : Instr) (op : AmoOp) (f : LB) : Sem :=
  atomically i f (fun p s =>
    if s.tagRefused p.pa then .next (s.modMe (Hart.setPending 1)).ok
    else .next (s.queueWrite p.device p.va p.pa (.red op f.q (amoWord f (s.me.regs.sReg f.b))) false).ok)

/-- `red.add` (R232). -/
def execRedAdd (f : LB) : Sem := red (.redAdd f) .add f
/-- `red.min` (R232). -/
def execRedMin (f : LB) : Sem := red (.redMin f) .min f
/-- `red.max` (R232). -/
def execRedMax (f : LB) : Sem := red (.redMax f) .max f
/-- `red.and` (R232). -/
def execRedAnd (f : LB) : Sem := red (.redAnd f) .and f
/-- `red.or` (R232). -/
def execRedOr (f : LB) : Sem := red (.redOr f) .or f
/-- `red.xor` (R232). -/
def execRedXor (f : LB) : Sem := red (.redXor f) .xor f

/-! ### `mon.wait` (R235, R236) -/

/-- The watch entry of a `mon.wait`. -/
def monEntry (f : LB) (va pa : Nat) (h : Hart) : Watch :=
  { who := .hart h.id, part := h.partNo, va := va, pa := pa, d64 := f.q,
    mask := h.regs.sReg f.d, val := h.regs.sReg f.b, cmp := Cmp.ofCode f.sc,
    node := h.spr.hyp.toNat, hit := none }

/-- One check at the home at a logical time from `lt` on (R235): satisfied with a time, failed, armed, or due
again 4,096 ticks later. It protects the word that it read (R255), and a line that a peer holds exclusively
is recalled first (R199). A word held outside the package answers freely. (DESIGN CHOICE: log entry 18.)
(DEDUCED: log entry 98.) -/
def State.monCheck (lt : Nat) (w : Watch) (s : State) : Mon × State :=
  let n := if w.d64 then 8 else 4
  let f := s.hub.readFailure w.pa
  if f ≠ 0 then (.failed w.va f, s)
  else if (s.hub.loc w.pa).outside.isSome then
    let b := Config.freeBool s.free
    (if b then .satisfied 0 else .recheck (s.hub.clk + 4096) w, { s with free := s.free + 1 })
  else match s.recallOf (lineOf w.pa) with
    | some s => (.recheck s.hub.clk w, s)
    | none =>
      let t := s.hub.seenAt w.part w.node (locOf w.pa) n
      let s := { s with hub := s.hub.readAt w.part w.node (locOf w.pa) n (Nat.max lt t) }
      if s.hub.watchHolds w then (.satisfied t, s)
      else if s.hub.watchFree w.part then
        (.armed, { s with hub := { s.hub with watches := s.hub.watches ++ [w] } })
      else (.recheck (s.hub.clk + 4096) w, s)

/-- The memory-error trap of a `mon.wait` at its waiting bundle (R205). -/
def State.monFault (va info : Nat) (s : State) : Host.Outcome State Fault Refusal :=
  .next (s.trapS clsAccess 0x0b info va)

/-- Records where a `mon.wait` stands; it issues when it is satisfied, and otherwise stalls and
parks. -/
def State.monStand (m : Mon) (s : State) : Host.Outcome State Fault Refusal :=
  match m with
  | .satisfied t =>
    .next (s.modMe (fun h =>
      let h := (h.raiseLt t).occupyLs 1
      { h.setOut .ok with lsu := { h.lsu with mon := .none } }))
  | .failed va info => s.monFault va info
  | m => .next ((s.stall true).modMe (fun h => { h with lsu := { h.lsu with mon := m } }))

/-- `mon.wait` (R235). -/
def execMonWait (f : LB) : Sem :=
  lsSlot (.monWait f) f.g (fun s =>
    let va := lbEa f s.me
    let w := amoWidth f
    if inVault va then
      match notAligned w va with
      | some a => s.misaligned a
      | none => s.vaultFault va
    else match s.me.lsu.mon with
      | .none =>
        accessing .monWait (fun _ => splitLines va w) (fun _ => notAligned w va) (fun ps s =>
          match ps with
          | [p] =>
            let (m, s) := s.monCheck s.me.spr.lt (monEntry f va p.pa s.me)
            s.monStand m
          | _ => .next s.ok) s
      | m => s.monStand m)

/-! ### `flush.region` (R238) -/

/-- A tread that has retired stands on the flights `n` to `n + k − 1` of a hart's chiplet: what it left in the
lease cache of its position is in reach (R332). -/
def Hart.leftOn (n k : Nat) (a h : Hart) : Bool :=
  h.ctl.run = .retired && !a.isCore && h.place.chip = a.place.chip && n ≤ h.place.flight && h.place.flight < n + k

/-- The harts whose lease caches a scope names (R238). -/
def Hart.flushes (sc : Nat) (a h : Hart) : Bool :=
  match sc with
  | 0 => h.id = a.id
  | 1 => h.sameFlight a || h.leftOn a.place.flight 1 a
  | 2 => (match a.id, h.id with
    | .tread l w _, .tread l' w' _ =>
      l = l' && w - wbits 2 0 a.spr.gang = w' - wbits 2 0 h.spr.gang
    | _, _ => h.id = a.id) || h.leftOn (a.place.flight - wbits 2 0 a.spr.gang) (wbits 11 8 a.spr.gang) a
  | 3 => h.place.chip = a.place.chip && !h.isCore
  | _ => !h.isCore

/-- Flushes one line from one lease cache: dirty bytes become a write-back, and the line is dropped. Where the line is
to be cleaned to DRAM, so is it after write-backs that are on their way (R238). -/
def Hart.flushLine (line clk : Nat) (clean : Bool) (h : Hart) : Hart :=
  let h := (h.lsu.lease.filter (fun l => l.line = line)).foldl (fun h l => h.backLine clk clean l) h
  { h with lsu := { h.lsu with
      lease := h.lsu.lease.filter (fun l => l.line ≠ line),
      writes := h.lsu.writes.map (fun w =>
        if clean ∧ w.isBack ∧ lineOf w.pa = line then { w with wide := true } else w) } }

/-- A line of a lease cache holds dirty bytes (R210). -/
def Hart.hasDirty (h : Hart) : Bool := h.lsu.lease.any (fun l => !l.dirty.isEmpty)

/-- Dirty lines of non-coherent regions leave the lease cache as write-backs (R210, R332). -/
def Hart.writeBackAll (clk : Nat) (h : Hart) : Hart :=
  (h.lsu.lease.filter (fun l => !l.dirty.isEmpty)).foldl (fun h l => h.flushLine l.line clk false) h

/-- What treads that have retired left dirty at the positions of a place is written back (R332). -/
def State.backsAt (chip : Nat) (at_ : Nat → Bool) (s : State) : State :=
  s.mapWhere (fun h => h.ctl.run = .retired && h.hasDirty && h.place.chip = chip && at_ h.place.pos)
    (Hart.writeBackAll s.hub.clk)

/-- The write-backs on their way that a flush waits for. -/
def State.backs (sc : Nat) (s : State) : List (HartId × Nat) :=
  (s.harts.filter (fun h => Hart.flushes sc s.me h)).flatMap (fun h =>
    (h.lsu.writes.filter Write.isBack).map (fun w => (h.id, w.seq)))

/-- A write-back of a flush has not been stamped yet. -/
def State.unstamped (e : HartId × Nat) (s : State) : Bool :=
  s.harts.any (fun h => h.id = e.1 && h.lsu.writes.any (fun w => w.seq = e.2))

/-- Walks the lines of a flush, ascending; a page that is not translated stops it with `PIX` (R238). -/
def State.flushLines (f : LB) : Nat → Nat → Nat → State → Except (State × Host.Outcome State Fault Refusal) State
  | 0, _, _, s => .ok s
  | n + 1, va, k, s =>
    if inVault va || inQuire va then s.flushLines f n ((va / 128 + 1) * 128 % 2 ^ 57) (k + 1)
    else
      match s.xlate .load s.me.level va with
      | .wait =>
        let s := s.modMe (Hart.setPix 3 k)
        .error (s, .next (s.awaitXlat { va := va, acc := .load, lvl := s.me.level,
                                        part := s.me.partNo, tick := 0 }))
      | .fault x => .error (s, (s.modMe (Hart.setPix 3 k)).xlatFault x .load va)
      | .ok pa _ =>
        let line := lineOf pa
        let a := s.me
        let s := if (s.hub.loc pa).leasable then
            let s := s.mapWhere (fun h => Hart.flushes f.sc.toNat a h) (Hart.flushLine line s.hub.clk (f.sc.toNat = 5))
            if f.sc.toNat = 5 then { s with hub := s.hub.mscClean line } else s
          else s
        s.flushLines f n ((va / 128 + 1) * 128 % 2 ^ 57) (k + 1)

/-- `flush.region` (R238). -/
def execFlushRegion (f : LB) : Sem :=
  lsSlot (.flushRegion f) f.g (fun s =>
    match s.me.lsu.flush with
    | some ws =>
      if ws.any (fun e => s.unstamped e) then .next (s.stall false)
      else .next (s.modMe (fun h =>
        { (h.occupyLs 1).clearPix.setOut .ok with lsu := { h.lsu with flush := none } }))
    | none =>
      let va := lbEa f s.me
      let n := (s.me.regs.sReg f.b).toNat
      let count := if n = 0 then 0 else (va % 128 + n + 127) / 128
      let k := if wbits 54 52 s.me.spr.pix = 3 then wbits 31 0 s.me.spr.pix else 0
      let start := if k = 0 then va else (va / 128 + k) * 128 % 2 ^ 57
      match s.flushLines f (count - k) start k with
      | .error (_, o) => o
      | .ok s =>
        let ws := s.backs f.sc.toNat
        if ws.isEmpty then .next (s.modMe (fun h => (h.occupyLs 1).clearPix.setOut .ok))
        else .next ((s.stall false).modMe (fun h => { h with lsu := { h.lsu with
          flush := some ws } })))

end Sys2Proof.Machine
end

