-- ==== Sys2Proof/Machine/Transfer.lean ====
section
/-! DEFINITION. The transfer slot (R154 to R156). -/

namespace Sys2Proof.Machine

/-- An XF operation (R30, R82, R103). -/
def xfSlot (i : Instr) (f : XT) (k : Sem) : Sem := treadSlot i (guarded f.gk.g k)

/-- `x.bcast` (R154): every element of vd takes the low bits of the source. -/
def execXBcast (f : XT) : Sem :=
  xfSlot (.xBcast f) f (fun s =>
    let h := s.me
    let w := 8 * 2 ^ (f.b.toNat % 4)
    let x := (h.srcA f.ua f.a).toNat
    s.writeV 3 f.d (vecWords (h.vBase + 64 * f.d.toNat) (BitVec.allOnes 64) false
      (packLane w (fun _ => x))))

/-- `x.first` (R154): the lowest lane that the mask names; 0 where it names none. -/
def execXFirst (f : XT) : Sem :=
  xfSlot (.xFirst f) f (fun s =>
    let v := match lowestBit (s.me.regs.mReg (BitVec.ofNat 3 f.b.toNat)).toNat 64 with
      | some k => (s.me.vLane f.a.toNat k).zeroExtend 64
      | none => 0
    s.writeD 3 f.ud f.d v)

/-- `x.lane` (R154). -/
def execXLane (f : XT) : Sem :=
  xfSlot (.xLane f) f (fun s =>
    s.writeD 3 f.ud f.d ((s.me.vLane f.a.toNat f.b.toNat).zeroExtend 64))

/-- The latency of the flag instructions: 2 c in transfer mode, 1 c in flags mode (R155). -/
def flagLat (h : Hart) : Nat := if wbits 0 0 h.spr.kcfg = 1 then 1 else 2

/-- The mask that a flag instruction reads. -/
def flagMask (f : XT) (h : Hart) : Word := h.regs.mReg (BitVec.ofNat 3 f.a.toNat)

/-- `x.any` (R155). -/
def execXAny (f : XT) : Sem :=
  xfSlot (.xAny f) f (fun s => .next (s.writeP (flagLat s.me) f.d (maskAny (flagMask f s.me))))
/-- `x.all` (R155). -/
def execXAll (f : XT) : Sem :=
  xfSlot (.xAll f) f (fun s => .next (s.writeP (flagLat s.me) f.d (maskAll (flagMask f s.me))))
/-- `x.none` (R155). -/
def execXNone (f : XT) : Sem :=
  xfSlot (.xNone f) f (fun s => .next (s.writeP (flagLat s.me) f.d (maskNone (flagMask f s.me))))
/-- `x.cnt` (R155). -/
def execXCnt (f : XT) : Sem :=
  xfSlot (.xCnt f) f (fun s =>
    s.writeD (flagLat s.me) f.ud f.d (BitVec.ofNat 64 (popCount (flagMask f s.me))))

/-- The next rank of a hart's flight. -/
def Hart.nextRank (h : Hart) : HartId :=
  match h.id with
  | .tread l w r => .tread l w (r + 1)
  | i => i

/-- Entries of the receive queue that are available or on their way, held ones among them (R156, R374). -/
def Hart.xCount (h : Hart) : Nat :=
  h.units.xq.length + h.inPipe.countP (fun p => p.kind = 10)

/-- `x.pass` (R49, R156): the next rank's queue takes the 256 bytes after the rise; the last rank's
value is discarded, and so is one sent to a rank that has retired. (DEDUCED: log entry 21.) -/
def execXPass (f : XT) : Sem :=
  xfSlot (.xPass f) f (fun s =>
    let h := s.me
    if h.ctl.run ≠ .attached then s.illegal 9
    else if h.rank + 1 = h.spr.flw.toNat % 32 then .next s.ok
    else match s.hart? h.nextRank with
      | none => .next s.ok
      | some t =>
        if !t.live then .next s.ok
        else if 4 ≤ t.xCount then s.illegal 9
        else
          let e := (List.range 64).map (fun l => h.vLane f.a.toNat l)
          .next (s.mapHart t.id (fun t =>
            t.push (1 + h.spr.rise.toNat % 16) 10 0 (some [.xpass s.hub.clk e]))).ok)

/-- `x.recv` (R49, R156): rank 0 reads zero; elsewhere the oldest available entry is popped. -/
def execXRecv (f : XT) : Sem :=
  xfSlot (.xRecv f) f (fun s =>
    let h := s.me
    let ws (e : List (BitVec 32)) : List (Nat × BitVec 32) :=
      vecWords (h.vBase + 64 * f.d.toNat) (BitVec.allOnes 64) false (fun l => e.getD l 0#32)
    if h.ctl.run ≠ .attached then s.illegal 9
    else if h.rank = 0 then s.writeV 1 f.d (ws [])
    else match h.units.xq with
      | [] => s.illegal 9
      | e :: r =>
        if h.vecWriteBad f.d.toNat ((ws e.2).map (·.1)) then s.illegal 9
        else (s.modMe (fun h => { h with units := { h.units with xq := r } })).writeV 1 f.d (ws e.2))

end Sys2Proof.Machine
end

