-- ==== Sys2Proof/Machine/Matrix.lean ====
section
/-! DEFINITION. The matrix slot (R157 to R171), with the terms and `accumulate` of R123 to R126, and the
reading of tensor descriptors (R118, R119, R121). -/

namespace Sys2Proof.Machine

/-! ### Tensor descriptors -/

/-- An entry of the tensor descriptor table, by its 512 bits (R118). -/
structure Tdt where
  bits : Nat
  deriving DecidableEq, Repr

/-- Bits of an entry. -/
def Tdt.f (t : Tdt) (h l : Nat) : Nat := bitsOf h l t.bits

/-- The element format of an entry. -/
def Tdt.fmt (t : Tdt) : Nat := t.f 71 64

/-- The width of an entry's elements; 16 is MXFP4 (R109, R118). -/
def Tdt.width (t : Tdt) : Nat := if t.fmt = 16 then 4 else codeWidth t.fmt

/-- The group or block size (R118). -/
def Tdt.group (t : Tdt) : Nat := if t.f 87 84 = 0 then 0 else 16 * 2 ^ t.f 87 84

/-- The extents of the four dimensions. -/
def Tdt.dim (t : Tdt) (d : Nat) : Nat :=
  match d with
  | 0 => t.f 383 352
  | 1 => t.f 351 320
  | 2 => t.f 319 288
  | _ => t.f 287 256

/-- Validity of an entry (R119). R118 gives the unused high bits of PAD as 0, and R119 does not test them: the model
ignores them. (DEDUCED: log entry 114.) -/
def Tdt.valid (t : Tdt) : Bool :=
  let fmt := t.fmt
  let g := t.f 87 84
  let rowBytes := (t.dim 0 * t.width + 7) / 8
  t.f 0 0 = 1 && t.f 511 505 = 0 && t.f 447 441 = 0 && t.f 81 72 = 0 && t.f 63 1 = 0
    && (fmt ≤ 9 || fmt = 16) && t.f 95 88 ≤ 1 && g ≤ 3
    && (List.range 4).all (fun d => 1 ≤ t.dim d)
    && (t.width ≠ 4 || t.dim 0 % 2 = 0)
    && (if fmt = 8 ∨ fmt = 9 then 1 ≤ g else if fmt = 16 then g = 1 else g = 0)
    && (decide (t.f 440 384 ≠ 0) = decide (g ≠ 0))
    && (t.f 95 88 = 0 || (t.f 504 448 % 4096 = 0 && t.dim 0 * t.width % 512 = 0
        && t.f 255 208 % 4096 = 0 && t.f 207 160 % 4096 = 0 && t.f 159 112 % 4096 = 0
        && 64 * rowBytes ≤ t.f 255 208))

/-- The entry of an identifier, or what its read ends in (R118, R119, R121): at supervisor level, under
the root. -/
inductive TdtRes where
  /-- the entry, the write time that the read shows, and the line that it lies in -/
  | ok (t : Tdt) (seen line : Nat)
  | wait (w : Want)
  | fault (x : XFault) (va : Nat)
  | bad (info : Nat)
  deriving DecidableEq, Repr

/-- Reads and checks a descriptor (R118, R119, R121, R344): the committed bytes, also where a write of the same
logical time races with the read, and where a store of the tread's own to the entry has no stamp yet.
(DESIGN CHOICE: log entry 19.) -/
def State.readTdt (id : Word) (s : State) : TdtRes :=
  let r := (s.hub.part s.me.partNo).tdtb
  if id.toNat / 4096 ≠ 0 ∨ !r.getLsbD 0 then .bad 0
  else
    let va := (wbits 56 12 r * 4096 + 64 * id.toNat) % 2 ^ 57
    match s.xlate .load 1 va with
    | .wait => .wait { va := va, acc := .load, lvl := 1, part := s.me.partNo, tick := 0 }
    | .fault x => .fault x va
    | .ok pa _ =>
      let f := s.hub.readFailure pa
      if f ≠ 0 then .bad f
      else
        let t : Tdt := { bits := leBytes (s.hub.hubBytes s.free pa 64) }
        if t.valid then .ok t (s.hub.lineMeta (lineOf pa)).wts (lineOf pa) else .bad 0

/-- What the read of a descriptor does to logical time (R191): LT rises, and the line is protected. -/
def State.sawTdt (seen line : Nat) (s : State) : State :=
  let s := s.modMe (Hart.raiseLt seen)
  { s with hub := s.hub.readAt s.me.partNo 0 (line * 128) 128 s.me.spr.lt }

/-- Goes on with a descriptor, or freezes, or takes the trap of its read (R119, R121); the read acts on logical time
as a load does (R191), and recalls the line from a peer that holds it exclusively (R199), for which the bundle
stalls. (DESIGN CHOICE: log entry 19.) -/
def withTdt (id : Word) (k : Tdt → Sem) : Sem := fun s =>
  match s.readTdt id with
  | .ok t seen line =>
    (match s.recallOf line with
      | some s => .next (s.stall false)
      | none => k t (s.sawTdt seen line))
  | .wait w => .next (s.awaitXlat w)
  | .fault x va => s.xlatFault x .load va
  | .bad info => s.descFault id info

/-! ### Terms and `accumulate` (R110, R123 to R126) -/

/-- The magnitude of a finite value as a fraction. -/
def FVal.mag : FVal → Nat × Nat
  | .fin _ n d => (n, d)
  | _ => (0, 1)

/-- The exact sum of values. -/
def FVal.sum (xs : List FVal) : FVal := xs.foldl (FVal.add .rne) (.fin false 0 1)

/-- The sum of magnitudes. -/
def magSum (xs : List FVal) : Nat × Nat :=
  xs.foldl (fun (a : Nat × Nat) x => (a.1 * x.mag.2 + x.mag.1 * a.2, a.2 * x.mag.2)) (0, 1)

/-- The largest finite FP32 magnitude. -/
def fp32Max : Nat := (fp32.val fp32.maxCode).mag.1

/-- A sum of `n / den`, if it is not 0, is exact in FP32 and not below 2^-126 (R125, R126): `den` is a power of two. -/
def fp32Holds (den n : Nat) : Bool :=
  n = 0 || (decide (den ≤ n * 2 ^ 126) && decide (n ≤ fp32Max * den)
    && n % 2 ^ (Nat.log2 n - 23) = 0)

/-- Every sum that the values can form with one of `sums` is exact in FP32. -/
def sumsHold (den : Nat) : List Int → List Int → Bool
  | _, [] => true
  | sums, n :: rest =>
    let more := (sums ++ sums.map (· + n)).eraseDups
    more.all (fun x => fp32Holds den x.natAbs) && sumsHold den more rest

/-- Every partial sum is exact in FP32, in whatever order, and none is below 2^-126 but zero (R125, R126): the sums of
all selections of the values. Values that are multiples of a power of two not below 2^-126, of which those of neither
sign come to more than 2^24 of it, have none that is not. (DESIGN CHOICE: log entry 13.) -/
def sumExact (xs : List FVal) : Bool :=
  let ms := xs.filter (fun x => x.mag.1 ≠ 0)
  let den := ms.foldl (fun d x => Nat.lcm d x.mag.2) 1
  let ns := ms.map (fun x => (if x.neg? then -1 else 1 : Int) * (x.mag.1 * (den / x.mag.2) : Nat))
  let g := ns.foldl (fun g n => Nat.gcd g n.natAbs) 0
  let unit := Nat.gcd g (2 ^ Nat.log2 g)
  let side (neg : Bool) : Nat := ((ns.filter (fun n => decide (n < 0) = neg)).map Int.natAbs).sum
  let most := Nat.max (side true) (side false)
  den ≠ 0 && (ns.isEmpty || (decide (den ≤ unit * 2 ^ 126) && decide (most ≤ 2 ^ 24 * unit) && decide (most ≤ fp32Max * den))
    || sumsHold den [0] ns)

/-- A partial sum of this sign may exceed the FP32 range (R126): the terms of that sign do. -/
def mayOverflow (neg : Bool) (xs : List FVal) : Bool :=
  let m := magSum (xs.filter (fun x => x.neg? = neg))
  decide (fp32Max * m.2 * 2 ^ 20 < m.1 * (2 ^ 20 + 1))

/-- `⌈log₂ n⌉`. -/
def clog2 (n : Nat) : Nat := if n ≤ 1 then 0 else Nat.log2 (n - 1) + 1

/-- The bound of R126 on `|y − E|`, as a fraction: `n` terms, magnitudes summing to `num / den`. -/
def accBound (n : Nat) (m : Nat × Nat) : Nat × Nat :=
  ((clog2 n + 2) * m.1 * 2 ^ 126 + n * m.2, m.2 * 2 ^ 149)

/-- The distance of two values. -/
def FVal.dist (x y : FVal) : Nat × Nat := (FVal.add .rne x y.negate).mag

/-- Whether `y` may stand for the sum of finite values (R125, R126): for the exact sum alone where every partial sum
of the rounded terms `all` is exact in FP32, otherwise within the bound that the exact terms `exact` give, or an
infinity of the sign of a partial sum that overflows. -/
def accAllowed (all exact : List FVal) (y : FVal) : Bool :=
  match y with
  | .nan => false
  | .inf neg => !sumExact all && mayOverflow neg exact
  | .fin .. =>
    if sumExact all then (y.dist (FVal.sum all)).1 = 0
    else
      let d := y.dist (FVal.sum exact)
      let b := accBound (exact.length - 1) (magSum exact)
      d.1 * b.2 ≤ b.1 * d.2

/-- `accumulate` (R125, R126) of an accumulator and terms `ts`, which the unit has rounded, and whose exact values are
`xs`: special values by R125; otherwise a free FP32 value that R126 allows, `free`, or, where `free` is none, the exact
sum rounded once. (DESIGN CHOICE: log entry 13.) -/
def accumulate (free : BitVec 32) (c : FVal) (ts xs : List FVal) : BitVec 32 :=
  let all := c :: ts
  let infs := all.filter (fun x => match x with | .inf _ => true | _ => false)
  if all.any FVal.isNan || (infs.any FVal.neg? && infs.any (fun x => !x.neg?)) then
    BitVec.ofNat 32 fp32.nanCode
  else match infs.head? with
    | some x => BitVec.ofNat 32 (fp32.enc .rne x)
    | none =>
      let y := fp32.val free.toNat
      let z := if accAllowed all (c :: xs) y then free
        else BitVec.ofNat 32 (fp32.enc .rne (FVal.sum (if sumExact all then all else c :: xs)))
      if (fp32.val z.toNat).isZero then
        BitVec.ofNat 32 ((all.all (fun x => x.isZero && x.neg?)).toNat * 2 ^ 31)
      else z

/-- An E8M0 scale (R110). -/
def e8m0 (x : Nat) : FVal :=
  if x = 255 then .nan else if x < 127 then .fin false 1 (2 ^ (127 - x)) else .fin false (2 ^ (x - 127)) 1

/-- The format code of an MX element (R98, R96): MXFP4 and `.fp4` are E2M1. -/
def mxCode (fmt : Nat) : Nat :=
  match fmt with
  | 0 => 2
  | 1 => 1
  | 2 => 3
  | 3 => 4
  | 4 | 5 => 5
  | 6 => 8
  | _ => 9

/-- `Kmax` (R161). -/
def kMax (fmt : Nat) : Nat := if fmt ≤ 1 then 32 else if fmt = 4 ∨ fmt = 5 ∨ fmt = 7 then 128 else 64

/-- Element `l` of width `w` bits of a row of 32-bit units. -/
def rowElem (u : Nat → BitVec 32) (w l : Nat) : Nat := (u (l * w / 32)).toNat / 2 ^ (l * w % 32) % 2 ^ w

/-- A zero point: INT4 ones saturate (R120). -/
def zeroPoint (fmt r : Nat) : Int :=
  let z := signedOf 8 (bitsOf 23 16 r)
  if fmt = 7 then saturate (-8) 7 z else z

/-- The address of row `r` of an operand, modulo the address space (R181). -/
def rowAt (at_ stride r : Nat) : Nat := (at_ + r * stride) % 2 ^ 57

/-- The exact terms of output (i, j) (R112, R123, R124); `u` reads an aligned unit of the vault by its address.
A term S × I of `mma.q` with I = 0 is a zero with the sign of S, the integer zero counting as +0, of which R124 states
no sign (DESIGN CHOICE: log entry 115). (DEDUCED: log entry 12.) (DEDUCED: log entry 115.) -/
def MxJob.terms (j : MxJob) (u : Nat → BitVec 32) (r c : Nat) : List FVal :=
  let code := mxCode j.fmt
  let w := codeWidth code
  let a (k : Nat) : FVal := codeVal code (rowElem (fun q => j.a.getD (16 * r + q) 0#32) w k)
  let b (k : Nat) : FVal := codeVal code (rowElem (fun q => u (rowAt j.base j.stride k + 4 * q)) w c)
  let byte (at_ : Nat) : Nat := (u (at_ / 4 * 4)).toNat / 2 ^ (8 * (at_ % 4)) % 256
  if j.quant then
    let g := Nat.min j.grp (kMax j.fmt)
    (List.range (j.kk / g)).map (fun q =>
      let ra := (u (j.asAt + 4 * (4 * r + q))).toNat
      let rb := (u (j.bsAt + 4 * (128 * q + c))).toNat
      let el (x : FVal) (z : Int) : FVal := FVal.add .rne x (FVal.ofInt (-z))
      let i := FVal.sum ((List.range g).map (fun t =>
        FVal.mul (el (a (q * g + t)) (zeroPoint j.fmt ra)) (el (b (q * g + t)) (zeroPoint j.fmt rb))))
      let sa := fp16.val (bitsOf 15 0 ra)
      let sb := fp16.val (bitsOf 15 0 rb)
      if sa.isFin && sb.isFin then FVal.mul (FVal.mul sa sb) i else .nan)
  else if j.fmt = 4 then
    (List.range (j.kk / 32)).map (fun q =>
      let sum := FVal.sum ((List.range 32).map (fun t => FVal.mul (a (32 * q + t)) (b (32 * q + t))))
      let x := FVal.mul (FVal.mul (e8m0 (byte (j.asAt + 4 * r + q))) (e8m0 (byte (j.bsAt + 128 * q + c))))
        sum
      fp32.val (fp32.enc .rne x))
  else (List.range j.kk).map (fun k => FVal.mul (a k) (b k))

/-- The terms as the unit adds them: those of `mma.q` are rounded to FP32 (R124). -/
def MxJob.rounded (j : MxJob) (ts : List FVal) : List FVal :=
  if j.quant then ts.map (fun x => fp32.val (fp32.enc .rne x)) else ts

/-- The units of the accumulator that a finished job writes (R161, R169): keys as given, free values
from `fr`. -/
def MxJob.result (j : MxJob) (key : Nat → Nat → Nat) (fr : Nat) (u : Nat → BitVec 32) :
    List (Nat × BitVec 32) :=
  (List.range j.mm).flatMap (fun r => (List.range j.nn).map (fun c =>
    (key r c,
      if j.loads then u (rowAt j.base j.stride r + 4 * c)
      else
        let old := j.c.getD (r * j.nn + c) 0#32
        if j.kk = 0 then old
        else accumulate (Config.freeAccumulate ((fr + 1) * 2 ^ 64 + 128 * r + c))
          (fp32.val old.toNat) (j.rounded (j.terms u r c)) (j.terms u r c))))

/-! ### Common parts of the slot -/

/-- An MX operation is in flight or held (R157, R375). -/
def Sched.hasMx (sc : Sched) : Bool := sc.mx.isSome || !sc.liveTails.isEmpty || sc.pipe.any (fun p => p.kind = 8)

/-- An MX operation: kernel checks, guard, occupancy hold (R166), wait field (R84), and the restriction of
a handler (R375). -/
def mxSlot (i : Instr) (f : MF) (k : Sem) : Sem :=
  treadSlot i (guarded f.g (waitsOn (fun s => s.me.sched.mx.isSome || !waitHolds f.ws s.me) (fun s =>
    if s.me.ctl.held.any Sched.hasMx then s.illegal 9 else k s)))

/-- A Vat tread (R166). -/
def Hart.isVat (h : Hart) : Bool := 8 ≤ h.place.chip

/-- Occupancy and latency of an MX instruction on this tread (R166). -/
def mxTime (press vat : Nat × Nat) (h : Hart) : Nat × Nat := if h.isVat then vat else press

/-- `MSH`'s fields M, N, K (R158). -/
def Hart.shape (h : Hart) : Nat × Nat × Nat := (wbits 6 0 h.spr.msh, wbits 23 16 h.spr.msh, wbits 31 24 h.spr.msh)

/-- Occupies the unit and leaves the result in flight (R166); the signal lands with it (R84). -/
def State.mxIssue (t : Nat × Nat) (kind reg : Nat) (release : Bool) (tile : Option Nat)
    (job : Option MxJob) (effs : Option (List Eff)) (s : State) : State :=
  s.modMe (fun h =>
    let o : MxOp :=
      { seq := h.iss.seq, left := t.1, done := 0, release := release, origin := h.ctl.pc, tile := tile, job := job }
    let h := { h with sched := { h.sched with mx := some o } }
    (h.push t.2 kind reg effs).setOut .ok)

/-- A later write of accumulator units in flight outlives an earlier one that would land after it (R165). -/
def Hart.outlive (L : Nat) (ks : Nat → Bool) (h : Hart) : Hart :=
  { h with sched := { h.sched with pipe := h.sched.pipe.map (fun p =>
    if p.kind = 8 ∧ L < p.left then
      { p with effs := p.effs.map (List.map (fun e => match e with
        | .space false ws => .space false (ws.filter (fun w => !ks w.1))
        | e => e)) }
    else p) } }

/-- The element of an accumulator as an MX multiplication chains it (R164, R165): the result of the
latest-issued MX write to it in flight, otherwise the register. -/
def Hart.chainVal (h : Hart) (k : Nat) : BitVec 32 :=
  let hits := h.sched.pipe.filterMap (fun p =>
    if p.kind = 8 then
      (p.effs.getD []).findSome? (fun e => match e with
        | .space false ws => (ws.find? (fun w => w.1 = k)).map (·.2)
        | _ => none)
    else none)
  hits.getLast?.getD (NMap.get 0#32 k h.regs.space)

/-- The accumulator units (i, j) with i < m and j < n. -/
def Hart.accKeys (h : Hart) (ac m n : Nat) : List Nat :=
  (List.range m).flatMap (fun i => (List.range n).map (fun j => h.aKey ac i j))

/-! ### Vault operands (R159, R160, R167, R169) -/

/-- The first offset of a range that R183 or R282 forbids in a vault. -/
def Hub.firstBad (hb : Hub) (p : Place) (off len : Nat) : Option Nat :=
  if len = 0 then none
  else
    let size := vaultSize p.chip
    let bad := (banksOf p.chip off len).find? (fun b => !hb.bankHeld (bankKey p b))
    match bad with
    | some b => some (Nat.max off (b * bankSize p.chip))
    | none => if size < off + len then some (Nat.max off size) else none

/-- The aligned units that a range of a vault covers. -/
def unitsOf (off len : Nat) : List Nat :=
  if len = 0 then [] else (List.range ((off % 4 + len + 3) / 4)).map (fun k => (off / 4 + k) * 4)

/-- The value of an aligned unit of a vault as an MX operand of the hart (R167): its own stores issued
before `lim` are seen. -/
def Hart.vaultUnit (h : Hart) (lim : Nat) (m : NMap Byte) (pa : Nat) : BitVec 32 :=
  BitVec.ofNat 32 (leBytes ((List.range 4).map (fun k => h.vaultByte lim m (pa + k))))

/-- Goes on with the aperture base of a vault and the ranges given by offset from a base address that
names it, or takes the vault access fault at the first address that is outside (R167, R169): the first in the order of
the ranges. (DEDUCED: log entry 100.) -/
def inVaultRanges (base : Nat) (ranges : List (Nat × Nat)) (k : Nat → Sem) : Sem := fun s =>
  match s.vaultTarget base with
  | none => s.vaultFault base
  | some (t, _) =>
    let off := base % 2 ^ 23
    match ranges.findSome? (fun r => (s.hub.firstBad t.place ((off + r.1) % 2 ^ 57) r.2)) with
    | some b => s.vaultFault ((base - off + b) % 2 ^ 57)
    | none => k (apertureBase t.place.chip t.place.pos + off) s

/-- The snapshot of the aligned units that ranges cover, at issue. -/
def State.snapshot (at_ : Nat) (ranges : List (Nat × Nat)) (s : State) : List (Nat × BitVec 32) :=
  let us := (ranges.flatMap (fun r => unitsOf ((at_ + r.1) % 2 ^ 57) r.2)).eraseDups
  us.map (fun u => (u, s.me.vaultUnit s.me.iss.seq s.hub.mem u))

/-! ### The instructions -/

/-- An operand map (R159). -/
def Hart.omap (h : Hart) (n : Nat) : OMap := NMap.get { base := 0, desc := 0 } n h.units.om

/-- The ranges of B and of the records that a multiplication reads, by offset from the map's base
(R160). With M = 0 no row of B is read, and with N = 0 the records of A still are. (DEDUCED: log entry 100.) -/
def mmaRanges (fmt : Nat) (quant : Bool) (g m n k stride asOff bsOff : Nat) : List (Nat × Nat) :=
  let w := codeWidth (mxCode fmt)
  let b := (List.range k).map (fun r => (r * stride, (n * w + 7) / 8))
  let b := if m = 0 ∨ n = 0 then [] else b
  if quant then
    let gs := List.range (k / Nat.min g (kMax fmt))
    b ++ (List.range m).flatMap (fun i => gs.map (fun q => (asOff + 4 * (4 * i + q), 4)))
      ++ gs.map (fun q => (bsOff + 512 * q, 4 * n))
  else if fmt = 4 then
    let bs := List.range (k / 32)
    b ++ (List.range m).flatMap (fun i => bs.map (fun q => (asOff + 4 * i + q, 1)))
      ++ bs.map (fun q => (bsOff + 128 * q, n))
  else b

/-- The A operand of a multiplication (R161): the latch, where it is full, or a tile. -/
def Hart.operandA (f : MF) (h : Hart) : Option (List (BitVec 32)) :=
  if f.ta = 8#4 then h.units.latch
  else some ((List.range 1024).map (fun q => NMap.get 0#32 (h.tBase + 1024 * f.ta.toNat + q) h.regs.space))

/-- The state violations of a multiplication that no descriptor decides (R18, R163, R171, R174). -/
def mmaBad (f : MF) (h : Hart) : Bool :=
  let fmt := f.fmt.toNat
  let (m, n, k) := h.shape
  64 < m || 128 < n || kMax fmt < k || (fmt = 4 && k % 32 ≠ 0) || (h.operandA f).isNone
    || !(h.omap f.om.toNat).desc.getLsbD 63 || (h.accKeys f.ac.toNat m n).any h.shadowKey

/-- A contraction length that the group size of a descriptor forbids (R163): where G exceeds `Kmax`, the table asks for
K = `Kmax`, which the model asks of K = 0 too, though the text calls that legal. (DEDUCED: log entry 116.) -/
def groupBad (fmt g k : Nat) : Bool :=
  k % Nat.min g (kMax fmt) ≠ 0 || (kMax fmt < g && k ≠ kMax fmt)

/-- Both multiplications once their group size is known (R161, R163, R166, R167, R171). -/
def mmaCore (quant : Bool) (g : Nat) (f : MF) : Sem := fun s =>
  let h := s.me
  let fmt := f.fmt.toNat
  let (m, n, k) := h.shape
  let useLatch := f.ta = 8#4
  let om := h.omap f.om.toNat
  let tb := h.tBase + 1024 * f.ta.toNat
  let keys := h.accKeys f.ac.toNat m n
  match h.operandA f with
  | none => s.illegal 9
  | some a =>
    if mmaBad f h || (quant && groupBad fmt g k) then s.illegal 9
    else
      let base := om.base.toNat % 2 ^ 57
      let stride := wbits 15 0 om.desc
      let asOff := 128 * wbits 47 32 om.desc
      let bsOff := 128 * wbits 31 16 om.desc
      let rs := mmaRanges fmt quant g m n k stride asOff bsOff
      inVaultRanges base rs (fun at_ s =>
        let h := s.me
        let t := mxTime (32, 40) (256, 264) h
        let job : MxJob :=
          { seq := h.iss.seq, loads := false, ac := f.ac.toNat, fmt := fmt, mm := m, nn := n, kk := k,
            grp := g, quant := quant, base := at_, stride := stride, asAt := at_ + asOff,
            bsAt := at_ + bsOff, units := s.snapshot at_ rs, sig := sigOpt f.ws, a := a,
            c := keys.map h.chainVal }
        let s := s.mxIssue t 8 f.ac.toNat (useLatch && !f.keep) (if useLatch then none else some tb)
          (some job) none
        .next (s.modMe (fun h => { h with
          units := { h.units with latch := if f.keep then some a else h.units.latch } }))) s

/-- `mma` (R161). -/
def execMma (f : MF) : Sem := mxSlot (.mma f) f (mmaCore false 0 f)

/-- `mma.q` (R161, R162): the state violations that no descriptor decides come first (R373), then the descriptor in
sa, then that in sb; where the entries differ in GSIZE, `TADDR` names that of sb. (DEDUCED: log entry 117.) -/
def execMmaQ (f : MF) : Sem :=
  mxSlot (.mmaQ f) f (fun s =>
   if mmaBad f s.me then s.illegal 9
   else
    let ia := s.me.regs.sReg f.a
    let ib := s.me.regs.sReg f.b
    let want := if f.fmt = 6#4 then 8 else 9
    withTdt ia (fun ta s =>
      if ta.fmt ≠ want then s.descFault ia 0
      else withTdt ib (fun tb s =>
        if tb.fmt ≠ want ∨ tb.group ≠ ta.group then s.descFault ib 0
        else mmaCore true ta.group f s) s) s)

/-- `acc.clr` (R169). -/
def execAccClr (f : MF) : Sem :=
  mxSlot (.accClr f) f (fun s =>
    let keys := s.me.accKeys f.ac.toNat 64 128
    if keys.any s.me.shadowKey then s.illegal 9
    else
      let base := s.me.aKey f.ac.toNat 0 0
      let s := s.modMe (Hart.outlive 2 (fun k => base ≤ k && k < base + 8192))
      .next (s.mxIssue (1, 2) 8 f.ac.toNat false none none
        (some (.space false (keys.map (fun k => (k, 0#32))) :: sigEffs f.ws))))

/-- The checks on the address and the stride of `acc.ld` and `acc.st`, with the shape (R163, R169). -/
def accAddrBad (sa sb : Nat) (h : Hart) : Bool :=
  64 < h.shape.1 || 128 < h.shape.2.1 || !inVault sa || sa % 16 ≠ 0 || sb % 16 ≠ 0

/-- The rows that `acc.ld` and `acc.st` move, by offset. -/
def accRows (sb m n : Nat) : List (Nat × Nat) := (List.range m).map (fun i => (i * sb, 4 * n))

/-- `acc.ld` (R169). -/
def execAccLd (f : MF) : Sem :=
  mxSlot (.accLd f) f (fun s =>
    let h := s.me
    let sa := (h.regs.sReg f.a).toNat % 2 ^ 57
    let sb := (h.regs.sReg f.b).toNat
    let (m, n, _) := h.shape
    let keys := h.accKeys f.ac.toNat m n
    if accAddrBad sa sb h || keys.any h.shadowKey then s.illegal 9
    else inVaultRanges sa (accRows sb m n) (fun at_ s =>
      let job : MxJob :=
        { seq := s.me.iss.seq, loads := true, ac := f.ac.toNat, fmt := 0, mm := m, nn := n, kk := 0,
          grp := 0, quant := false, base := at_, stride := sb, asAt := 0, bsAt := 0,
          units := s.snapshot at_ (accRows sb m n), sig := sigOpt f.ws, a := [], c := [] }
      .next (s.mxIssue (mxTime (32, 40) (64, 72) s.me) 8 f.ac.toNat false none (some job) none)) s)

/-- `acc.st` (R169): the elements as read at issue; each row's bytes are in the vault by the end of the
latency, from a free cycle of it on. (DESIGN CHOICE: log entry 22.) -/
def execAccSt (f : MF) : Sem :=
  mxSlot (.accSt f) f (fun s =>
    let h := s.me
    let sa := (h.regs.sReg f.a).toNat % 2 ^ 57
    let sb := (h.regs.sReg f.b).toNat
    let (m, n, _) := h.shape
    if accAddrBad sa sb h then s.illegal 9
    else inVaultRanges sa (accRows sb m n) (fun at_ s =>
      let t := mxTime (32, 40) (64, 72) s.me
      let row (i : Nat) : List Byte := (List.range n).flatMap (fun j =>
        toBytes 4 (NMap.get 0#32 (s.me.aKey f.ac.toNat i j) s.me.regs.space).toNat)
      let s := s.mxIssue t 8 f.ac.toNat false none none (some (sigEffs f.ws))
      .next ((List.range m).foldl (fun s i =>
        let (x, s) := s.fresh
        s.modMe (fun h => h.push (1 + x % t.2) 0 0 (some [.vault h.iss.seq (rowAt at_ sb i) (row i)]))) s)) s)

/-- The destination format of `acc.cvt` (R170). -/
def cvtCode (fmt : Nat) : Nat := mxCode fmt

/-- `acc.cvt` (R170). -/
def execAccCvt (f : MF) : Sem :=
  mxSlot (.accCvt f) f (fun s =>
    let h := s.me
    let (m, n, _) := h.shape
    let code := cvtCode f.fmt.toNat
    let w := codeWidth code
    let c := 512 / w
    let tiles := 128 / c
    let elem (i j : Nat) : Nat :=
      if i < m ∧ j < n then
        codeEnc code .rne (fp32.val (NMap.get 0#32 (h.aKey f.ac.toNat i j) h.regs.space).toNat)
      else 0
    let ws := (List.range tiles).flatMap (fun t => (List.range 64).flatMap (fun i =>
      (List.range 16).map (fun q =>
        (h.tBase + 1024 * (f.ta.toNat + t) + 16 * i + q,
          packLane w (fun l => elem i (t * c + l)) q))))
    if 64 < m ∨ 128 < n ∨ (ws.map (·.1)).any h.shadowKey then s.illegal 9
    else .next (s.mxIssue (mxTime (16, 20) (32, 36) h) 6 f.ta.toNat false none none
      (some (.space false ws :: sigEffs f.ws))))

/-- `latch.rel` (R169). -/
def execLatchRel (f : MF) : Sem :=
  mxSlot (.latchRel f) f (fun s =>
    .next ((s.mxIssue (1, 1) 8 0 false none none (some (sigEffs f.ws))).modMe (fun h =>
      { h with units := { h.units with latch := none } })))

/-- `om.set` (R159). -/
def execOmSet (f : MF) : Sem :=
  mxSlot (.omSet f) f (fun s =>
    let sa := s.me.regs.sReg f.a
    let sb := s.me.regs.sReg f.b
    let base := sa.toNat % 2 ^ 57
    let v := sb.getLsbD 63
    let done : State := (s.mxIssue (1, 1) 8 0 false none none (some (sigEffs f.ws))).modMe (fun h =>
      { h with units := { h.units with
        om := NMap.put { base := 0, desc := 0 } f.om.toNat { base := sa, desc := sb } h.units.om } })
    if !v then .next done
    else if wbits 62 48 sb ≠ 0 ∨ wbits 15 0 sb % 64 ≠ 0 ∨ !inVault base ∨ base % 64 ≠ 0 then s.illegal 9
    else match s.vaultTarget base with
      | none => s.vaultFault base
      | some (t, _) =>
        if vaultSize t.place.chip ≤ base % 2 ^ 23 then s.vaultFault base else .next done)

end Sys2Proof.Machine
end

