-- ==== Sys2Proof/Machine/Scalar.lean ====
section
/-! DEFINITION. The scalar instructions of SA and SB, rows 0 to 12 (R133 to R141). -/

namespace Sys2Proof.Machine

/-- A register-form integer instruction: result of A and B after `L` cycles (R134). -/
def alu (L : Nat) (op : Word → Word → Word) (f : SR) : Sem :=
  guarded f.gk.g (fun s => s.writeD L f.ud f.d (op (s.me.srcA f.ua f.a) (s.me.regs.sReg f.b)))

/-- An immediate-form integer instruction (R135). -/
def aluI (L : Nat) (op : Word → Word → Word) (f : SI) : Sem :=
  guarded f.gk.g (fun s => .next (s.writeS L f.d (op (s.me.regs.sReg f.a) (imm8 f))))

/-- A compare of registers (R139). -/
def cmpR (p : Word → Word → Bool) (f : SR) : Sem :=
  guarded f.gk.g (fun s => .next (s.writeP 1 f.d (p (s.me.srcA f.ua f.a) (s.me.regs.sReg f.b))))

/-- A compare with an immediate (R139). -/
def cmpI (p : Word → Word → Bool) (f : SI) : Sem :=
  guarded f.gk.g (fun s => .next (s.writeP 1 f.d (p (s.me.regs.sReg f.a) (imm8 f))))

/-- A predicate operation (R139). -/
def predOp (p : Bool → Bool → Bool) (f : SR) : Sem :=
  guarded f.gk.g (fun s => .next (s.writeP 1 f.d
    (p (s.me.regs.pReg (BitVec.ofNat 3 f.a.toNat)) (s.me.regs.pReg (BitVec.ofNat 3 f.b.toNat)))))

/-- The shift count of an operand (R135). -/
def shCount (b : Word) : Nat := b.toNat % 64

/-- Division truncating toward zero; a zero divisor gives −1 (R136). -/
def divS (a b : Word) : Word := if b = 0 then BitVec.allOnes 64 else BitVec.ofInt 64 (a.toInt.tdiv b.toInt)
/-- Unsigned division (R136). -/
def divU (a b : Word) : Word := if b = 0 then BitVec.allOnes 64 else a / b
/-- Signed remainder, with the sign of the dividend (R136). -/
def remS (a b : Word) : Word := if b = 0 then a else BitVec.ofInt 64 (a.toInt.tmod b.toInt)
/-- Unsigned remainder (R136). -/
def remU (a b : Word) : Word := if b = 0 then a else a % b

/-- The field position of a bit-field instruction (R137). -/
def bfPos (b : Word) : Nat := wbits 5 0 b
/-- The field width of a bit-field instruction (R137). -/
def bfWidth (b : Word) : Nat := wbits 13 8 b + 1

/-- `bfxu` (R137). -/
def bfxuVal (a b : Word) : Word := BitVec.ofNat 64 (a.toNat / 2 ^ bfPos b % 2 ^ bfWidth b)

/-- `bfx` (R137). -/
def bfxVal (a b : Word) : Word :=
  BitVec.ofInt 64 (signedOf (bfWidth b) (a.sshiftRight (bfPos b)).toNat)

/-- `bfi` (R137): bits of the field above bit 63 are dropped. -/
def bfiVal (a b d : Word) : Word :=
  let p := bfPos b
  let hi := Nat.min (p + bfWidth b) 64
  setBits (hi - 1) p a.toNat d

/-- The count of leading zero bits; 64 for 0 (R138). -/
def clzVal (a : Word) : Word :=
  BitVec.ofNat 64 (if a = 0 then 64 else 63 - Nat.log2 a.toNat)

/-- The count of trailing zero bits; 64 for 0 (R138). -/
def ctzVal (a : Word) : Word := BitVec.ofNat 64 ((lowestBit a.toNat 64).getD 64)

/-- The eight bytes reversed (R138). -/
def bswapVal (a : Word) : Word := BitVec.ofNat 64 (leBytes (toBytes 8 a.toNat).reverse)

/-- A floating instruction of a format, FP32 results zero-extended (R133, R140). -/
def fpOp (F : Fmt) (L : Nat) (op : FVal → FVal → FVal) (f : SR) : Sem :=
  guarded f.gk.g (fun s => .next (s.writeS L f.d (BitVec.ofNat 64 (F.enc .rne
    (op (F.val (s.me.regs.sReg f.a).toNat) (F.val (s.me.regs.sReg f.b).toNat))))))

/-- `ffma` (R140): the destination is the addend. -/
def ffmaOp (F : Fmt) (L : Nat) (f : SR) : Sem :=
  guarded f.gk.g (fun s => .next (s.writeS L f.d (BitVec.ofNat 64 (F.enc .rne
    (FVal.fma .rne (F.val (s.me.regs.sReg f.a).toNat) (F.val (s.me.regs.sReg f.b).toNat)
      (F.val (s.me.regs.sReg f.d).toNat))))))

/-- A floating compare (R140). -/
def fcmpOp (F : Fmt) (p : FVal → FVal → Bool) (f : SR) : Sem :=
  guarded f.gk.g (fun s => .next (s.writeP 2 f.d
    (p (F.val (s.me.regs.sReg f.a).toNat) (F.val (s.me.regs.sReg f.b).toNat))))

/-- A conversion to a signed or unsigned 64-bit integer (R116, R141). -/
def toI64 (signed : Bool) (rm : RM) (v : FVal) : Word :=
  BitVec.ofInt 64 (if signed then v.toInt rm (-(2 ^ 63 : Nat)) ((2 ^ 63 : Nat) - 1)
    else v.toInt rm 0 ((2 ^ 64 : Nat) - 1))

/-- The conversions of `fcvt` by code (R141). -/
def fcvtVal (code : Nat) (a : Word) : Word :=
  let n := a.toNat
  let w (x : Nat) : Word := BitVec.ofNat 64 x
  match code with
  | 0 => w (fp32.enc .rne (fp64.val n))
  | 1 => w (fp64.enc .rne (fp32.val n))
  | 2 => w (fp32.enc .rne (.ofInt a.toInt))
  | 3 => w (fp32.enc .rne (.ofInt n))
  | 4 => w (fp64.enc .rne (.ofInt a.toInt))
  | 5 => w (fp64.enc .rne (.ofInt n))
  | 6 => toI64 true .rz (fp32.val n)
  | 7 => toI64 false .rz (fp32.val n)
  | 8 => toI64 true .rz (fp64.val n)
  | 9 => toI64 false .rz (fp64.val n)
  | 10 => toI64 true .rne (fp32.val n)
  | 11 => toI64 true .rne (fp64.val n)
  | 12 => w (fp32.enc .rne (fp16.val n))
  | 13 => w (fp16.enc .rne (fp32.val n))
  | 14 => w (fp32.enc .rne (bf16.val n))
  | _ => w (bf16.enc .rne (fp32.val n))

/-- `add` (R135). -/
def execAdd (f : SR) : Sem := alu 1 (fun a b => a + b) f

/-- `sub` (R135). -/
def execSub (f : SR) : Sem := alu 1 (fun a b => a - b) f

/-- `and` (R135). -/
def execAnd (f : SR) : Sem := alu 1 (fun a b => a &&& b) f

/-- `or` (R135). -/
def execOr (f : SR) : Sem := alu 1 (fun a b => a ||| b) f

/-- `xor` (R135). -/
def execXor (f : SR) : Sem := alu 1 (fun a b => a ^^^ b) f

/-- `shl` (R135). -/
def execShl (f : SR) : Sem := alu 1 (fun a b => a <<< shCount b) f

/-- `shr` (R135). -/
def execShr (f : SR) : Sem := alu 1 (fun a b => a >>> shCount b) f

/-- `sra` (R135). -/
def execSra (f : SR) : Sem := alu 1 (fun a b => a.sshiftRight (shCount b)) f

/-- `mul` (R135). -/
def execMul (f : SR) : Sem := alu 3 (fun a b => a * b) f

/-- `mulhs` (R135): bits [127:64] of the signed product. -/
def execMulhs (f : SR) : Sem := alu 3 (fun a b => BitVec.ofInt 64 (a.toInt * b.toInt / 2 ^ 64)) f

/-- `mulhu` (R135). -/
def execMulhu (f : SR) : Sem := alu 3 (fun a b => BitVec.ofNat 64 (a.toNat * b.toNat / 2 ^ 64)) f

/-- `div` (R136). -/
def execDiv (f : SR) : Sem := alu 20 divS f

/-- `divu` (R136). -/
def execDivu (f : SR) : Sem := alu 20 divU f

/-- `rem` (R136). -/
def execRem (f : SR) : Sem := alu 20 remS f

/-- `remu` (R136). -/
def execRemu (f : SR) : Sem := alu 20 remU f

/-- `mov` (R138). -/
def execMov (f : SR) : Sem := alu 1 (fun a _ => a) f

/-- `min` (R135). -/
def execMin (f : SR) : Sem := alu 1 (fun a b => if a.slt b then a else b) f

/-- `max` (R135). -/
def execMax (f : SR) : Sem := alu 1 (fun a b => if a.slt b then b else a) f

/-- `minu` (R135). -/
def execMinu (f : SR) : Sem := alu 1 (fun a b => if a.ult b then a else b) f

/-- `maxu` (R135). -/
def execMaxu (f : SR) : Sem := alu 1 (fun a b => if a.ult b then b else a) f

/-- `bfx` (R137). -/
def execBfx (f : SR) : Sem := alu 1 bfxVal f

/-- `bfxu` (R137). -/
def execBfxu (f : SR) : Sem := alu 1 bfxuVal f

/-- The old value of field D, a scalar or uniform register (R137). -/
def Hart.srcD (h : Hart) (f : SR) : Word :=
  if f.ud then h.regs.gReg (BitVec.ofNat 5 f.d.toNat) else h.regs.sReg f.d

/-- `bfi` (R137): the destination is also a source. -/
def execBfi (f : SR) : Sem :=
  guarded f.gk.g (fun s =>
    s.writeD 1 f.ud f.d (bfiVal (s.me.srcA f.ua f.a) (s.me.regs.sReg f.b) (s.me.srcD f)))

/-- `sel` (R138). -/
def execSel (pn : BitVec 3) (f : SR) : Sem :=
  guarded f.gk.g (fun s =>
    s.writeD 1 f.ud f.d (if s.me.regs.pReg pn then s.me.srcA f.ua f.a else s.me.regs.sReg f.b))

/-- `addi` (R135). -/
def execAddi (f : SI) : Sem := aluI 1 (fun a b => a + b) f

/-- `andi` (R135). -/
def execAndi (f : SI) : Sem := aluI 1 (fun a b => a &&& b) f

/-- `ori` (R135). -/
def execOri (f : SI) : Sem := aluI 1 (fun a b => a ||| b) f

/-- `xori` (R135). -/
def execXori (f : SI) : Sem := aluI 1 (fun a b => a ^^^ b) f

/-- `shli` (R135). -/
def execShli (f : SI) : Sem := aluI 1 (fun a b => a <<< shCount b) f

/-- `shri` (R135). -/
def execShri (f : SI) : Sem := aluI 1 (fun a b => a >>> shCount b) f

/-- `srai` (R135). -/
def execSrai (f : SI) : Sem := aluI 1 (fun a b => a.sshiftRight (shCount b)) f

/-- `muli` (R135). -/
def execMuli (f : SI) : Sem := aluI 3 (fun a b => a * b) f

/-- `movi` (R138). -/
def execMovi (f : SU) : Sem :=
  guarded f.gk.g (fun s => .next (s.writeS 1 f.d (f.imm.signExtend 64)))

/-- `movsh` (R138): the destination is also a source. -/
def execMovsh (f : SU) : Sem :=
  guarded f.gk.g (fun s =>
    .next (s.writeS 1 f.d (s.me.regs.sReg f.d <<< 14 + f.imm.zeroExtend 64)))

/-- `clz` (R138). -/
def execClz (f : SR) : Sem := alu 1 (fun a _ => clzVal a) f

/-- `ctz` (R138). -/
def execCtz (f : SR) : Sem := alu 1 (fun a _ => ctzVal a) f

/-- `popc` (R138). -/
def execPopc (f : SR) : Sem := alu 1 (fun a _ => BitVec.ofNat 64 (popCount a)) f

/-- `bswap` (R138). -/
def execBswap (f : SR) : Sem := alu 1 (fun a _ => bswapVal a) f

/-- `cmp.eq` (R139). -/
def execCmpEq (f : SR) : Sem := cmpR cmpEq f

/-- `cmp.ne` (R139). -/
def execCmpNe (f : SR) : Sem := cmpR (fun a b => !cmpEq a b) f

/-- `cmp.lt` (R139). -/
def execCmpLt (f : SR) : Sem := cmpR cmpLt f

/-- `cmp.le` (R139). -/
def execCmpLe (f : SR) : Sem := cmpR cmpLe f

/-- `cmp.ltu` (R139). -/
def execCmpLtu (f : SR) : Sem := cmpR cmpLtu f

/-- `cmp.leu` (R139). -/
def execCmpLeu (f : SR) : Sem := cmpR cmpLeu f

/-- `cmpi.eq` (R139). -/
def execCmpiEq (f : SI) : Sem := cmpI cmpEq f

/-- `cmpi.ne` (R139). -/
def execCmpiNe (f : SI) : Sem := cmpI (fun a b => !cmpEq a b) f

/-- `cmpi.lt` (R139). -/
def execCmpiLt (f : SI) : Sem := cmpI cmpLt f

/-- `cmpi.le` (R139). -/
def execCmpiLe (f : SI) : Sem := cmpI cmpLe f

/-- `cmpi.ltu` (R139). -/
def execCmpiLtu (f : SI) : Sem := cmpI cmpLtu f

/-- `cmpi.leu` (R139). -/
def execCmpiLeu (f : SI) : Sem := cmpI cmpLeu f

/-- `pand` (R139). -/
def execPand (f : SR) : Sem := predOp (fun a b => a && b) f

/-- `por` (R139). -/
def execPor (f : SR) : Sem := predOp (fun a b => a || b) f

/-- `pxor` (R139). -/
def execPxor (f : SR) : Sem := predOp (fun a b => a ^^ b) f

/-- `pnot` (R139). -/
def execPnot (f : SR) : Sem := predOp (fun a _ => !a) f

/-- `fadd.f32` (R140). -/
def execFaddF32 (f : SR) : Sem := fpOp fp32 4 (FVal.add .rne) f

/-- `fsub.f32` (R140). -/
def execFsubF32 (f : SR) : Sem := fpOp fp32 4 (fun a b => FVal.add .rne a b.negate) f

/-- `fmul.f32` (R140). -/
def execFmulF32 (f : SR) : Sem := fpOp fp32 4 FVal.mul f

/-- `ffma.f32` (R140). -/
def execFfmaF32 (f : SR) : Sem := ffmaOp fp32 4 f

/-- `fdiv.f32` (R140). -/
def execFdivF32 (f : SR) : Sem := fpOp fp32 12 FVal.div f

/-- `fsqrt.f32` (R140). -/
def execFsqrtF32 (f : SR) : Sem := fpOp fp32 12 (fun a _ => a.sqrt) f

/-- `fmin.f32` (R140). -/
def execFminF32 (f : SR) : Sem := fpOp fp32 4 FVal.minimum f

/-- `fmax.f32` (R140). -/
def execFmaxF32 (f : SR) : Sem := fpOp fp32 4 FVal.maximum f

/-- `fadd.f64` (R140). -/
def execFaddF64 (f : SR) : Sem := fpOp fp64 6 (FVal.add .rne) f

/-- `fsub.f64` (R140). -/
def execFsubF64 (f : SR) : Sem := fpOp fp64 6 (fun a b => FVal.add .rne a b.negate) f

/-- `fmul.f64` (R140). -/
def execFmulF64 (f : SR) : Sem := fpOp fp64 6 FVal.mul f

/-- `ffma.f64` (R140). -/
def execFfmaF64 (f : SR) : Sem := ffmaOp fp64 6 f

/-- `fdiv.f64` (R140). -/
def execFdivF64 (f : SR) : Sem := fpOp fp64 24 FVal.div f

/-- `fsqrt.f64` (R140). -/
def execFsqrtF64 (f : SR) : Sem := fpOp fp64 24 (fun a _ => a.sqrt) f

/-- `fmin.f64` (R140). -/
def execFminF64 (f : SR) : Sem := fpOp fp64 6 FVal.minimum f

/-- `fmax.f64` (R140). -/
def execFmaxF64 (f : SR) : Sem := fpOp fp64 6 FVal.maximum f

/-- `fcmp.eq.f32` (R140). -/
def execFcmpEqF32 (f : SR) : Sem := fcmpOp fp32 fEq f

/-- `fcmp.lt.f32` (R140). -/
def execFcmpLtF32 (f : SR) : Sem := fcmpOp fp32 fLt f

/-- `fcmp.le.f32` (R140). -/
def execFcmpLeF32 (f : SR) : Sem := fcmpOp fp32 fLe f

/-- `fcmp.un.f32` (R140). -/
def execFcmpUnF32 (f : SR) : Sem := fcmpOp fp32 fUn f

/-- `fcmp.eq.f64` (R140). -/
def execFcmpEqF64 (f : SR) : Sem := fcmpOp fp64 fEq f

/-- `fcmp.lt.f64` (R140). -/
def execFcmpLtF64 (f : SR) : Sem := fcmpOp fp64 fLt f

/-- `fcmp.le.f64` (R140). -/
def execFcmpLeF64 (f : SR) : Sem := fcmpOp fp64 fLe f

/-- `fcmp.un.f64` (R140). -/
def execFcmpUnF64 (f : SR) : Sem := fcmpOp fp64 fUn f

/-- `fcvt` (R141). -/
def execFcvt (f : SR) : Sem :=
  guarded f.gk.g (fun s => .next (s.writeS 4 f.d (fcvtVal f.b.toNat (s.me.regs.sReg f.a))))

end Sys2Proof.Machine
end

