-- ==== Sys2Proof/Machine/Vector.lean ====
section
/-! DEFINITION. The vector slot but for the generator and `accept` (R142 to R153). -/

namespace Sys2Proof.Machine

/-- The least and the greatest integer of an element type, signed or unsigned (R107). -/
def intRange (uns : Bool) (w : Nat) : Int × Int :=
  if uns then (0, (2 ^ w : Nat) - 1) else (-(2 ^ (w - 1) : Nat), (2 ^ (w - 1) : Nat) - 1)

/-- An element read as an integer (R107). -/
def intElem (uns : Bool) (w x : Nat) : Int := if uns then (x % 2 ^ w : Nat) else signedOf w x

end Sys2Proof.Machine

namespace Sys2Proof

/-- The element width of a VA type code (R95). -/
def VF.width (f : VF) : Nat := if f.t = 0#3 ∨ f.t = 4#3 then 32 else if f.t = 6#3 then 8 else 16

/-- The floating format of a VA type code. -/
def VF.fmt (f : VF) : Machine.Fmt := if f.t = 0#3 then Machine.fp32 else if f.t = 1#3 then Machine.fp16 else Machine.bf16

/-- The rounding mode of field RM. -/
def VF.mode (f : VF) : Machine.RM := Machine.RM.ofCode f.rm

/-- An integer result: saturated or wrapped (R115, R144). -/
def VF.intRes (f : VF) (x : Int) : Nat :=
  let w := f.width
  let r := Machine.intRange f.u w
  Machine.wrapBits w (if f.sat then Machine.saturate r.1 r.2 x else x)

/-- Latency of an instruction that is floating or integer by type (R143). -/
def VF.lat (f : VF) : Nat := if f.isFloat then 4 else 2

end Sys2Proof

namespace Sys2Proof.Machine

/-- A VA slot operation (R30, R82, R103). -/
def vaSlot (i : Instr) (f : VF) (k : Sem) : Sem := treadSlot i (guarded f.g k)

/-- An element-wise instruction of up to three operands: a floating rule and an integer rule. -/
def elementwise (i : Instr) (f : VF) (fl : FVal → FVal → FVal → FVal) (it : Int → Int → Int → Int) :
    Sem :=
  vaSlot i f (fun s =>
    let h := s.me
    let w := f.width
    let rd (r : BitVec 6) (l : Nat) : Nat := h.vElem r.toNat w l
    s.writeElems f.lat f w (fun l =>
      let a := rd f.a l
      let b := rd f.b l
      let c := rd f.c l
      if f.isFloat then
        f.fmt.enc f.mode (fl (f.fmt.val a) (f.fmt.val b) (f.fmt.val c))
      else f.intRes (it (intElem f.u w a) (intElem f.u w b) (intElem f.u w c))))

/-- `vadd` (R144). -/
def execVadd (f : VF) : Sem :=
  elementwise (.vadd f) f (fun a b _ => FVal.add f.mode a b) (fun a b _ => a + b)

/-- `vsub` (R144). -/
def execVsub (f : VF) : Sem :=
  elementwise (.vsub f) f (fun a b _ => FVal.add f.mode a b.negate) (fun a b _ => a - b)

/-- `vmul` (R144). -/
def execVmul (f : VF) : Sem :=
  elementwise (.vmul f) f (fun a b _ => FVal.mul a b) (fun a b _ => a * b)

/-- `vfma` (R144): one rounding. -/
def execVfma (f : VF) : Sem :=
  elementwise (.vfma f) f (fun a b c => FVal.fma f.mode a b c) (fun a b c => a * b + c)

/-- `vmin` (R144). -/
def execVmin (f : VF) : Sem :=
  elementwise (.vmin f) f (fun a b _ => FVal.minimum a b) (fun a b _ => min a b)

/-- `vmax` (R144). -/
def execVmax (f : VF) : Sem :=
  elementwise (.vmax f) f (fun a b _ => FVal.maximum a b) (fun a b _ => max a b)

/-- `vabs` (R144). -/
def execVabs (f : VF) : Sem :=
  elementwise (.vabs f) f (fun a _ _ => a.abs) (fun a _ _ => a.natAbs)

/-- `vneg` (R144). -/
def execVneg (f : VF) : Sem :=
  elementwise (.vneg f) f (fun a _ _ => a.negate) (fun a _ _ => -a)

/-- A bitwise instruction of row 1: the type sets only the width through which the mask acts, which
is always a whole lane (R145). -/
def bitwise (i : Instr) (f : VF) (op : BitVec 32 → BitVec 32 → BitVec 32) : Sem :=
  vaSlot i f (fun s =>
    let h := s.me
    s.writeV 2 f.d (vecWords (h.vBase + 64 * f.d.toNat) (h.regs.mReg f.m) f.z
      (fun l => op (h.vLane f.a.toNat l) (h.vLane f.b.toNat l))))

/-- `vand` (R145). -/
def execVand (f : VF) : Sem := bitwise (.vand f) f (fun a b => a &&& b)
/-- `vor` (R145). -/
def execVor (f : VF) : Sem := bitwise (.vor f) f (fun a b => a ||| b)
/-- `vxor` (R145). -/
def execVxor (f : VF) : Sem := bitwise (.vxor f) f (fun a b => a ^^^ b)
/-- `vnot` (R145). -/
def execVnot (f : VF) : Sem := bitwise (.vnot f) f (fun a _ => ~~~a)
/-- `vmov` (R145). -/
def execVmov (f : VF) : Sem := bitwise (.vmov f) f (fun a _ => a)

/-- `vsel` (R145): every element of a lane follows the lane's bit of mc. -/
def execVsel (f : VF) : Sem :=
  vaSlot (.vsel f) f (fun s =>
    let h := s.me
    let mc := h.regs.mReg (BitVec.ofNat 3 f.c.toNat)
    s.writeV 2 f.d (vecWords (h.vBase + 64 * f.d.toNat) (h.regs.mReg f.m) f.z
      (fun l => if mc.getLsbD l then h.vLane f.a.toNat l else h.vLane f.b.toNat l)))

/-- `vshl` (R145): a count of the width or more gives 0. -/
def execVshl (f : VF) : Sem :=
  vaSlot (.vshl f) f (fun s =>
    let w := f.width
    s.writeElems 2 f w (fun l =>
      let c := s.me.vElem f.b.toNat w l
      if w ≤ c then 0 else s.me.vElem f.a.toNat w l * 2 ^ c % 2 ^ w))

/-- `vshr` (R145): copies of the sign enter, or zeros under `.uns`. -/
def execVshr (f : VF) : Sem :=
  vaSlot (.vshr f) f (fun s =>
    let w := f.width
    s.writeElems 2 f w (fun l =>
      let c := Nat.min (s.me.vElem f.b.toNat w l) w
      wrapBits w (intElem f.u w (s.me.vElem f.a.toNat w l) / (2 ^ c : Nat))))

/-- A vector compare (R146). -/
def vectorCmp (i : Instr) (f : VF) (fl : FVal → FVal → Bool) (it : Int → Int → Bool) : Sem :=
  vaSlot i f (fun s =>
    let h := s.me
    let w := f.width
    let p (l : Nat) : Bool :=
      let a := h.vElem f.a.toNat w l
      let b := h.vElem f.b.toNat w l
      if f.isFloat then fl (f.fmt.val a) (f.fmt.val b) else it (intElem f.u w a) (intElem f.u w b)
    let m := h.regs.mReg f.m
    .next (s.writeMBits 2 f.d (if f.z then BitVec.allOnes 64 else m) (cmpMask 0 m f.z w p)))

/-- `vcmp.eq` (R146). -/
def execVcmpEq (f : VF) : Sem := vectorCmp (.vcmpEq f) f fEq (fun a b => a = b)
/-- `vcmp.ne` (R146): true if either element is NaN. -/
def execVcmpNe (f : VF) : Sem := vectorCmp (.vcmpNe f) f (fun a b => !fEq a b) (fun a b => a ≠ b)
/-- `vcmp.lt` (R146). -/
def execVcmpLt (f : VF) : Sem := vectorCmp (.vcmpLt f) f fLt (fun a b => a < b)
/-- `vcmp.le` (R146). -/
def execVcmpLe (f : VF) : Sem := vectorCmp (.vcmpLe f) f fLe (fun a b => a ≤ b)

/-- A correctly rounded function of one floating element (R147). -/
def transcendental (i : Instr) (f : VF) (g : FVal → FVal) : Sem :=
  vaSlot i f (fun s =>
    let w := f.width
    s.writeElems 12 f w (fun l =>
      f.fmt.enc f.mode (g (f.fmt.val (s.me.vElem f.a.toNat w l)))))

/-- `vrcp` (R147). -/
def execVrcp (f : VF) : Sem := transcendental (.vrcp f) f FVal.rcp
/-- `vrsqrt` (R147). -/
def execVrsqrt (f : VF) : Sem := transcendental (.vrsqrt f) f FVal.rsqrt
/-- `vsqrt` (R147). -/
def execVsqrt (f : VF) : Sem := transcendental (.vsqrt f) f FVal.sqrt
/-- `vexp2` (R147). -/
def execVexp2 (f : VF) : Sem := transcendental (.vexp2 f) f FVal.exp2
/-- `vlog2` (R147). -/
def execVlog2 (f : VF) : Sem := transcendental (.vlog2 f) f FVal.log2
/-- `vtanh` (R147). -/
def execVtanh (f : VF) : Sem := transcendental (.vtanh f) f FVal.tanh
/-- `vsin` (R147). -/
def execVsin (f : VF) : Sem := transcendental (.vsin f) f FVal.sinPi
/-- `vcos` (R147). -/
def execVcos (f : VF) : Sem := transcendental (.vcos f) f FVal.cosPi

/-- `vcvt` (R148): N = 2,048 / max(wS, wD) elements, zeros above them; equal codes copy, a NaN made
canonical. -/
def execVcvt (f : VF) : Sem :=
  vaSlot (.vcvt f) f (fun s =>
    let wd := codeWidth f.b.toNat
    let ws := codeWidth f.c.toNat
    let n := 2048 / Nat.max wd ws
    s.writeElems 4 f wd (fun l =>
      if l < n then codeEnc f.b.toNat f.mode (codeVal f.c.toNat (s.me.vElem f.a.toNat ws l)) else 0))

/-- A group record's scale and zero point, the zero point clamped to its format (R120, R149). -/
def groupRec (code : Nat) (r : Nat) : FVal × Int :=
  (fp16.val r,
    let z := signedOf 8 (r / 2 ^ 16)
    if code = 9 then saturate (-8) 7 z else z)

/-- `vquant` (R149). -/
def execVquant (f : VF) : Sem :=
  vaSlot (.vquant f) f (fun s =>
    let q := f.b.toNat
    let w := codeWidth q
    let isInt := (codeFmt q).isNone
    s.writeElems 4 f w (fun l =>
      if 64 ≤ l then 0
      else
        let (sc, z) := groupRec q (s.me.vLane f.c.toNat l).toNat
        let x := fp32.val (s.me.vLane f.a.toNat l).toNat
        let bad : Bool := match sc with
          | .fin _ n _ => n = 0
          | _ => true
        if bad then (if isInt then wrapBits w z else 0)
        else if isInt then codeEnc q f.mode (FVal.add f.mode (FVal.div x sc) (.ofInt z))
        else codeEnc q f.mode (FVal.div x sc)))

/-- `vdequant` (R149): a NaN or infinite scale with an integer format gives a NaN (R112).
(DEDUCED: log entry 108.) -/
def execVdequant (f : VF) : Sem :=
  vaSlot (.vdequant f) f (fun s =>
    let q := f.b.toNat
    let w := codeWidth q
    s.writeElems 4 f 32 (fun l =>
      let (sc, z) := groupRec q (s.me.vLane f.c.toNat l).toNat
      let e := s.me.vElem f.a.toNat w l
      fp32.enc f.mode (match codeFmt q with
        | some F => FVal.mul sc (F.val e)
        | none => match sc with
          | .fin .. => FVal.mul sc (.ofInt (signedOf w e - z))
          | _ => .nan)))

/-- `vmovi` (R150). -/
def execVmovi (f : VF) : Sem :=
  vaSlot (.vmovi f) f (fun s =>
    let w := f.width
    let v := if f.isFloat then f.fmt.enc f.mode (.ofInt f.imm) else wrapBits w f.imm
    s.writeElems 2 f w (fun _ => v))

/-- One level of the fixed pairwise tree (R151). -/
def pairUp (op : Nat → Nat → Nat) : List Nat → List Nat
  | a :: b :: r => op a b :: pairUp op r
  | l => l

/-- The fixed pairwise tree (R151). -/
def treeSum (op : Nat → Nat → Nat) : Nat → List Nat → Nat
  | 0, l => l.headD 0
  | fuel + 1, l => match l with
    | [x] => x
    | l => treeSum op fuel (pairUp op l)

/-- The active elements of va (R151). -/
def activeElems (h : Hart) (f : VF) : List Nat :=
  ((List.range (2048 / f.width)).filter (fun l => (h.regs.mReg f.m).getLsbD (l * f.width / 32))).map
    (fun l => h.vElem f.a.toNat f.width l)

/-- Writes a reduction's result to element 0 (R151): the rest of the register keeps what it holds when the result
lands, or is zeroed under `.z`. -/
def writeRed (f : VF) (r : Nat) (s : State) : Host.Outcome State Fault Refusal :=
  let h := s.me
  let base := h.vBase + 64 * f.d.toNat
  let w := f.width
  let v := BitVec.ofNat 32 (r % 2 ^ w)
  if f.z then s.writeV 8 f.d ((base, v) :: (List.range 63).map (fun l => (base + 1 + l, 0#32)))
  else if w = 32 then s.writeV 8 f.d [(base, v)]
  else s.writeVBits 8 f.d base (BitVec.ofNat 32 (2 ^ w - 1)) v

/-- `vred.add` (R151). -/
def execVredAdd (f : VF) : Sem :=
  vaSlot (.vredAdd f) f (fun s =>
    let es := activeElems s.me f
    let F := f.fmt
    let r :=
      if f.isFloat then
        -- a lone NaN is written in its canonical form (R106)
        F.enc .rne (F.val (treeSum
          (fun a b => F.enc f.mode (FVal.add f.mode (F.val a) (F.val b))) 9 es))
      else f.intRes ((es.map (intElem f.u f.width)).sum)
    writeRed f r s)

/-- A minimum or maximum over the active elements (R151); `empty` is its value over none. -/
def vectorMinMax (i : Instr) (f : VF) (emptyF : FVal) (emptyI : Int) (fl : FVal → FVal → FVal)
    (it : Int → Int → Int) : Sem :=
  vaSlot i f (fun s =>
    let es := activeElems s.me f
    let F := f.fmt
    let r :=
      if f.isFloat then
        match es.map F.val with
        | [] => F.enc .rne emptyF
        | x :: xs => F.enc .rne (xs.foldl fl x)
      else
        match es.map (intElem f.u f.width) with
        | [] => wrapBits f.width emptyI
        | x :: xs => wrapBits f.width (xs.foldl it x)
    writeRed f r s)

/-- `vred.min` (R151). -/
def execVredMin (f : VF) : Sem :=
  vectorMinMax (.vredMin f) f (.inf false) (intRange f.u f.width).2 FVal.minimum min

/-- `vred.max` (R151). -/
def execVredMax (f : VF) : Sem :=
  vectorMinMax (.vredMax f) f (.inf true) (intRange f.u f.width).1 FVal.maximum max

/-- `vperm` (R152). -/
def execVperm (f : VF) : Sem :=
  vaSlot (.vperm f) f (fun s =>
    let w := f.width
    s.writeElems 2 f w (fun l =>
      s.me.vElem f.a.toNat w (s.me.vElem f.b.toNat w l % (2048 / w))))

/-- `vrot` (R152). -/
def execVrot (f : VF) : Sem :=
  vaSlot (.vrot f) f (fun s =>
    let h := s.me
    s.writeV 2 f.d (vecWords (h.vBase + 64 * f.d.toNat) (h.regs.mReg f.m) f.z
      (fun l => h.vLane f.a.toNat ((l + f.b.toNat) % 64))))

/-- A mask operation (R153): no lane mask is applied. -/
def maskOp (i : Instr) (f : VF) (op : Word → Word → Word) : Sem :=
  vaSlot i f (fun s =>
    let rd (x : BitVec 6) : Word := s.me.regs.mReg (BitVec.ofNat 3 x.toNat)
    .next (s.writeM 1 f.d (op (rd f.a) (rd f.b))))

/-- `mand` (R153). -/
def execMand (f : VF) : Sem := maskOp (.mand f) f (fun a b => a &&& b)
/-- `mor` (R153). -/
def execMor (f : VF) : Sem := maskOp (.mor f) f (fun a b => a ||| b)
/-- `mxor` (R153). -/
def execMxor (f : VF) : Sem := maskOp (.mxor f) f (fun a b => a ^^^ b)
/-- `mandn` (R153). -/
def execMandn (f : VF) : Sem := maskOp (.mandn f) f (fun a b => a &&& ~~~b)
/-- `mnot` (R153). -/
def execMnot (f : VF) : Sem := maskOp (.mnot f) f (fun a _ => ~~~a)

end Sys2Proof.Machine
end

