-- ==== Sys2Proof/Machine/MouldOps.lean ====
section
/-! DEFINITION. The mould, the generator and `accept` (R172 to R180). -/

namespace Sys2Proof.Machine

/-- A CT operation (R82): the guard, then the effect; the kernel checks of R103 apply to its registers. -/
def ctSlot (i : Instr) (g : Guard) (k : Sem) : Sem := kernelOk i (guarded g k)

/-- A unit of one of `c` vector registers from `a` on. -/
def Hart.runKey (h : Hart) (a c k : Nat) : Bool := h.vBase + 64 * a ≤ k && k < h.vBase + 64 * (a + c)

/-- `mould.open` (R173). -/
def execMouldOpen (f : CR) : Sem :=
  ctSlot (.mouldOpen f) f.gk.g (fun s =>
    let h := s.me
    let a := f.a.toNat
    let c := f.imm.toNat + 1
    let base := h.vBase + 64 * a
    if h.units.mould.mode ≠ .closed ∨ h.inFlight (h.runKey a c) then s.illegal 9
    else
      let sh := NMap.putAll 0#32 ((List.range (64 * c)).map (fun k =>
        (base + k, NMap.get 0#32 (base + k) h.regs.space))) []
      .next (s.modMe (fun h => { h.setOut .ok with
        units := { h.units with
          mould := { h.units.mould with mode := .opened, first := a, count := c, shadow := sh } } })))

/-- A write to the shadow is in flight (R175, R179). -/
def Hart.shadowFlight (h : Hart) : Bool :=
  h.units.mould.mode ≠ .closed &&
    h.inFlight (h.runKey h.units.mould.first h.units.mould.count)

/-- `mould.cancel` (R175). -/
def execMouldCancel (f : CN) : Sem :=
  ctSlot (.mouldCancel f) f.gk.g (fun s =>
    match s.me.units.mould.mode with
    | .closed => .next s.ok
    | .closing => s.illegal 9
    | .opened =>
      if s.me.shadowFlight then s.illegal 9
      else .next (s.modMe (fun h => { h.setOut .ok with
        units := { h.units with
          mould := { h.units.mould with mode := .closed, shadow := [] } } })))

/-! ### The generator (R176) -/

/-- One round of Philox-4×32 on four words with two key words. -/
def philoxRound (x : Nat × Nat × Nat × Nat) (k : Nat × Nat) : Nat × Nat × Nat × Nat :=
  let p0 := 0xd2511f53 * x.1
  let p1 := 0xcd9e8d57 * x.2.2.1
  (((p1 / 2 ^ 32) ^^^ x.2.1) ^^^ k.1, p1 % 2 ^ 32, ((p0 / 2 ^ 32) ^^^ x.2.2.2) ^^^ k.2, p0 % 2 ^ 32)

/-- The rounds from `n` on; the key is bumped before every round but the first. -/
def philoxRounds : Nat → Nat × Nat × Nat × Nat → Nat × Nat → Nat × Nat × Nat × Nat
  | 0, x, _ => x
  | n + 1, x, k =>
    philoxRounds n (philoxRound x k)
      ((k.1 + 0x9e3779b9) % 2 ^ 32, (k.2 + 0xbb67ae85) % 2 ^ 32)

/-- Philox-4×32-10 (R176). -/
def philox (x : Nat × Nat × Nat × Nat) (k : Nat × Nat) : Nat × Nat × Nat × Nat := philoxRounds 10 x k

/-- The draw index of a lane. -/
def Hart.drawIndex (h : Hart) (l : Nat) : Nat := (NMap.get 0#64 l h.units.mould.n).toNat

/-- The value that the next draw of a lane gives (R176). -/
def Hart.drawVal (h : Hart) (l : Nat) : Nat :=
  let n := h.drawIndex l
  (philox (n % 2 ^ 32, n / 2 ^ 32, l + 64 * h.rank, wbits 31 0 h.spr.wgi)
    (wbits 31 0 h.spr.rngk, wbits 63 32 h.spr.rngk)).1

/-- The draw indices of the lanes of a mask advance at issue (R176). -/
def Hart.advanceDraws (m : Word) (h : Hart) : Hart :=
  { h with units := { h.units with mould := { h.units.mould with
    n := (lanes m).foldl (fun q l => NMap.put 0#64 l (NMap.get 0#64 l q + 1) q)
      h.units.mould.n } } }

/-- `vrng` (R177). -/
def execVrng (f : VF) : Sem :=
  vaSlot (.vrng f) f (fun s =>
    let h := s.me
    let m := h.regs.mReg f.m
    let mo := h.units.mould
    let draws := f.t = 0#3 ∨ f.t = 4#3
    let v (l : Nat) : BitVec 32 :=
      if f.t = 0#3 then
        BitVec.ofNat 32 (fp32.enc f.mode (.fin false (h.drawVal l + 1) (2 ^ 32)))
      else if f.t = 4#3 then BitVec.ofNat 32 (h.drawVal l)
      else if f.t = 5#3 then NMap.get 0#32 l mo.cA
      else NMap.get 0#32 l mo.cC
    let ws := vecWords (h.vBase + 64 * f.d.toNat) m f.z v
    if h.vecWriteBad f.d.toNat (ws.map (·.1)) then s.illegal 9
    else
      let s := if draws then s.modMe (Hart.advanceDraws m) else s
      s.writeV (if draws then 8 else 2) f.d ws)

/-- Whether a lane's proposal is accepted (R178): `ln u` rounded to FP32 is at most the log-ratio. -/
def acceptLane (w : Nat) (r : FVal) : Bool :=
  let lam := fp32.val (fp32.enc .rne (lnPos (w + 1) (2 ^ 32)))
  fLe lam r

/-- `accept` (R178, R179). -/
def execAccept (f : VF) : Sem :=
  vaSlot (.accept f) f (fun s =>
    let h := s.me
    let m := h.regs.mReg f.m
    let mo := h.units.mould
    if mo.mode ≠ .opened ∨ h.shadowFlight
      ∨ (List.range (64 * mo.count)).any (fun k => h.tileBusy (h.vBase + 64 * mo.first + k)) then
      s.illegal 9
    else
      let ok : Word := BitVec.ofNat 64 ((lanes m).foldl (fun a l =>
        a + (acceptLane (h.drawVal l) (fp32.val (h.vLane f.a.toNat l).toNat)).toNat * 2 ^ l) 0)
      let s := s.modMe (fun h =>
        let h := h.advanceDraws m
        { h with units := { h.units with mould := { h.units.mould with mode := .closing } } })
      .next (s.issue 12 11 f.d.toNat [.m (BitVec.ofNat 3 f.d.toNat) ok, .accept ok m]))

end Sys2Proof.Machine
end

