-- ==== Sys2Proof/Machine/Engine.lean ====
section
/-! DEFINITION. The engine slot (R100, R101, R239 to R248): copies, tile copies, index gathers,
`copy.check`, semaphores, `sig.wr` and network operations. What an accepted operation then does is an
event of the package. -/

namespace Sys2Proof.Machine

/-! ### Common parts -/

/-- An operation that has neither completed nor failed. -/
def EngOp.unfinished (o : EngOp) : Bool :=
  match o.stat with
  | .running | .suspended .. => true
  | _ => false

/-- 1,024 operations are in flight on the tread (R16, R240). -/
def Hart.engFull (h : Hart) : Bool := 1024 ≤ (h.units.eng.filter EngOp.unfinished).length

/-- IDX8 of an EC slot (R100). -/
def ecIdx (f : EF) : Nat := f.b.toNat + 64 * (f.c.toNat % 4)

/-- An EC operation: kernel checks, guard, wait field (R84). -/
def ecSlot (i : Instr) (f : EF) (k : Sem) : Sem :=
  treadSlot i (guarded f.g (waitsOn (fun s => !waitHolds f.ws s.me) k))

/-- An operation of the copy engine: besides the wait, a place in the engine is awaited (R16). -/
def engSlot (i : Instr) (f : EF) (k : Sem) : Sem :=
  ecSlot i f (waitsOn (fun s => s.me.engFull) k)

/-- The first and the last byte of a range (R239). -/
def ends (va len : Nat) : List (Nat × Nat) :=
  if len = 0 then [] else [(va, 1), ((va + len - 1) % 2 ^ 57, 1)]

/-- An operand that is not wholly of the class of its form, by its first and last bytes (R239). -/
def classBad (vault : Bool) (va len : Nat) : Bool :=
  inVault va ≠ vault || (len ≠ 0 && inVault ((va + len - 1) % 2 ^ 57) ≠ vault)

/-- A byte that R183 permits in a vault of the gang, whatever the state of its bank: one that is released or draining
makes the operation fail when it comes to it (R282). -/
def State.vaultByteOk (va : Nat) (s : State) : Bool :=
  inVault va && (match s.vaultTarget va with
    | some (t, _) => va % 2 ^ 23 < vaultSize t.place.chip
    | none => false)

/-- The checks at issue on the ranges that an operation writes and reads (R225, R239, R282, R373). -/
def engChecks (ws rs : List (Nat × Nat)) (k : Sem) : Sem := fun s =>
  let lvl := s.me.level
  let rest (l : List (Nat × Nat)) : List (Nat × Nat) := l.filter (fun r => !s.vaultByteOk r.1)
  match s.pieces .engWrite lvl (rest ws), s.pieces .engRead lvl (rest rs) with
  | .wait w, _ => .next (s.awaitXlat w)
  | .fault x va, _ => s.xlatFault x .engWrite va
  | _, .wait w => .next (s.awaitXlat w)
  | _, .fault x va => s.xlatFault x .engRead va
  | .vault va, _ => s.vaultFault va
  | _, .vault va => s.vaultFault va
  | .ok _, .ok _ => k s

/-- The connection of an operation (R248). -/
def EngKind.conn : EngKind → Option Nat
  | .netPut q | .netGet q => some q
  | _ => none

/-- An unfinished operation of the same partition on a connection was accepted before a place among the acceptances
(R248). (DEDUCED: log entry 60.) -/
def State.netWaits (conn : Option Nat) (turn : Nat) (s : State) : Bool :=
  conn.isSome && s.harts.any (fun h => h.partNo = s.me.partNo && h.units.eng.any (fun x =>
    x.turn < turn && x.unfinished && x.kind.conn = conn))

/-- An operation is accepted (R240): the promise, a free `CLK` value above `CLK`, goes to sd. One with
nothing to move is complete at acceptance and signals, unless it must wait for another one of its connection (R248);
one that fails at acceptance (R248) sets REFUSED and makes no signal. -/
def State.acceptOp (f : EF) (kind : EngKind) (dst src len total : Nat) (fails : Bool) (s : State) :
    State :=
  let turn := s.free
  let waits := s.netWaits kind.conn turn
  let (n, s) := s.fresh
  let p := if total = 0 ∧ !waits then s.hub.clk + 1 else s.hub.clk + 1 + n
  let stat : EngStat := if fails then .failed else if total = 0 ∧ !waits then .done else .running
  let op : EngOp :=
    { id := s.me.iss.seq, turn := turn, kind := kind, dst := dst, src := src, len := len,
      hyp := s.me.spr.hyp.toNat, lt := s.me.spr.lt, lvl := s.me.level, stat := stat, promise := p,
      latched := false, sig := sigOpt f.ws, stamp := 0, seen := false,
      left := if total = 0 then [] else [(0, total)], avoid := s.hub.banks.map (·.1), got := if total = 0 then some [] else none,
      verWait := [], tick := s.hub.clk + n, tags := [], tainted := [] }
  let done : List Eff := if stat = .done then sigEffs f.ws else []
  let s := s.issue 1 1 f.d.toNat (.s f.d (BitVec.ofNat 64 p) :: done)
  let s := if fails then s.modMe (Hart.setPending 1) else s
  s.modMe (fun h => { h with units := { h.units with eng := h.units.eng ++ [op] } })

/-- A register as a 57-bit address (R181). -/
def Hart.addrReg (h : Hart) (n : BitVec 6) : Nat := (h.regs.sReg n).toNat % 2 ^ 57

/-! ### Copies (R239, R240) -/

/-- A copy whose destination, source lies in the vault window or not. -/
def copyOp (i : Instr) (dv sv : Bool) (f : EF) : Sem :=
  engSlot i f (fun s =>
    let dst := s.me.addrReg f.a
    let src := s.me.addrReg f.b
    let len := (s.me.regs.sReg f.c).toNat
    if 2 ^ 32 ≤ len ∨ classBad dv dst len ∨ classBad sv src len then s.illegal 9
    else engChecks (ends dst len) (ends src len) (fun s =>
      .next (s.acceptOp f .copy dst src len len false)) s)

/-- `copy.gv` (R239). -/
def execCopyGv (f : EF) : Sem := copyOp (.copyGv f) true false f
/-- `copy.vg` (R239). -/
def execCopyVg (f : EF) : Sem := copyOp (.copyVg f) false true f
/-- `copy.vv` (R239). -/
def execCopyVv (f : EF) : Sem := copyOp (.copyVv f) true true f
/-- `copy.gg` (R239). -/
def execCopyGg (f : EF) : Sem := copyOp (.copyGg f) false false f

/-! ### Tiles (R118, R122, R243) -/

/-- The four coordinates of a tile's first element (R243). -/
def tileCoord (c : Word) (d : Nat) : Nat :=
  match d with
  | 0 => wbits 23 0 c
  | 1 => wbits 43 24 c
  | 2 => wbits 55 44 c
  | _ => wbits 63 56 c

/-- The address of byte `b` of the row (i1, i2, i3) of a tensor (R118). -/
def Tdt.byteAddr (t : Tdt) (b i1 i2 i3 : Nat) : Nat :=
  let base := t.f 504 448 + i2 * t.f 207 160 + i3 * t.f 159 112
  (if t.f 95 88 = 0 then base + i1 * t.f 255 208 + b
   else base + i1 / 64 * t.f 255 208 + b / 64 * 4096 + i1 % 64 * 64 + b % 64) % 2 ^ 57

/-- The address of byte `o` of a tile of 64 rows of 64 bytes, `none` where its element is out of range
(R122, R243). -/
def Tdt.tileByte (t : Tdt) (c : Word) (o : Nat) : Option Nat :=
  let w := t.width
  let i0 := tileCoord c 0 + o % 64 * 8 / w
  let i1 := tileCoord c 1 + o / 64
  let i2 := tileCoord c 2
  let i3 := tileCoord c 3
  if i0 < t.dim 0 ∧ i1 < t.dim 1 ∧ i2 < t.dim 2 ∧ i3 < t.dim 3 then
    some (t.byteAddr (tileCoord c 0 * w / 8 + o % 64) i1 i2 i3)
  else none

/-- Byte `o` of a tile that is filled with the PAD pattern (R118, R122): PAD has 16 bits, and of an element of 32 bits the
upper half is 0. (DEDUCED: log entry 114.) -/
def Tdt.padByte (t : Tdt) (o : Nat) : Byte :=
  let pad := t.f 111 96
  if t.width = 4 then BitVec.ofNat 8 (pad % 16 * 17)
  else BitVec.ofNat 8 (pad / 2 ^ (o * 8 % t.width))

/-- `copy.tile` (R243): the descriptor's page, the class of the address and the parity of C0, the
vault, then the descriptor's own checks (R373). -/
def execCopyTile (f : EF) : Sem :=
  engSlot (.copyTile f) f (fun s =>
    let va := s.me.addrReg f.a
    let id := s.me.regs.sReg f.b
    let c := s.me.regs.sReg f.c
    let st := f.q.getLsbD 0
    if !inVault va ∨ va % 64 ≠ 0 then s.illegal 9
    else
      let checks (k : Sem) : Sem :=
        if st then engChecks [] (ends va 4096) k else engChecks (ends va 4096) [] k
      match s.readTdt id with
      | .wait w => .next (s.awaitXlat w)
      | .fault x a => s.xlatFault x .load a
      | .bad info => checks (fun s => s.descFault id info) s
      | .ok t seen line =>
        if t.width = 4 ∧ tileCoord c 0 % 2 = 1 then s.illegal 9
        else checks (fun s =>
          let k : EngKind := if st then .tileSt t.bits c else .tileLd t.bits c
          match s.recallOf line with
          | some s => .next (s.stall false)
          | none => .next ((s.sawTdt seen line).acceptOp f k va 0 4096 4096 false)) s)

/-- `copy.idx` (R244): the list is read as a copy source; each row is `row` bytes. (DEDUCED: log entry 26.) -/
def execCopyIdx (f : EF) : Sem :=
  engSlot (.copyIdx f) f (fun s =>
    let dst := s.me.addrReg f.a
    let list := s.me.addrReg f.b
    let n := (s.me.regs.sReg f.c).toNat
    let row := 2 ^ (f.q.toNat + 2)
    if 65536 < n ∨ classBad true dst (n * row) then s.illegal 9
    else if list % 8 ≠ 0 then s.misaligned list
    else engChecks (ends dst (n * row)) (ends list (8 * n)) (fun s =>
      .next (s.acceptOp f (.idx row) dst list n (n * row) false)) s)

/-- `copy.check` (R242): 0, and LT rises, when every operation promised by the time has succeeded, 1 when all have
ended and one failed, otherwise a free `CLK` value above `CLK`; 3 c. -/
def execCopyCheck (f : EF) : Sem :=
  ecSlot (.copyCheck f) f (fun s =>
    let p := (s.me.regs.sReg f.a).toNat
    let ops := s.me.units.eng.filter (fun o => o.promise ≤ p)
    if ops.any EngOp.unfinished then
      let (n, s) := s.fresh
      .next (s.issue 3 1 f.d.toNat
        (.s f.d (BitVec.ofNat 64 (s.hub.clk + 2 + n)) :: sigEffs f.ws))
    else
      let bad := ops.any (fun o => o.stat = .failed)
      .next (s.issue 3 1 f.d.toNat
        (.s f.d (if bad then 1 else 0) :: ((if bad then [] else [.seen p]) ++ sigEffs f.ws))))

/-! ### Semaphores (R85, R245, R246) -/

/-- The signal of a slot that lands in the issue cycle. -/
def Hart.signalNow (w : WaitSig) (h : Hart) : Hart :=
  if w.sinc = 0#4 then h else h.semChange w.sidx.toNat 0 w.sinc.toNat false

/-- A change of the tread's own semaphore (R245). -/
def State.semOwn (f : EF) (op : Nat) (s : State) : State :=
  (s.modMe (fun h =>
    (h.semChange (ecIdx f) op (h.regs.sReg f.a).toNat false).signalNow f.ws)).ok

/-- The forms of R245 and R246; `op` is 0 add, 1 subtract, 2 set. -/
def semOp (i : Instr) (op : Nat) (f : EF) : Sem :=
  ecSlot i f (fun s =>
    if !f.q.getLsbD 0 then .next (s.semOwn f op)
    else
      let sel := s.me.regs.sReg f.d
      let gpos := wbits 6 4 sel
      let rnk := wbits 3 0 sel
      if wbits 63 7 sel ≠ 0 ∨ !s.me.selectorOk gpos rnk then s.vaultFault sel.toNat
      else if gpos = wbits 2 0 s.me.spr.gang ∧ rnk = s.me.rank then .next (s.semOwn f op)
      else
        match s.me.id with
        | .core _ => .next s.ok
        | .tread l w _ =>
          let (n, s) := s.fresh
          let u : SemOut :=
            { target := .tread l (w - wbits 2 0 s.me.spr.gang + gpos) rnk, n := ecIdx f, op := op,
              v := (s.me.regs.sReg f.a).toNat, afterSeq := s.me.iss.seq, tick := 21 + n }
          .next (s.modMe (fun h => (({ h with
            units := { h.units with semOut := h.units.semOut ++ [u] } }).signalNow f.ws).setOut .ok)))

/-- `sem.add` (R245, R246). -/
def execSemAdd (f : EF) : Sem := semOp (.semAdd f) 0 f
/-- `sem.sub` (R245, R246). -/
def execSemSub (f : EF) : Sem := semOp (.semSub f) 1 f
/-- `sem.set` (R245, R246). -/
def execSemSet (f : EF) : Sem := semOp (.semSet f) 2 f

/-! ### `sig.wr` (R247) -/

/-- `sig.wr` (R247): Q[1:0] is 0 set, 1 subtract. Under a hypothesis it is refused. -/
def execSigWr (f : EF) : Sem :=
  ecSlot (.sigWr f) f (fun s =>
    let va := s.me.addrReg f.a
    if inVault va then
      if va % 8 ≠ 0 then s.misaligned va else s.vaultFault va
    else accessing .atomic (fun _ => [(va, 8)]) (fun _ => notAligned 8 va) (fun ps s =>
      match ps with
      | [p] =>
        if s.me.spr.hyp ≠ 0 then .next (s.modMe (Hart.setPending 1)).ok
        else .next (s.queueWrite p.device va p.pa
          (.signal (f.q.getLsbD 0) (s.me.regs.sReg f.b) (sigOpt f.ws)) false).ok
      | _ => .next s.ok) s)

/-! ### Network operations (R248, R346) -/

/-- The packets of a message on a connection: at least one, and as many as its MTU asks for (R346).
(PRESUMED: log entry 91.) -/
def Conn.packets (c : Conn) (n : Nat) : Nat :=
  let mtu := 2 ^ (7 + bitsOf 15 13 c.raw)
  Nat.max 1 ((n + mtu - 1) / mtu)

/-- The send number moves past a message (R346). -/
def Conn.sent (n : Nat) (c : Conn) : Conn := { c with spsn := (c.spsn + c.packets n) % 2 ^ 24 }

/-- The expected receive number moves past a message (R346). -/
def Conn.received (n : Nat) (c : Conn) : Conn := { c with epsn := (c.epsn + c.packets n) % 2 ^ 24 }

/-- A change to an entry that the Arcades hold. -/
def State.modConn (part q : Nat) (f : Conn → Conn) (s : State) : State :=
  { s with hub := { s.hub with conns := s.hub.conns.map (fun c =>
    if c.part = part ∧ c.q = q then f c else c) } }

/-- The entry of the connection table that the Arcades hold. -/
def Hub.conn (hb : Hub) (part q : Nat) : Option Conn :=
  hb.conns.find? (fun c => c.part = part && c.q = q)

/-- The port of a connection (R346). -/
def Conn.port (c : Conn) : Nat := bitsOf 12 8 c.raw

/-- An entry is valid and holds no reserved value (R346). -/
def Conn.valid (c : Conn) : Bool :=
  bitsOf 0 0 c.raw = 1 && bitsOf 279 272 c.raw = 0 && bitsOf 214 192 c.raw = 0
    && bitsOf 127 16 c.raw = 0 && bitsOf 5 2 c.raw = 0
    && 3 ≤ bitsOf 15 13 c.raw && bitsOf 15 13 c.raw ≤ 5 && c.port < 24

/-- A connection that carries operations: valid, its port held by the partition, no error (R344,
R346). -/
def Hub.connOk (hb : Hub) (part q : Nat) : Bool :=
  let r := hb.part part
  r.connb.getLsbD 0 && (match hb.conn part q with
    | some c => c.valid && r.pchip.getLsbD (12 + c.port) && !c.err
    | none => false)

/-- `net.put` and `net.get` (R248): `put` reads the local range, `get` writes it. An operation under a
hypothesis or on a connection that does not carry it fails at acceptance. -/
def netOp (i : Instr) (put : Bool) (f : EF) : Sem :=
  engSlot i f (fun s =>
    let loc := s.me.addrReg f.a
    let rem := (s.me.regs.sReg f.b).toNat
    let len := (s.me.regs.sReg f.c).toNat
    let q := f.q.toNat
    if 2 ^ 31 < len then s.illegal 9
    else
      let k : Sem := fun s =>
        let bad := s.me.spr.hyp ≠ 0 || !s.hub.connOk s.me.partNo q
        if put then .next (s.acceptOp f (.netPut q) rem loc len len bad)
        else .next (s.acceptOp f (.netGet q) loc rem len len bad)
      if put then engChecks [] (ends loc len) k s else engChecks (ends loc len) [] k s)

/-- `net.put` (R248). -/
def execNetPut (f : EF) : Sem := netOp (.netPut f) true f
/-- `net.get` (R248). -/
def execNetGet (f : EF) : Sem := netOp (.netGet f) false f

/-! ### What an operation touches (R283, R304) -/

/-- The ranges of the vault window that an operation reads or writes. -/
def EngOp.vaultRanges (o : EngOp) : List (Nat × Nat) :=
  let rs : List (Nat × Nat) := match o.kind with
    | .copy => [(o.dst, o.len), (o.src, o.len)]
    | .tileLd .. | .tileSt .. => [(o.dst, 4096)]
    | .idx row => [(o.dst, o.len * row), (o.src, 8 * o.len)]
    | .netPut _ => [(o.src, o.len)]
    | .netGet _ => [(o.dst, o.len)]
  rs.filter (fun r => inVault r.1 && r.2 ≠ 0)

/-- The bank keys that a range of the vault window reaches from the acting hart. -/
def State.rangeBanks (s : State) (r : Nat × Nat) : List Nat :=
  match s.vaultTarget r.1 with
  | none => []
  | some (t, _) => (banksOf t.place.chip (r.1 % 2 ^ 23) r.2).map (bankKey t.place)

/-- The bank keys that bytes of an aperture lie in. -/
def Hub.apertureBanks (hb : Hub) (pa len : Nat) : List Nat :=
  match hb.localLoc (locOf pa) with
  | .vault c q => (banksOf c (locOf pa - apertureBase c q) len).map (bankKey { chip := c, flight := 0, pos := q })
  | _ => []

/-- A range cut at page boundaries. -/
def splitPages (va len : Nat) : List (Nat × Nat) :=
  if len = 0 then []
  else (List.range ((va % 4096 + len + 4095) / 4096)).map (fun k =>
    let a := if k = 0 then va else (va / 4096 + k) * 4096
    (a, Nat.min (va + len) ((va / 4096 + k + 1) * 4096) - a))

/-- The physical address that an operation's own access reaches outside the vault window. -/
def State.globalAt (o : EngOp) (acc : Acc) (va : Nat) (s : State) : Option Nat :=
  if o.lvl = 2 ∧ !s.hub.mon.xlm.getLsbD 63 then some va
  else match s.hub.resolve s.free false { va := va, acc := acc, lvl := o.lvl, part := s.me.partNo, tick := 0 } with
    | .ok x => some (x.addr va)
    | .error _ => none

/-- The bytes of a tensor in memory that a tile copy reaches (R243). -/
def tileRanges (d : Nat) (c : Word) : List (Nat × Nat) :=
  (List.range 4096).filterMap (fun k => (Tdt.tileByte { bits := d } c k).map (fun a => (a, 1)))

/-- The rows that an index gather reads, as its list names them (R244). -/
def State.idxRanges (o : EngOp) (row : Nat) (s : State) : List (Nat × Nat) :=
  (List.range o.len).filterMap (fun j => (s.globalAt o .engRead ((o.src + 8 * j) % 2 ^ 57)).map (fun pa =>
    (leBytes (s.hub.visBytes s.me.partNo o.hyp (locOf pa) 8) % 2 ^ 57, row)))

/-- The ranges outside the vault window that an operation reads or writes. -/
def State.globalRanges (o : EngOp) (s : State) : List (Acc × Nat × Nat) :=
  let rs : List (Acc × Nat × Nat) := match o.kind with
    | .copy => [(.engWrite, o.dst, o.len), (.engRead, o.src, o.len)]
    | .tileLd d c => (tileRanges d c).map (fun r => (.engRead, r.1, r.2))
    | .tileSt d c => (tileRanges d c).map (fun r => (.engWrite, r.1, r.2))
    | .idx row => (.engRead, o.src, 8 * o.len) :: (s.idxRanges o row).map (fun r => (.engRead, r.1, r.2))
    | .netPut _ => [(.engRead, o.src, o.len)]
    | .netGet _ => [(.engWrite, o.dst, o.len)]
  rs.filter (fun r => !inVault r.2.1)

/-- The bank keys that an operation reaches through apertures (R186, R283, R304). -/
def State.apertureUse (o : EngOp) (s : State) : List Nat :=
  (s.globalRanges o).flatMap (fun r => (splitPages r.2.1 r.2.2).flatMap (fun q =>
    match s.globalAt o r.1 (q.1 % 2 ^ 57) with
    | some pa => s.hub.apertureBanks pa q.2
    | none => []))

/-- The bytes of memory that a write reaches: address and length. -/
def Write.reach (w : Write) : Nat × Nat :=
  match w.kind with
  | .store bs | .back bs => (w.pa, (bs.foldl (fun m e => Nat.max m (e.1 + 1)) 0))
  | _ => (w.pa, 8)

/-- Bank keys that the acting hart's work in flight touches: unfinished operations, in the window and through an
aperture, and stores that have not landed,
direct ones, those of `acc.st` and those to an aperture (R283). -/
def State.busyBanks (s : State) : List Nat :=
  let eng := (s.me.units.eng.filter EngOp.unfinished).flatMap (fun o =>
    o.vaultRanges.flatMap s.rangeBanks ++ s.apertureUse o)
  let at_ (r : Nat × Nat) : List Nat := s.hub.apertureBanks r.1 r.2
  let st := s.me.lsu.vstores.flatMap (fun v => at_ (v.pa, v.bytes.length))
  let acc := s.me.inPipe.flatMap (fun p => (p.effs.getD []).flatMap (fun e => match e with
    | .vault _ pa bs => at_ (pa, bs.length)
    | _ => []))
  let ap := s.me.lsu.writes.flatMap (fun w => at_ w.reach)
  let dl := s.hub.deliveries.flatMap (fun d =>
    if d.by_ = s.me.id then d.cells.flatMap (fun c => at_ (c.1, 1)) else [])
  eng ++ st ++ acc ++ ap ++ dl

end Sys2Proof.Machine
end

