-- ==== Sys2Proof/Machine/Control.lean ====
section
/-! DEFINITION. Control: reading fetch lines (R78 to R80, R319), branches (R129 to R132), waits on
semaphores and the clock (R288, R289), the modulo sequencer (R291 to R293), `detach`, `meet` and
`retire` (R54, R294 to R298, R338), and the trapping instructions with `eret` (R341, R379, R380). -/

namespace Sys2Proof.Machine

/-! ### Fetch lines -/

/-- What the fetch of a line ends in (R80). -/
inductive FRes where
  | ok (bytes : List Byte)
  | wait (w : Want)
  | fault (x : XFault)
  | vault
  | mem (info : Nat)
  deriving DecidableEq, Repr

/-- Where a fetch line outside the vault and quire windows lies, and whether it is of device type (R350). -/
def State.codeAt (la : Nat) (s : State) : Option (Nat × Bool) :=
  if inVault la ∨ inQuire la then none
  else match s.xlate .fetch s.me.level la with
    | .ok pa dev => some (pa, dev)
    | _ => none

/-- A fetch line may stand in the lease cache (R191, R418). -/
def State.codeLeased (pa : Nat) (dev : Bool) (s : State) : Bool := !s.me.isCore && !dev && (s.hub.loc pa).leasable

/-- The copy in the lease cache that serves a fetch (R191, R418). -/
def State.codeHit (pa : Nat) (dev : Bool) (s : State) : Option LeaseLine :=
  if s.codeLeased pa dev then
    (s.me.leaseLine s.me.partNo 0 (lineOf pa)).filter (fun l => l.nc || decide (s.me.spr.lt ≤ l.rts))
  else none

/-- The line of a fetch must be recalled from a peer first (R199). -/
def State.fetchRecall (la : Nat) (s : State) : Option State :=
  match s.codeAt la with
  | some (pa, dev) =>
    let own := s.me.coreNo.any (fun n => s.hub.peers.any (fun p => p.peer = n && p.line = lineOf pa))
    if (s.hub.loc pa).here ∧ (s.codeHit pa dev).isNone ∧ !own then s.recallOf (lineOf pa) else none
  | none => none

/-- What reading a line of code does, as a load does (R191, R418): LT rises to the time of the copy, and a line that the
lease cache does not hold is filled, or read at its home. -/
def State.fetchTime (la : Nat) (s : State) : State :=
  match s.codeAt la with
  | none => s
  | some (pa, dev) =>
    if !(s.hub.loc pa).here then s
    else match s.codeHit pa dev with
    | some l => s.modMe (Hart.raiseLt l.wts)
    | none =>
      let part := s.me.partNo
      let t := Nat.max s.me.spr.lt (s.hub.seenWts part 0 (lineOf pa))
      let s := if s.codeLeased pa dev then s.fillLine part 0 t pa 64
        else { s with hub := s.hub.readAt part 0 (locOf pa) 64 t }
      s.modMe (Hart.raiseLt t)

/-- The 64 bytes of the fetch line at an address (R78, R80, R319, R418). -/
def State.codeLine (la : Nat) (s : State) : FRes :=
  if inVault la then .vault
  else if inQuire la then .ok (bytesAt s.hub.quireMem (s.me.partNo * 2 ^ 24 + la % 2 ^ 24) 64)
  else
    match s.xlate .fetch s.me.level la with
    | .wait => .wait { va := la, acc := .fetch, lvl := s.me.level, part := s.me.partNo, tick := 0 }
    | .fault x => .fault x
    | .ok pa dev =>
      let f := s.hub.readFailure pa
      if f ≠ 0 then .mem f
      else
        let hit := s.codeHit pa dev
        .ok ((s.hub.hubBytes s.free pa 64).mapIdx (fun k b =>
          let b := (hit.map (fun l => l.bytes.getD ((pa + k) % 128) 0#8)).getD b
          (s.me.ownByte s.hub s.me.partNo [0] s.me.iss.seq (pa + k)).getD b))

/-- The line at an address: the one that the hart holds, or memory. -/
def State.lineAt (la : Nat) (s : State) : FRes :=
  match s.me.ctl.line with
  | some (a, bs) => if a = la then .ok bs else s.codeLine la
  | none => s.codeLine la

/-- The address after a bundle, at the next line where a pad follows in the same line (R79). -/
def State.nextAddr (s : State) : VAddr :=
  let a := s.me.ctl.pc.toNat + s.me.iss.len
  match s.me.ctl.line with
  | some (l, bs) =>
    if a / 64 * 64 = l ∧ a % 64 ≠ 0 ∧ bs.getD (a % 64) 0#8 = 0 then BitVec.ofNat 57 (l + 64)
    else BitVec.ofNat 57 a
  | none => BitVec.ofNat 57 a

/-! ### Common parts -/

/-- A CT instruction that Newel cores do not issue (R305). -/
def treadCt (i : Instr) (g : Guard) (k : Sem) : Sem :=
  ctSlot i g (fun s => if s.me.isCore then s.illegal 9 else k s)

/-- The decision of a CT instruction that moves control (R131): in broadcast the leading rank's,
otherwise the hart's own guard and target. -/
def State.decides (g : Guard) (target : VAddr) (s : State) : Bool × VAddr :=
  match s.me.ctl.dec with
  | some it => (it.taken, it.target)
  | none => (guardHolds g s.me, target)

/-- Control goes to an address. -/
def Hart.goTo (a : VAddr) (h : Hart) : Hart := { h with iss := { h.iss with next := some a } }

/-- Moves to another way of running when the bundle has issued. -/
def Hart.become (r : Run) (h : Hart) : Hart := { h with iss := { h.iss with after := some r } }

/-- The target of a relative branch (R130). -/
def Hart.relTarget (d : BitVec 21) (h : Hart) : VAddr := h.ctl.pc + d.signExtend 57

/-- The return address of a call (R130): the byte after the bundle. -/
def Hart.returnAddr (h : Hart) : Word := BitVec.ofNat 64 ((h.ctl.pc.toNat + h.iss.len) % 2 ^ 57)

/-- A branch or call (R130, R131). -/
def branchTo (g : Guard) (call : Bool) (target : State → VAddr) : Sem := fun s =>
  let (taken, t) := s.decides g (target s)
  if !taken then .next s.ok
  else
    let s := s.modMe (Hart.goTo t)
    if call then .next (s.writeS 1 63#6 s.me.returnAddr) else .next s.ok

/-! ### `nop`, `hold` and branches -/

/-- `nop` (R129). -/
def execNop (_ : CN) : Sem := fun s => .next s.ok

/-- `hold` (R129): IMM10 further cycles in which no bundle issues. -/
def execHold (f : CI) : Sem :=
  guarded f.gk.g (fun s => .next (s.modMe (fun h =>
    { h with sched := { h.sched with hold := f.imm.toNat, holdAt := h.ctl.pc } })).ok)

/-- `br` (R130). -/
def execBr (f : CB) : Sem := branchTo f.gk.g false (fun s => s.me.relTarget f.disp)
/-- `call` (R130). -/
def execCall (f : CB) : Sem := branchTo f.gk.g true (fun s => s.me.relTarget f.disp)
/-- `br.r` (R130). -/
def execBrR (f : CR) : Sem :=
  branchTo f.gk.g false (fun s => (s.me.regs.sReg f.a).truncate 57)
/-- `call.r` (R130). -/
def execCallR (f : CR) : Sem :=
  branchTo f.gk.g true (fun s => (s.me.regs.sReg f.a).truncate 57)

/-! ### Semaphores and the clock -/

/-- `wait.sem` (R288). -/
def execWaitSem (f : CS) : Sem :=
  treadCt (.waitSem f) f.gk.g (fun s =>
    if f.thr.toNat ≤ s.me.units.semGet f.sem.toNat then .next s.ok else .next (s.stall false))

/-- The tick of the hart's next island cycle (R41, R426). -/
def State.nextCycle (s : State) : Nat :=
  let cur := (s.hub.island s.me.island).cur
  let t := s.hub.clk + 1
  match (List.range 8).find? (fun k => hasCycle cur (t + k)) with
  | some k => t + k
  | none => t

/-- `sleep.until` (R16, R289): the bundle stands until the cycle before the first one at which `CLK` has
reached the operand. (DEDUCED: log entry 20.) -/
def execSleepUntil (f : CR) : Sem :=
  ctSlot (.sleepUntil f) f.gk.g (fun s =>
    let a := (s.me.regs.sReg f.a).toNat
    if a ≤ s.nextCycle then .next s.ok
    else .next ((s.stall false).modMe (fun h => { h with ctl := { h.ctl with
      stall := h.ctl.stall.map (fun t => { t with asleep := some a }) } })))

/-! ### The modulo sequencer (R291 to R293) -/

/-- What reading a loop body ends in: the bundles and the address after them, a translation to wait
for, or the address that could not be read. -/
inductive BodyRes where
  | ok (body : List (VAddr × List Byte)) (after : VAddr)
  | wait (w : Want)
  | unread (a : VAddr)
  deriving DecidableEq, Repr

/-- Reads `n` bundles from an address on, skipping pads (R79, R291). -/
def State.readBody (s : State) : Nat → Nat → Nat → List (VAddr × List Byte) → BodyRes
  | 0, a, _, _ => .unread (BitVec.ofNat 57 a)
  | fuel + 1, a, n, acc =>
    if n = 0 then .ok acc.reverse (BitVec.ofNat 57 a)
    else
      match s.lineAt (a / 64 * 64) with
      | .wait w => .wait w
      | .ok bs =>
        let here := bs.drop (a % 64)
        let hd := (here.headD 0#8).toNat
        if hd = 0 then s.readBody fuel ((a / 64 + 1) * 64 % 2 ^ 57) n acc
        else s.readBody fuel ((a + bundleLen hd) % 2 ^ 57) (n - 1) ((BitVec.ofNat 57 a, here) :: acc)
      | _ => .unread (BitVec.ofNat 57 a)

/-- The fetch lines of a loop body, but for the one that the hart holds. -/
def Hart.bodyLines (h : Hart) (body : List (VAddr × List Byte)) : List Nat :=
  ((body.map (fun b => b.1.toNat / 64 * 64)).eraseDups).filter (fun la => !h.ctl.line.any (fun l => l.1 = la))

/-- The CT slot of a body bundle, if it holds anything but `nop`. -/
def bodyCt (bs : List Byte) : Bool :=
  bitAt 0 (bs.headD 0#8).toNat &&
    (match rawDecode .ct (leBytes ((bs.drop 1).take 4)) with
     | some (.nop _) => false
     | _ => true)

/-- The slots of a body bundle that the check of R292 counts. -/
def bodySlots (bs : List Byte) : List Slot :=
  (headerSlots (bs.headD 0#8).toNat).filter (fun sl => sl ≠ .ct)

/-- The checks of R292 on the body. -/
def bodyOk (ii : Nat) (body : List (VAddr × List Byte)) : Bool :=
  body.all (fun b => !bodyCt b.2) &&
    (List.range ii).all (fun r =>
      let us := ((List.range body.length).filter (fun j => j % ii = r)).flatMap (fun j =>
        ((body[j]?).map (fun b => bodySlots b.2)).getD [])
      us.eraseDups.length = us.length)

/-- A sequencer is running or held (R292, R375). -/
def Hart.looping (h : Hart) : Bool :=
  h.sched.loop.isSome || (match h.ctl.held with | some sc => sc.loop.isSome | none => false)

/-- `loop` (R291, R292): in broadcast the leading rank's guard and trip count hold. The lines of the body are read as
fetches read them (R418). (DEDUCED: log entry 27.) -/
def execLoop (f : CL) : Sem := fun s =>
  match kernelCheck s.me (.loop f) with
  | some d => s.illegal d
  | none =>
    if s.me.isCore then (if guardHolds f.gk.g s.me then s.illegal 9 else .next s.ok)
    else
      let n := match s.me.ctl.dec with
        | some it => it.trips
        | none => if guardHolds f.gk.g s.me then (s.me.regs.sReg f.a).toNat else 0
      let len := f.len.toNat + 1
      let ii := f.ii.toNat + 1
      let body := match s.me.ctl.dec with
        | some it => BodyRes.ok it.code it.target
        | none => s.readBody (len + 2 ^ 51) (s.me.ctl.pc.toNat + s.me.iss.len) len []
      match body with
      | .wait w => .next (s.awaitXlat w)
      | .unread a =>
        if n = 0 then .next (s.modMe (Hart.goTo a)).ok else s.illegal 9
      | .ok body after =>
        let lines := if s.me.ctl.dec.isSome then [] else s.me.bodyLines body
        match lines.findSome? (fun la => s.fetchRecall la) with
        | some s => .next (s.modMe (Hart.setOut .frozen))
        | none =>
        let s := lines.foldl (fun s la => s.fetchTime la) s
        if n = 0 then .next (s.modMe (Hart.goTo after)).ok
        else if s.me.looping ∨ body.length ≠ len ∨ !bodyOk ii body then s.illegal 9
        else
          let l : LoopSt :=
            { c := 0, n := n, ii := ii, body := body, after := after, origin := s.me.ctl.pc,
              pauses := (s.me.ctl.dec.map (·.pauses)).getD [] }
          .next (s.modMe (fun h => { h with sched := { h.sched with loop := some l } })).ok

/-! ### `detach`, `meet`, `retire` -/

/-- `detach` (R19, R54, R294): every rank of the flight takes the meeting address, orphans too (R378);
a rank whose guard reads true detaches, another has arrived. -/
def execDetach (f : CB) : Sem := fun s =>
  let go := guardHolds f.gk.g s.me
  if s.me.isCore then (if go then s.illegal 9 else .next s.ok)
  else if s.me.ctl.run ≠ .attached then (if go then s.illegal 9 else .next s.ok)
  else
    let a := s.me.relTarget f.disp
    let w := BitVec.ofNat 64 a.toNat
    let me := s.me
    let s := s.mapWhere (fun h => h.id = me.id || (h.sameFlight me && h.ctl.run = .orphan))
      (fun h => { h with spr := { h.spr with meet := w } })
    if go then .next (s.modMe (Hart.become .detached)).ok
    else .next (s.modMe (fun h => (h.goTo a).become .atMeet)).ok

/-- `meet` (R295): a tread that is not attached arrives at `MEET`; one that runs a handler taken while attached is
attached still. -/
def execMeet (f : CN) : Sem :=
  treadCt (.meet f) f.gk.g (fun s =>
    let a : VAddr := s.me.spr.meet.truncate 57
    match s.me.ctl.run with
    | .attached | .handler => .next s.ok
    | .orphan => .next (s.modMe (Hart.goTo a)).ok
    | _ => .next (s.modMe (fun h => (h.goTo a).become .atMeet)).ok)

/-- `retire` (R298, R338): ends the tread when its bundle has issued; on a Newel core it halts the core at
M and is privileged below. -/
def execRetire (f : CN) : Sem :=
  guarded f.gk.g (fun s =>
    if s.me.isCore then
      if s.me.level = 2 then .next (s.modMe (Hart.become .halted)).ok else s.privileged
    else .next (s.modMe (Hart.become .retired)).ok)

/-! ### Traps on purpose, and `eret` -/

/-- `trap` (R380). -/
def execTrap (f : CI) : Sem :=
  guarded f.gk.g (fun s => .next (s.trapS clsSoft 0x04 f.imm.toNat 0))

/-- `bkpt` (R380, R392): under `DBG.BSKIP` at U it acts as `nop` and clears the bit; under `DBG.BKM` the
trap goes to M. -/
def execBkpt (f : CI) : Sem :=
  guarded f.gk.g (fun s =>
    if s.me.level = 0 ∧ s.me.spr.dbg.getLsbD 4 then
      .next (s.modMe (fun h => { h with spr := { h.spr with dbg := setBits 4 4 0 h.spr.dbg } })).ok
    else
      .next (s.takeTrap
        { cls := clsSoft, code := 0x05, info := f.imm.toNat, slot := some .ct, tpc := s.me.ctl.pc,
          taddr := 0, lvl := if s.me.spr.dbg.getLsbD 3 then 2 else toS s.me.level }))

/-- `sys` (R341): the system call is taken after its bundle has issued; `TPC` names the next bundle. -/
def execSys (f : CI) : Sem :=
  guarded f.gk.g (fun s => .next (s.takeTrap
    { cls := clsAfter, code := 0x03, info := f.imm.toNat, slot := some .ct, tpc := s.nextAddr,
      taddr := 0, lvl := toPriv s.me.level }))

/-- `eret` (R379): at U privileged; beside another slot a state violation; it stalls until the results
of the handler's own bundles have landed. (DEDUCED: log entry 28.) -/
def execEret (f : CN) : Sem :=
  guarded f.gk.g (fun s =>
    if s.me.level = 0 then s.privileged
    else if 1 < s.me.iss.ops then s.illegal 9
    else if !s.me.sched.pipe.isEmpty ∨ s.me.sched.mx.isSome then .next (s.stall false)
    else .next (s.modMe Hart.eretEntry))

end Sys2Proof.Machine
end

