-- ==== Sys2Proof/Machine/Group.lean ====
section
/-! DEFINITION. Groups (R61 to R65, R299 to R303), vault banks (R304) and the hypothesis instructions
(R249 to R253). -/

namespace Sys2Proof.Machine

/-! ### Groups -/

/-- The field of `GRPS` that names a group (R75, R300). -/
def Hart.groupSlot (n : Nat) (h : Hart) : Option (Fin 4) :=
  (List.finRange 4).find? (fun j =>
    h.spr.grps.getLsbD (32 + j.val) && wbits (8 * j.val + 7) (8 * j.val) h.spr.grps = n)

/-- The state that the hub keeps for a group of the hart's launch (R63). -/
def State.groupOf (n : Nat) (s : State) : Option Group :=
  (s.launchOf s.me).bind (fun l => l.groups.find? (fun g => g.n = n))

/-- The current phase of a group. -/
def State.phaseOf (n : Nat) (s : State) : Nat := ((s.groupOf n).map (·.phase)).getD 0

/-- A phase of a group of the hart's launch is completed (R65, R305). -/
def State.phaseDone (n p : Nat) (s : State) : Bool := (s.groupOf n).any (fun g => g.done p)

/-- The arrival that the record of a hart holds for the bundle at its pc (R299). -/
def Hart.arrived (ct : Bool) (n : Nat) (h : Hart) : Option Nat :=
  match h.units.grec with
  | some r =>
    if r.pc = h.ctl.pc then
      match (if ct then r.ct else r.ec) with
      | some (m, q) => if m = n then some q else none
      | none => none
    else none
  | none => none

/-- The bundle stalls until a phase of a group completes, and parks (R66, R301). -/
def State.stallOn (n p : Nat) (s : State) : State :=
  (s.stall true).modMe (fun h => { h with ctl := { h.ctl with
    stall := h.ctl.stall.map (fun t => { t with waits := t.waits ++ [(n, p)] }) } })

/-- The phase before the one that the hart will arrive at next. -/
def Hart.phaseBefore (j : Fin 4) (h : Hart) : Nat := ((h.units.arrPhase[j]).toNat + 65535) % 65536

/-- Arrives at a group (R300, R303): the phase of the arrival, `none` while the current phase is not
that of the tread. An arrival that the bundle has already sent is not sent again. -/
def State.arrive (ct : Bool) (n : Nat) (j : Fin 4) (contrib : Option Word) (s : State) :
    Option Nat × State :=
  match s.me.arrived ct n with
  | some q => (some q, s)
  | none =>
    let a := (s.me.units.arrPhase[j]).toNat
    if a ≠ s.phaseOf n then (none, s)
    else
      let h := s.me
      let old : GroupRec := match h.units.grec with
        | some r => if r.pc = h.ctl.pc then r else { pc := h.ctl.pc, ct := none, ec := none }
        | none => { pc := h.ctl.pc, ct := none, ec := none }
      let new : GroupRec := if ct then { old with ct := some (n, a) } else { old with ec := some (n, a) }
      let arr : Arrival := { group := n, phase := a, contrib := contrib, afterSeq := h.iss.seq }
      (some a, s.modMe (fun h => { h with units := { h.units with
        grec := some new,
        arrPhase := h.units.arrPhase.set j.val (BitVec.ofNat 16 (a + 1)) j.isLt,
        arrivals := h.units.arrivals ++ [arr] } }))

/-- A group instruction of the CT slot: Newel cores do not issue it, and the group must stand in `GRPS`
(R300, R305). -/
def groupCt (i : Instr) (f : CR) (k : Fin 4 → Sem) : Sem :=
  treadCt i f.gk.g (fun s =>
    match s.me.groupSlot f.imm.toNat with
    | none => s.illegal 9
    | some j => k j s)

/-- `bar.arrive` (R300). -/
def execBarArrive (f : CR) : Sem :=
  groupCt (.barArrive f) f (fun j s =>
    match s.arrive true f.imm.toNat j none with
    | (none, s) => .next (s.stallOn f.imm.toNat (s.me.phaseBefore j))
    | (some a, s) => .next (s.writeS 1 f.b (BitVec.ofNat 64 a)))

/-- The first examination of a `bar.wait` at this bundle: whether its phase was complete (R301). -/
def Hart.firstSeen (done : Bool) (h : Hart) : Bool :=
  match h.ctl.bar with
  | some (a, b) => if a = h.ctl.pc then b else done
  | none => done

/-- Keeps the first examination while the bundle stalls. -/
def Hart.keepSeen (done : Bool) (h : Hart) : Hart :=
  { h with ctl := { h.ctl with bar := some (h.ctl.pc, h.firstSeen done) } }

/-- `bar.wait` (R301, R302). -/
def execBarWait (f : CR) : Sem :=
  groupCt (.barWait f) f (fun _ s =>
    let n := f.imm.toNat
    let p := (s.me.regs.sReg f.a).toNat % 65536
    let test := (s.me.regs.sReg f.b).getLsbD 0
    let done := s.phaseDone n p
    let first := s.me.firstSeen done
    if !first ∧ !test ∧ !done then .next ((s.stallOn n p).modMe (Hart.keepSeen done))
    else
      let g := s.groupOf n
      let lost := (g.map (·.lost)).getD false
      let v := barStatus (!first && test) (lost && done) first
      let s := if done then s.modMe (Hart.raiseLt ((g.map (·.release)).getD 0)) else s
      .next (s.writeS 1 f.b v))

/-- The accumulator that a `grp.red` selects (R303). -/
def redPick (op : Nat) (uns : Bool) (a : Word × Word × Word × Word × Word) : Word :=
  match op, uns with
  | 0, _ => a.1
  | 1, false => a.2.1
  | 1, true => a.2.2.2.1
  | _, false => a.2.2.1
  | _, true => a.2.2.2.2

/-- The accumulators at the start of a phase (R303): sum, signed minimum and maximum, unsigned minimum
and maximum. -/
def accStart : Word × Word × Word × Word × Word :=
  (0, BitVec.ofNat 64 (2 ^ 63 - 1), BitVec.ofNat 64 (2 ^ 63), BitVec.allOnes 64, 0)

/-- The accumulators after one contribution (R303). -/
def accTake (v : Word) (a : Word × Word × Word × Word × Word) : Word × Word × Word × Word × Word :=
  (a.1 + v, if v.slt a.2.1 then v else a.2.1, if a.2.2.1.slt v then v else a.2.2.1,
    if v.ult a.2.2.2.1 then v else a.2.2.2.1, if a.2.2.2.2.ult v then v else a.2.2.2.2)

/-- `grp.red` (R303): 3 c. -/
def execGrpRed (f : EF) : Sem :=
  ecSlot (.grpRed f) f (fun s =>
    let n := ecIdx f
    match s.me.groupSlot n with
    | none => s.illegal 9
    | some j =>
      match s.arrive false n j (some (s.me.regs.sReg f.a)) with
      | (none, s) => .next (s.stallOn n (s.me.phaseBefore j))
      | (some a, s) =>
        if !s.phaseDone n a then .next (s.stallOn n a)
        else
          let g := s.groupOf n
          let v := redPick (f.q.toNat % 4) (f.q.getLsbD 2) ((g.map (·.last)).getD accStart)
          let s := s.modMe (Hart.raiseLt ((g.map (·.release)).getD 0))
          .next (s.issue 3 1 f.d.toNat (.s f.d v :: sigEffs f.ws)))

/-! ### Vault banks (R304) -/

/-- The banks of the tread's own vault that a mask names, by key. -/
def Hart.maskBanks (m : Word) (h : Hart) : List Nat :=
  ((List.range 32).filter (fun b => m.getLsbD b)).map (bankKey h.place)

/-- `vbank.acq` (R304). -/
def execVbankAcq (f : CR) : Sem :=
  treadCt (.vbankAcq f) f.gk.g (fun s =>
    let ks := s.me.maskBanks (s.me.regs.sReg f.a)
    if ks.any (fun k => NMap.get 0 k s.hub.banks = 2) then .next (s.stall false)
    else
      let banks := ks.foldl (fun m k => NMap.put 0 k 0 m) s.hub.banks
      .next { s with hub := { s.hub with banks := banks } }.ok)

/-- `vbank.rel` (R304). -/
def execVbankRel (f : CR) : Sem :=
  treadCt (.vbankRel f) f.gk.g (fun s =>
    let ks := (s.me.maskBanks (s.me.regs.sReg f.a)).filter s.hub.bankHeld
    let busy := s.busyBanks
    let banks := ks.foldl (fun m k => NMap.put 0 k (if busy.contains k then 2 else 1) m) s.hub.banks
    .next { s with hub := { s.hub with banks := banks } }.ok)

/-! ### Hypotheses (R249 to R253) -/

/-- An instruction that the hub answers (R250): it stalls until the answer is there, and its result
lands 1 c later. -/
def hubAsks (i : Instr) (kind : Nat) (f : CR) : Sem :=
  ctSlot i f.gk.g (fun s =>
    let node := s.me.regs.sReg f.a
    let new : Option HubReq := some { pc := s.me.ctl.pc, kind := kind, node := node, answer := none }
    let ask (s : State) : State :=
      (s.stall false).modMe (fun h => { h with lsu := { h.lsu with hubReq := new } })
    match s.me.lsu.hubReq with
    | some r =>
      if r.pc = s.me.ctl.pc ∧ r.kind = kind then
        match r.answer with
        | some (v, t) =>
          let s := s.modMe (fun h => { h with lsu := { h.lsu with hubReq := none } })
          .next (s.issue 1 1 f.b.toNat [.s f.b v, .lt t])
        | none => .next (s.stall false)
      else .next (ask s)
    | none => .next (ask s))

/-- `hyp.open` (R251). -/
def execHypOpen (f : CR) : Sem := hubAsks (.hypOpen f) 0 f
/-- `hyp.resolve.confirm` (R253). -/
def execHypResolveConfirm (f : CR) : Sem := hubAsks (.hypResolveConfirm f) 1 f
/-- `hyp.resolve.refute` (R253). -/
def execHypResolveRefute (f : CR) : Sem := hubAsks (.hypResolveRefute f) 2 f

/-- A live node of a partition (R249). -/
def Hub.node (hb : Hub) (part n : Nat) : Option Node :=
  hb.nodes.find? (fun x => x.part = part && x.id = n)

/-- `hyp.enter` (R252). -/
def execHypEnter (f : CR) : Sem :=
  ctSlot (.hypEnter f) f.gk.g (fun s =>
    let n := s.me.regs.sReg f.a
    let a : VAddr := (s.me.regs.sReg f.b).truncate 57
    let child : Bool := match s.hub.node s.me.partNo n.toNat with
      | some x => x.id ≠ 0 && x.parent = s.me.spr.hyp.toNat
      | none => false
    if !child ∨ 8 ≤ s.me.units.hstack.length then s.illegal 9
    else .next (s.modMe (fun h =>
      { h with
        spr := { h.spr with hyp := n },
        units := { h.units with hstack := (n.toNat, a) :: h.units.hstack } })).ok)

/-- `hyp.leave` (R252). -/
def execHypLeave (f : CN) : Sem :=
  ctSlot (.hypLeave f) f.gk.g (fun s =>
    if s.me.spr.hyp = 0 then s.illegal 9
    else
      let up := ((s.hub.node s.me.partNo s.me.spr.hyp.toNat).map (·.parent)).getD 0
      .next (s.modMe (fun h =>
        { h with
          spr := { h.spr with hyp := BitVec.ofNat 64 up },
          units := { h.units with hstack := h.units.hstack.drop 1 } })).ok)

end Sys2Proof.Machine
end

