-- ==== Sys2Proof/Machine/System.lean ====
section
/-! DEFINITION. The system slot: `rdsr`, `wrsr`, `tlbinv` and `tlbsync` (R336, R340, R354, R355). -/

namespace Sys2Proof.Machine

/-- `rdsr` (R336, R340): 1 c. -/
def execRdsr (f : SI) : Sem :=
  guarded f.gk.g (fun s =>
    let n := f.imm.toNat
    match sprAccess s.me.isCore n with
    | none => s.illegal 5
    | some c =>
      if levelCell c s.me.level = .no then s.privileged
      else .next (s.writeS 1 f.d (sprRead n s)))

/-- `wrsr` (R336, R340): takes effect for bundles issued from the next cycle on; the key may not be written while the
mould is closing (R403). -/
def execWrsr (f : SI) : Sem :=
  guarded f.gk.g (fun s =>
    let n := f.imm.toNat
    match sprAccess s.me.isCore n with
    | none => s.illegal 5
    | some c =>
      match levelCell c s.me.level with
      | .no => s.privileged
      | .ro => if higherRw c s.me.level then s.privileged else .next s.ok
      | .rw =>
        if n = 0x0b ∧ s.me.units.mould.mode = .closing then s.illegal 9
        else .next (s.issue 1 0 0 [.spr s.me.level n (s.me.regs.sReg f.a)]))

/-- The number of unfinished `tlbinv` of a hart is at its limit (R354). -/
def Hart.tlbFull (h : Hart) : Bool := 16 ≤ h.lsu.tlbinvs.length

/-- `tlbinv` (R354): privileged at U, and KIND 2 to 4 at S; it waits for the earlier accesses of the
issuer as `fence.scope.tr` does, and for a place among its 16. -/
def execTlbinv (f : SR) : Sem :=
  guarded f.gk.g (fun s =>
    let h := s.me
    let b := h.regs.sReg f.b
    let kind := wbits 2 0 b
    if h.level = 0 ∨ (h.level = 1 ∧ 2 ≤ kind ∧ kind ≤ 4) then s.privileged
    else if 5 ≤ kind then s.illegal 9
    else if !s.hub.fenceDone 0 h ∨ h.tlbFull then .next (s.stall false)
    else
      let part := if h.level = 1 then h.partNo else wbits 11 8 b
      let t : TlbInv :=
        { id := s.free, by_ := h.id, kind := kind, part := part,
          va := (h.regs.sReg f.a).toNat % 2 ^ 57, tick := s.hub.clk + Config.freeNat s.free,
          marks := none }
      let s := { s with free := s.free + 1, hub := { s.hub with tlbinvs := s.hub.tlbinvs ++ [t] } }
      .next (s.modMe (fun h => { h with lsu := { h.lsu with
        tlbinvs := h.lsu.tlbinvs ++ [t.id] } })).ok)

/-- `tlbsync` (R355): privileged at U; it stalls until every earlier `tlbinv` of the issuer has
completed. -/
def execTlbsync (f : SR) : Sem :=
  guarded f.gk.g (fun s =>
    if s.me.level = 0 then s.privileged
    else if s.me.lsu.tlbinvs.isEmpty then .next s.ok
    else .next (s.stall false))

end Sys2Proof.Machine
end

