-- ==== Sys2Proof/Machine/ConfigSpace.lean ====
section
/-! DEFINITION. The hub's configuration space (R342 to R346, R358, R388, R398, R427 to R429): what reads
return, what writes do, core events (R339), the error log (R398), and the events that are writes of
single registers. A write that starts a command sets its register busy; the command is an event. -/

namespace Sys2Proof.Machine

/-! ### Core events and the error log -/

/-- Sets a pending core event on a Newel core (R339). -/
def State.pendEvent (core bit : Nat) (s : State) : State :=
  s.mapHart (.core core) (fun h =>
    { h with spr := { h.spr with evpend := setBits bit bit 1 h.spr.evpend } })

/-- Raises an event on the core that a register of the layout of `NEVC` and `MEVC` names (R339). -/
def State.raiseBy (r : Word) (bit : Nat) (s : State) : State :=
  if r.getLsbD 7 then s.pendEvent (wbits 4 0 r) bit else s

/-- Logs an error (R398): the first since VALID was cleared is kept, and raises ERRLOG. -/
def State.logErr (kind addr : Nat) (s : State) : State :=
  let m := s.hub.mon
  if m.errst.getLsbD 31 then s
  else
    let m' := { m with errst := setBits 31 31 1 (setBits 30 24 kind m.errst),
                       erraddr := BitVec.ofNat 64 (addr % 2 ^ 52) }
    State.raiseBy m.mevc 5 { s with hub := { s.hub with mon := m' } }

/-- Counts corrected errors, saturating (R397, R398). -/
def State.countCorrected (s : State) : State :=
  let m := s.hub.mon
  let c := wbits 63 32 m.errst
  { s with hub := { s.hub with mon := { m with
    errst := if c = 2 ^ 32 - 1 then m.errst else setBits 63 32 (c + 1) m.errst } } }

/-- Changes the registers of a partition. -/
def State.setPart (p : Nat) (f : PartRegs → PartRegs) (s : State) : State :=
  { s with hub := s.hub.setPart p f }

/-- Changes the registers of the monitor block. -/
def State.setMon (f : MonRegs → MonRegs) (s : State) : State :=
  { s with hub := { s.hub with mon := f s.hub.mon } }

/-- Records an inbound fault of a partition (R357). -/
def State.ioFault (p stage kind src : Nat) (wr : Bool) (addr : Nat) (s : State) : State :=
  let r := s.hub.part p
  let c := wbits 63 32 r.ioflt
  let io := if c = 2 ^ 32 - 1 then r.ioflt else setBits 63 32 (c + 1) r.ioflt
  if r.ioflt.getLsbD 31 then s.setPart p (fun q => { q with ioflt := io })
  else
    let io := setBits 31 31 1 (setBits 30 29 stage (setBits 28 26 kind
      (setBits 25 25 wr.toNat (setBits 24 20 src io))))
    State.raiseBy r.nevc 3
      (s.setPart p (fun q => { q with ioflt := io, iofaddr := BitVec.ofNat 64 (addr % 2 ^ 57) }))

/-! ### Accesses of the hub at virtual addresses (R432) -/

/-- Translates an address for a party other than a hart. -/
def Hub.xlateVa (hb : Hub) (fr part lvl : Nat) (acc : Acc) (va : Nat) : Except XFault (Nat × Bool) :=
  match hb.resolve fr false { va := va, acc := acc, lvl := lvl, part := part, tick := 0 } with
  | .ok x => .ok (x.addr va, x.device)
  | .error x => .error x

/-- The physical addresses of `n` bytes that the hub accesses; `none` where it cannot (R432). -/
def Hub.hubAddrs (hb : Hub) (fr part : Nat) (acc : Acc) (va n : Nat) : Option (List Nat) :=
  (List.range n).foldr (fun k (r : Option (List Nat)) =>
    let a := (va + k) % 2 ^ 57
    match r with
    | none => none
    | some l =>
      if inVault a || inQuire a then none
      else match hb.xlateVa fr part 1 acc a with
        | .ok (pa, _) => if hb.readFailure pa = 0 then some (pa :: l) else none
        | .error _ => none) (some [])

/-- The `n` bytes at a virtual address of a partition as the hub reads them, under the root, as an
access at supervisor level (R432); `none` on a fault or a failure. (DESIGN CHOICE: log entry 72.) -/
def Hub.readVa (hb : Hub) (fr part va n : Nat) : Option (List Byte) :=
  (hb.hubAddrs fr part .load va n).map (fun l => l.flatMap (fun pa => hb.hubBytes fr pa 1))

/-! ### Capability records and telemetry -/

/-- The enabled treads, cores or ports of a chiplet by the record in force (R32, R365). -/
def Hub.enabCount (hb : Hub) (n : Nat) : Nat :=
  if n < 12 then ((List.range (builtOn n)).filter (hb.enabled n)).length
  else if n = 12 then ((List.range 32).filter (fun k => hb.recBit (1408 + k))).length
  else ((List.range 12).filter (fun k => hb.recBit (1440 + 12 * (n - 13) + k))).length

/-- The capability record of a chiplet (R32). -/
def Hub.capRecord (hb : Hub) (n : Nat) : Nat :=
  let (d2d, ccls, vmib, flts, built, kind) : Nat × Nat × Nat × Nat × Nat × Nat :=
    if n < 8 then (200, 1, 8, 3, 52, 1) else if n < 12 then (200, 3, 4, 16, 68, 2)
    else if n = 12 then (20, 4, 0, 0, 32, 3) else (40, 4, 0, 0, 12, 4)
  (Config.serial n).toNat * 2 ^ 64 + d2d * 2 ^ 48 + ccls * 2 ^ 40 + vmib * 2 ^ 32 + flts * 2 ^ 24
    + hb.enabCount n * 2 ^ 16 + built * 2 ^ 8 + kind

/-- The telemetry value of a KIND and INDEX (R429): the latest sample; power reads 0 while the main input
is off (R430). -/
def Hub.telemetry (hb : Hub) (kind idx : Nat) : Nat :=
  if kind = 0 ∨ 5 < kind then 0
  else if kind = 1 ∧ (idx ≠ 0 ∨ !hb.power.mainOn) then 0
  else if kind = 4 ∧ (idx ≠ 0 ∨ !Config.isModule) then 0
  else if kind = 3 ∧ 12 ≤ idx then 0
  else ((hb.power.sample.find? (fun e => e.1 = kind * 512 + idx)).map (·.2)).getD 0 % 2 ^ 64

/-- The register `ISL` of an island (R427). -/
def Hub.islWord (hb : Hub) (i : Nat) : Word :=
  let x := hb.island i
  BitVec.ofNat 64 (x.req % 8 + x.cur % 8 * 2 ^ 8 + x.cap % 8 * 2 ^ 16 + x.chg.isSome.toNat * 2 ^ 24)

/-! ### Reads -/

/-- A read of a partition's block at S (`lvl` 1) or M; `none` is a refusal (R342, R343).
(DESIGN CHOICE: log entry 40.) -/
def Hub.partRead (hb : Hub) (p lvl off : Nat) : Option Word :=
  let r := hb.part p
  match off with
  | 0x000 => some r.qctl
  | 0x008 => some r.ncrq
  | 0x010 => some r.calst
  | 0x018 => some r.calkid
  | 0x020 => some (setBits 0 0 0 r.calctl)
  | 0x028 => if lvl = 2 then some r.ordc else none
  | 0x030 => some r.pquota
  | 0x038 => some r.pchip
  | 0x040 => some r.xl1
  | 0x048 => some r.xl2
  | 0x050 => some r.tdtb
  | 0x058 => some r.qtb
  | 0x060 => some r.connb
  | 0x068 => some r.svecp
  | 0x070 => some r.ioflt
  | 0x078 => some r.iofaddr
  | 0x080 => some r.preq
  | 0x088 => some r.preqg
  | 0x098 => some r.nevc
  | _ => some 0

/-- A read of the monitor block (R358, R388, R398, R427, R428, R429). (DESIGN CHOICE: log entry 40.) -/
def Hub.monRead (hb : Hub) (off : Nat) : Word :=
  let m := hb.mon
  if off < 0x48 ∨ (0xc8 ≤ off ∧ off < 0x100) ∨ (0x180 ≤ off ∧ off < 0x1c0) then
    match off with
    | 0x00 => m.xlm
    | 0x08 => m.chctl
    | 0x10 => m.ncore
    | 0x18 => m.ncaddr
    | 0x20 => m.mvecg
    | 0x28 => m.dirq
    | 0x30 => (hb.lineMeta (lineOf m.dirq.toNat)).dir.zeroExtend 64
    | 0x40 => m.iounb
    | 0xc8 => m.ctxres
    | 0xd0 => m.errst
    | 0xd8 => m.erraddr
    | 0xe0 => m.pwrctl
    | 0xe8 => m.telsel
    | 0xf0 => BitVec.ofNat 64 (hb.telemetry (wbits 15 12 m.telsel) (wbits 8 0 m.telsel))
    | 0xf8 => m.bstat
    | 0x188 => m.mevc
    | 0x190 => m.pknum
    | 0x198 => m.pkdom
    | 0x1a0 => m.trlen
    | 0x1a8 => BitVec.ofNat 64 lpBytes
    | 0x1b0 => m.hbmcap
    | _ => 0
  else if off % 8 ≠ 0 then 0
  else if 0x48 ≤ off ∧ off < 0xc8 then m.ctxb.toList.getD ((off - 0x48) / 8) 0
  else if 0x100 ≤ off ∧ off < 0x178 then m.chst.toList.getD ((off - 0x100) / 8) 0
  else if 0x1c0 ≤ off ∧ off < 0x200 then
    (if off % 16 = 0 then m.t2base else m.t2size).toList.getD ((off - 0x1c0) / 16) 0
  else if 0x1000 ≤ off ∧ off < 0x10f0 then
    BitVec.ofNat 64 (hb.capRecord ((off - 0x1000) / 16) / 2 ^ (off % 16 * 8))
  else if 0x2000 ≤ off ∧ off < 0x3000 then
    (if off < 0x2800 then NMap.get 0 ((off - 0x2000) / 8) m.streams[0]
     else NMap.get 0 ((off - 0x2800) / 8) m.streams[1])
  else if 0x4000 ≤ off ∧ off < 0x5000 then hb.islWord ((off - 0x4000) / 8)
  else 0

/-- A read of configuration space by code of a partition and level (R342). -/
def Hub.cfgRead (hb : Hub) (part lvl off : Nat) : Option Word :=
  if off < 0x100000 then (if lvl = 2 then some (hb.monRead off) else none)
  else
    let p := (off - 0x100000) / 0x10000
    if lvl = 2 ∨ (lvl = 1 ∧ p = part) then hb.partRead p lvl (off % 0x10000) else none

/-! ### Writes -/

/-- A write that starts a command: ignored while ST is 1, otherwise the fields of a mask are taken and ST
becomes 1 (R211, R258, R280, R359, R362). The read-only fields of the last command, CAUSE among them, read 0 until the
command ends. (DESIGN CHOICE: log entry 121.) -/
def startCmd (mask : Nat) (old v : Word) : Word :=
  if wbits 63 62 old = 1 then old else setBits 63 62 1 (v &&& BitVec.ofNat 64 mask)

/-- Ends a command with ST and CAUSE at [61:58] or [55:52]. -/
def endCmd (st : Nat) (r : Word) : Word := setBits 63 62 st r

/-- A write of `NDOOR` (R339): at S only for a core of the partition; `none` is a refusal. -/
def State.ndoor (lvl part : Nat) (v : Word) (s : State) : Option State :=
  let c := wbits 4 0 v
  let own : Bool := match s.hart? (.core c) with
    | some h => h.partNo = part
    | none => false
  if lvl = 2 ∨ own then some (s.pendEvent c 1) else none

/-- A write of `MDOOR` (R339). -/
def State.mdoor (v : Word) (s : State) : State := s.pendEvent (wbits 4 0 v) 1

/-- The values of a field of every partition, with one partition's replaced. -/
def Hub.sumWith (hb : Hub) (p v : Nat) (f : PartRegs → Nat) : Nat :=
  ((List.range 16).map (fun q => if q = p then v else f (hb.part q))).sum

/-- A write of `CALCTL.QUOTA` (R321). -/
def State.quotaWrite (p : Nat) (v : Word) (s : State) : State :=
  if 256 < s.hub.sumWith p (wbits 40 32 v) (fun r => wbits 40 32 r.calctl) then s
  else s.setPart p (fun r => { r with calctl := setBits 40 32 (wbits 40 32 v) 0 })

/-- `CALCTL.FLUSH` (R321): unpinned entries of the partition go, pinned ones when they are unpinned. -/
def State.calFlush (p : Nat) (s : State) : State :=
  { s with hub := { s.hub with quires := (s.hub.quires.filter (fun q =>
      q.part ≠ p || !q.pins.isEmpty)).map (fun q => if q.part = p then { q with stale := true } else q) } }

/-- A write of the monitor to `CALST` or `CALKID` (R321). -/
def State.calClear (p : Nat) (s : State) : State :=
  s.setPart p (fun r => { r with calst := 0, calkid := 0 })

/-- A write of `PQUOTA` (R345). -/
def State.pquota (p : Nat) (v : Word) (s : State) : State :=
  if 65536 < s.hub.sumWith p (wbits 47 32 v) (fun r => wbits 47 32 r.pquota)
    ∨ 1048576 < s.hub.sumWith p (wbits 20 0 v) (fun r => wbits 20 0 r.pquota) then s
  else s.setPart p (fun r => { r with pquota := maskWrite 0xffff001fffff r.pquota v })

/-- The Arcades read the connection table (R344, R346). -/
def State.readConns (p : Nat) (s : State) : State :=
  let r := (s.hub.part p).connb
  let entry (q : Nat) : Option Conn :=
    if !r.getLsbD 0 then none
    else
      (s.hub.readVa s.free p (wbits 56 12 r * 4096 + 64 * q) 64).map (fun bs =>
        let raw := leBytes bs
        { part := p, q := q, raw := raw, spsn := bitsOf 327 304 raw, epsn := bitsOf 303 280 raw,
          err := false })
  { s with free := s.free + 1, hub := { s.hub with
    conns := s.hub.conns.filter (fun c => c.part ≠ p) ++ (List.range 16).filterMap entry } }

/-- The bits of a table register of R344. -/
def tableMask : Nat := 2 ^ 57 - 4096 + 1

/-- A write of `CONNB` (R344, R346). -/
def State.connb (p : Nat) (v : Word) (s : State) : State :=
  (s.setPart p (fun r => { r with connb := maskWrite tableMask r.connb v })).readConns p

/-- A write of `MEXT` (R367): the digest of a partition's image, once for each index.
(DESIGN CHOICE: log entry 48.) -/
def State.mext (v : Word) (s : State) : State :=
  let i := 16 + wbits 3 0 v
  if NMap.get [] i s.hub.mext = [] then
    { s with free := s.free + 1, hub := { s.hub with
      mext := NMap.put [] i (s.hub.hubBytes s.free (wbits 51 12 v * 4096) 32) s.hub.mext } }
  else s

/-- A write of `DIRQ` (R358). (DESIGN CHOICE: log entry 40.) -/
def State.dirq (v : Word) (s : State) : State := s.setMon (fun m => { m with dirq := v })

/-- A write of `PKNUM` (R24). -/
def State.pknum (v : Word) (s : State) : State :=
  s.setMon (fun m => if wbits 7 0 m.trlen = 0 then { m with pknum := maskWrite 0x3f 0 v } else m)

/-- A gang has a saved context. -/
def Gang.hasCtx (g : Gang) : Bool := g.st = .saved || g.st = .parked

/-- A write of `CTXRES` (R388): ignored while any context is saved; 85 at most. -/
def State.ctxres (v : Word) (s : State) : State :=
  if s.hub.launches.any (fun l => l.gangs.any Gang.hasCtx) ∨ 85 < wbits 6 0 v then s
  else s.setMon (fun m => { m with ctxres := maskWrite 0x7f 0 v })

/-- A write of `IOFLT`, `IOUNB` or `ERRST` (R357, R358, R398): the counter is cleared, and a 1 clears
VALID. -/
def State.counterClear (r : CounterReg) (v : Word) (s : State) : State :=
  let clear (old : Word) : Word :=
    setBits 63 32 0 (if v.getLsbD 31 then setBits 31 31 0 old else old)
  match r with
  | .ioflt p => s.setPart p (fun q => { q with ioflt := clear q.ioflt })
  | .iounb => s.setMon (fun m => { m with iounb := 0 })
  | .errst => s.setMon (fun m => { m with errst := clear m.errst })

/-- Changes an island. -/
def State.setIsl (i : Nat) (f : Island → Island) (s : State) : State :=
  { s with hub := { s.hub with isl := NMap.put Island.zero i (f (s.hub.island i)) s.hub.isl } }

/-- A write of `ISL.REQ` (R426, R427): ignored where the island is not requestable. -/
def State.islReq (i : Nat) (v : Word) (s : State) : State :=
  if i < 120 then s.setIsl i (fun x => { x with req := wbits 2 0 v }) else s

/-- A write of `PWRCTL.LIMIT` (R428). -/
def State.pwrctl (v : Word) (s : State) : State :=
  s.setMon (fun m => { m with pwrctl := setBits 15 0 (Nat.min (wbits 15 0 v) powerLimit) m.pwrctl })

/-- A write of `TELSEL` (R429). -/
def State.telsel (v : Word) (s : State) : State :=
  s.setMon (fun m => { m with telsel := maskWrite 0xf1ff 0 v })

/-- A write of a register of a partition's block without behaviour of its own (R343). -/
def State.plainPart (p off : Nat) (v : Word) (s : State) : State :=
  s.setPart p (fun r =>
    match off with
    | 0x028 => { r with ordc := BitVec.ofNat 64 (Nat.max 1 (wbits 7 0 v)) }
    | 0x040 => { r with xl1 := maskWrite (2 ^ 63 + 2 ^ 52 - 4096) 0 v }
    | 0x048 => { r with xl2 := maskWrite (2 ^ 63 + 2 ^ 52 - 4096) 0 v }
    | 0x050 => { r with tdtb := maskWrite tableMask 0 v }
    | 0x058 => { r with qtb := maskWrite tableMask 0 v }
    | 0x068 => { r with svecp := maskWrite (2 ^ 57 - 1) 0 v }
    | 0x088 => if wbits 63 62 r.preq = 1 then r else { r with preqg := maskWrite (2 ^ 32 - 1) 0 v }
    | 0x098 => { r with nevc := maskWrite 0x9f 0 v }
    | _ => r)

/-- A write of a register of the monitor block without behaviour of its own (R358, R388). -/
def State.plainMon (off : Nat) (v : Word) (s : State) : State :=
  s.setMon (fun m =>
    if off = 0x00 then { m with xlm := maskWrite (2 ^ 63 + 2 ^ 52 - 4096) 0 v }
    else if off = 0x18 then { m with ncaddr := maskWrite (2 ^ 57 - 1) 0 v }
    else if off = 0x20 then { m with mvecg := maskWrite (2 ^ 57 - 1) 0 v }
    else if off = 0x188 then { m with mevc := maskWrite 0x9f 0 v }
    else if off = 0x198 then { m with pkdom := v }
    else if off = 0x1a0 then { m with trlen := maskWrite 0xff 0 v }
    else if off % 8 ≠ 0 then m
    else if g : 0x48 ≤ off ∧ off < 0xc8 then
      let i := (off - 0x48) / 8
      have hi : i < 16 := by have := g.1; have := g.2; omega
      let b := m.ctxb.set i (maskWrite (2 ^ 60 - 2 ^ 28) 0 v) hi
      { m with ctxb := b }
    else if 0x2000 ≤ off ∧ off < 0x3000 then
      let k := maskWrite (63 * 2 ^ 58 + 255 * 2 ^ 32) 0 v
      if off < 0x2800 then
        { m with streams := m.streams.set 0 (NMap.put 0 ((off - 0x2000) / 8) k m.streams[0]) }
      else
        { m with streams := m.streams.set 1 (NMap.put 0 ((off - 0x2800) / 8) k m.streams[1]) }
    else m)

/-- A write of a partition's block at S or M; `none` is a refusal (R342, R343). -/
def State.partWrite (p lvl off : Nat) (v : Word) (s : State) : Option State :=
  match off with
  | 0x000 =>
    let busy : Bool := wbits 63 62 (s.hub.part p).qctl = 1
    let s := s.setPart p (fun r => { r with qctl := startCmd 0xcfff r.qctl v })
    some (if busy then s else { s with hub := { s.hub with queues := s.hub.queues.map (fun x =>
      if x.part = p ∧ x.q = wbits 11 0 v then x.enter .command else x) } })
  | 0x008 => some (s.setPart p (fun r => { r with
      ncrq := startCmd (2 ^ 57 + 2 ^ 54 - 2 ^ 21) r.ncrq v }))
  | 0x010 | 0x018 => if lvl = 2 then some (s.calClear p) else none
  | 0x020 =>
    let s := if lvl = 2 then s.quotaWrite p v else s
    some (if v.getLsbD 0 then s.calFlush p else s)
  | 0x030 => if lvl = 2 then some (s.pquota p v) else none
  | 0x038 => none
  | 0x060 => some (s.connb p v)
  | 0x070 => some (s.counterClear (.ioflt p) v)
  | 0x080 => some (s.setPart p (fun r => { r with preq := startCmd 0x3fffffff r.preq v }))
  | 0x090 => s.ndoor lvl p v
  | 0x028 | 0x048 => if lvl = 2 then some (s.plainPart p off v) else none
  | _ => some (s.plainPart p off v)

/-- A write of the monitor block (R358). -/
def State.monWrite (off : Nat) (v : Word) (s : State) : State :=
  match off with
  | 0x08 => s.setMon (fun m => { m with chctl := startCmd 0xff0f0f0f m.chctl v })
  | 0x10 => s.setMon (fun m => { m with ncore := startCmd 0x11f m.ncore v })
  | 0x28 => s.dirq v
  | 0x38 => s.mext v
  | 0x40 => s.counterClear .iounb v
  | 0xc8 => s.ctxres v
  | 0xd0 => s.counterClear .errst v
  | 0xe0 => s.pwrctl v
  | 0xe8 => s.telsel v
  | 0x180 => s.mdoor v
  | 0x190 => s.pknum v
  | _ =>
    if 0x4000 ≤ off ∧ off < 0x5000 ∧ off % 8 = 0 then s.islReq ((off - 0x4000) / 8) v
    else s.plainMon off v

/-- A write of configuration space by code of a partition and level (R342). -/
def State.cfgWrite (part lvl off : Nat) (v : Word) (s : State) : Option State :=
  if off < 0x100000 then (if lvl = 2 then some (s.monWrite off v) else none)
  else
    let p := (off - 0x100000) / 0x10000
    if lvl = 2 ∨ (lvl = 1 ∧ p = part) then s.partWrite p lvl (off % 0x10000) v else none

/-! ### The events that are register writes -/

/-- `NDOOR` written by the partition's supervisor (R339): refused for a core of another partition. -/
def execNdoorWrite (part : Nat) (val : Word) : Sem := fun s => .next ((s.ndoor 1 part val).getD s)
/-- `MDOOR` written (R339). -/
def execMdoorWrite (val : Word) : Sem := fun s => .next (s.mdoor val)
/-- `TCMP` of a core written (R339). -/
def execTcmpWrite (core : Nat) (val : Word) : Sem := fun s =>
  .next (s.mapHart (.core core) (fun h => { h with spr := { h.spr with tcmp := val } }))
/-- `CALCTL.QUOTA` written (R321). -/
def execCalctlQuotaWrite (part : Nat) (val : Word) : Sem := fun s => .next (s.quotaWrite part val)
/-- `CALCTL.FLUSH` written (R321). -/
def execCalctlFlush (part : Nat) : Sem := fun s => .next (s.calFlush part)
/-- `CALST` written by the monitor (R321). -/
def execCalstClear (part : Nat) : Sem := fun s => .next (s.calClear part)
/-- `PQUOTA` written (R345). -/
def execPquotaWrite (part : Nat) (val : Word) : Sem := fun s => .next (s.pquota part val)
/-- `MEXT` written (R367). -/
def execMextWrite (val : Word) : Sem := fun s => .next (s.mext val)
/-- `DIRQ` written (R358). -/
def execDirqWrite (val : Word) : Sem := fun s => .next (s.dirq val)
/-- `PKNUM` written (R24). -/
def execPknumWrite (val : Word) : Sem := fun s => .next (s.pknum val)
/-- `CTXRES` written (R388). -/
def execCtxresWrite (val : Word) : Sem := fun s => .next (s.ctxres val)
/-- A counter register written (R357, R358, R398). -/
def execCounterClearWrite (reg : CounterReg) (val : Word) : Sem := fun s =>
  .next (s.counterClear reg val)
/-- `ISL.REQ` written (R427). -/
def execIslReqWrite (isl : Nat) (val : Word) : Sem := fun s => .next (s.islReq isl val)
/-- `PWRCTL.LIMIT` written (R428). -/
def execPwrctlWrite (val : Word) : Sem := fun s => .next (s.pwrctl val)
/-- `TELSEL` written (R429). -/
def execTelselWrite (val : Word) : Sem := fun s => .next (s.telsel val)
/-- A register without behaviour of its own written (R6, R343, R358). -/
def execRegisterWrite (reg : PlainReg) (val : Word) : Sem := fun s =>
  match reg with
  | .monitor off => .next (s.plainMon off val)
  | .part p off => .next (s.plainPart p off val)

end Sys2Proof.Machine
end

