-- ==== Sys2Proof/Machine/Home.lean ====
section
/-! DEFINITION. The home slices: stamping writes (R190), granting leases (R191), the MOESI peers and the
directory (R196 to R202), atomics (R201, R232), vault stores and aperture deliveries (R185, R186), and
what ends an access of a hart (R203 to R206, R221, R226). Each event does nothing where what it
concerns does not stand as its rule asks. -/

namespace Sys2Proof.Machine

/-! ### Results that have arrived -/

/-- The effects of a result in flight have arrived; the result may stand in the held schedule (R374,
R385). -/
def Hart.deliver (seq : Nat) (effs : List Eff) (h : Hart) : Hart :=
  let put (sc : Sched) : Sched :=
    { sc with pipe := sc.pipe.map (fun p =>
        if p.seq = seq ∧ p.effs.isNone then { p with effs := some effs } else p) }
  { h with sched := put h.sched, ctl := { h.ctl with held := h.ctl.held.map put } }

/-- Removes a load that has been answered, and delivers its effects. -/
def Hart.finishAsk (seq : Nat) (effs : List Eff) (h : Hart) : Hart :=
  let h := h.deliver seq effs
  { h with lsu := { h.lsu with asks := h.lsu.asks.filter (fun a => a.seq ≠ seq) } }

/-- The effects of a load whose bytes are known (R227, R228). -/
def loadEffs (d : LoadDest) (bs : List Byte) : List Eff :=
  match d with
  | .scalar r w signed =>
    let v := leBytes bs
    let x : Int := if signed then signedOf (8 * w) v else v
    [.s r (BitVec.ofInt 64 x)]
  | .units shadow keys zeros =>
    let ws := keys.mapIdx (fun i k => (k, BitVec.ofNat 32 (leBytes ((bs.drop (4 * i)).take 4))))
    [.space shadow (ws ++ zeros.map (fun k => (k, 0#32)))]

/-- The ask with this place in the issue order is tried again in the next tick. -/
def Hart.retryAsk (seq clk : Nat) (h : Hart) : Hart :=
  { h with lsu := { h.lsu with asks := h.lsu.asks.map (fun a =>
      if a.seq = seq then { a with tick := clk + 1 } else a) } }

/-- The write with this place in the issue order is tried again in the next tick. -/
def Hart.retryWrite (seq clk : Nat) (h : Hart) : Hart :=
  { h with lsu := { h.lsu with writes := h.lsu.writes.map (fun w =>
      if w.seq = seq then { w with tick := clk + 1 } else w) } }

/-- Removes a write. -/
def Hart.dropWrite (seq : Nat) (h : Hart) : Hart :=
  { h with lsu := { h.lsu with writes := h.lsu.writes.filter (fun w => w.seq ≠ seq) } }

/-- Sets the pending bits that failure bits name (R204, R205). -/
def Hart.setFailure (bits : Nat) (h : Hart) : Hart :=
  { h with units := { h.units with pending := h.units.pending ||| BitVec.ofNat 5 (bits % 8) } }

/-- The signal of an operation lands (R84). -/
def Hart.signal (sig : Option (Nat × Nat)) (h : Hart) : Hart :=
  match sig with
  | some (n, inc) => h.semChange n 0 inc false
  | none => h

/-! ### MOESI peers (R196 to R202) -/

/-- The logical time of a peer. -/
def State.peerLt (p : Nat) (s : State) : Nat :=
  if p < 32 then ((s.hart? (.core p)).map (fun h => h.spr.lt)).getD 0
  else if p = 32 then s.hub.arcLt[0] else s.hub.arcLt[1]

/-- Raises the logical time of a peer (R196). -/
def State.peerSee (p t : Nat) (s : State) : State :=
  if p < 32 then s.mapHart (.core p) (Hart.raiseLt t)
  else
    let a := s.hub.arcLt
    let a := if p = 32 then a.set 0 (Nat.max a[0] t) else a.set 1 (Nat.max a[1] t)
    { s with hub := { s.hub with arcLt := a } }

/-- The floor of a peer's writes (R189): an Arcade engine has its LT alone, which its own writes raise.
(DEDUCED: log entry 118.) -/
def State.peerFloor (p : Nat) (s : State) : Nat :=
  if p < 32 then ((s.hart? (.core p)).map Hart.floor).getD 0 else s.peerLt p

/-- A line as a peer holds it. -/
def Hub.peerLine (hb : Hub) (p line : Nat) : Option PeerLine :=
  hb.peers.find? (fun x => x.peer = p && x.line = line)

/-- Puts a line into a peer's cache. -/
def Hub.setPeer (x : PeerLine) (hb : Hub) : Hub :=
  { hb with peers := x :: hb.peers.filter (fun y => !(y.peer = x.peer && y.line = x.line)) }

/-- Takes a line out of a peer's cache. -/
def Hub.dropPeer (p line : Nat) (hb : Hub) : Hub :=
  { hb with peers := hb.peers.filter (fun y => !(y.peer = p && y.line = line)) }

/-- A tenure ends (R199): the line takes the time of its last write, or stays at the bound. -/
def Hub.endTenure (line : Nat) (hb : Hub) : Hub :=
  match (hb.lineMeta line).tenure with
  | none => hb
  | some t => hb.setLine line (fun m =>
      { m with wts := t.last.getD (t.b + 255), rts := Nat.max m.rts (t.b + 255), tenure := none })

/-- Invalidations that have not led to a write yet begin anew (R198): a write that had sent some is gone. -/
def Hub.restartInvs (hb : Hub) : Hub := { hb with invs := hb.invs.filter (·.isRecall) }

/-- An invalidation of a line has been sent, and the write has no stamp yet: until then no peer fills the line to
share it (R190, R198). -/
def Hub.invalidated (hb : Hub) (line : Nat) : Bool := hb.invs.any (fun i => i.line = line && !i.isRecall)

/-- A locked sequence of a peer holds a line: what would take the line away is deferred (R202). -/
def Hub.locks (hb : Hub) (peer line : Nat) : Bool :=
  hb.locked.any (fun l => l.line = line && l.peer = peer && l.held)

/-- Something waits for a locked sequence since now, or since before (R202). -/
def Hub.defer (peer line : Nat) (hb : Hub) : Hub :=
  { hb with locked := hb.locked.map (fun l =>
      if l.line = line ∧ l.peer = peer then { l with deferred := some (l.deferred.getD hb.clk) } else l) }

/-- The memory copy takes the owner's bytes, with a new check value (R196, R201, R395). -/
def Hub.takeBack (line : Nat) (hb : Hub) : Hub :=
  match hb.owner line with
  | some p => Hub.mscWrite line
      ({ hb with mem := putBytes (line * 128) p.bytes hb.mem }.setLine line (fun m => { m with syn := 0 }))
  | none => hb

/-- Sends the invalidations that a write to a line needs (R190, R198): `none` when every covered peer but
the writer has answered, otherwise the state that waits. -/
def State.clearPeers (line : Nat) (except : Option Nat) (s : State) : Option State :=
  let ps := (covered (s.hub.lineMeta line).dir).filter (fun p => some p ≠ except)
  let sent (p : Nat) : Bool :=
    s.hub.invs.any (fun i => i.peer = p && i.line = line && !i.isRecall)
  let open_ (p : Nat) : Bool :=
    s.hub.invs.any (fun i => i.peer = p && i.line = line && !i.isRecall && i.tick.isSome)
  let missing := ps.filter (fun p => !sent p)
  if missing.isEmpty ∧ !ps.any open_ then none
  else
    let new := missing.map (fun p =>
      { peer := p, line := line, isRecall := false, tick := some (s.hub.clk + freeAt s.free p),
        lt := 0 : Inv })
    some { s with free := s.free + 1, hub := { s.hub with invs := s.hub.invs ++ new } }

/-- A peer answers an invalidation (R198): with its LT, which the stamp will exceed; its data, if it held
the latest, goes to the memory copy. A locked sequence defers it (R202). -/
def execInvalidationAck (peer line : Nat) : Sem := fun s =>
  let mine (i : Inv) : Bool := i.peer = peer && i.line = line && !i.isRecall && i.tick.isSome
  if !s.hub.invs.any mine then .next s
  else if s.hub.locks peer line then .next { s with hub := s.hub.defer peer line }
  else
    let t := s.peerLt peer
    let held := (s.hub.peerLine peer line).isSome
    let hb := s.hub
    let excl : Bool := match hb.exclusive line with
      | some p => p.peer = peer
      | none => false
    let hb := if excl then (hb.takeBack line).endTenure line else hb
    let hb := if held then hb.dropPeer peer line else hb
    .next { s with hub := { hb with
      invs := hb.invs.map (fun i => if mine i then { i with tick := none, lt := t } else i) } }

/-- The entry of a line whose holder in E has come to share it: OWN is 0 (R197). -/
def disown (d : BitVec 32) : BitVec 32 := if d.getLsbD 31 then d else pointers false (covered d)

/-- The recall of a line takes effect (R201): the holder's data goes to the memory copy, the tenure ends
and the holder keeps the line shared. One that has evicted the line meanwhile answers "not held", and no longer
stands in the entry (R200). A locked sequence defers it (R202). -/
def execRecallLine (line : Nat) : Sem := fun s =>
  match s.hub.invs.find? (fun i => i.line = line && i.isRecall) with
  | none => .next s
  | some i =>
    let done (hb : Hub) : Hub := { hb with invs := hb.invs.filter (fun i => !(i.line = line && i.isRecall)) }
    match s.hub.exclusive line with
    | none =>
      .next { s with hub := done (if (s.hub.peerLine i.peer line).isSome then s.hub
        else s.hub.setLine line (fun m => { m with dir := dirDrop i.peer m.dir })) }
    | some p =>
      if s.hub.locks p.peer line then .next { s with hub := s.hub.defer p.peer line }
      else
        let hb := ((s.hub.takeBack line).endTenure line).setPeer { p with st := .S }
        let hb := hb.setLine line (fun m =>
          { m with dir := disown m.dir })
        .next { s with hub := done hb }

/-- A deferred recall has waited 256 cycles of the hub (R202): the line is surrendered with its contents
from before the sequence, and the responder starts again. -/
def execLockedSequenceTimeout (peer line : Nat) : Sem := fun s =>
  let late (l : Locked) : Bool :=
    l.peer = peer && l.line = line && l.held && (match l.deferred with
      | some t => t + 256 ≤ s.hub.clk
      | none => false)
  match s.hub.locked.find? late with
  | none => .next s
  | some l =>
    let hb := match s.hub.peerLine peer line with
      | some p => s.hub.setPeer { p with bytes := l.old }
      | none => s.hub
    .next { s with
      free := s.free + 1,
      hub := { hb with locked := hb.locked.map (fun x =>
        if x = l then { x with held := false, deferred := none,
                               tick := s.hub.clk + 1 + Config.freeNat s.free } else x) } }

/-- Grants a line to a peer in M or E with a new tenure (R199), once every other peer has answered. -/
def State.grantOwn (st : Moesi) (peer line : Nat) (s : State) : Option State :=
  match s.clearPeers line (some peer) with
  | some s' => some s'
  | none =>
    let old := (s.hub.peerLine peer line).map (·.bytes)
    let hb := s.hub.endTenure line
    let hb := if old.isSome then hb else hb.readLine line
    let m := hb.lineMeta line
    let b := hb.stampTime 0 0 line (s.peerFloor peer)
    let bytes := old.getD (bytesAt hb.mem (line * 128) 128)
    let hb := hb.setPeer { peer := peer, line := line, st := st, bytes := bytes }
    let hb := hb.setLine line (fun x =>
      { x with wts := b + 255, rts := b + 255, dir := pointers true [peer],
               tenure := some { peer := peer, b := b, last := none } })
    some (State.peerSee peer m.wts { s with hub := { hb with
      invs := hb.invs.filter (fun i => i.line ≠ line) } })

/-- Grants a line to a peer to share (R196, R198): an owner in M keeps it in O, one in E shares it; a
fifth distinct peer makes the entry coarse, and an owner's data is then recalled.
(DESIGN CHOICE: log entry 34.) -/
def State.grantShared (peer line : Nat) (s : State) : State :=
  match s.hub.peerLine peer line with
  | some _ => s
  | none =>
    let hb := s.hub.endTenure line
    let hb := match hb.exclusive line with
      | some q =>
        if q.st = Moesi.E then (hb.setPeer { q with st := .S }).setLine line (fun m => { m with dir := disown m.dir })
        else hb.setPeer { q with st := .O }
      | none => hb
    let hb := if (hb.owner line).isSome then hb else hb.readLine line
    let m := hb.lineMeta line
    let d := dirFill peer false m.dir
    let hb := if d.getLsbD 31 then
        match hb.owner line with
        | some q => (hb.takeBack line).setPeer { q with st := .S }
        | none => hb
      else hb
    let bytes := match hb.owner line with
      | some q => q.bytes
      | none => bytesAt hb.mem (line * 128) 128
    let hb := hb.setPeer { peer := peer, line := line, st := .S, bytes := bytes }
    let hb := hb.setLine line (fun x => { x with dir := d })
    State.peerSee peer m.wts { s with hub := hb }

/-- A line is locked against its holder's recall (R202). -/
def Hub.lockHeld (hb : Hub) (line : Nat) : Bool := hb.locked.any (fun l => l.line = line && l.held)

/-- A peer may write a line in this state without a further grant (R196). -/
def Moesi.owns : Moesi → Bool
  | .M | .E => true
  | _ => false

/-- A request of a peer for a line of host memory has not been answered (R39). -/
def Hub.asking (hb : Hub) (peer line : Nat) : Bool :=
  hb.exts.any (fun e => e.pa = line * 128 && e.cxl.any (fun c => c.1 = peer))

/-- A peer sends a request for a host line (R39); a request for the line that it waits for is sent once. -/
def State.askHost (port peer line : Nat) (req : CxlReq) (s : State) : State :=
  let write : Bool := req = .cleanEvict || req = .dirtyEvict || req = .itoMWr
  if !write ∧ s.hub.asking peer line then s
  else (s.sendFor (.core peer) (some (peer, req)) (.host port) (line * 128) 128 write).2

/-- A peer fills a line of host memory (R39): another cache of the package that holds it passes it on, otherwise the
host is asked. (DESIGN CHOICE: log entry 34.) -/
def State.hostFill (port peer line : Nat) (own : Bool) (s : State) : State :=
  let ours := s.hub.peers.filter (fun p => p.line = line)
  let put (peers : List PeerLine) : State := { s with hub := { s.hub with peers := peers } }
  let rest := s.hub.peers.filter (fun p => p.line ≠ line)
  match ours.find? (fun p => p.st.owns || p.st = .O) with
  | some q =>
    if own then put ({ q with peer := peer, st := .M } :: rest)
    else if ours.any (fun p => p.peer = peer) then s
    else put ({ q with peer := peer, st := .S } :: s.hub.peers.map (fun p =>
      if p = q then { p with st := if p.st = .E then .S else .O } else p))
  | none =>
    if own then s.askHost port peer line .rdOwn
    else match ours.head? with
      | some q => if ours.any (fun p => p.peer = peer) then s else put ({ q with peer := peer } :: s.hub.peers)
      | none => s.askHost port peer line .rdShared

/-- The host answers a peer's request with a line (R39). -/
def State.takeHost (peer line : Nat) (req : CxlReq) (data : List Byte) (s : State) : State :=
  let bytes := (List.range 128).map (fun k => data.getD k 0#8)
  match req with
  | .rdShared => { s with hub := s.hub.setPeer { peer := peer, line := line, st := .S, bytes := bytes } }
  | .rdOwn =>
    let hb : Hub := { s.hub with peers := s.hub.peers.filter (fun p => p.line ≠ line) }
    { s with hub := hb.setPeer { peer := peer, line := line, st := .E, bytes := bytes } }
  | _ => s

/-- A peer evicts a line, and the notice reaches the home (R200): a dirty one brings its data, and ends the tenure; a
clean one that crosses an invalidation is discarded. A line of host memory goes back to the host (R39). -/
def State.evict (peer line : Nat) (s : State) : State :=
  match s.hub.peerLine peer line, s.hub.localLoc (line * 128) with
  | none, _ => s
  | some p, .host port =>
    State.askHost port peer line (if p.st = .M ∨ p.st = .O then .dirtyEvict else .cleanEvict)
      { s with hub := s.hub.dropPeer peer line }
  | some p, _ =>
    let hb := s.hub
    let crossing := hb.invs.any (fun i => i.peer = peer && i.line = line)
    let hb := if p.st = .M ∨ p.st = .O then (hb.takeBack line).endTenure line
      else if p.st = .E then hb.endTenure line else hb
    let hb := hb.dropPeer peer line
    { s with hub :=
      if crossing then hb else hb.setLine line (fun m => { m with dir := dirDrop peer m.dir }) }

/-- An eviction notice reaches the home (R200); a line in a locked sequence is not evicted (R202). -/
def execEvictionNotice (peer line : Nat) : Sem := fun s =>
  if s.hub.locks peer line then .next s else .next (s.evict peer line)

/-- A core's cache holds 1 MiB, 8,192 lines (R30): one that is too full evicts another line than the newest, freely
chosen. (DESIGN CHOICE: log entry 32.) -/
def State.peerRoom (peer line : Nat) (s : State) : State :=
  let ls := (s.hub.peers.filter (fun p => p.peer = peer)).map (·.line)
  if 32 ≤ peer ∨ ls.length ≤ 8192 then s
  else
    let others := ls.filter (fun l => l ≠ line)
    match others[Config.freeChoice s.free % Nat.max 1 others.length]? with
    | some l => State.evict peer l { s with free := s.free + 1 }
    | none => s

/-- A line is filled to be read (R196): where no peer holds it, the home may grant it in E (a free choice), otherwise
it is shared. (DESIGN CHOICE: log entry 34.) -/
def State.grantRead (peer line : Nat) (s : State) : State :=
  let e := (covered (s.hub.lineMeta line).dir).isEmpty && Config.freeBool s.free
  let s := { s with free := s.free + 1 }
  if e then (s.grantOwn .E peer line).getD s else s.grantShared peer line

/-- A peer fills a line (R39, R196, R198, R199). A line in a locked sequence is recalled first (R202). -/
def execPeerFill (peer line : Nat) (own : Bool) : Sem := fun s =>
  let loc := s.hub.localLoc (line * 128)
  if 34 ≤ peer ∨ !loc.cacheable then .next s
  else if let .host port := loc then .next ((s.hostFill port peer line own).peerRoom peer line)
  else if s.hub.lockHeld line ∧ (s.hub.peerLine peer line).isNone then
    .next ((s.recallOf line).getD s)
  else if own then .next (((s.grantOwn .M peer line).getD s).peerRoom peer line)
  else if s.hub.invalidated line ∨ (s.hub.peerLine peer line).isSome then .next s
  else .next ((s.grantRead peer line).peerRoom peer line)

/-! ### Stamping (R190) -/

/-- A partial write of a poisoned line (R396). -/
def Hub.poisonHit (hb : Hub) (part node line n : Nat) : Bool :=
  decide (n < 128) && (if node = 0 then (hb.lineMeta line).verify.poison
    else (hb.version part node line).any (·.poison))

/-- A write to tier-2 CXL memory waits for the device's acknowledgement in a `.pk` fence (R203). -/
def State.cxlAck (loc : Loc) (pa len : Nat) (s : State) : State :=
  match loc with
  | .cxl p => (s.sendOut (.cxl p) pa len true).2
  | _ => s

/-- After a write of core `n` at a home, the entry of its line holds the core alone (R198), and a copy that it shares
follows a committed write. -/
def Hub.writtenBy (n node line : Nat) (bs : List (Nat × Byte)) (hb : Hub) : Hub :=
  let hb := hb.setLine line (fun m => { m with dir := pointers false [n] })
  match hb.peerLine n line with
  | some p => if node = 0 then hb.setPeer { p with bytes := patch bs p.bytes } else hb
  | none => hb

/-- Commits a write of the acting hart (R190): its store time and the greatest stamp of its stores follow,
and its own cached copy. -/
def State.commitOwn (part node line : Nat) (bs : List (Nat × Byte)) (t : Nat) (quiet : Bool)
    (s : State) : State :=
  let tick := s.hub.clk + Config.freeNat s.free
  let hit := s.hub.poisonHit part node line bs.length
  let hb := s.hub.commit s.me.id tick part node line bs t quiet
  let hb := match s.me.coreNo with
    | some n => hb.writtenBy n node line bs
    | none => hb
  let s := { s with free := s.free + 1, hub := hb }
  s.modMe (fun h =>
    let h := if hit then h.setPending 2 else h
    let h := h.leaseWrite part node line bs t
    { h with spr := { h.spr with storeTime := t },
             lsu := { h.lsu with maxStamp := Nat.max h.lsu.maxStamp t } })

/-- The bytes of a write by offset in its line. -/
def Write.cells (w : Write) : List (Nat × Byte) :=
  match w.kind with
  | .store bs | .back bs => bs.map (fun (e : Nat × Byte) => (w.pa % 128 + e.1, e.2))
  | _ => []

/-- The time of a peer's next write to a line that it holds in M or E: within its tenure (R199), or at its floor where
the line is host memory, which has no home here. (DEDUCED: log entry 30.) -/
def Hub.tenureAt (floor peer line : Nat) (hb : Hub) : Option Nat :=
  match hb.peerLine peer line with
  | none => none
  | some p =>
    if (hb.localLoc (line * 128)).isHost then (if p.st.owns then some floor else none)
    else match (hb.lineMeta line).tenure with
      | some t =>
        let at_ := match t.last with
          | some l => Nat.max floor (l + 1)
          | none => Nat.max floor t.b
        if t.peer = peer ∧ at_ ≤ t.b + 255 then some at_ else none
      | none => none

/-- The core's tenure that covers its next write to a line, and the time of that write (R199). -/
def State.tenureTime (line : Nat) (s : State) : Option Nat :=
  s.me.coreNo.bind (fun n => s.hub.tenureAt s.me.floor n line)

/-- A peer writes a line it holds, within its tenure (R199). A whole line clears poison (R396). -/
def Hub.peerWrite (peer line : Nat) (bs : List (Nat × Byte)) (t : Nat) (hb : Hub) : Hub :=
  let hb := match hb.peerLine peer line with
    | some p => hb.setPeer { p with st := .M, bytes := patch bs p.bytes }
    | none => hb
  if (hb.localLoc (line * 128)).isHost then hb
  else
    let hb := hb.setLine line (fun m =>
      { m with tenure := m.tenure.map (fun x => { x with last := some t }), poison := m.poison && bs.length < 128 })
    ((hb.raise t).testWatches 0 0 line t).ringBells line bs

/-- A core writes a line it holds, within its tenure (R199). -/
def State.coreWrite (line : Nat) (bs : List (Nat × Byte)) (t : Nat) (s : State) : State :=
  match s.me.coreNo with
  | none => s
  | some n =>
    let hb := s.hub.peerWrite n line bs t
    let hit := s.hub.poisonHit 0 0 line bs.length
    State.modMe (fun h =>
      let h := if hit then h.setPending 2 else h
      { h with spr := { h.spr with storeTime := t },
               lsu := { h.lsu with maxStamp := Nat.max h.lsu.maxStamp t } }) { s with hub := hb }

/-- The word that a RoCEv2 atomic leaves (R202). -/
def rdmaWord (r : RdmaReq) (old : Nat) : Nat :=
  match r.op with
  | .fetchAdd => (old + leBytes (r.data.take 8)) % 2 ^ 64
  | _ => if old = leBytes ((r.data.drop 8).take 8) then leBytes (r.data.take 8) else old

/-- An engine writes a line that it holds in M: within its tenure, or with a new one (R199). -/
def State.heldWrite (peer line : Nat) (bs : List (Nat × Byte)) (s : State) : State :=
  let at_ (s : State) : Option Nat := s.hub.tenureAt (s.peerFloor peer) peer line
  let s := if (at_ s).isSome then s else (s.grantOwn .M peer line).getD s
  match at_ s with
  | some t => State.peerSee peer t { s with hub := s.hub.peerWrite peer line bs t }
  | none => s

/-- A locked sequence ends (R202): the word and its old value are settled on the line that the responder holds. -/
def State.endSequence (l : Locked) (s : State) : State :=
  let off := l.req.addr % 128
  let old := leBytes ((List.range 8).map (fun k => l.old.getD (off + k) 0#8))
  let s := s.heldWrite l.peer l.line ((toBytes 8 (rdmaWord l.req old)).mapIdx (fun k b => (off + k, b)))
  let s := s.modConn l.req.part l.req.conn (Conn.received 8)
  { s with hub := { s.hub with locked := s.hub.locked.filter (fun x => x.req ≠ l.req),
                               reply := .data (toBytes 8 old) } }

/-- What takes a line away at once waits for the locked sequences on it (R202), and they end in time.
(DESIGN CHOICE: log entry 49.) -/
def State.endSequences (line : Nat) (s : State) : State :=
  (s.hub.locked.filter (fun l => l.line = line && l.held)).foldl (fun s l => s.endSequence l) s

/-- A host snoop reaches a Newel or Arcade cache (R39): it is answered with the line's bytes where a cache
holds the latest, and an invalidating snoop removes every copy, once a locked sequence on the line has ended (R202). -/
def execHostSnoop (line : Nat) (inv : Bool) : Sem := fun s =>
  let host : Bool := match s.hub.localLoc (line * 128) with
    | .host _ => true
    | _ => false
  if !host then .next { s with hub := { s.hub with reply := .dropped } }
  else
    let s := s.endSequences line
    let r : Reply := match s.hub.owner line with
      | some p => .data p.bytes
      | none => .done
    let peers := if inv then s.hub.peers.filter (fun p => p.line ≠ line)
      else s.hub.peers.map (fun p => if p.line = line then { p with st := .S } else p)
    .next { s with hub := { s.hub with peers := peers, reply := r } }

/-! ### The hub's own writes (R190, R205, R432) -/

/-- Nobody: who makes the writes of the hub itself. -/
def hubId : HartId := .tread 0 0 0

/-- Every peer's copy of a line is invalidated, its data taken and its logical time counted, but for that of the peer who
writes (R190, R198), once the locked sequences on the line have ended (R202). (DESIGN CHOICE: log entry 49.) -/
def State.hubClear (writer : Option Nat) (line : Nat) (s : State) : State :=
  let s := s.endSequences line
  let ps := (covered (s.hub.lineMeta line).dir).filter (fun p => some p ≠ writer)
  let t := ps.foldl (fun t p => Nat.max t (s.peerLt p)) 0
  let hb := (s.hub.takeBack line).endTenure line
  let hb := hb.setLine line (fun m => { m with rts := Nat.max m.rts t })
  { s with hub := { hb with
    peers := hb.peers.filter (fun p => p.line ≠ line),
    invs := hb.invs.filter (fun i => i.line ≠ line) } }

/-- A write of bytes of one line by a party of the hub under the root (R190), stamped above a floor, or an atomic that
changes no byte (R232); a write of an aperture lands at once. -/
def State.hubWrite (floor line : Nat) (bs : List (Nat × Byte)) (s : State) : State :=
  let s := s.hubClear none line
  let t := s.hub.stampTime 0 0 line floor
  let hb := s.hub.commit hubId s.hub.clk 0 0 line bs t bs.isEmpty
  let mine (d : Delivery) : Bool := d.by_ = hubId
  let hb := (hb.deliveries.filter mine).foldl (fun hb d => hb.putCells d.cells) hb
  { s with hub := { hb with deliveries := hb.deliveries.filter (fun d => !mine d) } }

/-- Writes bytes from a physical address on, line by line, ascending (R187); bytes outside the package
leave it in requests, whose answers nothing waits for (R40). -/
def State.hubStore (floor pa : Nat) (bs : List Byte) (s : State) : State :=
  (splitLines pa bs.length).foldl (fun s r =>
    if (s.hub.loc r.1).here then
      s.hubWrite floor (lineOf r.1)
        (((bs.drop (r.1 - pa)).take r.2).mapIdx (fun k b => (r.1 % 128 + k, b)))
    else match (s.hub.loc r.1).outside with
      | some f => (s.sendFor hubId none f r.1 r.2 true).2
      | none => s) s

/-- The floor of the hub's own writes, for which R189 has none: above every stamp given so far.
(DESIGN CHOICE: log entry 119.) -/
def Hub.ownFloor (hb : Hub) : Nat := hb.stamp + 1

/-- The hub's read of bytes at a virtual address of a partition takes its time, the greatest stamp so far, so that it comes
after every write whose event led to it (R255, R259, R329). (DESIGN CHOICE: log entry 72.) -/
def State.hubSaw (part va n : Nat) (s : State) : State :=
  match s.hub.hubAddrs s.free part .load va n with
  | some pas => ((pas.map lineOf).eraseDups).foldl (fun s l =>
      if (s.hub.loc (l * 128)).here then
        { s with hub := s.hub.readAt 0 0 (locOf (l * 128)) 128 s.hub.stamp }
      else s) s
  | none => s

/-- An atomic of the hub on an 8-byte word of a partition (R265, R268, R432): `none` where the word cannot
be reached. -/
def State.hubAtomic (part va : Nat) (f : Word → Word) (s : State) : Option State :=
  match s.hub.hubAddrs s.free part .atomic va 8 with
  | some (pa :: _) =>
    let old := BitVec.ofNat 64 (leBytes (s.hub.hubBytes s.free pa 8))
    let s := { s with free := s.free + 1 }
    some (s.hubStore s.hub.ownFloor pa (toBytes 8 (f old).toNat))
  | _ => none

/-- A write of the hub to bytes at a virtual address of a partition; `none` where it cannot. -/
def State.hubWriteVa (part va : Nat) (bs : List Byte) (s : State) : Option State :=
  match s.hub.hubAddrs s.free part .store va bs.length with
  | some (pa :: _) => some ({ s with free := s.free + 1 }.hubStore s.hub.ownFloor pa bs)
  | _ => none

/-- The ERR bit of a connection's entry in memory is set or cleared (R346). -/
def State.markConn (part q : Nat) (err : Bool) (s : State) : State :=
  let r := (s.hub.part part).connb
  let va := wbits 56 12 r * 4096 + 64 * q
  if !r.getLsbD 0 then s
  else match s.hub.readVa s.free part va 1 with
    | some [b] => if b.getLsbD 1 = err then s
                  else (s.hubWriteVa part va [if err then b ||| 2#8 else b &&& 0xfd#8]).getD s
    | _ => s

/-- A write of `CONNB` clears the ERR bits of the table (R346). -/
def State.clearErrs (part : Nat) (s : State) : State :=
  (List.range 16).foldl (fun s q => s.markConn part q false) s

/-- What a write of a register at an offset of the configuration space does to memory: at `CONNB` of a partition's block
(R343, R346). -/
def State.afterConfig (off : Nat) (s : State) : State :=
  if 0x100000 ≤ off ∧ off % 0x10000 = 0x060 then s.clearErrs ((off - 0x100000) / 0x10000) else s

/-- `CONNB` is written (R344, R346): the Arcades read the table, and ERR of its entries is cleared. -/
def execConnbWrite (part : Nat) (val : Word) : Sem := fun s => .next ((s.connb part val).clearErrs part)

/-! ### Stamping stores (R190) -/

/-- Whether a write of a core takes its line into the core's cache (R196); one to a page of device type is carried out
at the home (R350). (DESIGN CHOICE: log entry 34.) -/
def State.coreCached (w : Write) (s : State) : Bool :=
  s.me.isCore && w.hyp = 0 && !w.dev && (s.hub.loc w.pa).cacheable

/-- The peer that a write of the acting hart leaves its copy: the core itself, but for a write to a page of device type
(R190, R350). -/
def State.sparedBy (w : Write) (s : State) : Option Nat := if w.dev then none else s.me.coreNo

/-- A register of the configuration space is written: the write is stamped as one of an aperture is (R186, R342). -/
def State.stampConfig (line : Nat) (s : State) : State :=
  let t := s.hub.stampTime 0 0 line s.me.floor
  State.modMe (fun h => { h with
      spr := { h.spr with storeTime := t },
      lsu := { h.lsu with maxStamp := Nat.max h.lsu.maxStamp t } })
    { s with hub := (s.hub.setLine line (fun m => { m with wts := t, rts := t })).raise t }

/-- A write leaves the package (R22, R40, R203). -/
def State.sendWrite (w : Write) (f : Far) (s : State) : State :=
  let (t, s) := s.sendOut f w.pa 8 true
  s.modMe (fun h => { h with lsu := { h.lsu with writes := h.lsu.writes.map (fun x =>
    if x.seq = w.seq then { x with tag := some t } else x) } })

/-- A store reaches its home (R190, R205, R342): refused, performed on a register, sent out of the
package, or stamped. -/
def State.stampStore (w : Write) (s : State) : State :=
  let loc := s.hub.loc w.pa
  let line := lineOf w.pa
  match loc with
  | .dead => s.modMe (fun h => (h.dropWrite w.seq).setPending 0)
  | .refused => s.modMe (fun h => (h.dropWrite w.seq).setPending 1)
  | .config off =>
    let v := BitVec.ofNat 64 (leBytes (w.cells.map (·.2)))
    let done := if w.wide ∧ w.cells.length = 8 ∧ w.pa % 8 = 0 then s.cfgWrite w.part w.lvl off v
      else none
    (match done with
      | some s => ((s.stampConfig line).afterConfig off).modMe (Hart.dropWrite w.seq)
      | none => s.modMe (fun h => (h.dropWrite w.seq).setPending 1))
  | _ =>
    if s.coreCached w then
      match s.tenureTime line with
      | some t => (s.coreWrite line w.cells t).modMe (Hart.dropWrite w.seq)
      | none => s.modMe (Hart.retryWrite w.seq s.hub.clk)
    else match loc.outside with
    | some f => s.sendWrite w f
    | none =>
      match s.clearPeers line (s.sparedBy w) with
      | some s => s.modMe (Hart.retryWrite w.seq s.hub.clk)
      | none =>
        let floor := if w.isBack ∧ s.me.ctl.run = .retired then Nat.max s.hub.base s.me.floor else s.me.floor
        let t := s.hub.stampTime w.part w.hyp line floor
        let s := s.commitOwn w.part w.hyp line w.cells t false
        let s := if w.isBack ∧ w.wide then { s with hub := s.hub.mscClean line } else s
        (s.cxlAck loc w.pa w.cells.length).modMe (Hart.dropWrite w.seq)

/-- A write on its way to its home, `sig.wr` apart. -/
def Write.plain (w : Write) : Bool :=
  w.tag.isNone && (match w.kind with
    | .signal .. => false
    | _ => true)

/-- A write that stores bytes. -/
def Write.isStore (w : Write) : Bool :=
  match w.kind with
  | .store _ | .back _ => true
  | _ => false

/-- The next write of a hart to be stamped: writes are stamped in program order (R187, R194). -/
def Hart.headWrite (h : Hart) : Option Write := h.lsu.writes.find? Write.plain

/-- A write reaches its home (R190). -/
def execWriteStamp (h : HartId) : Sem := fun s =>
  .next (s.onHart h (fun s =>
    match s.me.headWrite with
    | some w => if w.isStore ∧ w.tick ≤ s.hub.clk then s.stampStore w else s
    | none => s))

/-! ### Atomics (R201, R232, R247) -/

/-- The new value of an atomic (R232): by operation and width. -/
def amoApply (op : AmoOp) (w : Nat) (old v cmp : Nat) : Nat :=
  match op with
  | .add => (old + v) % 2 ^ w
  | .min => if signedOf w v < signedOf w old then v else old
  | .max => if signedOf w old < signedOf w v then v else old
  | .minu => Nat.min old v
  | .maxu => Nat.max old v
  | .and => old &&& v
  | .or => old ||| v
  | .xor => old ^^^ v
  | .xchg => v
  | .cas => if old = cmp then v else old

/-- The value that an atomic returns (R232). -/
def amoResult (op : AmoOp) (w old : Nat) : Word :=
  match op with
  | .minu | .maxu => BitVec.ofNat 64 old
  | _ => BitVec.ofInt 64 (signedOf w old)

/-- A write of `width` bytes at its place under a node: the old value there. -/
def Hub.valueAt (hb : Hub) (part node pa width : Nat) : Nat :=
  leBytes (hb.visBytes part node (locOf pa) width)

/-- An access of an atomic fails (R205, R226): the memory error of its result, or pending bits. -/
def State.atomicFails (w : Write) (bits : Nat) (s : State) : State :=
  match w.kind with
  | .amo _ _ _ _ seq _ =>
    s.modMe (fun h => (h.dropWrite w.seq).deliver seq [.memErr w.va bits])
  | _ => s.modMe (fun h => (h.dropWrite w.seq).setFailure bits)

/-- The operation of an atomic: width, operation, operand, comparand. -/
def WKind.atom : WKind → Nat × AmoOp × Word × Word
  | .red op d v => (if d then 8 else 4, op, v, 0)
  | .amo op d v c _ _ => (if d then 8 else 4, op, v, c)
  | .signal sub v _ => if sub then (8, .add, 0 - v, 0) else (8, .xchg, v, 0)
  | _ => (8, .or, 0, 0)

/-- What follows an atomic that was stamped `t` on the old value `old`. -/
def State.atomicDone (w : Write) (old t : Nat) (s : State) : State :=
  s.modMe (fun h =>
    let h := h.dropWrite w.seq
    match w.kind with
    | .amo op d _ _ seq r =>
      h.deliver seq [.s r (amoResult op (if d then 64 else 32) old), .lt t]
    | .signal _ _ sig => h.signal sig
    | _ => h)

/-- A read of `n` bytes under a node meets poison (R396): that of a state that gives a byte. -/
def Hub.poisonRead (hb : Hub) (part node pa n : Nat) : Bool :=
  (hb.sources part node (locOf pa) n).any (fun x => if x = 0 then hb.poisoned pa
    else (hb.version part x (lineOf pa)).any (·.poison))

/-- What the earlier engine operations of the tread add to the floor of a `sig.wr` (R247). -/
def Hart.engineFloor (h : Hart) (w : Write) : Nat :=
  match w.kind with
  | .signal .. => (h.units.eng.filter (fun o => o.id < w.seq)).foldl (fun t o => Nat.max t (o.stamp + 1)) 0
  | _ => 0

/-- An atomic at its home (R201): a holder's data is recalled, every covered peer invalidated, the
operation applied to the value just before its own place, and the result stamped. A failed `cas`
writes no byte and triggers no watch. -/
def State.atomicHere (w : Write) (loc : Loc) (s : State) : State :=
  let line := lineOf w.pa
  let (n, op, v, c) := w.kind.atom
  let returns : Bool := match w.kind with
    | .amo .. => true
    | _ => false
  if returns ∧ s.hub.poisonRead w.part w.hyp w.pa n then s.atomicFails w 4
  else
    match s.recallOf line with
    | some s => s.modMe (Hart.retryWrite w.seq s.hub.clk)
    | none =>
      match s.clearPeers line (s.sparedBy w) with
      | some s => s.modMe (Hart.retryWrite w.seq s.hub.clk)
      | none =>
        let s := { s with hub := s.hub.readLine line }
        let old := s.hub.valueAt w.part w.hyp w.pa n
        let m := 2 ^ (8 * n)
        let new := amoApply op (8 * n) old (v.toNat % m) (c.toNat % m)
        let quiet : Bool := op = .cas && old ≠ c.toNat % m
        let t := s.hub.stampTime w.part w.hyp line (Nat.max s.me.floor (s.me.engineFloor w))
        let bs := if quiet then [] else (toBytes n new).mapIdx (fun k b => (w.pa % 128 + k, b))
        let s := s.commitOwn w.part w.hyp line bs t quiet
        (s.cxlAck loc w.pa n).atomicDone w old t

/-- An atomic of a core on host memory: on the line that it holds (R39). -/
def State.hostAtomic (port : Nat) (w : Write) (s : State) : State :=
  let line := lineOf w.pa
  let n := s.me.coreNo.getD 0
  match s.tenureTime line, s.hub.peerLine n line with
  | some t, some p =>
    let (k, op, v, c) := w.kind.atom
    let m := 2 ^ (8 * k)
    let old := leBytes ((p.bytes.drop (w.pa % 128)).take k)
    let new := toBytes k (amoApply op (8 * k) old (v.toNat % m) (c.toNat % m))
    (s.coreWrite line (new.mapIdx (fun i b => (w.pa % 128 + i, b))) t).atomicDone w old t
  | _, _ => ((s.hostFill port n line true).peerRoom n line).modMe (Hart.retryWrite w.seq s.hub.clk)

/-- An atomic reaches its home, by what its address names. -/
def State.stampAtomic (w : Write) (s : State) : State :=
  let loc := s.hub.loc w.pa
  match loc with
  | .dead => s.atomicFails w 1
  | .refused | .config _ => s.atomicFails w 2
  | .remote k => s.sendWrite w (.link k)
  | .host p => if s.coreCached w then s.hostAtomic p w else s.sendWrite w (.host p)
  | _ => s.atomicHere w loc

/-- A `sig.wr` whose earlier stores, atomics and reductions are stamped and whose earlier engine
operations have ended (R247). -/
def Hart.readySignal (h : Hart) : Option Write :=
  match h.lsu.writes.find? (fun w => w.tag.isNone && !w.plain) with
  | some w =>
    if h.lsu.writes.all (fun x => w.seq ≤ x.seq)
      && h.units.eng.all (fun o => w.seq ≤ o.id || !o.unfinished) then some w else none
  | none => none

/-- An atomic executes at its home slice (R201). -/
def execAtomicAtHome (h : HartId) : Sem := fun s =>
  .next (s.onHart h (fun s =>
    match s.me.readySignal with
    | some w => if w.tick ≤ s.hub.clk then s.stampAtomic w else s
    | none =>
      match s.me.headWrite with
      | some w => if !w.isStore ∧ w.tick ≤ s.hub.clk then s.stampAtomic w else s
      | none => s))

/-! ### Loads (R191, R216, R217) -/

/-- A piece that reaches a vault or the quire window directly. -/
def Piece.direct (p : Piece) : Bool :=
  match p.sp with
  | .mem _ => false
  | _ => true

/-- The bytes of a direct piece (R185, R319). -/
def State.directBytes (lim : Nat) (p : Piece) (s : State) : List Byte :=
  match p.sp with
  | .quire => bytesAt s.hub.quireMem p.pa p.len
  | _ => (List.range p.len).map (fun k => s.me.vaultByte lim s.hub.mem (p.pa + k))

/-- The failure bits of a direct piece: a poisoned unit of a bank (R395, R396). -/
def State.directFailure (p : Piece) (s : State) : Nat :=
  match p.sp with
  | .vault _ => if s.hub.poisoned p.pa then 4 else 0
  | _ => 0

/-- An earlier write of the tread that a load may not pass: an atomic with a result, wherever it goes (R194), and one
that is no plain store and reaches the line of the load. (DEDUCED: log entry 31.) -/
def Hart.blocked (h : Hart) (lim line : Nat) : Bool :=
  h.lsu.writes.any (fun w => w.seq < lim && (match w.kind with
    | .amo .. => true
    | .store _ | .signal .. => false
    | _ => w.tag.isNone && lineOf w.pa = line))

/-- The stamp of the earlier atomics whose results have not landed: a load takes no time below it (R194).
(DEDUCED: log entry 31.) -/
def Hart.amoTime (h : Hart) (lim : Nat) : Nat :=
  ((h.inPipe.filter (fun p => p.seq < lim)).flatMap (fun p => p.effs.getD [])).foldl (fun t e => match e with
    | .lt x => Nat.max t x
    | _ => t) 0

/-- The hart's own unstamped stores give every byte of a piece, which its home is not asked for (R191). -/
def State.forwarded (a : Ask) (p : Piece) (s : State) : Bool :=
  !p.direct && ((s.hub.loc p.pa).here || (s.hub.loc p.pa).isHost)
    && (List.range p.len).all (fun k =>
      (s.me.ownByte s.hub a.part (s.hub.path a.part a.hyp) a.seq (p.pa + k)).isSome)

/-- The failure bits of a memory piece, an outside answer apart. -/
def State.pieceFailure (a : Ask) (p : Piece) (s : State) : Nat :=
  match s.hub.loc p.pa with
  | .dead => 1
  | .refused => 2
  | .config off =>
    (match a.dest with
      | .scalar _ 8 _ =>
        if a.pieces.length = 1 ∧ p.len = 8 ∧ (s.hub.cfgRead a.part a.lvl off).isSome then 0 else 2
      | _ => 2)
  | l => if l.here ∧ s.hub.poisonRead a.part a.hyp p.pa p.len ∧ !s.forwarded a p then 4 else 0

/-- A memory piece that a lease cache may serve or take (R191, R203, R350). -/
def State.leased (p : Piece) (s : State) : Bool :=
  !s.me.isCore && (s.hub.loc p.pa).leasable && (match p.sp with
    | .mem dev => !dev
    | _ => false)

/-- The cached line that serves a piece, if there is one that may (R191, R210, R217). -/
def State.hit (a : Ask) (p : Piece) (s : State) : Option LeaseLine :=
  match s.me.leaseLine a.part a.hyp (lineOf p.pa) with
  | some l => if l.nc || s.me.spr.lt ≤ l.rts then some l else none
  | none => none

/-- A line that a core holds serves it. -/
def State.coreLine (a : Ask) (p : Piece) (s : State) : Option PeerLine :=
  match s.me.coreNo with
  | some n =>
    if a.hyp = 0 ∧ (s.hub.loc p.pa).cacheable ∧ p.sp ≠ .mem true then s.hub.peerLine n (lineOf p.pa)
    else none
  | none => none

/-- A piece of a core's load must first be filled into its cache (R196). -/
def State.coreFills (a : Ask) (s : State) : Option Nat :=
  if !s.me.isCore ∨ a.hyp ≠ 0 then none
  else (a.pieces.find? (fun p =>
      (match p.sp with
        | .mem dev => !dev
        | _ => false)
      && (s.hub.loc p.pa).cacheable && (s.coreLine a p).isNone && !s.forwarded a p)).map (fun p => lineOf p.pa)

/-- The bytes of a piece, the hart's own earlier unstamped stores on the path first (R191, R216). -/
def State.pieceBytes (a : Ask) (p : Piece) (s : State) : List Byte :=
  if p.direct then s.directBytes a.seq p
  else
    match s.hub.loc p.pa with
    | .config off => toBytes 8 ((s.hub.cfgRead a.part a.lvl off).getD 0).toNat
    | _ =>
      let path := s.hub.path a.part a.hyp
      (List.range p.len).map (fun k =>
        match s.me.ownByte s.hub a.part path a.seq (p.pa + k) with
        | some b => b
        | none =>
          match (if s.leased p then s.hit a p else none), s.coreLine a p with
          | some l, _ => l.bytes.getD ((p.pa + k) % 128) 0#8
          | none, some l => l.bytes.getD ((p.pa + k) % 128) 0#8
          | none, none => s.hub.visByte a.part a.hyp (locOf (p.pa + k)))

/-- The party outside the package that answers a piece (R22, R39). -/
def State.goesOut (a : Ask) (p : Piece) (s : State) : Option Far :=
  match p.sp with
  | .mem dev => s.abroad a.hyp dev p.pa
  | _ => none

/-- The bytes of all pieces in order; an outside piece has the bytes of its answer, but for the hart's own stores that
are still on their way (R194). -/
def State.allBytes (a : Ask) (s : State) : List Piece → List (Nat × Option (Nat × List Byte)) → List Byte
  | [], _ => []
  | p :: ps, ts =>
    if !p.direct ∧ (s.goesOut a p).isSome then
      match ts with
      | (_, some (_, bs)) :: ts =>
        (bs.take p.len).mapIdx (fun k b =>
          (s.me.ownByte s.hub a.part (s.hub.path a.part a.hyp) a.seq (p.pa + k)).getD b) ++ s.allBytes a ps ts
      | _ => List.replicate p.len 0#8 ++ s.allBytes a ps ts
    else s.pieceBytes a p ++ s.allBytes a ps ts

/-- The failure of an ask: the address of its first failing piece and the bits (R205, R226). -/
def State.askFailure (a : Ask) (s : State) : Option (Nat × Nat) :=
  let own := a.pieces.findSome? (fun p =>
    let f := if p.direct then s.directFailure p else s.pieceFailure a p
    if f = 0 then none else some (p.va, f))
  match own with
  | some x => some x
  | none =>
    match a.tags.findSome? (fun t => t.2.bind (fun r => if r.1 = 0 then none else some r.1)) with
    | some f => some (((a.pieces.head?).map (·.va)).getD 0, f)
    | none => none

/-- The write time that a memory piece shows (R191). -/
def State.pieceTime (a : Ask) (p : Piece) (s : State) : Nat :=
  if p.direct ∨ !(s.hub.loc p.pa).homed ∨ s.forwarded a p then 0
  else match (if s.leased p then s.hit a p else none) with
    | some l => l.wts
    | none =>
      if (s.coreLine a p).isSome then 0
      else if s.leased p then s.hub.seenWts a.part a.hyp (lineOf p.pa)
      else s.hub.seenAt a.part a.hyp (locOf p.pa) p.len

/-- The memory pieces of an ask that must go to their home: in this package, not cached, and not given by the hart's own
stores alone (R191). -/
def State.misses (a : Ask) (s : State) : List Piece :=
  a.pieces.filter (fun p => !p.direct && (s.hub.loc p.pa).homed
    && !(s.leased p && (s.hit a p).isSome) && (s.coreLine a p).isNone && !s.forwarded a p)

/-- A register of the configuration space whose earlier write by the hart is still on its way (R194, R342). -/
def State.regPending (a : Ask) (p : Piece) (s : State) : Bool :=
  match s.hub.loc p.pa with
  | .config _ => s.me.lsu.writes.any (fun w => w.seq < a.seq && lineOf w.pa = lineOf p.pa)
  | _ => false

/-- Answers an ask at one logical time: pieces that miss are filled or read at their home, which first
recalls a line that a peer holds exclusively (R199). (DEDUCED: log entry 36.) -/
def State.answerAsk (a : Ask) (s : State) : State :=
  let s := s.modMe (fun h => h.raiseLt (h.amoTime a.seq))
  match s.askFailure a with
  | some (va, bits) => s.modMe (Hart.finishAsk a.seq [.memErr va bits])
  | none =>
    let ms := s.misses a
    match ms.findSome? (fun p => s.recallOf (lineOf p.pa)) with
    | some s => s.modMe (Hart.retryAsk a.seq s.hub.clk)
    | none =>
      if a.pieces.any (fun p => !p.direct && (s.me.blocked a.seq (lineOf p.pa) || s.regPending a p)) then
        s.modMe (Hart.retryAsk a.seq s.hub.clk)
      else
        let t := a.pieces.foldl (fun t p => Nat.max t (s.pieceTime a p)) s.me.spr.lt
        let effs := loadEffs a.dest (s.allBytes a a.pieces a.tags)
        let s := ms.foldl (fun s p =>
          if s.leased p then s.fillLine a.part a.hyp t p.pa p.len
          else { s with hub := s.hub.readAt a.part a.hyp (locOf p.pa) p.len t }) s
        s.modMe (fun h => (h.raiseLt t).finishAsk a.seq effs)

/-- An ask of direct pieces alone. -/
def Ask.direct (a : Ask) : Bool := a.pieces.all Piece.direct

/-- The outside has answered every request of an ask. -/
def Ask.answered (a : Ask) : Bool := a.tags.all (fun t => t.2.isSome)

/-- The next load of a hart that goes to memory: loads take their times in program order (R194). -/
def Hart.headAsk (h : Hart) : Option Ask := h.lsu.asks.find? (fun a => !a.direct)

/-- The cached lines that a load would hit may have been evicted (a free choice): clean ones are gone, a
dirty one of a non-coherent region stays until it is written back. (DESIGN CHOICE: log entry 32.) -/
def State.maybeEvict (a : Ask) (s : State) : State :=
  let go := Config.freeBool s.free
  let ls := a.pieces.map (fun p => lineOf p.pa)
  { s with free := s.free + 1 }.modMe (fun h => if go then
    { h with lsu := { h.lsu with lease := h.lsu.lease.filter (fun l =>
        !(ls.contains l.line && l.dirty.isEmpty)) } } else h)

/-- The home answers the hart's next load that goes to memory (R191). -/
def execLeaseFill (h : HartId) (line : Nat) : Sem := fun s =>
  .next (s.onHart h (fun s =>
    match s.me.headAsk with
    | some a =>
      if a.tick ≤ s.hub.clk ∧ a.answered ∧ (s.coreFills a).isNone
        ∧ a.pieces.any (fun p => lineOf p.pa = line) then (s.maybeEvict a).answerAsk a
      else s
    | none => s))

/-- Direct loads whose bank has been reached are answered (R185). -/
def State.answerDirect (s : State) : State :=
  let due := s.me.lsu.asks.filter (fun a => a.direct && a.tick ≤ s.hub.clk)
  due.foldl (fun s a => s.answerAsk a) s

/-! ### Vault stores (R185, R186) -/

/-- Draining banks whose last drain operation has ended are released (R282, R283, R304). -/
def State.settleBanks (s : State) : State :=
  if s.hub.banks.all (fun e => e.2 ≠ 2) then s
  else
    let busy := s.harts.flatMap (fun h => match s.focus h.id with
      | some s' => s'.busyBanks
      | none => [])
    let banks := s.hub.banks.map (fun e => if e.2 = 2 ∧ !busy.contains e.1 then (e.1, 1) else e)
    { s with hub := { s.hub with banks := banks } }

/-- The first delivery of a hart to an aperture. -/
def Hub.headDelivery (hb : Hub) (h : HartId) : Option Delivery :=
  hb.deliveries.find? (fun d => d.by_ = h)

/-- A direct store reaches its bank (R185); the last unit of one that covers a whole 128-byte unit clears the poison
there (R396). -/
def Hub.landStore (v : VStore) (hb : Hub) : Hub :=
  let hb := hb.putVault v.pa v.bytes
  if v.whole ∧ (v.pa + v.bytes.length) % 128 = 0 then
    hb.setLine (v.pa / 128) (fun m => { m with poison := false })
  else hb

/-- A direct store, or a stamped write of an aperture, lands in its bank (R185, R186). A partial write of a poisoned unit
sets POISON (R396). -/
def execVaultStoreLands (h : HartId) : Sem := fun s =>
  .next (s.onHart h (fun s =>
    match s.me.lsu.vstores with
    | v :: rest =>
      if v.tick ≤ s.hub.clk then
        let hit := !v.whole && s.hub.vaultHit v.pa v.bytes.length
        State.settleBanks (State.modMe (fun h =>
            let h := if hit then h.setPending 2 else h
            { h with lsu := { h.lsu with vstores := rest } })
          { s with hub := s.hub.landStore v })
      else s
    | [] =>
      match s.hub.headDelivery h with
      | some d =>
        if d.tick ≤ s.hub.clk then
          { s with hub := { s.hub.putCells d.cells with deliveries := s.hub.deliveries.erase d } }
        else s
      | none => s))

/-! ### Limits of waiting (R206, R221) -/

/-- A fence has waited 4,194,304 ticks (R206). -/
def execFenceTimeout (h : HartId) : Sem := fun s =>
  .next (s.onHart h (fun s =>
    match s.me.lsu.fenceSince with
    | some t => if t + 4194304 ≤ s.hub.clk then s.modMe (Hart.setPending 4) else s
    | none => s))

/-- A tagged store has found no free version for 4,096 cycles (R221, R371). -/
def execHypothesisFull (h : HartId) : Sem := fun s =>
  .next (s.onHart h (fun s =>
    match s.me.lsu.verWait with
    | some (n, va) =>
      if 4096 ≤ n then
        s.takeTrap { cls := clsFull, code := 0x10, info := 0, slot := some .ls, tpc := s.me.ctl.pc,
                     taddr := va, lvl := toS s.me.level }
      else s
    | none => s))

end Sys2Proof.Machine
end

