-- ==== Sys2Proof/Machine/EngineEvents.lean ====
section
/-! DEFINITION. What an accepted operation of the copy engine does (R207, R239 to R248, R283): it moves
its bytes unit by unit, in any order; it suspends on a translation fault, waits for a version, fails,
or completes and signals. -/

namespace Sys2Proof.Machine

/-! ### Where the bytes are -/

/-- An address as the engine resolves it: a byte of a vault, or a physical address. -/
inductive EAt where
  | vault (pa : Nat)
  | mem (pa : Nat)
  deriving DecidableEq, Repr

/-- What a step of the engine ends in. -/
inductive ERes (α : Type) where
  | ok (v : α)
  | fault (va : Nat) (x : XFault) (acc : Acc)
  | fail (bits : Nat)
  deriving Repr

/-- Resolves an address for an operation (R183, R240, R282, R352): a bank must be held, or be draining
for an operation that was accepted before it drained. A cached translation may serve it. -/
def State.engAt (o : EngOp) (acc : Acc) (va : Nat) (s : State) : ERes EAt :=
  if inVault va then
    match s.vaultTarget va with
    | none => .fail 2
    | some (t, _) =>
      let off := va % 2 ^ 23
      let chip := t.place.chip
      if vaultSize chip ≤ off then .fail 2
      else
        let k := bankKey t.place (off / bankSize chip)
        let st := NMap.get 0 k s.hub.banks
        if st = 0 ∨ (st = 2 ∧ !o.avoid.contains k) then .ok (.vault (apertureBase chip t.place.pos + off))
        else .fail 2
  else if inQuire va then
    .fault va { stage := if o.lvl = 2 then 3 else 1, level := 4, kind := 5, ipa := 0 } acc
  else if o.lvl = 2 ∧ !s.hub.mon.xlm.getLsbD 63 then
    if va / 2 ^ 52 ≠ 0 then .fault va { stage := 3, level := 4, kind := 3, ipa := 0 } acc
    else .ok (.mem va)
  else
    let part := s.me.partNo
    let old := if Config.freeBool s.free then s.me.cached part acc o.lvl va else none
    match old with
    | some x => .ok (.mem (x.addr va))
    | none =>
      match s.hub.resolve s.free false { va := va, acc := acc, lvl := o.lvl, part := part, tick := 0 } with
      | .ok x => .ok (.mem (x.addr va))
      | .error x => .fault va x acc

/-- A byte that the engine reads, and whether it is poisoned (R207, R396); bytes held outside the
package are free. -/
def State.engByte (o : EngOp) (a : EAt) (s : State) : ERes (Byte × Bool) :=
  match a with
  | .vault pa => .ok (NMap.get 0#8 pa s.hub.mem, s.hub.poisoned pa)
  | .mem pa =>
    match s.hub.loc pa with
    | .dead => .fail 1
    | .refused | .config _ => .fail 2
    | .remote _ | .host _ => .ok (BitVec.ofNat 8 (freeAt s.free pa), false)
    | _ => .ok (s.hub.visByte s.me.partNo o.hyp (locOf pa), s.hub.poisonRead s.me.partNo o.hyp pa 1)

/-- Bytes at virtual addresses, with poison, and the locations of memory that they lie at. -/
def State.engRead (o : EngOp) (s : State) : List Nat → ERes (List (Byte × Bool) × List Nat)
  | [] => .ok ([], [])
  | va :: rest =>
    match s.engAt o .engRead (va % 2 ^ 57) with
    | .fault a x c => .fault a x c
    | .fail b => .fail b
    | .ok a =>
      match s.engByte o a with
      | .fault b x c => .fault b x c
      | .fail b => .fail b
      | .ok v =>
        match s.engRead o rest with
        | .ok (vs, ls) =>
          let ls := match a with
            | .mem pa => if (s.hub.loc pa).here then locOf pa :: ls else ls
            | .vault _ => ls
          .ok (v :: vs, ls)
        | r => r

/-- The virtual address that byte `off` of an operation is written to; `none` where nothing is written
(R243, R248). -/
def EngOp.dstAt (o : EngOp) (off : Nat) : Option Nat :=
  match o.kind with
  | .tileSt d c => Tdt.tileByte { bits := d } c off
  | .netPut _ => none
  | _ => some ((o.dst + off) % 2 ^ 57)

/-- Where byte `off` of an operation comes from: an address, or a byte that is known. -/
inductive ESrc where
  | at_ (va : Nat)
  | byte (b : Byte)
  deriving DecidableEq, Repr

/-- The source of byte `off` (R239, R243, R244, R248), whether the list entry that names it is poisoned, and the
locations of the list that were read for it. -/
def State.engSrc (o : EngOp) (off : Nat) (s : State) : ERes (ESrc × Bool × List Nat) :=
  match o.kind with
  | .tileLd d c =>
    let t : Tdt := { bits := d }
    (match t.tileByte c off with
      | some a => .ok (.at_ a, false, [])
      | none => .ok (.byte (t.padByte off), false, []))
  | .tileSt .. => .ok (.at_ ((o.dst + off) % 2 ^ 57), false, [])
  | .idx row =>
    (match s.engRead o ((List.range 8).map (fun k => o.src + off / row * 8 + k)) with
      | .fault a x c => .fault a x c
      | .fail b => .fail b
      | .ok (bs, ls) =>
        let e := leBytes (bs.map (·.1)) % 2 ^ 57
        if e % Nat.min row 128 ≠ 0 then .fail 2 else .ok (.at_ ((e + off % row) % 2 ^ 57), bs.any (·.2), ls))
  | .netGet _ => .ok (.byte ((o.got.getD []).getD off 0#8), false, [])
  | _ => .ok (.at_ ((o.src + off) % 2 ^ 57), false, [])

/-- The bytes of several offsets of an operation, with poison, that of a list entry too (R396), and the locations
read. -/
def State.engFetch (o : EngOp) (s : State) : List Nat → ERes (List (Byte × Bool) × List Nat)
  | [] => .ok ([], [])
  | off :: rest =>
    match s.engSrc o off with
    | .fault a x c => .fault a x c
    | .fail b => .fail b
    | .ok (src, bad, ls) =>
      let one : ERes (List (Byte × Bool) × List Nat) := match src with
        | .byte b => .ok ([(b, false)], [])
        | .at_ va => s.engRead o [va]
      match one, s.engFetch o rest with
      | .fault a x c, _ => .fault a x c
      | .fail b, _ => .fail b
      | .ok _, .fault a x c => .fault a x c
      | .ok _, .fail b => .fail b
      | .ok (v, l1), .ok (vs, l2) => .ok (v.map (fun b => (b.1, b.2 || bad)) ++ vs, ls ++ l1 ++ l2)

/-! ### Units -/

/-- Offsets of a range list. -/
def leftHas (left : List (Nat × Nat)) (off : Nat) : Bool :=
  left.any (fun r => r.1 ≤ off && off < r.1 + r.2)

/-- Takes an offset out of the ranges that are left. -/
def leftDrop (off : Nat) (left : List (Nat × Nat)) : List (Nat × Nat) :=
  left.flatMap (fun r =>
    if r.1 ≤ off ∧ off < r.1 + r.2 then
      [(r.1, off - r.1), (off + 1, r.1 + r.2 - (off + 1))].filter (fun x => x.2 ≠ 0)
    else [r])

/-- The unit that the engine moves with an offset (R239): the aligned 4-byte unit of the destination
that lies wholly inside the operation, otherwise the byte alone. -/
def EngOp.unitOf (o : EngOp) (off : Nat) : List Nat :=
  match o.dstAt off with
  | none => [off]
  | some d =>
    let k := d % 4
    let os := (List.range 4).map (fun i => off + i - k)
    if k ≤ off ∧ os.all (fun j => leftHas o.left j)
      ∧ (List.range 4).all (fun i => o.dstAt (off + i - k) = some (d - k + i)) then os
    else [off]

/-- The bytes of an operation. -/
def EngOp.total (o : EngOp) : Nat :=
  match o.kind with
  | .tileLd .. | .tileSt .. => 4096
  | .idx row => o.len * row
  | _ => o.len

/-- The offsets of the 128-byte unit in which an operation writes an offset, where it writes the unit whole. -/
def EngOp.wholeUnit (o : EngOp) (off : Nat) : Option (List Nat) :=
  match o.dstAt off with
  | none => none
  | some d =>
    let k := d % 128
    let os := (List.range 128).map (fun i => off + i - k)
    if k ≤ off ∧ os.all (fun j => j < o.total)
      ∧ (List.range 128).all (fun i => o.dstAt (off + i - k) = some (d - k + i)) then some os else none

/-- What a move of offsets does to the poison of the 128-byte unit that it writes (R396): `hit` where it meets poison in
a unit that the operation does not write whole; `clears` where it ends the writing of a whole unit, none of whose bytes
came from poison. (DEDUCED: log entry 120.) -/
structure Taint where
  hit : Bool
  clears : Bool
  deriving DecidableEq, Repr

/-- What a move does to the poison of unit `line`, which is `old` before it. -/
def EngOp.taint (o : EngOp) (os : List Nat) (line : Nat) (old bad : Bool) : Taint :=
  match (os.head?).bind o.wholeUnit with
  | none => { hit := old, clears := false }
  | some ks => { hit := false, clears := ks.all (fun k => os.contains k || !leftHas o.left k)
                                           && !bad && !o.tainted.contains line }

/-- A freely chosen offset that is left. (DESIGN CHOICE: log entry 23.) -/
def EngOp.pick (o : EngOp) (fr : Nat) : Option Nat :=
  match o.left[Config.freeChoice fr % Nat.max 1 o.left.length]? with
  | some r => some (r.1 + Config.freeChoice (fr + 1) % Nat.max 1 r.2)
  | none => none

/-! ### Changing an operation -/

/-- Changes the operation of a place in the issue order. -/
def Hart.modEng (id : Nat) (f : EngOp → EngOp) (h : Hart) : Hart :=
  { h with units := { h.units with eng := h.units.eng.map (fun o => if o.id = id then f o else o) } }

/-- The operation of a place in the issue order that still runs. -/
def Hart.running (id : Nat) (h : Hart) : Option EngOp :=
  h.units.eng.find? (fun o => o.id = id && o.stat = .running)

/-- The operation fails (R226, R240): no signal, and pending bits. -/
def State.engFail (id bits : Nat) (s : State) : State :=
  let s := { s with hub := s.hub.restartInvs }
  (s.modMe (fun h => (h.modEng id (fun o => { o with stat := .failed, tags := [] })).setFailure bits)).settleBanks

/-- The operation meets a translation fault (R241): it suspends, or fails where no handler can serve
it. -/
def State.engSuspend (id va : Nat) (x : XFault) (acc : Acc) (s : State) : State :=
  if s.me.ctl.run = .retired then s.engFail id 2
  else s.modMe (Hart.modEng id (fun o => { o with stat := .suspended va x acc false }))

/-- A `net.put` that its far side has not acknowledged (R248). -/
def EngOp.unacked (o : EngOp) : Bool :=
  match o.kind with
  | .netPut _ => o.got.isNone
  | _ => false

/-- An earlier operation of the same partition on the connection is unfinished (R248). -/
def State.netBefore (o : EngOp) (s : State) : Bool := s.netWaits o.kind.conn o.turn

/-- Something that an operation which has moved everything still waits for: answers, the far side, an earlier operation
of its connection (R248), and the delivery of what it wrote to an aperture (R207, R240). -/
def State.engPending (o : EngOp) (s : State) : Bool :=
  !o.tags.isEmpty || o.unacked || s.netBefore o || s.hub.deliveries.any (fun d => d.by_ = s.me.id)

/-- The operation completes and signals when nothing is left and nothing is awaited (R240, R248). -/
def State.engFinish (id : Nat) (s : State) : State :=
  match s.me.running id with
  | some o =>
    if o.left.isEmpty ∧ !s.engPending o then
      (s.modMe (fun h => (h.modEng id (fun o => { o with stat := .done })).signal o.sig)).settleBanks
    else s
  | none => s

/-- The operation waits for the next tick. -/
def State.engWait (id : Nat) (s : State) : State :=
  s.modMe (Hart.modEng id (fun o => { o with tick := s.hub.clk + 1 }))

/-- The operation fails when the earlier ones of its connection have ended (R248). -/
def State.engFailTurn (o : EngOp) (bits : Nat) (s : State) : State :=
  if s.netBefore o then s.engWait o.id else s.engFail o.id bits

/-- The operation has moved offsets to a line; its next unit may move at a free tick. -/
def State.engMoved (id line : Nat) (os : List Nat) (s : State) : State :=
  let n := Config.freeNat s.free
  let s := { s with free := s.free + 1 }
  (s.modMe (Hart.modEng id (fun o =>
    { o with left := os.foldl (fun l k => leftDrop k l) o.left, verWait := o.verWait.filter (fun e => e.1 ≠ line),
             tick := s.hub.clk + n }))).engFinish id

/-- The tread's own cached copies follow a write of its engine (R190, R210): a line of a non-coherent
region takes the bytes and loses their dirty marks. -/
def Hart.engLease (part node line : Nat) (bs : List (Nat × Byte)) (t : Nat) (h : Hart) : Hart :=
  let h := h.leaseWrite part node line bs t
  { h with lsu := { h.lsu with lease := h.lsu.lease.map (fun l =>
      if l.line = line ∧ l.part = part ∧ l.nc then
        { l with bytes := patch bs l.bytes,
                 dirty := l.dirty.filter (fun k => !bs.any (fun (e : Nat × Byte) => e.1 = k)) }
      else l) } }

/-- A write of the engine to memory is refused under a hypothesis (R215). -/
def State.engRefused (o : EngOp) (pa : Nat) (s : State) : Bool :=
  o.hyp ≠ 0 && (match s.hub.loc pa with
    | .remote _ | .host _ | .cxl _ | .dead => true
    | _ => s.hub.ncRegion pa)

/-- A tagged write of the engine to a line finds its version, or a free one (R221). -/
def State.versionFree (part node line : Nat) (s : State) : Bool :=
  node = 0 || (s.hub.version part node line).isSome || s.owed.contains (part, node, line) || s.roomForVersions part 1

/-- A line, or the version of a node, takes the poison of bytes that were moved to it, or loses its own (R396). -/
def Hub.setPoison (part node line : Nat) (bad clears : Bool) (hb : Hub) : Hub :=
  let f (p : Bool) : Bool := (p || bad) && !clears
  if node = 0 then hb.setLine line (fun m => { m with poison := f m.poison })
  else { hb with versions := hb.versions.map (fun v =>
    if v.part = part ∧ v.node = node ∧ v.line = line then { v with poison := f v.poison } else v) }

/-- The operation has moved poisoned bytes to a line. -/
def EngOp.poisons (line : Nat) (bad : Bool) (o : EngOp) : EngOp :=
  if bad then { o with tainted := line :: o.tainted } else o

/-- Writes a unit to memory (R190, R207, R221): stamped at its home, with the tread's LT at issue as
floor. -/
def State.engStore (o : EngOp) (os : List Nat) (pa : Nat) (vs : List (Byte × Bool)) (s : State) :
    State :=
  let loc := s.hub.loc pa
  let part := s.me.partNo
  let line := lineOf pa
  match loc with
  | .refused | .config _ => s.engFailTurn o 2
  | _ =>
    if s.engRefused o pa then s.engFailTurn o 2
    else if loc = .dead then s.engFailTurn o 1
    else match loc.outside with
    | some f =>
      let (t, s) := s.sendOut f pa vs.length true
      (s.modMe (Hart.modEng o.id (fun o => { o with tags := o.tags ++ [t] }))).engMoved o.id line os
    | none =>
      if !s.versionFree part o.hyp line then
        (s.modMe (Hart.modEng o.id (fun o =>
          { o with verWait := if o.verWait.any (fun e => e.1 = line) then o.verWait
                              else o.verWait ++ [(line, 0)] }))).engWait o.id
      else match s.clearPeers line none with
      | some s =>
        (s.modMe (Hart.modEng o.id (fun o =>
          { o with verWait := o.verWait.filter (fun e => e.1 ≠ line) }))).engWait o.id
      | none =>
        let t := s.hub.stampTime part o.hyp line o.lt
        let bs := vs.mapIdx (fun k v => (pa % 128 + k, v.1))
        let tick := s.hub.clk + Config.freeNat s.free
        let bad := vs.any (·.2)
        let x := o.taint os line (s.hub.poisonHit part o.hyp line vs.length) bad
        let hb := (s.hub.commit s.me.id tick part o.hyp line bs t false).setPoison part o.hyp line bad x.clears
        let s := { s with free := s.free + 1, hub := hb }
        let s := s.modMe (fun h =>
          let h := if x.hit then h.setPending 2 else h
          (h.engLease part o.hyp line bs t).modEng o.id (fun o =>
            { o.poisons line bad with stamp := Nat.max o.stamp t }))
        (s.cxlAck loc pa vs.length).engMoved o.id line os

/-- Writes a unit to its destination. -/
def State.engPut (o : EngOp) (os : List Nat) (vs : List (Byte × Bool)) (s : State) : State :=
  match (os.head?).bind o.dstAt with
  | none => s.engMoved o.id 0 os
  | some va =>
    match s.engAt o .engWrite va with
    | .fault a x c => s.engSuspend o.id a x c
    | .fail b => s.engFailTurn o b
    | .ok (.vault pa) =>
      let line := lineOf pa
      let bad := vs.any (·.2)
      let x := o.taint os line (s.hub.vaultHit pa vs.length) bad
      let hb := (s.hub.putVault pa (vs.map (·.1))).setPoison 0 0 line bad x.clears
      (State.modMe (fun h => (if x.hit then h.setPending 2 else h).modEng o.id (EngOp.poisons line bad))
        { s with hub := hb }).engMoved o.id line os
    | .ok (.mem pa) => s.engStore o os pa vs

/-- Moves one unit: it is read at a time not below the tread's LT at issue (R207), under the operation's
hypothesis, and written. -/
def State.engMove (o : EngOp) (s : State) : State :=
  match o.pick s.free with
  | none => s.engFinish o.id
  | some off =>
    let s := { s with free := s.free + 2 }
    let os := o.unitOf off
    match s.engFetch o os with
    | .fault a x c => s.engSuspend o.id a x c
    | .fail b => s.engFailTurn o b
    | .ok (vs, ls) =>
      let isPut : Bool := match o.kind with
        | .netPut _ => true
        | _ => false
      if isPut ∧ vs.any (·.2) then s.engFailTurn o 2
      else match ls.findSome? (fun a => s.recallOf (a / 128)) with
      | some s => s.engWait o.id
      | none =>
        let part := s.me.partNo
        let s := ls.foldl (fun s a =>
          { s with hub := s.hub.readAt part o.hyp a 1 (Nat.max o.lt (s.hub.seenAt part o.hyp a 1)) }) s
        s.engPut o os vs

/-- An operation moves a unit, and when all are moved it completes (R240). A `net.get` moves bytes once
they have arrived. -/
def execCopyComplete (h : HartId) (op : Nat) : Sem := fun s =>
  .next (s.onHart h (fun s =>
    match s.me.running op with
    | some o =>
      let wait : Bool := match o.kind with
        | .netGet _ => o.got.isNone
        | _ => false
      if wait ∨ s.hub.clk < o.tick then s else s.engMove o
    | none => s))

/-- A tagged write of the engine has waited 4,096 cycles for a version, and none is free (R221): the operation fails. -/
def execEngineVersionTimeout (h : HartId) (op : Nat) : Sem := fun s =>
  .next (s.onHart h (fun s =>
    match s.me.running op with
    | some o =>
      if o.verWait.any (fun e => decide (4096 ≤ e.2) && !s.versionFree s.me.partNo o.hyp e.1) then s.engFailTurn o 2
      else s
    | none => s))

/-! ### Network operations (R248) -/

/-- The far side has acknowledged a `net.put`, or the bytes of a `net.get` have arrived; a remote access
error or a connection in error fails the operation (R248). Operations on one connection complete in
order of issue. -/
def execNetComplete (h : HartId) (op : Nat) (ok : Bool) (data : List Byte) : Sem := fun s =>
  .next (s.onHart h (fun s =>
    match s.me.running op with
    | some o =>
      if s.netBefore o then s
      else match o.kind with
      | .netPut q =>
        if !ok ∨ !s.hub.connOk s.me.partNo q then s.engFail op 2
        else if o.left.isEmpty then
          ((s.modConn s.me.partNo q (Conn.sent o.len)).modMe
            (Hart.modEng op (fun o => { o with got := some [] }))).engFinish op
        else s
      | .netGet q =>
        if !ok ∨ !s.hub.connOk s.me.partNo q then s.engFail op 2
        else if o.got.isSome then s
        else (s.modConn s.me.partNo q (Conn.sent o.len)).modMe
          (Hart.modEng op (fun o => { o with got := some (data.take o.len) }))
      | _ => s
    | none => s))

/-! ### Conditions that the engine latches -/

/-- `CLK` reaches the promise of an unfinished operation (R16, R290). -/
def EngOp.missed (clk : Nat) (o : EngOp) : Bool := o.unfinished && !o.latched && o.promise ≤ clk

/-- The missed-promise condition is latched (R290); a drain latches none (R283). -/
def execMissedPromiseLatch (h : HartId) : Sem := fun s =>
  .next (s.onHart h (fun s =>
    if s.me.ctl.run = .retired then s
    else
      let clk := s.hub.clk
      s.modMe (fun h =>
        { h with
          latched := { h.latched with
            missed := h.latched.missed ++ (h.units.eng.filter (EngOp.missed clk)).map (·.promise) },
          units := { h.units with eng := h.units.eng.map (fun o =>
            if o.missed clk then { o with latched := true } else o) } })))

/-- A gang semaphore update lands at its target (R246): queued for the end of the target's cycle; one to a
retired tread is discarded. -/
def State.landOut (u : SemOut) (s : State) : State :=
  s.mapWhere (fun h => h.id = u.target && h.live) (Hart.semChange u.n u.op u.v true)

/-- An update may land: its cycles have passed, and the earlier direct stores to the target's vault have
landed (R246). -/
def State.semReady (u : SemOut) (s : State) : Bool :=
  let pos : Option Place := (s.hart? u.target).map (·.place)
  u.tick = 0 && s.me.lsu.vstores.all (fun v =>
    u.afterSeq ≤ v.seq || (match s.hub.localLoc v.pa with
      | .vault c q => pos.all (fun p => p.chip ≠ c || p.pos ≠ q)
      | _ => true))

/-- Due gang semaphore updates land (R246). -/
def execSemGgLands (h : HartId) : Sem := fun s =>
  .next (s.onHart h (fun s =>
    let due := s.me.units.semOut.filter (fun u => s.semReady u)
    let s := s.modMe (fun h => { h with units := { h.units with
      semOut := h.units.semOut.filter (fun u => !due.contains u) } })
    due.foldl (fun s u => s.landOut u) s))

end Sys2Proof.Machine
end

