-- ==== Sys2Proof/Machine/Links.lean ====
section
/-! DEFINITION. The outside of the package and what lies beneath the home: answers to requests that left
the package (R40, R203, R205), Treluk links (R24, R40), the hub's own writes and atomics (R205, R432),
inbound host and RDMA requests (R202, R346, R356, R357), stack requests and hash versions (R208, R212
to R214), errors (R396 to R398) and background work (R400, R401). -/

namespace Sys2Proof.Machine

/-! ### Answers to requests that left the package -/

/-- What an answer does at its hart: `bits` are the failure bits of R205, and `time` is the time that another package's
home gave (R190, R191). -/
def State.takeAnswer (tag bits time : Nat) (data : List Byte) (s : State) : State :=
  let waits : Bool := s.me.lsu.asks.any (fun a => a.tags.any (fun t => t.1 = tag))
  let wrote : Bool := s.me.lsu.writes.any (fun w => w.tag = some tag)
  let s := s.modMe (fun h => if waits then h.raiseLt time else h)
  let s := s.modMe (fun h => if wrote then
    { h with spr := { h.spr with storeTime := Nat.max h.spr.storeTime time },
             lsu := { h.lsu with maxStamp := Nat.max h.lsu.maxStamp time } } else h)
  let s := s.modMe (fun h => { h with lsu := { h.lsu with asks := h.lsu.asks.map (fun a =>
    { a with tags := a.tags.map (fun (t : Nat × Option (Nat × List Byte)) =>
        if t.1 = tag then (tag, some (bits, data)) else t) }) } })
  let s := match s.me.lsu.writes.find? (fun w => w.tag = some tag) with
    | none => s
    | some w =>
      if bits ≠ 0 then s.atomicFails w bits
      else s.atomicDone w (leBytes (data.take w.kind.atom.1)) time
  match s.me.units.eng.find? (fun o => o.tags.contains tag) with
  | none => s
  | some o =>
    if bits ≠ 0 then s.engFail o.id bits
    else (s.modMe (Hart.modEng o.id (fun o =>
      { o with stamp := Nat.max o.stamp time, tags := o.tags.filter (fun t => t ≠ tag) }))).engFinish o.id

/-- An answer arrives (R39, R40, R203): the request is no longer outstanding, and a peer that asked for a line has it. -/
def State.answer (tag bits time : Nat) (data : List Byte) (s : State) : State :=
  match s.hub.exts.find? (fun e => e.tag = tag) with
  | none => s
  | some e =>
    let s := { s with hub := { s.hub with exts := s.hub.exts.filter (fun x => x.tag ≠ tag) } }
    let s := match e.cxl with
      | some (peer, req) => (s.takeHost peer (e.pa / 128) req data).peerRoom peer (e.pa / 128)
      | none => s
    s.onHart e.hart (State.takeAnswer tag bits time data)

/-- The request of a tag goes to a party of the given kind. (DEDUCED: log entry 94.) -/
def State.asked (tag : Nat) (p : Far → Bool) (s : State) : Bool :=
  s.hub.exts.any (fun e => e.tag = tag && p e.far)

/-- A tier-2 CXL device answers (R37, R203). -/
def execCxlDeviceAcknowledgement (tag : Nat) (data : List Byte) : Sem := fun s =>
  .next (if s.asked tag (fun f => match f with
    | .cxl _ => true
    | _ => false) then s.answer tag 0 0 data else s)

/-- The host completes an access (R203). -/
def execHostWriteComplete (tag : Nat) (data : List Byte) : Sem := fun s =>
  .next (if s.asked tag (fun f => match f with
    | .host _ => true
    | _ => false) then s.answer tag 0 0 data else s)

/-! ### Treluk links (R24, R40) -/

/-- Changes a link; there are eight. -/
def State.setLink (k : Nat) (f : Link → Link) (s : State) : State :=
  if g : k < 8 then { s with hub := { s.hub with links := s.hub.links.set k (f (s.hub.links[k]'g)) g } }
  else s

/-- A link. -/
def Hub.link (hb : Hub) (k : Nat) : Link := if g : k < 8 then hb.links[k]'g else Link.zero

/-- A flit arrives (R40): one that is intact and in order is delivered. Otherwise its replay is requested, and a replay
that was requested has failed where the flits begin again without bringing it. (DESIGN CHOICE: log entry 56.) -/
def Link.receive (seq : Nat) (crcOk : Bool) (l : Link) : Bool × Link :=
  if crcOk ∧ seq = l.next then (true, { l with next := l.next + 1, asked := none, failed := 0 })
  else if seq < l.next then (false, l)
  else
    let again : Bool := l.asked.any (fun high => seq ≤ high)
    (false, { l with asked := some seq, failed := if again then l.failed + 1 else l.failed })

/-- The far side asks for a replay from a flit (R40), which it goes on with if it still holds that flit; a request for
a flit whose replay has been sent says that this replay has failed. -/
def Link.replay (seq : Nat) (l : Link) : Link :=
  if l.txSeq ≤ seq then l
  else
    let from_ := Nat.max seq ((l.held.head?.map (·.1)).getD seq)
    let unsent : Bool := l.again.any (fun k => k ≤ from_)
    { l with again := some from_,
             replays := (seq + 1, if l.replays.1 ≠ seq + 1 then 0
                                  else if unsent then l.replays.2 else l.replays.2 + 1) }

/-- Eight replays of one flit have failed in a row, of one that arrives or of one that is sent (R40). -/
def Link.spent (l : Link) : Bool := !l.dead && (8 ≤ l.failed || 8 ≤ l.replays.2)

/-- A link sends a flit now (R40): a replay waits while the far side's ready is low, and what else is sent then is at
most 64 flits, freely chosen. -/
def Link.sends (more : Bool) (l : Link) : Bool :=
  l.trained && !l.dead && (if l.farReady then l.again.isSome || !l.queue.isEmpty
    else l.again.isNone && !l.queue.isEmpty && l.excess < 64 && more)

/-- A link sends its next flit (R40): one that is replayed, or the next of its queue, which is held for a replay. -/
def Link.send (l : Link) : Link :=
  match l.again, l.queue with
  | some k, _ => { l with again := if k + 1 < l.txSeq then some (k + 1) else none }
  | none, x :: r =>
    let held := l.held ++ [(l.txSeq, x)]
    { l with queue := r, txSeq := l.txSeq + 1, held := held.drop (held.length - 512),
             excess := if l.farReady then 0 else l.excess + 1 }
  | none, [] => l

/-- A link sends its next flit (R40). -/
def State.linkSend (k : Nat) (s : State) : State := s.setLink k Link.send

/-- Puts an answer into the queue of a link (R22, R40). -/
def State.reply (k : Nat) (x : LinkItem) (s : State) : State :=
  s.setLink k (fun l => { l with queue := l.queue ++ [x] })

/-- A request of another package for a line whose home is here (R22), an aperture's too (R186): `f` gives its answer,
unless the location is refused. (DEDUCED: log entry 94.) -/
def State.serve (k tag pa n : Nat) (read : Bool) (f : State → State) (s : State) : State :=
  let l := s.hub.loc pa
  if !l.here ∨ 128 < pa % 128 + n ∨ n = 0 then s.reply k (.refused tag)
  else if read ∧ s.hub.poisoned pa then s.reply k (.poisoned tag)
  else f s

/-- A flit is delivered (R22, R40). -/
def State.deliverFlit (k : Nat) (x : FlitPayload) (s : State) : State :=
  let sent (tag : Nat) : Bool := s.asked tag (fun f => f = .link k) && !(s.hub.link k).queue.contains (.request tag)
  let timeOf (s : State) (pa : Nat) : Nat := (s.hub.lineMeta (lineOf pa)).wts
  match x with
  | .empty => s
  | .answer tag time data => if sent tag then s.answer tag 0 time data else s
  | .refused tag => if sent tag then s.answer tag 2 0 [] else s
  | .poisoned tag => if sent tag then s.answer tag 4 0 [] else s
  | .replay seq => s.setLink k (Link.replay seq)
  | .farReady b => s.setLink k (fun l => { l with farReady := b, excess := 0 })
  | .read tag pa n lt => s.serve k tag pa n true (fun s =>
      let t := Nat.max lt (s.hub.seenWts 0 0 (lineOf pa))
      let bs := s.hub.hubBytes s.free pa n
      State.reply k (.answer tag t bs) { s with hub := s.hub.readAt 0 0 (locOf pa) n t })
  | .write tag pa floor data => s.serve k tag pa data.length false (fun s =>
      let s := s.hubStore floor pa data
      s.reply k (.answer tag (timeOf s pa) []))
  | .atomic tag pa floor op d v c => s.serve k tag pa (if d then 8 else 4) true (fun s =>
      let n := if d then 8 else 4
      let m := 2 ^ (8 * n)
      let bs := s.hub.hubBytes s.free pa n
      let new := amoApply op (8 * n) (leBytes bs) (v.toNat % m) (c.toNat % m)
      let s := if op = .cas ∧ leBytes bs ≠ c.toNat % m then s.hubWrite floor (lineOf pa) []
        else s.hubStore floor pa (toBytes n new)
      s.reply k (.answer tag (timeOf s pa) bs))

/-- A flit arrives (R40). While ready is low the far side sends at most 64 flits. -/
def execFlitReceive (link seq : Nat) (crcOk : Bool) (payload : FlitPayload) : Sem := fun s =>
  let l := s.hub.link link
  if !l.trained ∨ l.dead ∨ 8 ≤ link ∨ (!l.ready ∧ 64 ≤ l.sent) then .next s
  else
    let low := Config.freeBool s.free
    let s := { s with free := s.free + 1 }
    let (good, l) := l.receive seq crcOk
    let s := s.setLink link (fun _ =>
      { l with ready := l.ready && !low, sent := if l.ready then 0 else l.sent + 1 })
    .next (if good then s.deliverFlit link payload else s)

/-- Ready returns (R40). -/
def execReadyReturn (link : Nat) : Sem := fun s =>
  .next (s.setLink link (fun l => { l with ready := true, sent := 0 }))

/-- A link is declared dead (R40, R398): its outstanding accesses complete with the dead-link status. -/
def execDeadLink (link : Nat) : Sem := fun s =>
  if !(s.hub.link link).spent then .next s
  else
    let es := s.hub.exts.filter (fun e => e.far = .link link)
    let s := s.setLink link (fun l => { l with dead := true, trained := false, queue := [], again := none })
    let s := s.logErr 7 ((es.head?.map (·.pa)).getD 0)
    .next (es.foldl (fun s e => s.answer e.tag 1 0 []) s)

/-- A link trains, and its far end reports its package number (R24). -/
def execLinkUp (link far : Nat) : Sem := fun s =>
  .next (s.setLink link (fun _ => { Link.zero with trained := true, far := far % 64 }))

/-! ### Inbound requests (R346, R356, R357) -/

/-- One address of an inbound request: a VA through a translation cache of the package, with U permissions (R346, R352),
or an IPA of the partition. -/
def Hub.inboundAddr (fr part : Nat) (k : Option (Fin 3)) (acc : Acc) (a : Nat) (hb : Hub) : Except XFault Nat × Hub :=
  match k with
  | some k =>
    let va := a % 2 ^ 57
    if inVault va ∨ inQuire va then (.error { stage := 1, level := 4, kind := 5, ipa := 0 }, hb)
    else
      let r := hb.translate fr k { va := va, acc := acc, lvl := 0, part := part, tick := 0 }
      (r.1.map (fun x => x.addr va), r.2)
  | none =>
    if a / 2 ^ 52 ≠ 0 then (.error { stage := 2, level := 4, kind := 3, ipa := a }, hb)
    else match hb.stage2 fr part a with
      | .error x => (.error x, hb)
      | .ok l =>
        if l.grants acc && !hb.inSpill (l.addr a) then (.ok (l.addr a), hb)
        else (.error { stage := 2, level := l.level, kind := 1, ipa := a }, hb)

/-- The physical addresses of the bytes of an inbound request; the first fault with its address otherwise. -/
def Hub.inboundAddrs (fr part : Nat) (k : Option (Fin 3)) (acc : Acc) :
    List Nat → Hub → Except (Nat × XFault) (List Nat) × Hub
  | [], hb => (.ok [], hb)
  | a :: as, hb =>
    match hb.inboundAddr fr part k acc a with
    | (.error x, hb) => (.error (a, x), hb)
    | (.ok pa, hb) =>
      match Hub.inboundAddrs fr part k acc as hb with
      | (.ok l, hb) => (.ok (pa :: l), hb)
      | r => r

/-- Sets what the outside is told. -/
def State.tell (r : Reply) (s : State) : State := { s with hub := { s.hub with reply := r } }

/-- A failed inbound request (R356, R357): a read is told so, a write is dropped. -/
def State.tellFailed (wr rdma : Bool) (s : State) : State :=
  s.tell (if wr then .dropped else if rdma then .accessError else .unsupported)

/-- Stores bytes at the physical addresses of an inbound write, in order, above a floor: R189 gives one to agents with an
LT only, and the host and the base dies have 0. (DESIGN CHOICE: log entry 119.) -/
def State.storeBytes (floor : Nat) (pas : List Nat) (data : List Byte) (s : State) : State :=
  let cells := pas.zip data
  ((cells.map (fun e => lineOf e.1)).eraseDups).foldl (fun s l =>
    let mine := cells.filter (fun e => lineOf e.1 = l)
    if (s.hub.loc ((mine.head?.map (·.1)).getD 0)).here then
      s.hubWrite floor l (mine.map (fun e => (e.1 % 128, e.2)))
    else s) s

/-- An inbound read of bytes: poisoned data is marked (R396). -/
def State.tellBytes (pas : List Nat) (s : State) : State :=
  let bs := pas.flatMap (fun pa => s.hub.hubBytes s.free pa 1)
  ({ s with free := s.free + 1 }).tell
    (if pas.any (fun pa => (s.hub.loc pa).here && s.hub.poisoned pa) then .poisoned bs else .data bs)

/-- A location that an inbound request cannot reach (R205, R342). -/
def Hub.unreached (hb : Hub) (pa : Nat) : Bool :=
  match hb.loc pa with
  | .dead | .refused | .config _ => true
  | _ => false

/-- An inbound PCIe or CXL.io request (R356, R357, R259). (DEDUCED: log entry 53.) -/
def execInboundHostRequest (req : HostReq) : Sem := fun s =>
  let e : Word := if h : req.port < 2 then NMap.get 0 (req.rid % 256) (s.hub.mon.streams[req.port]'h)
    else 0
  if !e.getLsbD 63 ∨ wbits 39 32 e ≠ req.rid / 256 ∨ req.pasid then
    let s := s.setMon (fun m =>
      { m with iounb := if m.iounb = BitVec.allOnes 64 then m.iounb else m.iounb + 1 })
    .next (s.tellFailed req.write false)
  else
    let part := wbits 61 58 e
    let n := req.data.length
    match s.hub.inboundAddrs s.free part (if e.getLsbD 62 then some 2 else none) (if req.write then .store else .load)
        ((List.range n).map (fun k => req.addr + k)) with
    | (.error (a, x), hb) =>
      .next (({ s with hub := hb }.ioFault part x.stage x.kind req.port req.write a).tellFailed req.write false)
    | (.ok pas, hb) =>
      let s := { s with hub := hb, free := s.free + 1 }
      if pas.any s.hub.unreached then .next (s.tellFailed req.write false)
      else if req.write then .next ((s.storeBytes 0 pas req.data).tell .done)
      else .next (s.tellBytes pas)

/-- A connection accepts an incoming request (R346). -/
def Conn.accepts (c : Conn) (r : RdmaReq) : Bool :=
  let n := match r.op with
    | .read | .write => r.len
    | _ => 8
  let base := bitsOf 271 215 c.raw
  c.valid && !c.err && bitsOf 511 384 c.raw = r.gid && bitsOf 351 328 c.raw = r.qpn
    && bitsOf 191 160 c.raw = r.key && base ≤ r.addr && r.addr + n ≤ base + bitsOf 159 128 c.raw
    && (match r.op with
      | .read => c.raw.testBit 6
      | .write => c.raw.testBit 7
      | _ => c.raw.testBit 6 && c.raw.testBit 7)

/-- The peer number of the Arcade that serves a connection. -/
def Conn.peer (c : Conn) : Nat := if c.port < 12 then 32 else 33

/-- A connection enters error (R346): the Arcades know it, and ERR of its entry is set. -/
def State.connError (part q : Nat) (s : State) : State :=
  (s.modConn part q (fun c => { c with err := true })).markConn part q true

/-- The answer to a request that is turned away: a remote access error, and the connection in error. -/
def State.refuseRdma (r : RdmaReq) (s : State) : State :=
  ({ s with hub := { s.hub with locked := s.hub.locked.filter (fun x => x.req ≠ r) } }.connError
    r.part r.conn).tell .accessError

/-! ### The Arcade engines as peers (R196, R199, R202, R209) -/

/-- An engine takes a line in M, with a new tenure (R199): every other copy is invalidated at once.
(DESIGN CHOICE: log entry 49.) -/
def State.takeLine (peer line : Nat) (s : State) : State :=
  let s := s.hubClear (some peer) line
  let s := { s with hub := s.hub.setLine line (fun m => { m with dir := 0 }) }
  (s.grantOwn .M peer line).getD s

/-- An engine writes bytes of a line that it holds, or takes, within its tenure (R199, R209). -/
def State.peerStore (peer line : Nat) (bs : List (Nat × Byte)) (s : State) : State :=
  let at_ (s : State) : Option Nat := s.hub.tenureAt (s.peerFloor peer) peer line
  let write (t : Nat) (s : State) : State :=
    State.peerSee peer t { s with hub := s.hub.peerWrite peer line bs t }
  match at_ s with
  | some t => write t s
  | none =>
    let s := s.takeLine peer line
    match at_ s with
    | some t => write t s
    | none => s

/-- What an RDMA request that is not finished changes in its entry (R202). -/
def State.onRdma (r : RdmaReq) (f : Locked → Locked) (s : State) : State :=
  { s with hub := { s.hub with locked := s.hub.locked.map (fun x => if x.req = r then f x else x) } }

/-- A request is finished: its entry is gone. -/
def State.rdmaDone (r : RdmaReq) (s : State) : State :=
  { s with hub := { s.hub with locked := s.hub.locked.filter (fun x => x.req ≠ r) } }

/-- A request goes on in the next tick. -/
def State.rdmaLater (r : RdmaReq) (peer line : Nat) (s : State) : State :=
  if s.hub.locked.any (fun x => x.req = r) then s.onRdma r (fun x => { x with tick := s.hub.clk + 1 })
  else { s with hub := { s.hub with locked := s.hub.locked ++
    [{ peer := peer, line := line, req := r, held := false, old := [], tick := s.hub.clk + 1, deferred := none }] } }

/-- The lines of some addresses, ascending in their first byte. -/
def linesOf (pas : List Nat) : List Nat := (pas.map lineOf).eraseDups

/-- A line that an engine cannot fill to read it yet: an invalidation or a locked sequence is on it, or it is host
memory that the host has not given (R39, R190, R202). -/
def State.lacksRead (peer line : Nat) (s : State) : Bool :=
  (s.hub.peerLine peer line).isNone && (match s.hub.localLoc (line * 128) with
    | .host p => Config.hostCxl p
    | l => l.leasable && (s.hub.invalidated line || s.hub.lockHeld line))

/-- What an engine does for a line that it lacks. -/
def State.wantLine (peer : Nat) (own : Bool) (line : Nat) (s : State) : State :=
  match s.hub.localLoc (line * 128) with
  | .host p => s.hostFill p peer line own
  | _ => (s.recallOf line).getD s

/-- An RDMA read (R196, R346): the engine fills the lines that peers may hold, and reads. -/
def State.rdmaRead (r : RdmaReq) (peer : Nat) (pas : List Nat) (s : State) : State :=
  let ls := linesOf (pas.filter (fun pa => (s.hub.loc pa).cacheable))
  let lacks := ls.filter (fun l => s.lacksRead peer l)
  match lacks with
  | l :: _ => (lacks.foldl (fun s l => s.wantLine peer false l) s).rdmaLater r peer l
  | [] =>
    let fills := ls.filter (fun l => (s.hub.peerLine peer l).isNone)
    let s := fills.foldl (fun s l => s.grantRead peer l) s
    ((s.rdmaDone r).tellBytes pas).modConn r.part r.conn (Conn.received pas.length)

/-- A write of an engine to bytes of one line: of local memory within its tenure, of host memory on the line that it
holds or with `ItoMWr`, and elsewhere at its home (R39, R199, R209). -/
def State.engineBytes (peer line : Nat) (mine : List (Nat × Byte)) (s : State) : State :=
  let pa := (mine.head?.map (·.1)).getD 0
  let bs := mine.map (fun e => (e.1 % 128, e.2))
  match s.hub.loc pa with
  | .host p =>
    if Config.hostCxl p then
      if 128 ≤ bs.length then
        State.askHost p peer line .itoMWr
          { s with hub := { s.hub with peers := s.hub.peers.filter (fun p => p.line ≠ line) } }
      else { s with hub := s.hub.peerWrite peer line bs 0 }
    else (s.sendFor (.core peer) none (.host p) pa bs.length true).2
  | .remote k => (s.sendFor (.core peer) none (.link k) pa bs.length true).2
  | l =>
    if l.leasable then s.peerStore peer line bs
    else if l.here then s.hubWrite (s.peerFloor peer) line bs
    else s

/-- An RDMA write (R199, R209, R346): once the engine holds the host lines that it writes in part, it stores. -/
def State.rdmaWrite (r : RdmaReq) (peer : Nat) (pas : List Nat) (s : State) : State :=
  let cells := pas.zip r.data
  let of_ (l : Nat) : List (Nat × Byte) := cells.filter (fun e => lineOf e.1 = l)
  let ls := linesOf pas
  let lacks := ls.filter (fun l => match s.hub.loc (((of_ l).head?.map (·.1)).getD 0) with
    | .host p => Config.hostCxl p && (of_ l).length < 128
        && !(s.hub.peerLine peer l).any (fun x => x.st.owns)
    | _ => false)
  match lacks with
  | l :: _ => (lacks.foldl (fun s l => s.wantLine peer true l) s).rdmaLater r peer l
  | [] =>
    let s := ls.foldl (fun s l => s.engineBytes peer l (of_ l)) s
    ((s.rdmaDone r).tell .done).modConn r.part r.conn (Conn.received pas.length)

/-- A RoCEv2 atomic on the word at an address, in a locked sequence (R202): the responder takes the line in
M, and when the sequence ends the word and its old value are settled on the line that it holds. -/
def State.rdmaAtomic (r : RdmaReq) (peer pa : Nat) (s : State) : State :=
  let line := lineOf pa
  match s.hub.locked.find? (fun l => l.req = r) with
  | none =>
    let n := Config.freeNat s.free
    let l : Locked := { peer := peer, line := line, req := r, held := false, old := [],
                        tick := s.hub.clk + n, deferred := none }
    { s with free := s.free + 1, hub := { s.hub with locked := s.hub.locked ++ [l] } }
  | some l =>
    if s.hub.clk < l.tick then s
    else if !l.held then
      match s.recallOf line with
      | some s => s.onRdma r (fun x => { x with tick := s.hub.clk + 1 })
      | none =>
        let took := match s.hub.localLoc (line * 128) with
          | .host p => some (s.hostFill p peer line true)
          | _ => s.grantOwn .M peer line
        match took with
        | none => s
        | some s =>
          let got := (s.hub.peerLine peer line).filter (fun p => p.st.owns)
          let n := Config.freeNat s.free
          State.onRdma r (fun x => { x with held := got.isSome, old := (got.map (·.bytes)).getD [],
                                            tick := s.hub.clk + 1 + (if got.isSome then n else 0) })
            { s with free := s.free + 1 }
    else s.endSequence l

/-- An incoming RDMA request (R202, R346, R350, R352, R357). -/
def execIncomingRdma (req : RdmaReq) : Sem := fun s =>
  match s.hub.conn req.part req.conn with
  | none => .next ((s.rdmaDone req).tell .accessError)
  | some c =>
    if !c.accepts req ∨ !(s.hub.part req.part).pchip.getLsbD (12 + c.port) then .next (s.refuseRdma req)
    else
      let wr : Bool := req.op ≠ .read
      let n := match req.op with
        | .read | .write => req.len
        | _ => 8
      let acc : Acc := match req.op with
        | .read => .load
        | .write => .store
        | _ => .atomic
      match s.hub.inboundAddrs s.free req.part (some (if c.peer = 32 then 0 else 1)) acc
          ((List.range n).map (fun k => req.addr + k)) with
      | (.error (a, x), hb) =>
        .next (({ s with hub := hb }.ioFault req.part x.stage x.kind (2 + c.port) wr a).refuseRdma req)
      | (.ok pas, hb) =>
        let s := { s with hub := hb, free := s.free + 1 }
        if pas.any s.hub.unreached then .next (s.refuseRdma req)
        else
          match req.op, pas with
          | .read, _ => .next (s.rdmaRead req c.peer pas)
          | .write, _ => .next (s.rdmaWrite req c.peer pas)
          | _, pa :: _ =>
            if req.addr % 8 ≠ 0 ∨ !(s.hub.loc pa).cacheable then .next (s.refuseRdma req)
            else .next (s.rdmaAtomic req c.peer pa)
          | _, [] => .next s

/-! ### Stack requests (R208, R212) -/

/-- Bytes that a base die holds: the memory copy of a line. -/
def Loc.stacked : Loc → Bool
  | .hbm | .lpddr | .cxl _ => true
  | _ => false

/-- A line read (R212): the memory copy, and an MSC fill. (DESIGN CHOICE: log entry 24.) -/
def execLineRead (pa : Nat) : Sem := fun s =>
  let line := lineOf pa
  if !(s.hub.localLoc (line * 128)).stacked then .next (s.tell .dropped)
  else
    let bs := bytesAt s.hub.mem (line * 128) 128
    let hb := s.hub.readLine line
    .next (State.tell (if (hb.lineMeta line).poison then .poisoned bs else .data bs)
      { s with hub := hb })

/-- A line write with a byte mask (R212), which makes a new check value (R395); mask 0 does nothing. -/
def execLineWrite (pa mask : Nat) (data : List Byte) : Sem := fun s =>
  let line := lineOf pa
  let ks := (List.range 128).filter (fun k => mask.testBit k)
  if ks.isEmpty then .next s
  else if !(s.hub.localLoc (line * 128)).stacked then .next (s.tell .dropped)
  else
    let hb := s.hub.putCells (ks.map (fun k => (line * 128 + k, data.getD k 0#8)))
    .next { s with hub := hb.mscWrite line }

/-- The descriptor of an identifier as the hub reads it (R119, R121, R208). -/
def Hub.readTdt (hb : Hub) (fr part : Nat) (id : Word) : Option Tdt :=
  let r := (hb.part part).tdtb
  if id.toNat / 4096 ≠ 0 ∨ !r.getLsbD 0 then none
  else
    match hb.readVa fr part (wbits 56 12 r * 4096 + 64 * id.toNat) 64 with
    | some bs =>
      let t : Tdt := { bits := leBytes bs }
      if t.valid then some t else none
    | none => none

/-- A tile read (R122, R208): out-of-range elements are the PAD pattern. -/
def execTileRead (part : Nat) (tid coords : Word) : Sem := fun s =>
  match s.hub.readTdt s.free part tid with
  | none => .next (s.tell .dropped)
  | some t =>
    let bs := (List.range 4096).foldr (fun o (r : Option (List Byte)) =>
      match r, t.tileByte coords o with
      | none, _ => none
      | some l, none => some (t.padByte o :: l)
      | some l, some va => (s.hub.readVa s.free part va 1).map (fun b => b ++ l)) (some [])
    let s := { s with free := s.free + 1 }
    .next (s.tell (match bs with
      | some l => .data l
      | none => .dropped))

/-- A tile write (R208): only in-range bytes, each line ordered at its home. -/
def execTileWrite (part : Nat) (tid coords : Word) (data : List Byte) : Sem := fun s =>
  match s.hub.readTdt s.free part tid with
  | none => .next (s.tell .dropped)
  | some t =>
    let cells := (List.range 4096).filterMap (fun o => (t.tileByte coords o).map (fun va => (va, o)))
    let pas := cells.map (fun c =>
      match s.hub.hubAddrs s.free part .store c.1 1 with
      | some [pa] => some pa
      | _ => none)
    if pas.any Option.isNone then .next (s.tell .dropped)
    else .next ((s.storeBytes 0 (pas.filterMap id)
      (cells.map (fun c => data.getD c.2 0#8))).tell .done)

/-- Changes a base die; there are twelve. -/
def State.setStack (k : Nat) (f : Stack → Stack) (s : State) : State :=
  if g : k < 12 then { s with hub := { s.hub with dram := s.hub.dram.set k (f (s.hub.dram[k]'g)) g } }
  else s

/-- A line lies in a region. -/
def inSpan (base len line : Nat) : Bool := base / 128 ≤ line && line * 128 < base + len

/-- The dirty lines of a region that a base die holds are written to DRAM, and those of its eviction buffer with
them (R212, R213). -/
def Stack.cleanRegion (clk base len : Nat) (d : Stack) : Stack :=
  let d := (d.msc.filter (fun e => e.dirty && inSpan base len e.line)).foldl (fun d e => d.clean clk e.line) d
  { d with buffer := d.buffer.filter (fun l => !inSpan base len l) }

/-- Changes every base die. -/
def State.mapStacks (f : Stack → Stack) (s : State) : State :=
  { s with hub := { s.hub with dram := s.hub.dram.map f } }

/-- A region clean (R212): dirty lines are written to DRAM and kept. -/
def execRegionClean (base len : Nat) : Sem := fun s =>
  .next (s.mapStacks (Stack.cleanRegion s.hub.clk base len))

/-- A region invalidate (R212): cleaned, and then dropped. -/
def execRegionInvalidate (base len : Nat) : Sem := fun s =>
  .next (s.mapStacks (fun d =>
    let d := d.cleanRegion s.hub.clk base len
    { d with msc := d.msc.filter (fun e => !inSpan base len e.line) }))

/-- A read of a base-die register, at monitor privilege (R212). Which registers there are is not stated: each offset
is a word, 0 at reset. (DESIGN CHOICE: log entry 54.) -/
def execConfigurationRead (stack : Nat) (reg : DieReg) : Sem := fun s =>
  .next (s.tell (if reg.lvl ≠ 2 then .dropped
    else .word (if h : stack < 12 then NMap.get 0 reg.off (s.hub.dram[stack]'h).regs else 0)))

/-- A write of a base-die register, at monitor privilege (R212). (DESIGN CHOICE: log entry 54.) -/
def execConfigurationWrite (stack : Nat) (reg : DieReg) (val : Word) : Sem := fun s =>
  if reg.lvl ≠ 2 then .next (s.tell .dropped)
  else .next (s.setStack stack (fun d => { d with regs := NMap.put 0 reg.off val d.regs }))

/-- A conflict counter has crossed its threshold, or does (R214). (DESIGN CHOICE: log entry 55.) -/
def execHashVersionAdopt (stack : Nat) : Sem := fun s => .next (s.setStack stack Stack.adopt)

/-- The beater engine moves the next line (R214): bytes, times, check value and poison stay with the
line; at the end of the stack a crossing that was deferred can take effect. -/
def execBeaterMove (stack : Nat) : Sem := fun s =>
  let lines := wbits 7 0 s.hub.mon.hbmcap * gib / 128
  .next (s.setStack stack (fun d =>
    match d.migrating with
    | none => d
    | some w =>
      { d with migrating := if w + 1 < lines then some (w + 1) else none }))

/-! ### Errors (R396 to R398) and background work (R400, R401) -/

/-- The check value of a line no longer fits its bytes, and a check finds it (R395, R396). -/
def State.damageLine (line : Nat) (s : State) : State :=
  { s with hub := s.hub.setLine line (fun m => { m with syn := if m.syn = 0 then 1 else m.syn }.verify) }

/-- Poisons a line (R396). -/
def State.poisonLine (line : Nat) (s : State) : State :=
  { s with hub := s.hub.setLine line (fun m => { m with poison := true }) }

/-- A tread-state error is latched and logged (R373, R397, R398). -/
def State.stateError (h : HartId) (cls num : Nat) (s : State) : State :=
  match s.hart? h with
  | none => s
  | some x =>
    State.mapHart h (fun x => { x with latched := { x.latched with
      stateErr := some (x.latched.stateErr.getD (cls, num)) } })
      (s.logErr 3 (x.place.chip % 16 + x.place.flight % 256 * 16))

/-- ECC has found an uncorrectable error, or a line check has failed (R395 to R398). -/
def execUncorrectableError (site : ErrSite) : Sem := fun s =>
  match site with
  | .corrected => .next s.countCorrected
  | .line pa true => .next ((s.poisonLine (lineOf pa)).logErr 1 pa)
  | .line pa false => .next ((s.damageLine (lineOf pa)).logErr 2 pa)
  | .hub pa => .next ((s.damageLine (lineOf pa)).logErr 4 pa)
  | .lease h pa =>
    let line := lineOf pa
    let dirty : Bool := match s.hart? h with
      | some x => x.lsu.lease.any (fun l => l.line = line && !l.dirty.isEmpty)
      | none => false
    let s := s.mapHart h (fun x =>
      { x with lsu := { x.lsu with lease := x.lsu.lease.filter (fun l => l.line ≠ line) } })
    .next (if dirty then (s.poisonLine line).logErr 2 pa else s)
  | .tread h cls num => .next (s.stateError h cls num)

/-- Patrol scrubbing visits lines (R400): no value changes (R401). -/
def execPatrolScrub (_site : Nat) : Sem := fun s => .next s
/-- DRAM calibration (R400, R401). -/
def execDramCalibration (_stack : Nat) : Sem := fun s => .next s
/-- Link calibration (R400, R401). -/
def execLinkCalibration (_link : Nat) : Sem := fun s => .next s
/-- Row-disturbance management (R400, R401). -/
def execRowDisturbanceManagement (_stack : Nat) : Sem := fun s => .next s

end Sys2Proof.Machine
end

