-- ==== Sys2Proof/Machine/Waits.lean ====
section
/-! DEFINITION. What ends a wait of a hart, the traps taken at a bundle boundary (R373), the hub's answers
on hypotheses (R215 to R220, R249 to R253), `tlbinv` (R354, R355), and the package's logical time (R189,
R195). -/

namespace Sys2Proof.Machine

/-! ### Every hart, saved ones too -/

/-- Changes every hart, those of saved contexts included. -/
def State.mapAll (f : Hart → Hart) (s : State) : State :=
  let s := s.mapHarts f
  { s with hub := { s.hub with launches := s.hub.launches.map (fun l =>
      { l with gangs := l.gangs.map (fun g => { g with ctx := g.ctx.map f }) }) } }

/-- Changes the hart of a name, a saved one too. -/
def State.mapId (id : HartId) (f : Hart → Hart) (s : State) : State :=
  s.mapAll (fun h => if h.id = id then f h else h)

/-! ### Results, freezes and translations -/

/-- Every due result of a hart lands (R11). -/
def execExposedResultLands (h : HartId) : Sem := fun s => .next (s.onHart h State.landDue)

/-- A vector that was passed becomes available in its queue (R156). -/
def execXPassEntryArrives (h : HartId) : Sem := fun s =>
  .next (s.onHart h (fun s =>
    let isX (p : Pend) : Bool := p.ready && (match p.effs with
      | some [.xpass ..] => true
      | _ => false)
    let due := sortBy (fun a b => a.seq ≤ b.seq) (s.me.sched.pipe.filter isX)
    let s := s.modMe (fun h =>
      { h with sched := { h.sched with pipe := h.sched.pipe.filter (fun p => !isX p) } })
    due.foldl State.landPend s))

/-- A due result of a tread has not arrived (R50); a Newel core waits by its interlock instead (R30). -/
def Hart.absent (h : Hart) : Bool := !h.isCore && h.sched.pipe.any (fun p => p.left = 0 && p.effs.isNone)

/-- A translation is awaited, or its fetch line. -/
def Hart.wants (h : Hart) : Bool := h.lsu.want.isSome

/-- The hart freezes: a due result or a line is absent (R50). -/
def execFreeze (h : HartId) : Sem := fun s =>
  .next (s.onHart h (fun s =>
    if s.me.absent ∨ s.me.wants then
      s.modMe (fun h => { h with ctl := { h.ctl with frozen := true } })
    else s))

/-- What was awaited has arrived, and the schedule resumes (R50). -/
def execFreezeEnd (h : HartId) : Sem := fun s =>
  .next (s.onHart h (fun s =>
    if s.me.absent ∨ s.me.wants then s
    else s.modMe (fun h => { h with ctl := { h.ctl with frozen := false } })))

/-- A walk ends (R349): the caches take the translation, or the fault stands for the bundle that waits. -/
def execTranslationWalk (h : HartId) (va : Nat) (acc : Acc) : Sem := fun s =>
  .next (s.onHart h (fun s =>
    match s.me.lsu.want with
    | some w =>
      if w.va = va ∧ w.acc = acc ∧ w.tick ≤ s.hub.clk then
        let r := s.hub.resolve s.free (Config.freeBool s.free) w
        let s := { s with free := s.free + 1 }
        match r with
        | .ok x => s.modMe (fun h =>
            { h with lsu := { h.lsu with tlb := x :: h.lsu.tlb, want := none, fault := none } })
        | .error x => s.modMe (fun h =>
            { h with lsu := { h.lsu with want := none, fault := some (w, x) } })
      else s
    | none => s))

/-! ### `tlbinv` (R354, R355) -/

/-- A cached translation that a `tlbinv` covers; entries of a page of any size go by its largest size.
(DEDUCED: log entry 61.) -/
def TlbInv.covers (t : TlbInv) (x : Xlat) : Bool :=
  match t.kind with
  | 0 => !x.mon && x.part = t.part && x.vpn / 2 ^ 18 = t.va / 2 ^ 30
  | 1 | 3 => !x.mon && x.part = t.part
  | 2 => !x.mon && x.part = t.part && x.ipn / 2 ^ 18 = t.va / 2 ^ 30
  | _ => x.mon

/-- The accesses of a hart below a place in its issue order have been stamped, have landed or failed. -/
def Hart.doneBelow (n : Nat) (h : Hart) : Bool :=
  h.lsu.asks.all (fun a => n ≤ a.seq) && h.lsu.writes.all (fun w => n ≤ w.seq)
    && h.units.eng.all (fun o => n ≤ o.id || o.tags.isEmpty)

/-- A `tlbinv` makes progress (R355): the caches drop what it covers, and when every access translated
before has ended it completes. -/
def execTlbinvComplete (id : Nat) : Sem := fun s =>
  match s.hub.tlbinvs.find? (fun t => t.id = id) with
  | none => .next s
  | some t =>
    let upd (f : TlbInv → TlbInv) (s : State) : State :=
      { s with hub := { s.hub with
        tlbinvs := s.hub.tlbinvs.map (fun x => if x.id = id then f x else x) } }
    if s.hub.clk < t.tick then .next s
    else match t.marks with
    | none =>
      let s := s.mapAll (fun h =>
        { h with
          lsu := { h.lsu with tlb := h.lsu.tlb.filter (fun x => !t.covers x) },
          ctl := { h.ctl with line := none } })
      let s := { s with hub := { s.hub with caches := s.hub.caches.map (List.filter (fun x => !t.covers x)) } }
      .next (upd (fun x =>
        { x with marks := some (s.harts.map (fun h => (h.id, h.iss.seq))), tick := s.hub.clk + 1 }) s)
    | some ms =>
      let done := ms.all (fun m => match s.hart? m.1 with
        | some h => h.doneBelow m.2
        | none => true)
      if done then
        let s := { s with hub := { s.hub with tlbinvs := s.hub.tlbinvs.filter (fun x => x.id ≠ id) } }
        .next (s.mapId t.by_ (fun h =>
          { h with lsu := { h.lsu with tlbinvs := h.lsu.tlbinvs.filter (fun i => i ≠ id) } }))
      else .next (upd (fun x => { x with tick := s.hub.clk + 1 }) s)

/-! ### Watches (R235) -/

/-- The hart of a name, a saved one too. -/
def State.anyHart? (id : HartId) (s : State) : Option Hart :=
  (s.harts ++ s.hub.launches.flatMap (fun l => l.gangs.flatMap (fun g => g.ctx))).find? (fun h => h.id = id)

/-- The condition of a `mon.wait` is examined again (R235), that of a parked hart too. -/
def execMonWaitRecheck (h : HartId) : Sem := fun s =>
  match s.anyHart? h with
  | some x =>
    (match x.lsu.mon with
      | .recheck tick w =>
        if tick ≤ s.hub.clk then
          let (m, s) := s.monCheck x.spr.lt w
          .next (s.mapId h (fun h => { h with lsu := { h.lsu with mon := m } }))
        else .next s
      | _ => .next s)
  | none => .next s

/-- An admitted write has met the condition of a hart's watch entry (R235): the entry is freed. -/
def execWatchTrigger (h : HartId) : Sem := fun s =>
  match s.hub.watches.find? (fun w => w.who = Waiter.hart h && w.hit.isSome) with
  | none => .next s
  | some w =>
    let s := { s with hub := { s.hub with watches := s.hub.watches.filter (fun x => x.who ≠ Waiter.hart h) } }
    .next (s.mapId h (fun x =>
      { x with lsu := { x.lsu with mon := .satisfied (w.hit.getD 0) } }))

/-! ### Traps at a bundle boundary (R373) -/

/-- A trap between bundles, without a slot; `TPC` names the bundle that would have issued next (R371). -/
def State.boundaryTrap (cls code info taddr lvl : Nat) (s : State) : State :=
  s.takeTrap { cls := cls, code := code, info := info, slot := none, tpc := s.me.ctl.pc,
               taddr := taddr, lvl := lvl }

/-- Changes what is latched. -/
def Hart.setLatched (f : Latched → Latched) (h : Hart) : Hart := { h with latched := f h.latched }

/-- An uncorrectable error in tread state traps to M (R371, R397). -/
def execTreadStateError (h : HartId) (cls num : Nat) : Sem := fun s =>
  .next (s.onHart h (fun s =>
    (s.modMe (Hart.setLatched (fun l => { l with stateErr := none }))).boundaryTrap 1 0x11 cls num 2))

/-- A failed access whose result was due (R205, R384). -/
def execMemoryError (h : HartId) : Sem := fun s =>
  .next (s.onHart h (fun s =>
    match s.me.latched.memErr with
    | (a, info) :: rest =>
      (s.modMe (Hart.setLatched (fun l => { l with memErr := rest }))).boundaryTrap 2 0x0b info a
        (toS s.me.level)
    | [] => s))

/-- The engine translation fault of a suspended operation (R241, R353). -/
def execEngineTranslationFault (h : HartId) (op : Nat) : Sem := fun s =>
  .next (s.onHart h (fun s =>
    match s.me.units.eng.find? (fun o => o.id = op) with
    | some o =>
      (match o.stat with
        | .suspended va x acc false =>
          let s := s.modMe (Hart.modEng op (fun o => { o with stat := .suspended va x acc true }))
          (s.boundaryTrap 3 0x0d 0 va (xfltLevel s.me.level x)).modMe (fun h =>
            { h with spr := { h.spr with xflt := xfltWord x acc } })
        | _ => s)
    | none => s))

/-- The missed-promise trap (R16, R381): it reports and clears every latched condition. -/
def execMissedPromise (h : HartId) : Sem := fun s =>
  .next (s.onHart h (fun s =>
    match s.me.latched.missed with
    | p :: ps =>
      (s.modMe (Hart.setLatched (fun l => { l with missed := [] }))).boundaryTrap 4 0x0e
        (Nat.min (ps.length + 1) 65535) (ps.foldl Nat.min p) (toS s.me.level)
    | [] => s))

/-- The entry of a handler stack that a node was pushed for, and what lies below it. -/
def popTo (n : Nat) : List (Nat × VAddr) → Option (VAddr × List (Nat × VAddr))
  | [] => none
  | (m, a) :: r => if m = n then some (a, r) else popTo n r

/-- The hart after a hypothesis-lost trap (R372, R378, R382): a branch to the handler that was pushed for
the node, at the same level; an attached tread becomes an orphan, and a running loop is abandoned. -/
def Hart.lostEntry (node : Nat) (a : VAddr) (below : List (Nat × VAddr)) (h : Hart) : Hart :=
  { h with
    spr := { h.spr with
      tcause := causeWord { cls := 5, code := 0x0f, info := node, slot := none, tpc := h.ctl.pc,
                            taddr := 0, lvl := 0 } false,
      tpc := BitVec.ofNat 64 h.ctl.pc.toNat,
      taddr := 0,
      titer := 0,
      hyp := BitVec.ofNat 64 ((below.head?.map (·.1)).getD 0) },
    ctl := { h.ctl with
      pc := a,
      run := match h.ctl.run with
        | .attached => .orphan
        | .atMeet => .detached
        | r => r,
      resume := none, frozen := false, stall := none, bar := none, dec := none, fifo := [], posted := false,
      line := none, fetchAt := none },
    sched := { h.sched with loop := none },
    units := { h.units with hstack := below },
    latched := { h.latched with hypLost := none },
    iss := { h.iss with out := .trapped 5, next := none, after := none },
    lsu := { h.lsu with want := none, fault := none, mon := .none, fenceSince := none,
                        verWait := none, flush := none,
                        hubReq := h.lsu.hubReq.filter (fun r => r.answer.isSome) } }

/-- The hypothesis-lost trap (R219, R253, R372, R378), taken at U. -/
def execHypothesisLost (h : HartId) : Sem := fun s =>
  .next (s.onHart h (fun s =>
    match s.me.latched.hypLost with
    | some (node, _, _) =>
      if s.me.level ≠ 0 then s
      else match popTo node s.me.units.hstack with
      | some (a, below) =>
        let ti := s.titer s.me s.me.ctl.pc.toNat []
        let id := s.me.id
        let s := s.modMe (fun h =>
          let h := h.lostEntry node a below
          { h with spr := { h.spr with titer := ti } })
        { s with hub := { s.hub with watches := s.hub.watches.filter (fun w => w.who ≠ Waiter.hart id) } }
      | none => s.modMe (Hart.setLatched (fun l => { l with hypLost := none }))
    | none => s))

/-- The debug-step trap after one cycle (R392, R393). -/
def execDebugStep (h : HartId) : Sem := fun s =>
  .next (s.onHart h (fun s =>
    if s.me.latched.dbgStep then
      let lvl := if s.me.spr.dbg.getLsbD 2 then 2 else toS s.me.level
      (s.modMe (Hart.setLatched (fun l => { l with dbgStep := false }))).boundaryTrap 6 0x06 0 0 lvl
    else s))

/-- The core event that a Newel core takes next, with its level (R339). -/
def Hart.coreEventOf (clk : Nat) (h : Hart) : Option (Nat × Nat) :=
  if !h.isCore ∨ !h.live then none
  else
    let on := evpend clk h &&& h.spr.even
    let lvl := h.level
    let admits (m : Bool) : Bool :=
      if m then lvl < 2 || h.spr.plv.getLsbD 7 else lvl = 0 || (lvl = 1 && h.spr.plv.getLsbD 6)
    let pick (m : Bool) : Option Nat := (List.range 6).find? (fun b =>
      on.getLsbD b && h.spr.evlvl.getLsbD b = m && admits m)
    match pick true, pick false with
    | some b, _ => some (b, 2)
    | none, some b => some (b, 1)
    | none, none => none

/-- A core takes its core event (R339, R371). -/
def execCoreEvent (core : Nat) : Sem := fun s =>
  .next (s.onHart (.core core) (fun s =>
    match s.me.coreEventOf s.hub.clk with
    | some (b, lvl) => s.boundaryTrap 7 0x12 b 0 lvl
    | none => s))

/-- `CLK` has reached `TCMP`, and TIMER is pending (R339). -/
def execTimerExpiry (core : Nat) : Sem := fun s =>
  .next (s.mapHart (.core core) (fun h =>
    let due := decide (h.spr.tcmp.toNat ≤ s.hub.clk)
    { h with spr := { h.spr with evpend := setBits 0 0 due.toNat h.spr.evpend } }))

/-! ### Hypotheses -/

/-- Depth of a node below the root (R215). -/
def Hub.depth (hb : Hub) (part n : Nat) : Nat := (hb.path part n).length - 1

/-- A node and its descendants. -/
def Hub.subtree (hb : Hub) (part n : Nat) : List Nat :=
  (hb.nodes.filter (fun x => x.part = part && (hb.path part x.id).contains n)).map (·.id)

/-- `hyp.open` at the hub (R251). (DESIGN CHOICE: log entry 50.) -/
def State.openNode (part : Nat) (parent : Word) (s : State) : Word × State :=
  let p := parent.toNat
  if p ≠ 0 ∧ (s.hub.node part p).isNone then (258, s)
  else if 8 ≤ s.hub.depth part p then (257, s)
  else
    match (List.range 256).find? (fun n => n ≠ 0 && (s.hub.node part n).isNone) with
    | none => (256, s)
    | some n =>
      (BitVec.ofNat 64 n,
        { s with hub := { s.hub with nodes := s.hub.nodes ++ [{ part := part, id := n, parent := p }] } })

/-- The lines of the versions of a node. -/
def Hub.versionsOf (hb : Hub) (part n : Nat) : List Version :=
  hb.versions.filter (fun v => v.part = part && v.node = n)

/-- The live part of a handler stack: what lies below the entry of a node already lost. -/
def Hart.liveStack (h : Hart) : List (Nat × VAddr) :=
  match h.latched.hypLost with
  | some (n, _, _) => (popTo n h.units.hstack).elim [] (·.2)
  | none => h.units.hstack

/-- The path of a hart passes through a node. -/
def Hart.under (part n : Nat) (h : Hart) : Bool :=
  h.partNo = part && h.liveStack.any (fun (e : Nat × VAddr) => e.1 = n)

/-- A hart after a node has been confirmed into its parent (R218, R254): its tag, stack and LT, and what
it has on its way. (DEDUCED: log entry 52.) -/
def Hart.afterConfirm (part n p t : Nat) (h : Hart) : Hart :=
  let re (x : Nat) : Nat := if x = n then p else x
  let mine := h.partNo = part
  let under := h.under part n
  let h := if under then Hart.raiseLt t
      { h with
        spr := { h.spr with hyp := if h.spr.hyp.toNat = n then BitVec.ofNat 64 p else h.spr.hyp },
        units := { h.units with
          hstack := h.units.hstack.filter (fun (e : Nat × VAddr) => e.1 ≠ n) } }
    else h
  if !mine then h
  else
    { h with
      units := { h.units with eng := h.units.eng.map (fun o => { o with hyp := re o.hyp }) },
      lsu := { h.lsu with
        writes := h.lsu.writes.map (fun w => { w with hyp := re w.hyp }),
        asks := h.lsu.asks.map (fun a => { a with hyp := re a.hyp }),
        mon := match h.lsu.mon with
          | .recheck t w => .recheck t { w with node := re w.node }
          | m => m,
        lease := h.lsu.lease.filter (fun l => l.part ≠ part || l.node ≠ n) } }

/-- Confirms a live node (R218): the time, and the state. Poison of its versions goes with their bytes (R396). -/
def State.confirmNode (part n p : Nat) (s : State) : Nat × State :=
  let vs := s.hub.versionsOf part n
  let acks := vs.foldl (fun t v =>
    ((covered (s.hub.lineMeta v.line).dir).filter (fun q => some q ≠ s.me.coreNo)).foldl
      (fun t q => Nat.max t (s.peerLt q + 1)) t) 0
  let t := vs.foldl (fun t v =>
    let w := s.hub.times part p v.line
    Nat.max t (Nat.max (w.1 + 1) (w.2 + 1))) (Nat.max s.me.floor acks)
  let hit := vs.any (fun v => s.hub.poisonHit part p v.line (v.bytes.filterMap (·.2)).length)
  let s := vs.foldl (fun s v => s.hubClear none v.line) s
  let s := { s with hub := { s.hub with
    versions := s.hub.versions.filter (fun v => !(v.part = part && v.node = n)) } }
  let me := s.me.id
  let s := vs.foldl (fun s v =>
    let bs := v.bytes.filterMap (fun (e : Nat × Option Byte) => e.2.map (fun b => (e.1, b)))
    let tick := s.hub.clk + Config.freeNat s.free
    { s with free := s.free + 1,
             hub := (s.hub.commit me tick part p v.line bs t false).setPoison part p v.line v.poison false }) s
  let nodes := (s.hub.nodes.filter (fun x => !(x.part = part && x.id = n))).map (fun x =>
    if x.part = part ∧ x.parent = n then { x with parent := p } else x)
  let watches := s.hub.watches.map (fun w =>
    if w.part = part ∧ w.node = n then { w with node := p } else w)
  let s := { s with hub := { s.hub with nodes := nodes, watches := watches } }
  (t, (s.mapAll (Hart.afterConfirm part n p t)).modMe (fun h => if hit then h.setPending 2 else h))

/-- An engine operation that writes memory under its tag. -/
def EngOp.writesTagged (o : EngOp) : Bool :=
  match o.kind with
  | .copy | .netGet _ => !inVault o.dst
  | .tileSt .. => true
  | _ => false

/-- A hart after nodes were refuted (R219): tagged writes on their way are discarded, and set REFUTED;
loads on their way read what remains; the lost hypothesis is latched. (DESIGN CHOICE: log entry 51.) -/
def Hart.afterRefute (part n p : Nat) (dead : List Nat) (fr : Nat) (h : Hart) : Hart :=
  let under := h.under part n
  if h.partNo ≠ part then h
  else
    let gone := h.lsu.writes.filter (fun w => dead.contains w.hyp)
    let hit := gone ≠ [] || h.units.eng.any (fun o =>
      o.unfinished && dead.contains o.hyp && o.writesTagged)
    let re (x : Nat) : Nat := if dead.contains x then p else x
    let h := gone.foldl (fun h w => match w.kind with
      | .amo _ _ _ _ seq r => h.deliver seq [.s r (BitVec.ofNat 64 (freeAt fr w.seq))]
      | _ => h) h
    let h := if hit then h.setPending 3 else h
    { h with
      units := { h.units with eng := h.units.eng.map (fun o =>
        if o.unfinished ∧ dead.contains o.hyp ∧ o.writesTagged then { o with stat := .failed, tags := [] }
        else { o with hyp := re o.hyp }) },
      latched := { h.latched with hypLost := if under then some (n, 0, p) else h.latched.hypLost },
      lsu := { h.lsu with
        writes := h.lsu.writes.filter (fun w => !dead.contains w.hyp),
        asks := h.lsu.asks.map (fun a => { a with hyp := re a.hyp }),
        lease := h.lsu.lease.filter (fun l => l.part ≠ part || !dead.contains l.node) } }

/-- Refutes a live node (R219, R220). -/
def State.refuteNode (part n p : Nat) (s : State) : State :=
  let dead := s.hub.subtree part n
  let inDead (q k : Nat) : Bool := q = part && dead.contains k
  let s := { s with hub := { s.hub with
    nodes := s.hub.nodes.filter (fun x => !inDead x.part x.id),
    versions := s.hub.versions.filter (fun v => !inDead v.part v.node),
    watches := s.hub.watches.filter (fun w => !inDead w.part w.node) } }
  let fr := s.free
  (State.mapAll (Hart.afterRefute part n p dead fr) { s with free := fr + 1, hub := s.hub.restartInvs }).settleBanks

/-- The hub performs the request of a hart and answers it (R251, R253). -/
def execResolveComplete (h : HartId) : Sem := fun s =>
  .next (s.onHart h (fun s =>
    match s.me.lsu.hubReq with
    | some r =>
      if r.answer.isSome then s
      else
        let part := s.me.partNo
        let say (v : Word) (t : Nat) (s : State) : State := s.modMe (fun h =>
          { h with lsu := { h.lsu with hubReq := some { r with answer := some (v, t) } } })
        if r.kind = 0 then
          let (v, s) := s.openNode part r.node
          say v 0 s
        else if r.node = 0 then say 2 0 s
        else
          match s.hub.node part r.node.toNat with
          | none => say 1 0 s
          | some x =>
            if r.kind = 1 then
              let (t, s) := s.confirmNode part x.id x.parent
              say 0 t s
            else say 0 0 (s.refuteNode part x.id x.parent)
    | none => s))

/-! ### Logical time (R189, R195) -/

/-- The base time rises every 64 ticks of `CLK` (R189). -/
def execBaseTimeRise : Sem := fun s =>
  .next (if s.hub.raised + 64 ≤ s.hub.clk then
    { s with hub := { s.hub with base := s.hub.base + 1, raised := s.hub.raised + 64 } } else s)

/-- The limit of logical times (R195). -/
def ltLimit : Nat := 2 ^ 40 - 2 ^ 32

/-- An effect after logical times were reset. -/
def Eff.pause : Eff → Eff
  | .lt _ => .lt 0
  | e => e

/-- A schedule after logical times were reset. -/
def Sched.pause (sc : Sched) : Sched :=
  { sc with pipe := sc.pipe.map (fun p => { p with effs := p.effs.map (fun l => l.map Eff.pause) }) }

/-- A hart after the pause (R195): every time is 0, and only lines of non-coherent regions stay cached. -/
def Hart.pause (h : Hart) : Hart :=
  { h with
    spr := { h.spr with lt := 0, storeTime := 0 },
    sched := h.sched.pause,
    ctl := { h.ctl with held := h.ctl.held.map Sched.pause },
    units := { h.units with eng := h.units.eng.map (fun o => { o with lt := 0, stamp := 0 }) },
    lsu := { h.lsu with
      maxStamp := 0,
      lease := (h.lsu.lease.filter (fun l => l.nc)).map (fun l => { l with wts := 0, rts := 0 }),
      hubReq := h.lsu.hubReq.map (fun r => { r with answer := r.answer.map (fun a => (a.1, 0)) }),
      mon := match h.lsu.mon with
        | .satisfied _ => .satisfied 0
        | m => m } }

/-- The package pauses and resets all logical times (R195). -/
def execLogicalTimePause : Sem := fun s =>
  if s.hub.base < ltLimit ∧ s.hub.stamp < ltLimit then .next s
  else
    let s := s.mapAll Hart.pause
    let lines := s.hub.lines.filterMap (fun (e : Nat × LineMeta) =>
      let m : LineMeta := { e.2 with
        wts := 0, rts := 0, tenure := e.2.tenure.map (fun t => { t with b := 0, last := none }) }
      if m = LineMeta.zero then none else some (e.1, m))
    .next { s with hub := { s.hub with
      base := 0, stamp := 0, lines := lines,
      versions := s.hub.versions.map (fun v => { v with wts := 0, rts := 0 }),
      watches := s.hub.watches.map (fun w => { w with hit := w.hit.map (fun _ => 0) }),
      invs := s.hub.invs.map (fun i => { i with lt := 0 }),
      arcLt := Vector.replicate 2 0,
      launches := s.hub.launches.map (fun l =>
        { l with groups := l.groups.map (fun g => { g with release := 0, running := 0 }) }) } }

end Sys2Proof.Machine
end

