-- ==== Sys2Proof/Machine/Flight.lean ====
section
/-! DEFINITION. The end of an MX operation's occupancy (R166, R167), arrivals at a group (R63, R64, R300,
R303), retirement (R55, R298, R283), the meeting of a flight (R54, R55, R296), and the parking and waking
of a gang (R66). -/

namespace Sys2Proof.Machine

/-! ### The MX unit -/

/-- The value of a unit that a finished operation streamed (R167): its contents at issue, or, where they
changed during the occupancy, freely the new ones. Bytes of an earlier `acc.st` that have not landed count as not
stored, which leaves old bytes to an operation issued before its end (R167, R169). (DESIGN CHOICE: log entries 14 and
22.) (DESIGN CHOICE: log entry 14.) -/
def State.streamed (j : MxJob) (fr : Nat) (s : State) (a : Nat) : BitVec 32 :=
  let now := s.me.vaultUnit s.me.iss.seq s.hub.mem a
  match j.units.find? (fun (e : Nat × BitVec 32) => e.1 = a) with
  | some e => if Config.freeBool ((fr + 1) * 2 ^ 64 + a) then now else e.2
  | none => now

/-- The effects of a finished job: the accumulator's elements, and the signal of the slot (R84). -/
def State.jobEffs (j : MxJob) (s : State) : List Eff :=
  let ws := j.result (fun r c => s.me.aKey j.ac r c) s.free (fun a => s.streamed j s.free a)
  .space false ws :: (match j.sig with
    | some (n, inc) => [.sem n inc]
    | none => [])

/-- The occupancy of the unit ends (R166): the result is known, the unit is free, and the latch is released
where the operation asked for it. -/
def execMxOccupancyEnd (h : HartId) : Sem := fun s =>
  .next (s.onHart h (fun s =>
    match s.me.sched.mx with
    | some o =>
      if o.left ≠ 0 then s
      else
        let s1 := match o.job with
          | some j =>
            let effs := s.jobEffs j
            { s with free := s.free + 1 }.modMe (Hart.deliver j.seq effs)
          | none => s
        s1.modMe (fun h =>
          { h with
            sched := { h.sched with mx := none, tails := h.sched.liveTails ++ [(o.seq, o.done)] },
            units := { h.units with latch := if o.release then none else h.units.latch } })
    | none => s))

/-! ### Groups -/

/-- Changes the launch of a number. -/
def State.setLaunch (id : Nat) (f : Launch → Launch) (s : State) : State :=
  { s with hub := { s.hub with launches := s.hub.launches.map (fun l => if l.id = id then f l else l) } }

/-- Changes a group of a launch. -/
def Launch.setGroup (n : Nat) (f : Group → Group) (l : Launch) : Launch :=
  { l with groups := l.groups.map (fun g => if g.n = n then f g else g) }

/-- The current phase completes (R63, R64, R299, R303): what the phase gathered becomes the result of the
completed one. -/
def Group.complete (g : Group) : Group :=
  { g with
    phase := (g.phase + 1) % 65536, total := Nat.min 65536 (g.total + 1), arrived := 0, expected := g.expected - g.leaving, leaving := 0,
    release := g.running, running := 0, last := g.accs, accs := accStart }

/-- The phase completes when the arrivals made equal the expected count (R63). -/
def Group.settle (g : Group) : Group := if g.arrived = g.expected then g.complete else g

/-- The hub counts an arrival with its store time and contribution (R63, R300, R303). -/
def Group.take (t : Nat) (c : Option Word) (g : Group) : Group :=
  { g with
    arrived := g.arrived + 1, running := Nat.max g.running t,
    accs := match c with
      | some v => accTake v g.accs
      | none => g.accs }.settle

/-- A member is gone before it arrived at the current phase (R64). (DEDUCED: log entry 59.) -/
def Group.lose (g : Group) : Group := { g with expected := g.expected - 1, lost := true }.settle

/-- A member is gone after it arrived at the current phase (R64). -/
def Group.depart (g : Group) : Group := { g with leaving := g.leaving + 1 }

/-- What a hart issued before a place in its order is stamped, and the waits of `fence.scope.pk` for it have
ended (R203, R300). -/
def Hub.doneBefore (hb : Hub) (n : Nat) (h : Hart) : Bool :=
  hb.fenceDone 4
    { h with
      iss := { h.iss with first := none },
      sched := { h.sched with pipe := h.sched.pipe.filter (fun p => p.seq < n) },
      lsu := { h.lsu with
        writes := h.lsu.writes.filter (fun w => w.seq < n),
        vstores := h.lsu.vstores.filter (fun v => v.seq < n) } }

/-- The number of a tread's launch. -/
def Hart.launchNo (h : Hart) : Nat :=
  match h.id with
  | .tread l _ _ => l
  | .core _ => 0

/-- The hub counts the next arrival of a hart at a group (R300). -/
def execGroupArrival (h : HartId) (group : Nat) : Sem := fun s =>
  .next (s.onHart h (fun s =>
    match s.me.units.arrivals.find? (fun a => a.group = group) with
    | some a =>
      if s.hub.doneBefore a.afterSeq s.me then
        let t := s.me.spr.storeTime
        let s := s.modMe (fun h =>
          { h with units := { h.units with arrivals := h.units.arrivals.erase a } })
        s.setLaunch s.me.launchNo (Launch.setGroup group (Group.take t a.contrib))
      else s
    | none => s))

/-- The groups of a hart, with its arrival phase at each. -/
def Hart.memberships (h : Hart) : List (Nat × Nat) :=
  ((List.finRange 4).filter (fun j => h.spr.grps.getLsbD (32 + j.val))).map (fun j =>
    (wbits (8 * j.val + 7) (8 * j.val) h.spr.grps, (h.units.arrPhase[j]).toNat))

/-- A hart leaves groups (R64): one that has arrived at the current phase counts for it. -/
def State.leaveGroups (h : Hart) (ms : List (Nat × Nat)) (s : State) : State :=
  ms.foldl (fun s (m : Nat × Nat) =>
    s.setLaunch h.launchNo (Launch.setGroup m.1 (fun g =>
      if m.2 = g.phase then g.lose else g.depart))) s

/-- The treads that have retired leave their groups (R64): at the end of the cycle, so that other treads see it in
their next one (R286). -/
def State.settleLeaves (s : State) : State :=
  if s.harts.all (fun h => h.units.leaves.isEmpty) then s
  else
    let t := s.harts.foldl (fun (t : State) h => t.leaveGroups h h.units.leaves) s
    t.mapHarts (fun h => { h with units := { h.units with leaves := [] } })

/-! ### Halting and retirement -/

/-- A halted core (R338): what it has issued runs on, and nothing else does. -/
def Hart.haltState (h : Hart) : Hart :=
  { h with
    ctl := { (Ctl.start .halted h.ctl.pc) with prev := h.ctl.prev }, sched := Sched.empty,
    lsu := { h.lsu with asks := [], want := none, fault := none, mon := .none, hubReq := none } }

/-- The core of a name halts (R338, R362). -/
def State.haltCore (core : Nat) (s : State) : State :=
  let s := s.mapHart (.core core) Hart.haltState
  { s with hub := { s.hub with watches := s.hub.watches.filter (fun w => w.who ≠ Waiter.hart (.core core)) } }

/-- What retirement discards (R298): results in flight, the unit's operation, semaphores, queue, status,
handler stack and mould; what it lets run on; and the operations that it ends. Dirty bytes of non-coherent
lines stay in the lease cache (R332). (DEDUCED: log entry 57.) -/
def Hart.retireState (h : Hart) : Hart :=
  let ended (o : EngOp) : EngOp := match o.stat with
    | .suspended .. => { o with stat := .failed, tags := [] }
    | _ => o
  { h with
    sched := Sched.empty,
    ctl := { Ctl.start .retired h.ctl.pc with prev := .retired },
    units := { Units.zero with
      semOut := h.units.semOut, eng := h.units.eng.map ended, arrivals := h.units.arrivals },
    lsu := { Lsu.zero with
      writes := h.lsu.writes, vstores := h.lsu.vstores, maxStamp := h.lsu.maxStamp,
      tlbinvs := h.lsu.tlbinvs, lease := h.lsu.lease.filter (fun l => !l.dirty.isEmpty) },
    latched := Latched.none }

/-- The ranks of the flight of a hart. -/
def State.flightOf (h : Hart) (s : State) : List Hart := s.harts.filter (fun x => x.sameFlight h)

/-- A finished workgroup leaves its treads (R283): the banks that it holds and that its work in flight
touches are draining. -/
def State.startDrain (ws : List Hart) (s : State) : State :=
  let busy := ws.flatMap (fun h => match s.focus h.id with
    | some s' => s'.busyBanks
    | none => [])
  let own := ws.flatMap (fun h => (List.range 32).map (bankKey h.place))
  let ks := own.filter (fun k => s.hub.bankHeld k && busy.contains k)
  { s with hub := { s.hub with banks := ks.foldl (fun m k => NMap.put 0 k 2 m) s.hub.banks } }

/-! ### Gangs -/

/-- The gang of a launch. -/
def Hub.gang (hb : Hub) (launch gang : Nat) : Option Gang :=
  (hb.launches.find? (fun l => l.id = launch)).bind (fun l => l.gangs.find? (fun g => g.idx = gang))

/-- Changes a gang of a launch. -/
def State.setGang (launch gang : Nat) (f : Gang → Gang) (s : State) : State :=
  s.setLaunch launch (fun l =>
    { l with gangs := l.gangs.map (fun g => if g.idx = gang then f g else g) })

/-- A tread belongs to a gang (R262). -/
def Launch.inGang (l : Launch) (gang : Nat) (h : Hart) : Bool :=
  match h.id with
  | .tread n w _ => n = l.id && w / l.gsize = gang
  | .core _ => false

/-- The treads of a gang on its flights. -/
def State.gangHarts (launch gang : Nat) (s : State) : List Hart :=
  match s.hub.launches.find? (fun l => l.id = launch) with
  | some l => s.harts.filter (fun h => l.inGang gang h)
  | none => []

/-- The workgroups of a gang (R262). -/
def Launch.gangCount (gang : Nat) (l : Launch) : Nat := Nat.min l.gsize (l.wgcnt - l.gsize * gang)

/-- The launch's lead gang (R276): the first that has not retired. -/
def Launch.lead (l : Launch) : Option Nat :=
  (l.gangs.find? (fun g => g.st ≠ .retired)).map (·.idx)

/-- A gang is held, or is held no longer (R280): what it had waited before counts on (R277). -/
def Gang.hold (on : Bool) (clk : Nat) (g : Gang) : Gang :=
  if g.held = on then g else { g with held := on, waitSince := clk - g.waitSince }

/-- The gang that became its launch's lead gang is held no longer (R280). -/
def Launch.freeLead (clk : Nat) (l : Launch) : Launch :=
  { l with gangs := l.gangs.map (fun g => if some g.idx = l.lead then g.hold false clk else g) }

/-- A gang all of whose treads have retired retires as a whole (R59). -/
def State.endGang (launch gang : Nat) (s : State) : State :=
  if (s.gangHarts launch gang).all (fun h => h.ctl.run = .retired) then
    (s.setGang launch gang (fun g => { g with st := .retired, held := false })).setLaunch launch
      (Launch.freeLead s.hub.clk)
  else s

/-- The gang of a tread. -/
def State.gangOf (h : Hart) (s : State) : Nat :=
  match h.id, s.launchOf h with
  | .tread _ w _, some l => w / l.gsize
  | _, _ => 0

/-- The acting tread ends (R55, R64, R283, R298); its groups lose it at the end of the cycle (R286). -/
def State.retireMe (s : State) : State :=
  let old := s.me
  let s := s.modMe Hart.retireState
  let me := s.me
  let s := s.modMe (fun h => { h with units := { h.units with leaves := old.memberships } })
  let s := { s with hub := { s.hub with
    watches := s.hub.watches.filter (fun w => w.who ≠ Waiter.hart me.id) } }
  let ws := s.flightOf me
  let s := if ws.all (fun h => h.ctl.run = .retired) then s.startDrain ws else s
  (s.endGang me.launchNo (s.gangOf me)).settleBanks

/-! ### Meeting -/

/-- A rank is not awaited at `MEET` (R54, R55, R296, R378). (DEDUCED: log entry 39.) -/
def Hart.metOrGone (h : Hart) : Bool :=
  match h.ctl.run with
  | .atMeet | .retired => true
  | .orphan => h.level = 0 && h.ctl.pc.toNat = h.spr.meet.toNat % 2 ^ 57
  | _ => false

/-- The hart after its flight has met (R296): attached, at the meeting bundle. -/
def Hart.rejoin (lead rise : Nat) (h : Hart) : Hart :=
  if h.ctl.run = .retired then h
  else
    { h with
      ctl := { h.ctl with
        run := .attached, prev := .attached, pc := h.spr.meet.truncate 57, fifo := [], posted := false,
        dec := none,
        origin := none, stall := none, bar := none,
        resume := if h.rank = lead then some (1 + lead * rise) else none } }

/-- The last awaited rank of a flight has arrived or retired, and the flight resumes in broadcast at `MEET`
(R54, R55, R296). -/
def execFlightResumeAtMeet (launch wgi : Nat) : Sem := fun s =>
  let mine (h : Hart) : Bool := match h.id with
    | .tread l w _ => l = launch && w = wgi
    | .core _ => false
  let ranks := s.harts.filter mine
  let live := ranks.filter (fun h => h.ctl.run ≠ .retired)
  if live.isEmpty ∨ !ranks.all Hart.metOrGone then .next s
  else
    let lead := live.foldl (fun m h => Nat.min m h.rank) 31
    let rise := ((live.head?).map (fun h => h.spr.rise.toNat % 16)).getD 0
    .next (s.mapWhere mine (Hart.rejoin lead rise))

/-! ### Parking -/

/-- A parking wait of a hart has lasted as long as its threshold (R66, R76). -/
def Hart.parkDue (clk : Nat) (h : Hart) : Bool :=
  match h.ctl.stall with
  | some t => t.parks && decide (t.since + t.limit ≤ clk)
  | none => false

/-- A gang stops, and its save begins (R59, R385). -/
def State.startSave (launch gang : Nat) (why : Why) (s : State) : State :=
  s.setGang launch gang (fun g =>
    { g with st := .saving why, waitSince := g.since, since := s.hub.clk, yields := none })

/-- A gang parks (R66): it stops, and its save waits for what it has on its way (R385). -/
def execGangPark (launch gang : Nat) : Sem := fun s =>
  match s.hub.gang launch gang with
  | some g =>
    if g.st = GangSt.placed ∧ (s.gangHarts launch gang).any (Hart.parkDue s.hub.clk) then
      .next (s.startSave launch gang .park)
    else .next s
  | none => .next s

/-- The waking condition of a parked tread is met (R66): a phase it waits for is complete, or its `mon.wait`
is satisfied or failed, or its hypothesis was lost (R236). -/
def Launch.wakes (l : Launch) (h : Hart) : Bool :=
  (match h.ctl.stall with
    | some t => t.waits.any (fun (w : Nat × Nat) => match l.groups.find? (fun g => g.n = w.1) with
        | some g => g.done w.2
        | none => false)
    | none => false)
  || (match h.lsu.mon with
    | .satisfied _ | .failed .. => true
    | _ => false)
  || h.latched.hypLost.isSome

/-- A parked gang becomes runnable (R66): its waiting begins, and it ages (R277). -/
def execParkedGangWake (launch gang : Nat) : Sem := fun s =>
  match s.hub.launches.find? (fun l => l.id = launch), s.hub.gang launch gang with
  | some l, some g =>
    if g.st = .parked ∧ !g.held ∧ g.ctx.any (fun h => l.wakes h) then
      .next (s.setGang launch gang (fun g => { g with st := .saved, waitSince := s.hub.clk, aged := 0 }))
    else .next s
  | _, _ => .next s

end Sys2Proof.Machine
end

