-- ==== Sys2Proof/Machine/Queues.lean ====
section
/-! DEFINITION. Queues and packets (R256 to R272, R432), the fat object (R414 to R420), the group table
(R61, R62), and the commands of `QCTL` (R258). -/

namespace Sys2Proof.Machine

/-! ### The flights of a partition -/

/-- The chiplets that a partition holds (R273, R360). -/
def Hub.partChips (hb : Hub) (part : Nat) : List Nat :=
  (List.range 12).filter (fun c =>
    hb.chipState c = 2 && (if g : c < 15 then wbits 7 4 (hb.mon.chst[c]'g) = part else false))

/-- The profile of a Press or Vat chiplet (R25). -/
def chipProf (c : Nat) : Nat := if c < 8 then 1 else 2

/-- The flights of a chiplet. -/
def flightCount (c : Nat) : Nat := if c < 8 then 3 else 16

/-- The most workgroups of a gang on a profile (R45, R263). -/
def gangMax (prof : Nat) : Nat := if prof = 1 then 3 else 8

/-- The `n` flights from `f` on of a chiplet are wide enough for a workgroup (R27, R274). -/
def Hub.wide (hb : Hub) (c f n width : Nat) : Bool :=
  f + n ≤ flightCount c && (List.range n).all (fun k => width ≤ (hb.chain c (f + k)).length)

/-- Some flights that a partition holds could hold a gang of `n` workgroups (R271 code 4, R274).
(DEDUCED: log entry 73.) -/
def Hub.couldHold (hb : Hub) (part g n width : Nat) (profs : List Nat) : Bool :=
  (hb.partChips part).any (fun c =>
    profs.contains (chipProf c) && decide (g ≤ gangMax (chipProf c))
      && (List.range (flightCount c)).any (fun f => hb.wide c f n width))

/-! ### The fat object -/

/-- A field of a number is 0 in every range of a list. -/
def clear (rs : List (Nat × Nat)) (x : Nat) : Bool := rs.all (fun r => bitsOf r.1 r.2 x = 0)

/-- The number that `n` bytes of the object hold; `none` where they cannot be read. -/
def Hub.objNum (hb : Hub) (fr part obj off n : Nat) : Option Nat :=
  (hb.readVa fr part ((obj + off) % 2 ^ 57) n).map leBytes

/-- A scratchpad record, or `none` where it is not valid (R420). -/
def planRecord (bank codelen r : Nat) : Option (Nat × Bool × Nat × Nat) :=
  let off := bitsOf 25 8 r
  let len := bitsOf 50 32 r
  let st := bitsOf 95 64 r
  let en := bitsOf 127 96 r
  let all := bitsOf 51 51 r = 1
  if clear [(63, 52), (31, 26), (7, 5)] r ∧ 1 ≤ len ∧ off + len ≤ bank ∧ st ≤ en ∧ en ≤ codelen
    ∧ (!all ∨ (st = 0 ∧ en = 0)) then some (bitsOf 4 0 r, decide all, st, en)
  else none

/-- The valid scratchpad plan in a section (R420). -/
def planOf (bank codelen hdr : Nat) (recs : List Nat) : Option (List (Nat × Bool × Nat × Nat)) :=
  let rs := recs.map (planRecord bank codelen)
  if bitsOf 127 32 hdr = 0 ∧ rs.all Option.isSome then some (rs.filterMap id) else none

/-- What the hub makes of a part of the object: it cannot be read (R271 code 5), is not provided (code 2),
or is there. -/
inductive ObjRes (α : Type) where
  | unread
  | absent
  | ok (v : α)
  deriving Repr

/-- A binary by the offset of its kernel header (R416, R417, R419, R420). -/
def Hub.binary (hb : Hub) (fr part obj olen prof hoff : Nat) (kid : Word) : ObjRes KHead :=
  match hb.objNum fr part obj hoff 64 with
  | none => .unread
  | some h =>
    let f (a b : Nat) : Nat := bitsOf a b h
    let codeoff := f 95 64
    let codelen := f 127 96
    let sp := f 191 160
    let sc := f 223 192
    let fits (x : Nat) : Bool := x = 0 || decide (x + 16 ≤ olen)
    if !clear [(511, 320), (287, 272), (63, 59), (55, 55), (47, 46), (39, 39), (31, 26), (15, 12), (7, 5)] h
      ∨ 4 < f 58 56 ∨ 8 < f 51 48 ∨ 64 < f 38 32 ∨ codelen < 5 ∨ 2 ^ 24 < codelen ∨ codeoff % 64 ≠ 0
      ∨ f 3 0 ≠ prof ∨ olen < codeoff + codelen ∨ codelen ≤ f 159 128
      ∨ (f 271 256 = 0 ∧ f 255 224 ≠ 0) ∨ !fits sp ∨ !fits sc then .absent
    else
      let mask : Option Nat := if sp = 0 then some 0
        else (hb.objNum fr part obj sp 16).map (fun x => if x / 2 ^ 16 = 0 then x else 0)
      let plan : ObjRes (Option (List (Nat × Bool × Nat × Nat))) :=
        if sc = 0 then .ok none
        else match hb.objNum fr part obj sc 16 with
          | none => .unread
          | some hd =>
            let n := hd % 2 ^ 32
            if olen < sc + 16 + 16 * n then .absent
            else
              let rs := (List.range n).map (fun k => hb.objNum fr part obj (sc + 16 + 16 * k) 16)
              if rs.all Option.isSome then
                .ok (planOf (if prof = 1 then 262144 else 131072) codelen hd (rs.filterMap id))
              else .unread
      match mask, plan with
      | none, _ => .unread
      | _, .unread => .unread
      | _, .absent => .absent
      | some m, .ok p => .ok
        { prof := prof, xmode := f 4 4 = 1, rise := f 11 8, vbase := f 25 16, vcnt := f 38 32,
          tbase := f 45 40, tcnt := f 51 48, abase := f 54 52, acnt := f 58 56,
          code := (obj + codeoff) % 2 ^ 57, codelen := codelen, entry := f 159 128, mask := m, kid := kid,
          plan := p }

/-- The profile table of a kernel: profile and offset of the header; `none` where it fails its limits
(R415, R417). -/
def profTable (es : List Nat) : Option (List (Nat × Nat)) :=
  let ok (e : Nat) : Bool := clear [(127, 64), (31, 4)] e && 1 ≤ e % 16 && e % 16 ≤ 3
    && bitsOf 63 32 e % 64 = 0
  let ps := es.map (fun e => e % 16)
  if es.all ok ∧ ps.eraseDups.length = ps.length then
    some (es.map (fun e => (e % 16, bitsOf 63 32 e)))
  else none

/-- Every binary that an object provides for a kernel, with the profile numbers (R414 to R417). -/
def Hub.objectBinaries (hb : Hub) (fr part obj kidx : Nat) : ObjRes (List KHead) :=
  match hb.objNum fr part obj 0 64 with
  | none => .unread
  | some h =>
    let olen := bitsOf 127 96 h
    let kt := bitsOf 95 64 h
    let nk := bitsOf 63 48 h
    if bitsOf 31 0 h ≠ 0x4a424f56 ∨ bitsOf 47 32 h ≠ 1 ∨ h / 2 ^ 128 ≠ 0 ∨ nk = 0
      ∨ olen < kt + 16 * nk ∨ nk ≤ kidx then .absent
    else match hb.objNum fr part obj (kt + 16 * kidx) 16 with
      | none => .unread
      | some k =>
        let np := bitsOf 35 32 k
        let pt := bitsOf 31 0 k
        if bitsOf 63 36 k ≠ 0 ∨ np = 0 ∨ 3 < np ∨ pt % 16 ≠ 0 ∨ olen < pt + 16 * np then .absent
        else
          let es := (List.range np).map (fun i => hb.objNum fr part obj (pt + 16 * i) 16)
          if !es.all Option.isSome then .unread
          else match profTable (es.filterMap id) with
            | none => .absent
            | some t =>
              let kid := BitVec.ofNat 64 (bitsOf 127 64 k)
              t.foldr (fun e r => match hb.binary fr part obj olen e.1 e.2 kid, r with
                | .unread, _ => .unread
                | _, .unread => .unread
                | .ok b, .ok l => .ok (b :: l)
                | .absent, r => r
                | .ok b, .absent => .ok [b]) (.ok [])

/-! ### The group table -/

/-- The workgroups that a member specification names are all below a bound. -/
def Members.inside (wgcnt : Nat) : Members → Bool
  | .strided first count stride _ => decide (first + (count - 1) * stride < wgcnt)
  | .listed ws => ws.all (fun (w : Nat × Nat) => w.1 < wgcnt)

/-- A tread is a member (R61). -/
def Members.has (width wg rank : Nat) (m : Members) : Bool :=
  rank < width && (match m with
    | .strided first count stride mask =>
      first ≤ wg && mask.testBit rank
        && (if stride = 0 then wg = first && 0 < count
          else (wg - first) % stride = 0 && decide ((wg - first) / stride < count))
    | .listed ws => ws.any (fun (w : Nat × Nat) => w.1 = wg && w.2.testBit rank))

/-- The number of member treads (R62). -/
def Members.count (width : Nat) (m : Members) : Nat :=
  match m with
  | .strided _ count _ mask => count * popCount (BitVec.ofNat 64 (mask % 2 ^ width))
  | .listed ws =>
    (((ws.map (·.1)).eraseDups).map (fun w =>
      ((List.range width).filter (fun r => m.has width w r)).length)).sum

/-- A valid entry of the group table (R61, R62): `none` where it is refused. -/
def Hub.groupEntry (hb : Hub) (fr part wgcnt width x : Nat) : Option Members :=
  let m : Option Members :=
    if bitsOf 192 192 x = 0 then
      let count := bitsOf 95 64 x
      if count = 0 ∨ (1 < count ∧ bitsOf 63 48 x = 0) then none
      else some (.strided (bitsOf 127 96 x) count (bitsOf 63 48 x) (bitsOf 47 32 x))
    else
      let n := bitsOf 95 64 x
      let l := bitsOf 191 128 x
      if n = 0 ∨ 65536 < n ∨ l % 8 ≠ 0 then none
      else
        let ws := (List.range n).map (fun k => hb.readVa fr part ((l + 8 * k) % 2 ^ 57) 8)
        if ws.all Option.isSome then
          some (.listed ((ws.filterMap id).map (fun b =>
            (bitsOf 47 16 (leBytes b), bitsOf 15 0 (leBytes b)))))
        else none
  match m with
  | none => none
  | some m => if m.inside wgcnt ∧ m.count width ≠ 0 then some m else none

/-- No tread is a member of more than four groups (R62). -/
def fourAtMost (wgcnt width : Nat) (ms : List (Nat × Members)) : Bool :=
  ms.length ≤ 4 || (List.range wgcnt).all (fun w => (List.range width).all (fun r =>
    decide (ms.countP (fun m => m.2.has width w r) ≤ 4)))

/-- The groups of a launch: the code of R271, or the entries with their members (R61, R62). -/
def Hub.groupTable (hb : Hub) (fr part gtab wgcnt width : Nat) : Except Nat (List (Nat × Members)) :=
  if gtab = 0 then .ok []
  else
    let es := (List.range 256).map (fun k => (hb.readVa fr part ((gtab + 32 * k) % 2 ^ 57) 32).map leBytes)
    if !es.all Option.isSome then .error 5
    else
      let vs := ((es.filterMap id).mapIdx (fun k x => (k, x))).filter (fun (e : Nat × Nat) => e.2 % 2 = 1)
      let ms := vs.map (fun e => (hb.groupEntry fr part wgcnt width e.2).map (fun m => (e.1, m)))
      if !ms.all Option.isSome then .error 3
      else
        let ms := ms.filterMap id
        if fourAtMost wgcnt width ms then .ok ms else .error 3

/-- A group at launch (R63, R299). -/
def Group.start (n expected : Nat) : Group :=
  { n := n, phase := 0, total := 0, arrived := 0, expected := expected, leaving := 0, lost := false, release := 0,
    running := 0, accs := accStart, last := accStart }

/-- `GRPS` of a tread (R76). -/
def grpsWord (width wg rank : Nat) (ms : List (Nat × Members)) : Word :=
  let ns := ((ms.filter (fun m => m.2.has width wg rank)).map (·.1)).take 4
  BitVec.ofNat 64 ((ns.mapIdx (fun j n => n * 2 ^ (8 * j) + 2 ^ (32 + j))).sum)

/-! ### Queues -/

/-- A queue that the hub has activated. -/
def Hub.queue (hb : Hub) (part q : Nat) : Option Queue :=
  hb.queues.find? (fun x => x.part = part && x.q = q)

/-- Changes a queue. -/
def State.setQueue (part q : Nat) (f : Queue → Queue) (s : State) : State :=
  { s with hub := { s.hub with queues := s.hub.queues.map (fun x =>
    if x.part = part ∧ x.q = q then f x else x) } }

/-- Writes bytes of a queue's descriptor; what cannot be written is lost (R257). -/
def State.setDesc (part q off : Nat) (bs : List Byte) (s : State) : State :=
  match s.hub.queue part q with
  | some x => (s.hubWriteVa part ((x.va + off) % 2 ^ 57) bs).getD s
  | none => s

/-- A packet of the ring. -/
def Hub.packet (hb : Hub) (fr : Nat) (x : Queue) (i : Nat) : Option Nat :=
  (hb.readVa fr x.part ((x.base + 64 * (i % 2 ^ x.log2n)) % 2 ^ 57) 64).map leBytes

/-- The completion signal of a packet (R261, R266). -/
def csigOf (p : Nat) : Nat :=
  if p % 256 = 1 then bitsOf 383 320 p else if p % 256 = 2 then bitsOf 447 384 p else 0

/-- The signed minimum of −1 on a completion signal (R272): skipped where it cannot be made.
(DEDUCED: log entry 69.) -/
def State.csigMin (part csig : Nat) (s : State) : State :=
  if csig = 0 ∨ csig % 8 ≠ 0 then s
  else (s.hubAtomic part (csig % 2 ^ 57) (fun w =>
    if w.slt (BitVec.allOnes 64) then w else BitVec.allOnes 64)).getD s

/-- The addition of −1 to a completion signal (R265): whether it was made, and the state. -/
def State.csigAdd (part csig : Nat) (s : State) : Bool × State :=
  if csig = 0 then (true, s)
  else match s.hubAtomic part (csig % 2 ^ 57) (fun w => w - 1) with
    | some s => (true, s)
    | none => (false, s)

/-- `RIDX` moves (R269). (DEDUCED: log entry 67.) -/
def State.setRidx (part q i : Nat) (s : State) : State :=
  (s.setQueue part q (fun x => { x with ridx := i % 2 ^ 64 })).setDesc part q 48 (toBytes 8 (i % 2 ^ 64))

/-- Frees the watch entries of a queue. -/
def State.freeWatches (part q : Nat) (s : State) : State :=
  { s with hub := { s.hub with watches := s.hub.watches.filter (fun w => w.who ≠ Waiter.queue part q) } }

/-- A waiting barrier packet is given up (R258, R272). -/
def State.dropBarrier (part q : Nat) (s : State) : State :=
  (s.freeWatches part q).setQueue part q (fun x => 
    { x.took .poke with barrier := none, reread := none, deps := [] })

/-- The queue enters the aborted state (R272 step 2), which raises QABORT (R339); one already aborted keeps its
first values. -/
def State.markAborted (part q err epkt : Nat) (s : State) : State :=
  match s.hub.queue part q with
  | some x =>
    if x.state = 2 then s
    else
      let s := State.raiseBy (s.hub.part part).nevc 2 (s.setQueue part q (fun x => { x with state := 2 }))
      ((s.setDesc part q 8 (toBytes 1 err)).setDesc part q 40 (toBytes 8 (epkt % 2 ^ 64))).setDesc part q 0
        (toBytes 1 2)
  | none => s

/-- Every workgroup of a launch has started. -/
def Launch.allStarted (l : Launch) : Bool := l.gangs.all (fun g => g.st ≠ .unstarted)

/-- A workgroup of a launch has started. -/
def Launch.begun (l : Launch) : Bool := l.gangs.any (fun g => g.st ≠ .unstarted)

/-- A dispatch packet of the queue has started some of its workgroups, but not all (R258). -/
def Hub.starting (hb : Hub) (part q : Nat) : Bool :=
  hb.launches.any (fun l => l.part = part && l.queue = q && l.begun && !l.allStarted)

/-- A launch no longer pins residual entries; one flushed meanwhile goes (R321, R323). -/
def Hub.unpin (launch : Nat) (hb : Hub) : Hub :=
  let qs := hb.quires.map (fun e => { e with pins := e.pins.filter (fun i => i ≠ launch) })
  { hb with quires := qs.filter (fun e => !(e.stale && e.pins.isEmpty)) }

/-- The dispatch packet of a queue that has started no workgroup yet is put back (R258, R272). -/
def State.unstart (part q : Nat) (s : State) : State :=
  let gone := s.hub.launches.filter (fun l => l.part = part && l.queue = q && !l.begun)
  let hb := gone.foldl (fun hb l => Hub.unpin l.id hb) s.hub
  { s with hub := { hb with
    launches := hb.launches.filter (fun l => !(l.part = part && l.queue = q && !l.begun)) } }

/-- A dispatch packet of the queue has not started every workgroup (R269). -/
def Hub.dispatching (hb : Hub) (part q : Nat) : Bool :=
  hb.launches.any (fun l => l.part = part && l.queue = q && !l.allStarted)

/-- Aborts the packets from `RIDX` on, one by one (R272 step 3). -/
def State.abortFrom (part q : Nat) : Nat → State → State
  | 0, s => s
  | n + 1, s =>
    match s.hub.queue part q with
    | some x =>
      if x.ridx = x.widx then s
      else
        let s := match s.hub.packet s.free x x.ridx with
          | some p => s.csigMin part (csigOf p)
          | none => s
        State.abortFrom part q n (s.setRidx part q (x.ridx + 1))
    | none => s

/-- R272 step 3, unless a dispatch packet has started some workgroups and not all, or the ring is overrun. -/
def State.abortRest (part q : Nat) (s : State) : State :=
  match s.hub.queue part q with
  | some x =>
    let n := (x.widx + 2 ^ 64 - x.ridx) % 2 ^ 64
    if s.hub.starting part q ∨ 2 ^ x.log2n < n then s
    else ((s.unstart part q).dropBarrier part q).abortFrom part q n
  | none => s

/-- The packet at `RIDX` is aborted (R272); `none` is a packet that could not be read. -/
def State.abortPacket (part q err : Nat) (p : Option Nat) (s : State) : State :=
  match s.hub.queue part q with
  | some x =>
    let s := s.csigMin part ((p.map csigOf).getD 0)
    let s := (s.dropBarrier part q).markAborted part q err x.ridx
    (s.setRidx part q (x.ridx + 1)).abortRest part q
  | none => s

/-! ### Checks of a packet (R260, R261, R266, R268, R271) -/

/-- The addresses of a packet with their alignments. -/
def packetAddrs (p : Nat) : List (Nat × Nat) :=
  if p % 256 = 1 then
    [(bitsOf 191 128 p, 64), (bitsOf 255 192 p, 8), (bitsOf 319 256 p, 32), (bitsOf 383 320 p, 8)]
  else if p % 256 = 2 then
    (List.range 6).map (fun k => (bitsOf (64 * k + 127) (64 * k + 64) p, 8))
  else [(bitsOf 127 64 p, 8)]

/-- Code 1 of R271. -/
def packetIllegal (p : Nat) : Bool :=
  let rel := bitsOf 11 9 p
  let ty := p % 256
  (packetAddrs p).any (fun a => a.1 % a.2 ≠ 0) ||
    (if ty = 1 then
      !clear [(511, 384), (127, 112), (95, 64), (31, 29), (23, 21), (15, 13)] p
        || rel < 3 || 5 < rel || bitsOf 20 16 p = 0 || 16 < bitsOf 20 16 p || bitsOf 63 32 p = 0
    else if ty = 2 then !clear [(511, 448), (63, 16), (15, 12), (11, 9)] p
    else if ty = 3 then
      !clear [(511, 192), (63, 16), (15, 13), (11, 9)] p || bitsOf 127 64 p = 0
    else true)

/-- An address of a packet lies in the vault window (R261, R266, R268). (DEDUCED: log entry 68.) -/
def packetWindow (p : Nat) : Bool := (packetAddrs p).any (fun a => a.1 ≠ 0 && inVault (a.1 % 2 ^ 57))

/-! ### Dispatch packets -/

/-- A gang that has not been started. -/
def Gang.fresh (idx clk : Nat) (held : Bool) : Gang :=
  { idx := idx, st := .unstarted, chip := 0, flight := 0, since := clk, waitSince := if held then 0 else clk, aged := 0,
    held := held, prof := 0, ctx := [], banks := [], free := [], size := 0, spilled := false,
    logged := false, noRoom := false, yields := none }

/-- The launch of a dispatch packet, or the first failing check of R271 in the order of its table
(R261 to R264). -/
def Hub.launchOf (hb : Hub) (fr : Nat) (x : Queue) (p : Nat) : Except Nat Launch :=
  let part := x.part
  let wgcnt := bitsOf 63 32 p
  let width := bitsOf 20 16 p
  let g := bitsOf 26 24 p + 1
  let allowed (prof : Nat) : Bool := (prof = 1 && p.testBit 27) || (prof = 2 && p.testBit 28)
  let have_ := (hb.partChips part).map chipProf
  let obj := hb.objectBinaries fr part (bitsOf 191 128 p % 2 ^ 57) (bitsOf 111 96 p)
  let bins : List KHead := match obj with
    | .ok l => l.filter (fun b => allowed b.prof && have_.contains b.prof)
    | _ => []
  let e2 := match obj with
    | .unread => 5
    | .absent => 2
    | .ok _ => if bins.isEmpty then 2 else 0
  let groups := hb.groupTable fr part (bitsOf 319 256 p % 2 ^ 57) wgcnt width
  let e3 := match groups with
    | .error e => e
    | .ok _ => 0
  let e4 := if !bins.isEmpty ∧ !hb.couldHold part g (Nat.min g wgcnt) width (bins.map (·.prof)) then 4 else 0
  let args := hb.readVa fr part (bitsOf 255 192 p % 2 ^ 57) 128
  let e5 := if args.isNone ∨ packetWindow p then 5 else 0
  let errs := ([e2, e3, e4, e5]).filter (fun e => e ≠ 0)
  match errs.min?, groups, args with
  | none, .ok ms, some bs => .ok
    { id := hb.launched + 1, part := part, queue := x.q, index := x.ridx, slot := x.ridx % 2 ^ x.log2n,
      pri := x.pri, wgcnt := wgcnt, width := width, gsize := g, rel := bitsOf 11 9 p,
      spec := p.testBit 12, csig := bitsOf 383 320 p % 2 ^ 57,
      args := (List.range 16).map (fun n => BitVec.ofNat 64 (leBytes ((bs.drop (8 * n)).take 8))),
      kernels := bins, groups := ms.map (fun m => Group.start m.1 (m.2.count width)), members := ms,
      gangs := [Gang.fresh 0 hb.clk false], decisions := [], holds := [], served := 0, killed := false }
  | e, _, _ => .error (e.getD 5)

/-- The key of a ring slot of a queue. -/
def slotKey (part q slot : Nat) : Nat := (part * 4096 + q) * 65536 + slot

/-- Processes a dispatch packet, or one of an illegal type (R261, R271). -/
def State.dispatch (x : Queue) (p : Nat) (s : State) : State :=
  if packetIllegal p then s.abortPacket x.part x.q 1 (some p)
  else
    let r := s.hub.launchOf s.free x p
    let s := s.hubSaw x.part (bitsOf 255 192 p % 2 ^ 57) 128
    let s := if bitsOf 319 256 p = 0 then s else s.hubSaw x.part (bitsOf 319 256 p % 2 ^ 57) 8192
    let s := { s with free := s.free + 1 }
    match r with
    | .error e => s.abortPacket x.part x.q e (some p)
    | .ok l => { s with hub := { s.hub with
        launched := s.hub.launched + 1, launches := s.hub.launches ++ [l],
        slots := NMap.put 0 (slotKey l.part l.queue l.slot) l.id s.hub.slots } }

/-! ### Barrier packets (R266, R267) -/

/-- The watch entry of a dependency signal (R267). -/
def barrierWatch (part q va pa : Nat) (v : Word) : Watch :=
  { who := .queue part q, part := part, va := va, pa := pa, d64 := true, mask := BitVec.allOnes 64,
    val := v, cmp := .ne, node := 0, hit := none }

/-- Keeps the entries of a queue that are still armed for signals that are not zero, against the values read now, and
frees its others (R329). -/
def Hub.keepWatches (part q : Nat) (vs : List (Nat × Word)) (hb : Hub) : Hub :=
  { hb with watches := hb.watches.filterMap (fun w =>
    if w.who ≠ Waiter.queue part q then some w
    else match vs.find? (fun v => v.1 = w.va) with
      | some v => if w.hit.isNone ∧ v.2 ≠ 0 then some { w with val := v.2 } else none
      | none => none) }

/-- Arms the entry of one signal that has none, or has it read again 4,096 ticks later (R267, R329). -/
def State.armDep (part q va : Nat) (v : Word) (s : State) : State :=
  if s.hub.watches.any (fun w => w.who = Waiter.queue part q ∧ w.va = va) then s
  else match s.hub.hubAddrs s.free part .load (va % 2 ^ 57) 8 with
  | some (pa :: _) =>
    if (s.hub.loc pa).here ∧ s.hub.watchFree part then
      { s with hub := { s.hub with watches := s.hub.watches ++ [barrierWatch part q va pa v] } }
    else s.setQueue part q (fun x => { x with reread := some (s.hub.clk + 4096) })
  | _ => s

/-- Evaluates a waiting barrier packet: every listed signal is read at one logical time (R267, R329).
(DEDUCED: log entry 70.) -/
def State.evalBarrier (part q : Nat) (s : State) : State :=
  match s.hub.queue part q with
  | some x =>
    (match x.barrier with
      | some (deps, csig) =>
        let pas := deps.flatMap (fun d =>
          ((s.hub.hubAddrs s.free part .load (d % 2 ^ 57) 8).getD []).take 1)
        let s := s.setQueue part q (fun x => { x.took .poke with reread := none, deps := pas })
        let value (d : Nat) : Option Word :=
          (s.hub.readVa s.free part (d % 2 ^ 57) 8).map (fun b => BitVec.ofNat 64 (leBytes b))
        let vs := deps.map (fun d => (d, value d))
        let s := deps.foldl (fun s d => s.hubSaw part (d % 2 ^ 57) 8) s
        let s := { s with free := s.free + 1 }
        let abort (e : Nat) : State :=
          ((s.csigMin part csig).abortPacket part q e none)
        if vs.any (fun v => v.2.isNone) then abort 5
        else if vs.any (fun v => (v.2.getD 0).getLsbD 63) then abort 6
        else if vs.all (fun v => v.2.getD 0 = 0) then
          let (ok, s) := s.csigAdd part csig
          let s := (s.dropBarrier part q).setRidx part q (x.ridx + 1)
          if ok then s else (s.markAborted part q 5 x.ridx).abortRest part q
        else
          let vs := vs.map (fun v => (v.1, v.2.getD 0))
          vs.foldl (fun s v => if v.2 = 0 then s else s.armDep part q v.1 v.2)
            { s with hub := s.hub.keepWatches part q vs }
      | none => s)
  | none => s

/-- Processes a barrier packet (R266, R267). -/
def State.barrier (x : Queue) (p : Nat) (s : State) : State :=
  if packetIllegal p then s.abortPacket x.part x.q 1 (some p)
  else if packetWindow p then s.abortPacket x.part x.q 5 (some p)
  else
    let deps := ((List.range 5).map (fun k => bitsOf (64 * k + 127) (64 * k + 64) p)).filter (fun d => d ≠ 0)
    let s := s.setQueue x.part x.q (fun y => { y with barrier := some (deps, csigOf p) })
    s.evalBarrier x.part x.q

/-! ### Signal packets (R268) -/

/-- Processes a signal packet (R268). -/
def State.signalPacket (x : Queue) (p : Nat) (s : State) : State :=
  if packetIllegal p then s.abortPacket x.part x.q 1 (some p)
  else if packetWindow p then s.abortPacket x.part x.q 5 (some p)
  else
    let v := BitVec.ofNat 64 (bitsOf 191 128 p)
    let f (w : Word) : Word := if p.testBit 12 then w - v else v
    match s.hubAtomic x.part (bitsOf 127 64 p % 2 ^ 57) f with
    | some s => s.setRidx x.part x.q (x.ridx + 1)
    | none => s.abortPacket x.part x.q 5 (some p)

/-! ### Processing (R259, R269, R270) -/

/-- A `QCTL` disable of the queue is being carried out (R258). -/
def Hub.disabling (hb : Hub) (part q : Nat) : Bool :=
  let r := (hb.part part).qctl
  wbits 63 62 r = 1 && wbits 15 14 r = 1 && wbits 11 0 r = q

/-- The next packet of a queue may be processed now (R269): nothing stands before it, and one with BAR
waits for every earlier packet. -/
def Hub.nextPacket (hb : Hub) (fr part q : Nat) : Option (Queue × Option Nat) :=
  match hb.queue part q with
  | some x =>
    if x.state ≠ 1 ∨ x.barrier.isSome ∨ x.ridx = x.widx ∨ hb.dispatching part q ∨ hb.disabling part q then none
    else
      let p := hb.packet fr x x.ridx
      let bar := (p.map (fun n => n.testBit 8)).getD false
      if bar ∧ hb.launches.any (fun l => l.part = part && l.queue = q) then none else some (x, p)
  | none => none

/-- Processes the next packet if its type is one of a list; one that cannot be read is aborted (R271). -/
def processIf (part q : Nat) (ty : Nat → Bool) (f : Queue → Nat → State → State) : Sem := fun s =>
  match s.hub.nextPacket s.free part q with
  | some (x, some p) =>
    let s := s.hubSaw part ((x.base + 64 * (x.ridx % 2 ^ x.log2n)) % 2 ^ 57) 64
    .next (if ty (p % 256) then f x p { s with free := s.free + 1 } else s)
  | some (_, none) => .next ({ s with free := s.free + 1 }.abortPacket part q 5 none)
  | none => .next s

/-- The hub processes a dispatch packet (R261, R264, R271). -/
def execDispatchPacket (part q : Nat) : Sem := processIf part q (fun t => t ≠ 2 && t ≠ 3) State.dispatch
/-- The hub processes a barrier packet (R266). -/
def execBarrierPacket (part q : Nat) : Sem := processIf part q (fun t => t = 2) State.barrier
/-- The hub processes a signal packet (R268). -/
def execSignalPacket (part q : Nat) : Sem := processIf part q (fun t => t = 3) State.signalPacket

/-- A committed write to the line of a queue's WIDX (R259): the hub reads WIDX and checks it first (R271
codes 5 and 7); in an aborted queue it aborts what has become available (R272). -/
def execDoorbell (part q : Nat) : Sem := fun s =>
  match s.hub.queue part q with
  | none => .next s
  | some x =>
    if !x.pend.contains .bell then .next s
    else
      let s := { s with free := s.free + 1 }.setQueue part q (Queue.took .bell)
      if x.state = 0 then .next s
      else
        let bad (e : Nat) : State := if x.state = 1 then s.markAborted part q e x.ridx else s
        match s.hub.readVa s.free part ((x.va + 56) % 2 ^ 57) 8 with
        | none => .next (bad 5)
        | some bs =>
          let s := s.hubSaw part ((x.va + 56) % 2 ^ 57) 8
          let bad (e : Nat) : State := if x.state = 1 then s.markAborted part q e x.ridx else s
          let w := leBytes bs
          if 2 ^ x.log2n < (w + 2 ^ 64 - x.ridx) % 2 ^ 64 then .next (bad 7)
          else
            let s := s.setQueue part q (fun x => { x with widx := w })
            .next (if x.state = 2 then s.abortRest part q else s)

/-- A queue that is active and whose barrier packet waits. (DEDUCED: log entry 71.) -/
def Hub.waiting (hb : Hub) (part q : Nat) : Bool :=
  match hb.queue part q with
  | some x => x.state = 1 && x.barrier.isSome
  | none => false

/-- A write has reached a signal on the wait list of a queue's barrier packet (R267, R270). -/
def Hub.signalled (hb : Hub) (part q : Nat) : Bool :=
  (hb.queue part q).any (fun x => x.pend.contains .poke)
    || hb.watches.any (fun w => w.who = Waiter.queue part q && w.hit.isSome)

/-- A write has reached a listed signal, and the packet is evaluated again (R267). -/
def execBarrierEvaluate (part q : Nat) : Sem := fun s =>
  .next (if s.hub.waiting part q ∧ s.hub.signalled part q then s.evalBarrier part q
    else s.setQueue part q (Queue.took .poke))

/-- A listed signal without a watch entry is read again (R67, R267). -/
def execBarrierSignalReread (part q : Nat) : Sem := fun s =>
  let due : Bool := match s.hub.queue part q with
    | some x => x.reread.any (fun t => t ≤ s.hub.clk)
    | none => false
  .next (if s.hub.waiting part q ∧ due then s.evalBarrier part q else s)

/-! ### Completion (R265) -/

/-- What the drain of a retired tread still has to do (R283, R328), and the waits of the release scope (R203): its
write-backs of dirty bytes are no part of it (R332). -/
def Hub.drained (hb : Hub) (rel : Nat) (h : Hart) : Bool :=
  let h := { h with iss := { h.iss with first := none },
                    lsu := { h.lsu with writes := h.lsu.writes.filter (fun w => !w.isBack) } }
  h.ctl.run = .retired && !h.units.eng.any EngOp.unfinished && h.units.semOut.isEmpty
    && h.lsu.vstores.isEmpty && !hb.deliveries.any (fun d => d.by_ = h.id)
    && h.lsu.writes.all Write.ofTread && hb.fenceDone rel h

/-- The treads of a launch leave the machine, and those of earlier launches that stayed for their dirty lines
alone and have none any more (R332). -/
def State.dropHarts (launch : Nat) (s : State) : State :=
  let kept (i : HartId) : Bool := (s.hart? i).any (fun h => h.hasDirty || !h.lsu.writes.isEmpty)
  let mine (i : HartId) : Bool := match i with
    | .tread l _ _ => (l = launch || s.hub.launches.all (fun x => x.id ≠ l)) && !kept i
    | .core _ => false
  let s := (s.focus (.core 0)).getD s
  { s with ring := s.ring.filter (fun h => !mine h.id), todo := s.todo.filter (fun i => !mine i) }

/-- Every workgroup of a launch has ended, its drains are empty and its release waits are over. -/
def State.launchDone (l : Launch) (s : State) : Bool :=
  l.gangs.all (fun g => g.st = .retired)
    && s.harts.all (fun h => h.launchNo ≠ l.id || h.isCore || s.hub.drained l.rel h)

/-- The descriptor of a queue that may be activated (R257, R258). -/
def descOk (d : Nat) : Bool :=
  d % 4 = 0 && 4 ≤ bitsOf 20 16 d && bitsOf 20 16 d ≤ 16
    && clear [(319, 249), (197, 192), (191, 72), (63, 21), (15, 12), (8, 2)] d

/-- A queue as the hub reads it from its descriptor (R257, R344): `none` where it cannot be read, or is not valid. -/
def Hub.readQueue (hb : Hub) (fr part q state : Nat) : Option Queue :=
  let r := hb.part part
  let va := wbits 56 12 r.qtb * 4096 + 64 * q
  if !r.qtb.getLsbD 0 then none
  else match hb.readVa fr part va 64, hb.hubAddrs fr part .store va 64 with
    | some bs, some (pa :: _) =>
      let d := leBytes bs
      if !descOk d then none
      else some
        { part := part, q := q, va := va, base := bitsOf 248 192 d, wline := lineOf (pa + 56),
          log2n := bitsOf 20 16 d, pri := bitsOf 11 9 d, state := state, ridx := bitsOf 447 384 d,
          widx := bitsOf 447 384 d, pend := [.bell], barrier := none, reread := none, deps := [] }
    | _, _ => none

/-- The hub caches a queue. -/
def State.addQueue (x : Queue) (s : State) : State :=
  { s with free := s.free + 1, hub := { s.hub with
    queues := x :: s.hub.queues.filter (fun y => !(y.part = x.part && y.q = x.q)) } }

/-- A queue that was disabled meanwhile is read again, to be aborted (R265). (DESIGN CHOICE: log entry 72.) -/
def State.reopen (part q : Nat) (s : State) : State :=
  match s.hub.queue part q, s.hub.readQueue s.free part q 0 with
  | none, some x => s.addQueue x
  | _, _ => s

/-- A dispatch packet completes (R265): its completion signal falls by 1, and its treads are gone. A launch
with a killed gang completes with the write of an abort (R361). -/
def execDispatchComplete (launch : Nat) : Sem := fun s =>
  match s.hub.launches.find? (fun l => l.id = launch) with
  | none => .next s
  | some l =>
    if !s.launchDone l then .next s
    else
      let (ok, s) := if l.killed then (true, s.csigMin l.part l.csig) else s.csigAdd l.part l.csig
      let s := { s with hub := (Hub.unpin launch { s.hub with
        launches := s.hub.launches.filter (fun x => x.id ≠ launch) }) }
      let s := s.dropHarts launch
      .next (if ok then s
        else ((s.reopen l.part l.queue).markAborted l.part l.queue 5 l.index).abortRest l.part l.queue)

/-! ### `QCTL` (R258) -/

/-- Ends the command of `QCTL`: its event has been taken (R258, R270). -/
def State.endQctl (part st : Nat) (s : State) : State :=
  let s := s.setQueue part (wbits 11 0 (s.hub.part part).qctl) (Queue.took .command)
  s.setPart part (fun r => { r with qctl := endCmd st r.qctl })

/-- A command of `QCTL` on a queue is being carried out. -/
def Hub.qctlIs (hb : Hub) (part q : Nat) (cmd : Nat → Bool) : Bool :=
  let r := (hb.part part).qctl
  wbits 63 62 r = 1 && cmd (wbits 15 14 r) && wbits 11 0 r = q

/-- Activation (R258, R344); the reserved command is refused. -/
def execQctlActivate (part q : Nat) : Sem := fun s =>
  if !s.hub.qctlIs part q (fun c => c = 0 || c = 3) then .next s
  else
    let old := ((s.hub.queue part q).map (·.state)).getD 0
    if wbits 15 14 (s.hub.part part).qctl = 3 ∨ old ≠ 0 then .next (s.endQctl part 3)
    else match s.hub.readQueue s.free part q 1 with
      | some x => .next ((((s.addQueue x).setDesc part q 8 [0#8]).setDesc part q 0 [1#8]).endQctl part 2)
      | none => .next ({ s with free := s.free + 1 }.endQctl part 3)

/-- Disabling (R258): a dispatch packet that has started some workgroups starts the rest first, and one that has
started none is put back. -/
def execQctlDisable (part q : Nat) : Sem := fun s =>
  if !s.hub.qctlIs part q (fun c => c = 1) ∨ s.hub.starting part q then .next s
  else
    let s := s.unstart part q
    let on : Bool := match s.hub.queue part q with
      | some x => x.state ≠ 0
      | none => false
    let s := if on then (s.dropBarrier part q).setDesc part q 0 [0#8] else s
    let s := { s with hub := { s.hub with
      queues := s.hub.queues.filter (fun x => !(x.part = part && x.q = q)) } }
    .next (s.endQctl part 2)

/-- Reset (R258): accepted only in the aborted state; processing resumes at `RIDX`. -/
def execQctlReset (part q : Nat) : Sem := fun s =>
  if !s.hub.qctlIs part q (fun c => c = 2) then .next s
  else match s.hub.queue part q with
    | some x =>
      if x.state ≠ 2 then .next (s.endQctl part 3)
      else
        let s := s.setQueue part q (fun x => { x with state := 1 }.enter .bell)
        .next (((s.setDesc part q 8 [0#8]).setDesc part q 0 [1#8]).endQctl part 2)
    | none => .next (s.endQctl part 3)

end Sys2Proof.Machine
end

