-- ==== Sys2Proof/Machine/Scheduler.lean ====
section
/-! DEFINITION. The scheduler (R57 to R60, R273 to R285): placing gangs, the order and the bounds of
placement, pre-emption, saving and restoring a gang's context (R385 to R391, R420, R421), and the
supervisor's commands (R280). -/

namespace Sys2Proof.Machine

/-! ### Which gangs wait, and where they fit -/

/-- The gang's treads hold flights. -/
def Gang.onFlights (g : Gang) : Bool :=
  match g.st with
  | .placed | .saving _ => true
  | _ => false

/-- The gang is being taken off its flights for a gang of higher priority. -/
def Gang.yielding (g : Gang) : Bool := g.st = .saving .priority

/-- The gang is runnable and not placed (R277). -/
def Gang.waits (g : Gang) : Bool := (g.st = .unstarted || g.st = .saved) && !g.held

/-- The gang holds the flights on which it starts once the calender has decided (R307). -/
def Gang.holding (g : Gang) : Bool := g.st = .unstarted && g.prof ≠ 0

/-- Effective priority (R277). -/
def Launch.eff (l : Launch) (g : Gang) : Nat := Nat.min 7 (l.pri + g.aged)

/-- The flights that a gang holds, as chiplet and flight. -/
def Launch.flights (l : Launch) (g : Gang) : List (Nat × Nat) :=
  if g.onFlights || g.holding then (List.range (l.gangCount g.idx)).map (fun k => (g.chip, g.flight + k)) else []

/-- Every flight in use. -/
def Hub.usedFlights (hb : Hub) : List (Nat × Nat) :=
  hb.launches.flatMap (fun l => l.gangs.flatMap (fun g => l.flights g))

/-- The key of a position in the table of holders. -/
def posKey (chip pos : Nat) : Nat := chip * 128 + pos

/-- The positions that a workgroup of a width uses in a flight. -/
def Hub.positions (hb : Hub) (chip flight width : Nat) : List Nat := (hb.chain chip flight).take width

/-- A position last held by another partition is offered only once its drain is empty (R284). -/
def Hub.offered (hb : Hub) (part chip pos : Nat) : Bool :=
  let was := NMap.get 0 (posKey chip pos) hb.holders
  was = 0 || was = part + 1
    || (List.range 32).all (fun b => NMap.get 0 (bankKey { chip := chip, flight := 0, pos := pos } b) hb.banks ≠ 2)

/-- The island of a flight (R426). -/
def flightIsland (chip f : Nat) : Nat := if chip < 8 then 3 * chip + f else 24 + 16 * (chip - 8) + f

/-- The flights from `f` on of a chiplet can take a gang of a launch, if `used` are in use (R263, R274,
R390, R427). -/
def Hub.fitsAt (hb : Hub) (l : Launch) (g : Gang) (used : List (Nat × Nat)) (chip f : Nat) : Bool :=
  let prof := chipProf chip
  let n := l.gangCount g.idx
  (hb.partChips l.part).contains chip && decide (l.gsize ≤ gangMax prof)
    && (if g.prof = 0 then l.kernels.any (fun k => k.prof = prof) else g.prof = prof)
    && hb.wide chip f n l.width
    && (List.range n).all (fun k => !used.contains (chip, f + k)
        && (hb.island (flightIsland chip (f + k))).req ≠ 0
        && (hb.positions chip (f + k) l.width).all (fun q => hb.offered l.part chip q))

/-- Every place for a gang of a launch. -/
def Hub.fits (hb : Hub) (l : Launch) (g : Gang) (used : List (Nat × Nat)) : List (Nat × Nat) :=
  (hb.partChips l.part).flatMap (fun c =>
    ((List.range (flightCount c)).filter (fun f => hb.fitsAt l g used c f)).map (fun f => (c, f)))

/-- A gang is its launch's lead gang. -/
def Launch.isLead (l : Launch) (g : Gang) : Bool := l.lead = some g.idx

/-- The order in which waiting gangs are placed (R276, R278): lead gangs, then by decreasing effective
priority, those that have run before, launches in turn, and the gang's index. -/
def placeKey (l : Launch) (g : Gang) : List Nat :=
  [if l.isLead g then 0 else 1, 7 - l.eff g, if g.st = .saved then 0 else 1, l.served, l.id, g.idx]

/-- Comparison of keys. -/
def keyLe : List Nat → List Nat → Bool
  | [], _ => true
  | _, [] => false
  | a :: r, b :: t => a < b || (a = b && keyLe r t)

/-- The waiting gangs of a partition in the order of placement. -/
def Hub.candidates (hb : Hub) (part : Nat) : List (Launch × Gang) :=
  let cs := (hb.launches.filter (fun l => l.part = part)).flatMap (fun l =>
    (l.gangs.filter Gang.waits).map (fun g => (l, g)))
  sortBy (fun a b => keyLe (placeKey a.1 a.2) (placeKey b.1 b.2)) cs

/-- The place of a saved tread when its gang is restored from a flight on. -/
def Hub.newPlace (hb : Hub) (l : Launch) (gang chip flight : Nat) (h : Hart) : Place :=
  match h.id with
  | .tread _ w r =>
    let f := flight + (w - gang * l.gsize)
    { chip := chip, flight := f, pos := (hb.positions chip f l.width).getD r 0 }
  | .core _ => h.place

/-- The target of every bank that the gang saved as held has left draining (R390). (DEDUCED: log entry 78.) -/
def Hub.targetsReady (hb : Hub) (g : Gang) (ts : List (Hart × Place)) : Bool :=
  ts.all (fun (t : Hart × Place) => (List.range 32).all (fun b =>
    g.free.contains (t.1.id, b) || NMap.get 0 (bankKey t.2 b) hb.banks ≠ 2))

/-- The places that a waiting gang may take now (R274, R307, R390): the one it holds; or those that fit, and for a saved
gang have no bank that it must await. -/
def Hub.openPlaces (hb : Hub) (l : Launch) (g : Gang) (used : List (Nat × Nat)) : List (Nat × Nat) :=
  let others := used.filter (fun x => !(l.flights g).contains x)
  if g.holding && hb.fitsAt l g others g.chip g.flight then [(g.chip, g.flight)]
  else
    let g := if g.holding then { g with prof := 0 } else g
    (hb.fits l g others).filter (fun x => g.st ≠ .saved || hb.targetsReady g
      (g.ctx.map (fun h => (h, hb.newPlace l g.idx x.1 x.2 h))))

/-- The flights that gangs of a partition are giving up for others. -/
def Hub.givenUp (hb : Hub) (part : Nat) : List (Nat × Nat) :=
  (hb.launches.filter (fun l => l.part = part)).flatMap (fun l =>
    (l.gangs.filter Gang.yielding).flatMap (fun g => l.flights g))

/-- The flights of the first place that fits a gang. -/
def Hub.claim (hb : Hub) (l : Launch) (g : Gang) (used : List (Nat × Nat)) : List (Nat × Nat) :=
  match hb.fits l g used with
  | (c, f) :: _ => (List.range (l.gangCount g.idx)).map (fun k => (c, f + k))
  | [] => []

/-- The flights in use once those given up are free, but for those that earlier gangs are waiting for. -/
def Hub.soonUsed (hb : Hub) (given claims : List (Nat × Nat)) : List (Nat × Nat) :=
  hb.usedFlights.filter (fun x => !given.contains x) ++ claims

/-- The flights that gangs have given up, or are giving up, for a waiting gang, while one of them is still being saved
(R276, R279). -/
def Hub.freedFor (hb : Hub) (l : Launch) (g : Gang) : List (Nat × Nat) :=
  let vs := hb.launches.flatMap (fun m => (m.gangs.filter (fun v => v.yields = some (l.id, g.idx))).map (fun v => (m, v)))
  if vs.any (fun v => v.2.yielding) then
    (vs.filter (fun v => v.2.yielding || v.2.st = .saved)).flatMap (fun v =>
      (List.range (v.1.gangCount v.2.idx)).map (fun k => (v.2.chip, v.2.flight + k)))
  else []

/-- What is kept from the gangs behind a waiting gang that does not fit: for a lead gang the whole place that is being
freed for it (R276), for another one what its victims give up (R278, R279). (DEDUCED: log entry 76.) -/
def Hub.kept (hb : Hub) (given claims : List (Nat × Nat)) (l : Launch) (g : Gang) : List (Nat × Nat) :=
  if l.isLead g then hb.claim l g (hb.soonUsed given claims) else hb.freedFor l g

/-- The first of some waiting gangs that has a place now (R278): one that does not fit is passed over, and what is
being freed for it is not given to those behind it (R276). -/
def Hub.firstPlaced (hb : Hub) (given : List (Nat × Nat)) :
    List (Nat × Nat) → List (Launch × Gang) → Option (Launch × Gang × List (Nat × Nat))
  | _, [] => none
  | claims, c :: cs => match hb.openPlaces c.1 c.2 (hb.usedFlights ++ claims) with
    | [] => hb.firstPlaced given (claims ++ hb.kept given claims c.1 c.2) cs
    | ps => some (c.1, c.2, ps)

/-- The gang that is placed next, with the places it may take (R276, R278). -/
def Hub.nextPlacement (hb : Hub) (part : Nat) : Option (Launch × Gang × List (Nat × Nat)) :=
  hb.firstPlaced (hb.givenUp part) [] (hb.candidates part)

/-- One of several fitting places, freely chosen (R274). -/
def State.chosen (ps : List (Nat × Nat)) (s : State) : Option (Nat × Nat) :=
  match ps with
  | [x] => some x
  | _ => ps[Config.freeChoice s.free % Nat.max 1 ps.length]?

/-! ### Room for contexts (R388, R389) -/

/-- The gang has a context in the hub's keeping. -/
def Gang.kept (g : Gang) : Bool := !g.ctx.isEmpty

/-- The bytes of the MSC reserve in use. -/
def Hub.reserveUsed (hb : Hub) : Nat :=
  (hb.launches.flatMap (fun l => (l.gangs.filter (fun g => g.kept && !g.spilled)).map (·.size))).sum

/-- The bytes of a partition's spill area in use. -/
def Hub.spillUsed (hb : Hub) (part : Nat) : Nat :=
  ((hb.launches.filter (fun l => l.part = part)).flatMap (fun l =>
    (l.gangs.filter (fun g => g.kept && g.spilled)).map (·.size))).sum

/-- The MSC reserve in bytes (R388). -/
def Hub.reserve (hb : Hub) : Nat := wbits 6 0 hb.mon.ctxres * 12 * 2 ^ 20

/-- The spill area of a partition in bytes (R388). -/
def Hub.spillSize (hb : Hub) (part : Nat) : Nat :=
  if g : part < 16 then wbits 59 52 (hb.mon.ctxb[part]'g) * 2 ^ 28 else 0

/-- A context of a size fits the reserve now. (DEDUCED: log entry 75.) -/
def Hub.roomFor (hb : Hub) (n : Nat) : Bool := decide (hb.reserveUsed + n ≤ hb.reserve)

/-- The oldest saved context that its partition's spill area can take (R389). -/
def Hub.spillable (hb : Hub) : Option (Launch × Gang) :=
  let cs := hb.launches.flatMap (fun l =>
    (l.gangs.filter (fun g => g.kept && !g.spilled
      && decide (hb.spillUsed l.part + g.size ≤ hb.spillSize l.part))).map (fun g => (l, g)))
  (sortBy (fun a b => a.2.since ≤ b.2.since) cs).head?

/-- The banks of a saved tread that R390 saves, given its position (R421): held ones that are live, or all
of them where there is no plan or no position. -/
def Hub.liveBanks (hb : Hub) (k : Option KHead) (pos : Option Nat) (h : Hart) : List Nat :=
  let held := (List.range 32).filter (fun b => hb.bankHeld (bankKey h.place b))
  match k.bind (·.plan), pos with
  | some rs, some p => held.filter (fun b =>
      rs.any (fun r => r.1 = b && (r.2.1 || (r.2.2.1 ≤ p && p < r.2.2.2))))
  | _, _ => held

/-- The saved position of a tread (R421). -/
def State.savedPos (h : Hart) (s : State) : Option Nat :=
  match s.kernelOf h with
  | none => none
  | some k =>
    if h.level ≠ 0 then none
    else
      let at_ : VAddr := match h.sched.loop with
        | some l => l.origin
        | none => h.ctl.pc
      let a := if inQuire at_.toNat then (s.titer h at_.toNat []).toNat % 2 ^ 57 else at_.toNat
      if k.code ≤ a ∧ a < k.code + k.codelen then some (a - k.code) else none

/-- The size of the context of a gang (R389): views and saved banks, and for the other items a free size
below 64 KiB for each tread. (DESIGN CHOICE: log entry 74.) -/
def State.ctxSize (hs : List Hart) (s : State) : Nat :=
  (hs.mapIdx (fun i h =>
    let k := s.kernelOf h
    let v := match k with
      | some k => 256 * k.vcnt + 4096 * k.tcnt + 32768 * k.acnt
      | none => 0
    v + (s.hub.liveBanks k (s.savedPos h) h).length * bankSize h.place.chip + freeAt s.free i % 65536)).sum

/-! ### Pre-emption (R276, R279) -/

/-- An operation of a tread's engine waits for the handler of a translation fault (R241). -/
def Hart.suspended (h : Hart) : Bool := h.units.eng.any (fun o => match o.stat with
  | .suspended .. => true
  | _ => false)

/-- A save of the gang may be tried: the last one did not fail, or there is room now, and no operation of it waits for a
handler that the save would keep from running (R241, R385). (DEDUCED: log entry 58.) -/
def State.savable (l : Launch) (g : Gang) (s : State) : Bool :=
  !(s.gangHarts l.id g.idx).any Hart.suspended && (!g.noRoom || s.hub.spillable.isSome
    || s.hub.roomFor (s.ctxSize (s.gangHarts l.id g.idx)))

/-- The gangs that may be pre-empted for a waiting gang, first victim first (R276, R279).
(DEDUCED: log entry 76.) -/
def State.victims (l : Launch) (g : Gang) (s : State) : List (Launch × Gang) :=
  let lead := l.isLead g
  let vs := (s.hub.launches.filter (fun m => m.part = l.part)).flatMap (fun m =>
    (m.gangs.filter (fun v => v.st = .placed && !m.isLead v && s.savable m v
      && (lead || (m.pri < l.eff g && decide (v.since + 1048576 ≤ s.hub.clk))))).map (fun v => (m, v)))
  sortBy (fun a b => a.1.pri < b.1.pri || (a.1.pri = b.1.pri && b.2.since ≤ a.2.since)) vs

/-- The victims of the shortest run of a list that frees a place: those that hold a flight of it. -/
def Hub.victimsFor (hb : Hub) (l : Launch) (g : Gang) (used : List (Nat × Nat)) :
    List (Launch × Gang) → List (Launch × Gang) → List (Launch × Gang)
  | _, [] => []
  | taken, v :: vs =>
    let taken := taken ++ [v]
    let freed := taken.flatMap (fun v => v.1.flights v.2)
    match hb.fits l g (used.filter (fun x => !freed.contains x)) with
    | (c, f) :: _ =>
      let seg := (List.range (l.gangCount g.idx)).map (fun k => (c, f + k))
      taken.filter (fun v => (v.1.flights v.2).any (fun x => seg.contains x))
    | [] => hb.victimsFor l g used taken vs

/-- The first of some waiting gangs that needs victims, with them (R276, R279): not one for which enough flights are
being freed. -/
def State.firstVictims (given : List (Nat × Nat)) (s : State) :
    List (Nat × Nat) → List (Launch × Gang) → Option ((Launch × Gang) × List (Launch × Gang))
  | _, [] => none
  | claims, c :: cs =>
    let soon := s.hub.soonUsed given claims
    match s.hub.claim c.1 c.2 soon with
    | [] => match s.hub.victimsFor c.1 c.2 soon [] (s.victims c.1 c.2) with
      | [] => s.firstVictims given claims cs
      | vs => some (c, vs)
    | fs => s.firstVictims given (claims ++ fs) cs

/-- The waiting gang of a partition for which gangs are pre-empted next for priority, and those gangs (R276, R279). -/
def State.nextVictims (part : Nat) (s : State) : Option ((Launch × Gang) × List (Launch × Gang)) :=
  s.firstVictims (s.hub.givenUp part) [] (s.hub.candidates part)

/-- Gangs are pre-empted together, so that a fitting set of flights is freed for a waiting gang (R276, R279). -/
def State.yieldTo (c : Launch × Gang) (vs : List (Launch × Gang)) (s : State) : State :=
  vs.foldl (fun s v => (s.startSave v.1.id v.2.idx .priority).setGang v.1.id v.2.idx
    (fun g => { g with yields := some (c.1.id, c.2.idx) })) s

/-- A lower-priority gang is pre-empted, with the others that the same waiting gang needs (R276, R279). -/
def execGangPreempt (launch gang : Nat) : Sem := fun s =>
  match s.hub.launches.find? (fun l => l.id = launch) with
  | none => .next s
  | some l =>
    match s.nextVictims l.part with
    | some (c, vs) => .next (if vs.any (fun v => v.1.id = launch && v.2.idx = gang) then s.yieldTo c vs else s)
    | none => .next s

/-- A tick of the slice timer (R270): every partition takes the pre-emption that is due now.
(DEDUCED: log entry 89.) -/
def execSliceTimerTick : Sem := fun s =>
  .next ((List.range 16).foldl (fun s p => match s.nextVictims p with
    | some (c, vs) => s.yieldTo c vs
    | none => s) s)

/-- A waiting gang gains a level of effective priority (R277). -/
def execAgingTick (launch gang : Nat) : Sem := fun s =>
  .next (s.setLaunch launch (fun l => { l with gangs := l.gangs.map (fun g =>
    if g.idx = gang ∧ g.waits ∧ l.pri + g.aged < 7 ∧ g.waitSince + 16777216 * (g.aged + 1) ≤ s.hub.clk then
      { g with aged := g.aged + 1 } else g) }))

/-! ### Starting workgroups (R57, R58, R282, R284) -/

/-- The bytes and the poison of a range of physical memory are cleared. -/
def Hub.zeroRange (a n : Nat) (hb : Hub) : Hub :=
  let inside (k : Nat) : Bool := decide (a ≤ k) && decide (k < a + n)
  { hb with
    mem := NMap.drop inside hb.mem,
    lines := hb.lines.filterMap (fun (e : Nat × LineMeta) =>
      if inside (e.1 * 128) then
        let m : LineMeta := { e.2 with poison := false }
        if m = LineMeta.zero then none else some (e.1, m)
      else some e) }

/-- A position passes to a partition: its banks are zeroed where another partition held it (R284).
(DEDUCED: log entry 77.) -/
def Hub.takePosition (part chip pos : Nat) (hb : Hub) : Hub :=
  let was := NMap.get 0 (posKey chip pos) hb.holders
  let hb := if was = 0 ∨ was = part + 1 then hb
    else
      let p : Place := { chip := chip, flight := 0, pos := pos }
      let hb := hb.zeroRange (apertureBase chip pos) (vaultSize chip)
      { hb with banks := (List.range 32).foldl (fun m b => NMap.put 0 (bankKey p b) 0 m) hb.banks }
  { hb with holders := NMap.put 0 (posKey chip pos) (part + 1) hb.holders }

/-- Every bank of a position that is not draining is held by the new workgroup (R282). -/
def Hub.holdBanks (p : Place) (hb : Hub) : Hub :=
  { hb with banks := (List.range 32).foldl (fun m b =>
      if NMap.get 0 (bankKey p b) m = 2 then m else NMap.put 0 (bankKey p b) 0 m) hb.banks }

/-- The first bundle of residual code (R319). -/
def residualStart (base : Nat) : Nat := quireBase + base + 64

/-- Where the binary of a profile starts, and whether its residual code runs (R264, R307, R418). -/
def Launch.startAt (l : Launch) (k : KHead) : VAddr × Bool :=
  match (l.decisions.find? (fun d => d.prof = k.prof)).bind (·.base) with
  | some b => (BitVec.ofNat 57 (residualStart b), true)
  | none => (BitVec.ofNat 57 (k.code + k.entry), false)

/-- A tread at workgroup start (R58, R70, R75, R76, R264, R337). -/
def startTread (hb : Hub) (l : Launch) (g : Gang) (k : KHead) (pl : Place) (gpos rank : Nat) : Hart :=
  let wgi := g.idx * l.gsize + gpos
  let (pc, spec) := l.startAt k
  let h := Hart.zero (.tread l.id wgi rank) pl .attached pc
  let w (n : Nat) : Word := BitVec.ofNat 64 n
  { h with
    regs := { h.regs with g := Vector.ofFn (fun n : Fin 32 => l.args.getD n.val 0) },
    spr := { h.spr with
      rank := w rank, flw := w l.width, wgi := w wgi,
      gang := w (gpos + l.gangCount g.idx * 2 ^ 8 + g.idx * 2 ^ 16), rise := w k.rise, prof := w k.prof,
      kcfg := w (k.xmode.toNat + 2 * spec.toNat), vwv := w (k.vcnt + k.vbase * 2 ^ 8),
      vwt := w (k.tcnt + k.tbase * 2 ^ 8), vwa := w (k.acnt + k.abase * 2 ^ 8),
      grps := grpsWord l.width wgi rank l.members, svec := (hb.part l.part).svecp, mvec := hb.mon.mvecg,
      part := w l.part } }

/-- The places of a gang's treads from a flight on: position in the gang, rank, place. -/
def Hub.places (hb : Hub) (l : Launch) (n chip flight : Nat) : List (Nat × Nat × Place) :=
  (List.range n).flatMap (fun k =>
    (hb.positions chip (flight + k) l.width).mapIdx (fun r q =>
      (k, r, { chip := chip, flight := flight + k, pos := q })))

/-- A place in the order of placements above every other (R278). -/
def Hub.nextServed (hb : Hub) : Nat := (hb.launches.foldl (fun m l => Nat.max m l.served) 0) + 1

/-- The last gang of a launch has started: its queue goes on (R269). -/
def State.afterStart (l : Launch) (gang : Nat) (s : State) : State :=
  if l.wgcnt ≤ (gang + 1) * l.gsize then
    match s.hub.queue l.part l.queue with
    | some x => (s.setRidx l.part l.queue (x.ridx + 1)).setQueue l.part l.queue (fun x =>
        x.enter .bell)
    | none => s
  else s.setLaunch l.id (fun m =>
    let since := ((m.gangs.find? (fun g => g.idx = gang)).map (·.waitSince)).getD s.hub.clk
    let held := m.holds.contains (gang + 1)
    let next := { (Gang.fresh (gang + 1) s.hub.clk held) with
      waitSince := if held then s.hub.clk - since else since,
      aged := ((m.gangs.find? (fun g => g.idx = gang)).map (·.aged)).getD 0 }
    { m with gangs := m.gangs ++ [next] })

/-- A decision of the calender is missing for a profile (R307). -/
def Launch.undecided (l : Launch) (prof : Nat) : Bool :=
  l.spec && !l.decisions.any (fun d => d.prof = prof)

/-- The scheduler places a gang for the first time, and starts its workgroups (R57, R274, R275). -/
def execGangPlace (launch gang chip flight : Nat) : Sem := fun s =>
  match s.hub.launches.find? (fun l => l.id = launch) with
  | none => .next s
  | some l =>
    match s.hub.nextPlacement l.part, l.kernels.find? (fun k => k.prof = chipProf chip) with
    | some (m, g, ps), some k =>
      if m.id ≠ launch ∨ g.idx ≠ gang ∨ g.st ≠ .unstarted ∨ !ps.contains (chip, flight)
        ∨ l.undecided k.prof then .next s
      else
        let places := s.hub.places l (l.gangCount gang) chip flight
        let s := s.backsAt chip (fun q => places.any (fun p => p.2.2.pos = q))
        let hb := places.foldl (fun hb p => (hb.takePosition l.part chip p.2.2.pos).holdBanks p.2.2) s.hub
        let s := { s with hub := hb }
        let new := places.map (fun p => startTread hb l g k p.2.2 p.1 p.2.1)
        let s := s.afterStart l gang
        let s := s.setGang launch gang (fun g => { g with
          st := .placed, chip := chip, flight := flight, since := s.hub.clk, aged := 0, prof := k.prof })
        let s := s.setLaunch launch (fun l => { l with served := s.hub.nextServed })
        .next { s with ring := s.ring ++ new }
    | _, _ => .next s

/-! ### Saving a context (R385 to R389) -/

/-- Nothing that the tread sent is on its way, and every operation of its engine has completed or failed (R385); an
answer of the hub that has come is kept. (DEDUCED: log entry 58.) -/
def Hub.quiet (hb : Hub) (h : Hart) : Bool :=
  h.lsu.asks.isEmpty && h.lsu.writes.isEmpty && h.lsu.vstores.isEmpty && h.units.semOut.isEmpty
    && h.units.arrivals.isEmpty && h.lsu.hubReq.all (fun r => r.answer.isSome)
    && !h.units.eng.any EngOp.unfinished && !hb.exts.any (fun e => e.hart = h.id)
    && !hb.deliveries.any (fun d => d.by_ = h.id)

/-- What the context keeps of a tread (R387, R390): caches hold nothing. -/
def Hart.toContext (h : Hart) : Hart :=
  { h with
    ctl := { h.ctl with line := none, fetchAt := none, frozen := false },
    lsu := { h.lsu with lease := [], tlb := [], want := none, fault := none, verWait := none, fenceSince := none } }

/-- Ends a command of `PREQ` with ST and CAUSE (R280). -/
def State.endPreq (part st cause : Nat) (s : State) : State :=
  s.setPart part (fun r => { r with preq := setBits 61 58 cause (endCmd st r.preq) })

/-- A supervisor's pre-emption is over (R280). -/
def State.preqDone (part : Nat) (why : Why) (st cause : Nat) (s : State) : State :=
  match why with
  | .supervisor _ => s.endPreq part st cause
  | _ => s

/-- The named harts leave the ring. -/
def State.takeOff (hs : List Hart) (s : State) : State :=
  let mine (i : HartId) : Bool := hs.any (fun h => h.id = i)
  let s := (s.focus (.core 0)).getD s
  { s with ring := s.ring.filter (fun h => !mine h.id), todo := s.todo.filter (fun i => !mine i) }

/-- The gang is killed (R64, R361): its treads end. -/
def State.killGang (launch gang : Nat) (s : State) : State :=
  let hs := (s.gangHarts launch gang).filter (fun h => h.ctl.run ≠ .retired)
  let s := hs.foldl (fun s h => s.onHart h.id State.retireMe) s
  let s := (s.setGang launch gang (fun g => { g with st := .retired, held := false })).setLaunch launch (fun l =>
    { (Launch.freeLead s.hub.clk l) with killed := true })
  State.settleLeaves { s with hub := { s.hub with isolations := s.hub.isolations.map (fun i =>
    if (hs.any (fun h => h.place.chip = i.chip)) then { i with killed := true } else i) } }

/-- The monitor takes the gang off its chiplet, which its partition holds no longer (R279, R360, R361). -/
def Hub.evicted (hb : Hub) (l : Launch) (g : Gang) (why : Why) : Bool :=
  why = .monitor || !(hb.partChips l.part).contains g.chip

/-- A save that finds no room is not made (R389). -/
def State.abandonSave (l : Launch) (g : Gang) (why : Why) (s : State) : State :=
  let s := s.logErr 5 (g.chip + g.flight * 2 ^ 4)
  if s.hub.evicted l g why then (s.killGang l.id g.idx).preqDone l.part why 3 3
  else (s.setGang l.id g.idx (fun g =>
      { g with st := .placed, since := g.waitSince, noRoom := true })).preqDone l.part why 3 3

/-- Saves the treads of a gang, and frees its flights (R385, R387, R390). -/
def State.saveGang (l : Launch) (g : Gang) (why : Why) (hs : List Hart) (s : State) : State :=
  let size := s.ctxSize hs
  let s := { s with free := s.free + 1 }
  let hb := s.hub
  let banks := hs.flatMap (fun h =>
    (hb.liveBanks (s.kernelOf h) (s.savedPos h) h).map (fun b =>
      let a := apertureBase h.place.chip h.place.pos + b * bankSize h.place.chip
      let m : NMap Byte := (hb.mem.filter (fun (e : Nat × Byte) =>
        decide (a ≤ e.1) && decide (e.1 < a + bankSize h.place.chip))).map (fun (e : Nat × Byte) => (e.1 - a, e.2))
      (h.id, b, m)))
  let free := hs.flatMap (fun h =>
    ((List.range 32).filter (fun b => !hb.bankHeld (bankKey h.place b))).map (fun b => (h.id, b)))
  let hold : Bool := match why with
    | .supervisor h => h
    | _ => false
  let s := s.setGang l.id g.idx (fun g => { g with
    st := if why = .park then .parked else .saved, since := s.hub.clk, aged := 0,
    waitSince := if hold && !l.isLead g then 0 else s.hub.clk, held := hold && !l.isLead g, ctx := hs.map Hart.toContext, banks := banks, free := free, size := size,
    spilled := false, noRoom := false })
  (s.takeOff hs).preqDone l.part why 2 0

/-- The context of a stopped gang is saved once nothing of it is on its way (R385): dirty lines are written
back first; without room in the reserve the save waits for a spill, or is not made (R389). -/
def execContextSave (launch gang : Nat) : Sem := fun s =>
  match s.hub.launches.find? (fun l => l.id = launch), s.hub.gang launch gang with
  | some l, some g =>
    (match g.st with
      | .saving why =>
        let hs := s.gangHarts launch gang
        if !hs.all (fun h => s.hub.quiet h) then .next s
        else if hs.any Hart.hasDirty then
          .next (s.mapWhere (fun h => l.inGang gang h) (Hart.writeBackAll s.hub.clk))
        else if s.hub.roomFor (s.ctxSize hs) then .next (s.saveGang l g why hs)
        else if s.hub.spillable.isSome then .next s
        else .next (s.abandonSave l g why)
      | _ => .next s)
  | _, _ => .next s

/-- The oldest context moves to its partition's spill area (R389). -/
def execContextSpill (launch gang : Nat) : Sem := fun s =>
  match s.hub.spillable with
  | some (l, g) =>
    if l.id = launch ∧ g.idx = gang then .next (s.setGang launch gang (fun g => { g with spilled := true }))
    else .next s
  | none => .next s

/-! ### Restoring a context (R390) -/

/-- An address in a vault of the gang after the gang has moved. -/
def moveAddr (moves : List (Place × Place)) (a : Nat) : Nat :=
  match moves.find? (fun m =>
      let b := apertureBase m.1.chip m.1.pos
      decide (b ≤ a) && decide (a < b + vaultSize m.1.chip)) with
  | some (o, n) => a - apertureBase o.chip o.pos + apertureBase n.chip n.pos
  | none => a

/-- A bank key after the gang has moved. -/
def moveKey (moves : List (Place × Place)) (k : Nat) : Nat :=
  match moves.find? (fun m => k / 32 = m.1.chip * 128 + m.1.pos) with
  | some (_, n) => bankKey n (k % 32)
  | none => k

/-- A schedule after the gang has moved. -/
def Sched.moved (mv : List (Place × Place)) (sc : Sched) : Sched :=
  let eff (e : Eff) : Eff := match e with
    | .vault n pa bs => .vault n (moveAddr mv pa) bs
    | e => e
  let job (j : MxJob) : MxJob :=
    { j with base := moveAddr mv j.base, asAt := moveAddr mv j.asAt, bsAt := moveAddr mv j.bsAt,
             units := j.units.map (fun (e : Nat × BitVec 32) => (moveAddr mv e.1, e.2)) }
  { sc with
    pipe := sc.pipe.map (fun p => { p with effs := p.effs.map (fun l => l.map eff) }),
    mx := sc.mx.map (fun o => { o with job := o.job.map job }) }

/-- A tread at its new place (R59, R60, R390): its stall is examined again, and one that slept is asleep (R289). -/
def Hart.restored (clk : Nat) (mv : List (Place × Place)) (pl : Place) (h : Hart) : Hart :=
  { h with
    place := pl,
    sched := h.sched.moved mv,
    ctl := { h.ctl with
      held := h.ctl.held.map (fun sc => sc.moved mv),
      stall := (h.ctl.stall.filter (fun t => t.asleep.isSome)).map (fun t => { t with since := clk }) },
    units := { h.units with eng := h.units.eng.map (fun o => { o with avoid := o.avoid.map (fun k => moveKey mv k) }) } }

/-- The banks of a restored tread (R390): held ones take the saved bytes or zero; a bank that was released or
draining is released, or draining where the target's is. -/
def Hub.restoreBanks (g : Gang) (id : HartId) (pl : Place) (hb : Hub) : Hub :=
  (List.range 32).foldl (fun (hb : Hub) b =>
    let k := bankKey pl b
    if g.free.contains (id, b) then
      if NMap.get 0 k hb.banks = 2 then hb else { hb with banks := NMap.put 0 k 1 hb.banks }
    else
      let a := apertureBase pl.chip pl.pos + b * bankSize pl.chip
      let hb := hb.zeroRange a (bankSize pl.chip)
      let m : NMap Byte := ((g.banks.find? (fun x => x.1 = id && x.2.1 = b)).map (·.2.2)).getD []
      { hb with
        mem := NMap.putAll 0#8 (m.map (fun (e : Nat × Byte) => (a + e.1, e.2))) hb.mem,
        banks := NMap.put 0 k 0 hb.banks }) hb

/-- No flights of the partition could ever take a saved gang (R391). -/
def Hub.unplaceable (hb : Hub) (l : Launch) (g : Gang) : Bool :=
  g.st = .saved && !g.logged && !hb.couldHold l.part l.gsize (l.gangCount g.idx) l.width [g.prof]

/-- A saved gang is restored onto flights of its profile (R60, R390); one that nothing could take is logged
once (R391). -/
def execGangRestore (launch gang chip flight : Nat) : Sem := fun s =>
  match s.hub.launches.find? (fun l => l.id = launch) with
  | none => .next s
  | some l =>
    if (s.hub.gang launch gang).any (fun g => s.hub.unplaceable l g) then
      let g := ((s.hub.gang launch gang).map (fun g => g.chip + g.flight * 2 ^ 4)).getD 0
      .next ((s.setGang launch gang (fun g => { g with logged := true })).logErr 6 g)
    else match s.hub.nextPlacement l.part with
    | some (m, g, ps) =>
      let ts := g.ctx.map (fun h => (h, s.hub.newPlace l gang chip flight h))
      if m.id ≠ launch ∨ g.idx ≠ gang ∨ g.st ≠ .saved ∨ !ps.contains (chip, flight)
        ∨ !s.hub.targetsReady g ts then .next s
      else
        let mv := ts.map (fun (t : Hart × Place) => (t.1.place, t.2))
        let s := s.backsAt chip (fun q => ts.any (fun t => t.2.pos = q))
        let hb := ts.foldl (fun hb t => (hb.takePosition l.part chip t.2.pos).restoreBanks g t.1.id t.2) s.hub
        let s := { s with hub := hb, ring := s.ring ++ ts.map (fun (t : Hart × Place) => t.1.restored s.hub.clk mv t.2) }
        let s := s.setGang launch gang (fun g => { g with
          st := .placed, chip := chip, flight := flight, since := s.hub.clk, aged := 0, yields := none, ctx := [],
          banks := [], free := [], size := 0, spilled := false, logged := false })
        .next (s.setLaunch launch (fun l => { l with served := s.hub.nextServed }))
    | none => .next s

/-! ### The supervisor's commands (R280) -/

/-- The launch that a command of `PREQ` names: the one processed last from the slot, if it has started a workgroup and
has not completed. -/
def Hub.preqLaunch (hb : Hub) (part : Nat) : Option Launch :=
  let r := (hb.part part).preq
  let id := NMap.get 0 (slotKey part (wbits 27 16 r) (wbits 15 0 r)) hb.slots
  hb.launches.find? (fun l => l.id = id && l.begun)

/-- A command of `PREQ` is being carried out. -/
def Hub.preqIs (hb : Hub) (part : Nat) (cmd : Nat → Bool) : Bool :=
  let r := (hb.part part).preq
  wbits 63 62 r = 1 && cmd (wbits 29 28 r)

/-- The gang that a command names: its launch, its index, and its record where it has been listed; `none`
is cause 1. -/
def Hub.preqGang (hb : Hub) (part : Nat) : Option (Launch × Nat × Option Gang) :=
  match hb.preqLaunch part with
  | none => none
  | some l =>
    let i := wbits 31 0 (hb.part part).preqg
    if l.wgcnt ≤ i * l.gsize then none
    else
      let g := l.gangs.find? (fun g => g.idx = i)
      if g.any (fun g => g.st = .retired) then none else some (l, i, g)

/-- The hold of a gang that is not on its flights. (DEDUCED: log entry 83.) -/
def State.holdGang (l : Launch) (i : Nat) (on : Bool) (s : State) : State :=
  let s := s.setGang l.id i (Gang.hold on s.hub.clk)
  s.setLaunch l.id (fun l => { l with
    holds := if on then i :: l.holds else l.holds.filter (fun j => j ≠ i) })

/-- Pre-empts a gang for the supervisor, with or without a hold (R280). -/
def preqStop (part : Nat) (hold : Bool) : Sem := fun s =>
  match s.hub.preqGang part with
  | none => .next (s.endPreq part 3 1)
  | some (l, i, g) =>
    if l.lead = some i then .next (s.endPreq part 3 2)
    else match (g.map (·.st)).getD GangSt.unstarted with
      | .placed => .next (s.startSave l.id i (.supervisor hold))
      | .saving _ => .next s
      | _ => .next ((if hold then s.holdGang l i true else s).endPreq part 2 0)

/-- `PREQ` pre-empt (R280); the reserved command is refused. -/
def execPreqPreempt (part : Nat) : Sem := fun s =>
  if s.hub.preqIs part (fun c => c = 3) then .next (s.endPreq part 3 5)
  else if s.hub.preqIs part (fun c => c = 0) then preqStop part false s
  else .next s

/-- `PREQ` pre-empt and hold (R280). -/
def execPreqPreemptHold (part : Nat) : Sem := fun s =>
  if s.hub.preqIs part (fun c => c = 1) then preqStop part true s else .next s

/-- `PREQ` release (R280). -/
def execPreqRelease (part : Nat) : Sem := fun s =>
  if !s.hub.preqIs part (fun c => c = 2) then .next s
  else match s.hub.preqGang part with
    | none => .next (s.endPreq part 3 1)
    | some (l, i, g) =>
      let held := (g.any (fun g => g.held)) || (g.isNone && l.holds.contains i)
      if held then .next ((s.holdGang l i false).endPreq part 2 0) else .next (s.endPreq part 3 4)

end Sys2Proof.Machine
end

