-- ==== Sys2Proof/Machine/Chiplets.lean ====
section
/-! DEFINITION. Commands on regions (R211), chiplets and ports (R359 to R361) and Newel cores (R362). -/

namespace Sys2Proof.Machine

/-! ### `NCRQ` (R211) -/

/-- The request of `NCRQ`: the Vat chiplet and the region number, while it is being carried out. -/
def Hub.ncrq (hb : Hub) (part : Nat) (mode : Nat) : Option (Nat × Nat) :=
  let r := (hb.part part).ncrq
  if wbits 63 62 r = 1 ∧ wbits 57 57 r = mode then some (wbits 53 52 r, wbits 51 21 r) else none

/-- Ends the request. -/
def State.endNcrq (part st : Nat) (s : State) : State := s.setPart part (fun r => { r with ncrq := endCmd st r.ncrq })

/-- A line lies in a region. -/
def inRegion (region line : Nat) : Bool := line * 128 / 2 ^ 21 = region % 2 ^ 25

/-- The lines of a region leave the lease caches of a chiplet; dirty bytes are not discarded (R332). -/
def State.dropRegion (chip region : Nat) (s : State) : State :=
  s.mapWhere (fun h => h.place.chip = chip) (fun h =>
    { h with lsu := { h.lsu with lease := h.lsu.lease.filter (fun l =>
      !inRegion region l.line || !l.dirty.isEmpty) } })

/-- A region becomes non-coherent (R211). (DEDUCED: log entry 79.) -/
def execNcrqMakeNoncoherent (part : Nat) : Sem := fun s =>
  match s.hub.ncrq part 1 with
  | none => .next s
  | some (v, region) =>
    let rs := s.hub.regions
    let versions := s.hub.versions.any (fun x => x.part = part && inRegion region x.line)
    let ok := (s.hub.partChips part).contains (8 + v) && (s.hub.loc (region * 2 ^ 21)).leasable
      && s.hub.ofPart s.free part (region * 2 ^ 21) 512
      && (rs.contains (v, region) || (rs.filter (fun (r : Nat × Nat) => r.1 = v)).length < 1024) && !versions
    if !ok then .next (s.endNcrq part 3)
    else
      let s := s.dropRegion (8 + v) region
      let rs := if rs.contains (v, region) then rs else rs ++ [(v, region)]
      .next ({ s with hub := { s.hub with regions := rs } }.endNcrq part 2)

/-- A region becomes I/O-coherent, unless the chiplet holds dirty lines of it (R211). -/
def execNcrqMakeCoherent (part : Nat) : Sem := fun s =>
  match s.hub.ncrq part 0 with
  | none => .next s
  | some (v, region) =>
    let dirty := s.harts.any (fun h => h.place.chip = 8 + v
      && h.lsu.lease.any (fun l => inRegion region l.line && !l.dirty.isEmpty))
    if dirty ∨ !(s.hub.partChips part).contains (8 + v) then .next (s.endNcrq part 3)
    else
      let s := s.dropRegion (8 + v) region
      .next ({ s with hub := { s.hub with
        regions := s.hub.regions.filter (fun r => r ≠ (v, region)) } }.endNcrq part 2)

/-! ### `CHCTL` (R359, R360) -/

/-- A command of `CHCTL` on a chiplet is being carried out. -/
def Hub.chctlIs (hb : Hub) (cmd chip : Nat) : Bool :=
  let r := hb.mon.chctl
  wbits 63 62 r = 1 && wbits 11 8 r = cmd && wbits 3 0 r = chip

/-- Ends the command with ST and CAUSE. -/
def State.endChctl (st cause : Nat) (s : State) : State :=
  s.setMon (fun m => { m with chctl := setBits 55 52 cause (endCmd st m.chctl) })

/-- `CHST` of a chiplet: STATE, the holding partition and FAILED (R360). A change of STATE or FAILED raises
CHIPEV (R339). (DEDUCED: log entry 81.) -/
def State.setChst (chip st part : Nat) (failed : Bool) (s : State) : State :=
  if g : chip < 15 then
    let old := s.hub.mon.chst[chip]'g
    let w := BitVec.ofNat 64 (st + part * 2 ^ 4 + failed.toNat * 2 ^ 8)
    let s := s.setMon (fun m => { m with chst := m.chst.set chip w g })
    if wbits 2 0 old = st ∧ wbits 8 8 old = failed.toNat then s else State.raiseBy s.hub.mon.mevc 4 s
  else s

/-- The partition that holds a chiplet. -/
def Hub.holder (hb : Hub) (chip : Nat) : Nat := if g : chip < 15 then wbits 7 4 (hb.mon.chst[chip]'g) else 0

/-- Sets or clears a bit of `PCHIP` of a partition. -/
def State.setPchip (part bit : Nat) (on : Bool) (s : State) : State :=
  s.setPart part (fun r => { r with pchip := setBits bit bit on.toNat r.pchip })

/-- A command on a Press or Vat chiplet; Newel, Arcade and chiplet 15 refuse it with cause 2. -/
def onChiplet (cmd chip : Nat) (k : Sem) : Sem := fun s =>
  if !s.hub.chctlIs cmd chip then .next s
  else if 12 ≤ chip then .next (s.endChctl 3 2)
  else k s

/-- Every gang on a chiplet is pre-empted by the monitor (R279, R360). -/
def State.vacate (chip : Nat) (s : State) : State :=
  { s with hub := { s.hub with launches := s.hub.launches.map (fun l =>
    { l with gangs := l.gangs.map (fun g =>
        if g.chip = chip ∧ g.st = .placed then
          { g with st := .saving .monitor, waitSince := g.since, since := s.hub.clk }
        else g) }) } }

/-- Assign (R360). -/
def execChctlAssign (chip part : Nat) : Sem :=
  onChiplet 0 chip (fun s =>
    let p := wbits 19 16 s.hub.mon.chctl
    let st := s.hub.chipState chip
    if p ≠ part then .next s
    else if st = 2 ∧ s.hub.holder chip ≠ p then .next (s.endChctl 3 3)
    else if st ≠ 1 then .next (s.endChctl 3 1)
    else .next (((s.setChst chip 2 p false).setPchip p chip true).endChctl 2 0))

/-- A command of `CHCTL` beyond those of R359 is carried out on a chiplet. (DEDUCED: log entry 80.) -/
def Hub.chctlOdd (hb : Hub) (chip : Nat) : Bool :=
  let r := hb.mon.chctl
  wbits 63 62 r = 1 && 6 < wbits 11 8 r && wbits 3 0 r = chip

/-- Unassign (R360). A command beyond those of R359 is refused here, by the same event. -/
def execChctlUnassign (chip : Nat) : Sem := fun s =>
  if s.hub.chctlOdd chip then .next (s.endChctl 3 (if 12 ≤ chip then 2 else 1))
  else onChiplet 1 chip (fun s =>
    if s.hub.chipState chip ≠ 2 then .next (s.endChctl 3 1)
    else
      let p := s.hub.holder chip
      .next ((((s.vacate chip).setPchip p chip false).setChst chip 1 0 false).endChctl 2 0)) s

/-- The capability record that a chiplet presents is the one that the configuration record in force asks for, its
coherence class among the rest (R32, R33, R360). (DEDUCED: log entry 81.) -/
def Hub.recordAgrees (hb : Hub) (chip : Nat) : Bool := (Config.presented chip).toNat = hb.capRecord chip

/-- Enumerate (R33, R360): a Vat chiplet comes up I/O-coherent. -/
def execChctlEnumerate (chip : Nat) : Sem :=
  onChiplet 4 chip (fun s =>
    if s.hub.chipState chip ≠ 0 then .next (s.endChctl 3 1)
    else if !s.hub.recordAgrees chip then .next ((s.setChst chip 0 0 true).endChctl 3 4)
    else
      let s := { s with hub := { s.hub with
        regions := s.hub.regions.filter (fun (r : Nat × Nat) => 8 + r.1 ≠ chip) } }
      .next ((s.setChst chip 1 0 false).endChctl 2 0))

/-- Reset of an isolated chiplet (R284, R360): state 5 first, then every bank and all tread state is
cleared, and state 0. -/
def execChctlReset (chip : Nat) : Sem :=
  onChiplet 3 chip (fun s =>
    let st := s.hub.chipState chip
    if st = 4 then .next (s.setChst chip 5 0 false)
    else if st ≠ 5 then .next (s.endChctl 3 1)
    else
      let hb := s.hub.zeroRange (apertureBase chip 0) (2 ^ 32)
      let mine (k : Nat) : Bool := k / 4096 = chip
      let hb := { hb with
        banks := NMap.drop mine hb.banks, holders := NMap.drop (fun k => k / 128 = chip) hb.holders }
      let s := { s with hub := hb }
      let s := s.mapWhere (fun h => h.place.chip = chip) (fun h => { h with regs := Regs.zero })
      .next ((s.setChst chip 0 0 false).endChctl 2 0))

/-! ### Isolation (R361) -/

/-- A gang still holds flights of a chiplet. -/
def Hub.occupied (hb : Hub) (chip : Nat) : Bool :=
  hb.launches.any (fun l => l.gangs.any (fun g => g.onFlights && g.chip = chip))

/-- A save that has not finished 1,048,576 ticks after it began (R361). -/
def Gang.lateSave (clk : Nat) (g : Gang) : Bool :=
  match g.st with
  | .saving _ => decide (g.since + 1048576 ≤ clk)
  | _ => false

/-- A tread of a chiplet still has a drain, or stores that are not stamped. -/
def Hart.draining (chip : Nat) (h : Hart) : Bool :=
  h.place.chip = chip && !h.isCore && (h.units.eng.any EngOp.unfinished || !h.units.semOut.isEmpty
    || !h.lsu.writes.isEmpty || !h.lsu.vstores.isEmpty)

/-- The isolation of a chiplet that is in progress. -/
def Hub.isolation (hb : Hub) (chip : Nat) : Option Isolation := hb.isolations.find? (fun i => i.chip = chip)

/-- Changes the isolation of a chiplet. -/
def State.setIsolation (chip : Nat) (f : Isolation → Isolation) (s : State) : State :=
  { s with hub := { s.hub with isolations := s.hub.isolations.map (fun i => if i.chip = chip then f i else i) } }

/-- Isolate (R360, R361): the chiplet leaves its partition and its gangs are saved or killed; then its drains
end; then every lease-cache line is invalidated and its link closes. -/
def execChctlIsolate (chip : Nat) : Sem :=
  onChiplet 2 chip (fun s =>
    match s.hub.isolation chip with
    | none =>
      let st := s.hub.chipState chip
      if st ≠ 1 ∧ st ≠ 2 then .next (s.endChctl 3 1)
      else
        let p := s.hub.holder chip
        let s := if st = 2 then s.setPchip p chip false else s
        let i : Isolation := { chip := chip, since := s.hub.clk, killed := false, drain := none }
        let s := (s.vacate chip).setChst chip 3 0 false
        .next { s with hub := { s.hub with isolations := s.hub.isolations ++ [i] } }
    | some i =>
      if s.hub.occupied chip then .next (s.vacate chip)
      else if i.drain.isNone then
        .next ((s.backsAt chip (fun _ => true)).setIsolation chip (fun i => { i with drain := some s.hub.clk }))
      else if s.harts.any (Hart.draining chip) then .next s
      else
        let s := s.mapWhere (fun h => h.place.chip = chip) (fun h => { h with lsu := { h.lsu with lease := [] } })
        let s := { s with hub := { s.hub with
          isolations := s.hub.isolations.filter (fun x => x.chip ≠ chip) } }
        .next ((s.setChst chip 4 0 false).endChctl 2 (if i.killed then 5 else 0)))

/-- A save on the chiplet, whatever it was begun for, that has not finished 1,048,576 ticks after it began: the gang is
killed (R361), and a command of `PREQ` that asked for it ends. -/
def execIsolationSaveTimeout (chip : Nat) : Sem := fun s =>
  if (s.hub.isolation chip).isNone then .next s
  else
    let late := s.hub.launches.flatMap (fun l => (l.gangs.filter (fun g =>
      g.chip = chip && g.lateSave s.hub.clk)).map (fun g => (l, g)))
    .next (late.foldl (fun s e => match e.2.st with
      | .saving why => (s.killGang e.1.id e.2.idx).preqDone e.1.part why 3 1
      | _ => s) s)

/-- Drains and stores not complete after 4,194,304 ticks fail with REFUSED (R361); write-backs of dirty bytes are never
discarded (R332). -/
def execIsolationDrainTimeout (chip : Nat) : Sem := fun s =>
  match s.hub.isolation chip with
  | none => .next s
  | some i =>
    match i.drain with
    | none => .next s
    | some t =>
      if s.hub.clk < t + 4194304 then .next s
      else
        let s := State.mapWhere (Hart.draining chip) (fun h =>
          { h.setFailure 2 with
            units := { h.units with
              semOut := [], pending := (h.setFailure 2).units.pending,
              eng := h.units.eng.map (fun o => if o.unfinished then { o with stat := .failed, tags := [] } else o) },
            lsu := { h.lsu with writes := h.lsu.writes.filter Write.isBack, vstores := [] } }) { s with hub := s.hub.restartInvs }
        .next s.settleBanks

/-! ### Ports (R360) -/

/-- A command on an Ethernet port: it is given to the Arcade that has the port. -/
def onPort (cmd port : Nat) (k : Sem) : Sem := fun s =>
  let r := s.hub.mon.chctl
  if wbits 63 62 r ≠ 1 ∨ wbits 11 8 r ≠ cmd ∨ wbits 31 24 r ≠ port then .next s
  else if wbits 3 0 r < 12 then .next (s.endChctl 3 1)
  else if wbits 3 0 r ≠ 13 + port / 12 then .next (s.endChctl 3 2)
  else k s

/-- The partition that holds a port. -/
def Hub.portHolder (hb : Hub) (port : Nat) : Option Nat :=
  (List.range 16).find? (fun p => (hb.part p).pchip.getLsbD (12 + port))

/-- Gives a free port to a partition (R360). -/
def execChctlAssignPort (port part : Nat) : Sem :=
  onPort 5 port (fun s =>
    let p := wbits 19 16 s.hub.mon.chctl
    if p ≠ part then .next s
    else match s.hub.portHolder port with
      | some q => .next (s.endChctl 3 (if q = p then 1 else 3))
      | none =>
        if s.hub.recBit (1440 + port) then .next ((s.setPchip p (12 + port) true).endChctl 2 0)
        else .next (s.endChctl 3 1))

/-- Takes a port back and puts its connections into error (R346, R360). -/
def execChctlUnassignPort (port : Nat) : Sem :=
  onPort 6 port (fun s =>
    match s.hub.portHolder port with
    | none => .next (s.endChctl 3 1)
    | some p =>
      let s := s.setPchip p (12 + port) false
      let cs := s.hub.conns.map (fun (c : Conn) => if c.part = p ∧ c.port = port then { c with err := true } else c)
      let s := { s with hub := { s.hub with conns := cs } }
      .next (s.endChctl 2 0))

/-! ### Newel cores (R362) -/

/-- A command of `NCORE` on a core is being carried out. -/
def Hub.ncoreIs (hb : Hub) (cmd core : Nat) : Bool :=
  let r := hb.mon.ncore
  wbits 63 62 r = 1 && wbits 8 8 r = cmd && wbits 4 0 r = core

/-- Ends the command. -/
def State.endNcore (st : Nat) (s : State) : State := s.setMon (fun m => { m with ncore := endCmd st m.ncore })

/-- Starts a halted core at M at `NCADDR` (R337, R362). (DEDUCED: log entry 82.) -/
def execNcoreStart (core : Nat) : Sem := fun s =>
  if !s.hub.ncoreIs 1 core then .next s
  else
    let halted : Bool := match s.hart? (.core core) with
      | some h => h.ctl.run = .halted
      | none => true
    let writes := ((s.hart? (.core core)).map (fun h => h.lsu.writes)).getD []
    if !halted ∨ !s.hub.recBit (1408 + core) then .next (s.endNcore 3)
    else if !writes.isEmpty then .next s
    else
      let new := Hart.coreStart core .detached (s.hub.mon.ncaddr.truncate 57) s.hub.mon.mvecg (s.hub.part 0).svecp
      let s := if (s.hart? (.core core)).isSome then s.mapHart (.core core) (fun _ => new)
        else { s with ring := s.ring ++ [new] }
      .next (s.endNcore 2)

/-- Halts a running core at a bundle boundary (R338, R362): stores already issued are stamped. -/
def execNcoreHalt (core : Nat) : Sem := fun s =>
  if !s.hub.ncoreIs 0 core then .next s
  else
    match s.hart? (.core core) with
    | some h =>
      if !h.live then .next (s.endNcore 3) else .next ((s.haltCore core).endNcore 2)
    | none => .next (s.endNcore 3)

end Sys2Proof.Machine
end

