-- ==== Sys2Proof/Machine/Crypto.lean ====
section
/-! DEFINITION. SHA-256, and signatures by RSASSA-PSS over a 3,072-bit modulus with SHA-256, MGF1 with SHA-256 and a
32-byte salt (R363). The spec names the algorithms; what they compute is that of their published standards, FIPS 180-4
and RFC 8017. (PRESUMED: log entry 122.) -/

namespace Sys2Proof.Machine

/-! ### SHA-256 -/

/-- The round constants of SHA-256, the first half. -/
def shaKLow : List (BitVec 32) :=
  [0x428a2f98, 0x71374491, 0xb5c0fbcf, 0xe9b5dba5, 0x3956c25b, 0x59f111f1, 0x923f82a4, 0xab1c5ed5,
   0xd807aa98, 0x12835b01, 0x243185be, 0x550c7dc3, 0x72be5d74, 0x80deb1fe, 0x9bdc06a7, 0xc19bf174,
   0xe49b69c1, 0xefbe4786, 0x0fc19dc6, 0x240ca1cc, 0x2de92c6f, 0x4a7484aa, 0x5cb0a9dc, 0x76f988da,
   0x983e5152, 0xa831c66d, 0xb00327c8, 0xbf597fc7, 0xc6e00bf3, 0xd5a79147, 0x06ca6351, 0x14292967]

/-- The round constants of SHA-256, the second half. -/
def shaKHigh : List (BitVec 32) :=
  [0x27b70a85, 0x2e1b2138, 0x4d2c6dfc, 0x53380d13, 0x650a7354, 0x766a0abb, 0x81c2c92e, 0x92722c85,
   0xa2bfe8a1, 0xa81a664b, 0xc24b8b70, 0xc76c51a3, 0xd192e819, 0xd6990624, 0xf40e3585, 0x106aa070,
   0x19a4c116, 0x1e376c08, 0x2748774c, 0x34b0bcb5, 0x391c0cb3, 0x4ed8aa4a, 0x5b9cca4f, 0x682e6ff3,
   0x748f82ee, 0x78a5636f, 0x84c87814, 0x8cc70208, 0x90befffa, 0xa4506ceb, 0xbef9a3f7, 0xc67178f2]

/-- The eight working words of SHA-256. -/
structure ShaWords where
  a : BitVec 32
  b : BitVec 32
  c : BitVec 32
  d : BitVec 32
  e : BitVec 32
  f : BitVec 32
  g : BitVec 32
  h : BitVec 32
  deriving DecidableEq, Repr

/-- The initial words. -/
def shaStart : ShaWords :=
  ⟨0x6a09e667, 0xbb67ae85, 0x3c6ef372, 0xa54ff53a, 0x510e527f, 0x9b05688c, 0x1f83d9ab, 0x5be0cd19⟩

/-- The next word of the schedule, from the words so far, the latest first. -/
def shaNext (ws : List (BitVec 32)) : BitVec 32 :=
  let x := ws.getD 14 0
  let y := ws.getD 1 0
  ws.getD 15 0 + (x.rotateRight 7 ^^^ x.rotateRight 18 ^^^ x >>> 3) + ws.getD 6 0
    + (y.rotateRight 17 ^^^ y.rotateRight 19 ^^^ y >>> 10)

/-- The 64 words of the schedule of a block of 64 bytes. -/
def shaSchedule (block : List Byte) : List (BitVec 32) :=
  let first := (List.range 16).map (fun k =>
    BitVec.ofNat 32 (((block.drop (4 * k)).take 4).foldl (fun n b => n * 256 + b.toNat) 0))
  ((List.range 48).foldl (fun ws _ => shaNext ws :: ws) first.reverse).reverse

/-- One round. -/
def ShaWords.round (x : ShaWords) (k w : BitVec 32) : ShaWords :=
  let t := x.h + (x.e.rotateRight 6 ^^^ x.e.rotateRight 11 ^^^ x.e.rotateRight 25)
    + ((x.e &&& x.f) ^^^ (~~~x.e &&& x.g)) + k + w
  let u := (x.a.rotateRight 2 ^^^ x.a.rotateRight 13 ^^^ x.a.rotateRight 22)
    + ((x.a &&& x.b) ^^^ (x.a &&& x.c) ^^^ (x.b &&& x.c))
  ⟨t + u, x.a, x.b, x.c, x.d + t, x.e, x.f, x.g⟩

/-- A block is taken in. -/
def ShaWords.block (x : ShaWords) (bs : List Byte) : ShaWords :=
  let y := (List.zip (shaKLow ++ shaKHigh) (shaSchedule bs)).foldl (fun y e => y.round e.1 e.2) x
  ⟨x.a + y.a, x.b + y.b, x.c + y.c, x.d + y.d, x.e + y.e, x.f + y.f, x.g + y.g, x.h + y.h⟩

/-- A number as `n` bytes, the most significant first. -/
def bigBytes (n v : Nat) : List Byte := (toBytes n v).reverse

/-- The number that bytes hold, the most significant first. -/
def bigNat (bs : List Byte) : Nat := leBytes bs.reverse

/-- SHA-256 of a message, as 32 bytes. -/
def sha256 (m : List Byte) : List Byte :=
  let p := m ++ 0x80#8 :: List.replicate ((119 - m.length % 64) % 64) 0#8 ++ bigBytes 8 (8 * m.length)
  let x := (List.range (p.length / 64)).foldl (fun x k => x.block ((p.drop (64 * k)).take 64)) shaStart
  [x.a, x.b, x.c, x.d, x.e, x.f, x.g, x.h].flatMap (fun w => bigBytes 4 w.toNat)

/-! ### RSASSA-PSS (R363) -/

/-- `b` to the power `e` modulo `n`, by at most `fuel` bits of `e`. -/
def powMod (n : Nat) : Nat → Nat → Nat → Nat
  | 0, _, _ => 1 % n
  | fuel + 1, b, e =>
    let r := powMod n fuel (b * b % n) (e / 2)
    if e % 2 = 1 then r * b % n else r

/-- The mask that MGF1 makes of a seed. -/
def mgf1 (seed : List Byte) (len : Nat) : List Byte :=
  ((List.range ((len + 31) / 32)).flatMap (fun k => sha256 (seed ++ bigBytes 4 k))).take len

/-- The hash that binds a message to a salt. -/
def pssHash (m salt : List Byte) : List Byte := sha256 (List.replicate 8 0#8 ++ sha256 m ++ salt)

/-- The bytes that a 351-byte data block and a hash are encoded in, or decoded from: the top bit is clear. -/
def pssMask (db h : List Byte) : List Byte :=
  match List.zipWith (· ^^^ ·) db (mgf1 h 351) with
  | x :: r => (x &&& 0x7f#8) :: r
  | [] => []

/-- The encoding of a message with a salt, 384 bytes. -/
def pssEncode (m salt : List Byte) : List Byte :=
  let h := pssHash m salt
  pssMask (List.replicate 318 0#8 ++ 1#8 :: salt) h ++ h ++ [0xbc#8]

/-- Whether 384 bytes encode a message. -/
def pssDecodes (m em : List Byte) : Bool :=
  let masked := em.take 351
  let h := (em.drop 351).take 32
  let db := pssMask masked h
  em.length = 384 && em.getLastD 0#8 = 0xbc#8 && (masked.headD 0xff#8).toNat < 128
    && db.take 319 = List.replicate 318 0#8 ++ [1#8] && h = pssHash m (db.drop 319)

/-- A signature of 384 bytes verifies a message under a public modulus of 3,072 bits, with the exponent 65,537. -/
def rsaVerifies (n : Nat) (m sig : List Byte) : Bool :=
  2 ^ 3071 ≤ n && n < 2 ^ 3072 && sig.length = 384 && bigNat sig < n
    && pssDecodes m (bigBytes 384 (powMod n 17 (bigNat sig) 65537))

/-- The signature of a message under a modulus with its private exponent and a salt. -/
def rsaSign (n d : Nat) (m salt : List Byte) : List Byte :=
  bigBytes 384 (powMod n 3072 (bigNat (pssEncode m salt)) d)

end Sys2Proof.Machine
end

