-- ==== Sys2Proof/Machine/Power.lean ====
section
/-! DEFINITION. Power (R424 to R430), boot (R363 to R366), package reset, and the messages that the
management interface answers, those of SPDM among them (R367, R430). -/

namespace Sys2Proof.Machine

/-! ### Islands (R426, R427) -/

/-- An island holds work: a gang's flight, or a Newel core that has not halted (R427).
(DEDUCED: log entry 123.) -/
def State.islandWorks (i : Nat) (s : State) : Bool :=
  if 88 ≤ i then s.harts.any (fun h => h.id = .core (i - 88) && h.ctl.run ≠ .halted)
  else s.hub.usedFlights.any (fun f => flightIsland f.1 f.2 = i)

/-- The target level of an island (R427). -/
def State.islandTarget (i : Nat) (s : State) : Nat :=
  let x := s.hub.island i
  let t := Nat.min x.req x.cap
  if t = 0 ∧ s.islandWorks i then 1 else t

/-- Changes an island. -/
def State.setIsland (i : Nat) (x : Island) (s : State) : State :=
  { s with hub := { s.hub with isl := NMap.put Island.zero i x s.hub.isl } }

/-- A level change of a requestable island begins, or ends within 4,000 ticks (R427). -/
def execIslandLevelChange (isl : Nat) : Sem := fun s =>
  if 120 ≤ isl then .next s
  else
    let x := s.hub.island isl
    match x.chg with
    | some (t, tick) =>
      if s.hub.clk < tick then .next s else .next (s.setIsland isl { x with cur := t, chg := none })
    | none =>
      let t := s.islandTarget isl
      if t = x.cur then .next s
      else
        let (n, s) := s.fresh
        .next (s.setIsland isl { x with chg := some (t, s.hub.clk + n % 4001) })

/-- An island's clock is stopped by a change in progress (R427). -/
def Hub.islandStopped (hb : Hub) (i : Nat) : Bool := (hb.island i).chg.isSome

/-! ### The power limit (R428) -/

/-- The limit in force, in watts. -/
def Hub.powerLimit (hb : Hub) : Nat := Nat.min (wbits 15 0 hb.mon.pwrctl) (wbits 47 32 hb.mon.pwrctl)

/-- Every requestable island whose CAP is `from_` takes the CAP `to_`. -/
def Hub.moveCaps (from_ to_ : Nat) (hb : Hub) : Hub :=
  { hb with isl := (List.range 120).foldl (fun m i =>
      let x := NMap.get Island.zero i m
      if x.cap = from_ then NMap.put Island.zero i { x with cap := to_ } m else m) hb.isl }

/-- CAP of the requestable islands. -/
def Hub.caps (hb : Hub) : List Nat := (List.range 120).map (fun i => (hb.island i).cap)

/-- The highest CAP is lowered by one, never below 1 (R428). (DEDUCED: log entry 84.) -/
def Hub.lowerCaps (hb : Hub) : Hub :=
  let m := hb.caps.foldl Nat.max 1
  if m ≤ 1 then hb else hb.moveCaps m (m - 1)

/-- The lowest CAP is raised by one (R428). -/
def Hub.raiseCaps (hb : Hub) : Hub :=
  let m := hb.caps.foldl Nat.min 7
  if 7 ≤ m then hb else hb.moveCaps m (m + 1)

/-- What the junction sensors of a reading read, in m°C: the temperatures of the islands and the stacks (R425, R429).
(DEDUCED: log entry 84.) -/
def junctions (r : PowerReading) : List Nat :=
  (r.sample.filter (fun e => e.1 / 512 = 2 || e.1 / 512 = 3)).map (·.2)

/-- The package has no main power: nothing but the sensors and the management interface runs (R424, R425, R430). -/
def Hub.dark (hb : Hub) : Bool := hb.power.off || !hb.power.mainOn

/-- The package removes its main power, which it reports after its next reset (R425, R429). -/
def Hub.trip (hb : Hub) : Hub := { hb with power := { hb.power with off := true, tripped := true } }

/-- One sample of the power controller (R424, R425, R428, R429): a junction above 115 °C removes main power, and a power
or a junction above 105 °C lowers caps. Without main power the sensors are sampled all the same. -/
def execPowerControlSample (r : PowerReading) : Sem := fun s =>
  let hb := { s.hub with power := { s.hub.power with sample := (512, r.milliwatts) :: r.sample } }
  if !hb.power.standby then .next s
  else if hb.dark then .next { s with hub := hb }
  else if (junctions r).any (fun t => 115000 < t) then .next { s with hub := hb.trip }
  else
    let lim := 1000 * hb.powerLimit
    if lim < r.milliwatts ∨ (junctions r).any (fun t => 105000 < t) then
      .next { s with hub := { hb.lowerCaps with power := { hb.power with marginMs := 0 } } }
    else if 10 * r.milliwatts ≤ 9 * lim ∧ (junctions r).all (fun t => 10 * t ≤ 9 * 105000) then
      let n := Nat.min 10 (hb.power.marginMs + 1)
      let hb := { hb with power := { hb.power with marginMs := n } }
      .next { s with hub := if n = 10 then hb.raiseCaps else hb }
    else .next { s with hub := { hb with power := { hb.power with marginMs := 0 } } }

/-- A junction above 115 °C, or the loss of standby: main power goes at once (R425). Which of the two it is is open.
(DEDUCED: log entry 84.) -/
def execThermalTrip : Sem := fun s =>
  let rail := Config.freeBool s.free
  let hb := s.hub.trip
  .next { s with
    free := s.free + 1,
    hub := { hb with power := { hb.power with standby := hb.power.standby && rail } } }

/-- The main input goes off (R424, R430). -/
def execMainInputOff : Sem := fun s =>
  .next { s with hub := { s.hub with power := { s.hub.power with mainOn := false } } }

/-- Package reset (R360, R362, R364): every state is that of reset, but for the boot flash, the inputs still
to come and the counter of open choices; `BSTAT` reports a thermal trip before it (R429).
(DEDUCED: log entry 85.) -/
def execPackageReset : Sem := fun s =>
  let r := { State.reset with inbox := s.inbox, free := s.free }
  let r := { r with hub := { r.hub with flash := s.hub.flash } }
  .next (if s.hub.power.tripped then r.setMon (fun m => { m with bstat := setBits 23 16 5 m.bstat }) else r)

/-! ### Boot (R363 to R366) -/

/-- The reserved bits of a configuration record body (R365). -/
def recordReserved (r : Nat) : Bool :=
  bitsOf 1535 1464 r = 0 && bitsOf 127 96 r = 0 && bitsOf 63 48 r = 0
    && (List.range 4).all (fun c => bitsOf (896 + 128 * c + 127) (896 + 128 * c + 76) r = 0)
    && (List.range 8).all (fun c => bitsOf (384 + 64 * c + 63) (384 + 64 * c + 52) r = 0)

/-- The identity of the package that a record names (R365). -/
def packageId : List Byte :=
  sha256 ((List.range 15).flatMap (fun n => toBytes 8 (Config.serial n).toNat))

/-- The boot ROM accepts a configuration record (R366). -/
def recordValid (x : Config.Signed) : Bool :=
  let r := leBytes x.body
  let hb : Hub := { Hub.zero with record := x.body }
  rsaVerifies Config.rootModulus x.body x.sig && x.body.length = 192
    && bitsOf 31 0 r = 0x52464356 && bitsOf 47 32 r = 1 && recordReserved r
    && ((x.body.drop 16).take 32) = packageId
    && (List.range 8).all (fun c => (List.range 3).all (fun f => decide ((hb.chain c f).length ≤ 16)))
    && (List.range 4).all (fun v => (List.range 16).all (fun f => decide ((hb.chain (8 + v) f).length ≤ 4)))

/-- The sequence number of a record (R365). -/
def recordSeq (x : Config.Signed) : Nat := bitsOf 95 64 (leBytes x.body)

/-- The valid record with the greatest sequence number (R366). -/
def recordSelect (l : List Config.Signed) : Option Config.Signed :=
  (l.filter recordValid).foldl (fun (b : Option Config.Signed) x =>
    match b with
    | none => some x
    | some y => if recordSeq y < recordSeq x then some x else b) none

/-- A step of R364 is done. -/
def State.bootDone (n : Nat) (s : State) : State := s.setMon (fun m => { m with bstat := setBits 7 0 n m.bstat })

/-- A step of R364 fails, with CAUSE of `BSTAT` (R429). -/
def State.bootFail (cause : Nat) (s : State) : State :=
  s.setMon (fun m => { m with bstat := setBits 23 16 cause m.bstat })

/-- Boot has failed (R364). -/
def Hub.bootFailed (hb : Hub) : Bool :=
  let c := wbits 23 16 hb.mon.bstat
  1 ≤ c && c ≤ 4

/-- Where the hub places the devices on the tier-2 CXL ports, base and size (R24): in port order from the first
1 GiB boundary at or after the end of the one before; a device that would pass the 6,144 GiB is left
unmapped. (DEDUCED: log entry 92.) -/
def tier2Places : List (Nat × Nat) :=
  ((List.range 4).foldl (fun (a : Nat × List (Nat × Nat)) p =>
    let n := Config.cxlBytes p
    let b := (a.1 + gib - 1) / gib * gib
    if n = 0 ∨ 0x80000000000 < b + n then (a.1, a.2 ++ [(0, 0)]) else (b + n, a.2 ++ [(b, n)]))
    (0x20000000000 + lpBytes, [])).2

/-- The next step of the boot of R364. -/
def State.bootStep (s : State) : State :=
  let fl := s.hub.flash
  let signed (x : Config.Signed) : Bool := rsaVerifies Config.rootModulus x.body x.sig
  if s.hub.bootFailed then s
  else match wbits 7 0 s.hub.mon.bstat with
  | 0 =>
    match recordSelect fl.records with
    | none => s.bootFail 2
    | some x => State.bootDone 1 { s with hub := { s.hub with record := x.body } }
  | 1 => if fl.firmware.length = 3 ∧ fl.firmware.all signed then s.bootDone 2 else s.bootFail 1
  | 2 =>
    let c := Config.stackGiB 0
    let same := (List.range 12).all (fun k => Config.stackGiB k = c)
    if !same ∨ !(c = 64 ∨ c = 96 ∨ c = 128) then s.bootFail 3
    else if !Config.linksTrain then s.bootFail 4
    else
      let at_ (p : Fin 4) : Nat × Nat := tier2Places.getD p.val (0, 0)
      let s := s.setMon (fun m => { m with
        hbmcap := BitVec.ofNat 64 c,
        t2base := Vector.ofFn (fun p => BitVec.ofNat 64 (at_ p).1),
        t2size := Vector.ofFn (fun p => BitVec.ofNat 64 (at_ p).2) })
      State.bootDone 3 { s with hub := { s.hub with links := s.hub.links.mapIdx (fun k l =>
        { l with trained := true, far := Config.farPackage k % 64 }) } }
  | 3 =>
    match fl.owner with
    | some o => if signed o then s.bootDone 4 else s.bootFail 1
    | none => s.bootFail 1
  | 4 =>
    match fl.owner, fl.image with
    | some o, some i =>
      if !rsaVerifies (leBytes o.body) i.body i.sig then s.bootFail 1
      else
        let a := Config.imageBase i.body
        let s := { s with hub := { s.hub with mem := putBytes (locOf a) i.body s.hub.mem } }
        (s.bootDone 5).mapHart (.core 0) (fun h => { h with ctl := Ctl.start .detached (BitVec.ofNat 57 a) })
    | _, _ => s.bootFail 1
  | _ => s

/-! ### SPDM (R367) -/

/-- The digest that a measurement index reports (R364, R367), once it is there. -/
def State.measurement (i : Nat) (s : State) : Option (List Byte) :=
  let hb := s.hub
  let step := wbits 7 0 hb.mon.bstat
  let obj (n k : Nat) (o : Option Config.Signed) : Option (List Byte) :=
    if n ≤ step ∧ i = k then o.map (fun x => sha256 x.body) else none
  if i = 1 then some Config.bootRom
  else if i = 2 then (if 1 ≤ step then some (sha256 hb.record) else none)
  else if 3 ≤ i ∧ i ≤ 5 then obj 2 i hb.flash.firmware[i - 3]?
  else if i = 6 then obj 4 6 hb.flash.owner
  else if i = 7 then obj 5 7 hb.flash.image
  else if 16 ≤ i ∧ i < 32 then
    let d := NMap.get [] i hb.mext
    if d = [] then none else some d
  else none

/-- An SPDM connection of a port (0 the management interface, 1 and 2 the host ports). -/
def Hub.spdmOf (hb : Hub) (port : Nat) : Spdm :=
  (hb.spdm.find? (fun x => x.port = port)).getD
    { port := port, version := false, caps := false, algs := false, transcript := [] }

/-- Stores a connection and answers. -/
def State.spdmSet (x : Spdm) (r : Reply) (s : State) : State :=
  { s with hub := { s.hub with reply := r, spdm := x :: s.hub.spdm.filter (fun y => y.port ≠ x.port) } }

/-- A request that a port carries; the host ports answer only under main power (R424, R430).
(PRESUMED: log entry 86.) -/
def onSpdm (port : Nat) (ok : Spdm → Bool) (k : Spdm → Sem) : Sem := fun s =>
  if 3 ≤ port ∨ (port ≠ 0 ∧ s.hub.dark) then .next (s.tell .dropped)
  else
    let x := s.hub.spdmOf port
    if ok x then k x s else .next (s.tell .unsupported)

/-- A reply with data, which the transcript of the connection keeps. -/
def spdmData (x : Spdm) (bs : List Byte) : Sem := fun s =>
  .next (s.spdmSet { x with transcript := x.transcript ++ bs } (.data bs))

/-- The signature of a message with the device identity key, and a salt that is open (R363). -/
def State.identitySignature (m : List Byte) (s : State) : List Byte :=
  rsaSign Config.identityModulus Config.identityExponent m
    ((List.range 32).map (fun k => BitVec.ofNat 8 (freeAt s.free k)))

/-- A reply signed with the device identity key over the transcript and itself (R363, R367). -/
def spdmSigned (x : Spdm) (bs : List Byte) : Sem := fun s =>
  .next (State.spdmSet { x with transcript := [] } (.signed bs (s.identitySignature (x.transcript ++ bs)))
    { s with free := s.free + 1 })

/-- GET_VERSION: SPDM 1.2 and 1.3; the connection begins anew. -/
def execGetVersion (port : Nat) : Sem :=
  onSpdm port (fun _ => true) (fun x =>
    spdmData { x with version := true, caps := false, algs := false, transcript := [] } [0x12#8, 0x13#8])

/-- GET_CAPABILITIES: certificates, challenges and signed measurements. -/
def execGetCapabilities (port : Nat) : Sem :=
  onSpdm port (fun x => x.version) (fun x => spdmData { x with caps := true } [0x16#8])

/-- NEGOTIATE_ALGORITHMS: RSASSA-PSS 3,072 with SHA-256 alone. -/
def execNegotiateAlgorithms (port : Nat) (req : SpdmAlgs) : Sem :=
  onSpdm port (fun x => x.caps && req.rsassaPss3072 && req.sha256) (fun x =>
    spdmData { x with algs := true } [1#8, 1#8])

/-- GET_DIGESTS: the digest of the identity certificate. -/
def execGetDigests (port : Nat) : Sem :=
  onSpdm port (fun x => x.algs) (fun x s => spdmData x (sha256 s.hub.flash.identity) s)

/-- GET_CERTIFICATE: a part of the identity certificate. -/
def execGetCertificate (port off len : Nat) : Sem :=
  onSpdm port (fun x => x.algs) (fun x s => spdmData x ((s.hub.flash.identity.drop off).take len) s)

/-- CHALLENGE: signed with the device identity key. -/
def execChallenge (port : Nat) (nonce : List Byte) : Sem :=
  onSpdm port (fun x => x.algs) (fun x s => spdmSigned x (sha256 s.hub.flash.identity ++ nonce) s)

/-- The measurements that are there, by index. -/
def State.measurements (s : State) : List (Nat × List Byte) :=
  (List.range 32).filterMap (fun i => (s.measurement i).map (fun d => (i, d)))

/-- GET_MEASUREMENTS, signed: of one index; index 0 asks how many there are, and 255 for all of them.
(PRESUMED: log entry 86.) -/
def execGetMeasurements (port idx : Nat) (nonce : List Byte) : Sem :=
  onSpdm port (fun x => x.algs) (fun x s =>
    if idx = 0 then spdmSigned x (BitVec.ofNat 8 s.measurements.length :: nonce) s
    else if idx = 255 then
      spdmSigned x (s.measurements.flatMap (fun m => BitVec.ofNat 8 m.1 :: m.2) ++ nonce) s
    else match s.measurement idx with
    | some d => spdmSigned x (BitVec.ofNat 8 idx :: d ++ nonce) s
    | none => .next (s.tell .unsupported))

/-! ### Vendor messages (R430) -/

/-- Reads a telemetry value. -/
def execReadTelemetryMessage (kind idx : Nat) : Sem := fun s =>
  .next (s.tell (.word (BitVec.ofNat 64 (s.hub.telemetry kind idx))))

/-- Reads `BSTAT`. -/
def execReadBstatMessage : Sem := fun s => .next (s.tell (.word s.hub.mon.bstat))

/-- Sets `PWRCTL.OOB`, from 400 W to 65,535 W. -/
def execSetPwrctlOobMessage (watts : Nat) : Sem := fun s =>
  .next ((s.setMon (fun m =>
    { m with pwrctl := setBits 47 32 (Nat.min 65535 (Nat.max 400 watts)) m.pwrctl })).tell .done)

end Sys2Proof.Machine
end

