-- ==== Sys2Proof/Machine/CalTable.lean ====
section
/-! DEFINITION. What the calender knows of every slot operation (R309 to R311, R317): its guard and mark,
what it reads and writes, its exposed latency and its occupancy, and the operations that it evaluates. -/

namespace Sys2Proof.Machine

/-- A resource: class and half-open range. Classes 0 to 3 are s, g, p and m registers; 4 is the register
space by 4-byte unit; 5 the A tile that the matrix unit reads (R167); 6 a unit: 0 matrix, 1 load-store,
2 the closing mould (R179); 7 what the calender keeps besides: 0 `MEET`, 1 the run of the mould, 2 the counts of
`accept` (R177). -/
structure Res where
  cls : Nat
  lo : Nat
  hi : Nat
  deriving DecidableEq, Repr

/-- One register. -/
def Res.one (c n : Nat) : Res := { cls := c, lo := n, hi := n + 1 }

/-- Two resources overlap. -/
def Res.meets (a b : Res) : Bool := a.cls = b.cls && a.lo < b.hi && b.lo < a.hi

/-- A vector, tile or accumulator register in a hart's view (R68). -/
def Hart.space (cls base size n : Nat) : Res := { cls := cls, lo := base + size * n, hi := base + size * (n + 1) }

/-- A scalar or uniform source. -/
def Res.gs (u : Bool) (n : BitVec 6) : Res := Res.one u.toNat n.toNat

/-- A scalar source. -/
def Res.s (n : BitVec 6) : Res := Res.one 0 n.toNat

/-- A predicate source. -/
def Res.p (n : Nat) : Res := Res.one 2 (n % 8)

/-- A mask source. -/
def Res.m (n : Nat) : Res := Res.one 3 (n % 8)

/-- A destination as a resource. -/
def destRes (h : Hart) : Dest → Res
  | .s n => Res.one 0 n
  | .g n => Res.one 1 n
  | .p n => Res.one 2 n
  | .m n => Res.one 3 n
  | .v n => Hart.space 4 h.vBase 64 n
  | .t n => Hart.space 4 h.tBase 1024 n
  | .a n => Hart.space 4 h.aBase 8192 n
  | .spr n => Res.one 8 n

/-- The guard of a slot operation (R82). -/
def guardOf (i : Instr) : Guard := Guard.dec (encode i)

/-- The slot has the mark K, and it is set (R83). -/
def markK (sl : Slot) (i : Instr) : Bool :=
  (match sl with
    | .ct | .sa | .sb | .xf => true
    | _ => false) && bitAt 4 (encode i)

/-- The registers that an operation reads, its guard apart. -/
def readsOf (h : Hart) : Instr → List Res
  | .brR f | .callR f | .sleepUntil f | .vbankAcq f | .vbankRel f | .hypOpen f | .hypResolveConfirm f
  | .hypResolveRefute f => [Res.s f.a]
  | .barWait f | .hypEnter f => [Res.s f.a, Res.s f.b]
  | .loop f => [Res.s f.a]
  | .mouldOpen f => (List.range (f.imm.toNat + 1)).map (fun k => Hart.space 4 h.vBase 64 (f.a.toNat + k))
  | .mov f | .clz f | .ctz f | .popc f | .bswap f => [Res.gs f.ua f.a]
  | .sel pn f => [Res.gs f.ua f.a, Res.s f.b, Res.p pn.toNat]
  | .bfi f => [Res.gs f.ua f.a, Res.s f.b, Res.gs f.ud f.d]
  | .add f | .sub f | .and f | .or f | .xor f | .shl f | .shr f | .sra f | .mul f | .mulhs f | .mulhu f
  | .div f | .divu f | .rem f | .remu f | .min f | .max f | .minu f | .maxu f | .bfx f | .bfxu f
  | .cmpEq f | .cmpNe f | .cmpLt f | .cmpLe f | .cmpLtu f | .cmpLeu f => [Res.gs f.ua f.a, Res.s f.b]
  | .addi f | .andi f | .ori f | .xori f | .shli f | .shri f | .srai f | .muli f | .cmpiEq f | .cmpiNe f
  | .cmpiLt f | .cmpiLe f | .cmpiLtu f | .cmpiLeu f | .wrsr f => [Res.s f.a]
  | .movsh f => [Res.s f.d]
  | .pand f | .por f | .pxor f => [Res.p f.a.toNat, Res.p f.b.toNat]
  | .pnot f => [Res.p f.a.toNat]
  | .fsqrtF32 f | .fsqrtF64 f | .fcvt f => [Res.s f.a]
  | .ffmaF32 f | .ffmaF64 f => [Res.s f.a, Res.s f.b, Res.s f.d]
  | .faddF32 f | .fsubF32 f | .fmulF32 f | .fdivF32 f | .fminF32 f | .fmaxF32 f | .faddF64 f | .fsubF64 f
  | .fmulF64 f | .fdivF64 f | .fminF64 f | .fmaxF64 f | .fcmpEqF32 f | .fcmpLtF32 f | .fcmpLeF32 f
  | .fcmpUnF32 f | .fcmpEqF64 f | .fcmpLtF64 f | .fcmpLeF64 f | .fcmpUnF64 f | .tlbinv f =>
    [Res.s f.a, Res.s f.b]
  | .ldB f | .ldH f | .ldW f | .ldD f | .ldBu f | .ldHu f | .ldWu f | .pf f => [Res.gs f.ua f.a]
  | .stB f | .stH f | .stW f | .stD f => [Res.gs f.ua f.a, Res.s f.d]
  | .vld f => [Res.gs f.ua f.a, Res.m f.m.toNat]
  | .vst f => [Res.gs f.ua f.a, Res.m f.m.toNat, Hart.space 4 h.vBase 64 f.d.toNat]
  | .tld f => [Res.gs f.ua f.a, Res.s f.b]
  | .tst f => [Res.gs f.ua f.a, Res.s f.b, Hart.space 4 h.tBase 1024 f.d.toNat]
  | .vgath f => [Res.gs f.ua f.a, Res.m f.m.toNat, Hart.space 4 h.vBase 64 f.b.toNat]
  | .vscat f => [Res.gs f.ua f.a, Res.m f.m.toNat, Hart.space 4 h.vBase 64 f.b.toNat,
      Hart.space 4 h.vBase 64 f.d.toNat]
  | .amoCas f | .monWait f => [Res.gs f.ua f.a, Res.s f.b, Res.s f.d]
  | .amoAdd f | .amoMin f | .amoMax f | .amoMinu f | .amoMaxu f | .amoAnd f | .amoOr f | .amoXor f
  | .amoXchg f | .redAdd f | .redMin f | .redMax f | .redAnd f | .redOr f | .redXor f
  | .flushRegion f => [Res.gs f.ua f.a, Res.s f.b]
  | .vadd f | .vsub f | .vmul f | .vmin f | .vmax f | .vand f | .vor f | .vxor f | .vshl f | .vshr f
  | .vperm f =>
    [Res.m f.m.toNat, Hart.space 4 h.vBase 64 f.a.toNat, Hart.space 4 h.vBase 64 f.b.toNat]
  | .vfma f => [Res.m f.m.toNat, Hart.space 4 h.vBase 64 f.a.toNat, Hart.space 4 h.vBase 64 f.b.toNat,
      Hart.space 4 h.vBase 64 f.c.toNat]
  | .vsel f => [Res.m f.m.toNat, Res.m f.c.toNat, Hart.space 4 h.vBase 64 f.a.toNat,
      Hart.space 4 h.vBase 64 f.b.toNat]
  | .vabs f | .vneg f | .vnot f | .vmov f | .vrcp f | .vrsqrt f | .vsqrt f | .vexp2 f | .vlog2 f
  | .vtanh f | .vsin f | .vcos f | .vcvt f | .vrot f =>
    [Res.m f.m.toNat, Hart.space 4 h.vBase 64 f.a.toNat]
  | .vquant f | .vdequant f => [Res.m f.m.toNat, Hart.space 4 h.vBase 64 f.a.toNat,
      Hart.space 4 h.vBase 64 f.c.toNat]
  | .vredAdd f | .vredMin f | .vredMax f => [Res.m f.m.toNat, Hart.space 4 h.vBase 64 f.a.toNat,
      Hart.space 4 h.vBase 64 f.d.toNat]
  | .vmovi f => [Res.m f.m.toNat]
  | .vrng f => Res.m f.m.toNat :: (if f.t = 0#3 ∨ f.t = 4#3 then [] else [Res.one 7 2])
  | .vcmpEq f | .vcmpNe f | .vcmpLt f | .vcmpLe f => [Res.m f.m.toNat, Res.m f.d.toNat,
      Hart.space 4 h.vBase 64 f.a.toNat, Hart.space 4 h.vBase 64 f.b.toNat]
  | .accept f => [Res.m f.m.toNat, Hart.space 4 h.vBase 64 f.a.toNat]
  | .mand f | .mor f | .mxor f | .mandn f => [Res.m f.a.toNat, Res.m f.b.toNat]
  | .mnot f => [Res.m f.a.toNat]
  | .xBcast f => [Res.gs f.ua f.a]
  | .xFirst f => [Hart.space 4 h.vBase 64 f.a.toNat, Res.m f.b.toNat]
  | .xLane f | .xPass f => [Hart.space 4 h.vBase 64 f.a.toNat]
  | .xAny f | .xAll f | .xNone f | .xCnt f => [Res.m f.a.toNat]
  | .mma f => [Hart.space 4 h.tBase 1024 f.ta.toNat, Hart.space 4 h.aBase 8192 f.ac.toNat]
  | .mmaQ f => [Res.s f.a, Res.s f.b, Hart.space 4 h.tBase 1024 f.ta.toNat,
      Hart.space 4 h.aBase 8192 f.ac.toNat]
  | .accLd f | .omSet f => [Res.s f.a, Res.s f.b]
  | .accSt f => [Res.s f.a, Res.s f.b, Hart.space 4 h.aBase 8192 f.ac.toNat]
  | .accCvt f => [Hart.space 4 h.aBase 8192 f.ac.toNat]
  | .copyGv f | .copyVg f | .copyVv f | .copyGg f | .copyTile f | .copyIdx f | .netPut f | .netGet f =>
    [Res.s f.a, Res.s f.b, Res.s f.c]
  | .copyCheck f | .grpRed f => [Res.s f.a]
  | .semAdd f | .semSub f | .semSet f => [Res.s f.a, Res.s f.d]
  | .sigWr f => [Res.s f.a, Res.s f.b]
  | _ => []

/-- The exposed latency of an operation whose latency does not depend on an address (R134, R143, R155,
R166, R222, R242, R303). -/
def latencyOf (h : Hart) : Instr → Nat
  | .mul _ | .mulhs _ | .mulhu _ | .muli _ => 3
  | .div _ | .divu _ | .rem _ | .remu _ => 20
  | .faddF32 _ | .fsubF32 _ | .fmulF32 _ | .ffmaF32 _ | .fminF32 _ | .fmaxF32 _ | .fcvt _ => 4
  | .fdivF32 _ | .fsqrtF32 _ => 12
  | .faddF64 _ | .fsubF64 _ | .fmulF64 _ | .ffmaF64 _ | .fminF64 _ | .fmaxF64 _ => 6
  | .fdivF64 _ | .fsqrtF64 _ => 24
  | .fcmpEqF32 _ | .fcmpLtF32 _ | .fcmpLeF32 _ | .fcmpUnF32 _ | .fcmpEqF64 _ | .fcmpLtF64 _
  | .fcmpLeF64 _ | .fcmpUnF64 _ => 2
  | .amoAdd _ | .amoMin _ | .amoMax _ | .amoMinu _ | .amoMaxu _ | .amoAnd _ | .amoOr _ | .amoXor _
  | .amoXchg _ | .amoCas _ => 128
  | .vadd f | .vsub f | .vmul f | .vfma f | .vmin f | .vmax f | .vabs f | .vneg f => f.lat
  | .vand _ | .vor _ | .vxor _ | .vnot _ | .vmov _ | .vsel _ | .vshl _ | .vshr _ | .vcmpEq _ | .vcmpNe _
  | .vcmpLt _ | .vcmpLe _ | .vmovi _ | .vperm _ | .vrot _ => 2
  | .vrcp _ | .vrsqrt _ | .vsqrt _ | .vexp2 _ | .vlog2 _ | .vtanh _ | .vsin _ | .vcos _ | .accept _ => 12
  | .vcvt _ | .vquant _ | .vdequant _ => 4
  | .vredAdd _ | .vredMin _ | .vredMax _ => 8
  | .vrng f => if f.t = 0#3 ∨ f.t = 4#3 then 8 else 2
  | .xBcast _ | .xFirst _ | .xLane _ => 3
  | .xAny _ | .xAll _ | .xNone _ | .xCnt _ => flagLat h
  | .mma _ | .mmaQ _ => (mxTime (32, 40) (256, 264) h).2
  | .accClr _ => 2
  | .accLd _ | .accSt _ => (mxTime (32, 40) (64, 72) h).2
  | .accCvt _ => (mxTime (16, 20) (32, 36) h).2
  | .copyCheck _ | .grpRed _ => 3
  | _ => 1

/-- The latencies of a load by address class (R222), and its base and offset where one address decides the
class. -/
def classOf : Instr → Option (List Nat × Option (Res × Int))
  | .ldB f | .ldH f | .ldW f | .ldD f | .ldBu f | .ldHu f | .ldWu f | .vld f =>
    some ([8, 14, 20], some (Res.gs f.ua f.a, f.off.toInt))
  | .tld f => some ([24, 30, 36], some (Res.gs f.ua f.a, f.off.toInt))
  | .vgath _ => some ([16, 22, 28], none)
  | _ => none

/-- The cycles for which an operation occupies its unit (R166, R223). -/
def occupancyOf (h : Hart) : Instr → Nat
  | .mma _ | .mmaQ _ => (mxTime (32, 40) (256, 264) h).1
  | .accLd _ | .accSt _ => (mxTime (32, 40) (64, 72) h).1
  | .accCvt _ => (mxTime (16, 20) (32, 36) h).1
  | .tld _ | .tst _ => 16
  | .vgath _ | .vscat _ => 4
  | _ => 1

/-- The A tile that a multiplication reads while it occupies the unit (R167). -/
def aTileOf (h : Hart) : Instr → List Res
  | .mma f | .mmaQ f => if f.ta = 8#4 then [] else [Hart.space 5 h.tBase 1024 f.ta.toNat]
  | _ => []

/-- The meanings of rows 0 to 12 of the scalar slots, which the calender evaluates (R309, R310). -/
def evalSem : Instr → Option Sem
  | .add f => some (execAdd f)
  | .sub f => some (execSub f)
  | .and f => some (execAnd f)
  | .or f => some (execOr f)
  | .xor f => some (execXor f)
  | .shl f => some (execShl f)
  | .shr f => some (execShr f)
  | .sra f => some (execSra f)
  | .mul f => some (execMul f)
  | .mulhs f => some (execMulhs f)
  | .mulhu f => some (execMulhu f)
  | .div f => some (execDiv f)
  | .divu f => some (execDivu f)
  | .rem f => some (execRem f)
  | .remu f => some (execRemu f)
  | .mov f => some (execMov f)
  | .min f => some (execMin f)
  | .max f => some (execMax f)
  | .minu f => some (execMinu f)
  | .maxu f => some (execMaxu f)
  | .bfx f => some (execBfx f)
  | .bfxu f => some (execBfxu f)
  | .bfi f => some (execBfi f)
  | .sel pn f => some (execSel pn f)
  | .addi f => some (execAddi f)
  | .andi f => some (execAndi f)
  | .ori f => some (execOri f)
  | .xori f => some (execXori f)
  | .shli f => some (execShli f)
  | .shri f => some (execShri f)
  | .srai f => some (execSrai f)
  | .muli f => some (execMuli f)
  | .movi f => some (execMovi f)
  | .movsh f => some (execMovsh f)
  | .clz f => some (execClz f)
  | .ctz f => some (execCtz f)
  | .popc f => some (execPopc f)
  | .bswap f => some (execBswap f)
  | .cmpEq f => some (execCmpEq f)
  | .cmpNe f => some (execCmpNe f)
  | .cmpLt f => some (execCmpLt f)
  | .cmpLe f => some (execCmpLe f)
  | .cmpLtu f => some (execCmpLtu f)
  | .cmpLeu f => some (execCmpLeu f)
  | .cmpiEq f => some (execCmpiEq f)
  | .cmpiNe f => some (execCmpiNe f)
  | .cmpiLt f => some (execCmpiLt f)
  | .cmpiLe f => some (execCmpiLe f)
  | .cmpiLtu f => some (execCmpiLtu f)
  | .cmpiLeu f => some (execCmpiLeu f)
  | .pand f => some (execPand f)
  | .por f => some (execPor f)
  | .pxor f => some (execPxor f)
  | .pnot f => some (execPnot f)
  | .faddF32 f => some (execFaddF32 f)
  | .fsubF32 f => some (execFsubF32 f)
  | .fmulF32 f => some (execFmulF32 f)
  | .ffmaF32 f => some (execFfmaF32 f)
  | .fdivF32 f => some (execFdivF32 f)
  | .fsqrtF32 f => some (execFsqrtF32 f)
  | .fminF32 f => some (execFminF32 f)
  | .fmaxF32 f => some (execFmaxF32 f)
  | .faddF64 f => some (execFaddF64 f)
  | .fsubF64 f => some (execFsubF64 f)
  | .fmulF64 f => some (execFmulF64 f)
  | .ffmaF64 f => some (execFfmaF64 f)
  | .fdivF64 f => some (execFdivF64 f)
  | .fsqrtF64 f => some (execFsqrtF64 f)
  | .fminF64 f => some (execFminF64 f)
  | .fmaxF64 f => some (execFmaxF64 f)
  | .fcmpEqF32 f => some (execFcmpEqF32 f)
  | .fcmpLtF32 f => some (execFcmpLtF32 f)
  | .fcmpLeF32 f => some (execFcmpLeF32 f)
  | .fcmpUnF32 f => some (execFcmpUnF32 f)
  | .fcmpEqF64 f => some (execFcmpEqF64 f)
  | .fcmpLtF64 f => some (execFcmpLtF64 f)
  | .fcmpLeF64 f => some (execFcmpLeF64 f)
  | .fcmpUnF64 f => some (execFcmpUnF64 f)
  | .fcvt f => some (execFcvt f)
  | _ => none

/-- The flag operations of the XF slot that the calender evaluates, with their result over `m0` (R310). -/
def evalFlag : Instr → Option Word
  | .xAny f | .xAll f => if f.a.toNat % 8 = 0 then some 1 else none
  | .xNone f => if f.a.toNat % 8 = 0 then some 0 else none
  | .xCnt f => if f.a.toNat % 8 = 0 then some 64 else none
  | _ => none

/-- The system register that an evaluated `rdsr` reads (R308, R310). -/
def evalSpr (h : Hart) : Instr → Option Word
  | .rdsr f =>
    (match f.imm.toNat with
      | 0x04 => some h.spr.flw
      | 0x07 => some h.spr.rise
      | 0x0c => some h.spr.prof
      | 0x0d => some h.spr.kcfg
      | _ => none)
  | _ => none

end Sys2Proof.Machine
end

