-- ==== Sys2Proof/Machine/CalStatic.lean ====
section
/-! DEFINITION. The calender's evaluation of a kernel (R308 to R316): the static state at every bundle and
context, which operations are evaluated, which are kept, and where residual control goes. -/

namespace Sys2Proof.Machine

/-! ### Contexts and the static state -/

/-- An enclosing iteration of a static loop, or a call site (R316). -/
inductive Frame where
  | iter (target branch n : Nat)
  | site (at_ : Nat)
  deriving DecidableEq, Repr

/-- An original bundle in a context; `cyc` is a sequencer cycle of an unrolled `loop` at that address with
its trip count (R314). -/
structure Key where
  ctx : List Frame
  addr : Nat
  cyc : Option (Nat × Nat)
  deriving DecidableEq, Repr

/-- An evaluated operation: its bundle and the header bit of its slot. -/
abbrev DefId := Key × Nat

/-- A static value: a word, or the residual return address of a call with the bundle after it (R313). -/
inductive SVal where
  | word (v : Word)
  | ret (call after : Key)
  deriving DecidableEq, Repr

/-- A register that is static, with the evaluated operations that may have written it. -/
structure Known where
  res : Res
  val : SVal
  defs : List DefId
  deriving DecidableEq, Repr

/-- A result in flight: cycles left, its value if it is static; `loose` if it may be absent, `unk` if its time
is not fixed (R317). -/
structure Fly where
  res : Res
  left : Nat
  val : Option SVal
  defs : List DefId
  loose : Bool
  unk : Bool
  deriving DecidableEq, Repr

/-- The static state (R308): static registers, results in flight, the calls whose return address `s63` may
hold (R312), the bundles that `MEET` may name, and the run of registers that the mould shadows, `none` if
it is not fixed. -/
structure Abs where
  regs : List Known
  fly : List Fly
  links : Option (List (Key × Key))
  meets : List Key
  mould : Option (Nat × Nat)
  deriving DecidableEq, Repr

/-- A static register with the operations that may have written it; `s0`, `p0` and `m0` are constants. -/
def Abs.known (st : Abs) (r : Res) : Option (SVal × List DefId) :=
  if r.lo = 0 ∧ (r.cls = 0 ∨ r.cls = 2 ∨ r.cls = 3) then
    some (.word (if r.cls = 0 then 0 else if r.cls = 2 then 1 else BitVec.allOnes 64), [])
  else (st.regs.find? (fun k => k.res = r)).map (fun k => (k.val, k.defs))

/-- A static register that holds a word. -/
def Abs.word (st : Abs) (r : Res) : Option Word :=
  match st.known r with
  | some (.word v, _) => some v
  | _ => none

/-- A guard that is static. -/
def Abs.guard (st : Abs) (g : Guard) : Option Bool :=
  (st.word (Res.p g.pred.toNat)).map (fun v => (v ≠ 0) ^^ g.neg)

/-- The operations whose result a read of registers takes. -/
def Abs.defsOf (st : Abs) (rs : List Res) : List DefId :=
  rs.flatMap (fun r => ((st.known r).map (·.2)).getD [])

/-- The operations whose result is in flight to registers that are read. -/
def Abs.lateOf (st : Abs) (rs : List Res) : List DefId :=
  (st.fly.filter (fun f => rs.any (fun r => r.meets f.res))).flatMap (·.defs)

/-- A result lands (R309); the operations that become needed are added. -/
def Abs.land (x : Abs × List DefId) (f : Fly) : Abs × List DefId :=
  let (st, need) := x
  if 3 < f.res.cls then x
  else
    let old := st.defsOf [f.res]
    let rest := st.regs.filter (fun k => k.res ≠ f.res)
    let links (v : Option SVal) : Option (List (Key × Key)) :=
      if f.res ≠ Res.one 0 63 then st.links
      else match v with
        | some (.ret c a) => some [(c, a)]
        | _ => none
    match f.val, f.loose with
    | some v, false =>
      ({ st with regs := { res := f.res, val := v, defs := f.defs } :: rest, links := links (some v) }, need)
    | _, l => ({ st with regs := rest, links := links none }, if l then need ++ old ++ f.defs else need)

/-- One cycle passes. -/
def Abs.tick (x : Abs × List DefId) : Abs × List DefId :=
  let fl := x.1.fly.map (fun f => { f with left := f.left - 1 })
  (fl.filter (fun f => f.left = 0)).foldl Abs.land
    ({ x.1 with fly := fl.filter (fun f => f.left ≠ 0) }, x.2)

/-- Cycles pass. -/
def Abs.pass : Nat → Abs × List DefId → Abs × List DefId
  | 0, x => x
  | n + 1, x => Abs.pass n (Abs.tick x)

/-- An unknown number of cycles passes, at least `n`. -/
def Abs.blur (n : Nat) (x : Abs × List DefId) : Abs × List DefId :=
  let (st, need) := Abs.pass n x
  let hit := (st.fly.filter (fun f => f.res.cls ≤ 3)).map (·.res)
  ({ st with
      regs := st.regs.filter (fun k => !hit.contains k.res),
      links := if hit.contains (Res.one 0 63) then none else st.links,
      fly := st.fly.map (fun f => { f with val := none, loose := true, unk := true }) },
    need ++ st.defsOf hit ++ st.fly.flatMap (·.defs))

/-- Two results in flight agree. -/
def Fly.same (a b : Fly) : Bool :=
  a.res = b.res && a.left = b.left && a.val = b.val && a.loose = b.loose && a.unk = b.unk

/-- Results in flight at a join: those on which both edges agree, and the others, which may be absent. -/
def joinFly (a b : List Fly) : List Fly :=
  let both := a.filterMap (fun f => (b.find? (fun g => f.same g)).map (fun g =>
    { f with defs := (f.defs ++ g.defs).eraseDups }))
  let odd := (a.filter (fun f => !b.any (fun g => f.same g)) ++ b.filter (fun f => !a.any (fun g => f.same g))).map
    (fun f => { f with val := none, loose := true })
  let merge (l : List Fly) (f : Fly) : List Fly :=
    if l.any (fun g => f.same g) then
      l.map (fun g => if f.same g then { g with defs := (g.defs ++ f.defs).eraseDups } else g)
    else l ++ [f]
  odd.foldl merge both

/-- The state at a join (R316): a register stays static where both edges bring the same value. -/
def Abs.join (a b : Abs) : Abs :=
  { regs := a.regs.filterMap (fun k => match b.regs.find? (fun x => x.res = k.res && x.val = k.val) with
      | some x => some { k with defs := (k.defs ++ x.defs).eraseDups }
      | none => none),
    fly := joinFly a.fly b.fly,
    links := match a.links, b.links with
      | some l, some m => some (l ++ m).eraseDups
      | _, _ => none,
    meets := (a.meets ++ b.meets).eraseDups,
    mould := if a.mould = b.mould then a.mould else none }

/-- The operations that an edge into a join makes needed (R316). -/
def Abs.lost (edge at_ : Abs) : List DefId :=
  (edge.regs.filter (fun k => !at_.regs.any (fun x => x.res = k.res && x.val = k.val))).flatMap (·.defs)
    ++ (edge.fly.filter (fun f => f.val.isSome && !at_.fly.any (fun g => f.same g))).flatMap (·.defs)

/-! ### Reading the binary -/

/-- What a run of the calender works on: the hub, the partition, a tread of the launch as it starts, and a
state in which it evaluates, and the residual return addresses of calls as far as they are known (R313). -/
structure CalEnv where
  hb : Hub
  fr : Nat
  part : Nat
  h : Hart
  s : State
  addrs : List (Key × Word)

/-- The word that a static register holds, where it is known: a return address by where its call lies (R313). -/
def CalEnv.word (e : CalEnv) (st : Abs) (r : Res) : Option Word :=
  match st.known r with
  | some (.word v, _) => some v
  | some (.ret c _, _) => (e.addrs.find? (fun x => x.1 = c)).map (·.2)
  | none => none

/-- A fetch line (R347 to R350, R418). -/
def CalEnv.line (e : CalEnv) (la : Nat) : Option (List Byte) :=
  if inVault la || inQuire la then none
  else match e.hb.xlateVa e.fr e.part 0 .fetch la with
    | .ok (pa, _) => if e.hb.readFailure pa = 0 then some (e.hb.hubBytes e.fr pa 64) else none
    | .error _ => none

/-- The lines that control may skip in a row: more than a kernel has (R416). -/
def padLimit : Nat := 2 ^ 18 + 1

/-- The address of the bundle that control to an address reaches, past line pads (R79). -/
def CalEnv.settle (e : CalEnv) : Nat → Nat → Nat
  | 0, a => a
  | n + 1, a =>
    match e.line (a / 64 * 64) with
    | none => a
    | some bs => if bs.getD (a % 64) 1#8 = 0#8 then e.settle n ((a / 64 + 1) * 64 % 2 ^ 57) else a

/-- The bytes at an address to the end of its line. -/
def CalEnv.bytes (e : CalEnv) (a : Nat) : Option (List Byte) := (e.line (a / 64 * 64)).map (·.drop (a % 64))

/-- The bundle at an address; `none` where it cannot be read or fails a check of R103 (R320). -/
def CalEnv.bundle (e : CalEnv) (a : Nat) : Option (Nat × List (Slot × Instr)) :=
  match e.bytes a with
  | none => none
  | some bs => match decodeBundle false (kernelCheck e.h) (a % 64) bs with
    | .bundle len ops => some (len, ops)
    | _ => none

/-- `n` bundles from an address on, and the address after them (R291). -/
def CalEnv.body (e : CalEnv) : Nat → Nat → Option (List (Nat × List Byte) × Nat)
  | 0, a => some ([], e.settle padLimit a)
  | n + 1, a =>
    let a := e.settle padLimit a
    match e.bytes a with
    | none => none
    | some bs =>
      match e.body n ((a + bundleLen (bs.headD 0#8).toNat) % 2 ^ 57) with
      | none => none
      | some (l, after) => some ((a, bs) :: l, after)

/-- The original bundles from one address to another, more than 32 as 33. -/
def CalEnv.span (e : CalEnv) : Nat → Nat → Nat → Nat
  | 0, _, _ => 0
  | n + 1, a, b =>
    let a := e.settle padLimit a
    if b < a then 0
    else match e.bytes a with
      | none => 0
      | some bs => 1 + e.span n ((a + bundleLen (bs.headD 0#8).toNat) % 2 ^ 57) b

/-! ### Control -/

/-- The iterations that end when control goes to an address outside their body (R315). -/
def leave (a : Nat) : List Frame → List Frame
  | .iter t b n :: r => if t ≤ a ∧ a ≤ b then .iter t b n :: r else leave a r
  | c => c

/-- Control goes to an address. -/
def CalEnv.goTo (e : CalEnv) (ctx : List Frame) (a : Nat) : Key :=
  let a := e.settle padLimit a
  { ctx := leave a ctx, addr := a, cyc := none }

/-- A resolved branch is taken (R315): one to an address at or below its own starts an iteration; with the
reasons of R320 that it meets. -/
def CalEnv.goBranch (e : CalEnv) (ctx : List Frame) (src a : Nat) : Key × List Nat :=
  let k := e.goTo ctx a
  if src < k.addr then (k, [])
  else
    let (ctx, n) : List Frame × Nat := match k.ctx with
      | .iter t b n :: r => if t = k.addr then (.iter t (Nat.max b src) (n + 1) :: r, n + 1)
        else (.iter k.addr src 1 :: k.ctx, 1)
      | c => (.iter k.addr src 1 :: c, 1)
    ({ k with ctx := ctx },
      (if 64 ≤ n then [3] else []) ++ (if 32 < e.span 33 k.addr src then [4] else []))

/-- The sequencer cycles of an unrolled loop (R291). -/
def seqCycles (n ii len : Nat) : Nat := (n - 1) * ii + len

/-- The body bundles that issue in a sequencer cycle (R291). -/
def seqIssuing (len ii n c : Nat) : List Nat :=
  (List.range len).filter (fun j => j ≤ c && (c - j) % ii = 0 && (c - j) / ii < n)

/-! ### One bundle -/

/-- What becomes of an operation: it is kept, evaluated, or deleted without a result. -/
inductive Act where
  | keep | fold | drop
  deriving DecidableEq, Repr

/-- An operation as the calender treats it: what it reads and writes with its latencies, its value if it is
evaluated, the evaluated operations whose results it reads, and those whose results are in flight to what
it reads. `j` is the body index of its slot, and `marked` that it has the mark and is not evaluated (R309). -/
structure OpInfo where
  slot : Slot
  ins : Instr
  j : Nat
  act : Act
  executes : Option Bool
  reads : List Res
  writes : List (Res × Nat)
  unk : Bool
  val : Option SVal
  need : List DefId
  late : List DefId
  marked : Bool
  deriving DecidableEq, Repr

/-- Where residual control goes after a bundle: on to one bundle; nowhere; from a kept transfer to the target
of its displacement, to other bundles and to the next one; from a kept loop to the bundle after the copy
of its body; from a `hold` with a dynamic guard. -/
inductive Succ where
  | one (k : Key)
  | stop
  | fork (disp : Option Key) (others : List Key) (fall : Option Key)
  | loop (body : List (Nat × List Byte)) (after : Key)
  | split (k : Key)
  deriving DecidableEq, Repr

/-- Two writes of one register in flight at once: the evaluated operations of the earlier and of the later one, none for
a kept one, and whether the later one lands first. -/
structure Clash where
  old : List DefId
  new : List DefId
  back : Bool
  deriving DecidableEq, Repr

/-- A bundle in a context as the calender leaves it: cycles before it issues and that it takes, whether the
former are not fixed, what is in flight at it, the operations that become needed, the writes of one register that meet
in flight, the operations whose results a copied loop body reads before they land, and the residual edges. -/
structure CalNode where
  key : Key
  before : Nat
  vague : Bool
  cycles : Nat
  ops : List OpInfo
  succ : Succ
  start : List Fly
  need : List DefId
  clash : List Clash
  late : List DefId
  edges : List (Key × Abs)
  reasons : List Nat
  deriving DecidableEq, Repr

/-- The result of an evaluated operation (R309) with its latency: the meaning itself, run on registers that
hold the static values. -/
def CalEnv.eval (e : CalEnv) (st : Abs) (i : Instr) : Option (Word × Nat) :=
  let w (c n : Nat) : Word := (e.word st (Res.one c n)).getD 0
  match evalSem i with
  | none => (evalFlag i <|> evalSpr e.h i).map (fun v => (v, latencyOf e.h i))
  | some f =>
    let h := Hart.coreStart 0 .detached 0 0 0
    let h := { h with regs := { h.regs with
      s := Vector.ofFn (fun n : Fin 64 => w 0 n.val), g := Vector.ofFn (fun n : Fin 32 => w 1 n.val),
      p := Vector.ofFn (fun n : Fin 8 => w 2 n.val ≠ 0) } }
    match f { e.s with me := h } with
    | .next t => (t.me.sched.pipe.getLast?).bind (fun p => match p.effs with
      | some [.s _ v] => some (v, p.left)
      | some [.g _ v] => some (v, p.left)
      | some [.p _ b] => some (BitVec.ofNat 64 b.toNat, p.left)
      | _ => none)
    | _ => none

/-- The latencies that a kept operation may have, and whether its address class is fixed (R222, R317). -/
def CalEnv.latencies (e : CalEnv) (st : Abs) (i : Instr) : List Nat × Bool :=
  match classOf i with
  | none => ([latencyOf e.h i], false)
  | some (ls, base) =>
    match base.bind (fun b => (st.word b.1).map (fun v => effAddr v b.2)) with
    | some a =>
      if !inVault a then ([ls.getD 1 0], false)
      else if a / 2 ^ 31 % 2 = 0 then ([ls.getD 0 0], false) else (ls, true)
    | none => (ls, true)

/-- A vector register may be shadowed by the mould. -/
def Abs.mayShadow (st : Abs) (h : Hart) (r : Res) : Bool :=
  match st.mould with
  | none => true
  | some (a, c) => r.meets { cls := 4, lo := h.vBase + 64 * a, hi := h.vBase + 64 * (a + c) }

/-- The occupancies and periods that an operation depends on (R317), and the registers that `accept` and `mould.cancel`
await, which have landed (R175, R179). -/
def CalEnv.depends (e : CalEnv) (st : Abs) (sl : Slot) (i : Instr) : List Res :=
  let ds := (i.dests.map (destRes e.h)).filter (fun r => r.cls = 4)
  let settles : Bool := match i with
    | .mouldCancel _ | .accept _ => true
    | _ => false
  let run := st.mould.getD (0, 64)
  let closing : Bool := match i with
    | .mouldOpen _ | .mouldCancel _ | .accept _ => true
    | _ => i.dests.any (fun d => match d with
        | .v _ => st.mayShadow e.h (destRes e.h d)
        | _ => false)
  (if sl = .mx then [Res.one 6 0] else []) ++ (if sl = .ls then [Res.one 6 1] else [])
    ++ ds.map (fun r => { r with cls := 5 }) ++ (if closing then [Res.one 6 2] else [])
    ++ (if settles then [{ cls := 4, lo := e.h.vBase + 64 * run.1, hi := e.h.vBase + 64 * (run.1 + run.2) }] else [])

/-- What a kept operation that executes leaves in flight: registers, occupancies, and the shadow that
`accept` settles. -/
def CalEnv.leaves (e : CalEnv) (st : Abs) (sl : Slot) (i : Instr) : List (Res × Nat × Bool × Bool) :=
  let (ls, unk) := e.latencies st i
  let last := ls.foldl Nat.max 0
  let occ := occupancyOf e.h i
  let regs := ((i.dests.filter Dest.counts).map (destRes e.h)).flatMap (fun r =>
    ls.map (fun l => (r, l, decide (l ≠ last), unk)))
  let units : List (Res × Nat × Bool × Bool) :=
    if occ ≤ 1 then []
    else (Res.one 6 (if sl = .mx then 0 else 1), occ, false, false)
      :: (aTileOf e.h i).map (fun r => (r, occ, false, false))
  let shadow : List (Res × Nat × Bool × Bool) := match i with
    | .accept _ =>
      let (a, c) := st.mould.getD (0, 64)
      [(Res.one 6 2, 12, false, false), (Res.one 7 2, 12, false, false),
        ({ cls := 4, lo := e.h.vBase + 64 * a, hi := e.h.vBase + 64 * (a + c) }, 12, false, false)]
    | _ => []
  regs ++ units ++ shadow

/-- How the calender treats an operation of any slot but one that moves control (R309 to R311). -/
def CalEnv.treat (e : CalEnv) (st : Abs) (o : Slot × Instr × Nat) : OpInfo :=
  let (sl, i, j) := o
  let g := (guardOf i)
  let gv := st.guard g
  let rs := readsOf e.h i
  let all := Res.p g.pred.toNat :: rs
  let base : OpInfo :=
    { slot := sl, ins := i, j := j, act := .keep, executes := gv, reads := all, writes := [], unk := false,
      val := none, need := st.defsOf all, late := st.lateOf all, marked := false }
  let kept : OpInfo :=
    if gv = some false then { base with reads := [Res.p g.pred.toNat] }
    else
      let ws := (e.leaves st sl i).map (fun w => (w.1, w.2.1))
      { base with reads := all ++ e.depends st sl i, writes := ws, unk := (e.latencies st i).2 }
  let able := (evalSem i).isSome || (evalFlag i).isSome || (evalSpr e.h i).isSome
  if !markK sl i ∨ !able ∨ gv.isNone then kept
  else
    let copied : Option SVal := match i with
      | .mov f => (st.known (Res.gs f.ua f.a)).map (·.1)
      | _ => none
    let ready := rs.all (fun r => (e.word st r).isSome)
    if !ready ∧ copied.isNone then { kept with marked := true }
    else if gv = some false then { base with act := .drop }
    else match (i.dests.filter Dest.counts).map (destRes e.h) with
      | d :: _ =>
        if ready then
          match e.eval st i with
          | some (v, l) => { base with act := .fold, writes := [(d, l)], val := some (.word v) }
          | none => { kept with marked := true }
        else { base with act := .fold, writes := [(d, 1)], val := copied }
      | [] => { base with act := .drop }

/-- What the operations of a bundle add to the results in flight. -/
def CalEnv.push (e : CalEnv) (key : Key) (st : Abs) (ops : List OpInfo) : List Fly :=
  ops.flatMap (fun o =>
    match o.act with
    | .drop => []
    | .fold => o.writes.map (fun w =>
        { res := w.1, left := w.2, val := o.val, defs := [(key, o.slot.bit)], loose := false, unk := false })
    | .keep =>
      if o.executes = some false ∧ !o.marked then []
      else (e.leaves st o.slot o.ins).map (fun w =>
        { res := w.1, left := w.2.1, val := none, defs := [], loose := w.2.2.1 || o.executes ≠ some true,
          unk := w.2.2.2 }))

/-- The writes in flight at a bundle that write a register as its own do. -/
def clashes (old new : List Fly) : List Clash :=
  new.flatMap (fun f => (old.filter (fun g => g.res = f.res && g.res.cls ≤ 3)).map (fun g =>
    { old := g.defs, new := f.defs, back := decide (f.left < g.left) }))

/-- The cycles for which an occupancy holds a bundle before it issues (R166, R223), and whether they are not
fixed. -/
def Abs.held (st : Abs) (ops : List (Slot × Instr × Nat)) : Nat × Bool :=
  ops.foldl (fun (a : Nat × Bool) o =>
    let u := if o.1 = .mx then some 0 else if o.1 = .ls then some 1 else none
    match u, st.guard (guardOf o.2.1) with
    | some _, some false | none, _ => a
    | some u, gv =>
      (st.fly.filter (fun f => f.res = Res.one 6 u)).foldl (fun (a : Nat × Bool) f =>
        if f.loose ∨ f.unk ∨ gv.isNone then (a.1, true) else (Nat.max a.1 f.left, a.2)) a) (0, false)

/-- What the CT operation of a bundle comes to: how it is kept, the cycles of the bundle, where control goes,
the edges, from the state after the bundle, what a copied loop body does to the results in flight in that state, and
the reasons of R320. -/
structure CtEnd where
  act : Act
  ins : Instr
  cycles : Nat
  succ : Succ
  edges : Abs × List DefId → List (Key × (Abs × List DefId))
  inside : Abs → List DefId × List Clash
  reasons : List Nat

/-- The operations of every bundle of a loop body, where all of them decode. -/
def CalEnv.bodyOps (e : CalEnv) (body : List (Nat × List Byte)) : Option (List (List (Slot × Instr))) :=
  body.foldr (fun b (r : Option (List (List (Slot × Instr)))) => match r, e.bundle b.1 with
    | some l, some (_, ops) => some (ops :: l)
    | _, _ => none) (some [])

/-- The state after a kept loop (R314): every register that its body writes is dynamic. -/
def CalEnv.afterLoop (e : CalEnv) (ops : List (List (Slot × Instr))) (x : Abs × List DefId) :
    Abs × List DefId :=
  let (st, need) := Abs.blur 1 x
  let len := ops.length
  let all := ops.flatMap id
  let ws := (all.flatMap (fun o => o.2.dests.filter Dest.counts)).map (destRes e.h)
  let rs := all.flatMap (fun o => Res.p (guardOf o.2).pred.toNat :: readsOf e.h o.2)
  let late := (ops.mapIdx (fun j os => os.flatMap (fun o =>
    (e.leaves st o.1 o.2).filterMap (fun w =>
      if w.2.1 ≤ len - j then none
      else some { res := w.1, left := w.2.1 - (len - j), val := none, defs := [], loose := true,
                  unk := w.2.2.2 : Fly })))).flatMap id
  ({ st with
      regs := st.regs.filter (fun k => !ws.contains k.res),
      links := if ws.contains (Res.one 0 63) then none else st.links,
      mould := if all.any (fun o => match o.2 with
        | .accept _ => true
        | _ => false) then none else st.mould,
      fly := st.fly ++ late },
    need ++ x.1.defsOf (ws ++ rs) ++ x.1.lateOf (ws ++ rs) ++ st.defsOf (ws ++ rs))

/-- What a kept loop, whose body is copied as it is (R314), does to the results in flight at its first cycle: those that
its body may read before they land, and those that land after a write of its body to the same register (R306, R311). -/
def CalEnv.inLoop (e : CalEnv) (ops : List (List (Slot × Instr))) (st : Abs) : List DefId × List Clash :=
  let rows := ops.mapIdx (fun j os => (j, os))
  let early (f : Fly) : Bool := rows.any (fun r => decide (r.1 < f.left) && r.2.any (fun o =>
    (Res.p (guardOf o.2).pred.toNat :: readsOf e.h o.2).any (fun x => x.meets f.res)))
  let beaten (f : Fly) : Bool := f.res.cls ≤ 3 && rows.any (fun r => r.2.any (fun o =>
    (e.leaves st o.1 o.2).any (fun w => w.1 = f.res && decide (r.1 + w.2.1 < f.left))))
  ((st.fly.filter early).flatMap (·.defs),
    (st.fly.filter beaten).map (fun f => { old := f.defs, new := [], back := true }))

/-- The CT operation of a bundle (R312 to R315). (DEDUCED: log entry 44.) -/
def CalEnv.control (e : CalEnv) (key : Key) (len : Nat) (st : Abs) (i : Instr) : CtEnd :=
  let gv := st.guard (guardOf i)
  let k := markK .ct i
  let sure : Bool := (guardOf i).pred = 0#3 && !(guardOf i).neg
  let next := e.goTo key.ctx (key.addr + len)
  let aim (d : BitVec 21) : Nat := ((BitVec.ofNat 57 key.addr) + d.signExtend 57).toNat
  let plain : CtEnd :=
    { act := .keep, ins := i, cycles := 1, succ := .one next, edges := fun x => [(next, x)],
      inside := fun _ => ([], []), reasons := [] }
  let resolved (t : Key) (rs : List Nat) : CtEnd :=
    { plain with act := .drop, succ := .one t, edges := fun x => [(t, x)], reasons := rs }
  let jump (a : Nat) : CtEnd :=
    let t := e.goBranch key.ctx key.addr a
    resolved t.1 t.2
  let both (t : Key) : CtEnd :=
    { plain with
      succ := .fork (some t) [] (if sure then none else some next),
      edges := fun x => (if sure then [] else [(next, x)]) ++ [(t, x)] }
  let calls (i : Instr) (a : Nat) : CtEnd :=
    let own := k && gv = some true
    let t : Key := if own then { ctx := .site key.addr :: key.ctx, addr := e.settle padLimit a, cyc := none }
      else e.goTo key.ctx a
    let enter (x : Abs × List DefId) : Abs × List DefId :=
      let rest := x.1.regs.filter (fun r => r.res ≠ Res.one 0 63)
      ({ x.1 with
          regs := if own then { res := Res.one 0 63, val := .ret key next, defs := [] } :: rest else rest,
          links := some [(key, next)] }, x.2)
    if k ∧ gv = some false then { plain with ins := i }
    else
      { plain with
        ins := i,
        succ := .fork (some t) [] (some next),
        edges := fun x => (if sure ∨ own then [] else [(next, x)]) ++ [(t, enter x)] }
  match i with
  | .br f =>
    if k ∧ gv = some false then { plain with act := .drop }
    else if k ∧ gv = some true then jump (aim f.disp)
    else both (e.goTo key.ctx (aim f.disp))
  | .call f => calls i (aim f.disp)
  | .brR f =>
    (match (if f.a = 63#6 then st.links else none), gv, st.known (Res.s f.a) with
      | some _, some false, _ => { plain with act := .drop }
      | some [(_, a)], some true, _ => resolved a []
      | some l, _, _ =>
        { plain with
          succ := .fork none (l.map (·.2)) (if gv = some true then none else some next),
          edges := fun x => (if gv = some true then [] else [(next, x)]) ++ l.map (fun c => (c.2, x)) }
      | none, some b, some (.word v, _) =>
        if !k then { plain with reasons := [5] }
        else if b then jump (v.toNat % 2 ^ 57) else { plain with act := .drop }
      | none, some b, some (.ret _ a, _) =>
        if !k then { plain with reasons := [5] }
        else if b then resolved a [] else { plain with act := .drop }
      | none, _, _ => { plain with reasons := [5] })
  | .callR f =>
    (match gv, st.known (Res.s f.a) with
      | some _, some (.word v, _) =>
        if k then calls (.call { gk := f.gk, disp := 0 }) (v.toNat % 2 ^ 57) else { plain with reasons := [5] }
      | some _, some (.ret _ a, _) =>
        if k then calls (.call { gk := f.gk, disp := 0 }) a.addr else { plain with reasons := [5] }
      | _, _ => { plain with reasons := [5] })
  | .loop f =>
    let n := f.len.toNat + 1
    (match e.body n ((key.addr + len) % 2 ^ 57) with
      | none => { plain with reasons := [9] }
      | some (body, after) =>
        let t := e.goTo key.ctx after
        let raw := body.map (fun b => (BitVec.ofNat 57 b.1, b.2))
        let copied : CtEnd := match e.bodyOps body with
          | none => { plain with reasons := [9] }
          | some ops =>
            { plain with
              succ := .loop body t,
              edges := fun x => [(t, e.afterLoop ops x)],
              inside := e.inLoop ops }
        match k, gv, st.word (Res.s f.a) with
        | true, some b, some v =>
          if !b ∨ v = 0 then resolved t []
          else if 64 < v.toNat then { plain with reasons := [3] }
          else if bodyOk (f.ii.toNat + 1) raw then resolved { key with cyc := some (0, v.toNat) } []
          else copied
        | _, _, _ => copied)
  | .hold f =>
    if gv = some true then { plain with cycles := f.imm.toNat + 1 }
    else if gv = some false then plain
    else { plain with succ := .split next, edges := fun x => [(next, Abs.blur 0 x)] }
  | .detach f =>
    let t := e.goTo key.ctx (aim f.disp)
    let meeting (x : Abs × List DefId) : Abs × List DefId := ({ x.1 with meets := [t] }, x.2)
    { plain with
      succ := .fork (some t) [] (some next),
      edges := fun x => [(next, meeting x), (t, meeting (Abs.blur 0 x))] }
  | .meet _ =>
    { plain with
      succ := .fork none st.meets (some next),
      edges := fun x => (next, x) :: st.meets.map (fun t => (t, Abs.blur 0 x)) }
  | .retire _ =>
    if sure then { plain with succ := .stop, edges := fun _ => [] }
    else { plain with succ := .fork none [] (some next) }
  | .hypEnter _ => { plain with reasons := [6] }
  | .mouldOpen f =>
    let run : Option (Nat × Nat) := if gv = some true then some (f.a.toNat, f.imm.toNat + 1) else none
    { plain with edges := fun x => [(next, ({ x.1 with mould := run }, x.2))] }
  | _ => plain

/-- A bundle in a context, from its static state (R309 to R316). -/
def CalEnv.visit (e : CalEnv) (key : Key) (st0 : Abs) : CalNode :=
  let none_ : CalNode :=
    { key := key, before := 0, vague := false, cycles := 1, ops := [], succ := .stop, start := st0.fly,
      need := [], clash := [], late := [], edges := [], reasons := [9] }
  match e.bundle key.addr with
  | none => none_
  | some (len, ops0) =>
    -- the operations, and for an unrolled loop those of its sequencer cycle and what comes after it
    let seq : Option (List (Slot × Instr × Nat) × Key) :=
      match key.cyc with
      | none => some (ops0.map (fun o => (o.1, o.2, 0)), e.goTo key.ctx (key.addr + len))
      | some (c, n) =>
        ops0.findSome? (fun o => match o.2 with
          | .loop f =>
            let k := f.len.toNat + 1
            let ii := f.ii.toNat + 1
            (e.body k ((key.addr + len) % 2 ^ 57)).bind (fun b => (e.bodyOps b.1).bind (fun bs =>
              let js := seqIssuing k ii n c
              let os := js.flatMap (fun j => ((bs[j]?).getD []).map (fun o => (o.1, o.2, j)))
              if clash (os.map (fun o => (o.1, o.2.1))) then none
              else some (Slot.all.flatMap (fun sl => os.filter (fun o => o.1 = sl && o.1 ≠ .ct)),
                if c + 1 < seqCycles n ii k then { key with cyc := some (c + 1, n) }
                else e.goTo key.ctx b.2)))
          | _ => none)
    match seq with
    | none => none_
    | some (ops, next) =>
      let (d, vague) := st0.held ops
      let (st, need0) := if vague then Abs.blur 0 (st0, []) else Abs.pass d (st0, [])
      let infos := ops.map (e.treat st)
      let ct := (ops.find? (fun o => o.1 = Slot.ct)).map (fun o => e.control key len st o.2.1)
      let infos := match ct with
        | none => infos
        | some c => infos.map (fun o =>
            if o.slot ≠ .ct then o
            else if c.ins = o.ins then { o with act := c.act }
            else
              let g := [Res.p (guardOf o.ins).pred.toNat]
              { o with act := c.act, ins := c.ins, reads := g, need := st.defsOf g, late := st.lateOf g })
      let fly := e.push key st (infos.filter (fun o => o.slot ≠ .ct || o.act ≠ .keep || (match o.ins with
        | .call _ | .callR _ => false
        | _ => true)))
      let clash := clashes st.fly fly
      let cycles := (ct.map (·.cycles)).getD 1
      let out := Abs.pass cycles ({ st with fly := st.fly ++ fly }, need0)
      let edges := match ct with
        | none => [(next, out)]
        | some c => c.edges out
      let inside := (ct.map (fun c => c.inside out.1)).getD ([], [])
      { key := key, before := d, vague := vague, cycles := cycles, ops := infos,
        succ := (ct.map (·.succ)).getD (.one next), start := st0.fly,
        need := edges.flatMap (fun x => x.2.2), clash := clash ++ inside.2,
        late := inside.1, edges := edges.map (fun x => (x.1, x.2.1)),
        reasons := (ct.map (·.reasons)).getD [] }

/-! ### The whole kernel -/

/-- The state at the entry (R308). -/
def calEntry (mask : Nat) (args : List Word) : Abs :=
  let known (c n : Nat) (v : Word) : Known := { res := Res.one c n, val := .word v, defs := [] }
  { regs := (List.range 63).map (fun n => known 0 (n + 1) 0)
      ++ ((List.range 16).filter (fun n => mask.testBit n)).map (fun n => known 1 n (args.getD n 0))
      ++ (List.range 16).map (fun n => known 1 (n + 16) 0)
      ++ (List.range 7).map (fun n => known 2 (n + 1) 0),
    fly := [], links := none, meets := [], mould := some (0, 0) }

/-- The state known for a bundle. -/
def stateAt (t : List (Key × Abs)) (k : Key) : Option Abs := (t.find? (fun x => x.1 = k)).map (·.2)

/-- One edge is taken into the table; whether it changed the state of a bundle that had one. -/
def takeEdge (t : List (Key × Abs)) (k : Key) (a : Abs) : List (Key × Abs) × Bool :=
  match stateAt t k with
  | none => (t ++ [(k, a)], false)
  | some b =>
    let c := b.join a
    if c = b then (t, false) else (t.map (fun x => if x.1 = k then (k, c) else x), true)

/-- A pass over the reachable bundles, each once: the table, the bundles, whether a state changed, and whether there are
more of them than the visits that R320 allows. -/
def CalEnv.round (e : CalEnv) : Nat → List Key → List CalNode → Bool → List (Key × Abs) →
    List (Key × Abs) × List CalNode × Bool × Bool
  | 0, ks, ns, ch, t => (t, ns, ch, ks.any (fun k => !ns.any (fun n => n.key = k) && (stateAt t k).isSome))
  | visits + 1, ks, ns, ch, t =>
    match ks.dropWhile (fun k => ns.any (fun n => n.key = k) || (stateAt t k).isNone) with
    | [] => (t, ns, ch, false)
    | k :: ks =>
      match stateAt t k with
      | some st =>
        let n := e.visit k st
        let (t, ch) := n.edges.foldl (fun (a : List (Key × Abs) × Bool) x =>
          let r := takeEdge a.1 x.1 x.2
          (r.1, a.2 || r.2)) (t, ch)
        e.round visits (n.edges.map (·.1) ++ ks) (ns ++ [n]) ch t
      | none => (t, ns, ch, false)

/-- Passes until no join changes (R316): the table and the bundles, and whether more bundles, each in its context, were
visited than R320 allows. (DEDUCED: log entry 43.) -/
def CalEnv.analyse (e : CalEnv) (start : Key) (visits : Nat) : Nat → List (Key × Abs) →
    List (Key × Abs) × List CalNode × Bool
  | 0, t => (t, [], true)
  | n + 1, t =>
    let (t, ns, ch, more) := e.round visits [start] [] false t
    if more then (t, ns, true) else if ch then e.analyse start visits n t else (t, ns, false)

end Sys2Proof.Machine
end

