-- ==== Sys2Proof/Machine/Calender.lean ====
section
/-! DEFINITION. The calender (R306 to R326): which evaluated operations stay, retiming, the layout of the
residual code, the quire entry with its back-map, and the decision of R307. -/

namespace Sys2Proof.Machine

/-! ### Folding (R311) -/

/-- The evaluated operations of the kernel. -/
def foldsOf (ns : List CalNode) : List (DefId × OpInfo) :=
  ns.flatMap (fun n => (n.ops.filter (fun o => o.act = .fold)).map (fun o => ((n.key, o.slot.bit), o)))

/-- A result that an immediate operation can write (R311). -/
def asImmediate (o : OpInfo) : Option Instr :=
  let k : GK := { g := { neg := false, pred := 0 }, k := true }
  match o.writes.head?, o.val with
  | some (r, _), some (.word v) =>
    let d := BitVec.ofNat 6 r.lo
    if r.cls = 0 ∧ o.slot ≠ .xf ∧ -8192 ≤ v.toInt ∧ v.toInt ≤ 8191 then
      some (.movi { gk := k, imm := v.truncate 14, d := d })
    else if r.cls = 2 ∧ o.slot ≠ .xf then
      some (if v = 0 then .cmpiNe { gk := k, imm := 0, a := 0, d := d }
        else .cmpiEq { gk := k, imm := 0, a := 0, d := d })
    else none
  | _, _ => none

/-- What folding has found: needed operations, and operations that may not become immediates. -/
structure Folding where
  need : List DefId
  banned : List DefId
  deriving DecidableEq, Repr

/-- A needed operation stays as it was written. -/
def Folding.original (f : Folding) (d : DefId) (o : OpInfo) : Bool :=
  f.need.contains d && ((asImmediate o).isNone || f.banned.contains d)

/-- The operations that may not become immediates because the two writes would not land in their order: an earlier one
that lands last, and a later one that lands after a write that stays. (DEDUCED: log entry 47.) -/
def Folding.bans (fs : List (DefId × OpInfo)) (f : Folding) (c : Clash) : List DefId :=
  let stays (ds : List DefId) : Bool :=
    ds.isEmpty || ds.any (fun d => fs.any (fun x => x.1 = d && f.original d x.2))
  if c.back then (if c.new.isEmpty ∨ c.new.any f.need.contains then c.old else [])
  else if stays c.old then c.new else []

/-- What the operations that stay as written need in turn. -/
def Folding.grow (fs : List (DefId × OpInfo)) (cs : List Clash) : Nat → Folding → Folding
  | 0, f => f
  | n + 1, f =>
    let os := fs.filter (fun x => f.original x.1 x.2)
    let g : Folding :=
      { need := (f.need ++ os.flatMap (fun x => x.2.need)).eraseDups,
        banned := (f.banned ++ os.flatMap (fun x => x.2.late) ++ cs.flatMap (fun c => f.bans fs c)).eraseDups }
    if g = f then f else Folding.grow fs cs n g

/-- Which evaluated operations are needed (R311): by kept operations, at joins, and every one that writes a
uniform register. -/
def folding (t : List (Key × Abs)) (ns : List CalNode) : Folding :=
  let fs := foldsOf ns
  let kept := ns.flatMap (fun n => n.ops.filter (fun o => o.act = .keep))
  let joins := ns.flatMap (fun n => n.edges.flatMap (fun x => match stateAt t x.1 with
    | some a => x.2.lost a
    | none => []))
  let uniform := (fs.filter (fun x => x.2.writes.any (fun w => w.1.cls = 1))).map (·.1)
  Folding.grow fs (ns.flatMap (·.clash)) (2 * fs.length + 1)
    { need := (kept.flatMap (·.need) ++ ns.flatMap (·.need) ++ joins ++ uniform).eraseDups,
      banned := (kept.flatMap (·.late) ++ ns.flatMap (·.late)).eraseDups }

/-- A slot of a residual bundle: reads, and writes with the original and the residual exposed latency. -/
structure KOp where
  slot : Slot
  ins : Instr
  j : Nat
  executes : Option Bool
  reads : List Res
  writes : List (Res × Nat × Nat)
  unk : Bool
  deriving DecidableEq, Repr

/-- The slots of a bundle that stay (R311). -/
def CalNode.kept (n : CalNode) (f : Folding) : List KOp :=
  n.ops.filterMap (fun o =>
    let same : KOp :=
      { slot := o.slot, ins := o.ins, j := o.j, executes := o.executes, reads := o.reads,
        writes := o.writes.map (fun w => (w.1, w.2, w.2)), unk := o.unk }
    let d : DefId := (n.key, o.slot.bit)
    match o.act with
    | .drop => none
    | .keep => some same
    | .fold =>
      if !f.need.contains d then none
      else if f.original d o then some same
      else (asImmediate o).map (fun i =>
        { same with ins := i, reads := [], writes := o.writes.map (fun w => (w.1, w.2, 1)) }))

/-! ### Retiming (R317, R318) -/

/-- An earlier write, occupancy or period that a bundle may depend on: original and residual issue, original
and residual latency. `kind` is 0 for a fixed time, 1 for a bundle that every later one keeps its distance from, as for a
latency of an unknown address class, 2 for one of another run whose time is not fixed. -/
structure Past where
  res : Res
  o : Int
  t : Int
  lo : Nat
  lr : Nat
  kind : Nat
  deriving DecidableEq, Repr

/-- The residual cycle from which a bundle at original cycle `o` may issue for one earlier write. -/
def Past.bound (w : Past) (o : Int) (reads : List Res) (writes : List (Res × Nat × Nat)) (edge : Bool) : Int :=
  let keep := w.t + min (o - w.o) w.lr
  let read := if w.o + w.lo ≤ o ∧ reads.any (fun r => r.meets w.res) then w.t + w.lr else w.t
  let order := writes.foldl (fun (m : Int) x =>
    if x.1.meets w.res ∧ w.o + w.lo ≤ o + x.2.1 then
      max m (w.t + w.lr - x.2.2 + (if w.o + w.lo < o + x.2.1 then 1 else 0))
    else m) w.t
  let dist := if w.kind = 1 then w.t + (o - w.o) else if w.kind = 2 then keep else w.t
  max (max read order) (max dist (if edge then keep else w.t))

/-- A bundle of a straight run as it stays: the original bundle, its slots, its gap in cycles to the bundle
before it. -/
structure Timed where
  node : CalNode
  ops : List KOp
  gap : Nat
  deriving DecidableEq, Repr

/-- The state of retiming along a run: original cycle, earlier writes, residual cycle of the last bundle. -/
structure Timing where
  o : Int
  past : List Past
  last : Int
  out : List Timed
  deriving DecidableEq, Repr

/-- A bundle that ends its run or moves control: R318 holds at it. -/
def Succ.ends : Succ → Bool
  | .one _ => false
  | _ => true

/-- Retimes one more bundle of a run. (DEDUCED: log entry 47.) -/
def Timing.add (f : Folding) (x : Timing) (n : CalNode) : Timing :=
  let o := x.o + n.before
  let ops := n.kept f
  let x := { x with o := o + n.cycles }
  if ops.isEmpty then x
  else
    let reads := ops.flatMap (·.reads)
    let writes := ops.flatMap (·.writes)
    let t := x.past.foldl (fun m w => max m (w.bound o reads writes n.succ.ends)) (x.last + 1)
    let new := ops.flatMap (fun k => k.writes.map (fun w =>
      ({ res := w.1, o := o, t := t, lo := w.2.1, lr := w.2.2, kind := if k.unk then 1 else 0 } : Past)))
    let anchor : List Past := if n.vague then
      [{ res := Res.one 8 0, o := o, t := t, lo := 0, lr := 0, kind := 1 }] else []
    { x with past := x.past ++ new ++ anchor, last := t,
             out := x.out ++ [{ node := n, ops := ops, gap := (t - x.last - 1).toNat }] }

/-- What is in flight where a run begins: the results of evaluated operations only where those stay. -/
def startPast (f : Folding) (fs : List (DefId × OpInfo)) (n : CalNode) : List Past :=
  (n.start.filter (fun y => y.defs.isEmpty || y.defs.any (fun d =>
    fs.any (fun x => x.1 = d && f.original d x.2)))).map (fun y =>
      { res := y.res, o := 0, t := 0, lo := y.left, lr := y.left, kind := if y.unk then 2 else 0 })

/-- The straight run from a bundle on (R317): it ends after a bundle that moves control, or before one that a
residual edge enters. -/
def runFrom (ns : List CalNode) (entered : List Key) : Nat → Key → List CalNode × Option Key
  | 0, k => ([], some k)
  | n + 1, k =>
    match ns.find? (fun x => x.key = k) with
    | none => ([], none)
    | some x => match x.succ with
      | .one k' =>
        if entered.contains k' then ([x], some k')
        else
          let r := runFrom ns entered n k'
          (x :: r.1, r.2)
      | _ => ([x], none)

/-- Bundles that a residual edge enters (R318): targets of kept transfers and bundles with several edges. -/
def enteredKeys (start : Key) (ns : List CalNode) : List Key :=
  let singles := ns.filterMap (fun n => match n.succ with
    | .one k => some k
    | _ => none)
  let others := ns.flatMap (fun n => match n.succ with
    | .fork d os f => d.toList ++ os ++ f.toList
    | .loop _ k => [k]
    | .split k => [k]
    | _ => [])
  (start :: others ++ (singles.filter (fun k => 1 < singles.count k))).eraseDups

/-! ### Layout (R318, R319) -/

/-- A residual bundle: its slots with their body index, the target of its CT displacement, what its record of
the back-map says, and whether its CT slot must stay as it is. `after` is where an inserted bundle leads, if that is
another run, and `key` the bundle that a kept one comes from. -/
structure RBundle where
  ops : List (Slot × Instr × Nat)
  tgt : Option Key
  kind : Nat
  orig : Nat
  iter : Nat
  cyc : Nat
  iim1 : Nat
  fixed : Bool
  after : Option Key
  key : Option Key
  deriving DecidableEq, Repr

/-- An unguarded `hold` of `n` cycles. -/
def holdOp (n : Nat) : Slot × Instr × Nat :=
  (.ct, .hold { gk := { g := { neg := false, pred := 0 }, k := false }, imm := BitVec.ofNat 10 (n - 1) }, 0)

/-- An unguarded branch. -/
def brOp : Slot × Instr × Nat :=
  (.ct, .br { gk := { g := { neg := false, pred := 0 }, k := false }, disp := 0 }, 0)

/-- An inserted bundle (R318, R325): `orig` is the original bundle that follows it. -/
def RBundle.inserted (op : Slot × Instr × Nat) (tgt after : Option Key) (orig : Nat) : RBundle :=
  { ops := [op], tgt := tgt, kind := 2, orig := orig, iter := 0, cyc := 0, iim1 := 0, fixed := false,
    after := after, key := none }

/-- Replaces the CT slot. -/
def RBundle.withCt (op : Slot × Instr × Nat) (b : RBundle) : RBundle :=
  { b with ops := op :: b.ops.filter (fun o => o.1 ≠ .ct) }

/-- The `hold` bundles of their own that fill a gap. -/
def holdBundles (orig : Nat) (after : Option Key) : Nat → Nat → List RBundle
  | 0, _ => []
  | n + 1, g =>
    if g = 0 then []
    else RBundle.inserted (holdOp (Nat.min g 1024)) none after orig :: holdBundles orig after n (g - Nat.min g 1024)

/-- The cycles that the CT slot of a bundle gives it, if it may hold or be given a `hold` (R318).
(DEDUCED: log entry 45.) -/
def RBundle.holds (b : RBundle) : Option Nat :=
  if b.fixed then none
  else match b.ops.find? (fun o => o.1 = Slot.ct) with
    | none => some 1
    | some (_, .nop _, _) => some 1
    | some (_, .hold f, _) => some (f.imm.toNat + 1)
    | some _ => none

/-- Fills a gap before what comes next. -/
def fillGap (orig g : Nat) (own : Bool) (after : Option Key) (out : List RBundle) : List RBundle :=
  if g = 0 then out
  else match out.getLast? with
    | some b =>
      if own ∧ b.holds.isSome ∧ g + 1 ≤ 1024 then out.dropLast ++ [b.withCt (holdOp (g + 1))]
      else out ++ holdBundles orig after (g + 1) g
    | none => out ++ holdBundles orig after (g + 1) g

/-- Control that falls into a bundle laid out elsewhere (R318): a branch that spends no cycle, or `none`
(REASON 10). -/
def jumpTo (k : Key) (out : List RBundle) : Option (List RBundle) :=
  match out.getLast? with
  | none => none
  | some b => match b.holds with
    | none => none
    | some n =>
      if n ≤ 1 then some (out.dropLast ++ [{ b.withCt brOp with tgt := some k }])
      else some (out.dropLast ++ [b.withCt (holdOp (n - 1)), RBundle.inserted brOp (some k) (some k) k.addr])

/-- The initiation interval of the loop at an address. -/
def CalEnv.loopIi (e : CalEnv) (a : Nat) : Nat :=
  match e.bundle a with
  | some (_, ops) => (ops.findSome? (fun o => match o.2 with
      | .loop f => some (f.ii.toNat + 1)
      | _ => none)).getD 1
  | none => 1

/-- The iteration of the innermost static loop (R325). -/
def innerIter : List Frame → Nat
  | .iter _ _ n :: _ => n
  | .site _ :: r => innerIter r
  | [] => 0

/-- A kept bundle as it is laid out: a static `hold` is recomputed, from one cycle (R318). -/
def CalEnv.place (e : CalEnv) (x : Timed) : RBundle :=
  let hold (o : KOp) : Slot × Instr × Nat := match o.ins, o.executes with
    | .hold f, some true => (o.slot, .hold { f with imm := 0 }, o.j)
    | .hold _, some false => holdOp 1
    | i, _ => (o.slot, i, o.j)
  let k := x.node.key
  { ops := x.ops.map hold,
    tgt := match x.node.succ with
      | .fork d _ _ => d
      | _ => none,
    kind := if k.cyc.isSome then 1 else 0, orig := k.addr,
    iter := innerIter k.ctx % 64, cyc := (k.cyc.map (·.1)).getD 0,
    iim1 := if k.cyc.isSome then e.loopIi k.addr - 1 else 0,
    fixed := match x.node.succ with
      | .one _ => false
      | _ => true,
    after := none, key := some k }

/-- A layout in progress: bundles, the index of the first bundle of each run, runs without a bundle and what
they fall into, runs laid out, targets to come. -/
structure Layout where
  out : List RBundle
  labels : List (Key × Nat)
  aliases : List (Key × Key)
  laid : List Key
  todo : List Key
  ok : Bool
  deriving DecidableEq, Repr

/-- The target that is laid out next: the first by original address that is not laid out. -/
def Layout.nextTarget (l : Layout) : Option Key :=
  ((l.todo.filter (fun k => !l.laid.contains k)).foldl (fun (m : Option Key) k => match m with
    | some x => if k.addr < x.addr then some k else m
    | none => some k) none)

/-- Lays out the run that begins at a bundle; what control falls into after it. (DEDUCED: log entry 41.) -/
def CalEnv.layRun (e : CalEnv) (ns : List CalNode) (f : Folding) (entered : List Key)
    (k : Key) (l : Layout) : Layout × Option Key :=
  let (nodes, into) := runFrom ns entered (ns.length + 1) k
  let first := ns.find? (fun n => n.key = k)
  let t0 : Timing := { o := 0, past := ((first.map (startPast f (foldsOf ns))).getD []), last := -1, out := [] }
  let tm := nodes.foldl (Timing.add f) t0
  let n0 := l.out.length
  let out := tm.out.foldl (fun out x =>
    fillGap x.node.key.addr x.gap (n0 < out.length) none out ++ [e.place x]) l.out
  let stop := nodes.getLast?
  let tail (d : Option Key) (os : List Key) (fall : Option Key) (out : List RBundle) : Layout × Option Key :=
    ({ l with out := out, todo := d.toList ++ os ++ l.todo }, fall)
  let (l, fall) : Layout × Option Key :=
    match into, stop.map (·.succ) with
    | some k', _ =>
      let t := tm.past.foldl (fun m w => max m (w.bound tm.o [] [] true)) (tm.last + 1)
      ({ l with out := fillGap k'.addr (t - tm.last - 1).toNat (n0 < out.length) (some k') out }, some k')
    | none, some (.fork d os fall) =>
      tail d os (fall.filter (fun x => ns.any (fun n => n.key = x))) out
    | none, some (.loop body after) =>
      let copy := body.map (fun b =>
        ({ ops := ((e.bundle b.1).map (·.2)).getD [] |>.map (fun o => (o.1, o.2, 0)), tgt := none, kind := 0,
           orig := b.1, iter := innerIter ((stop.map (·.key.ctx)).getD []) % 64, cyc := 0, iim1 := 0, fixed := true,
           after := none, key := none } : RBundle))
      tail none [] (some after) (out ++ copy)
    | none, some (.split k') => tail none [] (some k') out
    | _, _ => tail none [] none out
  let l := { l with laid := k :: l.laid }
  if n0 < l.out.length then ({ l with labels := (k, n0) :: l.labels }, fall)
  else match fall with
    | some k' => ({ l with aliases := (k, k') :: l.aliases }, fall)
    | none => (l, fall)

/-- Lays out every run, what control falls into first (R319). `falls` tells that control falls in from the
last bundle. -/
def CalEnv.layout (e : CalEnv) (ns : List CalNode) (f : Folding) (entered : List Key) :
    Nat → Option Key → Bool → Layout → Layout
  | 0, _, _, l => l
  | n + 1, next, falls, l =>
    match next with
    | none =>
      (match l.nextTarget with
        | none => l
        | some k => e.layout ns f entered n (some k) false l)
    | some k =>
      if l.laid.contains k then
        if !falls then e.layout ns f entered n none false l
        else match jumpTo k l.out with
          | some out => e.layout ns f entered n none false { l with out := out }
          | none => e.layout ns f entered n none false { l with ok := false }
      else
        let n0 := l.out.length
        let (l, fall) := e.layRun ns f entered k l
        e.layout ns f entered n fall (falls || n0 < l.out.length) l

/-- The size of a residual bundle in bytes (R77). -/
def RBundle.size (b : RBundle) : Nat := 1 + (b.ops.map (fun o => o.1.size)).sum

/-- The offsets of bundles laid out under R78 and R79. -/
def bundleOffsets (bs : List RBundle) : List Nat :=
  (bs.foldl (fun (a : List Nat × Nat) b =>
    let at_ := if 64 < a.2 % 64 + b.size then (a.2 / 64 + 1) * 64 else a.2
    (at_ :: a.1, at_ + b.size)) ([], 0)).1.reverse

/-- The index of the bundle that control to a key reaches. -/
def Layout.index (l : Layout) : Nat → Key → Option Nat
  | 0, _ => none
  | n + 1, k =>
    match l.labels.find? (fun x => x.1 = k) with
    | some (_, i) => some i
    | none => match l.aliases.find? (fun x => x.1 = k) with
      | some (_, k') => l.index n k'
      | none => none

/-- An instruction with a displacement. -/
def withDisp (d : BitVec 21) : Instr → Instr
  | .br f => .br { f with disp := d }
  | .call f => .call { f with disp := d }
  | .detach f => .detach { f with disp := d }
  | i => i

/-- The bytes of a residual bundle at an offset, its displacement recomputed (R312). -/
def RBundle.bytes (at_ : Nat) (aim : Option Nat) (b : RBundle) : List Byte :=
  let ops := Slot.all.flatMap (fun sl => b.ops.filter (fun o => o.1 = sl))
  let word (i : Instr) : Nat := encode (match aim with
    | some a => withDisp (BitVec.ofInt 21 ((a : Int) - at_)) i
    | none => match i with
      | .br _ | .call _ => withDisp 0 i
      | i => i)
  BitVec.ofNat 8 ((ops.map (fun o => 2 ^ o.1.bit)).sum)
    :: ops.flatMap (fun o => toBytes o.1.size (word o.2.1))

/-- Bytes at offsets, zeros between them. -/
def padTo (l : List (Nat × List Byte)) : List Byte :=
  l.foldl (fun out x => out ++ List.replicate (x.1 - out.length) 0#8 ++ x.2) []

/-! ### The entry (R325) -/

/-- The body tables of the unrolled loops: loop address, offset of its list, and the list. -/
def CalEnv.bodyTables (e : CalEnv) (code : Nat) (bs : List RBundle) : List (Nat × Nat × List Byte) :=
  (((bs.filter (fun b => b.kind = 1)).map (·.orig)).eraseDups).foldl (fun t a =>
    let off := (t.map (fun (x : Nat × Nat × List Byte) => x.2.2.length)).sum
    let list : List Byte := match e.bundle a with
      | some (len, ops) => (ops.findSome? (fun o => match o.2 with
          | .loop f => (e.body (f.len.toNat + 1) ((a + len) % 2 ^ 57)).map (fun b =>
              b.1.flatMap (fun x => toBytes 4 (x.1 + 2 ^ 57 - code)))
          | _ => none)).getD []
      | none => []
    t ++ [(a, off, list)]) []

/-- The original bundle of the first kept one of some bundles. -/
def firstKept (bs : List RBundle) : Option Nat := (bs.find? (fun b => b.kind ≠ 2)).map (·.orig)

/-- An inserted bundle that leads to another run is mapped to the kept bundle that follows there (R325). -/
def Layout.settled (l : Layout) (b : RBundle) : RBundle :=
  match b.after.bind (fun k => (l.index (l.aliases.length + 1) k).bind (fun i => firstKept (l.out.drop i))) with
  | some a => { b with orig := a }
  | none => b

/-- A record of the back-map (R325). -/
def mapEntry (code roff : Nat) (tables : List (Nat × Nat × List Byte)) (b : RBundle) : Nat :=
  let ooff := if b.kind = 1 then ((tables.find? (fun t => t.1 = b.orig)).map (fun t => t.2.1)).getD 0
    else (b.orig + 2 ^ 57 - code) % 2 ^ 32
  let jidx := if b.kind = 1 then (b.ops.map (fun o => o.2.2 * 2 ^ (5 * o.1.bit))).sum else 0
  roff * 2 ^ 96 + ooff * 2 ^ 64 + b.kind * 2 ^ 62 + (if b.kind = 0 then b.iter * 2 ^ 56 else 0)
    + (if b.kind = 1 then b.cyc * 2 ^ 45 + b.iim1 * 2 ^ 40 else 0) + jidx

/-- CRC-64 of ECMA-182 (R322). -/
def crc64 (bs : List Byte) : Nat :=
  bs.foldl (fun c b =>
    (List.range 8).foldl (fun c _ =>
      if c / 2 ^ 63 = 1 then (c * 2 % 2 ^ 64) ^^^ 0x42f0e1eba9ea3693 else c * 2 % 2 ^ 64)
      (c ^^^ (b.toNat * 2 ^ 56))) 0

/-- The key string (R322). -/
def keyString (k : KHead) (l : Launch) : List Byte :=
  toBytes 2 k.mask ++ toBytes 1 l.width
    ++ ((List.range 16).filter (fun n => k.mask.testBit n)).flatMap (fun n =>
      toBytes 8 ((l.args.getD n 0).toNat))

/-- The bytes of an entry, and the reasons of R320 that its code meets. (DEDUCED: log entry 42.) -/
def CalEnv.entryBytes (e : CalEnv) (k : KHead) (key : List Byte) (l : Layout) : List Byte × List Nat :=
  let offs := bundleOffsets l.out
  let pairs := List.zip offs l.out
  let code := padTo (pairs.map (fun x => (x.1, x.2.bytes x.1
    (x.2.tgt.bind (fun t => (l.index (l.aliases.length + 1) t).map (fun i => offs.getD i 0))))))
  let tables := e.bodyTables k.code l.out
  let recs := pairs.flatMap (fun x => toBytes 16 (mapEntry k.code x.1 tables (l.settled x.2)))
  let body := tables.flatMap (fun t => t.2.2)
  let mapOff := 64 + (code.length + 15) / 16 * 16
  let bodyOff := mapOff + recs.length
  let keyOff := bodyOff + body.length
  let head := 1 + k.prof * 2 ^ 212 + key.length * 2 ^ 216 + keyOff * 2 ^ 224 + bodyOff * 2 ^ 256
    + l.out.length * 2 ^ 288 + mapOff * 2 ^ 320 + code.length * 2 ^ 352 + crc64 key * 2 ^ 384
    + k.kid.toNat * 2 ^ 448
  (padTo [(0, toBytes 64 head), (64, code), (mapOff, recs ++ body ++ key)],
    (if 4 * k.codelen < code.length then [1] else []) ++ (if 131072 < code.length then [2] else [])
      ++ (if l.ok then [] else [10]))

/-! ### A run of the calender -/

/-- The environment of a launch on a profile: a tread that runs residual code (R307, R308). -/
def State.calEnv (l : Launch) (k : KHead) (s : State) : CalEnv :=
  let pl : Place := { chip := if k.prof = 2 then 8 else 0, flight := 0, pos := 0 }
  let h := startTread s.hub l (Gang.fresh 0 0 false) k pl 0 0
  { hb := s.hub, fr := s.free, part := l.part,
    h := { h with spr := { h.spr with kcfg := BitVec.ofNat 64 (k.xmode.toNat + 2) } }, s := s, addrs := [] }

/-- The least of the reasons that apply (R320). -/
def leastReason (rs : List Nat) : Option Nat := rs.min?

/-! ### The quire cache (R321 to R323) -/

/-- The quota of a partition in bytes. -/
def Hub.quireQuota (hb : Hub) (part : Nat) : Nat := 65536 * wbits 40 32 (hb.part part).calctl

/-- The first place in a partition's quota that is free for `n` bytes. -/
def Hub.quirePlace (hb : Hub) (part n : Nat) : Option Nat :=
  let mine := hb.quires.filter (fun q => q.part = part)
  let ends := 0 :: mine.map (fun q => (q.base + q.size + 63) / 64 * 64)
  (sortBy (fun a b => a ≤ b) ends).find? (fun a =>
    a + n ≤ hb.quireQuota part && mine.all (fun q => a + n ≤ q.base || q.base + q.size ≤ a))

/-- Makes room for `n` bytes, evicting the unpinned entries of the partition that were used least recently
(R323). -/
def quireEvict (part n : Nat) : Nat → Hub → Option (Nat × Hub)
  | 0, hb => (hb.quirePlace part n).map (fun a => (a, hb))
  | fuel + 1, hb =>
    match hb.quirePlace part n with
    | some a => some (a, hb)
    | none =>
      let free := sortBy (fun a b => a.used ≤ b.used)
        (hb.quires.filter (fun q => q.part = part && q.pins.isEmpty))
      match free with
      | [] => none
      | q :: _ => quireEvict part n fuel { hb with quires := hb.quires.filter (fun x =>
          !(x.part = q.part && x.base = q.base)) }

/-- The place of `n` bytes, with the entries that make room for it evicted (R323). -/
def Hub.quireRoom (hb : Hub) (part n : Nat) : Option (Nat × Hub) := quireEvict part n hb.quires.length hb

/-! ### A specialisation -/

/-- One specialisation of a kernel for a launch: the bytes of the entry, the reasons of R320 that apply, and where the
calls lie whose return address is static, by the offset of the byte after it (R130, R313). -/
def CalEnv.attempt (e : CalEnv) (l : Launch) (k : KHead) : List Byte × List Nat × List (Key × Nat) :=
  let start := e.goTo [] ((k.code + k.entry) % 2 ^ 57)
  let (t, ns, over_) := e.analyse start 32768 32768 [(start, calEntry k.mask l.args)]
  let f := folding t ns
  let lay := e.layout ns f (enteredKeys start ns) (4 * ns.length + 16) (some start)
    false { out := [], labels := [], aliases := [], laid := [], todo := [], ok := true }
  let r := e.entryBytes k (keyString k l) lay
  let offs := bundleOffsets lay.out
  let rets := (t.flatMap (fun x => x.2.regs.filterMap (fun g => match g.val with
    | .ret c _ => some c
    | .word _ => none))).eraseDups
  (r.1, ns.flatMap (·.reasons) ++ (if over_ then [7] else []) ++ r.2,
    rets.filterMap (fun c => ((List.zip offs lay.out).find? (fun x => x.2.key = some c)).map (fun x =>
      (c, x.1 + x.2.size))))

/-- Return addresses are static too (R313): where they lie is tried until it stands, and left open where it does not.
(DESIGN CHOICE: log entry 104.) -/
def CalEnv.settleAddrs (e : CalEnv) (l : Launch) (k : KHead) : Nat → CalEnv → List Byte × List Nat
  | 0, _ => let r := e.attempt l k; (r.1, r.2.1)
  | n + 1, e' =>
    let r := e'.attempt l k
    let base := ((e.hb.quireRoom l.part r.1.length).map (·.1)).getD 0
    let addrs := r.2.2.map (fun x => (x.1, BitVec.ofNat 64 (residualStart base + x.2)))
    if addrs = e'.addrs then (r.1, r.2.1) else e.settleAddrs l k n { e' with addrs := addrs }

/-- Specialises a kernel for a launch: the bytes of the entry, or the reason of the fallback, the least that applies
(R320). -/
def CalEnv.specialise (e : CalEnv) (l : Launch) (k : KHead) : Except Nat (List Byte) :=
  let r := e.settleAddrs l k 4 e
  let full := if (e.hb.quireRoom l.part r.1.length).isNone then [8] else []
  match leastReason (r.2 ++ full) with
  | some x => .error x
  | none => .ok r.1

/-- The next place in the order of uses. -/
def Hub.quireUse (hb : Hub) : Nat := hb.quires.foldl (fun m q => Nat.max m q.used) 0 + 1

/-- The launch has its decision for a profile (R307). -/
def State.setDecision (l : Launch) (prof : Nat) (base : Option Nat) (s : State) : State :=
  s.setLaunch l.id (fun m => { m with decisions := m.decisions ++ [{ prof := prof, base := base }] })

/-- The fallback (R320, R321). -/
def State.fallBack (l : Launch) (k : KHead) (reason : Nat) (s : State) : State :=
  (s.setPart l.part (fun r => { r with
    calst := setBits 63 32 (Nat.min (wbits 63 32 r.calst + 1) (2 ^ 32 - 1))
      (setBits 15 12 k.prof (setBits 7 0 reason r.calst)),
    calkid := k.kid })).setDecision l k.prof none

/-- A hit (R321 to R323): the entry is pinned for the launch. -/
def State.quireHit (l : Launch) (k : KHead) (q : Quire) (s : State) : State :=
  let n := s.hub.quireUse
  let s := s.setPart l.part (fun r => { r with
    calst := setBits 31 16 (Nat.min (wbits 31 16 r.calst + 1) 65535) r.calst })
  State.setDecision l k.prof (some q.base) { s with hub := { s.hub with
    quires := s.hub.quires.map (fun x =>
      if x.part = q.part ∧ x.base = q.base then
        { x with used := n, pins := x.pins.filter (fun i => i ≠ l.id) ++ [l.id] } else x) } }

/-- A new entry (R322, R323, R325); REASON 8 where it finds no room. -/
def State.newEntry (l : Launch) (k : KHead) (bs : List Byte) (s : State) : State :=
  match s.hub.quireRoom l.part bs.length with
  | none => s.fallBack l k 8
  | some (base, hb) =>
    let key := keyString k l
    let q : Quire :=
      { part := l.part, base := base, size := bs.length, kid := k.kid, prof := k.prof,
        fp := BitVec.ofNat 64 (crc64 key), key := key, used := hb.quireUse, pins := [l.id], stale := false }
    State.setDecision l k.prof (some base) { s with hub := { hb with
      quires := hb.quires ++ [q],
      quireMem := putBytes (l.part * 2 ^ 24 + base) bs hb.quireMem } }

/-- The flights of a profile on which a gang of a launch is placed now, where the calender has not decided (R307). -/
def State.deciding (launch prof : Nat) (s : State) : Option (Launch × Gang × Nat × Nat) :=
  (s.hub.launches.find? (fun l => l.id = launch)).bind (fun l =>
    match s.hub.nextPlacement l.part with
    | some (m, g, ps) =>
      if m.id ≠ launch ∨ g.st ≠ .unstarted ∨ !l.undecided prof then none
      else (s.chosen (ps.filter (fun x => chipProf x.1 = prof))).map (fun x => (l, g, x))
    | none => none)

/-- A gang takes flights, and holds them until the calender has decided (R307). -/
def State.holdFlights (l : Launch) (g : Gang) (chip flight prof : Nat) (s : State) : State :=
  s.setGang l.id g.idx (fun g => { g with chip := chip, flight := flight, prof := prof })

/-- The calender's decision for a launch on a profile, at the placement of a gang, which holds its flights (R307): a hit,
a new entry or the fallback. (DEDUCED: log entry 46.) -/
def execCalenderDecision (launch prof : Nat) : Sem := fun s =>
  match s.deciding launch prof with
  | none => .next s
  | some (l, g, chip, flight) =>
    let s := s.holdFlights l g chip flight prof
    match l.kernels.find? (fun k => k.prof = prof) with
      | none => .next (s.setDecision l prof none)
      | some k =>
        let key := keyString k l
        let hit := s.hub.quires.find? (fun q => q.part = l.part && q.kid = k.kid && q.prof = prof
          && q.fp.toNat = crc64 key && q.key = key)
        match hit with
        | some q => .next (s.quireHit l k q)
        | none =>
          let r := if s.hub.quireQuota l.part = 0 then .error 8 else (s.calEnv l k).specialise l k
          let s := { s with free := s.free + 1 }
          match r with
          | .error x => .next (s.fallBack l k x)
          | .ok bs => .next (s.newEntry l k bs)

end Sys2Proof.Machine
end

