-- ==== Sys2Proof/Machine/Dispatch.lean ====
section
/-! DEFINITION. What every instruction does: one arm for each constructor, each a direct call of its
meaning. -/

namespace Sys2Proof.Machine

/-- The meaning of an instruction. (DEDUCED: log entry 25.) -/
def exec (i : Instr) (s : State) : Host.Outcome State Fault Refusal :=
  match i with
  | .nop f => Sys2Proof.Machine.execNop f s
  | .hold f => Sys2Proof.Machine.execHold f s
  | .br f => Sys2Proof.Machine.execBr f s
  | .call f => Sys2Proof.Machine.execCall f s
  | .brR f => Sys2Proof.Machine.execBrR f s
  | .callR f => Sys2Proof.Machine.execCallR f s
  | .loop f => Sys2Proof.Machine.execLoop f s
  | .sleepUntil f => Sys2Proof.Machine.execSleepUntil f s
  | .waitSem f => Sys2Proof.Machine.execWaitSem f s
  | .detach f => Sys2Proof.Machine.execDetach f s
  | .meet f => Sys2Proof.Machine.execMeet f s
  | .retire f => Sys2Proof.Machine.execRetire f s
  | .barArrive f => Sys2Proof.Machine.execBarArrive f s
  | .barWait f => Sys2Proof.Machine.execBarWait f s
  | .hypOpen f => Sys2Proof.Machine.execHypOpen f s
  | .hypEnter f => Sys2Proof.Machine.execHypEnter f s
  | .hypLeave f => Sys2Proof.Machine.execHypLeave f s
  | .hypResolveConfirm f => Sys2Proof.Machine.execHypResolveConfirm f s
  | .hypResolveRefute f => Sys2Proof.Machine.execHypResolveRefute f s
  | .mouldOpen f => Sys2Proof.Machine.execMouldOpen f s
  | .mouldCancel f => Sys2Proof.Machine.execMouldCancel f s
  | .vbankAcq f => Sys2Proof.Machine.execVbankAcq f s
  | .vbankRel f => Sys2Proof.Machine.execVbankRel f s
  | .trap f => Sys2Proof.Machine.execTrap f s
  | .sys f => Sys2Proof.Machine.execSys f s
  | .bkpt f => Sys2Proof.Machine.execBkpt f s
  | .eret f => Sys2Proof.Machine.execEret f s
  | .add f => Sys2Proof.Machine.execAdd f s
  | .sub f => Sys2Proof.Machine.execSub f s
  | .and f => Sys2Proof.Machine.execAnd f s
  | .or f => Sys2Proof.Machine.execOr f s
  | .xor f => Sys2Proof.Machine.execXor f s
  | .shl f => Sys2Proof.Machine.execShl f s
  | .shr f => Sys2Proof.Machine.execShr f s
  | .sra f => Sys2Proof.Machine.execSra f s
  | .mul f => Sys2Proof.Machine.execMul f s
  | .mulhs f => Sys2Proof.Machine.execMulhs f s
  | .mulhu f => Sys2Proof.Machine.execMulhu f s
  | .div f => Sys2Proof.Machine.execDiv f s
  | .divu f => Sys2Proof.Machine.execDivu f s
  | .rem f => Sys2Proof.Machine.execRem f s
  | .remu f => Sys2Proof.Machine.execRemu f s
  | .mov f => Sys2Proof.Machine.execMov f s
  | .min f => Sys2Proof.Machine.execMin f s
  | .max f => Sys2Proof.Machine.execMax f s
  | .minu f => Sys2Proof.Machine.execMinu f s
  | .maxu f => Sys2Proof.Machine.execMaxu f s
  | .bfx f => Sys2Proof.Machine.execBfx f s
  | .bfxu f => Sys2Proof.Machine.execBfxu f s
  | .bfi f => Sys2Proof.Machine.execBfi f s
  | .sel pn f => Sys2Proof.Machine.execSel pn f s
  | .addi f => Sys2Proof.Machine.execAddi f s
  | .andi f => Sys2Proof.Machine.execAndi f s
  | .ori f => Sys2Proof.Machine.execOri f s
  | .xori f => Sys2Proof.Machine.execXori f s
  | .shli f => Sys2Proof.Machine.execShli f s
  | .shri f => Sys2Proof.Machine.execShri f s
  | .srai f => Sys2Proof.Machine.execSrai f s
  | .muli f => Sys2Proof.Machine.execMuli f s
  | .movi f => Sys2Proof.Machine.execMovi f s
  | .movsh f => Sys2Proof.Machine.execMovsh f s
  | .clz f => Sys2Proof.Machine.execClz f s
  | .ctz f => Sys2Proof.Machine.execCtz f s
  | .popc f => Sys2Proof.Machine.execPopc f s
  | .bswap f => Sys2Proof.Machine.execBswap f s
  | .cmpEq f => Sys2Proof.Machine.execCmpEq f s
  | .cmpNe f => Sys2Proof.Machine.execCmpNe f s
  | .cmpLt f => Sys2Proof.Machine.execCmpLt f s
  | .cmpLe f => Sys2Proof.Machine.execCmpLe f s
  | .cmpLtu f => Sys2Proof.Machine.execCmpLtu f s
  | .cmpLeu f => Sys2Proof.Machine.execCmpLeu f s
  | .cmpiEq f => Sys2Proof.Machine.execCmpiEq f s
  | .cmpiNe f => Sys2Proof.Machine.execCmpiNe f s
  | .cmpiLt f => Sys2Proof.Machine.execCmpiLt f s
  | .cmpiLe f => Sys2Proof.Machine.execCmpiLe f s
  | .cmpiLtu f => Sys2Proof.Machine.execCmpiLtu f s
  | .cmpiLeu f => Sys2Proof.Machine.execCmpiLeu f s
  | .pand f => Sys2Proof.Machine.execPand f s
  | .por f => Sys2Proof.Machine.execPor f s
  | .pxor f => Sys2Proof.Machine.execPxor f s
  | .pnot f => Sys2Proof.Machine.execPnot f s
  | .faddF32 f => Sys2Proof.Machine.execFaddF32 f s
  | .fsubF32 f => Sys2Proof.Machine.execFsubF32 f s
  | .fmulF32 f => Sys2Proof.Machine.execFmulF32 f s
  | .ffmaF32 f => Sys2Proof.Machine.execFfmaF32 f s
  | .fdivF32 f => Sys2Proof.Machine.execFdivF32 f s
  | .fsqrtF32 f => Sys2Proof.Machine.execFsqrtF32 f s
  | .fminF32 f => Sys2Proof.Machine.execFminF32 f s
  | .fmaxF32 f => Sys2Proof.Machine.execFmaxF32 f s
  | .faddF64 f => Sys2Proof.Machine.execFaddF64 f s
  | .fsubF64 f => Sys2Proof.Machine.execFsubF64 f s
  | .fmulF64 f => Sys2Proof.Machine.execFmulF64 f s
  | .ffmaF64 f => Sys2Proof.Machine.execFfmaF64 f s
  | .fdivF64 f => Sys2Proof.Machine.execFdivF64 f s
  | .fsqrtF64 f => Sys2Proof.Machine.execFsqrtF64 f s
  | .fminF64 f => Sys2Proof.Machine.execFminF64 f s
  | .fmaxF64 f => Sys2Proof.Machine.execFmaxF64 f s
  | .fcmpEqF32 f => Sys2Proof.Machine.execFcmpEqF32 f s
  | .fcmpLtF32 f => Sys2Proof.Machine.execFcmpLtF32 f s
  | .fcmpLeF32 f => Sys2Proof.Machine.execFcmpLeF32 f s
  | .fcmpUnF32 f => Sys2Proof.Machine.execFcmpUnF32 f s
  | .fcmpEqF64 f => Sys2Proof.Machine.execFcmpEqF64 f s
  | .fcmpLtF64 f => Sys2Proof.Machine.execFcmpLtF64 f s
  | .fcmpLeF64 f => Sys2Proof.Machine.execFcmpLeF64 f s
  | .fcmpUnF64 f => Sys2Proof.Machine.execFcmpUnF64 f s
  | .fcvt f => Sys2Proof.Machine.execFcvt f s
  | .rdsr f => Sys2Proof.Machine.execRdsr f s
  | .wrsr f => Sys2Proof.Machine.execWrsr f s
  | .tlbinv f => Sys2Proof.Machine.execTlbinv f s
  | .tlbsync f => Sys2Proof.Machine.execTlbsync f s
  | .ldB f => Sys2Proof.Machine.execLdB f s
  | .ldH f => Sys2Proof.Machine.execLdH f s
  | .ldW f => Sys2Proof.Machine.execLdW f s
  | .ldD f => Sys2Proof.Machine.execLdD f s
  | .ldBu f => Sys2Proof.Machine.execLdBu f s
  | .ldHu f => Sys2Proof.Machine.execLdHu f s
  | .ldWu f => Sys2Proof.Machine.execLdWu f s
  | .pf f => Sys2Proof.Machine.execPf f s
  | .stB f => Sys2Proof.Machine.execStB f s
  | .stH f => Sys2Proof.Machine.execStH f s
  | .stW f => Sys2Proof.Machine.execStW f s
  | .stD f => Sys2Proof.Machine.execStD f s
  | .vld f => Sys2Proof.Machine.execVld f s
  | .vst f => Sys2Proof.Machine.execVst f s
  | .tld f => Sys2Proof.Machine.execTld f s
  | .tst f => Sys2Proof.Machine.execTst f s
  | .vgath f => Sys2Proof.Machine.execVgath f s
  | .vscat f => Sys2Proof.Machine.execVscat f s
  | .amoAdd f => Sys2Proof.Machine.execAmoAdd f s
  | .amoMin f => Sys2Proof.Machine.execAmoMin f s
  | .amoMax f => Sys2Proof.Machine.execAmoMax f s
  | .amoMinu f => Sys2Proof.Machine.execAmoMinu f s
  | .amoMaxu f => Sys2Proof.Machine.execAmoMaxu f s
  | .amoAnd f => Sys2Proof.Machine.execAmoAnd f s
  | .amoOr f => Sys2Proof.Machine.execAmoOr f s
  | .amoXor f => Sys2Proof.Machine.execAmoXor f s
  | .amoXchg f => Sys2Proof.Machine.execAmoXchg f s
  | .amoCas f => Sys2Proof.Machine.execAmoCas f s
  | .redAdd f => Sys2Proof.Machine.execRedAdd f s
  | .redMin f => Sys2Proof.Machine.execRedMin f s
  | .redMax f => Sys2Proof.Machine.execRedMax f s
  | .redAnd f => Sys2Proof.Machine.execRedAnd f s
  | .redOr f => Sys2Proof.Machine.execRedOr f s
  | .redXor f => Sys2Proof.Machine.execRedXor f s
  | .monWait f => Sys2Proof.Machine.execMonWait f s
  | .fenceScope f => Sys2Proof.Machine.execFenceScope f s
  | .flushRegion f => Sys2Proof.Machine.execFlushRegion f s
  | .vadd f => Sys2Proof.Machine.execVadd f s
  | .vsub f => Sys2Proof.Machine.execVsub f s
  | .vmul f => Sys2Proof.Machine.execVmul f s
  | .vfma f => Sys2Proof.Machine.execVfma f s
  | .vmin f => Sys2Proof.Machine.execVmin f s
  | .vmax f => Sys2Proof.Machine.execVmax f s
  | .vabs f => Sys2Proof.Machine.execVabs f s
  | .vneg f => Sys2Proof.Machine.execVneg f s
  | .vand f => Sys2Proof.Machine.execVand f s
  | .vor f => Sys2Proof.Machine.execVor f s
  | .vxor f => Sys2Proof.Machine.execVxor f s
  | .vnot f => Sys2Proof.Machine.execVnot f s
  | .vshl f => Sys2Proof.Machine.execVshl f s
  | .vshr f => Sys2Proof.Machine.execVshr f s
  | .vmov f => Sys2Proof.Machine.execVmov f s
  | .vsel f => Sys2Proof.Machine.execVsel f s
  | .vcmpEq f => Sys2Proof.Machine.execVcmpEq f s
  | .vcmpNe f => Sys2Proof.Machine.execVcmpNe f s
  | .vcmpLt f => Sys2Proof.Machine.execVcmpLt f s
  | .vcmpLe f => Sys2Proof.Machine.execVcmpLe f s
  | .vrcp f => Sys2Proof.Machine.execVrcp f s
  | .vrsqrt f => Sys2Proof.Machine.execVrsqrt f s
  | .vsqrt f => Sys2Proof.Machine.execVsqrt f s
  | .vexp2 f => Sys2Proof.Machine.execVexp2 f s
  | .vlog2 f => Sys2Proof.Machine.execVlog2 f s
  | .vtanh f => Sys2Proof.Machine.execVtanh f s
  | .vsin f => Sys2Proof.Machine.execVsin f s
  | .vcos f => Sys2Proof.Machine.execVcos f s
  | .vcvt f => Sys2Proof.Machine.execVcvt f s
  | .vquant f => Sys2Proof.Machine.execVquant f s
  | .vdequant f => Sys2Proof.Machine.execVdequant f s
  | .vmovi f => Sys2Proof.Machine.execVmovi f s
  | .vredAdd f => Sys2Proof.Machine.execVredAdd f s
  | .vredMin f => Sys2Proof.Machine.execVredMin f s
  | .vredMax f => Sys2Proof.Machine.execVredMax f s
  | .vperm f => Sys2Proof.Machine.execVperm f s
  | .vrot f => Sys2Proof.Machine.execVrot f s
  | .vrng f => Sys2Proof.Machine.execVrng f s
  | .accept f => Sys2Proof.Machine.execAccept f s
  | .mand f => Sys2Proof.Machine.execMand f s
  | .mor f => Sys2Proof.Machine.execMor f s
  | .mxor f => Sys2Proof.Machine.execMxor f s
  | .mandn f => Sys2Proof.Machine.execMandn f s
  | .mnot f => Sys2Proof.Machine.execMnot f s
  | .xBcast f => Sys2Proof.Machine.execXBcast f s
  | .xFirst f => Sys2Proof.Machine.execXFirst f s
  | .xLane f => Sys2Proof.Machine.execXLane f s
  | .xAny f => Sys2Proof.Machine.execXAny f s
  | .xAll f => Sys2Proof.Machine.execXAll f s
  | .xNone f => Sys2Proof.Machine.execXNone f s
  | .xCnt f => Sys2Proof.Machine.execXCnt f s
  | .xPass f => Sys2Proof.Machine.execXPass f s
  | .xRecv f => Sys2Proof.Machine.execXRecv f s
  | .mma f => Sys2Proof.Machine.execMma f s
  | .mmaQ f => Sys2Proof.Machine.execMmaQ f s
  | .accClr f => Sys2Proof.Machine.execAccClr f s
  | .accLd f => Sys2Proof.Machine.execAccLd f s
  | .accSt f => Sys2Proof.Machine.execAccSt f s
  | .accCvt f => Sys2Proof.Machine.execAccCvt f s
  | .latchRel f => Sys2Proof.Machine.execLatchRel f s
  | .omSet f => Sys2Proof.Machine.execOmSet f s
  | .copyGv f => Sys2Proof.Machine.execCopyGv f s
  | .copyVg f => Sys2Proof.Machine.execCopyVg f s
  | .copyVv f => Sys2Proof.Machine.execCopyVv f s
  | .copyGg f => Sys2Proof.Machine.execCopyGg f s
  | .copyTile f => Sys2Proof.Machine.execCopyTile f s
  | .copyIdx f => Sys2Proof.Machine.execCopyIdx f s
  | .copyCheck f => Sys2Proof.Machine.execCopyCheck f s
  | .semAdd f => Sys2Proof.Machine.execSemAdd f s
  | .semSub f => Sys2Proof.Machine.execSemSub f s
  | .semSet f => Sys2Proof.Machine.execSemSet f s
  | .sigWr f => Sys2Proof.Machine.execSigWr f s
  | .grpRed f => Sys2Proof.Machine.execGrpRed f s
  | .netPut f => Sys2Proof.Machine.execNetPut f s
  | .netGet f => Sys2Proof.Machine.execNetGet f s
  | .exposedResultLands h => Sys2Proof.Machine.execExposedResultLands h s
  | .xPassEntryArrives h => Sys2Proof.Machine.execXPassEntryArrives h s
  | .mxOccupancyEnd h => Sys2Proof.Machine.execMxOccupancyEnd h s
  | .freeze h => Sys2Proof.Machine.execFreeze h s
  | .freezeEnd h => Sys2Proof.Machine.execFreezeEnd h s
  | .flightResumeAtMeet launch wgi => Sys2Proof.Machine.execFlightResumeAtMeet launch wgi s
  | .groupArrival h group => Sys2Proof.Machine.execGroupArrival h group s
  | .gangPark launch gang => Sys2Proof.Machine.execGangPark launch gang s
  | .parkedGangWake launch gang => Sys2Proof.Machine.execParkedGangWake launch gang s
  | .monWaitRecheck h => Sys2Proof.Machine.execMonWaitRecheck h s
  | .watchTrigger h => Sys2Proof.Machine.execWatchTrigger h s
  | .baseTimeRise => Sys2Proof.Machine.execBaseTimeRise s
  | .logicalTimePause => Sys2Proof.Machine.execLogicalTimePause s
  | .writeStamp h => Sys2Proof.Machine.execWriteStamp h s
  | .leaseFill h line => Sys2Proof.Machine.execLeaseFill h line s
  | .invalidationAck peer line => Sys2Proof.Machine.execInvalidationAck peer line s
  | .peerFill peer line own => Sys2Proof.Machine.execPeerFill peer line own s
  | .evictionNotice peer line => Sys2Proof.Machine.execEvictionNotice peer line s
  | .recallLine line => Sys2Proof.Machine.execRecallLine line s
  | .atomicAtHome h => Sys2Proof.Machine.execAtomicAtHome h s
  | .lockedSequenceTimeout peer line => Sys2Proof.Machine.execLockedSequenceTimeout peer line s
  | .vaultStoreLands h => Sys2Proof.Machine.execVaultStoreLands h s
  | .fenceTimeout h => Sys2Proof.Machine.execFenceTimeout h s
  | .hypothesisFull h => Sys2Proof.Machine.execHypothesisFull h s
  | .engineVersionTimeout h op => Sys2Proof.Machine.execEngineVersionTimeout h op s
  | .hypothesisLost h => Sys2Proof.Machine.execHypothesisLost h s
  | .copyComplete h op => Sys2Proof.Machine.execCopyComplete h op s
  | .netComplete h op ok data => Sys2Proof.Machine.execNetComplete h op ok data s
  | .engineTranslationFault h op => Sys2Proof.Machine.execEngineTranslationFault h op s
  | .missedPromiseLatch h => Sys2Proof.Machine.execMissedPromiseLatch h s
  | .missedPromise h => Sys2Proof.Machine.execMissedPromise h s
  | .semGgLands h => Sys2Proof.Machine.execSemGgLands h s
  | .memoryError h => Sys2Proof.Machine.execMemoryError h s
  | .translationWalk h va acc => Sys2Proof.Machine.execTranslationWalk h va acc s
  | .tlbinvComplete id => Sys2Proof.Machine.execTlbinvComplete id s
  | .debugStep h => Sys2Proof.Machine.execDebugStep h s
  | .coreEvent core => Sys2Proof.Machine.execCoreEvent core s
  | .timerExpiry core => Sys2Proof.Machine.execTimerExpiry core s
  | .treadStateError h cls num => Sys2Proof.Machine.execTreadStateError h cls num s
  | .uncorrectableError site => Sys2Proof.Machine.execUncorrectableError site s
  | .lineRead pa => Sys2Proof.Machine.execLineRead pa s
  | .lineWrite pa mask data => Sys2Proof.Machine.execLineWrite pa mask data s
  | .tileRead part tid coords => Sys2Proof.Machine.execTileRead part tid coords s
  | .tileWrite part tid coords data => Sys2Proof.Machine.execTileWrite part tid coords data s
  | .regionClean base len => Sys2Proof.Machine.execRegionClean base len s
  | .regionInvalidate base len => Sys2Proof.Machine.execRegionInvalidate base len s
  | .configurationRead stack off => Sys2Proof.Machine.execConfigurationRead stack off s
  | .configurationWrite stack off val => Sys2Proof.Machine.execConfigurationWrite stack off val s
  | .hashVersionAdopt stack => Sys2Proof.Machine.execHashVersionAdopt stack s
  | .beaterMove stack => Sys2Proof.Machine.execBeaterMove stack s
  | .patrolScrub site => Sys2Proof.Machine.execPatrolScrub site s
  | .flitReceive link seq crcOk payload => Sys2Proof.Machine.execFlitReceive link seq crcOk payload s
  | .deadLink link => Sys2Proof.Machine.execDeadLink link s
  | .linkUp link far => Sys2Proof.Machine.execLinkUp link far s
  | .hostSnoop line inv => Sys2Proof.Machine.execHostSnoop line inv s
  | .inboundHostRequest req => Sys2Proof.Machine.execInboundHostRequest req s
  | .incomingRdma req => Sys2Proof.Machine.execIncomingRdma req s
  | .doorbell part q => Sys2Proof.Machine.execDoorbell part q s
  | .dispatchPacket part q => Sys2Proof.Machine.execDispatchPacket part q s
  | .barrierPacket part q => Sys2Proof.Machine.execBarrierPacket part q s
  | .signalPacket part q => Sys2Proof.Machine.execSignalPacket part q s
  | .barrierEvaluate part q => Sys2Proof.Machine.execBarrierEvaluate part q s
  | .barrierSignalReread part q => Sys2Proof.Machine.execBarrierSignalReread part q s
  | .dispatchComplete launch => Sys2Proof.Machine.execDispatchComplete launch s
  | .gangPlace launch gang chip flight => Sys2Proof.Machine.execGangPlace launch gang chip flight s
  | .calenderDecision launch prof => Sys2Proof.Machine.execCalenderDecision launch prof s
  | .gangPreempt launch gang => Sys2Proof.Machine.execGangPreempt launch gang s
  | .contextSave launch gang => Sys2Proof.Machine.execContextSave launch gang s
  | .contextSpill launch gang => Sys2Proof.Machine.execContextSpill launch gang s
  | .gangRestore launch gang chip flight => Sys2Proof.Machine.execGangRestore launch gang chip flight s
  | .agingTick launch gang => Sys2Proof.Machine.execAgingTick launch gang s
  | .sliceTimerTick => Sys2Proof.Machine.execSliceTimerTick s
  | .qctlActivate part q => Sys2Proof.Machine.execQctlActivate part q s
  | .qctlDisable part q => Sys2Proof.Machine.execQctlDisable part q s
  | .qctlReset part q => Sys2Proof.Machine.execQctlReset part q s
  | .ncrqMakeNoncoherent part => Sys2Proof.Machine.execNcrqMakeNoncoherent part s
  | .ncrqMakeCoherent part => Sys2Proof.Machine.execNcrqMakeCoherent part s
  | .preqPreempt part => Sys2Proof.Machine.execPreqPreempt part s
  | .preqPreemptHold part => Sys2Proof.Machine.execPreqPreemptHold part s
  | .preqRelease part => Sys2Proof.Machine.execPreqRelease part s
  | .chctlAssign chip part => Sys2Proof.Machine.execChctlAssign chip part s
  | .chctlUnassign chip => Sys2Proof.Machine.execChctlUnassign chip s
  | .chctlIsolate chip => Sys2Proof.Machine.execChctlIsolate chip s
  | .isolationSaveTimeout chip => Sys2Proof.Machine.execIsolationSaveTimeout chip s
  | .isolationDrainTimeout chip => Sys2Proof.Machine.execIsolationDrainTimeout chip s
  | .chctlReset chip => Sys2Proof.Machine.execChctlReset chip s
  | .chctlEnumerate chip => Sys2Proof.Machine.execChctlEnumerate chip s
  | .chctlAssignPort port part => Sys2Proof.Machine.execChctlAssignPort port part s
  | .chctlUnassignPort port => Sys2Proof.Machine.execChctlUnassignPort port s
  | .ncoreStart core => Sys2Proof.Machine.execNcoreStart core s
  | .ncoreHalt core => Sys2Proof.Machine.execNcoreHalt core s
  | .ndoorWrite part val => Sys2Proof.Machine.execNdoorWrite part val s
  | .mdoorWrite val => Sys2Proof.Machine.execMdoorWrite val s
  | .tcmpWrite core val => Sys2Proof.Machine.execTcmpWrite core val s
  | .calctlQuotaWrite part val => Sys2Proof.Machine.execCalctlQuotaWrite part val s
  | .calctlFlush part => Sys2Proof.Machine.execCalctlFlush part s
  | .calstClear part => Sys2Proof.Machine.execCalstClear part s
  | .connbWrite part val => Sys2Proof.Machine.execConnbWrite part val s
  | .pquotaWrite part val => Sys2Proof.Machine.execPquotaWrite part val s
  | .mextWrite val => Sys2Proof.Machine.execMextWrite val s
  | .dirqWrite val => Sys2Proof.Machine.execDirqWrite val s
  | .pknumWrite val => Sys2Proof.Machine.execPknumWrite val s
  | .ctxresWrite val => Sys2Proof.Machine.execCtxresWrite val s
  | .counterClearWrite reg val => Sys2Proof.Machine.execCounterClearWrite reg val s
  | .islReqWrite isl val => Sys2Proof.Machine.execIslReqWrite isl val s
  | .islandLevelChange isl => Sys2Proof.Machine.execIslandLevelChange isl s
  | .pwrctlWrite val => Sys2Proof.Machine.execPwrctlWrite val s
  | .powerControlSample r => Sys2Proof.Machine.execPowerControlSample r s
  | .telselWrite val => Sys2Proof.Machine.execTelselWrite val s
  | .registerWrite reg val => Sys2Proof.Machine.execRegisterWrite reg val s
  | .thermalTrip => Sys2Proof.Machine.execThermalTrip s
  | .packageReset => Sys2Proof.Machine.execPackageReset s
  | .getVersion port => Sys2Proof.Machine.execGetVersion port s
  | .getCapabilities port => Sys2Proof.Machine.execGetCapabilities port s
  | .negotiateAlgorithms port req => Sys2Proof.Machine.execNegotiateAlgorithms port req s
  | .getDigests port => Sys2Proof.Machine.execGetDigests port s
  | .getCertificate port off len => Sys2Proof.Machine.execGetCertificate port off len s
  | .challenge port nonce => Sys2Proof.Machine.execChallenge port nonce s
  | .getMeasurements port idx nonce => Sys2Proof.Machine.execGetMeasurements port idx nonce s
  | .readTelemetryMessage kind idx => Sys2Proof.Machine.execReadTelemetryMessage kind idx s
  | .readBstatMessage => Sys2Proof.Machine.execReadBstatMessage s
  | .setPwrctlOobMessage watts => Sys2Proof.Machine.execSetPwrctlOobMessage watts s
  | .readyReturn link => Sys2Proof.Machine.execReadyReturn link s
  | .cxlDeviceAcknowledgement tag data => Sys2Proof.Machine.execCxlDeviceAcknowledgement tag data s
  | .hostWriteComplete tag data => Sys2Proof.Machine.execHostWriteComplete tag data s
  | .resolveComplete h => Sys2Proof.Machine.execResolveComplete h s
  | .dramCalibration stack => Sys2Proof.Machine.execDramCalibration stack s
  | .linkCalibration link => Sys2Proof.Machine.execLinkCalibration link s
  | .rowDisturbanceManagement stack => Sys2Proof.Machine.execRowDisturbanceManagement stack s
  | .mainInputOff => Sys2Proof.Machine.execMainInputOff s

end Sys2Proof.Machine
end

