-- ==== Sys2Proof/Machine/Cycle.lean ====
section
/-! DEFINITION. One island cycle of a hart or of a flight (R47 to R53, R286): fetching a bundle (R78 to
R80), examining its slots together (R11, R287, R373), issuing it, and what advances. -/

namespace Sys2Proof.Machine

/-! ### One bundle -/

/-- An operation that is to issue: its slot, and the address, length and number of slots of its bundle. -/
structure Slotted where
  addr : VAddr
  len : Nat
  ops : Nat
  slot : Slot
  ins : Instr
  deriving DecidableEq, Repr

/-- The acting hart is about to issue an operation. -/
def State.prep (o : Slotted) (s : State) : State :=
  s.modMe (fun h => { h with
    ctl := { h.ctl with pc := o.addr },
    iss := { h.iss with out := .ok, slot := o.slot, len := o.len, ops := o.ops } })

/-- The state after a meaning; one that stops leaves the state as it was. -/
def State.perform (f : Sem) (s : State) : State :=
  match f s with
  | .next s' => s'
  | _ => s

/-- The state after an operation of the bundle. -/
def State.trial (o : Slotted) (s : State) : State := (s.prep o).perform (exec o.ins)

/-- The class of the trap that an operation raised instead of issuing (R373). -/
def State.raised (s : State) : Option Nat :=
  match s.me.iss.out with
  | .trapped c => if c = clsAfter then none else some c
  | _ => none

/-- The bundle has issued, even where it ends in a trap that follows it (R341). -/
def State.issued (s : State) : Bool :=
  match s.me.iss.out with
  | .ok => true
  | .trapped c => c = clsAfter
  | _ => false

/-- The operation stalled or is held. -/
def State.waits (s : State) : Bool :=
  match s.me.iss.out with
  | .stalled _ => true
  | _ => false

/-- The operation froze. -/
def State.froze (s : State) : Bool := s.me.iss.out = .frozen

/-- An operation that was tried, or a bundle whose decoding trapped: its address, its slot, and the state that it
ends in. -/
structure Tried where
  addr : VAddr
  slot : Option Slot
  st : State

/-- The trap of the least class up to `lim`, of the lowest header bit (R373), with `TITER` of every slot that
traps (R326). -/
def pickTrap (lim : Nat) (s : State) (ts : List Tried) : Option State :=
  let cs := ts.filterMap (fun t => match t.st.raised with
    | some c => if c ≤ lim then some (c, t) else none
    | none => none)
  let least := cs.foldl (fun m c => Nat.min m c.1) 100
  (cs.find? (fun c => c.1 = least)).map (fun c =>
    let slots := (ts.filter (fun t => t.st.raised.isSome)).filterMap (·.slot)
    c.2.st.modMe (fun h => { h with spr := { h.spr with titer := s.titer s.me c.2.addr.toNat slots } }))

/-- What stops a bundle from going on to its waits (R286, R373): the checks that need no translation come before
the freeze for one, and the others after it. -/
def stopOf (old : Option Stall) (a : VAddr) (s : State) (ts : List Tried) : Option State :=
  match pickTrap clsState s ts with
  | some t => some t
  | none =>
    match ts.find? (fun t => t.st.froze) with
    | some t => some (t.st.modMe (fun h => { h with ctl := { h.ctl with stall := old, pc := a } }))
    | none => pickTrap clsFull s ts

/-- The arrival that an operation of a stalled bundle has sent stands (R287, R300), and the first
examination of its `bar.wait` is kept (R301). -/
def State.keepSent (o : Slotted) (r s : State) : State :=
  let s := s.modMe (fun h => { h with units := { h.units with
    grec := r.me.units.grec, arrPhase := r.me.units.arrPhase, arrivals := r.me.units.arrivals } })
  match o.ins with
  | .barWait f =>
    if guardHolds f.gk.g s.me then
      let p := (s.me.regs.sReg f.a).toNat % 65536
      (s.prep o).modMe (Hart.keepSeen (s.phaseDone f.imm.toNat p))
    else s
  | _ => s

/-- The operation is a tagged store that finds no version free (R221). -/
def State.wantsVersion (o : Slotted) (s : State) : Bool :=
  o.slot = .ls &&
    (let r := (s.modMe (fun h => { h with lsu := { h.lsu with verWait := none } })).trial o
     r.waits && r.me.lsu.verWait.isSome)

/-- What a stalled bundle leaves: the effects of its waits alone; a tagged store that has found a version counts no
more (R221). -/
def State.waitAll (os : List Slotted) (s : State) : State :=
  let t := os.foldl (fun s o =>
    let r := s.trial o
    if r.waits then r else if r.issued then s.keepSent o r else s) s
  if os.any (fun o => s.wantsVersion o) then t
  else t.modMe (fun h => { h with lsu := { h.lsu with verWait := none } })

/-- The stall of a bundle at an address: it began with an earlier stall there, and it has the parking waits
of its slots (R66). -/
def stallOf (a : VAddr) (clk limit : Nat) (old : Option Stall) (ws : List Stall) : Stall :=
  let parks := ws.any (·.parks)
  let new : Stall := { since := clk, pc := a, parks := parks, limit := limit, waits := ws.flatMap (·.waits),
                       asleep := if ws.all (·.asleep.isSome) then ws.findSome? (·.asleep) else none }
  match old with
  | some t => if t.pc = a then { new with since := t.since, limit := t.limit } else new
  | none => new

/-- The order in which the slots of a bundle take effect: none reads what another writes (R11): the slots that read
LT come before those that raise it, and CT, which may move the hart, comes last. (DEDUCED: log entry 8.) -/
def issueOrder (os : List Slotted) : List Slotted :=
  ([.sa, .sb, .mx, .ls, .xf, .va, .ec, .ct] : List Slot).flatMap (fun sl =>
    os.filter (fun o => o.slot = sl))

/-- One operation after another takes effect; those that could no longer issue, because what another one of the
bundle does shuts them out (R167, R173, R175, R179), are named. -/
def State.issueRun (os : List Slotted) (s : State) : List Slotted × State :=
  os.foldl (fun (acc : List Slotted × State) o =>
    let r := acc.2.trial o
    if r.issued then (acc.1, r) else (o :: acc.1, acc.2)) ([], s)

/-- The record of the arrivals of a bundle is cleared when it issues (R299). -/
def Hart.clearRecord (as : List VAddr) (h : Hart) : Hart :=
  { h with units := { h.units with grec := h.units.grec.filter (fun r => !as.contains r.pc) } }

/-- The semaphore that an operation waits for (R84, R288); none where its guard reads false. -/
def Slotted.semaphore (o : Slotted) (h : Hart) : Option Nat :=
  match o.slot, o.ins with
  | _, .waitSem f => if guardHolds f.gk.g h then some f.sem.toNat else none
  | .mx, i | .ec, i =>
    let w := encode i
    let x := WaitSig.dec w
    if x.wthr = 0#6 ∨ !guardHolds (Guard.dec w) h then none else some x.widx.toNat
  | _, _ => none

/-- A bundle issues: LT rises to the base time (R189), and to the stamps of engine operations whose completion the
tread observes (R207): their signal has been waited for, or their promised time has been reached without the trap of
R16. (DEDUCED: log entry 101.) -/
def Hart.atIssue (base clk : Nat) (os : List Slotted) (h : Hart) : Hart :=
  let sems := os.filterMap (fun o => o.semaphore h)
  (h.seeWhere (fun o => !o.seen && ((decide (o.promise ≤ clk) && !o.latched)
    || o.sig.any (fun (g : Nat × Nat) => sems.contains g.1)))).raiseLt base

/-- Every operation takes effect. -/
def State.issueAll (a : VAddr) (os : List Slotted) (s : State) : List Slotted × State :=
  let (bad, s) := State.issueRun (issueOrder os)
    ((s.modMe (Hart.atIssue s.hub.base s.hub.clk os)).modMe (Hart.setOut .ok))
  let s := s.modMe (Hart.clearRecord (os.map (·.addr)))
  match s.me.iss.out with
  | .trapped _ => (bad, s)
  | _ => (bad, s.modMe (fun h => { h.setOut .ok with ctl := { h.ctl with pc := a } }))

/-- An operation as it is found: a state violation where another one of its bundle shuts it out, and the end of
the stall of a tagged store that still finds no version (R221). -/
def State.tryOp (bad : List Slotted) (o : Slotted) (s : State) : Tried :=
  let r := s.trial o
  { addr := o.addr, slot := some o.slot,
    st := if r.issued ∧ bad.contains o then (s.prep o).perform (State.illegal 9)
      else if r.waits ∧ s.wantsVersion o then r.perform (execHypothesisFull r.me.id) else r }

/-- The hart begins to try the operations of one cycle. -/
def Hart.beginCycle (h : Hart) : Hart :=
  { h with
    ctl := { h.ctl with stall := none },
    iss := { h.iss with next := none, after := none, first := some h.iss.seq } }

/-- Examines the operations that would issue together in the bundles at some addresses, the first of them at `a`
(R11, R286, R287, R293, R373): they trap, freeze, stall or issue together; `pre` are the traps found when the bundles
were decoded. (DEDUCED: log entry 9.) -/
def State.examineAt (a : VAddr) (as : List VAddr) (pre : List Tried) (os : List Slotted) (s : State) : State :=
  let old := s.me.ctl.stall
  let base := s.modMe Hart.beginCycle
  let (bad, done) := base.issueAll a os
  let tries := pre ++ os.map (fun o => base.tryOp bad o)
  match as.findSome? (fun b => stopOf old a base (tries.filter (fun t => t.addr = b))) with
  | some t => t
  | none =>
    let waiting := tries.filter (fun t => t.st.waits)
    if waiting.isEmpty then done
    else
      let limit := (s.hub.part s.me.partNo).park.toNat
      let st := stallOf a s.hub.clk limit old (waiting.filterMap (fun t => t.st.me.ctl.stall))
      (base.waitAll os).modMe (fun h =>
        { h.setOut (.stalled st.parks) with ctl := { h.ctl with stall := some st, pc := a } })

/-- Examines one bundle. -/
def State.examine (a : VAddr) (os : List Slotted) (s : State) : State := s.examineAt a [a] [] os

/-- The trap of the checks 0x01 to 0x08 (R103, R371). -/
def State.decodeTrap (a : VAddr) (d : Nat) (sl : Option Slot) (s : State) : State :=
  (s.modMe (fun h => { h with ctl := { h.ctl with pc := a } })).takeTrap
    { cls := clsDecode, code := 0x01, info := d, slot := sl, tpc := a, taddr := 0, lvl := toS s.me.level }

/-- What the bytes at an address stand for, for a hart (R103). -/
def Hart.bundleAt (a : VAddr) (bytes : List Byte) (h : Hart) : Fetched :=
  decodeBundle h.isCore (kernelCheck h) (a.toNat % 64) bytes

/-- The operations of a decoded bundle. -/
def slotted (a : VAddr) (len : Nat) (ops : List (Slot × Instr)) : List Slotted :=
  ops.map (fun o => { addr := a, len := len, ops := ops.length, slot := o.1, ins := o.2 })

/-- A 3-, 5- or 6-bit field anywhere in a slot word holds a number. -/
def wordNames (w bits k n : Nat) : Bool := (List.range bits).any (fun b => w / 2 ^ b % 2 ^ k = n)

/-- The interlock of a Newel core (R30): a bundle waits while a result in flight has a register that one of
its words can name. (DEDUCED: log entry 64.) -/
def Hart.interlocked (os : List Slotted) (h : Hart) : Bool :=
  h.isCore && h.sched.pipe.any (fun p => os.any (fun o =>
    let w := encode o.ins
    let bits := 8 * o.slot.size
    match p.kind with
    | 1 => wordNames w bits 6 p.reg || (p.reg = 63 && o.slot = .ct)
    | 2 => wordNames w bits 5 p.reg
    | 3 | 4 => wordNames w bits 3 p.reg
    | _ => false))

/-- Examines the bundle whose bytes stand at an address. -/
def State.examineBundle (a : VAddr) (bytes : List Byte) (s : State) : State :=
  match s.me.bundleAt a bytes with
  | .pad => s.modMe (fun h => { h.setOut .ok with iss := { h.iss with ops := 0 } })
  | .illegal _ d sl => s.decodeTrap a d sl
  | .bundle len ops =>
    let os := slotted a len ops
    if s.me.interlocked os then s.modMe (Hart.setOut (.stalled false)) else s.examine a os

/-! ### Fetch (R78 to R80, R418) -/

/-- How a fetch ends. -/
inductive FetchEnd where
  | ready | wait
  /-- the fault that the fetch of the line meets -/
  | trap (f : FRes)

/-- A fault on instruction fetch (R80): `TPC` and `TADDR` hold the bundle's address. -/
def State.fetchTrap (code info lvl : Nat) (s : State) : State :=
  s.takeTrap { cls := clsDecode, code := code, info := info, slot := none, tpc := s.me.ctl.pc,
               taddr := s.me.ctl.pc.toNat, lvl := lvl }

/-- The hart takes the fault of a fetch (R80). -/
def State.fetchFault (f : FRes) (s : State) : State :=
  match f with
  | .fault x => (s.fetchTrap 0x0c 0 (xfltLevel s.me.level x)).modMe (fun h =>
      { h with spr := { h.spr with xflt := xfltWord x .fetch } })
  | .mem info => s.fetchTrap 0x0b info (toS s.me.level)
  | _ => s.fetchTrap 0x09 0 (toS s.me.level)

/-- The hart holds a line. -/
def Hart.holdsLine (la : Nat) (h : Hart) : Bool := h.ctl.line.any (fun l => l.1 = la)

/-- The byte at the hart's address in the line that it holds. -/
def Hart.headByte (h : Hart) : Byte :=
  ((h.ctl.line.map (·.2)).getD []).getD (h.ctl.pc.toNat % 64) 0#8

/-- Gets the line of the hart's address and moves past pads (R79, R80): a line arrives at a free tick.
(DEDUCED: log entry 62.) (DESIGN CHOICE: log entry 63.) -/
def State.fetch : Nat → State → FetchEnd × State
  | 0, s => (.wait, s)
  | fuel + 1, s =>
    let la := s.me.ctl.pc.toNat / 64 * 64
    if s.me.holdsLine la then
      if s.me.headByte = 0#8 then
        State.fetch fuel (s.modMe (fun h => { h with ctl := { h.ctl with pc := BitVec.ofNat 57 (la + 64) } }))
      else (.ready, s)
    else
      match s.me.ctl.fetchAt with
      | none =>
        let (n, s) := s.fresh
        State.fetch fuel (s.modMe (fun h => { h with ctl := { h.ctl with fetchAt := some (s.hub.clk + n) } }))
      | some t =>
        if s.hub.clk < t then (.wait, s)
        else match s.fetchRecall la with
        | some s => (.wait, s)
        | none =>
          match s.codeLine la with
          | .ok bs =>
            let t := s.fetchTime la
            State.fetch fuel (State.modMe (fun h => { h with
              ctl := { h.ctl with line := some (la, bs), fetchAt := none } }) { t with free := t.free + 1 })
          | .wait w => (.wait, s.awaitXlat w)
          | f => (.trap f, s)

/-- The bytes of the bundle at the hart's address in the line that it holds. -/
def Hart.bundleBytes (h : Hart) : List Byte :=
  match h.ctl.line with
  | some (_, bs) => bs.drop (h.ctl.pc.toNat % 64)
  | none => []

/-- Examines the bundle at the hart's own address. -/
def State.examineHere (s : State) : State := s.examineBundle s.me.ctl.pc s.me.bundleBytes

/-! ### The modulo sequencer (R291, R293) -/

/-- The body bundles that issue in a sequencer cycle, by index. -/
def LoopSt.issuing (l : LoopSt) (c : Nat) : List Nat :=
  (List.range l.body.length).filter (fun j => j ≤ c && (c - j) % l.ii = 0 && (c - j) / l.ii < l.n)

/-- Sequencer cycles of the loop. -/
def LoopSt.cycles (l : LoopSt) : Nat := (l.n - 1) * l.ii + l.body.length

/-- The address of the lowest body bundle that issues next, from a cycle on. -/
def LoopSt.nextPc (l : LoopSt) (c : Nat) : VAddr :=
  match ((List.range (l.ii + l.body.length)).flatMap (fun k => l.issuing (c + k))).head? with
  | some j => ((l.body[j]?).map (·.1)).getD l.after
  | none => l.after

/-- Registers that bundles of one sequencer cycle have in common as destinations. -/
def sharedDest (a b : List (Slot × Instr)) : Bool :=
  let ds (l : List (Slot × Instr)) : List Dest := (l.flatMap (fun p => p.2.dests)).filter Dest.counts
  (ds a).any (fun d => (ds b).contains d)

/-- The rank waits for its offset before the sequencer cycle (R52). -/
def LoopSt.paused (l : LoopSt) : Bool := l.pauses.any (fun p => p.1 = l.c && p.2 ≠ 0)

/-- One more cycle, or one less, of waiting before a sequencer cycle. -/
def pauseMore (c : Nat) (ps : List (Nat × Nat)) : List (Nat × Nat) :=
  if ps.any (fun p => p.1 = c) then ps.map (fun p => if p.1 = c then (c, p.2 + 1) else p) else (c, 1) :: ps

/-- A cycle of waiting has passed. -/
def LoopSt.pauseLess (l : LoopSt) : LoopSt :=
  { l with pauses := l.pauses.map (fun p => if p.1 = l.c then (p.1, p.2 - 1) else p) }

/-- The hart does nothing in this cycle but let it pass. -/
def State.idle (s : State) : State :=
  s.modMe (fun h => { h.setOut .ok with iss := { h.iss with ops := 0 } })

/-- What issues in one sequencer cycle (R291 to R293): the address of its lowest bundle and those of all, the traps of
decoding, and the operations; a body bundle is decoded when it first issues. (DEDUCED: log entry 66.) -/
def State.loopCycle (l : LoopSt) (s : State) : VAddr × List VAddr × List Tried × List Slotted :=
  let fs := ((l.issuing l.c).filterMap (fun j => l.body[j]?)).map (fun b => (b.1, s.me.bundleAt b.1 b.2))
  let bs := fs.filterMap (fun f => match f.2 with
    | .bundle len ops => some (f.1, len, ops)
    | _ => none)
  let pre : List Tried := fs.filterMap (fun f => match f.2 with
    | .illegal _ d sl => some { addr := f.1, slot := sl, st := s.decodeTrap f.1 d sl }
    | .bundle _ ops =>
      if sharedDest ops ((bs.filter (fun x => x.1 ≠ f.1)).flatMap (fun x => x.2.2)) then
        some { addr := f.1, slot := none, st := s.decodeTrap f.1 8 none }
      else none
    | .pad => none)
  let os := bs.flatMap (fun b => slotted b.1 b.2.1 b.2.2)
  (((bs.head?).map (·.1)).getD s.me.ctl.pc, fs.map (·.1), pre, os)

/-- Examines one sequencer cycle (R291 to R293). -/
def State.examineLoop (l : LoopSt) (s : State) : State :=
  if l.paused then s.idle else
  let x := s.loopCycle l
  let s := s.examineAt x.1 x.2.1 x.2.2.1 x.2.2.2
  if s.me.iss.out = .ok then s.modMe (fun h => { h with iss := { h.iss with ops := 0 } }) else s

/-- The step of the sequencer (R291): the next cycle, or the bundle after the body. -/
def Hart.loopStep (h : Hart) : Hart :=
  match h.sched.loop with
  | none => h
  | some l =>
    if l.paused then { h with sched := { h.sched with loop := some l.pauseLess } }
    else if l.cycles ≤ l.c + 1 then
      { h with sched := { h.sched with loop := none }, ctl := { h.ctl with pc := l.after } }
    else
      { h with sched := { h.sched with loop := some { l with c := l.c + 1 } },
               ctl := { h.ctl with pc := l.nextPc (l.c + 1) } }

/-! ### What advances in a cycle -/

/-- One cycle of a schedule: results in flight and the MX unit (R11, R166). -/
def Sched.tick (sc : Sched) : Sched :=
  { sc with
    pipe := sc.pipe.map (fun p => { p with left := p.left - 1 }),
    mx := sc.mx.map (fun o => { o with left := o.left - 1, done := o.done + 1 }) }

/-- What passes in every island cycle, frozen ones too: updates under way to other treads (R246) and the
waits of the engine for a version (R221). -/
def Hart.pass (h : Hart) : Hart :=
  { h with units := { h.units with
    semOut := h.units.semOut.map (fun u => { u with tick := u.tick - 1 }),
    eng := h.units.eng.map (fun o => { o with verWait := o.verWait.map (fun e => (e.1, e.2 + 1)) }) } }

/-- A stepped cycle has passed (R393). -/
def Hart.stepDone (h : Hart) : Hart :=
  if h.ctl.stepping then
    { h with ctl := { h.ctl with stepping := false }, latched := { h.latched with dbgStep := true } }
  else h

/-- The end of a cycle in which nothing counted in `c` advances (R50). -/
def State.endFrozen (s : State) : State := s.modMe (fun h => h.pass.landSems.stepDone)

/-- The end of a cycle: results that are due land, then the changes of semaphores (R11, R85). -/
def State.endCycle (s : State) : State :=
  let s := s.modMe (fun h =>
    { h with sched := h.sched.tick, ctl := { h.ctl with lsLeft := h.ctl.lsLeft - 1 } })
  s.landDue.endFrozen

/-- The end of the cycle whose bundle issued and was followed by a system call (R341): the schedule that it
left held passes that cycle. (DEDUCED: log entry 37.) -/
def State.endAfter (s : State) : State :=
  match s.me.ctl.held with
  | none => s.endCycle
  | some sc =>
    let own := s.me.sched
    let s := (s.modMe (fun h => { h with sched := sc })).endCycle
    s.modMe (fun h => { h with sched := own, ctl := { h.ctl with held := some h.sched } })

/-- A cycle in which the bundle stalled (R52): a tagged store counts its wait for a version (R221). -/
def State.endStalled (s : State) : State :=
  (s.modMe (fun h => { h with lsu := { h.lsu with
    verWait := h.lsu.verWait.map (fun w => (w.1 + 1, w.2)) } })).endCycle

/-! ### Committing a bundle -/

/-- The hart after its bundle has issued: the next address. -/
def Hart.advance (a : VAddr) (h : Hart) : Hart :=
  { h with
    ctl := { h.ctl with
      pc := a, stall := none, bar := none, fetchAt := none, posted := false },
    iss := { h.iss with next := none, after := none, first := none } }

/-- The bundle at the hart's address has issued (R54, R130, R295, R298). -/
def State.commitBundle (s : State) : State :=
  let after := s.me.iss.after
  let s := s.modMe (Hart.advance (s.me.iss.next.getD s.nextAddr))
  match after with
  | none => s
  | some .retired => s.retireMe
  | some .halted =>
    (match s.me.coreNo with
      | some n => s.haltCore n
      | none => s)
  | some r => s.modMe (fun h => { h with ctl := { h.ctl with run := r, prev := r, fifo := [] } })

/-- The cycle passes for a hart whose examination ended without a stall, freeze or trap: a bundle issued, a
sequencer cycle passed, or a cycle of `hold`. -/
def State.commitMe (s : State) : State :=
  let s := s.modMe (fun h => { h with ctl := { h.ctl with
    fifo := h.ctl.fifo.drop (if h.ctl.dec.isSome then 1 else 0), dec := none } })
  match s.me.iss.out with
  | .trapped _ => s
  | _ =>
    if s.me.iss.ops ≠ 0 then s.commitBundle
    else if s.me.sched.loop.isSome then
      s.modMe (fun h => { (h.loopStep) with
        ctl := { h.loopStep.ctl with stall := none } })
    else s.modMe (fun h => { h with
      sched := { h.sched with hold := h.sched.hold - 1 },
      ctl := { h.ctl with
        resume := match h.ctl.resume with
          | some n => if n ≤ 1 then none else some (n - 1)
          | none => none } })

/-! ### Conditions at a bundle boundary (R286, R373) -/

/-- The hart is frozen (R50). -/
def Hart.isFrozen (h : Hart) : Bool := h.ctl.frozen || h.absent || h.wants

/-- The trap that is taken at this boundary, the bundle's own apart (R373), and whether it stops a flight
(R378). Within a `hold` only a stepped cycle ends (R393). (DEDUCED: log entry 65.) -/
def State.boundary (s : State) : Option (Sem × Bool) :=
  let h := s.me
  if !h.live then none
  else if 0 < h.sched.hold ∧ h.ctl.run ≠ .atMeet then
    (if h.latched.dbgStep then some (execDebugStep h.id, true) else none)
  else
    let fault : Option Nat := (h.units.eng.find? (fun o => match o.stat with
      | .suspended _ _ _ false => true
      | _ => false)).map (·.id)
    match h.latched.stateErr, h.latched.memErr, fault with
    | some (c, n), _, _ => some (execTreadStateError h.id c n, true)
    | none, _ :: _, _ => some (execMemoryError h.id, true)
    | none, [], some op => some (execEngineTranslationFault h.id op, true)
    | none, [], none =>
      if h.latched.missed ≠ [] then some (execMissedPromise h.id, true)
      else if h.latched.hypLost.isSome ∧ h.level = 0 then some (execHypothesisLost h.id, false)
      else if h.latched.dbgStep then some (execDebugStep h.id, true)
      else match h.id, h.coreEventOf s.hub.clk with
        | .core n, some _ => some (execCoreEvent n, true)
        | _, _ => none

/-! ### A hart on its own -/

/-- The hart has reached `MEET` (R19, R296, R378). -/
def Hart.atMeetPc (h : Hart) : Bool :=
  h.level = 0 && h.sched.hold = 0 && h.sched.loop.isNone && h.ctl.pc.toNat = h.spr.meet.toNat % 2 ^ 57

/-- The hart issues from its own address in this cycle: no `hold` and no loop stands before it. -/
def Hart.atBundle (h : Hart) : Bool := h.sched.hold = 0 && h.sched.loop.isNone

/-- Examines what a hart under its own program counter does in this cycle, once its line is there. -/
def State.examineOwn (s : State) : State :=
  if 0 < s.me.sched.hold then s.idle
  else match s.me.sched.loop with
  | some l => s.examineLoop l
  | none => s.examineHere

/-- The end of a hart's own cycle, by what became of its bundle. -/
def State.finishOwn (s : State) : State :=
  match s.me.iss.out with
  | .frozen => s.endFrozen
  | .stalled _ => s.endStalled
  | .trapped c => if c = clsAfter then s.commitMe.endAfter else s.endCycle
  | .ok => s.commitMe.endCycle

/-- The hart slept at its bundle in its last cycle, and its time has come (R289): the next bundle issues in this
very cycle. -/
def Hart.overslept (clk : Nat) (h : Hart) : Bool :=
  h.ctl.stall.any (fun t => t.pc = h.ctl.pc && t.asleep.any (fun a => a ≤ clk))

/-- A dirty line may be evicted before a bundle issues, and is written back then (R210): a free choice of whether
and of which. (DESIGN CHOICE: log entry 95.) -/
def State.mayWriteBack (s : State) : State :=
  let ls := s.me.lsu.lease.filter (fun l => !l.dirty.isEmpty)
  if ls.isEmpty then s
  else
    let go := Config.freeBool s.free
    let k := Config.freeNat (s.free + 1) % ls.length
    { s with free := s.free + 2 }.modMe (fun h =>
      match go, ls[k]? with
      | true, some l => h.flushLine l.line s.hub.clk false
      | _, _ => h)

/-- A cached translation may be gone before a bundle issues (R352): a free choice of whether and of which.
(DESIGN CHOICE: log entry 33.) -/
def State.mayEvict (s : State) : State :=
  let s := s.mayWriteBack
  if s.me.lsu.tlb.isEmpty then s
  else
    { s with free := s.free + 1 }.modMe (fun h =>
      { h with lsu := { h.lsu with tlb := evictFrom s.free h.lsu.tlb } })

/-- The hart arrives at `MEET`, or waits there (R19, R296, R378). -/
def Hart.meets (h : Hart) : Bool :=
  h.ctl.run = .atMeet || (!h.isCore && (h.ctl.run = .orphan || h.ctl.run = .detached) && h.atMeetPc)

/-- A detached tread at `MEET` waits there; an orphan tests each new `MEET` (R378). -/
def Hart.arriveMeet (h : Hart) : Hart :=
  if h.ctl.run = .detached then { h with ctl := { h.ctl with run := .atMeet } } else h

/-- The bundle of a hart, or its sequencer cycle, is examined and the cycle ends. A return to a lower level resumes
in the next cycle what it left, in the place of the held cycle (R374, R379). -/
def State.issueOwn (s : State) : State :=
  let r := s.examineOwn
  let back := r.me.iss.out = .ok && s.me.level ≠ 0 && s.me.sched.loop.isNone
    && r.me.iss.ops = 1 && r.me.level ≠ s.me.level
  if back then r.commitMe.modMe (fun h => h.pass.landSems) else r.finishOwn

/-- Gets the line of the bundle that is to issue, if one is (R80). -/
def State.fetchOwn (s : State) : FetchEnd × State := if s.me.atBundle then s.fetch 8 else (.ready, s)

/-- A cycle of a hart that no stringer feeds (R19, R30, R286, R364): frozen, trapping, waiting at `MEET`, or
at its bundle. -/
def State.ownCycle (s : State) : State :=
  if s.me.ctl.run = .bootRom then s.bootStep
  else if !s.me.live ∨ s.me.isFrozen then s.endFrozen
  else
    let (f, s) := if s.me.meets then (.ready, s) else s.mayEvict.fetchOwn
    match f with
    | .wait => s.endFrozen
    | f =>
      match s.boundary with
      | some ev => (s.perform ev.1).endCycle
      | none =>
        if s.me.meets then (s.modMe Hart.arriveMeet).endCycle
        else match f with
        | .trap r => (s.fetchFault r).endCycle
        | _ =>
          let r := s.examineOwn
          if s.me.overslept s.hub.clk ∧ r.me.iss.out = .ok then
            match r.commitMe.fetchOwn with
            | (.ready, s) => if s.me.meets then (s.modMe Hart.arriveMeet).endCycle else s.issueOwn
            | (.wait, s) => s.endFrozen
            | (.trap r, s) => (s.fetchFault r).endCycle
          else s.issueOwn

/-! ### A flight in broadcast (R47 to R53, R131, R377) -/

/-- The attached ranks of a hart's flight, lowest first. -/
def State.attachedIds (h : Hart) (s : State) : List HartId :=
  (sortBy (fun a b => a.rank ≤ b.rank)
    (s.harts.filter (fun x => x.sameFlight h && x.ctl.run = .attached))).map (·.id)

/-- A change of several harts, each acting in turn. -/
def State.each (ids : List HartId) (f : State → State) (s : State) : State :=
  ids.foldl (fun s id => s.onHart id f) s

/-- A rank back from a handler that has moved `TPC` has left a bundle behind (R377, R402). (DEDUCED: log entry 28.) -/
def Hart.skips (a : VAddr) (h : Hart) : Bool :=
  h.ctl.origin.any (fun o => a = o && a ≠ h.ctl.pc)

/-- Operations at which the flight stalls are presented to a rank that may not issue them yet: where none of them traps
or freezes, their waits are tested and their arrivals are sent (R286, R327). -/
def State.presentOps (a : VAddr) (as : List VAddr) (pre : List Tried) (os : List Slotted) (s : State) : State :=
  let base := s.modMe Hart.beginCycle
  let tries := pre ++ os.map (fun o => base.tryOp [] o)
  if (as.findSome? (fun b => stopOf none a base (tries.filter (fun t => t.addr = b)))).isSome then s.idle
  else if tries.any (fun t => t.st.waits) then s.examineAt a as pre os
  else ((base.waitAll os).modMe (fun h => { h with ctl := { h.ctl with pc := a } })).idle

/-- A bundle at which the flight stalls is presented to a rank that may not issue it yet (R327). -/
def State.present (addr : VAddr) (line : Option (Nat × List Byte)) (s : State) : State :=
  if s.me.skips addr then s.idle
  else
    let t := s.modMe (fun h => { h with ctl := { h.ctl with pc := addr, line := line } })
    match t.me.bundleAt addr t.me.bundleBytes with
    | .bundle len ops => t.presentOps addr [addr] [] (slotted addr len ops)
    | _ => s.idle

/-- A sequencer cycle at which the flight stalls is presented to a rank that has not come to issue it (R327). -/
def State.presentLoop (s : State) : State :=
  match s.me.sched.loop with
  | some l =>
    let x := s.loopCycle l
    s.presentOps x.1 x.2.1 x.2.2.1 x.2.2.2
  | none => s.idle

/-- A rank in the cycle of its flight: what it would issue is presented to it by the stringer, now (`virt`)
or earlier, or, the leading rank, taken at its own address. -/
def State.examineRank (lead : Bool) (virt : Option Item) (s : State) : State :=
  let h := s.me
  let due : Option Item := match h.ctl.fifo with
    | it :: _ => if it.due = 0 then some it else none
    | [] => virt
  if 0 < h.sched.hold then (if due.isSome then s.modMe (Hart.setOut (.stalled false)) else s.idle)
  else match h.sched.loop, due with
  | some l, none => s.examineLoop l
  | some _, some _ => s.modMe (Hart.setOut (.stalled false))
  | none, some it =>
    let s := s.modMe (fun h => { h with ctl := { h.ctl with dec := some it } })
    if h.skips it.addr then
      s.idle.modMe (fun h => { h with ctl := { h.ctl with origin := none } })
    else
      (s.modMe (fun h => { h with ctl := { h.ctl with pc := it.addr, line := it.line } })).examineHere
  | none, none =>
    match h.ctl.fifo with
    | it :: _ => if it.wait ∧ it.seen = 0 then s.present it.addr it.line else s.idle
    | [] => if lead ∧ h.ctl.resume.isNone then s.examineHere else s.idle

/-- The leading rank takes its bundle at its own address in this cycle. -/
def Hart.leadsFresh (h : Hart) : Bool :=
  h.sched.hold = 0 && h.sched.loop.isNone && h.ctl.fifo.isEmpty && h.ctl.resume.isNone

/-- What the stringer presents of the leading rank's bundle: its decision, trip count and loop body
(R131, R291). -/
def State.leadItem (s : State) : Item :=
  let h := s.me
  let plain : Item := { due := 0, seen := 0, wait := false, addr := h.ctl.pc, line := h.ctl.line,
                        taken := false, target := 0, trips := 0, code := [], pauses := [] }
  match h.bundleAt h.ctl.pc h.bundleBytes with
  | .bundle len ops =>
    let on (g : Guard) : Bool := guardHolds g h
    let ct : Option Instr := (ops.find? (fun (o : Slot × Instr) => o.1 = Slot.ct)).map (·.2)
    (match ct with
      | some (.br f) | some (.call f) => { plain with taken := on f.gk.g, target := h.relTarget f.disp }
      | some (.brR f) | some (.callR f) =>
        { plain with taken := on f.gk.g, target := (h.regs.sReg f.a).truncate 57 }
      | some (.loop f) =>
        let n := if on f.gk.g then (h.regs.sReg f.a).toNat else 0
        let k := f.len.toNat + 1
        match s.readBody (k + 2 ^ 51) (h.ctl.pc.toNat + len) k [] with
        | .ok body after => { plain with trips := n, target := after, code := body }
        | .unread a => { plain with trips := n, target := a }
        | .wait _ => plain
      | _ => plain)
  | _ => plain

/-- The distance of a rank behind the leading one, in cycles (R47). -/
def State.skew (lead : HartId) (id : HartId) (s : State) : Nat :=
  match s.hart? lead, s.hart? id with
  | some a, some b => (b.rank - a.rank) * (a.spr.rise.toNat % 16)
  | _, _ => 0

/-- What a rank did in the latest examination. -/
def State.outOf (id : HartId) (s : State) : Out := ((s.hart? id).map (fun h => h.iss.out)).getD .ok

/-- Which outcomes a cycle of the flight keeps when not every rank can go on. -/
inductive Keep where
  | frozen | traps | stalls
  deriving DecidableEq, Repr

/-- An outcome that is kept. -/
def Keep.takes (k : Keep) (o : Out) : Bool :=
  match k, o with
  | .frozen, .frozen => true
  | .traps, .trapped c => c ≠ clsAfter
  | .stalls, .stalled _ => true
  | _, _ => false

/-- Examines the ranks again and keeps one kind of outcome alone: no rank issues (R51 to R53). -/
def State.keepOnly (k : Keep) (lead : HartId) (it : Option Item) (ids : List HartId) (s : State) : State :=
  s.each ids (fun s =>
    let id := s.me.id
    let r := s.examineRank (id = lead) (if id ≠ lead ∧ s.skew lead id = 0 then it else none)
    if k.takes r.me.iss.out then r.modMe (fun h => { h with ctl := { h.ctl with dec := none } }) else s)

/-- How far a rank is from the end of what the stringer has presented: bundles that it has not issued, its next
one among them, and the sequencer cycles of its loop that are left. -/
def Hart.rest (posted : Bool) (h : Hart) : Nat × Nat :=
  (if posted then Nat.max 1 h.ctl.fifo.length else h.ctl.fifo.length + 1,
   match h.sched.loop with
   | some l => l.cycles - l.c
   | none => 0)

/-- The first place lies behind the second in the stream. -/
def behind (a b : Nat × Nat) : Bool := b.1 < a.1 || (a.1 = b.1 && b.2 < a.2)

/-- The ranks behind the leading one, with their distances in cycles (R47). -/
def State.behindLead (lead : HartId) (ids : List HartId) (s : State) : List (HartId × Nat) :=
  ids.filterMap (fun id =>
    let d := s.skew lead id
    if id ≠ lead ∧ d ≠ 0 then some (id, d) else none)

/-- The bundle of the leading rank is on its way to the ranks behind. -/
def State.pushItem (it : Item) (rs : List (HartId × Nat)) (s : State) : State :=
  rs.foldl (fun (s : State) (e : HartId × Nat) => s.mapHart e.1 (fun h =>
    { h with ctl := { h.ctl with fifo := h.ctl.fifo ++ [{ it with due := e.2, seen := e.2 }] } })) s

/-- What was presented to the ranks behind while the flight stalled takes the decision that the leading rank
has now made (R131). -/
def State.settleItem (it : Item) (rs : List (HartId × Nat)) (s : State) : State :=
  rs.foldl (fun (s : State) (e : HartId × Nat) => s.mapHart e.1 (fun h =>
    match h.ctl.fifo.getLast? with
    | some l => { h with ctl := { h.ctl with
        fifo := h.ctl.fifo.dropLast ++ [{ it with due := l.due, seen := l.seen, pauses := l.pauses }] } }
    | none => h)) s

/-- A cycle in which every rank goes on. -/
def State.goCycle (lead : HartId) (it : Option Item) (ids : List HartId) (t : State) : State :=
  let rs := t.behindLead lead ids
  let posted := (t.hart? lead).any (·.ctl.posted)
  let t := t.each ids (fun s =>
    let moved := s.me.iss.ops ≠ 0 ∧ s.me.iss.out = .ok
    s.commitMe.modMe (fun h => if moved then { h with ctl := { h.ctl with origin := none } } else h))
  let t := match it with
    | none => t
    | some it => if posted then t.settleItem it rs else t.pushItem it rs
  t.each ids (fun s =>
    let s := s.modMe (fun h => { h with ctl := { h.ctl with
      fifo := h.ctl.fifo.map (fun (i : Item) =>
        { i with due := i.due - 1, seen := i.seen - 1, wait := false }) } })
    match s.me.iss.out with
    | .trapped _ => s.endAfter
    | _ => s.endCycle)

/-- The fifo of a rank after a cycle in which the flight stalls at a place, in sequencer cycle `c` if that is in
a loop: what comes before it goes on, it comes nearer without being issued, and what comes after waits. -/
def stallFifo (posted : Bool) (b : Nat × Nat) (c : Nat) (fifo : List Item) : List Item :=
  fifo.mapIdx (fun p i =>
    let r := fifo.length - p + (if posted then 0 else 1)
    if b.1 < r then
      { i with due := i.due - 1, seen := i.seen - 1,
               pauses := if b.2 ≠ 0 ∧ r = b.1 + 1 then pauseMore c i.pauses else i.pauses }
    else if r = b.1 ∧ b.2 = 0 then { i with seen := i.seen - 1, wait := true }
    else i)

/-- A cycle in which the flight stalls (R52, R327): the ranks that the stringer has not yet brought to the place
of the stall go on to it, and the others wait. (DEDUCED: log entry 96.) -/
def State.stallCycle (lead : HartId) (it : Option Item) (ids : List HartId) (outs : List (HartId × Out))
    (s : State) : State :=
  let posted := (s.hart? lead).any (·.ctl.posted)
  let stuck := ids.filterMap (fun id =>
    if outs.any (fun o => o.1 = id && Keep.takes .stalls o.2) then s.hart? id else none)
  let b := stuck.foldl (fun b h => if behind (h.rest posted) b then h.rest posted else b) (0, 0)
  let c := ((stuck.find? (fun h => h.rest posted = b)).bind (fun h => h.sched.loop.map (·.c))).getD 0
  let t := s.each ids (fun s =>
    let h := s.me
    let virt := if h.id ≠ lead ∧ s.skew lead h.id = 0 then it else none
    let here := h.rest posted = b
    let early := behind (h.rest posted) b || (here && b.2 = 0
      && (0 < h.sched.hold || (h.ctl.fifo.head?).any (fun i => i.seen ≠ 0)))
    if early then
      let r := if 0 < h.sched.hold then s.idle else s.examineRank (h.id = lead) virt
      match r.me.iss.out with
      | .ok =>
        let moved := r.me.iss.ops ≠ 0
        let r := r.commitMe.modMe (fun h =>
          let h := if moved then { h with ctl := { h.ctl with origin := none } } else h
          match h.sched.loop with
          | some l =>
            if b.2 ≠ 0 ∧ (h.rest posted).1 = b.1 then
              { h with sched := { h.sched with loop := some { l with pauses := pauseMore c l.pauses } } }
            else h
          | none => h)
        r.endCycle
      | .trapped k => if k = clsAfter then r.commitMe.endAfter else r.endCycle
      | _ => r.endStalled
    else if here ∧ outs.any (fun o => o.1 = h.id && Keep.takes .stalls o.2) then
      ((s.examineRank (h.id = lead) virt).modMe (fun h => { h with ctl := { h.ctl with dec := none } })).endStalled
    else if here ∧ b.2 = 0 then
      match h.ctl.fifo, virt with
      | i :: _, _ => (s.present i.addr i.line).endStalled
      | [], some i => (s.present i.addr i.line).endStalled
      | [], none =>
        if h.id = lead ∧ it.isSome then (s.present h.ctl.pc h.ctl.line).endStalled else s.endStalled
    else if here then s.presentLoop.endStalled
    else s.endStalled)
  let push := it.isSome && !posted && decide (b = (1, 0))
  let t := match it with
    | some it => if push then
        (t.pushItem it (t.behindLead lead ids)).mapHart lead (fun h =>
          { h with ctl := { h.ctl with posted := true } })
      else t
    | none => t
  t.each ids (fun s => s.modMe (fun h => { h with ctl := { h.ctl with
    fifo := stallFifo (posted || push) b c h.ctl.fifo } }))

/-- What passes for the ranks of a flight that a trap has stopped (R53, R377): nothing counted in cycles. -/
def State.passStopped (ids : List HartId) (s : State) : State :=
  s.each ids (fun s => s.modMe (fun h => h.pass.landSems))

/-- The ranks that the stringer brings to a bundle in the cycle in which the leading rank takes it. -/
def State.withLead (lead : HartId) (ids : List HartId) (s : State) : List HartId :=
  ids.filter (fun id => id = lead || s.skew lead id = 0)

/-- The leading rank slept at its bundle and its time has come (R289): with the ranks that stand there with it, it
issues the bundle as of its last cycle, and the ranks behind are one cycle nearer to it. (DEDUCED: log entry 20.) -/
def State.wakeLead (lead : HartId) (it : Item) (ids : List HartId) (t : State) : State :=
  let rs := t.behindLead lead ids
  let posted := (t.hart? lead).any (·.ctl.posted)
  let t := t.each (t.withLead lead ids) State.commitMe
  let t := if posted then t.settleItem it rs else t.pushItem it rs
  t.each (rs.map (·.1)) (fun s => s.modMe (fun h =>
    match h.ctl.fifo.getLast? with
    | some l => { h with ctl := { h.ctl with
        fifo := h.ctl.fifo.dropLast ++ [{ l with due := l.due - 1, seen := l.seen - 1, wait := false }] } }
    | none => h))

/-- The cycle of the ranks, when the leading rank's bundle has been fetched. -/
def State.flightIssue (lead : HartId) (it : Option Item) (ids : List HartId) (s : State) : State :=
  let t := s.each ids (fun s =>
    let id := s.me.id
    s.examineRank (id = lead) (if id ≠ lead ∧ s.skew lead id = 0 then it else none))
  let outs := ids.map (fun id => (id, t.outOf id))
  if outs.any (fun o => o.2 = .frozen) then (s.keepOnly .frozen lead it ids).each ids State.endFrozen
  else if outs.any (fun o => Keep.takes .traps o.2) then (s.keepOnly .traps lead it ids).passStopped ids
  else if outs.any (fun o => Keep.takes .stalls o.2) then s.stallCycle lead it ids outs
  else t.goCycle lead it ids

/-- The hart waits at its bundle for something else than its time to come. -/
def Hart.waitsElse (clk : Nat) (h : Hart) : Bool :=
  h.ctl.stall.any (fun t => t.pc = h.ctl.pc && !t.asleep.any (fun a => a ≤ clk))

/-- The ranks with the leading one are about to issue a bundle at which all that one of them waited for is a time that
has come (R289). -/
def State.wakes (lead : HartId) (it : Option Item) (ids : List HartId) (s : State) : Option State :=
  match it with
  | some it =>
    let mine := s.withLead lead ids
    let hs := mine.filterMap (fun id => s.hart? id)
    if hs.any (Hart.overslept s.hub.clk) ∧ !hs.any (Hart.waitsElse s.hub.clk) then
      let t := s.each mine (fun s => s.examineRank (s.me.id = lead) (if s.me.id = lead then none else some it))
      if mine.all (fun id => t.outOf id = .ok) then some (t.wakeLead lead it ids) else none
    else none
  | none => none

/-- The leading rank's line, and what the stringer presents with it, where it takes its bundle at its own address. -/
def State.fetchLead (lead : HartId) (s : State) : FetchEnd × State :=
  match s.focus lead with
  | none => (.ready, s)
  | some s => if s.me.leadsFresh then s.fetch 8 else (.ready, s)

/-- What the leading rank's own bundle is to the others, if it takes one in this cycle. -/
def State.itemOf (lead : HartId) (s : State) : Option Item :=
  match s.focus lead with
  | none => none
  | some s => if s.me.leadsFresh then some s.leadItem else none

/-- The ranks go on from their bundles, the leading one's line at hand. -/
def State.flightGo (here : List HartId) (s : State) : State :=
  match here with
  | [] => s
  | lead :: _ =>
    match s.fetchLead lead with
    | (.wait, s) => s.each here State.endFrozen
    | (.trap f, s) =>
      (State.keepOnly .traps lead none (here.filter (fun id => id ≠ lead)) (s.fetchFault f)).passStopped here
    | (.ready, s) =>
      let it := s.itemOf lead
      match s.wakes lead it here with
      | none => s.flightIssue lead it here
      | some s =>
        match s.fetchLead lead with
        | (.ready, s) => s.flightIssue lead (s.itemOf lead) here
        | (.wait, s) => s.each here State.endFrozen
        | (.trap f, s) =>
          (State.keepOnly .traps lead none (here.filter (fun id => id ≠ lead)) (s.fetchFault f)).passStopped here

/-- The traps at the boundaries of the ranks; whether one of them stops the flight. -/
def State.boundaries (ids : List HartId) (s : State) : State × Bool :=
  ids.foldl (fun (acc : State × Bool) id =>
    match acc.1.focus id with
    | none => acc
    | some s => match s.boundary with
      | some ev => (s.perform ev.1, acc.2 || ev.2)
      | none => (s, acc.2)) (s, false)

/-- The ranks of a list that are attached. -/
def State.stillAttached (ids : List HartId) (s : State) : List HartId :=
  ids.filter (fun id => (s.hart? id).any (fun h => h.ctl.run = .attached))

/-- A cycle of a flight in broadcast (R51 to R53, R286, R377): stopped, frozen, trapping, or at its bundles. Where a
trap stops the flight, every rank that has one in this cycle takes it. -/
def State.flightCycle (s : State) : State :=
  let me := s.me
  let ids := s.attachedIds me
  match ids with
  | [] => s
  | lead :: _ =>
    if s.harts.any (fun h => h.sameFlight me && h.ctl.run = .handler) then s.passStopped ids
    else if s.harts.any (fun h => h.sameFlight me && h.ctl.run = .attached && h.isFrozen) then
      s.each ids State.endFrozen
    else
      let s := s.each ids State.mayEvict
      match s.fetchLead lead with
      | (.wait, s) => s.each ids State.endFrozen
      | (f, s) =>
        let it := s.itemOf lead
        let (t, stop) := s.boundaries ids
        let here := t.stillAttached ids
        if stop then
          let t := match f with
            | .trap r => if here.contains lead then t.onHart lead (State.fetchFault r) else t
            | _ => t
          (t.keepOnly .traps lead (match f with | .trap _ => none | _ => it)
            (t.stillAttached here)).passStopped ids
        else
          -- those that became orphans let the cycle pass; the others go on
          State.flightGo here (t.each (ids.filter (fun id => !here.contains id)) State.endCycle)

/-! ### Turns -/

/-- The gang of a hart is stopped for a save (R385). -/
def State.stopped (h : Hart) (s : State) : Bool :=
  match h.id with
  | .core _ => false
  | .tread l _ _ => match s.hub.gang l (s.gangOf h) with
    | some g => (match g.st with
        | .placed => false
        | .retired => h.ctl.run ≠ .retired
        | _ => true)
    | none => false

/-- A hart that has something to do in its cycles. -/
def Hart.active (h : Hart) : Bool :=
  h.live || h.ctl.run = .bootRom || !h.units.semOut.isEmpty || !h.units.semIn.isEmpty
    || h.units.eng.any (fun o => !o.verWait.isEmpty)

/-- The turn of a hart in the current tick; that of an attached rank is its whole flight's. -/
def State.turn (id : HartId) (s : State) : State :=
  match s.focus id with
  | none => s
  | some s =>
    if s.stopped s.me then s.endFrozen
    else if s.me.ctl.run = .attached then
      let ids := s.attachedIds s.me
      let s := { s with todo := s.todo.filter (fun x => !ids.contains x) }
      s.flightCycle
    else s.ownCycle

/-- The harts that have a cycle in the current tick (R286, R426): attached ranks first. -/
def State.turns (s : State) : List HartId :=
  let hs := s.harts.filter (fun h =>
    h.active && !s.hub.islandStopped h.island && hasCycle (s.hub.island h.island).cur s.hub.clk)
  ((hs.filter (fun h => h.ctl.run = .attached)) ++ hs.filter (fun h => h.ctl.run ≠ .attached)).map (·.id)

/-- The turns of the tick are dealt out: every hart that has a cycle gets one. What an event of the package changes
is seen in the next tick (R286). -/
def State.deal (s : State) : State := { s with todo := s.turns, opened := true }

/-- The next tick of `CLK` (R41): loads that only reach a bank are answered, drained banks are released (R283), and
the base dies write what they have evicted (R213). -/
def State.advance (s : State) : State :=
  (State.each (s.harts.map (·.id)) State.answerDirect
    { s with
      hub := { s.hub with clk := s.hub.clk + 1, dram := s.hub.dram.map (Stack.drain s.hub.clk) },
      opened := false }).settleBanks

end Sys2Proof.Machine
end

