-- ==== Sys2Proof/Machine/Agenda.lean ====
section
/-! DEFINITION. What happens next in the package besides the cycles of its harts: an event takes place as soon
as its rule lets it. Open times and choices are free values. -/

namespace Sys2Proof.Machine

/-! ### Of one hart -/

/-- An invalidation or recall of a line has not been answered. -/
def Hub.lineBusy (hb : Hub) (line : Nat) : Bool := hb.invs.any (fun i => i.line = line && i.tick.isSome)

/-- The write of the acting hart that goes to its home next (R190, R196, R199, R201, R247). -/
def State.writeEvent (s : State) : Option Sem :=
  let h := s.me
  let due (w : Write) : Bool := w.tick ≤ s.hub.clk
  match h.readySignal with
  | some w => if due w then some (execAtomicAtHome h.id) else none
  | none =>
    match h.headWrite with
    | none => none
    | some w =>
      if !due w then none
      else if !w.isStore then some (execAtomicAtHome h.id)
      else
        let line := lineOf w.pa
        if s.coreCached w ∧ (s.tenureTime line).isNone then
          match h.coreNo with
          | some n =>
            if s.hub.lineBusy line ∨ s.hub.asking n line then none else some (execPeerFill n line true)
          | none => none
        else some (execWriteStamp h.id)

/-- The load of the acting hart that is answered next (R191, R196). -/
def State.loadEvent (s : State) : Option Sem :=
  let h := s.me
  match h.headAsk with
  | none => none
  | some a =>
    if s.hub.clk < a.tick ∨ !a.answered then none
    else match s.coreFills a, h.coreNo with
      | some line, some n =>
        if s.hub.invalidated line ∨ s.hub.lineBusy line ∨ s.hub.asking n line then none
        else some (execPeerFill n line false)
      | _, _ => (a.pieces.head?).map (fun p => execLeaseFill h.id (lineOf p.pa))

/-- An operation of the acting hart's engine goes on (R221, R240). -/
def State.engineEvent (s : State) : Option Sem :=
  let h := s.me
  h.units.eng.findSome? (fun o =>
    if o.stat ≠ .running then none
    else if !s.netBefore o ∧ o.verWait.any (fun e => decide (4096 ≤ e.2) && !s.versionFree h.partNo o.hyp e.1) then
      some (execEngineVersionTimeout h.id o.id)
    else
      let waits : Bool := match o.kind with
        | .netGet _ => o.got.isNone
        | _ => false
      if waits ∨ s.hub.clk < o.tick then none
      else if o.left.isEmpty ∧ s.engPending o then none
      else some (execCopyComplete h.id o.id))

/-- The next store to a vault or aperture that lands (R185, R186). -/
def State.vaultEvent (s : State) : Option Sem :=
  let due : Bool := match s.me.lsu.vstores with
    | v :: _ => v.tick ≤ s.hub.clk
    | [] => (s.hub.headDelivery s.me.id).any (fun d => d.tick ≤ s.hub.clk)
  if due then some (execVaultStoreLands s.me.id) else none

/-- What ends or begins a wait of the acting hart. -/
def State.waitEvent (s : State) : Option Sem :=
  let h := s.me
  let clk := s.hub.clk
  let stopped := s.stopped h
  if !stopped ∧ h.sched.pipe.any Pend.ready then
    let x := h.sched.pipe.any (fun p => p.ready && (match p.effs with
      | some [.xpass ..] => true
      | _ => false))
    some (if x then execXPassEntryArrives h.id else execExposedResultLands h.id)
  else if h.sched.mx.any (fun o => o.left = 0) then some (execMxOccupancyEnd h.id)
  else if h.lsu.want.any (fun w => w.tick ≤ clk) then
    h.lsu.want.map (fun w => execTranslationWalk h.id w.va w.acc)
  else if h.ctl.frozen ∧ !h.absent ∧ !h.wants then some (execFreezeEnd h.id)
  else if !stopped ∧ h.live ∧ !h.ctl.frozen ∧ (h.absent ∨ h.wants) then some (execFreeze h.id)
  else if h.ctl.run ≠ .retired ∧ h.units.eng.any (EngOp.missed clk) then some (execMissedPromiseLatch h.id)
  else if h.lsu.fenceSince.any (fun t => t + 4194304 ≤ clk) ∧ !h.units.pending.getLsbD 4 then
    some (execFenceTimeout h.id)
  else if h.units.semOut.any (fun u => s.semReady u) then some (execSemGgLands h.id)
  else if h.lsu.hubReq.any (fun r => r.answer.isNone) then some (execResolveComplete h.id)
  else match h.id with
    | .core n =>
      if h.live ∧ h.spr.tcmp.toNat ≤ clk ∧ !h.spr.evpend.getLsbD 0 then some (execTimerExpiry n)
      else none
    | .tread .. =>
      (h.units.arrivals.find? (fun a => s.hub.doneBefore a.afterSeq h)).map (fun a =>
        execGroupArrival h.id a.group)

/-- The event of a hart that takes place now. -/
def State.hartEvent (h : Hart) (s : State) : Option Sem :=
  match s.focus h.id with
  | none => none
  | some s =>
    s.waitEvent <|> s.vaultEvent <|> s.writeEvent <|> s.loadEvent <|> s.engineEvent

/-! ### Of the hub -/

/-- Conditions of `mon.wait` (R235), of saved harts too. -/
def State.monEvent (s : State) : Option Sem :=
  let hits := s.hub.watches.findSome? (fun w => match w.who with
    | .hart h => if w.hit.isSome then some (execWatchTrigger h) else none
    | .queue .. => none)
  let all := s.harts ++ s.hub.launches.flatMap (fun l => l.gangs.flatMap (fun g => g.ctx))
  hits <|> all.findSome? (fun h => match h.lsu.mon with
    | .recheck t _ => if t ≤ s.hub.clk then some (execMonWaitRecheck h.id) else none
    | _ => none)

/-- Peers' answers and locked sequences (R198, R201, R202). -/
def State.peerEvent (s : State) : Option Sem :=
  let clk := s.hub.clk
  let late := s.hub.locked.find? (fun l => l.held && l.deferred.any (fun t => t + 256 ≤ clk))
  let next := s.hub.invs.findSome? (fun i =>
    if !i.tick.any (fun t => t ≤ clk) then none
    else if s.hub.locked.any (fun l => l.line = i.line && (i.isRecall || l.peer = i.peer) && l.held && l.deferred.isSome) then none
    else if !i.isRecall then some (execInvalidationAck i.peer i.line)
    else some (execRecallLine i.line))
  (late.map (fun l => execLockedSequenceTimeout l.peer l.line)) <|> next
    <|> (s.hub.locked.find? (fun l => l.tick ≤ clk)).map (fun l => execIncomingRdma l.req)

/-- Time, `tlbinv`, links and base dies (R24, R40, R189, R195, R214, R355). -/
def State.packageEvent (s : State) : Option Sem :=
  let clk := s.hub.clk
  if s.hub.raised + 64 ≤ clk then some execBaseTimeRise
  else if ltLimit ≤ s.hub.base ∨ ltLimit ≤ s.hub.stamp then some execLogicalTimePause
  else
    let tlb := (s.hub.tlbinvs.find? (fun t => t.tick ≤ clk)).map (fun t => execTlbinvComplete t.id)
    let link := (List.range 8).findSome? (fun k =>
      let l := s.hub.link k
      if l.spent then some (execDeadLink k)
      else if l.sends (Config.freeBool (freeAt clk (8 + k))) then some (fun s => .next (s.linkSend k))
      else if !l.ready ∧ Config.freeBool (freeAt clk k) then some (execReadyReturn k)
      else none)
    let isl := s.hub.isl.findSome? (fun e =>
      let moves : Bool := match e.2.chg with
        | some (_, t) => t ≤ clk
        | none => s.islandTarget e.1 ≠ e.2.cur
      if e.1 < 120 ∧ moves then some (execIslandLevelChange e.1) else none)
    let stack := (List.finRange 12).findSome? (fun k =>
      if s.hub.dram[k].crossed then some (execHashVersionAdopt k.val) else none)
    tlb <|> link <|> isl <|> stack

/-- Queues and their packets (R258, R259, R266 to R269). -/
def State.queueEvent (s : State) : Option Sem :=
  s.hub.queues.findSome? (fun x =>
    let p := x.part
    let q := x.q
    let commanded : Bool := s.hub.qctlIs p q (fun _ => true)
    match x.pend.find? (fun e => e ≠ .command || commanded) with
    | some .bell => some (execDoorbell p q)
    | some .poke => some (execBarrierEvaluate p q)
    | some .command => none
    | none =>
    if s.hub.waiting p q then
      if s.hub.signalled p q then some (execBarrierEvaluate p q)
      else if x.reread.any (fun t => t ≤ s.hub.clk) then some (execBarrierSignalReread p q)
      else none
    else match s.hub.nextPacket s.free p q with
      | some (_, some k) =>
        some (if k % 256 = 2 then execBarrierPacket p q
          else if k % 256 = 3 then execSignalPacket p q else execDispatchPacket p q)
      | some (_, none) => some (execDispatchPacket p q)
      | none => none)

/-- A command of a partition's block that is busy and can go on (R211, R258, R280). -/
def State.partCommand (p : Nat) (s : State) : Option Sem :=
  let r := s.hub.part p
  let q := wbits 11 0 r.qctl
  let behind : Bool := match s.hub.queue p q with
    | some x => (x.pend.head?).any (fun e => e ≠ .command)
    | none => false
  let qctl : Option Sem :=
    if wbits 63 62 r.qctl ≠ 1 ∨ behind then none
    else match wbits 15 14 r.qctl with
      | 1 => if s.hub.starting p q then none else some (execQctlDisable p q)
      | 2 => some (execQctlReset p q)
      | _ => some (execQctlActivate p q)
  let ncrq : Option Sem :=
    if wbits 63 62 r.ncrq ≠ 1 then none
    else if wbits 57 57 r.ncrq = 1 then some (execNcrqMakeNoncoherent p)
    else some (execNcrqMakeCoherent p)
  let saving : Bool := match s.hub.preqGang p with
    | some (_, _, some g) => (match g.st with
        | .saving _ => true
        | _ => false)
    | _ => false
  let preq : Option Sem :=
    if wbits 63 62 r.preq ≠ 1 then none
    else match wbits 29 28 r.preq with
      | 1 => if saving then none else some (execPreqPreemptHold p)
      | 2 => some (execPreqRelease p)
      | 3 => some (execPreqPreempt p)
      | _ => if saving then none else some (execPreqPreempt p)
  qctl <|> ncrq <|> preq

/-- The isolation of a chiplet can go on (R361). -/
def State.isolationMoves (chip : Nat) (s : State) : Bool :=
  match s.hub.isolation chip with
  | none => true
  | some i =>
    if s.hub.occupied chip then
      s.hub.launches.any (fun l => l.gangs.any (fun g => g.chip = chip && g.st = .placed))
    else i.drain.isNone || !s.harts.any (Hart.draining chip)

/-- A command of the monitor block that is busy and can go on (R359 to R362). -/
def State.monCommand (s : State) : Option Sem :=
  let c := s.hub.mon.chctl
  let chip := wbits 3 0 c
  let port := wbits 31 24 c
  let part := wbits 19 16 c
  let chctl : Option Sem :=
    if wbits 63 62 c ≠ 1 then none
    else match wbits 11 8 c with
      | 0 => some (execChctlAssign chip part)
      | 2 => if 12 ≤ chip ∨ s.isolationMoves chip then some (execChctlIsolate chip) else none
      | 3 => some (execChctlReset chip)
      | 4 => some (execChctlEnumerate chip)
      | 5 => some (execChctlAssignPort port part)
      | 6 => some (execChctlUnassignPort port)
      | _ => some (execChctlUnassign chip)
  let n := s.hub.mon.ncore
  let core := wbits 4 0 n
  let writes : Bool := (s.hart? (.core core)).any (fun h => h.ctl.run = .halted && !h.lsu.writes.isEmpty)
  let ncore : Option Sem :=
    if wbits 63 62 n ≠ 1 then none
    else if wbits 8 8 n = 0 then some (execNcoreHalt core)
    else if writes then none else some (execNcoreStart core)
  let iso := s.hub.isolations.findSome? (fun i =>
    if s.hub.launches.any (fun l => l.gangs.any (fun g =>
        g.chip = i.chip && g.lateSave s.hub.clk)) then
      some (execIsolationSaveTimeout i.chip)
    else if i.drain.any (fun t => t + 4194304 ≤ s.hub.clk) ∧ s.harts.any (Hart.draining i.chip) then
      some (execIsolationDrainTimeout i.chip)
    else none)
  iso <|> chctl <|> ncore

/-! ### Of the scheduler -/

/-- Launches that meet, park, wake, age, save or complete (R54, R66, R265, R277, R385, R391). -/
def State.gangEvent (l : Launch) (g : Gang) (s : State) : Option Sem :=
  let clk := s.hub.clk
  let hs := s.gangHarts l.id g.idx
  match g.st with
  | .placed =>
    let met := hs.findSome? (fun h => match h.id, h.ctl.run with
      | .tread _ w _, .atMeet | .tread _ w _, .orphan =>
        let rs := s.flightOf h
        if rs.all Hart.metOrGone ∧ rs.any (fun x => x.ctl.run ≠ .retired) then
          some (execFlightResumeAtMeet l.id w)
        else none
      | _, _ => none)
    met <|> (if hs.any (Hart.parkDue clk) ∧ s.savable l g then some (execGangPark l.id g.idx) else none)
  | .saving _ =>
    if !hs.all (fun h => s.hub.quiet h) then none
    else if !hs.any Hart.hasDirty ∧ !s.hub.roomFor (s.ctxSize hs) then
      match s.hub.spillable with
      | some (m, v) => some (execContextSpill m.id v.idx)
      | none => some (execContextSave l.id g.idx)
    else some (execContextSave l.id g.idx)
  | .parked => if !g.held ∧ g.ctx.any (fun h => l.wakes h) then some (execParkedGangWake l.id g.idx) else none
  | .unstarted | .saved =>
    if g.waits ∧ l.pri + g.aged < 7 ∧ g.waitSince + 16777216 * (g.aged + 1) ≤ clk then
      some (execAgingTick l.id g.idx)
    else if s.hub.unplaceable l g then some (execGangRestore l.id g.idx 0 0)
    else none
  | .retired => none

/-- The event of a launch that takes place now. -/
def State.launchEvent (l : Launch) (s : State) : Option Sem :=
  if s.launchDone l then some (execDispatchComplete l.id)
  else l.gangs.findSome? (fun g => s.gangEvent l g)

/-- The next placement in a partition, at a freely chosen place that fits (R274, R276, R278, R307, R390), or the
next pre-emption (R276, R279). -/
def State.placeEvent (p : Nat) (s : State) : Option Sem :=
  let place : Option Sem := match s.hub.nextPlacement p with
    | none => none
    | some (l, g, ps) =>
      (s.chosen ps).map (fun x =>
        if g.st = .saved then execGangRestore l.id g.idx x.1 x.2
        else if l.undecided (chipProf x.1) then execCalenderDecision l.id (chipProf x.1)
        else execGangPlace l.id g.idx x.1 x.2)
  place <|> (s.nextVictims p).bind (fun x => (x.2.head?).map (fun v =>
    if x.2.any (fun v => v.2.since + 1048576 = s.hub.clk) then execSliceTimerTick
    else execGangPreempt v.1.id v.2.idx))

/-- The event that takes place now, if there is one. -/
def State.nextEvent (s : State) : Option Sem :=
  s.harts.findSome? (fun h => s.hartEvent h) <|> s.packageEvent <|> s.peerEvent <|> s.monEvent
    <|> s.monCommand <|> (List.range 16).findSome? (fun p => s.partCommand p) <|> s.queueEvent
    <|> s.hub.launches.findSome? (fun l => s.launchEvent l)
    <|> (if s.hub.launches.isEmpty then none else (List.range 16).findSome? (fun p => s.placeEvent p))

/-! ### What comes from outside -/

/-- The events that the outside of the package supplies, or a part of it whose pace is free: answers, requests,
messages, sensors, resets, errors, a peer's evictions and the base dies' own work. (DEDUCED: log entry 88.) -/
def Instr.external : Instr → Bool
  | .evictionNotice .. | .netComplete .. | .uncorrectableError _ | .lineRead _ | .tileRead .. | .regionClean ..
  | .regionInvalidate .. | .configurationRead .. | .configurationWrite .. | .beaterMove _ | .patrolScrub _
  | .flitReceive .. | .linkUp .. | .hostSnoop .. | .inboundHostRequest _ | .incomingRdma _
  | .powerControlSample _ | .thermalTrip | .packageReset | .getVersion _ | .getCapabilities _
  | .negotiateAlgorithms .. | .getDigests _ | .getCertificate .. | .challenge .. | .getMeasurements ..
  | .readTelemetryMessage .. | .readBstatMessage | .setPwrctlOobMessage _ | .readyReturn _
  | .cxlDeviceAcknowledgement .. | .hostWriteComplete .. | .dramCalibration _ | .linkCalibration _
  | .rowDisturbanceManagement _ | .mainInputOff => true
  | _ => false

/-- What the standby rail serves without main power (R424, R430): the management interface, the sensors, and a reset. -/
def Instr.standby : Instr → Bool
  | .packageReset | .getVersion _ | .getCapabilities _ | .negotiateAlgorithms .. | .getDigests _
  | .getCertificate .. | .challenge .. | .getMeasurements .. | .readTelemetryMessage .. | .readBstatMessage
  | .setPwrctlOobMessage _ | .thermalTrip | .mainInputOff | .powerControlSample _ => true
  | _ => false

end Sys2Proof.Machine
end

