-- ==== Sys2Proof/Machine/Step.lean ====
section
/-! DEFINITION. One step of the machine. A step is one input from outside, one event of the package, the turn of
one hart in the current tick of `CLK`, or the next tick. -/

namespace Sys2Proof.Machine

/-- The input at the head of the inbox takes place if it is one that the outside supplies; without main power only the
sensors, the management interface and a reset are served, and without the standby rail a reset alone (R424, R425,
R430). -/
def State.input (i : Instr) (r : List Instr) (s : State) : Host.Outcome State Fault Refusal :=
  if (if !s.hub.power.standby then i = .packageReset else if s.hub.dark then Instr.standby i
      else Instr.external i) then exec i { s with inbox := r }
  else .next { s with inbox := r }

/-- What happens where no input waits: the turns of the tick that are left; before them and after them the event
whose time has come; then the next tick. -/
def State.inner (s : State) : Host.Outcome State Fault Refusal :=
  match s.todo with
  | h :: r =>
    let t := State.turn h { s with todo := r }
    .next (if t.todo.isEmpty then t.settleLeaves else t)
  | [] =>
    match s.nextEvent with
    | some f => f s
    | none => .next (if s.opened then s.advance else s.deal)

/-- One step. (DESIGN CHOICE: log entry 1.) -/
def step (s : State) : Host.Outcome State Fault Refusal :=
  match s.inbox with
  | i :: r => s.input i r
  | [] => if s.hub.dark then .fault .mainPowerOff else s.inner

/-- Core 0 about to issue the bundle that holds one slot word (log entry 6): it runs at level M as the boot leaves
it, with the bundle in memory at its address and in the line that it has fetched, and its turn is next.
(DESIGN CHOICE: log entry 6.) -/
def State.withFetchWord (s : State) (nbits w : Nat) : State :=
  let s := match s.focus (.core 0) with
    | some s => s
    | none => { s with me := Hart.coreStart 0 .bootRom 0 0 0, ring := s.me :: s.ring }
  let sl := tableSlot (w % 2 ^ nbits % 2 ^ 32)
  let bs := BitVec.ofNat 8 (2 ^ sl.bit) :: toBytes sl.size (w % 2 ^ nbits)
  let a := s.me.ctl.pc.toNat
  let a := if 64 < a % 64 + bs.length then a / 64 * 64 else a
  let line := List.replicate (a % 64) 0#8 ++ bs ++ List.replicate (64 - a % 64 - bs.length) 0#8
  { s with
    me := { s.me with
      ctl := { Ctl.start .detached (BitVec.ofNat 57 a) with line := some (a / 64 * 64, line) },
      sched := Sched.empty },
    todo := [.core 0], opened := true, inbox := [],
    hub := { s.hub with mem := putBytes (locOf a) bs s.hub.mem } }

end Sys2Proof.Machine
end

