-- ==== Sys2Proof/Safety.lean ====
section
/-! DEFINITION. The terms in which claims are made: what a safe step is, the invariant of memory, when an
operation of a slot executes, and what one result in flight is. -/

namespace Sys2Proof.Machine

/-- A step is safe when it answers a next state, or when the package has no main power and no input waits. -/
def Safe (s : State) : Prop :=
  (∃ t, step s = .next t) ∨ (s.inbox = [] ∧ s.hub.dark = true ∧ step s = .fault .mainPowerOff)

/-- Memory lists its bytes in the canonical form. -/
def MemoryCanonical (s : State) : Prop := Memory.wf s.hub.mem = true

/-- The slot executes: its guard holds, and its registers and its crossing mode pass R103. -/
def Ready (g : Guard) (i : Instr) (s : State) : Prop :=
  guardHolds g s.me = true ∧ kernelCheck s.me i = none

/-- A slot that only treads have executes. -/
def TreadReady (g : Guard) (i : Instr) (s : State) : Prop := Ready g i s ∧ s.me.isCore = false

/-- An EC slot executes, and its wait is satisfied (R84). -/
def EngineReady (i : Instr) (f : EF) (s : State) : Prop := TreadReady f.g i s ∧ waitHolds f.ws s.me = true

/-- An LS slot executes, and the slot is free (R223). -/
def AccessReady (g : Guard) (i : Instr) (s : State) : Prop := Ready g i s ∧ s.me.ctl.lsLeft = 0

/-- A Newel core is about to take its turn with a fetched bundle: no input waits, and the core is neither frozen,
held nor asleep and has nothing to evict. -/
def CoreAtBundle (n : Nat) (rest : List HartId) (s : State) : Prop :=
  s.inbox = [] ∧ s.hub.dark = false ∧ s.todo = .core n :: rest ∧
  s.me.id = .core n ∧ s.me.ctl.run = .detached ∧ s.me.isFrozen = false ∧ s.me.sched.hold = 0 ∧
  s.me.sched.loop = none ∧ s.me.lsu.tlb = [] ∧ s.me.lsu.lease = [] ∧ s.boundary.isNone = true ∧
  s.me.overslept s.hub.clk = false ∧
  s.me.holdsLine (s.me.ctl.pc.toNat / 64 * 64) = true ∧ s.me.headByte ≠ 0#8

/-- `s` after an operation has issued that leaves nothing in flight: nothing else changes. -/
def State.issuedBare (s : State) : State := { s with me := { s.me with iss := { s.me.iss with out := .ok } } }

/-- `s` with one more result in flight on the acting hart (R11): `L` cycles to go, the kind and register that
`HWREC` reports, and what it will write. Nothing else changes. -/
def State.withResult (L kind reg : Nat) (effs : List Eff) (s : State) : State :=
  { s with me := { s.me with
      sched := { s.me.sched with pipe := s.me.sched.pipe ++
        [{ seq := s.me.iss.seq, left := L, origin := s.me.ctl.pc, kind := kind, reg := reg,
           effs := some effs }] },
      iss := { s.me.iss with seq := s.me.iss.seq + 1, out := .ok } } }

/-- A scalar register receives a value after `L` cycles. -/
def ScalarTakes (i : Instr) (L : Nat) (d : BitVec 6) (v : Word) (s : State) : Prop :=
  exec i s = .next (s.withResult L 1 d.toNat [.s d v])

/-- A predicate receives a value after `L` cycles. -/
def PredicateTakes (i : Instr) (L : Nat) (d : BitVec 6) (v : Bool) (s : State) : Prop :=
  exec i s = .next (s.withResult L 3 (d.toNat % 8) [.p (BitVec.ofNat 3 d.toNat) v])

/-- A mask register receives a value after `L` cycles. -/
def MaskTakes (i : Instr) (L : Nat) (d : BitVec 6) (v : Word) (s : State) : Prop :=
  exec i s = .next (s.withResult L 4 (d.toNat % 8) [.m (BitVec.ofNat 3 d.toNat) v])

/-- A uniform register receives a value after `L` cycles: on a Newel core its own, from the leading attached
rank that of every rank of the flight at its own place in the stream, from another attached rank none (R48); a
detached tread traps (R20). -/
def UniformTakes (i : Instr) (L : Nat) (d : BitVec 5) (v : Word) (s : State) : Prop :=
  (s.me.isCore = true → exec i s = .next (s.withResult L 2 d.toNat [.g d v])) ∧
  (s.me.isCore = false → s.me.ctl.run = .attached → s.isLead s.me = true →
    exec i s = .next (s.broadcastG L d v).issuedBare) ∧
  (s.me.isCore = false → s.me.ctl.run = .attached → s.isLead s.me = false →
    exec i s = .next s.issuedBare) ∧
  (s.me.isCore = false → s.me.ctl.run ≠ .attached → exec i s = s.illegal 9)

/-- Field D receives a value: a scalar register, or under UD a uniform one (R90). -/
def DestTakes (i : Instr) (L : Nat) (ud : Bool) (d : BitVec 6) (v : Word) (s : State) : Prop :=
  (ud = false → ScalarTakes i L d v s) ∧
  (ud = true → UniformTakes i L (BitVec.ofNat 5 d.toNat) v s)

/-- 4-byte units of a vector register receive values after `L` cycles, in the shadow where the register is
shadowed (R173); where R167 or R179 forbids the write the bundle traps. -/
def VectorTakes (i : Instr) (L : Nat) (d : BitVec 6) (ws : List (Nat × BitVec 32)) (s : State) : Prop :=
  (s.me.vecWriteBad d.toNat (ws.map (·.1)) = false →
    exec i s = .next (s.withResult L 5 d.toNat [.space (s.me.shadowed d.toNat) ws])) ∧
  (s.me.vecWriteBad d.toNat (ws.map (·.1)) = true → exec i s = s.illegal 9)

/-- Elements of width `w` of a vector register receive values, lane by lane under the mask (R15, R72). -/
def ElementsTake (i : Instr) (L : Nat) (f : VF) (w : Nat) (g : Nat → Nat) (s : State) : Prop :=
  VectorTakes i L f.d (vecWords (s.me.vBase + 64 * f.d.toNat) (s.me.regs.mReg f.m) f.z (packLane w g)) s

/-- The bundle takes a trap. -/
def Traps (i : Instr) (t : TrapInfo) (s : State) : Prop := exec i s = .next (s.takeTrap t)

/-- Nothing that software sees changes between two states but the acting hart's schedule, control and memory
side: no register, no byte of memory, no other hart. -/
def Untouched (s t : State) : Prop :=
  t.me.regs = s.me.regs ∧ t.ring = s.ring ∧ t.hub.mem = s.hub.mem ∧ t.hub.lines = s.hub.lines ∧
  t.me.id = s.me.id ∧ t.hub.clk = s.hub.clk ∧ t.hub.parts = s.hub.parts ∧ t.hub.mon = s.hub.mon

/-! ### What a result leaves when it lands -/

/-- A word after a write that reaches the bits of a mask. -/
def Masked (mask : Nat) (old v x : Word) : Prop :=
  ∀ b, b < 64 → x.getLsbD b = if mask.testBit b then v.getLsbD b else old.getLsbD b

/-- 4-byte units after values have landed: the last value for a unit remains, and the other units are as before. -/
def UnitsLand (ws : List (Nat × BitVec 32)) (m m' : NMap (BitVec 32)) : Prop :=
  NMap.wf 0#32 m = true → NMap.wf 0#32 m' = true ∧
  (∀ u, (∀ e ∈ ws, e.1 ≠ u) → NMap.get 0#32 u m' = NMap.get 0#32 u m) ∧
  ∀ a u v b, ws = a ++ (u, v) :: b → (∀ e ∈ b, e.1 ≠ u) → NMap.get 0#32 u m' = v

/-- What the landing of a `wrsr` of register `n`, issued at level `lvl`, leaves (R252, R337, R339, R340, R386, R392):
the writable fields take their bits, every other bit and register keeps what it had. -/
def SprLands (lvl n : Nat) (v : Word) (s t : State) : Prop :=
  let old := s.me.spr
  let keeps : Prop := t.me.spr = old
  let takes (mask : Nat) (get : Sprs → Word) (put : Sprs → Word → Sprs) : Prop :=
    ∃ x, t.me.spr = put old x ∧ Masked mask (get old) v x
  let onCore (p : Prop) : Prop := (s.me.isCore = true → p) ∧ (s.me.isCore = false → keeps)
  let whole := 2 ^ 64 - 1
  let reach (b : Nat) : Prop := b < 6 ∧ (lvl = 2 ∨ old.evlvl.getLsbD b = false)
  (n = 0x02 → ∀ k, (s.hub.path s.me.partNo old.hyp.toNat).idxOf? v.toNat = some k →
    t.me.spr = { old with hyp := v } ∧ t.me.units.hstack = s.me.units.hstack.drop k) ∧
  (n = 0x02 → (s.hub.path s.me.partNo old.hyp.toNat).idxOf? v.toNat = none →
    keeps ∧ t.me.units.hstack = s.me.units.hstack) ∧
  (n = 0x08 →
    let may := s.me.isCore = true ∨ s.me.ctl.run = .attached ∨ s.me.ctl.run = .handler ∧ s.me.ctl.prev = .attached
    (may → takes (2 ^ 57 - 1) (·.meet) (fun r x => { r with meet := x })) ∧ (¬may → keeps)) ∧
  (n = 0x09 → (wbits 54 52 v < 4 →
    takes (7 * 2 ^ 52 + (2 ^ 32 - 1)) (·.pix) (fun r x => { r with pix := x })) ∧ (4 ≤ wbits 54 52 v → keeps)) ∧
  (n = 0x0a → takes 0xffff007f (·.msh) (fun r x => { r with msh := x })) ∧
  (n = 0x0b → takes whole (·.rngk) (fun r x => { r with rngk := x }) ∧
    t.me.units.mould.n = [] ∧ t.me.units.mould.cA = [] ∧ t.me.units.mould.cC = []) ∧
  (n = 0x12 → keeps ∧ (s.me.partNo < 16 →
    (t.hub.part s.me.partNo).park.toNat = Nat.max 4096 (wbits 31 0 v))) ∧
  (n = 0x18 → takes 0x10fffffff (·.tcause) (fun r x => { r with tcause := x })) ∧
  (n = 0x19 → takes whole (·.tpc) (fun r x => { r with tpc := x })) ∧
  (n = 0x1a → takes whole (·.taddr) (fun r x => { r with taddr := x })) ∧
  (n = 0x1b → takes whole (·.titer) (fun r x => { r with titer := x })) ∧
  (n = 0x20 → ∃ x, t.me.spr = { old with plv := x } ∧ ∀ b, b < 64 → x.getLsbD b =
    if b = 6 ∨ b = 8 ∨ ((b = 2 ∨ b = 3) ∧ wbits 3 2 v ≠ 3 ∧ (lvl = 1 → wbits 3 2 v ≠ 2)) ∨
      (lvl = 2 ∧ (b = 7 ∨ b = 9 ∨ ((b = 4 ∨ b = 5) ∧ wbits 5 4 v ≠ 3)))
    then v.getLsbD b else old.plv.getLsbD b) ∧
  (n = 0x21 → takes (2 ^ 57 - 1) (·.svec) (fun r x => { r with svec := x })) ∧
  (n = 0x22 → takes (2 ^ 57 - 1) (·.mvec) (fun r x => { r with mvec := x })) ∧
  (n = 0x23 → onCore (takes 0xf (·.part) (fun r x => { r with part := x }))) ∧
  (n = 0x24 → takes (2 ^ 64 - 4096) (·.xflt) (fun r x => { r with xflt := x })) ∧
  (n = 0x25 → takes whole (·.sscr) (fun r x => { r with sscr := x })) ∧
  (n = 0x26 → takes whole (·.mscr) (fun r x => { r with mscr := x })) ∧
  (n = 0x27 → takes (if lvl = 2 then 0x1d else 0x11) (·.dbg) (fun r x => { r with dbg := x })) ∧
  (n = 0x28 → takes 0xff (·.hwsel) (fun r x => { r with hwsel := x })) ∧
  (n = 0x2b → onCore (∃ x, t.me.spr = { old with evpend := x } ∧ ∀ b, b < 64 →
    (x.getLsbD b = true ↔ old.evpend.getLsbD b = true ∧ ¬(v.getLsbD b = true ∧ 0 < b ∧ reach b)))) ∧
  (n = 0x2c → onCore (∃ x, t.me.spr = { old with even := x } ∧ ∀ b, b < 64 →
    (reach b → x.getLsbD b = v.getLsbD b) ∧ (¬reach b → x.getLsbD b = old.even.getLsbD b))) ∧
  (n = 0x2d → onCore (takes 0x3f (·.evlvl) (fun r x => { r with evlvl := x }))) ∧
  (n = 0x2e → onCore (takes whole (·.tcmp) (fun r x => { r with tcmp := x })))

/-- What the landing of an `accept` leaves (R178): the accepted lanes of the shadowed registers take the shadow's
bytes, the counts of the lanes rise and stay at their greatest value, and the mould is closed. -/
def AcceptLands (ok active : Word) (h k : Hart) : Prop :=
  let mo := h.units.mould
  let base := h.vBase + 64 * mo.first
  let counts (on : Word) (old new : NMap (BitVec 32)) : Prop := NMap.wf 0#32 old = true → ∀ l, l < 64 →
    (NMap.get 0#32 l new).toNat = if on.getLsbD l then Nat.min (2 ^ 32 - 1) ((NMap.get 0#32 l old).toNat + 1)
      else (NMap.get 0#32 l old).toNat
  (NMap.wf 0#32 h.regs.space = true → ∀ u, NMap.get 0#32 u k.regs.space =
    if base ≤ u ∧ u < base + 64 * mo.count ∧ ok.getLsbD ((u - base) % 64) = true then NMap.get 0#32 u mo.shadow
    else NMap.get 0#32 u h.regs.space) ∧
  k.units.mould.mode = .closed ∧ k.units.mould.shadow = [] ∧ k.units.mould.n = mo.n ∧
  counts active mo.cA k.units.mould.cA ∧ counts ok mo.cC k.units.mould.cC

/-- What the landing of one effect of a result leaves (R11, R12, R15, R71, R85, R156, R169, R173, R207, R373):
every register but the one it names is as before. -/
def Lands (e : Eff) (s t : State) : Prop :=
  let h := s.me
  let k := t.me
  let file (r : Regs) : Prop := k.regs = r ∧ k.spr = h.spr ∧ k.units.mould = h.units.mould ∧ t.hub = s.hub
  match e with
  | .s n v => file { h.regs with s := k.regs.s } ∧
      ∀ j, k.regs.sReg j = if j = n ∧ n ≠ 0 then v else h.regs.sReg j
  | .g n v => file { h.regs with g := k.regs.g } ∧ ∀ j, k.regs.gReg j = if j = n then v else h.regs.gReg j
  | .p n v => file { h.regs with p := k.regs.p } ∧
      ∀ j, k.regs.pReg j = if j = n ∧ n ≠ 0 then v else h.regs.pReg j
  | .m n v => file { h.regs with m := k.regs.m } ∧
      ∀ j, k.regs.mReg j = if j = n ∧ n ≠ 0 then v else h.regs.mReg j
  | .mBits n on w => file { h.regs with m := k.regs.m } ∧ (∀ j, j ≠ n → k.regs.mReg j = h.regs.mReg j) ∧
      ∀ l, l < 64 → (k.regs.mReg n).getLsbD l =
        (n == 0 || (if on.getLsbD l then w.getLsbD l else (h.regs.mReg n).getLsbD l))
  | .space false ws => file { h.regs with space := k.regs.space } ∧ UnitsLand ws h.regs.space k.regs.space
  | .space true ws => k.regs = h.regs ∧ k.spr = h.spr ∧ t.hub = s.hub ∧
      k.units.mould = { h.units.mould with shadow := k.units.mould.shadow } ∧
      UnitsLand ws h.units.mould.shadow k.units.mould.shadow
  | .bits sh u on v =>
      let of (x : Hart) := if sh then x.units.mould.shadow else x.regs.space
      k.spr = h.spr ∧ t.hub = s.hub ∧ k.regs = { h.regs with space := k.regs.space } ∧
      UnitsLand [(u, (v &&& on) ||| (NMap.get 0#32 u (of h) &&& ~~~on))] (of h) (of k) ∧
      (sh = true → k.regs = h.regs) ∧ (sh = false → k.units.mould = h.units.mould)
  | .spr lvl n v => k.regs = h.regs ∧ SprLands lvl n v s t ∧ (n ≠ 0x0b → k.units.mould = h.units.mould) ∧
      (n ≠ 0x12 → t.hub = s.hub)
  | .accept ok active => k.regs = { h.regs with space := k.regs.space } ∧ k.spr = h.spr ∧ t.hub = s.hub ∧
      AcceptLands ok active h k
  | .lt x => k.regs = h.regs ∧ t.hub = s.hub ∧
      k.spr = { h.spr with lt := Nat.max h.spr.lt x }
  | .seen p => k.regs = h.regs ∧ t.hub = s.hub ∧ ∃ n, k.spr = { h.spr with lt := n } ∧ h.spr.lt ≤ n ∧
      ∀ o ∈ h.units.eng, o.promise ≤ p → o.stat = .done → o.stamp ≤ n
  | .xpass n ls => file h.regs ∧
      (h.units.xq.Pairwise (fun a b => a.1 ≤ b.1) → k.units.xq.Pairwise (fun a b => a.1 ≤ b.1)) ∧
      (∀ x, x ∈ k.units.xq ↔ x = (n, ls) ∨ x ∈ h.units.xq)
  | .memErr a i => file h.regs ∧ k.latched = { h.latched with memErr := h.latched.memErr ++ [(a, i)] }
  | .sem _ _ => k.regs = h.regs ∧ k.spr = h.spr ∧ t.hub = s.hub
  | .vault _ pa bs => k.regs = h.regs ∧ k.spr = h.spr ∧ t.hub.mem = putBytes pa bs s.hub.mem ∧
      k.units.pending.getLsbD 2 = (h.units.pending.getLsbD 2 || s.hub.vaultHit pa bs.length)

/-- A load has been sent (R222, R227): its result is in flight and awaits its value, the LS slot is occupied,
and no register, no system register and no byte of memory has changed. -/
def LoadSent (L kind reg occ : Nat) (dest : LoadDest) (ps : List Piece) (s t : State) : Prop :=
  Untouched s t ∧ t.me.spr = s.me.spr ∧ t.me.units = s.me.units ∧ t.me.ctl.lsLeft = occ ∧
  t.me.lsu.writes = s.me.lsu.writes ∧ t.me.lsu.vstores = s.me.lsu.vstores ∧
  t.me.sched = { s.me.sched with pipe := s.me.sched.pipe ++
    [{ seq := s.me.iss.seq, left := L, origin := s.me.ctl.pc, kind := kind, reg := reg, effs := none }] } ∧
  t.me.iss.out = .ok ∧
  ∃ a, t.me.lsu.asks = s.me.lsu.asks ++ [a] ∧ a.seq = s.me.iss.seq ∧ a.pieces = ps ∧ a.dest = dest ∧
    a.hyp = s.me.spr.hyp.toNat ∧ a.part = s.me.partNo ∧ a.lvl = s.me.level

/-- A store has been sent (R185, R190): no register and no byte of memory has changed, the LS slot is
occupied, and the hart's writes and direct stores are those that are listed. -/
def StoresSent (occ : Nat) (ws : List Write) (vs : List VStore) (s t : State) : Prop :=
  Untouched s t ∧ t.me.spr = s.me.spr ∧ t.me.sched = s.me.sched ∧ t.me.ctl.lsLeft = occ ∧
  t.me.iss.out = .ok ∧ t.me.lsu.writes = s.me.lsu.writes ++ ws ∧ t.me.lsu.vstores = s.me.lsu.vstores ++ vs

/-- The lowest address of a row of a tile access that is not a multiple of 64 (R224). -/
def LowestOddRow (va stride a : Nat) : Prop :=
  let row (i : Nat) : Nat := (va + i * stride) % 2 ^ 57
  a % 64 ≠ 0 ∧ (∃ i, i < 64 ∧ a = row i) ∧ ∀ i, i < 64 → row i % 64 ≠ 0 → a ≤ row i

/-- A gather or scatter has stopped between lanes (R386): `PIX` counts the lanes that are done, the translation of the
next one is awaited, and no register and no byte of memory has changed. -/
def Stopped (kind : Nat) (ps : List Piece) (w : Want) (s t : State) : Prop :=
  let k := if wbits 54 52 s.me.spr.pix = kind then wbits 31 0 s.me.spr.pix else 0
  wbits 54 52 t.me.spr.pix = kind ∧ wbits 31 0 t.me.spr.pix = (k + ps.length) % 2 ^ 32 ∧
  t.me.iss.out = .frozen ∧ t.me.lsu.want.any (fun v => v.va = w.va && v.acc = w.acc) = true ∧
  t.me.regs = s.me.regs ∧ t.hub.mem = s.hub.mem ∧ t.ring = s.ring

/-- An MX slot executes (R84, R166, R375): the unit is free, the wait is satisfied, and no matrix operation of a
schedule held by a trap is unfinished. -/
def MatrixReady (i : Instr) (f : MF) (s : State) : Prop :=
  TreadReady f.g i s ∧ s.me.sched.mx = none ∧ waitHolds f.ws s.me = true ∧
  (∀ sc, s.me.ctl.held = some sc → sc.hasMx = false)

/-- A matrix operation has issued (R166): it occupies the unit for `occ` cycles, its result is in flight for `lat`
cycles, and no register, no byte of memory and no other hart has changed. -/
def MatrixIssued (occ lat kind reg : Nat) (effs : Option (List Eff)) (s t : State) : Prop :=
  Untouched s t ∧ t.me.spr = s.me.spr ∧ t.me.iss.out = .ok ∧
  (∃ o, t.me.sched.mx = some o ∧ o.left = occ ∧ o.done = 0) ∧
  ∃ l, t.me.sched.pipe = s.me.sched.pipe ++
    { seq := s.me.iss.seq, left := lat, origin := s.me.ctl.pc, kind := kind, reg := reg, effs := effs } :: l ∧
    ∀ e ∈ l, e.kind = 0

/-- An operation of the copy engine has been accepted (R240): it is the youngest operation of the hart, with the
ranges and the hypothesis of its issue, and its promise, later than `CLK`, is on its way to field D. It has failed
with REFUSED, is complete when there is nothing to move and it waits for no other (R248), and runs otherwise. -/
def Accepted (f : EF) (kind : EngKind) (dst src len total : Nat) (fails waits : Bool) (s t : State) : Prop :=
  Untouched s t ∧ t.me.iss.out = .ok ∧
  (fails = true → t.me.units.pending.getLsbD 1 = true) ∧
  (fails = false → t.me.units.pending = s.me.units.pending) ∧
  ∃ op, t.me.units.eng = s.me.units.eng ++ [op] ∧ s.hub.clk < op.promise ∧ op.kind = kind ∧ op.dst = dst ∧
    op.src = src ∧ op.len = len ∧ op.hyp = s.me.spr.hyp.toNat ∧ op.sig = sigOpt f.ws ∧
    op.stat = (if fails then .failed else if total = 0 ∧ waits = false then .done else .running) ∧
    t.me.sched = { s.me.sched with pipe := s.me.sched.pipe ++
      [{ seq := s.me.iss.seq, left := 1, origin := s.me.ctl.pc, kind := 1, reg := f.d.toNat,
         effs := some (.s f.d (BitVec.ofNat 64 op.promise) ::
           (if fails = false ∧ total = 0 ∧ waits = false then sigEffs f.ws else [])) }] }

/-- The operands of a multiplication are in order (R158 to R163, R171): the shape of `MSH` fits the format and the
group, the A operand is there, the operand map is set, no unit of the accumulator is shadowed, and the ranges that
are read lie in banks of the vault that the map names. -/
def MultiplyReady (quant : Bool) (g : Nat) (f : MF) (s : State) : Prop :=
  let fmt := f.fmt.toNat
  let sh := s.me.shape
  let g' := Nat.min g (kMax fmt)
  let om := s.me.omap f.om.toNat
  let base := om.base.toNat % 2 ^ 57
  sh.1 ≤ 64 ∧ sh.2.1 ≤ 128 ∧ sh.2.2 ≤ kMax fmt ∧ (fmt = 4 → sh.2.2 % 32 = 0) ∧
  (quant = true → sh.2.2 % g' = 0 ∧ (kMax fmt < g → sh.2.2 = kMax fmt)) ∧
  (f.ta = 8#4 → s.me.units.latch.isSome = true) ∧ om.desc.getLsbD 63 = true ∧
  (∀ k ∈ s.me.accKeys f.ac.toNat sh.1 sh.2.1, s.me.shadowKey k = false) ∧
  ∃ t d, s.vaultTarget base = some (t, d) ∧
    ∀ r ∈ mmaRanges fmt quant g sh.1 sh.2.1 sh.2.2 (wbits 15 0 om.desc) (128 * wbits 47 32 om.desc)
      (128 * wbits 31 16 om.desc), s.hub.firstBad t.place ((base % 2 ^ 23 + r.1) % 2 ^ 57) r.2 = none

/-- The address, the stride and the rows of `acc.ld` and `acc.st` are in order (R163, R169). -/
def AccumulatorRowsReady (f : MF) (s : State) : Prop :=
  let sa := (s.me.regs.sReg f.a).toNat % 2 ^ 57
  let sb := (s.me.regs.sReg f.b).toNat
  accAddrBad sa sb s.me = false ∧ ∃ t d, s.vaultTarget sa = some (t, d) ∧
    ∀ r ∈ accRows sb s.me.shape.1 s.me.shape.2.1, s.hub.firstBad t.place ((sa % 2 ^ 23 + r.1) % 2 ^ 57) r.2 = none

/-- The units of the accumulator that a matrix operation leaves (R161, R164, R167, R169), each from its operands: an
`acc.ld` the unit of the vault in its row; a multiplication with K = 0 the old value, and otherwise what `accumulate`
makes of the old value and the terms, with a free choice among what R126 allows (log entry 13). The vault is read as
it was at issue or, where it has changed since, as it is now (log entry 14). -/
def JobResult (s : State) (j : MxJob) (ws : List (Nat × BitVec 32)) : Prop :=
  ∃ (unit : Nat → BitVec 32) (val : Nat → Nat → BitVec 32),
    (∀ a, unit a = s.me.vaultUnit s.me.iss.seq s.hub.mem a ∨ (a, unit a) ∈ j.units) ∧
    ws = (List.range j.mm).flatMap (fun r => (List.range j.nn).map (fun c => (s.me.aKey j.ac r c, val r c))) ∧
    ∀ r c, r < j.mm → c < j.nn →
      let old := j.c.getD (r * j.nn + c) 0#32
      let ts := j.terms unit r c
      (j.loads = true → val r c = unit ((j.base + r * j.stride) % 2 ^ 57 + 4 * c)) ∧
      (j.loads = false → j.kk = 0 → val r c = old) ∧
      (j.loads = false → j.kk ≠ 0 → ∃ y, val r c = accumulate y (fp32.val old.toNat) (j.rounded ts) ts)

end Sys2Proof.Machine
end

