-- ==== Sys2Proof/Certificates/Slice0/Obligations.lean ====
section
/-! DEFINITION. The statements for the provers. Each says in its docstring which rules of the spec it
formalises, or which log entry it rests on. -/

open Sys2Proof Sys2Proof.Machine

/-! ### Reset, decoding, stepping -/

/-- R41, R360, R362, R365, R427, R428: package reset leaves `CLK` 0, core 0 at level M of profile 3 in its boot
ROM with its registers zero, `EVLVL` 0x30 and `TCMP` all ones (R339), `ORDC` 16 (R192), park thresholds 65,536
(R75), every island at level 7, no launch and no hypothesis. That memory lists nothing (log entry 2) and that the
base time is 0 (log entry 3) are the model's choices. -/
def Obligations.ResetLeavesBootingCore : Prop :=
  State.reset.me.id = .core 0 ∧ State.reset.me.ctl.run = .bootRom ∧ State.reset.me.level = 2 ∧
  State.reset.me.spr.prof = 3 ∧ State.reset.me.regs = Regs.zero ∧ State.reset.ring = [] ∧
  State.reset.me.spr.evlvl = 0x30 ∧ State.reset.me.spr.tcmp = 0xffffffffffffffff ∧
  State.reset.me.spr.evpend = 0 ∧ State.reset.me.spr.even = 0 ∧ State.reset.me.spr.hyp = 0 ∧
  State.reset.hub.clk = 0 ∧ State.reset.hub.base = 0 ∧ State.reset.hub.mem = [] ∧
  State.reset.hub.launches = [] ∧ State.reset.hub.nodes = [] ∧ State.reset.hub.versions = [] ∧
  State.reset.hub.power.mainOn = true ∧ State.reset.hub.mon.bstat = 0 ∧
  (∀ i, (State.reset.hub.island i).cur = 7 ∧ (State.reset.hub.island i).req = 7 ∧
    (State.reset.hub.island i).cap = 7) ∧
  (∀ p, (State.reset.hub.part p).ordc = 16 ∧ (State.reset.hub.part p).park = 65536)

/-- Decoding the bundle of one encoded well-formed operation gives it back, in its own slot and, for a scalar
operation outside row 14, in SA as well, wherever the bundle lies in its line (R77 to R103). -/
def Obligations.DecodeReadsBackEncode : Prop :=
  ∀ (i : Instr) (newel : Bool) (chk : Instr → Option Nat) (off : Nat) (rest : List Byte) (sl : Slot),
    i.isOp = true → WellFormed i → chk i = none →
    (sl = i.slot ∨ (sl = .sa ∧ i.slot = .sb ∧ encode i / 32 % 128 < 112)) →
    (newel = true → sl.bit < 4) → off + 1 + sl.size ≤ 64 →
    decodeBundle newel chk off (BitVec.ofNat 8 (2 ^ sl.bit) :: toBytes sl.size (encode i) ++ rest)
      = .bundle (1 + sl.size) [(sl, i)]

/-- Words that the spec writes out decode to the instructions they stand for (R287, R326, R341, R379, R380,
R414). -/
def Obligations.SpecWordsDecode : Prop :=
  decodeSlot .ct 0x00000360 = .ok (.eret ⟨⟨⟨false, 0⟩, false⟩⟩) ∧
  decodeSlot .ct 0x00002b00 = .ok (.trap ⟨⟨⟨false, 0⟩, false⟩, 5⟩) ∧
  decodeSlot .ct 0x00003b20 = .ok (.sys ⟨⟨⟨false, 0⟩, false⟩, 7⟩) ∧
  decodeSlot .sb 0x21140e20 = .ok (.wrsr ⟨⟨⟨false, 0⟩, false⟩, 0x21, 5, 0⟩) ∧
  decodeSlot .sb 0x05100e40 = .ok (.tlbinv ⟨⟨⟨false, 0⟩, false⟩, false, false, 5, 4, 0⟩) ∧
  decodeSlot .sb 0x00000e60 = .ok (.tlbsync ⟨⟨⟨false, 0⟩, false⟩, false, false, 0, 0, 0⟩) ∧
  decodeSlot .ct 0xfffe7851 = .ok (.br ⟨⟨⟨false, 1⟩, true⟩, 0x1fffcf⟩) ∧
  decodeSlot .sb 0x00806510 = .ok (.movi ⟨⟨⟨false, 0⟩, true⟩, 32, 6⟩) ∧
  decodeSlot .sa 0x0a287100 = .ok (.mul ⟨⟨⟨false, 0⟩, false⟩, false, false, 10, 10, 7⟩) ∧
  decodeSlot .ct 0x00001020 = .ok (.hold ⟨⟨⟨false, 0⟩, false⟩, 2⟩)

/-- A step runs the decoded instruction: when the bytes at a core's program counter are a bundle of one
operation whose meaning answers that it has issued, and no interlock holds it, the step is that meaning at the
prepared state (the program counter at the bundle, LT raised to the base time and to what the bundle observes
of engine operations), then the commit, which moves to the next bundle, and the end of the cycle; after the
last turn of a tick the groups of treads that have gone are settled (R11, R30, R189, R207, R286). -/
def Obligations.StepRunsDecodedBundle : Prop :=
  ∀ (s : State) (n : Nat) (rest : List HartId) (len : Nat) (sl : Slot) (i : Instr),
    CoreAtBundle n rest s → s.me.bundleAt s.me.ctl.pc s.me.bundleBytes = .bundle len [(sl, i)] →
    s.me.interlocked [⟨s.me.ctl.pc, len, 1, sl, i⟩] = false →
    let o : Slotted := ⟨s.me.ctl.pc, len, 1, sl, i⟩
    let base := State.modMe Hart.beginCycle { s with todo := rest }
    ∀ u t, exec i (base.prep o) = .next u → u.me.iss.out = .ok →
      exec i (State.prep o ((base.modMe (Hart.atIssue s.hub.base s.hub.clk [o])).modMe (Hart.setOut .ok))) = .next t →
      t.me.iss.out = .ok → t.me.level = s.me.level →
      let v := State.endCycle (State.commitMe (t.modMe (fun h =>
        { (h.clearRecord [s.me.ctl.pc]).setOut .ok with ctl := { h.ctl with pc := s.me.ctl.pc } })))
      step s = .next (if v.todo.isEmpty then v.settleLeaves else v)

/-- No step is refused, and none stops but that of a package that has removed its main power and has no message
or reset to serve (R425, R430): whatever the state, the machine goes on. The stop itself, a step that faults with
`mainPowerOff`, is the model's choice (log entry 93). -/
def Obligations.EveryStepGoesOn : Prop := ∀ s : State, Safe s

/-- Every step keeps the canonical form of memory. -/
def Obligations.StepKeepsMemoryCanonical : Prop :=
  ∀ s t : State, MemoryCanonical s → step s = .next t → MemoryCanonical t

/-- Memory after reset has its canonical form (log entry 2). -/
def Obligations.ResetMemoryIsCanonical : Prop := MemoryCanonical State.reset

/-- Bytes written to canonical memory read back, every other address reads as before, and the form is kept
(R4, R190). -/
def Obligations.BytesReadBackAfterWrite : Prop :=
  ∀ (m : NMap Byte) (a : Nat) (bs : List Byte), Memory.wf m = true →
    (∀ k, k < bs.length → NMap.get 0#8 (a + k) (putBytes a bs m) = bs.getD k 0#8) ∧
    (∀ b, b < a ∨ a + bs.length ≤ b → NMap.get 0#8 b (putBytes a bs m) = NMap.get 0#8 b m) ∧
    Memory.wf (putBytes a bs m) = true

/-! ### Results in flight, guards, traps -/

/-- R11, R12, R15, R71, R178, R337, R339, R340, R392: at the end of a cycle in which one result of the hart is due,
the register that it names holds the value, bit by bit for a special register, unit by unit for a vector register,
and the other registers are as they were; `s0`, `p0` and `m0` still read their constants. A result that has longer
to go only comes one cycle nearer. Of two results for one register that are due together, the later-issued remains. -/
def Obligations.ResultLandsAtItsLatency : Prop :=
  ∀ (s : State) (q o k r : Nat) (pc : VAddr) (e : Eff),
    s.me.units.semIn = [] → s.me.ctl.stepping = false →
    (s.me.sched.pipe = [⟨q, 1, pc, k, r, some [e]⟩] →
      Lands e s (State.endCycle s) ∧ (State.endCycle s).me.sched.pipe = [] ∧
      (State.endCycle s).me.sched.loop = s.me.sched.loop ∧ (State.endCycle s).ring = s.ring) ∧
    (s.me.sched.pipe = [⟨q, o + 2, pc, k, r, some [e]⟩] →
      (State.endCycle s).me.regs = s.me.regs ∧ (State.endCycle s).me.spr = s.me.spr ∧
      (State.endCycle s).me.units.mould = s.me.units.mould ∧ (State.endCycle s).hub = s.hub ∧
      (State.endCycle s).me.sched.pipe = [⟨q, o + 1, pc, k, r, some [e]⟩]) ∧
    (∀ (d : BitVec 6) (v w : Word) (q' : Nat) (pc' : VAddr), q < q' →
      s.me.sched.pipe = [⟨q', 1, pc', k, r, some [.s d w]⟩, ⟨q, 1, pc, k, r, some [.s d v]⟩] →
      Lands (.s d w) s (State.endCycle s))

/-- R82: an operation whose guard reads false does nothing: it issues and changes nothing else. Branches and
calls are meant outside a broadcast decision (R131), and `loop` and `detach`, whose false guard has effects of
their own (R54, R291), are left out. -/
def Obligations.FalseGuardDoesNothing : Prop :=
  ∀ (i : Instr) (s : State), i.isOp = true → guardHolds (guardOf i) s.me = false → kernelCheck s.me i = none →
    s.me.ctl.dec = none → (4 ≤ i.slot.bit → s.me.isCore = false) →
    (∀ f, i ≠ .loop f) → (∀ f, i ≠ .detach f) →
    exec i s = .next s.issuedBare

/-- R335, R370, R372, R374: entering a level saves the old level and the enable of that level, clears the
enable, writes every field of `TCAUSE`, `TPC` and `TADDR`, and goes on at `SVEC` or `MVEC`; a tread that trapped
at U holds its schedule, and another hart's loop and `hold` end, as at a branch (R376). Registers, memory and the
other harts are as before. -/
def Obligations.TrapEntersHandler : Prop :=
  ∀ (s : State) (t : TrapInfo), t.lvl = 1 ∨ t.lvl = 2 → s.me.level ≤ 2 →
    let u := s.takeTrap t
    let held := s.me.level = 0 ∧ s.me.isCore = false
    u.me.level = t.lvl ∧
    (t.lvl = 1 → wbits 3 2 u.me.spr.plv = s.me.level ∧ wbits 8 8 u.me.spr.plv = wbits 6 6 s.me.spr.plv ∧
      wbits 6 6 u.me.spr.plv = 0 ∧ wbits 7 7 u.me.spr.plv = wbits 7 7 s.me.spr.plv ∧
      wbits 5 4 u.me.spr.plv = wbits 5 4 s.me.spr.plv ∧
      u.me.ctl.pc = BitVec.ofNat 57 s.me.spr.svec.toNat) ∧
    (t.lvl = 2 → wbits 5 4 u.me.spr.plv = s.me.level ∧ wbits 9 9 u.me.spr.plv = wbits 7 7 s.me.spr.plv ∧
      wbits 7 7 u.me.spr.plv = 0 ∧ wbits 6 6 u.me.spr.plv = wbits 6 6 s.me.spr.plv ∧
      wbits 3 2 u.me.spr.plv = wbits 3 2 s.me.spr.plv ∧
      u.me.ctl.pc = BitVec.ofNat 57 s.me.spr.mvec.toNat) ∧
    wbits 7 0 u.me.spr.tcause = t.code % 256 ∧ wbits 23 8 u.me.spr.tcause = t.info % 65536 ∧
    (∀ sl, t.slot = some sl → wbits 26 24 u.me.spr.tcause = sl.bit ∧ wbits 27 27 u.me.spr.tcause = 1) ∧
    (t.slot = none → wbits 27 24 u.me.spr.tcause = 0) ∧
    (held → wbits 32 32 u.me.spr.tcause = 1 ∧ u.me.ctl.held = some s.me.sched ∧ u.me.sched = Sched.empty) ∧
    (¬held → wbits 32 32 u.me.spr.tcause = 0 ∧ u.me.ctl.held = s.me.ctl.held ∧
      u.me.sched = { s.me.sched with loop := none, hold := 0 }) ∧
    wbits 31 28 u.me.spr.tcause = 0 ∧ wbits 63 33 u.me.spr.tcause = 0 ∧
    u.me.spr.tpc.toNat = t.tpc.toNat ∧ u.me.spr.taddr = BitVec.ofNat 64 t.taddr ∧
    u.me.regs = s.me.regs ∧ u.me.units = s.me.units ∧ u.me.lsu.writes = s.me.lsu.writes ∧
    u.ring = s.ring ∧ u.hub.mem = s.hub.mem

/-- R379: `eret` alone in its bundle, with no result of the handler in flight, returns: the level and the
enable that were saved come back, the next bundle is at `TPC`, and a tread back at U has its held schedule
again, without its loop where the handler has moved `TPC` (log entry 28). At U it is a privileged operation
(R335). -/
def Obligations.EretReturnsFromHandler : Prop :=
  ∀ (f : CN) (s : State), guardHolds f.gk.g s.me = true →
    (s.me.level = 1 ∨ s.me.level = 2 → s.me.iss.ops ≤ 1 → s.me.sched.pipe = [] → s.me.sched.mx = none →
      ∃ t, exec (.eret f) s = .next t ∧ t.me.iss.next = some (BitVec.ofNat 57 s.me.spr.tpc.toNat) ∧
        (s.me.level = 2 → t.me.level = wbits 5 4 s.me.spr.plv ∧
          wbits 7 7 t.me.spr.plv = wbits 9 9 s.me.spr.plv ∧ wbits 6 6 t.me.spr.plv = wbits 6 6 s.me.spr.plv) ∧
        (s.me.level = 1 → t.me.level = wbits 3 2 s.me.spr.plv ∧
          wbits 6 6 t.me.spr.plv = wbits 8 8 s.me.spr.plv ∧ wbits 7 7 t.me.spr.plv = wbits 7 7 s.me.spr.plv) ∧
        (t.me.level = 0 → t.me.ctl.held = none ∧
          let old := s.me.ctl.held.getD s.me.sched
          t.me.sched = { old with
            loop := if s.me.ctl.origin = some (BitVec.ofNat 57 s.me.spr.tpc.toNat) then old.loop else none }) ∧
        (t.me.level ≠ 0 → t.me.sched = s.me.sched ∧ t.me.ctl.held = s.me.ctl.held) ∧
        t.me.regs = s.me.regs ∧ t.me.lsu = s.me.lsu ∧ t.ring = s.ring ∧ t.hub = s.hub) ∧
    (s.me.level = 0 → Traps (.eret f)
      { cls := clsPriv, code := 2, info := 0, slot := some s.me.iss.slot, tpc := s.me.ctl.pc, taddr := 0,
        lvl := 1 } s) ∧
    (s.me.level ≠ 0 → 1 < s.me.iss.ops → exec (.eret f) s = s.illegal 9)

/-- R341, R380, R371: `trap`, `bkpt` and `sys` take their traps with the code and the number of the instruction;
`sys` names the next bundle, the others their own; `bkpt` acts as `nop` at U under `DBG.BSKIP`, which it
clears, and goes to M under `DBG.BKM` (R392). -/
def Obligations.TrapInstructionsTrap : Prop :=
  ∀ (f : CI) (s : State), guardHolds f.gk.g s.me = true →
    Traps (.trap f) { cls := clsSoft, code := 4, info := f.imm.toNat, slot := some s.me.iss.slot,
                      tpc := s.me.ctl.pc, taddr := 0, lvl := if s.me.level = 2 then 2 else 1 } s ∧
    Traps (.sys f) { cls := clsAfter, code := 3, info := f.imm.toNat, slot := some .ct, tpc := s.nextAddr,
                     taddr := 0, lvl := if s.me.level = 0 then 1 else 2 } s ∧
    (¬(s.me.level = 0 ∧ s.me.spr.dbg.getLsbD 4 = true) →
      Traps (.bkpt f) { cls := clsSoft, code := 5, info := f.imm.toNat, slot := some .ct, tpc := s.me.ctl.pc,
                        taddr := 0, lvl := if s.me.spr.dbg.getLsbD 3 = true ∨ s.me.level = 2 then 2 else 1 } s) ∧
    (s.me.level = 0 → s.me.spr.dbg.getLsbD 4 = true →
      ∃ t, exec (.bkpt f) s = .next t ∧ t.me.spr.dbg.getLsbD 4 = false ∧ t.me.iss.out = .ok ∧
        t.me.regs = s.me.regs ∧ t.me.sched = s.me.sched ∧ t.me.ctl = s.me.ctl ∧ t.hub = s.hub ∧ t.ring = s.ring)

/-! ### The scalar slots -/

/-- R134, R135: the integer instructions of two registers compute their results exactly, wrapped to 64 bits,
with their exposed latencies, into a scalar or a uniform register; shifts take their count from bits [5:0]. -/
def Obligations.IntegerInstructionsCompute : Prop :=
  ∀ (f : SR) (s : State), guardHolds f.gk.g s.me = true →
    let a := s.me.srcA f.ua f.a
    let b := s.me.regs.sReg f.b
    let c := b.toNat % 64
    DestTakes (.add f) 1 f.ud f.d (BitVec.ofInt 64 (a.toInt + b.toInt)) s ∧
    DestTakes (.sub f) 1 f.ud f.d (BitVec.ofInt 64 (a.toInt - b.toInt)) s ∧
    DestTakes (.and f) 1 f.ud f.d (a &&& b) s ∧
    DestTakes (.or f) 1 f.ud f.d (a ||| b) s ∧
    DestTakes (.xor f) 1 f.ud f.d (a ^^^ b) s ∧
    DestTakes (.shl f) 1 f.ud f.d (BitVec.ofNat 64 (a.toNat * 2 ^ c)) s ∧
    DestTakes (.shr f) 1 f.ud f.d (BitVec.ofNat 64 (a.toNat / 2 ^ c)) s ∧
    DestTakes (.sra f) 1 f.ud f.d (BitVec.ofInt 64 (a.toInt / 2 ^ c)) s ∧
    DestTakes (.mul f) 3 f.ud f.d (BitVec.ofInt 64 (a.toInt * b.toInt)) s ∧
    DestTakes (.mulhs f) 3 f.ud f.d (BitVec.ofInt 64 (a.toInt * b.toInt / 2 ^ 64)) s ∧
    DestTakes (.mulhu f) 3 f.ud f.d (BitVec.ofNat 64 (a.toNat * b.toNat / 2 ^ 64)) s ∧
    DestTakes (.min f) 1 f.ud f.d (if a.toInt ≤ b.toInt then a else b) s ∧
    DestTakes (.max f) 1 f.ud f.d (if a.toInt ≤ b.toInt then b else a) s ∧
    DestTakes (.minu f) 1 f.ud f.d (if a.toNat ≤ b.toNat then a else b) s ∧
    DestTakes (.maxu f) 1 f.ud f.d (if a.toNat ≤ b.toNat then b else a) s

/-- R136: division truncates toward zero and never traps: the quotient and the remainder with the sign of the
dividend; −1, all ones and the dividend for a zero divisor; −2⁶³ and 0 for −2⁶³ by −1. -/
def Obligations.DivisionTruncatesAndNeverTraps : Prop :=
  ∀ (f : SR) (s : State), guardHolds f.gk.g s.me = true →
    let a := s.me.srcA f.ua f.a
    let b := s.me.regs.sReg f.b
    let ovf := a.toInt = -2 ^ 63 ∧ b.toInt = -1
    (b.toNat ≠ 0 → ¬ovf → ∃ q r : Word,
      q.toInt = a.toInt.tdiv b.toInt ∧ r.toInt = a.toInt - b.toInt * q.toInt ∧
      (r.toInt = 0 ∨ (r.toInt < 0 ↔ a.toInt < 0)) ∧
      DestTakes (.div f) 20 f.ud f.d q s ∧ DestTakes (.rem f) 20 f.ud f.d r s) ∧
    (b.toNat ≠ 0 →
      DestTakes (.divu f) 20 f.ud f.d (BitVec.ofNat 64 (a.toNat / b.toNat)) s ∧
      DestTakes (.remu f) 20 f.ud f.d (BitVec.ofNat 64 (a.toNat % b.toNat)) s) ∧
    (b.toNat = 0 →
      DestTakes (.div f) 20 f.ud f.d (BitVec.ofInt 64 (-1)) s ∧
      DestTakes (.divu f) 20 f.ud f.d (BitVec.ofNat 64 (2 ^ 64 - 1)) s ∧
      DestTakes (.rem f) 20 f.ud f.d a s ∧ DestTakes (.remu f) 20 f.ud f.d a s) ∧
    (ovf → DestTakes (.div f) 20 f.ud f.d (BitVec.ofInt 64 (-2 ^ 63)) s ∧
      DestTakes (.rem f) 20 f.ud f.d 0 s)

/-- R137: the bit-field instructions take a position `p` from bits [5:0] of sb and a width `w` from bits [13:8]
plus 1, whatever the other bits of sb: `bfxu` zero-extends, `bfx` sign-extends with copies of bit 63 entering
from above, and `bfi` replaces the bits of sd from `p` to below `min(p + w, 64)`. -/
def Obligations.BitFieldsExtractAndInsert : Prop :=
  ∀ (f : SR) (s : State), guardHolds f.gk.g s.me = true →
    let a := s.me.srcA f.ua f.a
    let b := s.me.regs.sReg f.b
    let p := b.toNat % 64
    let w := b.toNat / 2 ^ 8 % 64 + 1
    let x := a.toInt / 2 ^ p % 2 ^ w
    DestTakes (.bfxu f) 1 f.ud f.d (BitVec.ofNat 64 (a.toNat / 2 ^ p % 2 ^ w)) s ∧
    DestTakes (.bfx f) 1 f.ud f.d (BitVec.ofInt 64 (if 2 ^ (w - 1) ≤ x then x - 2 ^ w else x)) s ∧
    ∃ v : Word, (∀ k, k < 64 →
        v.getLsbD k = if p ≤ k ∧ k < min (p + w) 64 then a.getLsbD (k - p) else (s.me.srcD f).getLsbD k) ∧
      DestTakes (.bfi f) 1 f.ud f.d v s

/-- R138: moves and selections, and the counts and the byte reversal of a register. -/
def Obligations.MovesSelectsAndCounts : Prop :=
  ∀ (f : SR) (pn : BitVec 3) (u : SU) (s : State),
    (guardHolds f.gk.g s.me = true →
      let a := s.me.srcA f.ua f.a
      DestTakes (.mov f) 1 f.ud f.d a s ∧
      DestTakes (.sel pn f) 1 f.ud f.d (if s.me.regs.pReg pn = true then a else s.me.regs.sReg f.b) s ∧
      (∃ v : Word, v.toNat ≤ 64 ∧ a.toNat < 2 ^ (64 - v.toNat) ∧
        (v.toNat < 64 → 2 ^ (63 - v.toNat) ≤ a.toNat) ∧ DestTakes (.clz f) 1 f.ud f.d v s) ∧
      (∃ v : Word, v.toNat ≤ 64 ∧ (∀ k, k < v.toNat → a.getLsbD k = false) ∧
        (v.toNat < 64 → a.getLsbD v.toNat = true) ∧ DestTakes (.ctz f) 1 f.ud f.d v s) ∧
      DestTakes (.popc f) 1 f.ud f.d
        (BitVec.ofNat 64 (((List.range 64).filter (fun k => a.getLsbD k)).length)) s ∧
      ∃ v : Word, (∀ k, k < 8 → v.toNat / 256 ^ k % 256 = a.toNat / 256 ^ (7 - k) % 256) ∧
        DestTakes (.bswap f) 1 f.ud f.d v s) ∧
    (guardHolds u.gk.g s.me = true →
      ScalarTakes (.movi u) 1 u.d (BitVec.ofInt 64 u.imm.toInt) s ∧
      ScalarTakes (.movsh u) 1 u.d
        (BitVec.ofNat 64 ((s.me.regs.sReg u.d).toNat * 2 ^ 14 + u.imm.toNat)) s)

/-- R134, R135: the immediate forms, with IMM8 sign-extended; a shift count lies in 0 to 63 (R92). -/
def Obligations.ImmediateInstructionsCompute : Prop :=
  ∀ (f : SI) (s : State), guardHolds f.gk.g s.me = true →
    let a := s.me.regs.sReg f.a
    let b := BitVec.ofInt 64 f.imm.toInt
    ScalarTakes (.addi f) 1 f.d (a + b) s ∧
    ScalarTakes (.andi f) 1 f.d (a &&& b) s ∧
    ScalarTakes (.ori f) 1 f.d (a ||| b) s ∧
    ScalarTakes (.xori f) 1 f.d (a ^^^ b) s ∧
    ScalarTakes (.muli f) 3 f.d (a * b) s ∧
    (f.imm.toNat < 64 →
      ScalarTakes (.shli f) 1 f.d (BitVec.ofNat 64 (a.toNat * 2 ^ f.imm.toNat)) s ∧
      ScalarTakes (.shri f) 1 f.d (BitVec.ofNat 64 (a.toNat / 2 ^ f.imm.toNat)) s ∧
      ScalarTakes (.srai f) 1 f.d (BitVec.ofInt 64 (a.toInt / 2 ^ f.imm.toNat)) s)

/-- R139: compares and predicate operations write one predicate. -/
def Obligations.ComparesWritePredicates : Prop :=
  ∀ (f : SR) (i : SI) (s : State),
    (guardHolds f.gk.g s.me = true →
      let a := s.me.srcA f.ua f.a
      let b := s.me.regs.sReg f.b
      let pa := s.me.regs.pReg (BitVec.ofNat 3 f.a.toNat)
      let pb := s.me.regs.pReg (BitVec.ofNat 3 f.b.toNat)
      PredicateTakes (.cmpEq f) 1 f.d (decide (a = b)) s ∧
      PredicateTakes (.cmpNe f) 1 f.d (decide (a ≠ b)) s ∧
      PredicateTakes (.cmpLt f) 1 f.d (decide (a.toInt < b.toInt)) s ∧
      PredicateTakes (.cmpLe f) 1 f.d (decide (a.toInt ≤ b.toInt)) s ∧
      PredicateTakes (.cmpLtu f) 1 f.d (decide (a.toNat < b.toNat)) s ∧
      PredicateTakes (.cmpLeu f) 1 f.d (decide (a.toNat ≤ b.toNat)) s ∧
      PredicateTakes (.pand f) 1 f.d (pa && pb) s ∧ PredicateTakes (.por f) 1 f.d (pa || pb) s ∧
      PredicateTakes (.pxor f) 1 f.d (pa ^^ pb) s ∧ PredicateTakes (.pnot f) 1 f.d (!pa) s) ∧
    (guardHolds i.gk.g s.me = true →
      let a := s.me.regs.sReg i.a
      let b := BitVec.ofInt 64 i.imm.toInt
      PredicateTakes (.cmpiEq i) 1 i.d (decide (a = b)) s ∧
      PredicateTakes (.cmpiNe i) 1 i.d (decide (a ≠ b)) s ∧
      PredicateTakes (.cmpiLt i) 1 i.d (decide (a.toInt < b.toInt)) s ∧
      PredicateTakes (.cmpiLe i) 1 i.d (decide (a.toInt ≤ b.toInt)) s ∧
      PredicateTakes (.cmpiLtu i) 1 i.d (decide (a.toNat < b.toNat)) s ∧
      PredicateTakes (.cmpiLeu i) 1 i.d (decide (a.toNat ≤ b.toNat)) s)

/-- R134, R140: the floating instructions round the exact result once to their format, in RNE, with their
exposed latencies; FP32 results are zero-extended (R133). -/
def Obligations.FloatingInstructionsRoundOnce : Prop :=
  ∀ (f : SR) (s : State), guardHolds f.gk.g s.me = true →
    let rd (F : Fmt) (n : BitVec 6) : FVal := F.val (s.me.regs.sReg n).toNat
    let wr (F : Fmt) (x : FVal) : Word := BitVec.ofNat 64 (F.enc .rne x)
    let both (F : Fmt) (add sub mul fma div sqrt mn mx : Instr) (l lf ls : Nat) : Prop :=
      ScalarTakes add l f.d (wr F (FVal.add .rne (rd F f.a) (rd F f.b))) s ∧
      ScalarTakes sub l f.d (wr F (FVal.add .rne (rd F f.a) (rd F f.b).negate)) s ∧
      ScalarTakes mul l f.d (wr F (FVal.mul (rd F f.a) (rd F f.b))) s ∧
      ScalarTakes fma lf f.d (wr F (FVal.fma .rne (rd F f.a) (rd F f.b) (rd F f.d))) s ∧
      ScalarTakes div ls f.d (wr F (FVal.div (rd F f.a) (rd F f.b))) s ∧
      ScalarTakes sqrt ls f.d (wr F (rd F f.a).sqrt) s ∧
      ScalarTakes mn l f.d (wr F (FVal.minimum (rd F f.a) (rd F f.b))) s ∧
      ScalarTakes mx l f.d (wr F (FVal.maximum (rd F f.a) (rd F f.b))) s
    both fp32 (.faddF32 f) (.fsubF32 f) (.fmulF32 f) (.ffmaF32 f) (.fdivF32 f) (.fsqrtF32 f) (.fminF32 f)
      (.fmaxF32 f) 4 4 12 ∧
    both fp64 (.faddF64 f) (.fsubF64 f) (.fmulF64 f) (.ffmaF64 f) (.fdivF64 f) (.fsqrtF64 f) (.fminF64 f)
      (.fmaxF64 f) 6 6 24

/-- R140, R141: floating compares are false where an operand is NaN, but for `fcmp.un`, and `fcvt` converts by
its code: between floating formats and from integers rounded once, and to integers, where a NaN gives 0, a value out
of range saturates, and another is truncated, or rounded to nearest even by codes 10 and 11. -/
def Obligations.FloatingComparesAndConversions : Prop :=
  ∀ (f : SR) (s : State), guardHolds f.gk.g s.me = true →
    let rd (F : Fmt) (n : BitVec 6) : FVal := F.val (s.me.regs.sReg n).toNat
    let all (F : Fmt) (eq lt le un : Instr) : Prop :=
      PredicateTakes eq 2 f.d (decide (FVal.cmp (rd F f.a) (rd F f.b) = some .eq)) s ∧
      PredicateTakes lt 2 f.d (decide (FVal.cmp (rd F f.a) (rd F f.b) = some .lt)) s ∧
      PredicateTakes le 2 f.d (decide (FVal.cmp (rd F f.a) (rd F f.b) = some .lt ∨
        FVal.cmp (rd F f.a) (rd F f.b) = some .eq)) s ∧
      PredicateTakes un 2 f.d ((rd F f.a).isNan || (rd F f.b).isNan) s ∧
      ((rd F f.a).isNan = true ∨ (rd F f.b).isNan = true → FVal.cmp (rd F f.a) (rd F f.b) = none)
    all fp32 (.fcmpEqF32 f) (.fcmpLtF32 f) (.fcmpLeF32 f) (.fcmpUnF32 f) ∧
    all fp64 (.fcmpEqF64 f) (.fcmpLtF64 f) (.fcmpLeF64 f) (.fcmpUnF64 f) ∧
    let x := s.me.regs.sReg f.a
    let takes (c : Nat) (v : Word) : Prop := f.b.toNat = c → ScalarTakes (.fcvt f) 4 f.d v s
    let flt (c : Nat) (F G : Fmt) : Prop := takes c (BitVec.ofNat 64 (G.enc .rne (F.val x.toNat)))
    let ofI (c : Nat) (i : Int) (G : Fmt) : Prop := takes c (BitVec.ofNat 64 (G.enc .rne (.ofInt i)))
    let toI (c : Nat) (F : Fmt) (rne : Bool) (lo hi : Int) : Prop := f.b.toNat = c →
      ∃ v : Int, ScalarTakes (.fcvt f) 4 f.d (BitVec.ofInt 64 v) s ∧
        ((F.val x.toNat).isNan = true → v = 0) ∧
        (∀ neg, F.val x.toNat = .inf neg → v = if neg then lo else hi) ∧
        ∀ sg n d, F.val x.toNat = .fin sg n d → ∃ z : Nat, v = max lo (min hi (if sg then -(z : Int) else z)) ∧
          (rne = false → z = n / d) ∧
          (rne = true → 2 * ((n : Int) - z * d).natAbs ≤ d ∧
            (2 * ((n : Int) - z * d).natAbs = d → z % 2 = 0))
    flt 0 fp64 fp32 ∧ flt 1 fp32 fp64 ∧
    ofI 2 x.toInt fp32 ∧ ofI 3 x.toNat fp32 ∧ ofI 4 x.toInt fp64 ∧ ofI 5 x.toNat fp64 ∧
    toI 6 fp32 false (-2 ^ 63) (2 ^ 63 - 1) ∧ toI 7 fp32 false 0 (2 ^ 64 - 1) ∧
    toI 8 fp64 false (-2 ^ 63) (2 ^ 63 - 1) ∧ toI 9 fp64 false 0 (2 ^ 64 - 1) ∧
    toI 10 fp32 true (-2 ^ 63) (2 ^ 63 - 1) ∧ toI 11 fp64 true (-2 ^ 63) (2 ^ 63 - 1) ∧
    flt 12 fp16 fp32 ∧ flt 13 fp32 fp16 ∧ flt 14 bf16 fp32 ∧ flt 15 fp32 bf16

/-- R336, R354, R355, R403: `rdsr` and `wrsr` are checked against the access that the register permits at the
current level, and the key is not written while the mould is closing; `tlbinv` and `tlbsync` are privileged at
U, `tlbinv` of KIND 2 to 4 at S too. -/
def Obligations.SystemRegistersObeyAccess : Prop :=
  ∀ (f : SI) (g : SR) (s : State),
    (guardHolds f.gk.g s.me = true →
      let n := f.imm.toNat
      let priv (i : Instr) : Prop := exec i s = s.privileged
      (sprAccess s.me.isCore n = none → exec (.rdsr f) s = s.illegal 5 ∧ exec (.wrsr f) s = s.illegal 5) ∧
      (∀ c, sprAccess s.me.isCore n = some c →
        (levelCell c s.me.level = .no → priv (.rdsr f) ∧ priv (.wrsr f)) ∧
        (levelCell c s.me.level ≠ .no → ScalarTakes (.rdsr f) 1 f.d (sprRead n s) s) ∧
        (levelCell c s.me.level = .ro → higherRw c s.me.level = true → priv (.wrsr f)) ∧
        (levelCell c s.me.level = .ro → higherRw c s.me.level = false →
          exec (.wrsr f) s = .next s.issuedBare) ∧
        (levelCell c s.me.level = .rw →
          (n = 0x0b → s.me.units.mould.mode = .closing → exec (.wrsr f) s = s.illegal 9) ∧
          (n ≠ 0x0b ∨ s.me.units.mould.mode ≠ .closing → exec (.wrsr f) s =
            .next (s.withResult 1 0 0 [.spr s.me.level n (s.me.regs.sReg f.a)]))))) ∧
    (guardHolds g.gk.g s.me = true → s.me.level = 0 →
      exec (.tlbinv g) s = s.privileged ∧ exec (.tlbsync g) s = s.privileged) ∧
    (guardHolds g.gk.g s.me = true → s.me.level = 1 → 2 ≤ wbits 2 0 (s.me.regs.sReg g.b) →
      wbits 2 0 (s.me.regs.sReg g.b) ≤ 4 → exec (.tlbinv g) s = s.privileged)

/-- R354, R355: at M a `tlbinv` of KIND 0 to 4, once the issuer's earlier accesses have ended and a place is
free, begins one invalidation of what its operands name, at S one of KIND 0 or 1 in its own partition;
`tlbsync` waits until none of the issuer is left. -/
def Obligations.TlbInvalidationBegins : Prop :=
  ∀ (g : SR) (s : State), guardHolds g.gk.g s.me = true →
    (s.hub.fenceDone 0 s.me = true → s.me.tlbFull = false →
      (s.me.level = 2 ∧ wbits 2 0 (s.me.regs.sReg g.b) ≤ 4 ∨
        s.me.level = 1 ∧ wbits 2 0 (s.me.regs.sReg g.b) ≤ 1) →
      ∃ t x, exec (.tlbinv g) s = .next t ∧ t.hub.tlbinvs = s.hub.tlbinvs ++ [x] ∧
        x.by_ = s.me.id ∧ x.kind = wbits 2 0 (s.me.regs.sReg g.b) ∧
        x.va = (s.me.regs.sReg g.a).toNat % 2 ^ 57 ∧ x.marks = none ∧
        x.part = (if s.me.level = 1 then s.me.partNo else wbits 11 8 (s.me.regs.sReg g.b)) ∧
        t.me.lsu.tlbinvs = s.me.lsu.tlbinvs ++ [x.id] ∧ Untouched s t ∧ t.me.sched = s.me.sched ∧
        t.me.spr = s.me.spr ∧ t.me.iss.out = .ok) ∧
    (s.me.level ≠ 0 → s.me.lsu.tlbinvs = [] → exec (.tlbsync g) s = .next s.issuedBare) ∧
    (s.me.level ≠ 0 → s.me.lsu.tlbinvs ≠ [] → exec (.tlbsync g) s = .next (s.stall false))

/-! ### The control slot -/

/-- R129, R130, R131: `nop` does nothing; `hold n` keeps the hart from issuing for IMM10 further cycles; a
branch goes to its target, or falls through where its guard reads false; a call also writes the address of the
byte after its bundle to `s63`. In broadcast the leading rank's decision and target hold for every rank. -/
def Obligations.BranchesMoveControl : Prop :=
  ∀ (n : CN) (h : CI) (f : CB) (r : CR) (s : State),
    let rel : VAddr := s.me.ctl.pc + BitVec.ofInt 57 f.disp.toInt
    let reg : VAddr := BitVec.ofNat 57 (s.me.regs.sReg r.a).toNat
    let back : Word := BitVec.ofNat 64 ((s.me.ctl.pc.toNat + s.me.iss.len) % 2 ^ 57)
    let jump (i : Instr) (a : VAddr) : Prop := exec i s = .next (s.modMe (Hart.goTo a)).issuedBare
    let link (i : Instr) (a : VAddr) : Prop :=
      exec i s = .next ((s.modMe (Hart.goTo a)).withResult 1 1 63 [.s 63 back])
    let stay (i : Instr) : Prop := exec i s = .next s.issuedBare
    stay (.nop n) ∧
    (guardHolds h.gk.g s.me = true → ∃ t, exec (.hold h) s = .next t ∧
      t = { s.issuedBare with me := { s.issuedBare.me with
              sched := { s.me.sched with hold := h.imm.toNat, holdAt := s.me.ctl.pc } } }) ∧
    (s.me.ctl.dec = none →
      (guardHolds f.gk.g s.me = true → jump (.br f) rel ∧ link (.call f) rel) ∧
      (guardHolds r.gk.g s.me = true → jump (.brR r) reg ∧ link (.callR r) reg) ∧
      (guardHolds f.gk.g s.me = false → stay (.br f) ∧ stay (.call f)) ∧
      (guardHolds r.gk.g s.me = false → stay (.brR r) ∧ stay (.callR r))) ∧
    (∀ it, s.me.ctl.dec = some it →
      (it.taken = true → jump (.br f) it.target ∧ link (.call f) it.target ∧
        jump (.brR r) it.target ∧ link (.callR r) it.target) ∧
      (it.taken = false → stay (.br f) ∧ stay (.call f) ∧ stay (.brR r) ∧ stay (.callR r)))

/-- R288, R289, R305: `wait.sem` issues once the semaphore holds its threshold and stalls before; a Newel core
traps on it. `sleep.until` issues in the cycle before the first one at which `CLK` has reached the operand
(log entry 20), and stalls before, with the operand as the time of its waking. -/
def Obligations.SemaphoreAndClockWaits : Prop :=
  ∀ (f : CS) (r : CR) (s : State),
    (Ready f.gk.g (.waitSem f) s →
      (s.me.isCore = false → f.thr.toNat ≤ NMap.get 0 f.sem.toNat s.me.units.sem →
        exec (.waitSem f) s = .next s.issuedBare) ∧
      (s.me.isCore = false → NMap.get 0 f.sem.toNat s.me.units.sem < f.thr.toNat →
        exec (.waitSem f) s = .next (s.stall false)) ∧
      (s.me.isCore = true → exec (.waitSem f) s = s.illegal 9)) ∧
    (Ready r.gk.g (.sleepUntil r) s →
      ((s.me.regs.sReg r.a).toNat ≤ s.nextCycle → exec (.sleepUntil r) s = .next s.issuedBare) ∧
      (s.nextCycle < (s.me.regs.sReg r.a).toNat → ∃ t, exec (.sleepUntil r) s = .next t ∧
        t.me.iss.out = .stalled false ∧ Untouched s t ∧ t.me.sched = s.me.sched ∧
        t.me.ctl.stall.bind (·.asleep) = some (s.me.regs.sReg r.a).toNat))

/-- R54, R294, R295, R298, R338: `detach` in broadcast writes the meeting address to `MEET`; a rank whose
guard reads true goes on under its own program counter, another has arrived. `meet` makes a detached tread
arrive, sends an orphan to `MEET` (R378), and leaves one that is attached as it is, in a handler too (R297).
`retire` ends a tread; it halts a Newel core at M and is privileged below. -/
def Obligations.DetachMeetAndRetire : Prop :=
  ∀ (f : CB) (n : CN) (s : State),
    (s.me.isCore = false → s.me.ctl.run = .attached → ∃ t, exec (.detach f) s = .next t ∧
      t.me.spr.meet = BitVec.ofNat 64 (s.me.ctl.pc + BitVec.ofInt 57 f.disp.toInt).toNat ∧
      (guardHolds f.gk.g s.me = true → t.me.iss.after = some .detached ∧ t.me.iss.next = s.me.iss.next) ∧
      (guardHolds f.gk.g s.me = false → t.me.iss.after = some .atMeet ∧
        t.me.iss.next = some (s.me.ctl.pc + BitVec.ofInt 57 f.disp.toInt)) ∧
      t.me.regs = s.me.regs ∧ t.me.sched = s.me.sched ∧ t.me.lsu = s.me.lsu ∧ t.hub = s.hub ∧
      t.ring.map (·.regs) = s.ring.map (·.regs)) ∧
    (guardHolds f.gk.g s.me = true → s.me.isCore = true ∨ s.me.ctl.run ≠ .attached →
      exec (.detach f) s = s.illegal 9) ∧
    (guardHolds f.gk.g s.me = false → s.me.isCore = true ∨ s.me.ctl.run ≠ .attached →
      exec (.detach f) s = .next s.issuedBare) ∧
    (TreadReady n.gk.g (.meet n) s →
      (s.me.ctl.run = .attached ∨ s.me.ctl.run = .handler → exec (.meet n) s = .next s.issuedBare) ∧
      (s.me.ctl.run = .orphan → exec (.meet n) s =
        .next (s.modMe (Hart.goTo (BitVec.ofNat 57 s.me.spr.meet.toNat))).issuedBare) ∧
      (s.me.ctl.run = .detached → exec (.meet n) s = .next
        (s.modMe (fun h => (h.goTo (BitVec.ofNat 57 s.me.spr.meet.toNat)).become .atMeet)).issuedBare)) ∧
    (guardHolds n.gk.g s.me = true →
      (s.me.isCore = false → exec (.retire n) s = .next (s.modMe (Hart.become .retired)).issuedBare) ∧
      (s.me.isCore = true → s.me.level = 2 →
        exec (.retire n) s = .next (s.modMe (Hart.become .halted)).issuedBare) ∧
      (s.me.isCore = true → s.me.level ≠ 2 → exec (.retire n) s = s.privileged))

/-- R291, R292, R418: `loop` on a tread that runs none gives the bundles that follow to the modulo sequencer, with
the trip count of its register and the interval of its fields; a trip count of 0 and a guard that reads false go to
the bundle after the body. In broadcast the leading rank's trip count and body hold. The lines of the body are read as
a fetch reads them, once no peer holds one of them alone, which may raise LT; how far is log entry 27. -/
def Obligations.LoopStartsSequencer : Prop :=
  ∀ (f : CL) (s : State) (body : List (VAddr × List Byte)) (after : VAddr),
    let ready := TreadReady f.gk.g (.loop f) s
    let n := (s.me.regs.sReg f.a).toNat
    let starts (u : State) (n : Nat) (ps : List (Nat × Nat)) : Prop := ∃ t, exec (.loop f) s = .next t ∧
      t.me.sched = { s.me.sched with loop := some ⟨0, n, f.ii.toNat + 1, body, after, s.me.ctl.pc, ps⟩ } ∧
      t.me.regs = s.me.regs ∧ t.me.spr = { s.me.spr with lt := u.me.spr.lt } ∧ s.me.spr.lt ≤ u.me.spr.lt ∧
      t.me.lsu = u.me.lsu ∧ t.me.units = s.me.units ∧ t.hub = u.hub ∧ t.hub.mem = s.hub.mem ∧ t.ring = s.ring ∧
      t.me.iss.out = .ok
    (s.me.ctl.dec = none →
      s.readBody (f.len.toNat + 1 + 2 ^ 51) (s.me.ctl.pc.toNat + s.me.iss.len) (f.len.toNat + 1) [] = .ok body after →
      (∀ la ∈ s.me.bodyLines body, s.fetchRecall la = none) →
      let u := (s.me.bodyLines body).foldl (fun s la => s.fetchTime la) s
      let skips : Prop := exec (.loop f) s = .next (u.modMe (Hart.goTo after)).issuedBare
      (ready → n = 0 → skips) ∧
      (guardHolds f.gk.g s.me = false → kernelCheck s.me (.loop f) = none → s.me.isCore = false → skips) ∧
      (ready → n ≠ 0 → s.me.looping = false → body.length = f.len.toNat + 1 →
        bodyOk (f.ii.toNat + 1) body = true → starts u n []) ∧
      (ready → n ≠ 0 → s.me.looping = true ∨ bodyOk (f.ii.toNat + 1) body = false →
        exec (.loop f) s = u.illegal 9)) ∧
    (∀ it, s.me.ctl.dec = some it → kernelCheck s.me (.loop f) = none → s.me.isCore = false →
      (it.trips = 0 → exec (.loop f) s = .next (s.modMe (Hart.goTo it.target)).issuedBare) ∧
      (it.trips ≠ 0 → it.code = body → it.target = after → s.me.looping = false →
        body.length = f.len.toNat + 1 → bodyOk (f.ii.toNat + 1) body = true → starts s it.trips it.pauses))

/-- R300 to R303: an arrival that the current phase admits is sent once, with the phase in sb; `bar.wait` on a
completed phase passes and raises LT to the release time, on another it stalls and parks, or answers PEND under
TEST; `grp.red` arrives once with its contribution and stalls, and once its phase is complete it takes the result of
its operation. An arrival for a phase that is not the current one stalls and sends nothing. -/
def Obligations.GroupsArriveWaitAndReduce : Prop :=
  ∀ (f : CR) (e : EF) (s : State) (j : Fin 4),
    (TreadReady f.gk.g (.barArrive f) s → s.me.groupSlot f.imm.toNat = some j →
      s.me.arrived true f.imm.toNat = none → (s.me.units.arrPhase[j]).toNat = s.phaseOf f.imm.toNat →
      ∃ t, exec (.barArrive f) s = .next t ∧
        t.me.units.arrivals = s.me.units.arrivals ++
          [⟨f.imm.toNat, s.phaseOf f.imm.toNat, none, s.me.iss.seq⟩] ∧
        t.me.units.arrPhase = s.me.units.arrPhase.set j.val (s.me.units.arrPhase[j] + 1) j.isLt ∧
        t.me.sched.pipe = s.me.sched.pipe ++ [⟨s.me.iss.seq, 1, s.me.ctl.pc, 1, f.b.toNat,
          some [.s f.b (BitVec.ofNat 64 (s.phaseOf f.imm.toNat))]⟩] ∧
        t.me.regs = s.me.regs ∧ t.me.spr = s.me.spr ∧ t.me.lsu = s.me.lsu ∧ t.hub = s.hub ∧ t.ring = s.ring) ∧
    (TreadReady f.gk.g (.barWait f) s → s.me.groupSlot f.imm.toNat = some j → s.me.ctl.bar = none →
      let p := (s.me.regs.sReg f.a).toNat % 65536
      let g := s.groupOf f.imm.toNat
      let done := s.phaseDone f.imm.toNat p
      (done = true → exec (.barWait f) s = .next
        ((s.modMe (Hart.raiseLt ((g.map (·.release)).getD 0))).withResult 1 1 f.b.toNat
          [.s f.b (BitVec.ofNat 64 (1 + 2 * (((g.map (·.lost)).getD false).toNat)))])) ∧
      (done = false → (s.me.regs.sReg f.b).getLsbD 0 = true →
        exec (.barWait f) s = .next (s.withResult 1 1 f.b.toNat [.s f.b 4])) ∧
      (done = false → (s.me.regs.sReg f.b).getLsbD 0 = false →
        ∃ t, exec (.barWait f) s = .next t ∧ t.me.iss.out = .stalled true ∧ Untouched s t)) ∧
    (EngineReady (.grpRed e) e s → s.me.groupSlot (ecIdx e) = some j →
      ∀ a, s.me.arrived false (ecIdx e) = some a →
      let g := s.groupOf (ecIdx e)
      (s.phaseDone (ecIdx e) a = true → exec (.grpRed e) s = .next
        ((s.modMe (Hart.raiseLt ((g.map (·.release)).getD 0))).withResult 3 1 e.d.toNat
          (.s e.d (redPick (e.q.toNat % 4) (e.q.getLsbD 2) ((g.map (·.last)).getD accStart))
            :: sigEffs e.ws))) ∧
      (s.phaseDone (ecIdx e) a = false →
        ∃ t, exec (.grpRed e) s = .next t ∧ t.me.iss.out = .stalled true ∧ Untouched s t)) ∧
    (EngineReady (.grpRed e) e s → s.me.groupSlot (ecIdx e) = some j → s.me.arrived false (ecIdx e) = none →
      let a := (s.me.units.arrPhase[j]).toNat
      (a = s.phaseOf (ecIdx e) → s.phaseDone (ecIdx e) a = false → ∃ t, exec (.grpRed e) s = .next t ∧
        t.me.iss.out = .stalled true ∧ Untouched s t ∧ t.me.spr = s.me.spr ∧ t.me.sched = s.me.sched ∧
        t.me.units.arrivals = s.me.units.arrivals ++
          [⟨ecIdx e, a, some (s.me.regs.sReg e.a), s.me.iss.seq⟩] ∧
        t.me.units.arrPhase = s.me.units.arrPhase.set j.val (s.me.units.arrPhase[j] + 1) j.isLt ∧
        t.me.arrived false (ecIdx e) = some a) ∧
      (a ≠ s.phaseOf (ecIdx e) → ∃ t, exec (.grpRed e) s = .next t ∧ t.me.iss.out = .stalled true ∧
        Untouched s t ∧ t.me.units = s.me.units)) ∧
    (TreadReady f.gk.g (.barArrive f) s → s.me.groupSlot f.imm.toNat = some j → s.me.arrived true f.imm.toNat = none →
      (s.me.units.arrPhase[j]).toNat ≠ s.phaseOf f.imm.toNat → ∃ t, exec (.barArrive f) s = .next t ∧
        t.me.iss.out = .stalled true ∧ Untouched s t ∧ t.me.units = s.me.units)

/-- R250 to R253: an instruction that the hub answers sends its request and stalls; once answered, its result
lands in 1 c with the time that LT must reach. `hyp.enter` of a child of the current node pushes its handler,
and `hyp.leave` returns to the parent. -/
def Obligations.HypothesisInstructions : Prop :=
  ∀ (f : CR) (n : CN) (s : State),
    let asks (i : Instr) (k : Nat) : Prop := Ready f.gk.g i s →
      (s.me.lsu.hubReq = none → ∃ t, exec i s = .next t ∧ Untouched s t ∧ t.me.iss.out = .stalled false ∧
        t.me.lsu.hubReq = some ⟨s.me.ctl.pc, k, s.me.regs.sReg f.a, none⟩) ∧
      (∀ v w x, s.me.lsu.hubReq = some ⟨s.me.ctl.pc, k, x, some (v, w)⟩ →
        exec i s = .next ((s.modMe (fun h => { h with lsu := { h.lsu with hubReq := none } })).withResult 1 1
          f.b.toNat [.s f.b v, .lt w]))
    asks (.hypOpen f) 0 ∧ asks (.hypResolveConfirm f) 1 ∧ asks (.hypResolveRefute f) 2 ∧
    (Ready f.gk.g (.hypEnter f) s →
      ∀ x, s.hub.node s.me.partNo (s.me.regs.sReg f.a).toNat = some x → x.id ≠ 0 →
      x.parent = s.me.spr.hyp.toNat → s.me.units.hstack.length < 8 →
      ∃ t, exec (.hypEnter f) s = .next t ∧ t.me.spr = { s.me.spr with hyp := s.me.regs.sReg f.a } ∧
        t.me.units = { s.me.units with hstack := ((s.me.regs.sReg f.a).toNat,
          BitVec.ofNat 57 (s.me.regs.sReg f.b).toNat) :: s.me.units.hstack } ∧
        t.me.regs = s.me.regs ∧ t.me.sched = s.me.sched ∧ t.me.ctl = s.me.ctl ∧ t.hub = s.hub ∧
        t.ring = s.ring ∧ t.me.iss.out = .ok) ∧
    (Ready n.gk.g (.hypLeave n) s →
      (s.me.spr.hyp = 0 → exec (.hypLeave n) s = s.illegal 9) ∧
      (∀ x, s.me.spr.hyp ≠ 0 → s.hub.node s.me.partNo s.me.spr.hyp.toNat = some x →
        ∃ t, exec (.hypLeave n) s = .next t ∧ t.me.spr = { s.me.spr with hyp := BitVec.ofNat 64 x.parent } ∧
          t.me.units = { s.me.units with hstack := s.me.units.hstack.drop 1 } ∧ t.me.regs = s.me.regs ∧
          t.me.sched = s.me.sched ∧ t.me.ctl = s.me.ctl ∧ t.hub = s.hub ∧ t.ring = s.ring ∧ t.me.iss.out = .ok))

/-- R173 to R179: `mould.open` of a closed mould copies its registers to the shadow; `mould.cancel` discards the
shadow; `vrng` draws and advances the lanes' indices or reads a count; `accept` decides every active lane and
begins to close the mould. -/
def Obligations.MouldOpensDrawsAndCloses : Prop :=
  ∀ (r : CR) (n : CN) (f : VF) (s : State),
    (Ready r.gk.g (.mouldOpen r) s → s.me.units.mould.mode = .closed →
      s.me.inFlight (s.me.runKey r.a.toNat (r.imm.toNat + 1)) = false →
      ∃ t, exec (.mouldOpen r) s = .next t ∧ t.me.units.mould.mode = .opened ∧
        t.me.units.mould.first = r.a.toNat ∧ t.me.units.mould.count = r.imm.toNat + 1 ∧
        (∀ k, k < 64 * (r.imm.toNat + 1) →
          NMap.get 0#32 (s.me.vBase + 64 * r.a.toNat + k) t.me.units.mould.shadow
            = NMap.get 0#32 (s.me.vBase + 64 * r.a.toNat + k) s.me.regs.space) ∧
        t.me.units.mould.n = s.me.units.mould.n ∧ t.me.units.mould.cA = s.me.units.mould.cA ∧
        t.me.units.mould.cC = s.me.units.mould.cC ∧ t.me.regs = s.me.regs ∧ t.me.spr = s.me.spr ∧
        t.me.sched = s.me.sched ∧ t.me.lsu = s.me.lsu ∧ t.hub = s.hub ∧ t.ring = s.ring) ∧
    (Ready n.gk.g (.mouldCancel n) s →
      (s.me.units.mould.mode = .closed → exec (.mouldCancel n) s = .next s.issuedBare) ∧
      (s.me.units.mould.mode = .closing → exec (.mouldCancel n) s = s.illegal 9) ∧
      (s.me.units.mould.mode = .opened → s.me.shadowFlight = false → exec (.mouldCancel n) s = .next
        (s.modMe (fun h => { h with units := { h.units with
          mould := { h.units.mould with mode := .closed, shadow := [] } } })).issuedBare)) ∧
    (TreadReady f.g (.vrng f) s →
      let m := s.me.regs.mReg f.m
      let draws := f.t = 0#3 ∨ f.t = 4#3
      let v (l : Nat) : BitVec 32 :=
        if f.t = 0#3 then BitVec.ofNat 32 (fp32.enc f.mode (.fin false (s.me.drawVal l + 1) (2 ^ 32)))
        else if f.t = 4#3 then BitVec.ofNat 32 (s.me.drawVal l)
        else if f.t = 5#3 then NMap.get 0#32 l s.me.units.mould.cA
        else NMap.get 0#32 l s.me.units.mould.cC
      let ws := vecWords (s.me.vBase + 64 * f.d.toNat) m f.z v
      s.me.vecWriteBad f.d.toNat (ws.map (·.1)) = false →
        (draws → exec (.vrng f) s = .next ((s.modMe (Hart.advanceDraws m)).withResult 8 5 f.d.toNat
          [.space (s.me.shadowed f.d.toNat) ws])) ∧
        (¬draws → exec (.vrng f) s = .next (s.withResult 2 5 f.d.toNat
          [.space (s.me.shadowed f.d.toNat) ws]))) ∧
    (TreadReady f.g (.accept f) s → s.me.units.mould.mode = .opened → s.me.shadowFlight = false →
      (∀ k, k < 64 * s.me.units.mould.count →
        s.me.tileBusy (s.me.vBase + 64 * s.me.units.mould.first + k) = false) →
      ∃ ok : Word, (∀ l, l < 64 → ok.getLsbD l = ((s.me.regs.mReg f.m).getLsbD l &&
          acceptLane (s.me.drawVal l) (fp32.val (s.me.vLane f.a.toNat l).toNat))) ∧
        exec (.accept f) s = .next
          ((s.modMe (fun h => { h.advanceDraws (s.me.regs.mReg f.m) with
              units := { (h.advanceDraws (s.me.regs.mReg f.m)).units with
                mould := { (h.advanceDraws (s.me.regs.mReg f.m)).units.mould with mode := .closing } } })).withResult
            12 11 f.d.toNat [.m (BitVec.ofNat 3 f.d.toNat) ok, .accept ok (s.me.regs.mReg f.m)]))

/-- R282, R304: `vbank.acq` takes the banks of its mask once none of them is draining, and stalls before;
`vbank.rel` releases those that are held, draining where work in flight still touches them. Nothing else of the
package changes. -/
def Obligations.VaultBanksChangeHands : Prop :=
  ∀ (f : CR) (s : State),
    let ks := s.me.maskBanks (s.me.regs.sReg f.a)
    let bank (m : NMap Nat) : State := { s with hub := { s.hub with banks := m } }
    (TreadReady f.gk.g (.vbankAcq f) s →
      ((∀ k ∈ ks, NMap.get 0 k s.hub.banks ≠ 2) → exec (.vbankAcq f) s =
        .next (bank (ks.foldl (fun m k => NMap.put 0 k 0 m) s.hub.banks)).issuedBare) ∧
      ((∃ k ∈ ks, NMap.get 0 k s.hub.banks = 2) → exec (.vbankAcq f) s = .next (s.stall false))) ∧
    (TreadReady f.gk.g (.vbankRel f) s → exec (.vbankRel f) s =
      .next (bank ((ks.filter s.hub.bankHeld).foldl (fun m k =>
        NMap.put 0 k (if s.busyBanks.contains k = true then 2 else 1) m) s.hub.banks)).issuedBare)

/-! ### The load-store slot -/

/-- R222, R224, R225, R227, R373: a scalar load of `w` bytes whose address translates issues: its result is in
flight with the latency of its address class and awaits its bytes. A misaligned one traps with its address,
and a vault-window address that R183 forbids with the vault access fault; a stage-1 fault is taken at S,
another at M, and from M both at M (log entry 110). -/
def Obligations.ScalarLoadsAreSent : Prop :=
  ∀ (f : LO) (s : State),
    let va := loEa f s.me
    let lat := lsLat 8 20 14 (s.lsClass va)
    let load (i : Instr) (w : Nat) (signed : Bool) : Prop := AccessReady f.g i s →
      let r := s.pieces .load s.me.level (splitLines va w)
      (∀ ps, r = .ok ps → va % w = 0 → ∃ t, exec i s = .next t ∧
        LoadSent lat 1 f.d.toNat 1 (.scalar f.d w signed) ps s t) ∧
      (∀ ps, r = .ok ps → va % w ≠ 0 → exec i s = s.misaligned va) ∧
      (∀ x a, r = .fault x a → exec i s = s.xlatFault x .load a) ∧
      (∀ a, r = .vault a → va % w = 0 → exec i s = s.vaultFault a) ∧
      (∀ a, r = .vault a → va % w ≠ 0 → exec i s = s.misaligned va)
    load (.ldB f) 1 true ∧ load (.ldH f) 2 true ∧ load (.ldW f) 4 true ∧ load (.ldD f) 8 false ∧
    load (.ldBu f) 1 false ∧ load (.ldHu f) 2 false ∧ load (.ldWu f) 4 false

/-- R185, R190, R191, R210, R215, R227, R350: an aligned scalar store sends the low bytes of its register: one write
of the addressed line to its home, tagged with the hypothesis, or one direct store to a bank of a vault. A store of a
Vat tread to a line of a region of its Vat that is made non-coherent, but in a page of device type, goes to its lease
cache instead, where the bytes are dirty; a line that is not there yet is filled first, as a load reads it, which is
log entry 113. A tagged store to another package, a host or a CXL device is not performed and sets REFUSED. No byte of
memory changes before the write is stamped or the store has landed. -/
def Obligations.ScalarStoresAreSent : Prop :=
  ∀ (f : LO) (s : State) (p : Piece),
    let va := loEa f s.me
    let store (i : Instr) (w : Nat) : Prop := AccessReady f.g i s →
      s.pieces .store s.me.level (splitLines va w) = .ok [p] → p.va = va → p.len = w → va % w = 0 →
      s.versionWanted [p] = none →
      let bytes := toBytes w (s.me.regs.sReg f.d).toNat
      (∀ dev, p.sp = .mem dev → s.tagRefused p.pa = false → s.hub.nonCoherent s.me p.pa = false ∨ dev = true →
        ∃ t x, exec i s = .next t ∧ StoresSent 1 [x] [] s t ∧ x.pa = p.pa ∧ x.va = va ∧ x.dev = dev ∧
          x.kind = .store (bytes.mapIdx (fun k b => (k, b))) ∧ x.hyp = s.me.spr.hyp.toNat ∧
          x.part = s.me.partNo ∧ x.lvl = s.me.level ∧ x.seq = s.me.iss.seq) ∧
      (∀ dev, p.sp = .mem dev → s.tagRefused p.pa = true →
        ∃ t, exec i s = .next t ∧ StoresSent 1 [] [] s t ∧ t.me.units.pending.getLsbD 1 = true) ∧
      (p.sp = .mem false → s.tagRefused p.pa = false → s.hub.nonCoherent s.me p.pa = true →
        let line := s.me.leaseLine s.me.partNo 0 (lineOf p.pa)
        let seen := s.hub.seenWts s.me.partNo 0 (lineOf p.pa)
        (line = none → s.hub.exclusive (lineOf p.pa) = none) → s.me.lsu.lease.length < 1024 → p.pa % 128 + w ≤ 128 →
        (∀ l, line = some l → l.bytes.length = 128) →
        ∃ t l, exec i s = .next t ∧ t.me.leaseLine s.me.partNo 0 (lineOf p.pa) = some l ∧ l.nc = true ∧
          (∀ k, k < w → p.pa % 128 + k ∈ l.dirty ∧ l.bytes.getD (p.pa % 128 + k) 0#8 = bytes.getD k 0#8) ∧
          (∀ l0, line = some l0 → t.me.spr = s.me.spr ∧ l.wts = l0.wts ∧ l.rts = l0.rts ∧
            (∀ o, o ∈ l.dirty ↔ o ∈ l0.dirty ∨ (p.pa % 128 ≤ o ∧ o < p.pa % 128 + w)) ∧
            ∀ o, o < p.pa % 128 ∨ p.pa % 128 + w ≤ o → l.bytes.getD o 0#8 = l0.bytes.getD o 0#8) ∧
          (line = none → t.me.spr = { s.me.spr with lt := Nat.max s.me.spr.lt seen } ∧ l.wts = seen) ∧
          t.me.regs = s.me.regs ∧ t.me.sched = s.me.sched ∧ t.me.lsu.writes = s.me.lsu.writes ∧
          t.hub.mem = s.hub.mem ∧ t.ring = s.ring ∧ t.me.ctl.lsLeft = 1 ∧ t.me.iss.out = .ok) ∧
      (∀ d, p.sp = .vault d → ∃ t x, exec i s = .next t ∧ StoresSent 1 [] [x] s t ∧ x.pa = p.pa ∧
        x.bytes = bytes ∧ x.dist = d ∧ x.seq = s.me.iss.seq)
    store (.stB f) 1 ∧ store (.stH f) 2 ∧ store (.stW f) 4 ∧ store (.stD f) 8

/-- R222, R224, R228, R229, R231, R386: `vld`, `tld` and `vgath` whose addresses translate and are aligned issue,
with the latency of their class and their occupancy; a gather clears `PIX`. A register of the mould's shadow
receives its units there (R173). A write that R167, R174 or R179 forbids traps before any address does (R373);
misaligned ones trap with the lowest address that is not aligned. A gather that stops between lanes, where a
translation is absent (log entry 112), counts the lanes done in `PIX` and freezes. -/
def Obligations.VectorAndTileLoadsAreSent : Prop :=
  ∀ (f : LO) (g : LB) (s : State),
    (AccessReady f.g (.vld f) s →
      let va := loEa f s.me
      let act := loLanes f s.me
      let base := s.me.vBase + 64 * f.d.toNat
      let keys := act.map (base + ·)
      let zeros := if f.q then ((List.range 64).filter (fun l => !act.contains l)).map (base + ·) else []
      ∀ ps, s.pieces .load s.me.level (act.map (fun l => (va + 4 * l, 4))) = .ok ps →
        s.me.vecWriteBad f.d.toNat (keys ++ zeros) = false →
        (va % 4 ≠ 0 → exec (.vld f) s = s.misaligned va) ∧
        (va % 4 = 0 → ∃ t, exec (.vld f) s = .next t ∧
          LoadSent (lsLat 8 20 14 (s.lsClass va)) 5 f.d.toNat 1
            (.units (s.me.shadowed f.d.toNat) keys zeros) ps s t)) ∧
    (AccessReady f.g (.vld f) s →
      let act := loLanes f s.me
      let base := s.me.vBase + 64 * f.d.toNat
      s.me.vecWriteBad f.d.toNat (act.map (base + ·) ++
        (if f.q then ((List.range 64).filter (fun l => !act.contains l)).map (base + ·) else [])) = true →
      exec (.vld f) s = s.illegal 9) ∧
    (AccessReady g.g (.tld g) s →
      let va := lbEa g s.me
      let st := (s.me.regs.sReg g.b).toNat
      let keys := (List.range 1024).map (s.me.tBase + 1024 * g.d.toNat + ·)
      ∀ ps, s.pieces .load s.me.level (tileRows va st) = .ok ps → s.me.viewWriteBad keys = false →
        (va % 64 = 0 → st % 64 = 0 → ∃ t, exec (.tld g) s = .next t ∧
          LoadSent (lsLat 24 36 30 (s.lsClass va)) 6 g.d.toNat 16 (.units false keys []) ps s t) ∧
        (∀ a, LowestOddRow va st a → exec (.tld g) s = s.misaligned a)) ∧
    (AccessReady g.g (.tld g) s →
      s.me.viewWriteBad ((List.range 1024).map (s.me.tBase + 1024 * g.d.toNat + ·)) = true →
      exec (.tld g) s = s.illegal 9) ∧
    (AccessReady g.g (.vgath g) s →
      let all := lanes (s.me.regs.mReg g.m)
      let act := pixLanes 1 s.me all
      let base := s.me.vBase + 64 * g.d.toNat
      let keys := act.map (base + ·)
      let zeros := if g.q then ((List.range 64).filter (fun l => !all.contains l)).map (base + ·) else []
      (s.me.vecWriteBad g.d.toNat (keys ++ zeros) = true → exec (.vgath g) s = s.illegal 9) ∧
      (∀ ps w, s.stopsAfter .load (act.map (laneAddr g s.me)) = some (ps, w) →
        s.me.vecWriteBad g.d.toNat (keys ++ zeros) = false → ∃ t, exec (.vgath g) s = .next t ∧ Stopped 1 ps w s t) ∧
      ∀ ps, s.pieces .load s.me.level (act.map (fun l => (laneAddr g s.me l, 4))) = .ok ps →
        s.me.vecWriteBad g.d.toNat (keys ++ zeros) = false →
        (∀ l ∈ act, laneAddr g s.me l % 4 ≠ 0 →
          (∀ k ∈ act, laneAddr g s.me k % 4 ≠ 0 → laneAddr g s.me l ≤ laneAddr g s.me k) →
          exec (.vgath g) s = s.misaligned (laneAddr g s.me l)) ∧
        ((∀ l ∈ act, laneAddr g s.me l % 4 = 0) →
        ∃ t, exec (.vgath g) s = .next t ∧ t.me.spr.pix = 0 ∧ ∃ u, t = u.modMe Hart.clearPix ∧
          LoadSent (lsLat 16 28 22 (s.lsClass (laneAddr g s.me (all.headD 0)))) 5 g.d.toNat 4
            (.units (s.me.shadowed g.d.toNat) keys zeros) ps s u))

/-- R187, R228, R229, R231: `vst`, `tst` and `vscat` whose addresses translate and are aligned send the 4-byte
units of their active lanes, the rows of the tile, or the lanes' units in lane order; registers and memory are
as before until the writes are stamped. Misaligned ones trap with the lowest address that is not aligned (R224). A
scatter that stops between lanes (R386, log entry 112) counts the lanes done in `PIX` and freezes. -/
def Obligations.VectorAndTileStoresAreSent : Prop :=
  ∀ (f : LO) (g : LB) (s : State),
    let sent (ps : List Piece) (s t : State) (occ : Nat) : Prop :=
      t.me.regs = s.me.regs ∧ t.hub.mem = s.hub.mem ∧ t.ring = s.ring ∧
      ((∀ p ∈ ps, s.hub.nonCoherent s.me p.pa = false) → t.hub.lines = s.hub.lines ∧ t.me.lsu.lease = s.me.lsu.lease) ∧
      t.me.sched = s.me.sched ∧ t.me.ctl.lsLeft = occ ∧ t.me.iss.out = .ok
    (AccessReady f.g (.vst f) s →
      let va := loEa f s.me
      let act := loLanes f s.me
      ∀ ps, s.pieces .store s.me.level (act.map (fun l => (va + 4 * l, 4))) = .ok ps →
        let qs := ps.zipWith (fun p _ => p) act
        (va % 4 ≠ 0 → exec (.vst f) s = s.misaligned va) ∧
        (va % 4 = 0 → s.versionWanted qs = none → s.ncRecall qs = none →
          ∃ t, exec (.vst f) s = .next t ∧ sent qs s t 1 ∧ t = s.sendStores 1 false true
            (List.zipWith (fun p l => (p, toBytes 4 (s.me.vLane f.d.toNat l).toNat)) ps act))) ∧
    (AccessReady g.g (.tst g) s →
      let va := lbEa g s.me
      let st := (s.me.regs.sReg g.b).toNat
      let row (i : Nat) : List Byte := (List.range 16).flatMap (fun c => toBytes 4
        (NMap.get 0#32 (s.me.tBase + 1024 * g.d.toNat + 16 * i + c) s.me.regs.space).toNat)
      ∀ ps, s.pieces .store s.me.level (tileRows va st) = .ok ps →
        (va % 64 = 0 → st % 64 = 0 → s.versionWanted ps = none → s.ncRecall ps = none →
          ∃ t, exec (.tst g) s = .next t ∧ sent ps s t 16 ∧
            t = s.sendStores 16 false true (ps.mapIdx (fun i p => (p, row i)))) ∧
        (∀ a, LowestOddRow va st a → exec (.tst g) s = s.misaligned a)) ∧
    (AccessReady g.g (.vscat g) s →
      let act := pixLanes 2 s.me (lanes (s.me.regs.mReg g.m))
      (∀ ps w, s.stopsAfter .store (act.map (laneAddr g s.me)) = some (ps, w) → s.versionWanted ps = none →
        s.ncRecall ps = none → ∃ t, exec (.vscat g) s = .next t ∧ Stopped 2 ps w s t) ∧
      ∀ ps, s.pieces .store s.me.level (act.map (fun l => (laneAddr g s.me l, 4))) = .ok ps →
        (∀ l ∈ act, laneAddr g s.me l % 4 ≠ 0 →
          (∀ k ∈ act, laneAddr g s.me k % 4 ≠ 0 → laneAddr g s.me l ≤ laneAddr g s.me k) →
          exec (.vscat g) s = s.misaligned (laneAddr g s.me l)) ∧
        ((∀ l ∈ act, laneAddr g s.me l % 4 = 0) → s.versionWanted ps = none → s.ncRecall ps = none →
          let v := (List.zipWith (fun p l => (p, toBytes 4 (s.me.vLane g.d.toNat l).toNat)) ps act).foldl
            (fun s e => s.storePiece e.1 e.2 false) s
          ∃ t, exec (.vscat g) s = .next t ∧ sent ps s t 4 ∧ t.me.spr = { v.me.spr with pix := 0 } ∧
            t.me.lsu.writes = v.me.lsu.writes ∧ t.me.lsu.vstores = v.me.lsu.vstores))

/-- R191, R230: `pf` writes no register, moves no logical time and never traps: it does nothing for the vault
window, the quire window and an address that would fault. A line of memory that a tread may lease, and of
which it holds no copy whose lease still runs, is in its lease cache afterwards. -/
def Obligations.PrefetchNeverTraps : Prop :=
  ∀ (f : LO) (s : State), AccessReady f.g (.pf f) s →
    let va := loEa f s.me
    (inVault va = true ∨ inQuire va = true →
      exec (.pf f) s = .next (s.modMe (Hart.occupyLs 1)).issuedBare) ∧
    (s.xlate .load s.me.level va ≠ .wait →
      (∀ pa dev, s.xlate .load s.me.level va = .ok pa dev → s.hub.exclusive (lineOf pa) = none) →
      ∃ t, exec (.pf f) s = .next t ∧ t.me.regs = s.me.regs ∧
        t.me.spr = s.me.spr ∧ t.me.sched = s.me.sched ∧ t.me.iss.out = .ok ∧ t.hub.mem = s.hub.mem ∧
        (s.me.lsu.lease.length < 1024 → t.me.lsu.writes = s.me.lsu.writes) ∧ t.ring = s.ring) ∧
    (∀ pa, inVault va = false → inQuire va = false → s.xlate .load s.me.level va = .ok pa false →
      s.me.isCore = false → (s.hub.loc pa).leasable = true → s.hub.poisoned pa = false →
      s.hub.exclusive (lineOf pa) = none →
      (∀ l, s.me.leaseLine s.me.partNo s.me.spr.hyp.toNat (lineOf pa) = some l →
        l.nc = false ∧ l.rts < s.me.spr.lt) →
      ∃ t l, exec (.pf f) s = .next t ∧ t.me.leaseLine s.me.partNo s.me.spr.hyp.toNat (lineOf pa) = some l ∧
        l.wts = s.hub.seenWts s.me.partNo s.me.spr.hyp.toNat (lineOf pa) ∧ l.dirty = [])

/-- R205, R215, R232, R233, R234: a returning atomic leaves a result in flight for 128 cycles and a request
for the line's home with its operation, operand, comparand and hypothesis, after the write-back of dirty bytes
of its own that a non-coherent line has; a reduction leaves the request alone. A scope other than `.tr` is
waited for (R203), a vault-window address raises the vault access fault (R183), and what R215 refuses a tagged
one is not performed: the atomic ends in the memory-error trap when its result is due, the reduction sets
REFUSED. -/
def Obligations.AtomicsAndReductionsAreSent : Prop :=
  ∀ (f : LB) (s : State) (p : Piece),
    let va := lbEa f s.me
    let w := if f.q then 8 else 4
    let arg (r : BitVec 6) : Word :=
      if f.q then s.me.regs.sReg r else BitVec.ofNat 64 ((s.me.regs.sReg r).toNat % 2 ^ 32)
    let may (i : Instr) : Prop := AccessReady f.g i s ∧ inVault va = false ∧
      s.pieces .atomic s.me.level (splitLines va w) = .ok [p] ∧ va % w = 0 ∧ s.versionWanted [p] = none
    let waited : Prop := f.sc = 0 ∨ s.hub.fenceDone f.sc.toNat s.me = true
    let u := s.backOwn va p.pa
    let turned (i : Instr) : Prop :=
      (may i → f.sc ≠ 0 → s.hub.fenceDone f.sc.toNat s.me = false → exec i s = .next (s.stall false)) ∧
      (AccessReady f.g i s → inVault va = true → va % w = 0 → exec i s = s.vaultFault va)
    let free (s : State) : State :=
      s.modMe (fun h => { h.occupyLs 1 with lsu := { h.lsu with verWait := none } })
    let amo (i : Instr) (op : AmoOp) : Prop :=
      (may i → waited → s.tagRefused p.pa = false → ∃ t x, exec i s = .next t ∧ Untouched s t ∧
        t.me.spr = s.me.spr ∧ t.me.lsu.writes = u.me.lsu.writes ++ [x] ∧ x.pa = p.pa ∧
        x.kind = .amo op f.q (arg f.b) (arg f.d) u.me.iss.seq f.d ∧ x.hyp = s.me.spr.hyp.toNat ∧
        t.me.sched.pipe = s.me.sched.pipe ++
          [⟨u.me.iss.seq, 128, s.me.ctl.pc, 1, f.d.toNat, none⟩] ∧ t.me.iss.out = .ok) ∧
      (may i → waited → s.tagRefused p.pa = true →
        exec i s = .next ((free u).withResult 128 1 f.d.toNat [.memErr p.va 2])) ∧ turned i
    let red (i : Instr) (op : AmoOp) : Prop :=
      (may i → waited → s.tagRefused p.pa = false → ∃ t x, exec i s = .next t ∧ Untouched s t ∧
        t.me.spr = s.me.spr ∧ t.me.lsu.writes = u.me.lsu.writes ++ [x] ∧ x.pa = p.pa ∧
        x.kind = .red op f.q (arg f.b) ∧ x.hyp = s.me.spr.hyp.toNat ∧ t.me.sched = s.me.sched ∧
        t.me.iss.out = .ok) ∧
      (may i → waited → s.tagRefused p.pa = true →
        ∃ t, exec i s = .next t ∧ t.me.units.pending.getLsbD 1 = true ∧ t.me.iss.out = .ok ∧
          t.me.lsu.writes = u.me.lsu.writes ∧ t.me.sched = s.me.sched ∧ Untouched s t) ∧ turned i
    (s.hub.nonCoherent s.me p.pa = false → u = s) ∧
    (∃ ws, u.me.lsu.writes = s.me.lsu.writes ++ ws ∧
      ∀ x ∈ ws, x.isBack = true ∧ x.hyp = 0 ∧ x.pa = p.pa / 128 * 128) ∧
    amo (.amoAdd f) .add ∧ amo (.amoMin f) .min ∧ amo (.amoMax f) .max ∧ amo (.amoMinu f) .minu ∧
    amo (.amoMaxu f) .maxu ∧ amo (.amoAnd f) .and ∧ amo (.amoOr f) .or ∧ amo (.amoXor f) .xor ∧
    amo (.amoXchg f) .xchg ∧ amo (.amoCas f) .cas ∧
    red (.redAdd f) .add ∧ red (.redMin f) .min ∧ red (.redMax f) .max ∧ red (.redAnd f) .and ∧
    red (.redOr f) .or ∧ red (.redXor f) .xor

/-- R203, R204, R206, R235, R238: a fence whose waits are over takes the pending status and clears it, with LT
at the greatest stamp of an earlier store, and waits before; `mon.wait` issues at once where its first check
finds the condition, or once it has held, with LT at the time of the write; `flush.region` of no byte issues
at once, and one whose write-backs are stamped ends. -/
def Obligations.FencesMonitorsAndFlushes : Prop :=
  ∀ (f : LB) (s : State),
    (AccessReady f.g (.fenceScope f) s →
      (s.hub.fenceDone f.sc.toNat s.me = true ∨ s.me.units.pending.getLsbD 4 = true → ∃ t,
        exec (.fenceScope f) s = .next t ∧ t.me.units = { s.me.units with pending := 0 } ∧
        t.me.spr = { s.me.spr with lt := Nat.max s.me.spr.lt s.me.lsu.maxStamp } ∧
        t.me.sched.pipe = s.me.sched.pipe ++ [⟨s.me.iss.seq, 1, s.me.ctl.pc, 1, f.d.toNat,
          some [.s f.d (BitVec.ofNat 64 (s.me.units.pending.toNat % 32))]⟩] ∧
        t.me.regs = s.me.regs ∧ t.hub = s.hub ∧ t.ring = s.ring ∧ t.me.iss.out = .ok) ∧
      (s.hub.fenceDone f.sc.toNat s.me = false → s.me.units.pending.getLsbD 4 = false → ∃ t,
        exec (.fenceScope f) s = .next t ∧ t.me.iss.out = .stalled false ∧ Untouched s t ∧
        t.me.lsu.fenceSince.isSome = true)) ∧
    (AccessReady f.g (.monWait f) s → inVault (lbEa f s.me) = false →
      let va := lbEa f s.me
      let w := if f.q then 8 else 4
      (∀ p, s.me.lsu.mon = .none → s.pieces .monWait s.me.level (splitLines va w) = .ok [p] → va % w = 0 →
        let e := monEntry f va p.pa s.me
        s.hub.readFailure p.pa = 0 → (s.hub.loc p.pa).outside = none → s.hub.exclusive (lineOf p.pa) = none →
        s.hub.watchHolds e = true → ∃ t, exec (.monWait f) s = .next t ∧
          t.me.spr = { s.me.spr with lt := Nat.max s.me.spr.lt (s.hub.seenAt e.part e.node (locOf p.pa) w) } ∧
          t.me.lsu.mon = .none ∧ t.me.regs = s.me.regs ∧ t.me.sched = s.me.sched ∧ t.hub.mem = s.hub.mem ∧
          t.ring = s.ring ∧ t.me.iss.out = .ok) ∧
      (∀ w, s.me.lsu.mon = .satisfied w → ∃ t, exec (.monWait f) s = .next t ∧
        t.me.spr = { s.me.spr with lt := Nat.max s.me.spr.lt w } ∧ t.me.lsu.mon = .none ∧
        t.me.regs = s.me.regs ∧ t.me.sched = s.me.sched ∧ t.hub = s.hub ∧ t.ring = s.ring ∧
        t.me.iss.out = .ok) ∧
      (s.me.lsu.mon = .armed → ∃ t, exec (.monWait f) s = .next t ∧ t.me.iss.out = .stalled true ∧
        Untouched s t)) ∧
    (AccessReady f.g (.flushRegion f) s →
      (s.me.lsu.flush = none → s.me.regs.sReg f.b = 0 → s.backs f.sc.toNat = [] →
        exec (.flushRegion f) s = .next (s.modMe (fun h => (h.occupyLs 1).clearPix)).issuedBare) ∧
      (∀ ws, s.me.lsu.flush = some ws → (∀ e ∈ ws, s.unstamped e = false) → exec (.flushRegion f) s = .next
        (s.modMe (fun h => { (h.occupyLs 1).clearPix with lsu := { h.lsu with flush := none } })).issuedBare) ∧
      (∀ ws, s.me.lsu.flush = some ws → (∃ e ∈ ws, s.unstamped e = true) →
        exec (.flushRegion f) s = .next (s.stall false)))

/-! ### The vector and transfer slots -/

/-- R143, R144, R15, R72, R107, R111 to R115: an element-wise instruction gives every element of an active
lane its result, floating (each rounded once, after 4 cycles) or integer (wrapped, or saturated under `.sat`,
after 2) by type; inactive lanes keep their contents or, under `.z`, become zero. -/
def Obligations.VectorArithmeticComputes : Prop :=
  ∀ (f : VF) (s : State),
    let el (r : BitVec 6) (l : Nat) : Nat := s.me.vElem r.toNat f.width l
    let computes (i : Instr) (fl : FVal → FVal → FVal → FVal) (it : Int → Int → Int → Int) : Prop :=
      TreadReady f.g i s → ElementsTake i (if f.isFloat then 4 else 2) f f.width (fun l =>
        if f.isFloat then f.fmt.enc f.mode
          (fl (f.fmt.val (el f.a l)) (f.fmt.val (el f.b l)) (f.fmt.val (el f.c l)))
        else f.intRes (it (intElem f.u f.width (el f.a l)) (intElem f.u f.width (el f.b l))
          (intElem f.u f.width (el f.c l)))) s
    computes (.vadd f) (fun a b _ => FVal.add f.mode a b) (fun a b _ => a + b) ∧
    computes (.vsub f) (fun a b _ => FVal.add f.mode a b.negate) (fun a b _ => a - b) ∧
    computes (.vmul f) (fun a b _ => FVal.mul a b) (fun a b _ => a * b) ∧
    computes (.vfma f) (fun a b c => FVal.fma f.mode a b c) (fun a b c => a * b + c) ∧
    computes (.vmin f) (fun a b _ => FVal.minimum a b) (fun a b _ => min a b) ∧
    computes (.vmax f) (fun a b _ => FVal.maximum a b) (fun a b _ => max a b) ∧
    computes (.vabs f) (fun a _ _ => a.abs) (fun a _ _ => if a < 0 then -a else a) ∧
    computes (.vneg f) (fun a _ _ => a.negate) (fun a _ _ => -a)

/-- R145: the bitwise instructions work on whole 32-bit lanes, `vsel` chooses each active lane by its bit of mc,
and a shift by the width of the element or more gives 0, or under `vshr` copies of the sign. -/
def Obligations.VectorLogicAndShiftsCompute : Prop :=
  ∀ (f : VF) (s : State),
    let la (l : Nat) : BitVec 32 := s.me.vLane f.a.toNat l
    let lb (l : Nat) : BitVec 32 := s.me.vLane f.b.toNat l
    let ea (l : Nat) : Nat := s.me.vElem f.a.toNat f.width l
    let eb (l : Nat) : Nat := s.me.vElem f.b.toNat f.width l
    let bits (i : Instr) (op : Nat → BitVec 32) : Prop := TreadReady f.g i s →
      VectorTakes i 2 f.d (vecWords (s.me.vBase + 64 * f.d.toNat) (s.me.regs.mReg f.m) f.z op) s
    bits (.vand f) (fun l => la l &&& lb l) ∧ bits (.vor f) (fun l => la l ||| lb l) ∧
    bits (.vxor f) (fun l => la l ^^^ lb l) ∧ bits (.vnot f) (fun l => ~~~la l) ∧ bits (.vmov f) la ∧
    bits (.vsel f) (fun l =>
      if (s.me.regs.mReg (BitVec.ofNat 3 f.c.toNat)).getLsbD l then la l else lb l) ∧
    (TreadReady f.g (.vshl f) s → ElementsTake (.vshl f) 2 f f.width
      (fun l => if f.width ≤ eb l then 0 else ea l * 2 ^ eb l % 2 ^ f.width) s) ∧
    (TreadReady f.g (.vshr f) s → ElementsTake (.vshr f) 2 f f.width
      (fun l => wrapBits f.width (intElem f.u f.width (ea l) / (2 ^ (Nat.min (eb l) f.width) : Nat))) s)

/-- R15, R146, R153: a vector compare writes into md, after 2 cycles, the bits of the active lanes, each set
where the comparison holds for every element of the lane, and no other bit, or zeros there under `.z`; the
mask operations write whole masks after 1 cycle. Comparing with a NaN is false, but for `ne`. -/
def Obligations.MasksAreWritten : Prop :=
  ∀ (f : VF) (s : State),
    let m (x : BitVec 6) : Word := s.me.regs.mReg (BitVec.ofNat 3 x.toNat)
    let el (r : BitVec 6) (l : Nat) : Nat := s.me.vElem r.toNat f.width l
    let cmp (i : Instr) (fl : FVal → FVal → Bool) (it : Int → Int → Bool) : Prop := TreadReady f.g i s →
      let on (l : Nat) : Bool :=
        if f.isFloat then fl (f.fmt.val (el f.a l)) (f.fmt.val (el f.b l))
        else it (intElem f.u f.width (el f.a l)) (intElem f.u f.width (el f.b l))
      let act : Word := s.me.regs.mReg f.m
      ∃ v : Word, (∀ k, k < 64 → v.getLsbD k =
          (act.getLsbD k && (List.range (32 / f.width)).all (fun j => on (k * (32 / f.width) + j)))) ∧
        exec i s = .next (s.withResult 2 4 (f.d.toNat % 8)
          [.mBits (BitVec.ofNat 3 f.d.toNat) (if f.z then BitVec.allOnes 64 else act) v])
    let bits (i : Instr) (v : Word) : Prop := TreadReady f.g i s → MaskTakes i 1 f.d v s
    cmp (.vcmpEq f) fEq (fun a b => a == b) ∧ cmp (.vcmpNe f) (fun a b => !fEq a b) (fun a b => a != b) ∧
    cmp (.vcmpLt f) fLt (fun a b => a < b) ∧ cmp (.vcmpLe f) fLe (fun a b => a ≤ b) ∧
    bits (.mand f) (m f.a &&& m f.b) ∧ bits (.mor f) (m f.a ||| m f.b) ∧ bits (.mxor f) (m f.a ^^^ m f.b) ∧
    bits (.mandn f) (m f.a &&& ~~~m f.b) ∧ bits (.mnot f) (~~~m f.a)

/-- R147, R148, R149, R150: the functions give each active element its correctly rounded value after 12
cycles, the conversions convert N elements after 4 and clear those above them, and `vmovi` writes its constant
after 2. A group record whose scale is no positive or negative finite number quantises to the zero point. Where
`vdequant` multiplies the scale by an integer that is 0, it takes +0, which is the model's reading (log entry 108). -/
def Obligations.VectorFunctionsAndConversions : Prop :=
  ∀ (f : VF) (s : State),
    let el (w : Nat) (l : Nat) : Nat := s.me.vElem f.a.toNat w l
    let fn (i : Instr) (g : FVal → FVal) : Prop := TreadReady f.g i s → ElementsTake i 12 f f.width
      (fun l => f.fmt.enc f.mode (g (f.fmt.val (el f.width l)))) s
    let group (l : Nat) : FVal × Int := groupRec f.b.toNat (s.me.vLane f.c.toNat l).toNat
    fn (.vrcp f) FVal.rcp ∧ fn (.vrsqrt f) FVal.rsqrt ∧ fn (.vsqrt f) FVal.sqrt ∧ fn (.vexp2 f) FVal.exp2 ∧
    fn (.vlog2 f) FVal.log2 ∧ fn (.vtanh f) FVal.tanh ∧ fn (.vsin f) FVal.sinPi ∧ fn (.vcos f) FVal.cosPi ∧
    (TreadReady f.g (.vcvt f) s → ElementsTake (.vcvt f) 4 f (codeWidth f.b.toNat) (fun l =>
      if l < 2048 / Nat.max (codeWidth f.b.toNat) (codeWidth f.c.toNat) then
        codeEnc f.b.toNat f.mode (codeVal f.c.toNat (el (codeWidth f.c.toNat) l)) else 0) s) ∧
    (TreadReady f.g (.vquant f) s → ∃ g, ElementsTake (.vquant f) 4 f (codeWidth f.b.toNat) g s ∧
      (∀ l, 64 ≤ l → g l = 0) ∧
      (∀ l sg n d, l < 64 → (group l).1 = .fin sg n d → n ≠ 0 → (codeFmt f.b.toNat).isNone = true →
        g l = codeEnc f.b.toNat f.mode (FVal.add f.mode (FVal.div (fp32.val (el 32 l)) (group l).1)
          (.ofInt (group l).2))) ∧
      (∀ l sg n d, l < 64 → (group l).1 = .fin sg n d → n ≠ 0 → (codeFmt f.b.toNat).isNone = false →
        g l = codeEnc f.b.toNat f.mode (FVal.div (fp32.val (el 32 l)) (group l).1)) ∧
      (∀ l sg d, l < 64 → (group l).1 = .fin sg 0 d →
        g l = if (codeFmt f.b.toNat).isNone then wrapBits (codeWidth f.b.toNat) (group l).2 else 0) ∧
      (∀ l, l < 64 → (∀ sg n d, (group l).1 ≠ .fin sg n d) →
        g l = if (codeFmt f.b.toNat).isNone then wrapBits (codeWidth f.b.toNat) (group l).2 else 0)) ∧
    (TreadReady f.g (.vdequant f) s → ∃ g, ElementsTake (.vdequant f) 4 f 32 g s ∧
      (∀ l F, codeFmt f.b.toNat = some F →
        g l = fp32.enc f.mode (FVal.mul (group l).1 (F.val (el (codeWidth f.b.toNat) l)))) ∧
      (∀ l sg n d, codeFmt f.b.toNat = none → (group l).1 = .fin sg n d →
        g l = fp32.enc f.mode (FVal.mul (group l).1
          (.ofInt (signedOf (codeWidth f.b.toNat) (el (codeWidth f.b.toNat) l) - (group l).2)))) ∧
      (∀ l, codeFmt f.b.toNat = none → (∀ sg n d, (group l).1 ≠ .fin sg n d) →
        g l = fp32.enc f.mode .nan)) ∧
    (TreadReady f.g (.vmovi f) s → ElementsTake (.vmovi f) 2 f f.width (fun _ =>
      if f.isFloat then f.fmt.enc f.mode (.ofInt f.imm) else wrapBits f.width f.imm) s)

/-- R15, R151, R152: a reduction writes element 0 after 8 cycles and no other, or zeroes them under `.z`: an
integer sum is exact before it is wrapped or saturated, an integer minimum or maximum is that of the active
elements, and floating ones follow the fixed tree or the rule of `vmin` and `vmax`. `vperm` picks elements by
index modulo their number, and `vrot` turns the lanes. -/
def Obligations.VectorReductionsAndPermutations : Prop :=
  ∀ (f : VF) (s : State),
    let base := s.me.vBase + 64 * f.d.toNat
    let es := activeElems s.me f
    let ints := es.map (intElem f.u f.width)
    let red (i : Instr) (r : Nat) : Prop := TreadReady f.g i s →
      let v := BitVec.ofNat 32 (r % 2 ^ f.width)
      (f.z = true → VectorTakes i 8 f.d ((base, v) :: (List.range 63).map (fun l => (base + 1 + l, 0#32))) s) ∧
      (f.z = false → f.width = 32 → VectorTakes i 8 f.d [(base, v)] s) ∧
      (f.z = false → f.width ≠ 32 →
        (s.me.vecWriteBad f.d.toNat [base] = false → exec i s = .next (s.withResult 8 5 f.d.toNat
          [.bits (s.me.shadowed f.d.toNat) base (BitVec.ofNat 32 (2 ^ f.width - 1)) v])) ∧
        (s.me.vecWriteBad f.d.toNat [base] = true → exec i s = s.illegal 9))
    (f.isFloat = false → red (.vredAdd f) (f.intRes ints.sum)) ∧
    (f.isFloat = true → red (.vredAdd f) (f.fmt.enc .rne (f.fmt.val (treeSum
      (fun a b => f.fmt.enc f.mode (FVal.add f.mode (f.fmt.val a) (f.fmt.val b))) 9 es)))) ∧
    (∀ x xs, f.isFloat = false → ints = x :: xs →
      red (.vredMin f) (wrapBits f.width (xs.foldl min x)) ∧
      red (.vredMax f) (wrapBits f.width (xs.foldl max x))) ∧
    (f.isFloat = false → ints = [] → red (.vredMin f) (wrapBits f.width (intRange f.u f.width).2) ∧
      red (.vredMax f) (wrapBits f.width (intRange f.u f.width).1)) ∧
    (∀ x xs, f.isFloat = true → es.map f.fmt.val = x :: xs →
      red (.vredMin f) (f.fmt.enc .rne (xs.foldl FVal.minimum x)) ∧
      red (.vredMax f) (f.fmt.enc .rne (xs.foldl FVal.maximum x))) ∧
    (f.isFloat = true → es = [] → red (.vredMin f) (f.fmt.enc .rne (.inf false)) ∧
      red (.vredMax f) (f.fmt.enc .rne (.inf true))) ∧
    (TreadReady f.g (.vperm f) s → ElementsTake (.vperm f) 2 f f.width (fun l =>
      s.me.vElem f.a.toNat f.width (s.me.vElem f.b.toNat f.width l % (2048 / f.width))) s) ∧
    (TreadReady f.g (.vrot f) s → VectorTakes (.vrot f) 2 f.d (vecWords base (s.me.regs.mReg f.m) f.z
      (fun l => s.me.vLane f.a.toNat ((l + f.b.toNat) % 64))) s)

/-- R49, R154, R155, R156: the transfer slot moves a scalar into every element and a lane into a scalar after 3
cycles, answers questions about a mask after 2 cycles (1 in flags mode), and passes 256 bytes to the next rank,
which receives them after the rise, the oldest first; rank 0 receives zero and the last rank's value is discarded. -/
def Obligations.TransfersCrossBetweenFiles : Prop :=
  ∀ (f : XT) (s : State),
    let m (x : BitVec 6) : Word := s.me.regs.mReg (BitVec.ofNat 3 x.toNat)
    let lat := if wbits 0 0 s.me.spr.kcfg = 1 then 1 else 2
    let all (g : Nat → BitVec 32) : List (Nat × BitVec 32) :=
      vecWords (s.me.vBase + 64 * f.d.toNat) (BitVec.allOnes 64) false g
    let ready (i : Instr) : Prop := TreadReady f.gk.g i s
    (ready (.xBcast f) → VectorTakes (.xBcast f) 3 f.d
      (all (packLane (8 * 2 ^ (f.b.toNat % 4)) (fun _ => (s.me.srcA f.ua f.a).toNat))) s) ∧
    (∀ k, ready (.xFirst f) → (m f.b).getLsbD k = true → (∀ j, j < k → (m f.b).getLsbD j = false) →
      DestTakes (.xFirst f) 3 f.ud f.d ((s.me.vLane f.a.toNat k).zeroExtend 64) s) ∧
    (ready (.xFirst f) → m f.b = 0 → DestTakes (.xFirst f) 3 f.ud f.d 0 s) ∧
    (ready (.xLane f) →
      DestTakes (.xLane f) 3 f.ud f.d ((s.me.vLane f.a.toNat f.b.toNat).zeroExtend 64) s) ∧
    (ready (.xAny f) → PredicateTakes (.xAny f) lat f.d (m f.a != 0) s) ∧
    (ready (.xAll f) → PredicateTakes (.xAll f) lat f.d (m f.a == BitVec.allOnes 64) s) ∧
    (ready (.xNone f) → PredicateTakes (.xNone f) lat f.d (m f.a == 0) s) ∧
    (ready (.xCnt f) → DestTakes (.xCnt f) lat f.ud f.d
      (BitVec.ofNat 64 ((List.range 64).countP (fun k => (m f.a).getLsbD k))) s) ∧
    (∀ t, ready (.xPass f) → s.me.ctl.run = .attached → s.me.rank + 1 ≠ s.me.spr.flw.toNat % 32 →
      s.hart? s.me.nextRank = some t → t.live = true →
      (t.xCount < 4 → exec (.xPass f) s = .next (s.mapHart t.id (fun t =>
        t.push (1 + s.me.spr.rise.toNat % 16) 10 0
          (some [.xpass s.hub.clk ((List.range 64).map (fun l => s.me.vLane f.a.toNat l))]))).issuedBare) ∧
      (4 ≤ t.xCount → exec (.xPass f) s = s.illegal 9)) ∧
    (ready (.xPass f) → s.me.ctl.run = .attached → s.me.rank + 1 = s.me.spr.flw.toNat % 32 →
      exec (.xPass f) s = .next s.issuedBare) ∧
    (ready (.xRecv f) → s.me.ctl.run = .attached →
      (s.me.rank = 0 → VectorTakes (.xRecv f) 1 f.d (all (fun _ => 0#32)) s) ∧
      (s.me.rank ≠ 0 → s.me.units.xq = [] → exec (.xRecv f) s = s.illegal 9) ∧
      (∀ e r, s.me.rank ≠ 0 → s.me.units.xq = e :: r → s.me.vecWriteBad f.d.toNat
          ((all (fun l => e.2.getD l 0#32)).map (·.1)) = false →
        exec (.xRecv f) s = .next (State.withResult 1 5 f.d.toNat
          [.space (s.me.shadowed f.d.toNat) (all (fun l => e.2.getD l 0#32))]
          (s.modMe (fun h => { h with units := { h.units with xq := r } })))) ∧
      (∀ e r, s.me.rank ≠ 0 → s.me.units.xq = e :: r → s.me.vecWriteBad f.d.toNat
          ((all (fun l => e.2.getD l 0#32)).map (·.1)) = true → exec (.xRecv f) s = s.illegal 9)) ∧
    (ready (.xPass f) → s.me.ctl.run ≠ .attached → exec (.xPass f) s = s.illegal 9) ∧
    (ready (.xRecv f) → s.me.ctl.run ≠ .attached → exec (.xRecv f) s = s.illegal 9)

/-! ### The matrix and engine slots -/

/-- R157 to R171: `mma` and `mma.q` whose operands are in order occupy the unit and leave the accumulator's
result in flight: 32 and 40 cycles on a press tread, 256 and 264 on a Vat tread. The job takes the shape of
`MSH`, the A operand (the tile, or the latch, which is kept as asked) and the accumulator as they are at
issue, and the ranges of the vault that the map names. `mma.q` reads its two descriptors; that they act on LT and on
the protection of their lines as a load does (R121, R191) is log entry 19. State violations come before them (R373),
and an operation in order stalls while the unit is occupied or its wait is not met. -/
def Obligations.MultiplicationsIssue : Prop :=
  ∀ (f : MF) (s : State),
    let t0 (h : Hart) : Nat × Nat := if h.isVat then (256, 264) else (32, 40)
    let runs (i : Instr) (quant : Bool) (g : Nat) (s0 : State) : Prop := ∃ t j o, exec i s = .next t ∧
      MatrixIssued (t0 s.me).1 (t0 s.me).2 8 f.ac.toNat none s0 t ∧ t.me.sched.mx = some o ∧ o.job = some j ∧
      j.quant = quant ∧ j.grp = g ∧ (j.mm, j.nn, j.kk) = s.me.shape ∧ j.fmt = f.fmt.toNat ∧ j.ac = f.ac.toNat ∧
      j.c = (s.me.accKeys f.ac.toNat s.me.shape.1 s.me.shape.2.1).map s.me.chainVal ∧
      (f.ta ≠ 8#4 → j.a = (List.range 1024).map (fun q =>
        NMap.get 0#32 (s.me.tBase + 1024 * f.ta.toNat + q) s.me.regs.space)) ∧
      (f.ta = 8#4 → s.me.units.latch = some j.a) ∧
      (let om := s.me.omap f.om.toNat
       ∀ tg d, s.vaultTarget (om.base.toNat % 2 ^ 57) = some (tg, d) →
        j.loads = false ∧ j.base = apertureBase tg.place.chip tg.place.pos + om.base.toNat % 2 ^ 57 % 2 ^ 23 ∧
        j.stride = wbits 15 0 om.desc ∧ j.asAt = j.base + 128 * wbits 47 32 om.desc ∧
        j.bsAt = j.base + 128 * wbits 31 16 om.desc ∧ j.units = s0.snapshot j.base
          (mmaRanges j.fmt quant g j.mm j.nn j.kk j.stride (128 * wbits 47 32 om.desc) (128 * wbits 31 16 om.desc))) ∧
      t.me.units = { s.me.units with latch := if f.keep then some j.a else s.me.units.latch } ∧
      j.sig = sigOpt f.ws
    (MatrixReady (.mma f) f s → MultiplyReady false 0 f s → runs (.mma f) false 0 s) ∧
    (∀ ta na la tb nb lb, MatrixReady (.mmaQ f) f s → s.readTdt (s.me.regs.sReg f.a) = .ok ta na la →
      let s1 := s.sawTdt na la
      let s2 := s1.sawTdt nb lb
      s.recallOf la = none → s1.readTdt (s.me.regs.sReg f.b) = .ok tb nb lb → s1.recallOf lb = none → ta.fmt = (if f.fmt = 6#4 then 8 else 9) →
      tb.fmt = ta.fmt → tb.group = ta.group → MultiplyReady true ta.group f s2 →
      runs (.mmaQ f) true ta.group s2) ∧
    (∀ ta na la, MatrixReady (.mmaQ f) f s → mmaBad f s.me = false →
      s.readTdt (s.me.regs.sReg f.a) = .ok ta na la → s.recallOf la = none →
      ta.fmt ≠ (if f.fmt = 6#4 then 8 else 9) →
      exec (.mmaQ f) s = (s.sawTdt na la).descFault (s.me.regs.sReg f.a) 0) ∧
    (mmaBad f s.me = true ∨ (∃ sc, s.me.ctl.held = some sc ∧ sc.hasMx = true) →
      (TreadReady f.g (.mma f) s → exec (.mma f) s = s.illegal 9) ∧
      (TreadReady f.g (.mmaQ f) s → exec (.mmaQ f) s = s.illegal 9)) ∧
    (TreadReady f.g (.mma f) s → MultiplyReady false 0 f s →
      (∀ sc, s.me.ctl.held = some sc → sc.hasMx = false) →
      s.me.sched.mx.isSome = true ∨ waitHolds f.ws s.me = false → exec (.mma f) s = .next (s.stall false))

/-- R125, R126: `accumulate` is a NaN when a term or the old value is one or infinities of both signs meet,
the infinity when one sign of infinity occurs, and otherwise a zero that is negative only when every term and
the old value are negative zeros, or a value that R126 allows. The value chosen is free, but for the exact sum
where every partial sum is exact in FP32, and beyond the finite range an infinity has the sign of a partial
sum that overflows (log entry 13). -/
def Obligations.AccumulateFollowsSpecialValues : Prop :=
  ∀ (y : BitVec 32) (c : FVal) (ts xs : List FVal),
    let all := c :: ts
    let res := accumulate y c ts xs
    let finite := ∀ x ∈ all, ∃ sg n d, x = .fin sg n d
    let allowed := accAllowed all (c :: xs) (fp32.val y.toNat)
    ((∃ x ∈ all, x.isNan = true) → res = 0x7fc00000#32) ∧
    (.inf true ∈ all → .inf false ∈ all → res = 0x7fc00000#32) ∧
    (∀ b, (∀ x ∈ all, x.isNan = false) → .inf b ∈ all → .inf (!b) ∉ all →
      res = if b then 0xff800000#32 else 0x7f800000#32) ∧
    ((∀ x ∈ all, ∃ d, d ≠ 0 ∧ x = .fin true 0 d) → xs = ts → res = 0x80000000#32) ∧
    (finite → allowed = true → (fp32.val y.toNat).isZero = false → res = y) ∧
    (finite → allowed = true → (fp32.val y.toNat).isZero = true →
      (∃ x ∈ all, x.isZero = false ∨ x.neg? = false) → res = 0#32) ∧
    (finite → sumExact all = true → allowed = true → ∃ sg n d, fp32.val y.toNat = .fin sg n d ∧
      (FVal.dist (.fin sg n d) (FVal.sum all)).1 = 0) ∧
    (finite → sumExact all = true → allowed = false →
      let z := BitVec.ofNat 32 (fp32.enc .rne (FVal.sum all))
      (fp32.val z.toNat).isZero = false → res = z) ∧
    (∀ neg, fp32.val y.toNat = .inf neg → allowed = true →
      sumExact all = false ∧ mayOverflow neg (c :: xs) = true)

/-- R159, R165, R166, R169, R170: `acc.clr` zeroes the accumulator after 2 cycles, and an earlier operation that would
land later no more reaches it; `acc.ld` moves rows of a vault to the accumulator, `acc.st` its rows to a vault, each at
its own address and within the latency (when, is log entry 22); `acc.cvt` rounds it into tiles, `latch.rel` empties the
latch, and `om.set` sets an operand map whose fields are in order, or clears one. `acc.ld`, `acc.st` and `acc.cvt` take
longer on a Vat tread. -/
def Obligations.AccumulatorAndMapOperations : Prop :=
  ∀ (f : MF) (s : State),
    let time (p v : Nat × Nat) : Nat × Nat := if s.me.isVat then v else p
    let ac := f.ac.toNat
    let moved := time (32, 40) (64, 72)
    let conv := time (16, 20) (32, 36)
    let m := s.me.shape.1
    let n := s.me.shape.2.1
    let sa := s.me.regs.sReg f.a
    let sb := s.me.regs.sReg f.b
    let w := codeWidth (mxCode f.fmt.toNat)
    let elem (i j : Nat) : Nat := if i < m ∧ j < n then codeEnc (mxCode f.fmt.toNat) .rne
      (fp32.val (NMap.get 0#32 (s.me.aKey ac i j) s.me.regs.space).toNat) else 0
    let tiles := (List.range (128 / (512 / w))).flatMap (fun t => (List.range 64).flatMap (fun i =>
      (List.range 16).map (fun q => (s.me.tBase + 1024 * (f.ta.toNat + t) + 16 * i + q,
        packLane w (fun l => elem i (t * (512 / w) + l)) q))))
    let at_ (tg : Hart) : Nat := apertureBase tg.place.chip tg.place.pos + sa.toNat % 2 ^ 57 % 2 ^ 23
    let row (i : Nat) : List Byte := (List.range n).flatMap (fun j =>
      toBytes 4 (NMap.get 0#32 (s.me.aKey ac i j) s.me.regs.space).toNat)
    (MatrixReady (.accClr f) f s → (∀ k ∈ s.me.accKeys ac 64 128, s.me.shadowKey k = false) →
      let u := s.modMe (Hart.outlive 2 (fun k => s.me.aKey ac 0 0 ≤ k && k < s.me.aKey ac 0 0 + 8192))
      ∃ t, exec (.accClr f) s = .next t ∧ t.me.units = s.me.units ∧
        MatrixIssued 1 2 8 ac (some (.space false ((s.me.accKeys ac 64 128).map (fun k => (k, 0#32))) ::
          sigEffs f.ws)) u t) ∧
    (MatrixReady (.accLd f) f s → AccumulatorRowsReady f s → (∀ k ∈ s.me.accKeys ac m n, s.me.shadowKey k = false) →
      ∃ t o j, exec (.accLd f) s = .next t ∧ t.me.units = s.me.units ∧
        MatrixIssued moved.1 moved.2 8 ac none s t ∧ t.me.sched.mx = some o ∧ o.job = some j ∧
        j.loads = true ∧ j.ac = ac ∧ j.mm = m ∧ j.nn = n ∧ j.stride = sb.toNat ∧ j.sig = sigOpt f.ws ∧
        ∀ tg d, s.vaultTarget (sa.toNat % 2 ^ 57) = some (tg, d) →
          j.base = at_ tg ∧ j.units = s.snapshot j.base (accRows sb.toNat m n)) ∧
    (MatrixReady (.accSt f) f s → AccumulatorRowsReady f s →
      ∃ t main rows, exec (.accSt f) s = .next t ∧ t.me.units = s.me.units ∧
        MatrixIssued moved.1 moved.2 8 ac (some (sigEffs f.ws)) s t ∧
        t.me.sched.pipe = s.me.sched.pipe ++ main :: rows ∧ rows.length = m ∧
        ∀ tg d, s.vaultTarget (sa.toNat % 2 ^ 57) = some (tg, d) → ∀ i, i < m → ∃ p q, rows[i]? = some p ∧
          0 < p.left ∧ p.left ≤ moved.2 ∧ s.me.iss.seq < q ∧
          p.effs = some [.vault q ((at_ tg + i * sb.toNat) % 2 ^ 57) (row i)]) ∧
    (MatrixReady (.accCvt f) f s → m ≤ 64 → n ≤ 128 → (∀ e ∈ tiles, s.me.shadowKey e.1 = false) →
      ∃ t, exec (.accCvt f) s = .next t ∧ t.me.units = s.me.units ∧
        MatrixIssued conv.1 conv.2 6 f.ta.toNat (some (.space false tiles :: sigEffs f.ws)) s t) ∧
    (MatrixReady (.latchRel f) f s → ∃ t, exec (.latchRel f) s = .next t ∧
      t.me.units = { s.me.units with latch := none } ∧ MatrixIssued 1 1 8 0 (some (sigEffs f.ws)) s t) ∧
    (MatrixReady (.omSet f) f s → (sb.getLsbD 63 = false ∨
        wbits 62 48 sb = 0 ∧ wbits 15 0 sb % 64 = 0 ∧ inVault (sa.toNat % 2 ^ 57) = true ∧
        sa.toNat % 2 ^ 57 % 64 = 0 ∧ ∃ t d, s.vaultTarget (sa.toNat % 2 ^ 57) = some (t, d) ∧
          sa.toNat % 2 ^ 57 % 2 ^ 23 < vaultSize t.place.chip) →
      ∃ t, exec (.omSet f) s = .next t ∧ MatrixIssued 1 1 8 0 (some (sigEffs f.ws)) s t ∧
        t.me.units = { s.me.units with
          om := NMap.put { base := 0, desc := 0 } f.om.toNat { base := sa, desc := sb } s.me.units.om })

/-- R239 to R244, R248, R16: a copy, a tile copy, an index gather or a network operation whose ranges
translate is accepted, with its promise; a network operation under a hypothesis, or on a connection that does
not carry it, fails at acceptance. Each operand lies wholly in the class of its form, by its first and last
bytes. That the descriptor read of copy.tile raises the lease time and protects its lines, as a load does
(R121, R191), is log entry 19. With 1,024 operations in flight, or with its wait unsatisfied, each stalls. -/
def Obligations.EngineOperationsAreAccepted : Prop :=
  ∀ (f : EF) (s : State),
    let a := s.me.addrReg f.a
    let b := s.me.addrReg f.b
    let c := s.me.regs.sReg f.c
    let checked (ws rs : List (Nat × Nat)) : Prop :=
      let far (l : List (Nat × Nat)) := l.filter (fun r => !s.vaultByteOk r.1)
      (∃ ps, s.pieces .engWrite s.me.level (far ws) = .ok ps) ∧
      ∃ ps, s.pieces .engRead s.me.level (far rs) = .ok ps
    let goes (i : Instr) (done : Prop) : Prop :=
      (waitHolds f.ws s.me = true → s.me.engFull = false → done) ∧
      (waitHolds f.ws s.me = false ∨ s.me.engFull = true → exec i s = .next (s.stall false))
    let copy (i : Instr) (dv sv : Bool) : Prop := TreadReady f.g i s → c.toNat < 2 ^ 32 →
      classBad dv a c.toNat = false → classBad sv b c.toNat = false →
      checked (ends a c.toNat) (ends b c.toNat) →
      goes i (∃ t, exec i s = .next t ∧ t.me.spr = s.me.spr ∧
        Accepted f .copy a b c.toNat c.toNat false false s t)
    let net (i : Instr) (put : Bool) : Prop := TreadReady f.g i s → c.toNat ≤ 2 ^ 31 →
      checked (if put then [] else ends a c.toNat) (if put then ends a c.toNat else []) →
      let fails := s.me.spr.hyp ≠ 0 || !s.hub.connOk s.me.partNo f.q.toNat
      let rem := (s.me.regs.sReg f.b).toNat
      let later := s.netWaits (some f.q.toNat) s.free
      goes i (∃ t, exec i s = .next t ∧ t.me.spr = s.me.spr ∧
        (put = true → Accepted f (.netPut f.q.toNat) rem a c.toNat c.toNat fails later s t) ∧
        (put = false → Accepted f (.netGet f.q.toNat) a rem c.toNat c.toNat fails later s t))
    copy (.copyGv f) true false ∧ copy (.copyVg f) false true ∧ copy (.copyVv f) true true ∧
    copy (.copyGg f) false false ∧ net (.netPut f) true ∧ net (.netGet f) false ∧
    (∀ d n line, TreadReady f.g (.copyTile f) s → classBad true a 4096 = false → a % 64 = 0 →
      s.readTdt (s.me.regs.sReg f.b) = .ok d n line → s.recallOf line = none →
      (d.width = 4 → tileCoord c 0 % 2 = 0) →
      checked (if f.q.getLsbD 0 then [] else ends a 4096) (if f.q.getLsbD 0 then ends a 4096 else []) →
      goes (.copyTile f) (∃ t, exec (.copyTile f) s = .next t ∧
        t.me.spr = { s.me.spr with lt := Nat.max s.me.spr.lt n } ∧
        Accepted f (if f.q.getLsbD 0 then .tileSt d.bits c else .tileLd d.bits c) a 0 4096 4096 false false
          (s.sawTdt n line) t)) ∧
    (TreadReady f.g (.copyIdx f) s → c.toNat ≤ 65536 →
      classBad true a (c.toNat * 2 ^ (f.q.toNat + 2)) = false → b % 8 = 0 →
      checked (ends a (c.toNat * 2 ^ (f.q.toNat + 2))) (ends b (8 * c.toNat)) →
      goes (.copyIdx f) (∃ t, exec (.copyIdx f) s = .next t ∧ t.me.spr = s.me.spr ∧
        Accepted f (.idx (2 ^ (f.q.toNat + 2))) a b c.toNat (c.toNat * 2 ^ (f.q.toNat + 2)) false false s t))

/-- R85, R245, R246: `sem.add`, `sem.sub` and `sem.set` change a semaphore of the tread in the same cycle; of the
changes of one cycle a set comes first, the tread's own latest or one from outside, then every sum and difference, and
the result is clamped to 0 to 65,535. The form that names another tread of the gang sends the change
there, and a selector outside the gang raises the vault access fault. -/
def Obligations.SemaphoresChange : Prop :=
  ∀ (f : EF) (s : State),
    let idx := f.b.toNat + 64 * (f.c.toNat % 4)
    let v := (s.me.regs.sReg f.a).toNat
    let sel := s.me.regs.sReg f.d
    let same := wbits 6 4 sel = wbits 2 0 s.me.spr.gang ∧ wbits 3 0 sel = s.me.rank
    let changes (i : Instr) (op : Nat) : Prop := EngineReady i f s →
      let here := ∃ t l, exec i s = .next t ∧ Untouched s t ∧ t.me.spr = s.me.spr ∧ t.me.sched = s.me.sched ∧
        t.me.iss.out = .ok ∧
        t.me.units = { s.me.units with semIn := s.me.units.semIn ++
          { n := idx, op := op, v := v, seq := s.me.iss.seq, outside := false } :: l } ∧
        l = (if f.ws.sinc = 0#4 then [] else
          [{ n := f.ws.sidx.toNat, op := 0, v := f.ws.sinc.toNat, seq := s.me.iss.seq, outside := false }])
      (f.q.getLsbD 0 = false → here) ∧
      (f.q.getLsbD 0 = true → wbits 63 7 sel = 0 → s.me.selectorOk (wbits 6 4 sel) (wbits 3 0 sel) = true →
        (same → here) ∧
        (∀ l w r, ¬same → s.me.id = .tread l w r → ∃ t u, exec i s = .next t ∧ Untouched s t ∧
          t.me.spr = s.me.spr ∧ t.me.units.semOut = s.me.units.semOut ++ [u] ∧
          u.target = .tread l (w - wbits 2 0 s.me.spr.gang + wbits 6 4 sel) (wbits 3 0 sel) ∧ u.n = idx ∧
          u.op = op ∧ u.v = v ∧ t.me.iss.out = .ok)) ∧
      (f.q.getLsbD 0 = true → wbits 63 7 sel ≠ 0 ∨ s.me.selectorOk (wbits 6 4 sel) (wbits 3 0 sel) = false →
        exec i s = s.vaultFault sel.toNat)
    changes (.semAdd f) 0 ∧ changes (.semSub f) 1 ∧ changes (.semSet f) 2 ∧
    (∀ (old : Nat) (us : List SemUpd),
      let of (op : Nat) : Nat := ((us.filter (fun u => u.op = op)).map (·.v)).sum
      let after (base : Nat) : Nat := (max 0 (min 65535 ((base : Int) + of 0 - of 1))).toNat
      ((∀ u ∈ us, u.op ≠ 2) → semApply old us = after old) ∧
      (∀ a u b, us = a ++ u :: b → u.op = 2 → (∀ x ∈ us, x.op = 2 → x.outside = false) →
        (∀ x ∈ b, x.op ≠ 2) → semApply old us = after u.v) ∧
      ((∃ u ∈ us, u.op = 2 ∧ u.outside = true) →
        ∃ u ∈ us, u.op = 2 ∧ u.outside = true ∧ semApply old us = after u.v))

/-- R207, R242, R247: `copy.check` answers after 3 cycles: 0, and then LT follows the stamps of the
operations, when every operation promised by the time has succeeded, 1 when all have ended and one has failed,
and otherwise a new promise, a later time. `sig.wr` sends an atomic write of a signal word to its home: it
sets the word or subtracts, and carries the slot's signal; under a hypothesis it is refused, and in the vault
window it faults. -/
def Obligations.CopyChecksAndSignalWrites : Prop :=
  ∀ (f : EF) (s : State),
    let ops := s.me.units.eng.filter (fun o => o.promise ≤ (s.me.regs.sReg f.a).toNat)
    let answers (v : Word) (e : List Eff) : Prop :=
      exec (.copyCheck f) s = .next (s.withResult 3 1 f.d.toNat (.s f.d v :: (e ++ sigEffs f.ws)))
    let va := s.me.addrReg f.a
    (EngineReady (.copyCheck f) f s →
      ((∀ o ∈ ops, o.stat = .done) → answers 0 [.seen (s.me.regs.sReg f.a).toNat]) ∧
      ((∀ o ∈ ops, o.stat = .done ∨ o.stat = .failed) → (∃ o ∈ ops, o.stat = .failed) → answers 1 []) ∧
      ((∃ o ∈ ops, o.unfinished = true) → ∃ n, s.hub.clk < n ∧ exec (.copyCheck f) s = .next
        (State.withResult 3 1 f.d.toNat (.s f.d (BitVec.ofNat 64 n) :: sigEffs f.ws)
          { s with free := s.free + 1 }))) ∧
    (EngineReady (.sigWr f) f s →
      (∀ p, inVault va = false → s.pieces .atomic s.me.level [(va, 8)] = .ok [p] → va % 8 = 0 →
        (s.me.spr.hyp ≠ 0 → ∃ t, exec (.sigWr f) s = .next t ∧ Untouched s t ∧ t.me.lsu = s.me.lsu ∧
          t.me.units.pending.getLsbD 1 = true ∧ t.me.iss.out = .ok) ∧
        (s.me.spr.hyp = 0 → ∃ t x, exec (.sigWr f) s = .next t ∧ Untouched s t ∧ t.me.iss.out = .ok ∧
          t.me.lsu.writes = s.me.lsu.writes ++ [x] ∧ x.pa = p.pa ∧ x.va = va ∧
          x.kind = .signal (f.q.getLsbD 0) (s.me.regs.sReg f.b) (sigOpt f.ws))) ∧
      (inVault va = true → va % 8 = 0 → exec (.sigWr f) s = s.vaultFault va))

/-! ### Events of the package

An event is what the package does beside the bundles; step raises it when it is due. Where its condition does not
hold it changes nothing. -/

/-- R11, R50, R55, R66, R156, R161, R166, R169, R206, R246, R296, R300, R339, R349: what ends the waits of a hart,
wherever the hart stands: due results of every kind and passed vectors land, the matrix unit is freed and the result of
its operation is known, a hart freezes while a due result or a translation is absent, the hub counts an arrival, a
flight whose ranks have met resumes attached at `MEET`, and `TIMER` is pending once `CLK` has reached `TCMP`. -/
def Obligations.HartWaitsEnd : Prop :=
  ∀ (s u : State) (h : HartId), s.focus h = some u →
    let me := u.me
    let pipe := me.sched.pipe
    let with_ (x : Hart) : Host.Outcome State Fault Refusal := .next { u with me := x }
    let absent := me.lsu.want.isSome = true ∨ me.isCore = false ∧ ∃ p ∈ pipe, p.left = 0 ∧ p.effs = none
    (∀ q pc k r e, pipe = [⟨q, 0, pc, k, r, some [e]⟩] → ∃ t, exec (.exposedResultLands h) s = .next t ∧
      Lands e u t ∧ t.me.sched = { me.sched with pipe := [] } ∧ t.ring = u.ring) ∧
    (∀ q pc k r n ls, pipe = [⟨q, 0, pc, k, r, some [.xpass n ls]⟩] → ∃ t, exec (.xPassEntryArrives h) s = .next t ∧
      Lands (.xpass n ls) u t ∧ t.me.sched = { me.sched with pipe := [] } ∧ t.ring = u.ring) ∧
    (let freed (o : MxOp) (x : Hart) : Prop :=
      x.sched.mx = none ∧ x.sched.tails = me.sched.liveTails ++ [(o.seq, o.done)] ∧
      x.units = { me.units with latch := if o.release then none else me.units.latch } ∧ x.regs = me.regs ∧
      x.spr = me.spr
     (∀ o, me.sched.mx = some o → o.left = 0 → o.job = none → ∃ t, exec (.mxOccupancyEnd h) s = .next t ∧
      freed o t.me ∧ t.me.sched.pipe = pipe ∧ t.ring = u.ring ∧ t.hub = u.hub) ∧
     (∀ o j, me.sched.mx = some o → o.left = 0 → o.job = some j → ∃ t ws, exec (.mxOccupancyEnd h) s = .next t ∧
      freed o t.me ∧ JobResult u j ws ∧
      t.me.sched.pipe = pipe.map (fun p => if p.seq = j.seq ∧ p.effs.isNone then
        { p with effs := some (Eff.space false ws :: (j.sig.map (fun g => Eff.sem g.1 g.2)).toList) } else p) ∧
      t.ring = u.ring ∧ t.hub = u.hub)) ∧
    (absent → exec (.freeze h) s = with_ { me with ctl := { me.ctl with frozen := true } } ∧
      exec (.freezeEnd h) s = .next u) ∧
    (¬absent → exec (.freezeEnd h) s = with_ { me with ctl := { me.ctl with frozen := false } } ∧
      exec (.freeze h) s = .next u) ∧
    (∀ w, me.lsu.want = some w → w.tick ≤ u.hub.clk → ∃ t, exec (.translationWalk h w.va w.acc) s = .next t ∧
      t.hub = u.hub ∧ t.ring = u.ring ∧
      (∀ x, u.hub.resolve u.free (Config.freeBool u.free) w = .ok x →
        t.me = { me with lsu := { me.lsu with tlb := x :: me.lsu.tlb, want := none, fault := none } }) ∧
      (∀ x, u.hub.resolve u.free (Config.freeBool u.free) w = .error x →
        t.me = { me with lsu := { me.lsu with want := none, fault := some (w, x) } })) ∧
    (∀ t0, me.lsu.fenceSince = some t0 →
      (t0 + 4194304 ≤ u.hub.clk → exec (.fenceTimeout h) s =
        with_ { me with units := { me.units with pending := me.units.pending ||| 16 } }) ∧
      (u.hub.clk < t0 + 4194304 → exec (.fenceTimeout h) s = .next u)) ∧
    (∀ x, me.units.semOut = [x] → x.tick = 0 → me.lsu.vstores = [] → ∃ t, exec (.semGgLands h) s = .next t ∧
      t.hub = u.hub ∧ t.harts = ({ me with units := { me.units with semOut := [] } } :: u.ring).map (fun y =>
        if y.id = x.target ∧ y.live = true then { y with units := { y.units with semIn := y.units.semIn ++
          [{ n := x.n, op := x.op, v := x.v, seq := y.iss.seq, outside := true }] } } else y)) ∧
    (∀ a l, me.units.arrivals = a :: l → u.hub.doneBefore a.afterSeq me = true →
      ∃ t, exec (.groupArrival h a.group) s = .next t ∧ t.me.units.arrivals = l ∧ t.me.regs = me.regs ∧
        t.ring = u.ring ∧ t.hub = { u.hub with launches := u.hub.launches.map (fun x =>
          if x.id = me.launchNo then x.setGroup a.group (Group.take me.spr.storeTime a.contrib) else x) }) ∧
    (∀ n, exec (.timerExpiry n) s = .next (s.mapHart (.core n) (fun x => { x with spr := { x.spr with
      evpend := setBits 0 0 (if x.spr.tcmp.toNat ≤ s.hub.clk then 1 else 0) x.spr.evpend } }))) ∧
    (∀ l w,
      let ofFlight (x : Hart) : Prop := ∃ r, x.id = .tread l w r
      (∀ x ∈ s.harts, ofFlight x → x.ctl.run = .atMeet ∨ x.ctl.run = .retired) →
      (∃ x ∈ s.harts, ofFlight x ∧ x.ctl.run = .atMeet) →
      ∃ t, exec (.flightResumeAtMeet l w) s = .next t ∧ t.hub = s.hub ∧
        t.harts.map (·.id) = s.harts.map (·.id) ∧ t.harts.map (·.regs) = s.harts.map (·.regs) ∧
        (∀ x ∈ t.harts, ofFlight x → x.ctl.run = .retired ∨
          x.ctl.run = .attached ∧ x.ctl.pc = x.spr.meet.truncate 57) ∧
        (∀ x ∈ s.harts, ¬ofFlight x → x ∈ t.harts))

/-- R16, R219, R221, R241, R290, R339, R371 to R373, R378, R381, R384, R392, R397: the conditions latched for
a bundle boundary trap there with their code, their number and their address, at the level the spec gives
each, and are cleared, of several memory errors the first; a hypothesis-lost trap branches to the handler pushed for
the node at the same level, and an attached tread becomes an orphan. That a stage-1 fault is taken at M by a hart that
is at M is log entry 110. -/
def Obligations.BoundaryConditionsTrap : Prop :=
  ∀ (s u : State) (h : HartId), s.focus h = some u →
    let me := u.me
    let enters (x : State) (code info addr lvl : Nat) (i : Instr) : Prop := ∃ c, exec i s = .next (x.takeTrap
      { cls := c, code := code, info := info, slot := none, tpc := me.ctl.pc, taddr := addr, lvl := lvl })
    let latch (l : Latched) : State := { u with me := { me with latched := l } }
    let toSM := if me.level = 2 then 2 else 1
    (∀ c n, enters (latch { me.latched with stateErr := none }) 0x11 c n 2 (.treadStateError h c n)) ∧
    (∀ a n r, me.latched.memErr = (a, n) :: r →
      enters (latch { me.latched with memErr := r }) 0x0b n a toSM (.memoryError h)) ∧
    (∀ p ps, me.latched.missed = p :: ps → ∃ n a, enters (latch { me.latched with missed := [] }) 0x0e n a toSM
        (.missedPromise h) ∧ n = Nat.min (ps.length + 1) 65535 ∧ a ∈ p :: ps ∧ ∀ q ∈ p :: ps, a ≤ q) ∧
    (me.latched.dbgStep = true → enters (latch { me.latched with dbgStep := false }) 0x06 0 0
      (if me.spr.dbg.getLsbD 2 then 2 else toSM) (.debugStep h)) ∧
    (∀ o va x acc, me.units.eng = [o] → o.stat = .suspended va x acc false → me.level ≤ 2 →
      ∃ t c, exec (.engineTranslationFault h o.id) s = .next t ∧
        t.me.units.eng = [{ o with stat := .suspended va x acc true }] ∧ t.me.spr.xflt = xfltWord x acc ∧
        t.me.spr.taddr = BitVec.ofNat 64 va ∧ t.me.level = Nat.max me.level (if x.stage = 1 then 1 else 2) ∧
        t.me.spr.tcause = causeWord
          { cls := c, code := 0x0d, info := 0, slot := none, tpc := me.ctl.pc, taddr := va, lvl := t.me.level }
          (me.level = 0 && !me.isCore) ∧
        t.me.regs = me.regs ∧ t.ring = u.ring) ∧
    (∀ n va, me.lsu.verWait = some (n, va) → 4096 ≤ n → ∃ c, exec (.hypothesisFull h) s = .next (u.takeTrap
      { cls := c, code := 0x10, info := 0, slot := some .ls, tpc := me.ctl.pc, taddr := va, lvl := toSM })) ∧
    (∀ n b lvl, h = .core n → me.coreEventOf u.hub.clk = some (b, lvl) →
      enters u 0x12 b 0 lvl (.coreEvent n) ∧ (evpend u.hub.clk me).getLsbD b = true ∧
      me.spr.even.getLsbD b = true ∧ lvl = (if me.spr.evlvl.getLsbD b then 2 else 1) ∧ (me.level ≤ 2 → me.level ≤ lvl)) ∧
    (me.ctl.run ≠ .retired → exec (.missedPromiseLatch h) s = .next { u with me := { me with
      latched := { me.latched with missed := me.latched.missed ++
        (me.units.eng.filter (EngOp.missed u.hub.clk)).map (·.promise) },
      units := { me.units with eng := me.units.eng.map (fun o =>
        if o.missed u.hub.clk then { o with latched := true } else o) } } }) ∧
    (∀ n d p a below, me.latched.hypLost = some (n, d, p) → me.level = 0 →
      popTo n me.units.hstack = some (a, below) → ∃ t, exec (.hypothesisLost h) s = .next t ∧
        t.me.ctl.pc = a ∧ t.me.level = 0 ∧ t.me.spr.tpc.toNat = me.ctl.pc.toNat ∧ t.me.spr.taddr = 0 ∧
        wbits 7 0 t.me.spr.tcause = 0x0f ∧ wbits 23 8 t.me.spr.tcause = n % 65536 ∧
        t.me.spr.hyp = BitVec.ofNat 64 ((below.head?.map (·.1)).getD 0) ∧ t.me.units.hstack = below ∧
        t.me.latched.hypLost = none ∧ t.me.regs = me.regs ∧ t.me.sched.pipe = me.sched.pipe ∧
        (me.ctl.run = .attached → t.me.ctl.run = .orphan) ∧ (me.ctl.run = .detached → t.me.ctl.run = .detached) ∧
        t.ring = u.ring ∧ t.hub.mem = u.hub.mem)

/-- R185, R187, R190, R191, R201, R232, R235, R355: at its home a store takes a time later than every time of
its line and not before the floor of the hart, and its bytes are in memory; an atomic stores the new value and
answers with the old one, and one that fails as `cas` does writes no byte; a load raises LT to the greatest
time it shows and gets its value; a direct store and a write of an aperture reach their bank, a store of a whole
128-byte unit clears its poison and another that meets poison sets POISON (R396). A watch entry whose condition has
held is freed, and a `tlbinv` first empties the caches, the package's own and, which is log entry 61, every fetched
line, and then ends. -/
def Obligations.AccessesReachHome : Prop :=
  ∀ (s u : State) (h : HartId), s.focus h = some u →
    let me := u.me
    let line (pa : Nat) : Nat := lineOf pa
    let alone (w : Write) : Prop := w.tick ≤ u.hub.clk ∧ w.hyp = 0 ∧ u.hub.loc w.pa = .hbm ∧ me.isCore = false ∧
      u.hub.vaultLine (line w.pa) = false ∧ u.hub.exclusive (line w.pa) = none ∧
      (u.hub.lineMeta (line w.pa)).dir = 0 ∧ me.units.eng = [] ∧ NMap.wf LineMeta.zero u.hub.lines = true
    let stamped (w : Write) (bs : List (Nat × Byte)) (t : State) : Prop := ∃ time,
      me.floor ≤ time ∧ (u.hub.lineMeta (line w.pa)).wts < time ∧ (u.hub.lineMeta (line w.pa)).rts < time ∧
      t.me.spr.storeTime = time ∧ time ≤ t.me.lsu.maxStamp ∧
      (∃ m, (∀ j, t.hub.lineMeta j = if j = line w.pa then m else u.hub.lineMeta j) ∧ m.wts = time ∧ m.rts = time ∧
        m.dir = 0) ∧
      t.hub.mem = NMap.putAll 0#8 (bs.map (fun e => (line w.pa * 128 + e.1, e.2))) u.hub.mem ∧
      t.me.lsu.writes = me.lsu.writes.filter (fun x => x.seq ≠ w.seq) ∧ t.me.regs = me.regs ∧ t.ring = u.ring
    (∀ w, me.headWrite = some w → w.isStore = true → alone w →
      ∃ t, exec (.writeStamp h) s = .next t ∧ stamped w w.cells t) ∧
    (∀ w op d v c q r, me.readySignal = none → me.headWrite = some w → w.kind = .amo op d v c q r → alone w →
      u.hub.poisoned w.pa = false →
      let n := if d then 8 else 4
      let old := u.hub.valueAt w.part 0 w.pa n
      let cells := (toBytes n (amoApply op (8 * n) old (v.toNat % 2 ^ (8 * n)) (c.toNat % 2 ^ (8 * n)))).mapIdx
        (fun k b => (w.pa % 128 + k, b))
      ∃ t time, exec (.atomicAtHome h) s = .next t ∧ t.me.spr.storeTime = time ∧
        stamped w (if op = .cas ∧ old ≠ c.toNat % 2 ^ (8 * n) then [] else cells) t ∧
        t.me.sched = { me.sched with pipe := me.sched.pipe.map (fun p =>
          if p.seq = q ∧ p.effs.isNone then
            { p with effs := some [.s r (amoResult op (8 * n) old), .lt time] } else p) }) ∧
    (∀ a, me.headAsk = some a → a.tick ≤ u.hub.clk → a.answered = true → u.coreFills a = none →
      let v := (u.maybeEvict a).modMe (Hart.raiseLt (me.amoTime a.seq))
      v.askFailure a = none → (∀ p ∈ v.misses a, v.hub.exclusive (lineOf p.pa) = none) →
      (∀ p ∈ a.pieces, p.direct = false → me.blocked a.seq (lineOf p.pa) = false ∧ v.regPending a p = false) →
      ∀ l, (∃ p ∈ a.pieces, lineOf p.pa = l) → ∃ t, exec (.leaseFill h l) s = .next t ∧
        t.me.spr = { me.spr with lt := a.pieces.foldl (fun x p => Nat.max x (v.pieceTime a p)) v.me.spr.lt } ∧
        t.me.lsu.asks = me.lsu.asks.filter (fun x => x.seq ≠ a.seq) ∧
        t.me.sched = { me.sched with pipe := me.sched.pipe.map (fun p => if p.seq = a.seq ∧ p.effs.isNone then
          { p with effs := some (loadEffs a.dest (v.allBytes a a.pieces a.tags)) } else p) } ∧
        t.me.regs = me.regs ∧ t.hub.mem = u.hub.mem ∧ t.ring = u.ring) ∧
    (∀ v r, me.lsu.vstores = v :: r → v.tick ≤ u.hub.clk → ∃ t, exec (.vaultStoreLands h) s = .next t ∧
      t.hub.mem = putBytes v.pa v.bytes u.hub.mem ∧ t.ring = u.ring ∧
      t.me = { (if v.whole = false ∧ u.hub.vaultHit v.pa v.bytes.length = true then me.setPending 2 else me) with
        lsu := { me.lsu with vstores := r } } ∧
      (NMap.wf LineMeta.zero u.hub.lines = true → v.whole = true → (v.pa + v.bytes.length) % 128 = 0 →
        (t.hub.lineMeta (v.pa / 128)).poison = false)) ∧
    (∀ d, me.lsu.vstores = [] → u.hub.headDelivery h = some d → d.tick ≤ u.hub.clk →
      ∃ t, exec (.vaultStoreLands h) s = .next t ∧ t.hub.mem = NMap.putAll 0#8 d.cells u.hub.mem ∧
        t.hub.deliveries = u.hub.deliveries.erase d ∧ t.me = me ∧ t.ring = u.ring) ∧
    (∀ w t0, s.hub.watches = [w] → w.who = Waiter.hart h → w.hit = some t0 →
      exec (.watchTrigger h) s = .next (State.mapId h (fun x => { x with lsu := { x.lsu with
        mon := .satisfied t0 } }) { s with hub := { s.hub with watches := [] } })) ∧
    (∀ t0 w, me.lsu.mon = .recheck t0 w → t0 ≤ s.hub.clk → exec (.monWaitRecheck me.id) u =
      .next ((u.monCheck me.spr.lt w).2.mapId me.id (fun x =>
        { x with lsu := { x.lsu with mon := (u.monCheck me.spr.lt w).1 } }))) ∧
    (∀ v, s.hub.tlbinvs = [v] → v.tick ≤ s.hub.clk →
      (v.marks = none → ∃ t, exec (.tlbinvComplete v.id) s = .next t ∧ t.me.regs = s.me.regs ∧
        (∀ x ∈ t.harts, ∀ e ∈ x.lsu.tlb, v.covers e = false) ∧ (∀ x ∈ t.harts, x.ctl.line = none) ∧
        ∀ l ∈ t.hub.caches, ∀ e ∈ l, v.covers e = false) ∧
      (v.marks = some [] → ∃ t, exec (.tlbinvComplete v.id) s = .next t ∧ t.hub.tlbinvs = [] ∧
        t.me.regs = s.me.regs ∧ t.me.lsu.tlbinvs = (if s.me.id = v.by_ then
          s.me.lsu.tlbinvs.filter (fun i => i ≠ v.id) else s.me.lsu.tlbinvs)))

/-- R189, R190, R195, R207, R215 to R221, R240, R248, R251, R253: the copy engine moves the bytes of an operation
unit by unit, to a vault at once and to memory at a time above every time of the line and not below LT at issue, and
signals when it has moved them all; a network operation completes with its acknowledgement or its data and fails on a
bad one, in the order of its connection; an operation that has waited for a version, and still finds none, fails; the hub opens, confirms and refutes
hypotheses; the base time rises by 1 in 64 cycles, and at the limit of logical times every time is reset. That
a new node has the lowest free number (log entry 50) and how the numbers of a connection run on (log entry 91)
are the model's choices. -/
def Obligations.EngineAndHubComplete : Prop :=
  ∀ (s u : State) (h : HartId), s.focus h = some u →
    let me := u.me
    let becomes (o : EngOp) (f : EngOp → EngOp) : List EngOp :=
      me.units.eng.map (fun x => if x.id = o.id then f x else x)
    let part := me.partNo
    let answered (r : HubReq) (v : Word) (t : State) : Prop :=
      t.me.lsu.hubReq = some { r with answer := some (v, 0) } ∧ t.me.regs = me.regs ∧ t.hub.mem = u.hub.mem
    (∀ o, me.running o.id = some o → o.tick ≤ u.hub.clk → (∀ q, o.kind = .netGet q → o.got.isSome = true) →
      (o.left = [] → u.engPending o = false → ∃ t, exec (.copyComplete h o.id) s = .next t ∧
        t.me.units.eng = becomes o (fun x => { x with stat := .done }) ∧ t.me.regs = me.regs ∧
        t.hub.mem = u.hub.mem ∧ t.ring = u.ring ∧ t.me.units.semIn = me.units.semIn ++ (match o.sig with
          | some (n, k) => [{ n := n, op := 0, v := k, seq := me.iss.seq, outside := false }]
          | none => [])) ∧
      (∀ off va pa vs,
        let v := { u with free := u.free + 2 }
        o.kind = .copy → o.pick u.free = some off → v.engFetch o (o.unitOf off) = .ok (vs, []) →
        ((o.unitOf off).head?).bind o.dstAt = some va → v.engAt o .engWrite va = .ok (.vault pa) →
        ∃ t, exec (.copyComplete h o.id) s = .next t ∧ t.me.regs = me.regs ∧ t.ring = u.ring ∧
          t.hub.mem = putBytes pa (vs.map (·.1)) u.hub.mem) ∧
      (∀ off va pa vs,
        let v := { u with free := u.free + 2 }
        let line := lineOf pa
        o.kind = .copy → o.hyp = 0 → o.pick u.free = some off → v.engFetch o (o.unitOf off) = .ok (vs, []) →
        ((o.unitOf off).head?).bind o.dstAt = some va → v.engAt o .engWrite va = .ok (.mem pa) →
        u.hub.loc pa = .hbm → u.hub.vaultLine line = false → u.hub.exclusive line = none →
        (u.hub.lineMeta line).dir = 0 → NMap.wf LineMeta.zero u.hub.lines = true →
        ∃ t time, exec (.copyComplete h o.id) s = .next t ∧ t.me.regs = me.regs ∧ t.ring = u.ring ∧
          t.hub.mem = NMap.putAll 0#8 (vs.mapIdx (fun k x => (line * 128 + (pa % 128 + k), x.1))) u.hub.mem ∧
          o.lt ≤ time ∧ (u.hub.lineMeta line).wts < time ∧ (u.hub.lineMeta line).rts < time ∧
          (t.hub.lineMeta line).wts = time ∧ (t.hub.lineMeta line).rts = time ∧
          ∀ x ∈ t.me.units.eng, x.id = o.id → time ≤ x.stamp)) ∧
    (∀ o q, me.running o.id = some o → u.netBefore o = false → u.hub.connOk part q = true →
      (∀ data, o.kind = .netGet q → o.got = none → exec (.netComplete h o.id true data) s = .next ((u.modConn part q (Conn.sent o.len)).modMe
        (Hart.modEng o.id (fun x => { x with got := some (data.take x.len) })))) ∧
      (o.kind = .netPut q → o.left = [] → o.tags = [] → (∀ d ∈ u.hub.deliveries, d.by_ ≠ me.id) → ∃ t, exec (.netComplete h o.id true []) s = .next t ∧
        t.me.units.eng = becomes o (fun x => { x with got := some [], stat := .done }) ∧ t.me.regs = me.regs ∧
        t.hub.mem = u.hub.mem ∧ t.ring = u.ring) ∧
      (∀ data, o.kind = .netPut q ∨ o.kind = .netGet q → ∃ t, exec (.netComplete h o.id false data) s = .next t ∧
        t.me.units.eng = becomes o (fun x => { x with stat := .failed, tags := [] }) ∧
        t.me.units.pending.getLsbD 1 = true ∧ t.me.regs = me.regs ∧ t.hub.mem = u.hub.mem)) ∧
    (∀ o, me.running o.id = some o →
      (∀ e ∈ o.verWait, 4096 ≤ e.2 → u.versionFree part o.hyp e.1 = false → u.netBefore o = false →
        ∃ t, exec (.engineVersionTimeout h o.id) s = .next t ∧ t.me.units.pending.getLsbD 1 = true ∧
          t.me.units.eng = becomes o (fun x => { x with stat := .failed, tags := [] }) ∧ t.me.regs = me.regs ∧
          t.hub.mem = u.hub.mem) ∧
      ((∀ e ∈ o.verWait, e.2 < 4096 ∨ u.versionFree part o.hyp e.1 = true) →
        exec (.engineVersionTimeout h o.id) s = .next u)) ∧
    (∀ r, me.lsu.hubReq = some r → r.answer = none →
      (∀ n, r.kind = 0 → r.node = 0 → 0 < n → n < 256 → u.hub.node part n = none →
        (∀ k, 0 < k → k < n → (u.hub.node part k).isSome = true) →
        ∃ t, exec (.resolveComplete h) s = .next t ∧ answered r (BitVec.ofNat 64 n) t ∧
          t.hub.nodes = u.hub.nodes ++ [{ part := part, id := n, parent := 0 }]) ∧
      (r.kind ≠ 0 → r.node = 0 → ∃ t, exec (.resolveComplete h) s = .next t ∧ answered r 2 t) ∧
      (r.kind ≠ 0 → r.node ≠ 0 → u.hub.node part r.node.toNat = none →
        ∃ t, exec (.resolveComplete h) s = .next t ∧ answered r 1 t) ∧
      (∀ x, r.kind = 2 → r.node ≠ 0 → u.hub.node part r.node.toNat = some x →
        ∃ t, exec (.resolveComplete h) s = .next t ∧ answered r 0 t ∧
          (∀ n ∈ t.hub.nodes, n ∈ u.hub.nodes ∧ ¬(n.part = part ∧ n.id ∈ u.hub.subtree part x.id)) ∧
          ∀ v ∈ t.hub.versions, v ∈ u.hub.versions ∧ ¬(v.part = part ∧ v.node ∈ u.hub.subtree part x.id)) ∧
      (∀ x, r.kind = 1 → r.node ≠ 0 → u.hub.node part r.node.toNat = some x →
        ∃ t v, exec (.resolveComplete h) s = .next t ∧ t.me.lsu.hubReq = some { r with answer := some (0, v) } ∧
          me.floor ≤ v ∧ t.me.regs = me.regs ∧ (∀ n ∈ t.hub.nodes, ¬(n.part = part ∧ n.id = x.id)))) ∧
    (u.hub.raised + 64 ≤ u.hub.clk → exec .baseTimeRise u = .next { u with hub := { u.hub with
      base := u.hub.base + 1, raised := u.hub.raised + 64 } }) ∧
    (u.hub.clk < u.hub.raised + 64 → exec .baseTimeRise u = .next u) ∧
    (2 ^ 40 - 2 ^ 32 ≤ s.hub.base ∨ 2 ^ 40 - 2 ^ 32 ≤ s.hub.stamp → ∃ t, exec .logicalTimePause s = .next t ∧
      t.hub.base = 0 ∧ t.hub.stamp = 0 ∧ (∀ x ∈ t.harts, x.spr.lt = 0 ∧ x.spr.storeTime = 0) ∧
      t.hub.mem = s.hub.mem ∧ t.harts.map (·.regs) = s.harts.map (·.regs) ∧
      ∀ e ∈ t.hub.lines, e.2.wts = 0 ∧ e.2.rts = 0)

/-- R39, R122, R196 to R202, R208, R210, R212, R214, R396 to R401: a peer answers an invalidation with its
logical time, a recall writes the holder's data back and leaves it a shared copy, peers fill and evict lines,
a late locked sequence is surrendered, a snoop is answered; the stacks read and write lines and tiles, clean
and invalidate their side caches, answer configuration requests at monitor privilege, adopt hash versions and
move lines; an uncorrectable error poisons and is logged, and the background work changes nothing. That a
base-die register is a word, 0 until written, is the model's choice (log entry 54). -/
def Obligations.CoherenceAndStacksMove : Prop :=
  ∀ (s : State) (peer line : Nat),
    let own (p : PeerLine) : Prop := p.peer = peer ∧ p.line = line ∧ s.hub.peers = [p] ∧ p.st = .M
    let back (p : PeerLine) (t : State) : Prop := t.hub.mem = putBytes (line * 128) p.bytes s.hub.mem
    let replies (i : Instr) (r : Reply) : Prop := exec i s = .next { s with hub := { s.hub with reply := r } }
    let idle (i : Instr) : Prop := exec i s = .next s
    (∀ x, s.hub.invs = [x] → x.peer = peer → x.line = line → x.isRecall = false → x.tick.isSome = true →
      s.hub.locks peer line = false → ∃ t, exec (.invalidationAck peer line) s = .next t ∧
        t.hub.invs = [{ x with tick := none, lt := s.peerLt peer }] ∧ t.me = s.me ∧ t.ring = s.ring ∧
        (s.hub.peers = [] → t.hub.mem = s.hub.mem) ∧ (∀ p, own p → back p t ∧ t.hub.peers = [])) ∧
    (∀ x p, s.hub.invs = [x] → x.line = line → x.isRecall = true → own p → s.hub.locked = [] →
      ∃ t, exec (.recallLine line) s = .next t ∧ t.hub.invs = [] ∧ back p t ∧
        t.hub.peers = [{ p with st := .S }] ∧ t.me = s.me ∧ t.ring = s.ring) ∧
    (∀ p, own p → s.hub.invs = [] → s.hub.locks peer line = false →
      ((s.hub.localLoc (line * 128)).isHost = false → ∃ t, exec (.evictionNotice peer line) s = .next t ∧
        t.hub.peers = [] ∧ back p t ∧ t.me = s.me ∧ t.ring = s.ring) ∧
      (∀ port, s.hub.localLoc (line * 128) = .host port → ∃ t x, exec (.evictionNotice peer line) s = .next t ∧
        t.hub.peers = [] ∧ t.hub.exts = s.hub.exts ++ [x] ∧ x.far = .host port ∧ x.pa = line * 128 ∧
        x.cxl = some (peer, .dirtyEvict) ∧ t.me = s.me ∧ t.ring = s.ring)) ∧
    (s.hub.locks peer line = true → exec (.evictionNotice peer line) s = .next s) ∧
    (peer < 34 → (s.hub.localLoc (line * 128)).leasable = true → s.hub.peers = [] → s.hub.locked = [] →
      (s.hub.invalidated line = false → ∃ t st, exec (.peerFill peer line false) s = .next t ∧ t.hub.peers =
        [{ peer := peer, line := line, st := st, bytes := bytesAt s.hub.mem (line * 128) 128 }] ∧
        (st = .S ∨ st = .E ∧ covered (s.hub.lineMeta line).dir = []) ∧ t.hub.mem = s.hub.mem) ∧
      ((s.hub.lineMeta line).dir = 0 → (s.hub.lineMeta line).tenure = none →
        ∃ t, exec (.peerFill peer line true) s = .next t ∧ t.hub.peers =
          [{ peer := peer, line := line, st := .M, bytes := bytesAt s.hub.mem (line * 128) 128 }] ∧
          t.hub.mem = s.hub.mem)) ∧
    (∀ l t0 p, s.hub.locked = [l] → l.peer = peer → l.line = line → l.held = true → l.deferred = some t0 →
      t0 + 256 ≤ s.hub.clk → own p → ∃ t n, exec (.lockedSequenceTimeout peer line) s = .next t ∧
        t.hub.peers = [{ p with bytes := l.old }] ∧ s.hub.clk < n ∧
        t.hub.locked = [{ l with held := false, deferred := none, tick := n }] ∧ t.hub.mem = s.hub.mem) ∧
    (∀ port inv, s.hub.localLoc (line * 128) = .host port → s.hub.locked = [] → ∃ t, exec (.hostSnoop line inv) s = .next t ∧
      (∀ p, own p → t.hub.reply = .data p.bytes) ∧ (inv = true → ∀ p ∈ t.hub.peers, p.line ≠ line) ∧
      t.hub.mem = s.hub.mem ∧ t.me = s.me) ∧
    (∀ pa, (s.hub.localLoc (lineOf pa * 128)).stacked = true →
      let bs := bytesAt s.hub.mem (lineOf pa * 128) 128
      let bad := (s.hub.lineMeta (lineOf pa)).poison || decide ((s.hub.lineMeta (lineOf pa)).syn ≠ 0)
      (NMap.wf LineMeta.zero s.hub.lines = true → ∃ t, exec (.lineRead pa) s = .next t ∧ t.hub.mem = s.hub.mem ∧ t.me = s.me ∧
        (t.hub.lineMeta (lineOf pa)).poison = bad ∧
        t.hub.reply = (if bad then .poisoned bs else .data bs)) ∧
      (∀ mask data, ∃ t, exec (.lineWrite pa mask data) s = .next t ∧ t.me = s.me ∧ t.ring = s.ring ∧
        (mask % 2 ^ 128 = 2 ^ 128 - 1 → NMap.wf LineMeta.zero s.hub.lines = true → (t.hub.lineMeta (lineOf pa)).poison = false ∧
          (t.hub.lineMeta (lineOf pa)).syn = 0) ∧
        t.hub.mem = NMap.putAll 0#8 (((List.range 128).filter (fun k => mask.testBit k)).map
          (fun k => (lineOf pa * 128 + k, data.getD k 0#8))) s.hub.mem)) ∧
    (∀ part tid c d, s.hub.readTdt s.free part tid = some d → (∀ o, o < 4096 → d.tileByte c o = none) →
      (∃ t, exec (.tileRead part tid c) s = .next t ∧ t.hub.mem = s.hub.mem ∧
        t.hub.reply = .data ((List.range 4096).map d.padByte)) ∧
      (∀ data, replies (.tileWrite part tid c data) .done)) ∧
    (∀ part tid c data d pas, s.hub.readTdt s.free part tid = some d →
      let cells := (List.range 4096).filterMap (fun o => (d.tileByte c o).map (fun va => (va, o)))
      cells.map (fun e => s.hub.hubAddrs s.free part .store e.1 1) = pas.map (fun pa => some [pa]) →
      exec (.tileWrite part tid c data) s =
        .next ((s.storeBytes 0 pas (cells.map (fun e => data.getD e.2 0#8))).tell .done)) ∧
    (∀ base len, ∃ t u, exec (.regionClean base len) s = .next t ∧ exec (.regionInvalidate base len) s = .next u ∧
      t.hub.mem = s.hub.mem ∧ u.hub.mem = s.hub.mem ∧ t.me = s.me ∧ u.me = s.me ∧
      ∀ (k : Nat) (g : k < 12),
        let inside (l : Nat) : Bool := decide (base / 128 ≤ l) && decide (l * 128 < base + len)
        (t.hub.dram[k]'g).msc = (s.hub.dram[k]'g).msc.map (fun e =>
          if inside e.line then { e with dirty := false } else e) ∧
        (t.hub.dram[k]'g).buffer = (s.hub.dram[k]'g).buffer.filter (fun l => !inside l) ∧
        (u.hub.dram[k]'g).msc = (s.hub.dram[k]'g).msc.filter (fun e => !inside e.line)) ∧
    (∀ (k off : Nat) (v : Word) (g : k < 12),
      (∀ lvl, lvl ≠ 2 → replies (.configurationRead k ⟨lvl, off⟩) .dropped ∧
        replies (.configurationWrite k ⟨lvl, off⟩ v) .dropped) ∧
      replies (.configurationRead k ⟨2, off⟩) (.word (NMap.get 0 off (s.hub.dram[k]'g).regs)) ∧
      exec (.configurationWrite k ⟨2, off⟩ v) s = .next { s with hub := { s.hub with
        dram := s.hub.dram.set k { (s.hub.dram[k]'g) with regs := NMap.put 0 off v (s.hub.dram[k]'g).regs } g } } ∧
      ((s.hub.dram[k]'g).migrating = none → exec (.hashVersionAdopt k) s = .next { s with hub := { s.hub with
        dram := s.hub.dram.set k { (s.hub.dram[k]'g) with
          version := (s.hub.dram[k]'g).version + 1, migrating := some 0, counts := [] } g } }) ∧
      (∀ n, (s.hub.dram[k]'g).migrating = some n →
        exec (.beaterMove k) s = .next { s with hub := { s.hub with
          dram := s.hub.dram.set k { (s.hub.dram[k]'g) with
            migrating := if n + 1 < wbits 7 0 s.hub.mon.hbmcap * 2 ^ 30 / 128 then some (n + 1) else none } g } })) ∧
    (∀ pa dram, s.hub.mon.errst.getLsbD 31 = false → ∃ t, exec (.uncorrectableError (.line pa dram)) s = .next t ∧
      (∃ syn, t.hub.lines = NMap.put LineMeta.zero (lineOf pa) { s.hub.lineMeta (lineOf pa) with
        poison := true, syn := syn } s.hub.lines ∧ (dram = true → syn = (s.hub.lineMeta (lineOf pa)).syn) ∧
        (dram = false → syn ≠ 0)) ∧ t.hub.mon.errst.getLsbD 31 = true ∧ wbits 30 24 t.hub.mon.errst = (if dram then 1 else 2) ∧
      t.hub.mon.erraddr = BitVec.ofNat 64 (pa % 2 ^ 52) ∧ t.hub.mem = s.hub.mem) ∧
    (wbits 63 32 s.hub.mon.errst ≠ 2 ^ 32 - 1 → exec (.uncorrectableError .corrected) s = .next (s.setMon (fun m =>
      { m with errst := setBits 63 32 (wbits 63 32 m.errst + 1) m.errst }))) ∧
    (∀ n, idle (.patrolScrub n) ∧ idle (.dramCalibration n) ∧ idle (.linkCalibration n) ∧
      idle (.rowDisturbanceManagement n))

/-- R24, R37, R40, R203, R205, R346, R356, R357, R398: the far side's answer ends a request that left the
package and brings its load the data; a good flit in order moves its link on, a bad one is replayed, a link
that replays too often is dead and its accesses fail with DEAD; a link trains and readies. A package serves
another one's read of a line whose home is its own, and a host gives a core's cache the line that it asked
for. A host request without a binding is counted, a bound one reads or writes where its addresses translate;
an RDMA request that its connection accepts does, and another is answered with an access error and leaves the
connection in error. How the numbers of a connection run on is the model's choice (log entry 91). -/
def Obligations.OutsideIsAnswered : Prop :=
  ∀ (s : State),
    let ended (e : Ext) (bits time : Nat) (data : List Byte) (s0 : State) : State := { s0 with
      hub := { s0.hub with exts := [] },
      me := { (if s0.me.lsu.asks.any (fun a => a.tags.any (fun t => t.1 = e.tag)) then s0.me.raiseLt time
          else s0.me) with lsu := { s0.me.lsu with asks := s0.me.lsu.asks.map (fun a => { a with
        tags := a.tags.map (fun t => if t.1 = e.tag then (e.tag, some (bits, data)) else t) }) } } }
    let sole (e : Ext) : Prop := s.hub.exts = [e] ∧ e.cxl = none ∧ s.me.id = e.hart ∧ s.me.lsu.writes = [] ∧ s.me.units.eng = []
    (∀ e p data, sole e → e.far = .cxl p →
      exec (.cxlDeviceAcknowledgement e.tag data) s = .next (ended e 0 0 data s)) ∧
    (∀ e p data, sole e → e.far = .host p →
      exec (.hostWriteComplete e.tag data) s = .next (ended e 0 0 data s)) ∧
    (∀ e p peer data, s.hub.exts = [e] → e.far = .host p → e.cxl = some (peer, .rdShared) → s.hub.peers = [] →
      (∀ h ∈ s.harts, h.lsu.writes = [] ∧ h.units.eng = []) → ∃ t, exec (.hostWriteComplete e.tag data) s = .next t ∧ t.hub.exts = [] ∧ t.hub.peers =
        [{ peer := peer, line := e.pa / 128, st := .S, bytes := (List.range 128).map (fun k => data.getD k 0#8) }]) ∧
    (∀ (k : Nat) (g : k < 8),
      let l := s.hub.links[k]'g
      let relink (f : Link) : State := { s with hub := { s.hub with links := s.hub.links.set k f g } }
      exec (.readyReturn k) s = .next (relink { l with ready := true, sent := 0 }) ∧
      (∀ far, exec (.linkUp k far) s =
        .next (relink { Link.zero with trained := true, far := far % 64 })) ∧
      (l.trained = true → l.dead = false → l.ready = true ∨ l.sent < 64 → ∃ r n,
        (∀ p, exec (.flitReceive k l.next false p) s = .next { relink
          { l with ready := r, sent := n, asked := some l.next,
                   failed := if l.asked.any (fun high => l.next ≤ high) then l.failed + 1 else l.failed } with free := s.free + 1 }) ∧
        exec (.flitReceive k l.next true .empty) s = .next { relink
          { l with ready := r, sent := n, next := l.next + 1, asked := none, failed := 0 } with
            free := s.free + 1 } ∧
        (∀ e time data, sole e → e.far = .link k → l.queue.contains (.request e.tag) = false →
          exec (.flitReceive k l.next true (.answer e.tag time data)) s = .next (ended e 0 time data { relink
            { l with ready := r, sent := n, next := l.next + 1, asked := none, failed := 0 } with
              free := s.free + 1 })) ∧
        (∀ tag pa len lt, (s.hub.loc pa).here = true → len ≠ 0 →
          pa % 128 + len ≤ 128 → s.hub.poisoned pa = false → ∃ t time,
          exec (.flitReceive k l.next true (.read tag pa len lt)) s = .next t ∧ lt ≤ time ∧
          s.hub.seenWts 0 0 (lineOf pa) ≤ time ∧ t.me = s.me ∧ t.hub.mem = s.hub.mem ∧
          (t.hub.links[k]'g).queue = l.queue ++ [.answer tag time (s.hub.hubBytes (s.free + 1) pa len)])) ∧
      (∀ e, sole e → e.far = .link k → l.spent = true → s.hub.mon.errst.getLsbD 31 = true →
        exec (.deadLink k) s = .next (ended e 1 0 []
          (relink { l with dead := true, trained := false, queue := [], again := none })))) ∧
    (∀ (q : HostReq) (g : q.port < 2),
      let e := NMap.get 0 (q.rid % 256) (s.hub.mon.streams[q.port]'g)
      let part := wbits 61 58 e
      let failed : Reply := if q.write then .dropped else .unsupported
      (e.getLsbD 63 = false ∨ wbits 39 32 e ≠ q.rid / 256 ∨ q.pasid = true →
        exec (.inboundHostRequest q) s = .next ((s.setMon (fun m => { m with
          iounb := if m.iounb = BitVec.allOnes 64 then m.iounb else m.iounb + 1 })).tell failed)) ∧
      (e.getLsbD 63 = true → wbits 39 32 e = q.rid / 256 → q.pasid = false →
        let r := s.hub.inboundAddrs s.free part (if e.getLsbD 62 then some 2 else none)
          (if q.write then .store else .load) ((List.range q.data.length).map (fun k => q.addr + k))
        let u : State := { s with hub := r.2, free := s.free + 1 }
        (∀ a x, r.1 = .error (a, x) → exec (.inboundHostRequest q) s =
          .next ((State.ioFault part x.stage x.kind q.port q.write a { s with hub := r.2 }).tell failed)) ∧
        (∀ pas, r.1 = .ok pas → (∀ pa ∈ pas, r.2.unreached pa = false) →
          (q.write = true → exec (.inboundHostRequest q) s = .next ((u.storeBytes 0 pas q.data).tell .done)) ∧
          (q.write = false → ∃ t bs, exec (.inboundHostRequest q) s = .next t ∧ t.hub.mem = r.2.mem ∧
            bs = pas.flatMap (fun pa => r.2.hubBytes (s.free + 1) pa 1) ∧
            (t.hub.reply = .data bs ∨ t.hub.reply = .poisoned bs))))) ∧
    (∀ (q : RdmaReq),
      (s.hub.conn q.part q.conn = none → exec (.incomingRdma q) s = .next ((s.rdmaDone q).tell .accessError)) ∧
      (∀ c, s.hub.conn q.part q.conn = some c → c.accepts q = false →
        let connb := (s.hub.part q.part).connb
        let va := wbits 56 12 connb * 4096 + 64 * q.conn
        let u := (s.rdmaDone q).modConn q.part q.conn (fun x => { x with err := true })
        (∀ x ∈ u.hub.conns, x.part = q.part → x.q = q.conn → x.err = true) ∧
        (connb.getLsbD 0 = false → exec (.incomingRdma q) s = .next (u.tell .accessError)) ∧
        (∀ b t, connb.getLsbD 0 = true → u.hub.readVa s.free q.part va 1 = some [b] → b.getLsbD 1 = false →
          u.hubWriteVa q.part va [b ||| 2#8] = some t →
          exec (.incomingRdma q) s = .next (t.tell .accessError))) ∧
      (∀ c r, s.hub.conn q.part q.conn = some c → c.accepts q = true →
        (s.hub.part q.part).pchip.getLsbD (12 + c.port) = true →
        r = s.hub.inboundAddrs s.free q.part (some (if c.peer = 32 then 0 else 1))
          (if q.op = .read then .load else if q.op = .write then .store else .atomic)
          ((List.range (if q.op = .read ∨ q.op = .write then q.len else 8)).map (fun k => q.addr + k)) →
        let u : State := { s with hub := r.2, free := s.free + 1 }
        (∀ a x, r.1 = .error (a, x) → exec (.incomingRdma q) s = .next
          ((State.ioFault q.part x.stage x.kind (2 + c.port) (decide (q.op ≠ .read)) a
            { s with hub := r.2 }).refuseRdma q)) ∧
        (∀ pas, r.1 = .ok pas → (∀ pa ∈ pas, r.2.unreached pa = false) →
          (q.op = .read → exec (.incomingRdma q) s = .next (u.rdmaRead q c.peer pas) ∧
            ((∀ pa ∈ pas, (r.2.loc pa).cacheable = false) → u.rdmaRead q c.peer pas =
              ((u.rdmaDone q).tellBytes pas).modConn q.part q.conn (Conn.received pas.length))) ∧
          (q.op = .write → exec (.incomingRdma q) s = .next (u.rdmaWrite q c.peer pas)) ∧
          (q.op ≠ .read → q.op ≠ .write → q.addr % 8 = 0 → ∀ pa, pas.head? = some pa →
            (r.2.loc pa).cacheable = true →
            exec (.incomingRdma q) s = .next (u.rdmaAtomic q c.peer pa)))))

/-- R257 to R272, R307, R321 to R325: the hub reads a rung doorbell and checks it, starts the launch of a good
dispatch packet and aborts at a bad one, satisfies, re-examines or aborts a barrier packet, makes the atomic
of a signal packet, and completes a launch whose workgroups have ended; `QCTL` activates, disables and resets
a queue; at the placement of a gang, which holds its flights, the calender pins an entry whose key agrees, and
otherwise falls back or adds one. Which of several codes is reported is the model's reading (log entries 68
and 70). -/
def Obligations.QueuesAreProcessed : Prop :=
  ∀ (s : State) (part q : Nat) (x : Queue),
    let s1 : State := { s with free := s.free + 1 }
    let command (n : Nat) : Prop := wbits 63 62 (s.hub.part part).qctl = 1 ∧
      wbits 15 14 (s.hub.part part).qctl = n ∧ wbits 11 0 (s.hub.part part).qctl = q
    let next (p : Nat) : Prop := s.hub.nextPacket s.free part q = some (x, some p)
    let read : State :=
      { s.hubSaw part ((x.base + 64 * (x.ridx % 2 ^ x.log2n)) % 2 ^ 57) 64 with free := s.free + 1 }
    (∀ bs, s.hub.queues = [x] → x.part = part → x.q = q → x.pend.contains .bell = true → x.state = 1 →
      (s1.setQueue part q (Queue.took .bell)).hub.readVa s1.free part ((x.va + 56) % 2 ^ 57) 8 = some bs →
      (leBytes bs + 2 ^ 64 - x.ridx) % 2 ^ 64 ≤ 2 ^ x.log2n →
      let t := ((s1.setQueue part q (Queue.took .bell)).hubSaw part ((x.va + 56) % 2 ^ 57) 8).setQueue part q
        (fun x => { x with widx := leBytes bs })
      exec (.doorbell part q) s = .next t ∧ t.me = s.me ∧ t.ring = s.ring ∧ t.hub.mem = s.hub.mem ∧
        t.hub.queues = [{ x with pend := x.pend.filter (fun e => e ≠ .bell), widx := leBytes bs }]) ∧
    (∀ p l, next p → p % 256 = 1 → packetIllegal p = false → read.hub.launchOf (s.free + 1) x p = .ok l →
      ∃ t, exec (.dispatchPacket part q) s = .next t ∧ t.me = s.me ∧ t.ring = s.ring ∧ t.free = s.free + 2 ∧
        t.hub.mem = s.hub.mem ∧ t.hub.queues = s.hub.queues ∧ t.hub.launched = s.hub.launched + 1 ∧
        t.hub.launches = s.hub.launches ++ [l] ∧
        t.hub.slots = NMap.put 0 (slotKey l.part l.queue l.slot) l.id s.hub.slots) ∧
    (∀ p, next p → p % 256 ≠ 2 → p % 256 ≠ 3 → packetIllegal p = true →
      exec (.dispatchPacket part q) s = .next (read.abortPacket x.part x.q 1 (some p))) ∧
    (∀ p, next p → p % 256 = 2 → packetIllegal p = false → packetWindow p = false →
      exec (.barrierPacket part q) s = .next ((read.setQueue x.part x.q (fun y => { y with
        barrier := some (((List.range 5).map (fun k => bitsOf (64 * k + 127) (64 * k + 64) p)).filter
          (fun d => d ≠ 0), bitsOf 447 384 p) })).evalBarrier x.part x.q)) ∧
    (∀ p t, next p → p % 256 = 3 → packetIllegal p = false → packetWindow p = false →
      read.hubAtomic x.part (bitsOf 127 64 p % 2 ^ 57) (fun w => if p.testBit 12 then
        w - BitVec.ofNat 64 (bitsOf 191 128 p) else BitVec.ofNat 64 (bitsOf 191 128 p)) = some t →
      exec (.signalPacket part q) s = .next (t.setRidx x.part x.q (x.ridx + 1))) ∧
    (s.hub.nextPacket s.free part q = some (x, none) →
      exec (.dispatchPacket part q) s = .next (s1.abortPacket part q 5 none) ∧
      exec (.barrierPacket part q) s = .next (s1.abortPacket part q 5 none) ∧
      exec (.signalPacket part q) s = .next (s1.abortPacket part q 5 none)) ∧
    (s.hub.queue part q = some x → x.state = 1 → x.barrier.isSome = true →
      ((x.pend.contains .poke = true ∨ ∃ w ∈ s.hub.watches, w.who = Waiter.queue part q ∧ w.hit.isSome = true) →
        exec (.barrierEvaluate part q) s = .next (s.evalBarrier part q)) ∧
      (∀ t0, x.reread = some t0 → t0 ≤ s.hub.clk →
        exec (.barrierSignalReread part q) s = .next (s.evalBarrier part q)) ∧
      (∀ csig, x.barrier = some ([], csig) → csig = 0 →
        s.evalBarrier part q = State.setRidx part q (x.ridx + 1) (State.dropBarrier part q
          (s1.setQueue part q (fun x => { x.took .poke with reread := none, deps := [] }))))) ∧
    (∀ l, s.hub.launches = [l] → s.launchDone l = true → l.csig = 0 → s.me.id = .core 0 →
      exec (.dispatchComplete l.id) s = .next (State.dropHarts l.id { s with
        hub := { s.hub.unpin l.id with launches := [] } })) ∧
    (∀ bs pa pas, command 0 → (s.hub.part part).qtb.getLsbD 0 = true → s.hub.queues = [] →
      let va := wbits 56 12 (s.hub.part part).qtb * 4096 + 64 * q
      s.hub.readVa s.free part va 64 = some bs → s.hub.hubAddrs s.free part .store va 64 = some (pa :: pas) →
      descOk (leBytes bs) = true → ∃ y, y.part = part ∧ y.q = q ∧ y.va = va ∧ y.state = 1 ∧ y.pend = [.bell] ∧
        y.ridx = bitsOf 447 384 (leBytes bs) ∧ y.log2n = bitsOf 20 16 (leBytes bs) ∧
        exec (.qctlActivate part q) s = .next (((State.setDesc part q 8 [0#8] { s1 with
          hub := { s.hub with queues := [y] } }).setDesc part q 0 [1#8]).endQctl part 2)) ∧
    (command 1 → s.hub.queues = [] → s.hub.launches = [] →
      exec (.qctlDisable part q) s = .next (s.endQctl part 2)) ∧
    (command 2 → s.hub.queue part q = some x →
      (x.state ≠ 2 → exec (.qctlReset part q) s = .next (s.endQctl part 3)) ∧
      (x.state = 2 → exec (.qctlReset part q) s = .next ((((s.setQueue part q (fun x =>
        { x with state := 1 }.enter .bell)).setDesc part q 8 [0#8]).setDesc part q 0 [1#8]).endQctl part 2))) ∧
    (∀ l g k chip flight, s.hub.launches = [l] → l.kernels = [k] →
      s.deciding l.id k.prof = some (l, g, chip, flight) →
      let u := s.holdFlights l g chip flight k.prof
      let decided (base : Option Nat) (t : State) : Prop := t.hub.mem = s.hub.mem ∧
        t.hub.launches.map (·.decisions) = [l.decisions ++ [{ prof := k.prof, base := base }]] ∧
        ∀ g' ∈ t.hub.launches.flatMap (·.gangs), g'.idx = g.idx → g'.chip = chip ∧ g'.flight = flight ∧ g'.prof = k.prof
      (∀ y, s.hub.quires = [y] → y.part = l.part → y.kid = k.kid → y.prof = k.prof →
        y.fp.toNat = crc64 (keyString k l) → y.key = keyString k l →
        exec (.calenderDecision l.id k.prof) s = .next (u.quireHit l k y) ∧ decided (some y.base) (u.quireHit l k y)) ∧
      (s.hub.quires = [] → s.hub.quireQuota l.part = 0 →
        ∃ t, exec (.calenderDecision l.id k.prof) s = .next t ∧ decided none t ∧
          ∀ g : l.part < 16, wbits 7 0 (t.hub.parts[l.part]'g).calst = 8) ∧
      (∀ bs, s.hub.quires = [] → s.hub.quireQuota l.part ≠ 0 → (u.calEnv l k).specialise l k = .ok bs →
        exec (.calenderDecision l.id k.prof) s = .next ({ u with free := u.free + 1 }.newEntry l k bs)))

/-- R57 to R60, R66, R270, R274 to R280, R385 to R391: the gang that is next in order is placed on flights
that take it, and each tread of it starts; a gang stops for one of higher priority, for its supervisor or to
park, is saved once nothing of it is on its way, may be spilled, and is restored on flights of its profile; a
waiting gang ages. -/
def Obligations.GangsArePlacedSavedRestored : Prop :=
  ∀ (s : State) (l : Launch) (g : Gang),
    let sole := s.hub.launches = [l] ∧ l.gangs = [g]
    let one (g' : Gang) : State := { s with hub := { s.hub with launches := [{ l with gangs := [g'] }] } }
    let part := l.part
    let preq := (s.hub.part part).preq
    let asked (n i : Nat) : Prop := wbits 63 62 preq = 1 ∧ wbits 29 28 preq = n ∧
      s.hub.preqGang part = some (l, i, some g)
    (∀ chip flight k ps, sole → s.hub.nextPlacement part = some (l, g, ps) → (chip, flight) ∈ ps → g.st = .unstarted →
      l.kernels = [k] → k.prof = chipProf chip → l.spec = false → l.decisions = [] →
      (∀ h ∈ s.harts, h.hasDirty = false) →
      let at_ := s.hub.places l (l.gangCount g.idx) chip flight
      ∃ t, exec (.gangPlace l.id g.idx chip flight) s = .next t ∧ t.me = s.me ∧
        (t.ring.map (·.id)).drop s.ring.length = at_.map (fun p =>
          HartId.tread l.id (g.idx * l.gsize + p.1) p.2.1) ∧ t.ring.take s.ring.length = s.ring ∧
        (∀ h ∈ t.ring.drop s.ring.length, h.ctl.run = .attached ∧ h.level = 0 ∧
          h.ctl.pc = BitVec.ofNat 57 (k.code + k.entry) ∧ h.regs.s = Regs.zero.s ∧
          (∀ n, h.regs.gReg n = l.args.getD n.toNat 0) ∧ h.spr.prof = BitVec.ofNat 64 k.prof ∧
          h.spr.flw = BitVec.ofNat 64 l.width)) ∧
    (∀ ps chip flight, sole → s.hub.nextPlacement part = some (l, g, ps) → (chip, flight) ∈ ps → g.st = .saved →
      s.hub.unplaceable l g = false → (∀ h ∈ s.harts, h.hasDirty = false) →
      s.hub.targetsReady g (g.ctx.map (fun h => (h, s.hub.newPlace l g.idx chip flight h))) = true →
      ∃ t, exec (.gangRestore l.id g.idx chip flight) s = .next t ∧ t.me = s.me ∧
        t.ring.take s.ring.length = s.ring ∧
        (t.ring.drop s.ring.length).map (fun h => (h.id, h.regs, h.spr, h.ctl.pc, h.place)) =
          g.ctx.map (fun h => (h.id, h.regs, h.spr, h.ctl.pc, s.hub.newPlace l g.idx chip flight h)) ∧
        ∃ g', t.hub.launches.map (·.gangs) = [[g']] ∧ g'.st = .placed ∧ g'.chip = chip ∧ g'.flight = flight ∧
          g'.ctx = []) ∧
    (∀ c vs, s.nextVictims part = some (c, vs) → (l, g) ∈ vs →
      s.hub.launches.find? (fun m => m.id = l.id) = some l →
      exec (.gangPreempt l.id g.idx) s = .next (s.yieldTo c vs)) ∧
    (∀ c vs, part < 16 → (∀ m ∈ s.hub.launches, m.part = part) → s.nextVictims part = some (c, vs) →
      exec .sliceTimerTick s = .next (s.yieldTo c vs)) ∧
    (∀ c, sole → s.yieldTo c [(l, g)] = one { g with
      st := .saving .priority, waitSince := g.since, since := s.hub.clk, yields := some (c.1.id, c.2.idx) }) ∧
    (∀ why hs, sole → g.st = .saving why → hs = s.gangHarts l.id g.idx → (∀ h ∈ hs, s.hub.quiet h = true) →
      (∀ h ∈ hs, h.hasDirty = false) → s.hub.roomFor (s.ctxSize hs) = true →
      exec (.contextSave l.id g.idx) s = .next (s.saveGang l g why hs)) ∧
    (sole → s.hub.spillable = some (l, g) →
      exec (.contextSpill l.id g.idx) s = .next (one { g with spilled := true })) ∧
    (sole → g.st = .saved → g.held = false → l.pri + g.aged < 7 → g.waitSince + 16777216 * (g.aged + 1) ≤ s.hub.clk →
      exec (.agingTick l.id g.idx) s = .next (one { g with aged := g.aged + 1 })) ∧
    (∀ h, sole → g.st = .placed → h ∈ s.gangHarts l.id g.idx → h.parkDue s.hub.clk = true →
      exec (.gangPark l.id g.idx) s = .next (one { g with
        st := .saving .park, waitSince := g.since, since := s.hub.clk, yields := none })) ∧
    (∀ h, sole → g.st = .parked → g.held = false → h ∈ g.ctx → l.wakes h = true →
      exec (.parkedGangWake l.id g.idx) s =
        .next (one { g with st := .saved, waitSince := s.hub.clk, aged := 0 })) ∧
    (∀ i, asked 0 i → l.lead ≠ some i → g.st = .placed →
      exec (.preqPreempt part) s = .next (s.startSave l.id i (.supervisor false))) ∧
    (∀ i, asked 1 i → l.lead ≠ some i → g.st = .placed →
      exec (.preqPreemptHold part) s = .next (s.startSave l.id i (.supervisor true))) ∧
    (∀ i, asked 2 i → g.held = true →
      exec (.preqRelease part) s = .next ((s.holdGang l i false).endPreq part 2 0))

/-- R211, R339, R321, R343 to R346, R357 to R362, R367, R388, R398, R427 to R429: the commands on chiplets,
ports, cores and regions end with their status and do what they name, and a written register takes the value
the spec gives it, with the limits of its field. That `DIRQ` keeps all 64 bits of a write (log entry 40) and
that the unassign command ends at once (log entry 81) are the model's choices. -/
def Obligations.CommandsAndRegisters : Prop :=
  ∀ (s : State) (chip part core : Nat),
    let mon := s.hub.mon
    let command (n : Nat) : Prop := chip < 12 ∧ wbits 63 62 mon.chctl = 1 ∧ wbits 11 8 mon.chctl = n ∧
      wbits 3 0 mon.chctl = chip
    let ended (t : State) (st cause : Nat) : Prop :=
      wbits 63 62 t.hub.mon.chctl = st ∧ wbits 55 52 t.hub.mon.chctl = cause
    let ncore (n : Nat) : Prop := wbits 63 62 mon.ncore = 1 ∧ wbits 8 8 mon.ncore = n ∧ wbits 4 0 mon.ncore = core
    let port (n k : Nat) : Prop := wbits 63 62 mon.chctl = 1 ∧ wbits 11 8 mon.chctl = n ∧
      wbits 31 24 mon.chctl = k ∧ wbits 3 0 mon.chctl = 13 + k / 12 ∧ 12 ≤ wbits 3 0 mon.chctl
    let setsMon (i : Instr) (f : MonRegs → MonRegs) : Prop := exec i s = .next (s.setMon f)
    let setsPart (i : Instr) (f : PartRegs → PartRegs) : Prop := exec i s = .next (s.setPart part f)
    -- chiplets
    (command 0 → s.hub.chipState chip = 1 → wbits 19 16 mon.chctl = part → part < 16 →
      ∃ t, exec (.chctlAssign chip part) s = .next t ∧ ended t 2 0 ∧ t.hub.chipState chip = 2 ∧
        t.hub.holder chip = part ∧ (t.hub.part part).pchip.getLsbD chip = true) ∧
    (command 1 → s.hub.chipState chip = 2 → ∃ t, exec (.chctlUnassign chip) s = .next t ∧ ended t 2 0 ∧
      t.hub.chipState chip = 1 ∧ (t.hub.part (s.hub.holder chip)).pchip.getLsbD chip = false) ∧
    (command 4 → s.hub.chipState chip = 0 → ∃ t, exec (.chctlEnumerate chip) s = .next t ∧
      ((Config.presented chip).toNat = s.hub.capRecord chip → ended t 2 0 ∧ t.hub.chipState chip = 1) ∧
      ((Config.presented chip).toNat ≠ s.hub.capRecord chip → ended t 3 4 ∧ t.hub.chipState chip = 0)) ∧
    (command 2 → s.hub.chipState chip = 1 → s.hub.isolations = [] → ∃ t, exec (.chctlIsolate chip) s = .next t ∧
      t.hub.chipState chip = 3 ∧
      t.hub.isolations = [{ chip := chip, since := s.hub.clk, killed := false, drain := none }]) ∧
    (∀ i, command 2 → s.hub.isolations = [i] → i.chip = chip → s.hub.occupied chip = false → i.drain.isSome = true →
      (∀ h ∈ s.harts, h.draining chip = false) → ∃ t, exec (.chctlIsolate chip) s = .next t ∧
        ended t 2 (if i.killed then 5 else 0) ∧ t.hub.chipState chip = 4 ∧ t.hub.isolations = []) ∧
    (command 3 → s.hub.chipState chip = 4 → ∃ t, exec (.chctlReset chip) s = .next t ∧ t.hub.chipState chip = 5) ∧
    (command 3 → s.hub.chipState chip = 5 → ∃ t, exec (.chctlReset chip) s = .next t ∧ ended t 2 0 ∧
      t.hub.chipState chip = 0 ∧ ∀ h ∈ t.harts, h.place.chip = chip → h.regs = Regs.zero) ∧
    (∀ k, port 5 k → wbits 19 16 mon.chctl = part → part < 16 → s.hub.portHolder k = none →
      s.hub.recBit (1440 + k) = true → k < 24 → ∃ t, exec (.chctlAssignPort k part) s = .next t ∧ ended t 2 0 ∧
        (t.hub.part part).pchip.getLsbD (12 + k) = true) ∧
    (∀ k p, port 6 k → s.hub.portHolder k = some p → k < 24 → ∃ t, exec (.chctlUnassignPort k) s = .next t ∧
      ended t 2 0 ∧ (t.hub.part p).pchip.getLsbD (12 + k) = false ∧
      ∀ c ∈ t.hub.conns, c.part = p → c.port = k → c.err = true) ∧
    (∀ i, s.hub.isolations = [i] → i.chip = chip →
      (∀ l ∈ s.hub.launches, ∀ g ∈ l.gangs, g.chip = chip →
        (∀ why, g.st ≠ .saving why) ∨ s.hub.clk < g.since + 1048576) →
      exec (.isolationSaveTimeout chip) s = .next s) ∧
    (∀ i l g why, s.hub.isolations = [i] → i.chip = chip → s.hub.launches = [l] → l.gangs = [g] →
      g.chip = chip → g.st = .saving why → g.since + 1048576 ≤ s.hub.clk →
      exec (.isolationSaveTimeout chip) s = .next ((s.killGang l.id g.idx).preqDone l.part why 3 1)) ∧
    (∀ i t0, s.hub.isolations = [i] → i.chip = chip → i.drain = some t0 → t0 + 4194304 ≤ s.hub.clk →
      ∃ t, exec (.isolationDrainTimeout chip) s = .next t ∧ t.hub.mem = s.hub.mem ∧
        (∀ h ∈ t.harts, h.place.chip = chip → h.isCore = false → h.units.eng.any EngOp.unfinished = false ∧
          h.units.semOut = [] ∧ h.lsu.vstores = [] ∧ ∀ w ∈ h.lsu.writes, w.isBack = true) ∧
        t.harts.map (fun h => h.lsu.writes.filter Write.isBack) =
          s.harts.map (fun h => h.lsu.writes.filter Write.isBack) ∧
        t.harts.map (·.regs) = s.harts.map (·.regs)) ∧
    -- cores and regions
    (ncore 1 → s.hart? (.core core) = none → s.hub.recBit (1408 + core) = true →
      ∃ t h, exec (.ncoreStart core) s = .next t ∧ t.ring = s.ring ++ [h] ∧ h.id = .core core ∧ h.level = 2 ∧
        h.ctl.run = .detached ∧ h.ctl.pc.toNat = mon.ncaddr.toNat % 2 ^ 57 ∧ h.spr.mvec = mon.mvecg ∧
        h.regs = Regs.zero ∧ wbits 63 62 t.hub.mon.ncore = 2) ∧
    (ncore 0 → s.me.id = .core core → s.me.live = true → ∃ t, exec (.ncoreHalt core) s = .next t ∧
      t.me.ctl.run = .halted ∧ t.me.lsu.writes = s.me.lsu.writes ∧ wbits 63 62 t.hub.mon.ncore = 2) ∧
    (∀ v region, s.hub.ncrq part 1 = some (v, region) → part < 16 → (8 + v) ∈ s.hub.partChips part →
      (s.hub.loc (region * 2 ^ 21)).leasable = true → s.hub.ofPart s.free part (region * 2 ^ 21) 512 = true →
      s.hub.regions = [] → s.hub.versions = [] →
      ∃ t, exec (.ncrqMakeNoncoherent part) s = .next t ∧ t.hub.regions = [(v, region)] ∧
        wbits 63 62 (t.hub.part part).ncrq = 2 ∧ t.hub.mem = s.hub.mem) ∧
    (∀ v region, s.hub.ncrq part 0 = some (v, region) → part < 16 → (8 + v) ∈ s.hub.partChips part →
      (∀ h ∈ s.harts, h.lsu.lease = []) → ∃ t, exec (.ncrqMakeCoherent part) s = .next t ∧
        t.hub.regions = s.hub.regions.filter (fun r => r ≠ (v, region)) ∧
        wbits 63 62 (t.hub.part part).ncrq = 2 ∧ t.hub.mem = s.hub.mem) ∧
    -- registers
    (∀ v : Word,
      let bell := s.mapHart (.core (wbits 4 0 v)) (fun h =>
        { h with spr := { h.spr with evpend := setBits 1 1 1 h.spr.evpend } })
      (∀ h, s.hart? (.core (wbits 4 0 v)) = some h →
        exec (.ndoorWrite part v) s = .next (if h.partNo = part then bell else s)) ∧
      exec (.mdoorWrite v) s = .next bell ∧
      exec (.tcmpWrite core v) s = .next (s.mapHart (.core core) (fun h =>
        { h with spr := { h.spr with tcmp := v } })) ∧
      (s.hub.sumWith part (wbits 40 32 v) (fun r => wbits 40 32 r.calctl) ≤ 256 →
        setsPart (.calctlQuotaWrite part v) (fun r => { r with calctl := setBits 40 32 (wbits 40 32 v) 0 })) ∧
      (256 < s.hub.sumWith part (wbits 40 32 v) (fun r => wbits 40 32 r.calctl) →
        exec (.calctlQuotaWrite part v) s = .next s) ∧
      setsPart (.calstClear part) (fun r => { r with calst := 0, calkid := 0 }) ∧
      (∀ t, exec (.calctlFlush part) s = .next t →
        ∀ e ∈ t.hub.quires, e.part = part → e.pins ≠ [] ∧ e.stale = true) ∧
      (∃ t, exec (.calctlFlush part) s = .next t ∧ t.me = s.me ∧ t.hub.mem = s.hub.mem) ∧
      (v.getLsbD 0 = false → part < 16 → ∃ t, exec (.connbWrite part v) s = .next t ∧
        (t.hub.part part).connb.getLsbD 0 = false ∧ t.hub.conns = s.hub.conns.filter (fun c => c.part ≠ part)) ∧
      (s.hub.sumWith part (wbits 47 32 v) (fun r => wbits 47 32 r.pquota) ≤ 65536 →
        s.hub.sumWith part (wbits 20 0 v) (fun r => wbits 20 0 r.pquota) ≤ 1048576 →
        setsPart (.pquotaWrite part v) (fun r => { r with pquota := maskWrite 0xffff001fffff r.pquota v })) ∧
      (NMap.get [] (16 + wbits 3 0 v) s.hub.mext ≠ [] → exec (.mextWrite v) s = .next s) ∧
      (NMap.get [] (16 + wbits 3 0 v) s.hub.mext = [] → exec (.mextWrite v) s = .next { s with
        free := s.free + 1,
        hub := { s.hub with
          mext := NMap.put [] (16 + wbits 3 0 v) (s.hub.hubBytes s.free (wbits 51 12 v * 4096) 32) s.hub.mext } }) ∧
      setsMon (.dirqWrite v) (fun m => { m with dirq := v }) ∧
      (wbits 7 0 mon.trlen = 0 → setsMon (.pknumWrite v) (fun m => { m with pknum := maskWrite 0x3f 0 v })) ∧
      (s.hub.launches = [] → wbits 6 0 v ≤ 85 →
        setsMon (.ctxresWrite v) (fun m => { m with ctxres := maskWrite 0x7f 0 v })) ∧
      setsMon (.counterClearWrite .iounb v) (fun m => { m with iounb := 0 }) ∧
      setsMon (.counterClearWrite .errst v) (fun m =>
        { m with errst := setBits 63 32 0 (if v.getLsbD 31 then setBits 31 31 0 m.errst else m.errst) }) ∧
      setsPart (.counterClearWrite (.ioflt part) v) (fun r =>
        { r with ioflt := setBits 63 32 0 (if v.getLsbD 31 then setBits 31 31 0 r.ioflt else r.ioflt) }) ∧
      (∀ i, i < 120 → exec (.islReqWrite i v) s = .next { s with hub := { s.hub with
        isl := NMap.put Island.zero i { s.hub.island i with req := wbits 2 0 v } s.hub.isl } }) ∧
      setsMon (.pwrctlWrite v) (fun m =>
        { m with pwrctl := setBits 15 0 (Nat.min (wbits 15 0 v) powerLimit) m.pwrctl }) ∧
      setsMon (.telselWrite v) (fun m => { m with telsel := maskWrite 0xf1ff 0 v }) ∧
      setsMon (.registerWrite (.monitor 0x198) v) (fun m => { m with pkdom := v }) ∧
      setsPart (.registerWrite (.part part 0x28) v) (fun r =>
        { r with ordc := BitVec.ofNat 64 (Nat.max 1 (wbits 7 0 v)) }))

/-- R360, R362 to R364, R367, R424 to R430: an island moves to the lower of its request and its cap within 4,000
ticks; a sample above the limit or with a junction above 105 °C lowers the caps, ten good ones raise them, and
one above 115 °C removes main power; a thermal trip or the loss of the main input ends main power. The management
interface answers SPDM requests in their order, and its vendor messages. Which caps move (log entry 84), what
package reset keeps (the inputs that are not taken, the counter of free values, the flash: log entry 85), and the
order and the form of SPDM replies (log entry 86) are the model's choices. -/
def Obligations.PowerAndManagementAnswer : Prop :=
  ∀ (s : State) (port : Nat) (nonce : List Byte),
    let x := s.hub.spdmOf port
    let on := port = 0 ∨ port < 3 ∧ s.hub.dark = false
    let stores (y : Spdm) (r : Reply) : State := { s with hub := { s.hub with
      reply := r, spdm := y :: s.hub.spdm.filter (fun z => z.port ≠ y.port) } }
    let tells (i : Instr) (r : Reply) : Prop := exec i s = .next { s with hub := { s.hub with reply := r } }
    let data (i : Instr) (y : Spdm) (bs : List Byte) : Prop :=
      exec i s = .next (stores { y with transcript := y.transcript ++ bs } (.data bs))
    let signed (i : Instr) (bs : List Byte) : Prop :=
      (s.identitySignature (x.transcript ++ bs)).length = 384 ∧ exec i s = .next
        { stores { x with transcript := [] } (.signed bs (s.identitySignature (x.transcript ++ bs))) with
          free := s.free + 1 }
    let id := s.hub.flash.identity
    let island (i : Nat) (y : Island) : State := { s with hub := { s.hub with
      isl := NMap.put Island.zero i y s.hub.isl } }
    let powered (p : Power) (h : Hub) : State := { s with hub := { h with power := p } }
    (∀ i t0 t1, i < 120 → (s.hub.island i).chg = some (t0, t1) → t1 ≤ s.hub.clk →
      exec (.islandLevelChange i) s = .next (island i { s.hub.island i with cur := t0, chg := none })) ∧
    (∀ i, i < 120 → (s.hub.island i).chg = none → s.islandTarget i ≠ (s.hub.island i).cur → ∃ n,
      n ≤ 4000 ∧ exec (.islandLevelChange i) s = .next { island i { s.hub.island i with
        chg := some (s.islandTarget i, s.hub.clk + n) } with free := s.free + 1 }) ∧
    (∀ r : PowerReading, s.hub.power.standby = false → exec (.powerControlSample r) s = .next s) ∧
    (∀ r : PowerReading, s.hub.power.standby = true →
      let p := { s.hub.power with sample := (512, r.milliwatts) :: r.sample }
      (s.hub.dark = true → exec (.powerControlSample r) s = .next (powered p s.hub)) ∧
      (s.hub.dark = false → (∃ e ∈ r.sample, (e.1 / 512 = 2 ∨ e.1 / 512 = 3) ∧ 115000 < e.2) →
        exec (.powerControlSample r) s = .next (powered { p with off := true, tripped := true } s.hub))) ∧
    (∀ r : PowerReading, s.hub.power.standby = true → s.hub.dark = false →
      (∀ e ∈ r.sample, e.1 / 512 = 2 ∨ e.1 / 512 = 3 → e.2 ≤ 115000) →
      let p := { s.hub.power with sample := (512, r.milliwatts) :: r.sample }
      let hot := 1000 * s.hub.powerLimit < r.milliwatts ∨
        ∃ e ∈ r.sample, (e.1 / 512 = 2 ∨ e.1 / 512 = 3) ∧ 105000 < e.2
      let fine := 10 * r.milliwatts ≤ 9 * (1000 * s.hub.powerLimit) ∧
        ∀ e ∈ r.sample, e.1 / 512 = 2 ∨ e.1 / 512 = 3 → 10 * e.2 ≤ 9 * 105000
      (hot → exec (.powerControlSample r) s = .next (powered { p with marginMs := 0 } s.hub.lowerCaps)) ∧
      (¬hot → ¬fine → exec (.powerControlSample r) s = .next (powered { p with marginMs := 0 } s.hub)) ∧
      (¬hot → fine → s.hub.power.marginMs < 9 → exec (.powerControlSample r) s =
        .next (powered { p with marginMs := s.hub.power.marginMs + 1 } s.hub)) ∧
      (¬hot → fine → 9 ≤ s.hub.power.marginMs → exec (.powerControlSample r) s =
        .next (powered { p with marginMs := 10 } s.hub.raiseCaps))) ∧
    (∃ rail, exec .thermalTrip s = .next { powered { s.hub.power with
      off := true, tripped := true, standby := s.hub.power.standby && rail } s.hub with free := s.free + 1 }) ∧
    exec .mainInputOff s = .next (powered { s.hub.power with mainOn := false } s.hub) ∧
    (s.hub.power.tripped = false → exec .packageReset s = .next { State.reset with
      inbox := s.inbox, free := s.free, hub := { State.reset.hub with flash := s.hub.flash } }) ∧
    (s.hub.power.tripped = true → ∃ t, exec .packageReset s = .next t ∧ wbits 23 16 t.hub.mon.bstat = 5 ∧
      t.hub.mem = [] ∧ t.me = State.reset.me) ∧
    (on →
      data (.getVersion port) { x with version := true, caps := false, algs := false, transcript := [] }
        [0x12#8, 0x13#8] ∧
      (x.version = true → data (.getCapabilities port) { x with caps := true } [0x16#8]) ∧
      (x.version = false → tells (.getCapabilities port) .unsupported) ∧
      (x.caps = true → data (.negotiateAlgorithms port { rsassaPss3072 := true, sha256 := true })
        { x with algs := true } [1#8, 1#8]) ∧
      (∀ r, x.caps = false ∨ r.rsassaPss3072 = false ∨ r.sha256 = false →
        tells (.negotiateAlgorithms port r) .unsupported) ∧
      (x.algs = true → data (.getDigests port) x (sha256 id) ∧
        (∀ off len, data (.getCertificate port off len) x ((id.drop off).take len)) ∧
        signed (.challenge port nonce) (sha256 id ++ nonce) ∧
        signed (.getMeasurements port 0 nonce) (BitVec.ofNat 8 s.measurements.length :: nonce) ∧
        signed (.getMeasurements port 255 nonce)
          (s.measurements.flatMap (fun m => BitVec.ofNat 8 m.1 :: m.2) ++ nonce) ∧
        (∀ i d, i ≠ 0 → i ≠ 255 → s.measurement i = some d →
          signed (.getMeasurements port i nonce) (BitVec.ofNat 8 i :: d ++ nonce)) ∧
        (∀ i, i ≠ 0 → i ≠ 255 → s.measurement i = none → tells (.getMeasurements port i nonce) .unsupported))) ∧
    (∀ k i, tells (.readTelemetryMessage k i) (.word (BitVec.ofNat 64 (s.hub.telemetry k i)))) ∧
    tells .readBstatMessage (.word s.hub.mon.bstat) ∧
    (∀ w, exec (.setPwrctlOobMessage w) s = .next ((s.setMon (fun m => { m with
      pwrctl := setBits 47 32 (Nat.min 65535 (Nat.max 400 w)) m.pwrctl })).tell .done))
end

