-- ==== Sys2Proof/Laws/Memory.lean ====
section
/-! SUPPORT. What the operations on sparse maps do, memory among them: a read after a write, and that every
operation keeps the canonical form. -/

namespace Sys2Proof.Machine

variable {α : Type}

theorem NMap.above_mono {a b : Nat} {m : NMap α} (hab : a ≤ b) (h : NMap.above b m = true) :
    NMap.above a m = true := by
  simp only [NMap.above, List.all_eq_true, decide_eq_true_eq] at h ⊢
  exact fun e he => lt_of_le_of_lt hab (h e he)

theorem NMap.above_cons {b k : Nat} {v : α} {r : NMap α} :
    NMap.above b ((k, v) :: r) = true ↔ b < k ∧ NMap.above b r = true := by
  simp [NMap.above]

theorem NMap.get_of_above {d : α} {b k : Nat} : ∀ {m : NMap α}, NMap.above b m = true → k ≤ b → NMap.get d k m = d
  | [], _, _ => rfl
  | (j, v) :: r, h, hk => by
    have hj := (NMap.above_cons.mp h).1
    simp [NMap.get, show j ≠ k by omega, show k < j by omega]

variable [DecidableEq α]

theorem NMap.wf_cons {d : α} {k : Nat} {v : α} {r : NMap α} :
    NMap.wf d ((k, v) :: r) = true ↔ v ≠ d ∧ NMap.above k r = true ∧ NMap.wf d r = true := by
  simp [NMap.wf, and_assoc]

theorem NMap.above_put {d : α} {b k : Nat} {v : α} (hb : b < k) :
    ∀ {m : NMap α}, NMap.above b m = true → NMap.above b (NMap.put d k v m) = true
  | [], _ => by
    unfold NMap.put
    split <;> simp [NMap.above, hb]
  | (j, w) :: r, h => by
    obtain ⟨hj, hr⟩ := NMap.above_cons.mp h
    unfold NMap.put
    split
    · split
      · exact hr
      · exact NMap.above_cons.mpr ⟨hb, hr⟩
    · split
      · split
        · exact h
        · exact NMap.above_cons.mpr ⟨hb, h⟩
      · exact NMap.above_cons.mpr ⟨hj, NMap.above_put hb hr⟩

/-- A write keeps the canonical form. -/
theorem NMap.wf_put {d : α} {k : Nat} {v : α} :
    ∀ {m : NMap α}, NMap.wf d m = true → NMap.wf d (NMap.put d k v m) = true
  | [], _ => by
    unfold NMap.put
    split <;> simp_all [NMap.wf, NMap.above]
  | (j, w) :: r, h => by
    obtain ⟨hw, ha, hr⟩ := NMap.wf_cons.mp h
    unfold NMap.put
    split
    · rename_i hj
      split
      · exact hr
      · rename_i hv
        exact NMap.wf_cons.mpr ⟨hv, hj ▸ ha, hr⟩
    · split
      · rename_i hkj
        split
        · exact h
        · rename_i hv
          exact NMap.wf_cons.mpr ⟨hv, NMap.above_cons.mpr ⟨hkj, NMap.above_mono hkj.le ha⟩, h⟩
      · exact NMap.wf_cons.mpr ⟨hw, NMap.above_put (by omega) ha, NMap.wf_put hr⟩

/-- Several writes keep the canonical form. -/
theorem NMap.wf_putAll {d : α} : ∀ {l : List (Nat × α)} {m : NMap α},
    NMap.wf d m = true → NMap.wf d (NMap.putAll d l m) = true
  | [], _, h => h
  | e :: l, m, h => by
    simpa [NMap.putAll] using NMap.wf_putAll (l := l) (NMap.wf_put (k := e.1) (v := e.2) h)

/-- Removing entries keeps the canonical form. -/
theorem NMap.wf_drop {d : α} {p : Nat → Bool} :
    ∀ {m : NMap α}, NMap.wf d m = true → NMap.wf d (NMap.drop p m) = true
  | [], _ => rfl
  | (k, v) :: r, h => by
    obtain ⟨hv, ha, hr⟩ := NMap.wf_cons.mp h
    have ih := NMap.wf_drop (p := p) hr
    unfold NMap.drop at ih ⊢
    rw [List.filter_cons]
    split
    · refine NMap.wf_cons.mpr ⟨hv, ?_, ih⟩
      simp only [NMap.above, List.all_eq_true] at ha ⊢
      exact fun e he => ha e (List.mem_of_mem_filter he)
    · exact ih

/-- A read after a write to the same key gives the value written. -/
@[simp] theorem NMap.get_put_self {d : α} {k : Nat} {v : α} :
    ∀ {m : NMap α}, NMap.wf d m = true → NMap.get d k (NMap.put d k v m) = v
  | [], _ => by
    unfold NMap.put
    split <;> simp_all [NMap.get]
  | (j, w) :: r, h => by
    obtain ⟨_, ha, hr⟩ := NMap.wf_cons.mp h
    unfold NMap.put
    split
    · rename_i hj
      split
      · rename_i hv
        exact hv ▸ NMap.get_of_above (hj ▸ ha) le_rfl
      · simp [NMap.get]
    · rename_i hj
      split
      · rename_i hkj
        split
        · rename_i hv
          simp [NMap.get, hj, hkj, hv]
        · simp [NMap.get]
      · rename_i hkj
        simp [NMap.get, hj, hkj, NMap.get_put_self hr]

/-- A write leaves every other key alone. -/
theorem NMap.get_put_of_ne {d : α} {i k : Nat} {v : α} (hik : i ≠ k) :
    ∀ {m : NMap α}, NMap.wf d m = true → NMap.get d i (NMap.put d k v m) = NMap.get d i m
  | [], _ => by
    unfold NMap.put
    split
    · rfl
    · simp [NMap.get, Ne.symm hik]
  | (j, w) :: r, h => by
    obtain ⟨_, ha, hr⟩ := NMap.wf_cons.mp h
    unfold NMap.put
    split
    · rename_i hj
      subst hj
      split
      · simp only [NMap.get, Ne.symm hik, if_false]
        split
        · rename_i hi
          exact NMap.get_of_above ha hi.le
        · rfl
      · simp [NMap.get, Ne.symm hik]
    · split
      · rename_i hkj
        split
        · rfl
        · simp only [NMap.get, Ne.symm hik, if_false]
          split
          · rename_i hi
            simp [show j ≠ i by omega, show i < j by omega]
          · rfl
      · simp [NMap.get, NMap.get_put_of_ne hik hr]

/-- Writing bytes keeps the canonical form of memory. -/
theorem Memory.wf_putBytes {a : Nat} {bs : List Byte} {m : NMap Byte} (h : Memory.wf m = true) :
    Memory.wf (putBytes a bs m) = true :=
  NMap.wf_putAll h

/-- Writing no byte changes nothing. -/
@[simp] theorem putBytes_nil {a : Nat} {m : NMap Byte} : putBytes a [] m = m := rfl

/-- The bytes read from an address are as many as were asked for. -/
@[simp] theorem length_bytesAt {m : NMap Byte} {a n : Nat} : (bytesAt m a n).length = n := by
  simp [bytesAt]

/-- The byte `k` of those read from an address. -/
theorem getElem_bytesAt {m : NMap Byte} {a n k : Nat} (h : k < (bytesAt m a n).length) :
    (bytesAt m a n)[k] = NMap.get 0#8 (a + k) m := by
  simp [bytesAt]

end Sys2Proof.Machine
end

