-- ==== Sys2Proof/Laws/State.lean ====
section
/-! SUPPORT. One lemma per field per update of the state, so that no proof unfolds a record update. -/

namespace Sys2Proof.Machine

/-! ### The acting hart -/

@[simp] theorem Hart.push_id (L k r : Nat) (e : Option (List Eff)) (h : Hart) :
    (h.push L k r e).id = h.id := rfl
@[simp] theorem Hart.push_place (L k r : Nat) (e : Option (List Eff)) (h : Hart) :
    (h.push L k r e).place = h.place := rfl
@[simp] theorem Hart.push_regs (L k r : Nat) (e : Option (List Eff)) (h : Hart) :
    (h.push L k r e).regs = h.regs := rfl
@[simp] theorem Hart.push_spr (L k r : Nat) (e : Option (List Eff)) (h : Hart) :
    (h.push L k r e).spr = h.spr := rfl
@[simp] theorem Hart.push_ctl (L k r : Nat) (e : Option (List Eff)) (h : Hart) :
    (h.push L k r e).ctl = h.ctl := rfl
@[simp] theorem Hart.push_units (L k r : Nat) (e : Option (List Eff)) (h : Hart) :
    (h.push L k r e).units = h.units := rfl
@[simp] theorem Hart.push_lsu (L k r : Nat) (e : Option (List Eff)) (h : Hart) :
    (h.push L k r e).lsu = h.lsu := rfl
@[simp] theorem Hart.push_latched (L k r : Nat) (e : Option (List Eff)) (h : Hart) :
    (h.push L k r e).latched = h.latched := rfl
@[simp] theorem Hart.push_pipe (L k r : Nat) (e : Option (List Eff)) (h : Hart) : (h.push L k r e).sched.pipe = 
    h.sched.pipe ++ [{ seq := h.iss.seq, left := L, origin := h.ctl.pc, kind := k, reg := r, effs := e }] := rfl
@[simp] theorem Hart.push_mx (L k r : Nat) (e : Option (List Eff)) (h : Hart) :
    (h.push L k r e).sched.mx = h.sched.mx := rfl
@[simp] theorem Hart.push_loop (L k r : Nat) (e : Option (List Eff)) (h : Hart) :
    (h.push L k r e).sched.loop = h.sched.loop := rfl
@[simp] theorem Hart.push_hold (L k r : Nat) (e : Option (List Eff)) (h : Hart) :
    (h.push L k r e).sched.hold = h.sched.hold := rfl
@[simp] theorem Hart.push_out (L k r : Nat) (e : Option (List Eff)) (h : Hart) :
    (h.push L k r e).iss.out = h.iss.out := rfl
@[simp] theorem Hart.push_slot (L k r : Nat) (e : Option (List Eff)) (h : Hart) :
    (h.push L k r e).iss.slot = h.iss.slot := rfl
@[simp] theorem Hart.push_next (L k r : Nat) (e : Option (List Eff)) (h : Hart) :
    (h.push L k r e).iss.next = h.iss.next := rfl
@[simp] theorem Hart.push_seq (L k r : Nat) (e : Option (List Eff)) (h : Hart) :
    (h.push L k r e).iss.seq = h.iss.seq + 1 := rfl

@[simp] theorem Hart.setOut_id (o : Out) (h : Hart) : (h.setOut o).id = h.id := rfl
@[simp] theorem Hart.setOut_place (o : Out) (h : Hart) : (h.setOut o).place = h.place := rfl
@[simp] theorem Hart.setOut_regs (o : Out) (h : Hart) : (h.setOut o).regs = h.regs := rfl
@[simp] theorem Hart.setOut_spr (o : Out) (h : Hart) : (h.setOut o).spr = h.spr := rfl
@[simp] theorem Hart.setOut_ctl (o : Out) (h : Hart) : (h.setOut o).ctl = h.ctl := rfl
@[simp] theorem Hart.setOut_sched (o : Out) (h : Hart) : (h.setOut o).sched = h.sched := rfl
@[simp] theorem Hart.setOut_units (o : Out) (h : Hart) : (h.setOut o).units = h.units := rfl
@[simp] theorem Hart.setOut_lsu (o : Out) (h : Hart) : (h.setOut o).lsu = h.lsu := rfl
@[simp] theorem Hart.setOut_latched (o : Out) (h : Hart) : (h.setOut o).latched = h.latched := rfl
@[simp] theorem Hart.setOut_out (o : Out) (h : Hart) : (h.setOut o).iss.out = o := rfl
@[simp] theorem Hart.setOut_slot (o : Out) (h : Hart) : (h.setOut o).iss.slot = h.iss.slot := rfl
@[simp] theorem Hart.setOut_next (o : Out) (h : Hart) : (h.setOut o).iss.next = h.iss.next := rfl
@[simp] theorem Hart.setOut_seq (o : Out) (h : Hart) : (h.setOut o).iss.seq = h.iss.seq := rfl

@[simp] theorem Hart.raiseLt_id (t : Nat) (h : Hart) : (h.raiseLt t).id = h.id := rfl
@[simp] theorem Hart.raiseLt_place (t : Nat) (h : Hart) : (h.raiseLt t).place = h.place := rfl
@[simp] theorem Hart.raiseLt_regs (t : Nat) (h : Hart) : (h.raiseLt t).regs = h.regs := rfl
@[simp] theorem Hart.raiseLt_ctl (t : Nat) (h : Hart) : (h.raiseLt t).ctl = h.ctl := rfl
@[simp] theorem Hart.raiseLt_sched (t : Nat) (h : Hart) : (h.raiseLt t).sched = h.sched := rfl
@[simp] theorem Hart.raiseLt_iss (t : Nat) (h : Hart) : (h.raiseLt t).iss = h.iss := rfl
@[simp] theorem Hart.raiseLt_units (t : Nat) (h : Hart) : (h.raiseLt t).units = h.units := rfl
@[simp] theorem Hart.raiseLt_lsu (t : Nat) (h : Hart) : (h.raiseLt t).lsu = h.lsu := rfl
@[simp] theorem Hart.raiseLt_latched (t : Nat) (h : Hart) : (h.raiseLt t).latched = h.latched := rfl
@[simp] theorem Hart.raiseLt_lt (t : Nat) (h : Hart) : (h.raiseLt t).spr.lt = Nat.max h.spr.lt t := rfl
@[simp] theorem Hart.raiseLt_plv (t : Nat) (h : Hart) : (h.raiseLt t).spr.plv = h.spr.plv := rfl
@[simp] theorem Hart.raiseLt_storeTime (t : Nat) (h : Hart) :
    (h.raiseLt t).spr.storeTime = h.spr.storeTime := rfl

@[simp] theorem Hart.setPending_id (b : Nat) (h : Hart) : (h.setPending b).id = h.id := rfl
@[simp] theorem Hart.setPending_place (b : Nat) (h : Hart) : (h.setPending b).place = h.place := rfl
@[simp] theorem Hart.setPending_regs (b : Nat) (h : Hart) : (h.setPending b).regs = h.regs := rfl
@[simp] theorem Hart.setPending_spr (b : Nat) (h : Hart) : (h.setPending b).spr = h.spr := rfl
@[simp] theorem Hart.setPending_ctl (b : Nat) (h : Hart) : (h.setPending b).ctl = h.ctl := rfl
@[simp] theorem Hart.setPending_sched (b : Nat) (h : Hart) : (h.setPending b).sched = h.sched := rfl
@[simp] theorem Hart.setPending_iss (b : Nat) (h : Hart) : (h.setPending b).iss = h.iss := rfl
@[simp] theorem Hart.setPending_lsu (b : Nat) (h : Hart) : (h.setPending b).lsu = h.lsu := rfl
@[simp] theorem Hart.setPending_latched (b : Nat) (h : Hart) : (h.setPending b).latched = h.latched := rfl
@[simp] theorem Hart.setPending_pending (b : Nat) (h : Hart) :
    (h.setPending b).units.pending = h.units.pending ||| BitVec.ofNat 5 (2 ^ b) := rfl
@[simp] theorem Hart.setPending_sem (b : Nat) (h : Hart) : (h.setPending b).units.sem = h.units.sem := rfl
@[simp] theorem Hart.setPending_eng (b : Nat) (h : Hart) : (h.setPending b).units.eng = h.units.eng := rfl

@[simp] theorem Hart.semChange_id (n o v : Nat) (w : Bool) (h : Hart) : (h.semChange n o v w).id = h.id := rfl
@[simp] theorem Hart.semChange_place (n o v : Nat) (w : Bool) (h : Hart) :
    (h.semChange n o v w).place = h.place := rfl
@[simp] theorem Hart.semChange_regs (n o v : Nat) (w : Bool) (h : Hart) :
    (h.semChange n o v w).regs = h.regs := rfl
@[simp] theorem Hart.semChange_spr (n o v : Nat) (w : Bool) (h : Hart) :
    (h.semChange n o v w).spr = h.spr := rfl
@[simp] theorem Hart.semChange_ctl (n o v : Nat) (w : Bool) (h : Hart) :
    (h.semChange n o v w).ctl = h.ctl := rfl
@[simp] theorem Hart.semChange_sched (n o v : Nat) (w : Bool) (h : Hart) :
    (h.semChange n o v w).sched = h.sched := rfl
@[simp] theorem Hart.semChange_iss (n o v : Nat) (w : Bool) (h : Hart) :
    (h.semChange n o v w).iss = h.iss := rfl
@[simp] theorem Hart.semChange_lsu (n o v : Nat) (w : Bool) (h : Hart) :
    (h.semChange n o v w).lsu = h.lsu := rfl
@[simp] theorem Hart.semChange_latched (n o v : Nat) (w : Bool) (h : Hart) :
    (h.semChange n o v w).latched = h.latched := rfl
@[simp] theorem Hart.semChange_sem (n o v : Nat) (w : Bool) (h : Hart) :
    (h.semChange n o v w).units.sem = h.units.sem := rfl
@[simp] theorem Hart.semChange_eng (n o v : Nat) (w : Bool) (h : Hart) :
    (h.semChange n o v w).units.eng = h.units.eng := rfl
@[simp] theorem Hart.semChange_semIn (n o v : Nat) (w : Bool) (h : Hart) : (h.semChange n o v w).units.semIn = 
    h.units.semIn ++ [{ n := n, op := o, v := v, seq := h.iss.seq, outside := w }] := rfl

@[simp] theorem Hart.landSems_id (h : Hart) : (h.landSems).id = h.id := rfl
@[simp] theorem Hart.landSems_place (h : Hart) : (h.landSems).place = h.place := rfl
@[simp] theorem Hart.landSems_regs (h : Hart) : (h.landSems).regs = h.regs := rfl
@[simp] theorem Hart.landSems_spr (h : Hart) : (h.landSems).spr = h.spr := rfl
@[simp] theorem Hart.landSems_ctl (h : Hart) : (h.landSems).ctl = h.ctl := rfl
@[simp] theorem Hart.landSems_sched (h : Hart) : (h.landSems).sched = h.sched := rfl
@[simp] theorem Hart.landSems_iss (h : Hart) : (h.landSems).iss = h.iss := rfl
@[simp] theorem Hart.landSems_lsu (h : Hart) : (h.landSems).lsu = h.lsu := rfl
@[simp] theorem Hart.landSems_latched (h : Hart) : (h.landSems).latched = h.latched := rfl
@[simp] theorem Hart.landSems_semIn (h : Hart) : (h.landSems).units.semIn = [] := rfl
@[simp] theorem Hart.landSems_eng (h : Hart) : (h.landSems).units.eng = h.units.eng := rfl
@[simp] theorem Hart.landSems_pending (h : Hart) : (h.landSems).units.pending = h.units.pending := rfl

/-- The system registers after a trap (R335, R370). -/
theorem Hart.trapEntry_spr (t : TrapInfo) (w : Word) (h : Hart) : (h.trapEntry t w).spr = { h.spr with
    tcause := causeWord t (h.level = 0 && !h.isCore), tpc := BitVec.ofNat 64 t.tpc.toNat,
    taddr := BitVec.ofNat 64 t.taddr, titer := w, plv := enterPlv t.lvl h.spr.plv } := by
  unfold Hart.trapEntry; rfl

@[simp] theorem Hart.trapEntry_id (t : TrapInfo) (w : Word) (h : Hart) : (h.trapEntry t w).id = h.id := by
  unfold Hart.trapEntry; rfl
@[simp] theorem Hart.trapEntry_place (t : TrapInfo) (w : Word) (h : Hart) :
    (h.trapEntry t w).place = h.place := by
  unfold Hart.trapEntry; rfl
@[simp] theorem Hart.trapEntry_regs (t : TrapInfo) (w : Word) (h : Hart) : (h.trapEntry t w).regs = h.regs := by
  unfold Hart.trapEntry; rfl
@[simp] theorem Hart.trapEntry_units (t : TrapInfo) (w : Word) (h : Hart) :
    (h.trapEntry t w).units = h.units := by
  unfold Hart.trapEntry; rfl
@[simp] theorem Hart.trapEntry_latched (t : TrapInfo) (w : Word) (h : Hart) :
    (h.trapEntry t w).latched = h.latched := by
  unfold Hart.trapEntry; rfl
@[simp] theorem Hart.trapEntry_plv (t : TrapInfo) (w : Word) (h : Hart) :
    (h.trapEntry t w).spr.plv = enterPlv t.lvl h.spr.plv := by
  rw [Hart.trapEntry_spr]
@[simp] theorem Hart.trapEntry_tpc (t : TrapInfo) (w : Word) (h : Hart) :
    (h.trapEntry t w).spr.tpc = BitVec.ofNat 64 t.tpc.toNat := by
  rw [Hart.trapEntry_spr]
@[simp] theorem Hart.trapEntry_taddr (t : TrapInfo) (w : Word) (h : Hart) :
    (h.trapEntry t w).spr.taddr = BitVec.ofNat 64 t.taddr := by
  rw [Hart.trapEntry_spr]
@[simp] theorem Hart.trapEntry_titer (t : TrapInfo) (w : Word) (h : Hart) :
    (h.trapEntry t w).spr.titer = w := by
  rw [Hart.trapEntry_spr]
@[simp] theorem Hart.trapEntry_lt (t : TrapInfo) (w : Word) (h : Hart) :
    (h.trapEntry t w).spr.lt = h.spr.lt := by
  rw [Hart.trapEntry_spr]
@[simp] theorem Hart.trapEntry_stall (t : TrapInfo) (w : Word) (h : Hart) :
    (h.trapEntry t w).ctl.stall = none := by
  cases h; rfl
@[simp] theorem Hart.trapEntry_out (t : TrapInfo) (w : Word) (h : Hart) :
    (h.trapEntry t w).iss.out = .trapped t.cls := by
  unfold Hart.trapEntry; rfl
@[simp] theorem Hart.trapEntry_next (t : TrapInfo) (w : Word) (h : Hart) :
    (h.trapEntry t w).iss.next = none := by
  unfold Hart.trapEntry; rfl
@[simp] theorem Hart.trapEntry_writes (t : TrapInfo) (w : Word) (h : Hart) :
    (h.trapEntry t w).lsu.writes = h.lsu.writes := by
  unfold Hart.trapEntry; rfl
@[simp] theorem Hart.trapEntry_vstores (t : TrapInfo) (w : Word) (h : Hart) :
    (h.trapEntry t w).lsu.vstores = h.lsu.vstores := by
  unfold Hart.trapEntry; rfl
@[simp] theorem Hart.trapEntry_asks (t : TrapInfo) (w : Word) (h : Hart) :
    (h.trapEntry t w).lsu.asks = h.lsu.asks := by
  unfold Hart.trapEntry; rfl

/-! ### The state -/

@[simp] theorem State.modMe_me (f : Hart → Hart) (s : State) : (s.modMe f).me = f s.me := rfl
@[simp] theorem State.modMe_ring (f : Hart → Hart) (s : State) : (s.modMe f).ring = s.ring := rfl
@[simp] theorem State.modMe_todo (f : Hart → Hart) (s : State) : (s.modMe f).todo = s.todo := rfl
@[simp] theorem State.modMe_opened (f : Hart → Hart) (s : State) : (s.modMe f).opened = s.opened := rfl
@[simp] theorem State.modMe_hub (f : Hart → Hart) (s : State) : (s.modMe f).hub = s.hub := rfl
@[simp] theorem State.modMe_inbox (f : Hart → Hart) (s : State) : (s.modMe f).inbox = s.inbox := rfl
@[simp] theorem State.modMe_free (f : Hart → Hart) (s : State) : (s.modMe f).free = s.free := rfl

@[simp] theorem State.ok_me (s : State) : (s.ok).me = s.me.setOut .ok := rfl
@[simp] theorem State.ok_ring (s : State) : (s.ok).ring = s.ring := rfl
@[simp] theorem State.ok_todo (s : State) : (s.ok).todo = s.todo := rfl
@[simp] theorem State.ok_opened (s : State) : (s.ok).opened = s.opened := rfl
@[simp] theorem State.ok_hub (s : State) : (s.ok).hub = s.hub := rfl
@[simp] theorem State.ok_inbox (s : State) : (s.ok).inbox = s.inbox := rfl
@[simp] theorem State.ok_free (s : State) : (s.ok).free = s.free := rfl

@[simp] theorem State.issue_me (L k r : Nat) (e : List Eff) (s : State) :
    (s.issue L k r e).me = (s.me.push L k r (some e)).setOut .ok := rfl
@[simp] theorem State.issue_ring (L k r : Nat) (e : List Eff) (s : State) :
    (s.issue L k r e).ring = s.ring := rfl
@[simp] theorem State.issue_todo (L k r : Nat) (e : List Eff) (s : State) :
    (s.issue L k r e).todo = s.todo := rfl
@[simp] theorem State.issue_opened (L k r : Nat) (e : List Eff) (s : State) :
    (s.issue L k r e).opened = s.opened := rfl
@[simp] theorem State.issue_hub (L k r : Nat) (e : List Eff) (s : State) : (s.issue L k r e).hub = s.hub := rfl
@[simp] theorem State.issue_inbox (L k r : Nat) (e : List Eff) (s : State) :
    (s.issue L k r e).inbox = s.inbox := rfl
@[simp] theorem State.issue_free (L k r : Nat) (e : List Eff) (s : State) :
    (s.issue L k r e).free = s.free := rfl

@[simp] theorem State.writeS_me (L : Nat) (d : BitVec 6) (v : Word) (s : State) :
    (s.writeS L d v).me = (s.me.push L 1 d.toNat (some [.s d v])).setOut .ok := rfl
@[simp] theorem State.writeS_ring (L : Nat) (d : BitVec 6) (v : Word) (s : State) :
    (s.writeS L d v).ring = s.ring := rfl
@[simp] theorem State.writeS_todo (L : Nat) (d : BitVec 6) (v : Word) (s : State) :
    (s.writeS L d v).todo = s.todo := rfl
@[simp] theorem State.writeS_opened (L : Nat) (d : BitVec 6) (v : Word) (s : State) :
    (s.writeS L d v).opened = s.opened := rfl
@[simp] theorem State.writeS_hub (L : Nat) (d : BitVec 6) (v : Word) (s : State) :
    (s.writeS L d v).hub = s.hub := rfl
@[simp] theorem State.writeS_inbox (L : Nat) (d : BitVec 6) (v : Word) (s : State) :
    (s.writeS L d v).inbox = s.inbox := rfl
@[simp] theorem State.writeS_free (L : Nat) (d : BitVec 6) (v : Word) (s : State) :
    (s.writeS L d v).free = s.free := rfl

@[simp] theorem State.writeP_me (L : Nat) (d : BitVec 6) (v : Bool) (s : State) : (s.writeP L d v).me = 
    (s.me.push L 3 (d.toNat % 8) (some [.p (BitVec.ofNat 3 d.toNat) v])).setOut .ok := rfl
@[simp] theorem State.writeP_ring (L : Nat) (d : BitVec 6) (v : Bool) (s : State) :
    (s.writeP L d v).ring = s.ring := rfl
@[simp] theorem State.writeP_todo (L : Nat) (d : BitVec 6) (v : Bool) (s : State) :
    (s.writeP L d v).todo = s.todo := rfl
@[simp] theorem State.writeP_opened (L : Nat) (d : BitVec 6) (v : Bool) (s : State) :
    (s.writeP L d v).opened = s.opened := rfl
@[simp] theorem State.writeP_hub (L : Nat) (d : BitVec 6) (v : Bool) (s : State) :
    (s.writeP L d v).hub = s.hub := rfl
@[simp] theorem State.writeP_inbox (L : Nat) (d : BitVec 6) (v : Bool) (s : State) :
    (s.writeP L d v).inbox = s.inbox := rfl
@[simp] theorem State.writeP_free (L : Nat) (d : BitVec 6) (v : Bool) (s : State) :
    (s.writeP L d v).free = s.free := rfl

@[simp] theorem State.writeM_me (L : Nat) (d : BitVec 6) (v : Word) (s : State) : (s.writeM L d v).me = 
    (s.me.push L 4 (d.toNat % 8) (some [.m (BitVec.ofNat 3 d.toNat) v])).setOut .ok := rfl
@[simp] theorem State.writeM_ring (L : Nat) (d : BitVec 6) (v : Word) (s : State) :
    (s.writeM L d v).ring = s.ring := rfl
@[simp] theorem State.writeM_todo (L : Nat) (d : BitVec 6) (v : Word) (s : State) :
    (s.writeM L d v).todo = s.todo := rfl
@[simp] theorem State.writeM_opened (L : Nat) (d : BitVec 6) (v : Word) (s : State) :
    (s.writeM L d v).opened = s.opened := rfl
@[simp] theorem State.writeM_hub (L : Nat) (d : BitVec 6) (v : Word) (s : State) :
    (s.writeM L d v).hub = s.hub := rfl
@[simp] theorem State.writeM_inbox (L : Nat) (d : BitVec 6) (v : Word) (s : State) :
    (s.writeM L d v).inbox = s.inbox := rfl
@[simp] theorem State.writeM_free (L : Nat) (d : BitVec 6) (v : Word) (s : State) :
    (s.writeM L d v).free = s.free := rfl

@[simp] theorem State.freezeFor_ring (w : Want) (s : State) : (s.freezeFor w).ring = s.ring := rfl
@[simp] theorem State.freezeFor_todo (w : Want) (s : State) : (s.freezeFor w).todo = s.todo := rfl
@[simp] theorem State.freezeFor_opened (w : Want) (s : State) : (s.freezeFor w).opened = s.opened := rfl
@[simp] theorem State.freezeFor_hub (w : Want) (s : State) : (s.freezeFor w).hub = s.hub := rfl
@[simp] theorem State.freezeFor_inbox (w : Want) (s : State) : (s.freezeFor w).inbox = s.inbox := rfl
@[simp] theorem State.freezeFor_free (w : Want) (s : State) : (s.freezeFor w).free = s.free := rfl

@[simp] theorem State.stall_ring (p : Bool) (s : State) : (s.stall p).ring = s.ring := rfl
@[simp] theorem State.stall_todo (p : Bool) (s : State) : (s.stall p).todo = s.todo := rfl
@[simp] theorem State.stall_opened (p : Bool) (s : State) : (s.stall p).opened = s.opened := rfl
@[simp] theorem State.stall_hub (p : Bool) (s : State) : (s.stall p).hub = s.hub := rfl
@[simp] theorem State.stall_inbox (p : Bool) (s : State) : (s.stall p).inbox = s.inbox := rfl
@[simp] theorem State.stall_free (p : Bool) (s : State) : (s.stall p).free = s.free := rfl

@[simp] theorem State.mapHarts_me (f : Hart → Hart) (s : State) : (s.mapHarts f).me = f s.me := rfl
@[simp] theorem State.mapHarts_ring (f : Hart → Hart) (s : State) : (s.mapHarts f).ring = s.ring.map f := rfl
@[simp] theorem State.mapHarts_todo (f : Hart → Hart) (s : State) : (s.mapHarts f).todo = s.todo := rfl
@[simp] theorem State.mapHarts_opened (f : Hart → Hart) (s : State) : (s.mapHarts f).opened = s.opened := rfl
@[simp] theorem State.mapHarts_hub (f : Hart → Hart) (s : State) : (s.mapHarts f).hub = s.hub := rfl
@[simp] theorem State.mapHarts_inbox (f : Hart → Hart) (s : State) : (s.mapHarts f).inbox = s.inbox := rfl
@[simp] theorem State.mapHarts_free (f : Hart → Hart) (s : State) : (s.mapHarts f).free = s.free := rfl

@[simp] theorem State.mapWhere_me (p : Hart → Bool) (f : Hart → Hart) (s : State) :
    (s.mapWhere p f).me = if p s.me then f s.me else s.me := rfl
@[simp] theorem State.mapWhere_ring (p : Hart → Bool) (f : Hart → Hart) (s : State) :
    (s.mapWhere p f).ring = s.ring.map (fun h => if p h then f h else h) := rfl
@[simp] theorem State.mapWhere_todo (p : Hart → Bool) (f : Hart → Hart) (s : State) :
    (s.mapWhere p f).todo = s.todo := rfl
@[simp] theorem State.mapWhere_opened (p : Hart → Bool) (f : Hart → Hart) (s : State) :
    (s.mapWhere p f).opened = s.opened := rfl
@[simp] theorem State.mapWhere_hub (p : Hart → Bool) (f : Hart → Hart) (s : State) :
    (s.mapWhere p f).hub = s.hub := rfl
@[simp] theorem State.mapWhere_inbox (p : Hart → Bool) (f : Hart → Hart) (s : State) :
    (s.mapWhere p f).inbox = s.inbox := rfl
@[simp] theorem State.mapWhere_free (p : Hart → Bool) (f : Hart → Hart) (s : State) :
    (s.mapWhere p f).free = s.free := rfl

@[simp] theorem State.takeTrap_me (t : TrapInfo) (s : State) :
    (s.takeTrap t).me = s.me.trapEntry t (s.titer s.me t.tpc.toNat t.slot.toList) := by
  unfold State.takeTrap; rfl
@[simp] theorem State.takeTrap_ring (t : TrapInfo) (s : State) : (s.takeTrap t).ring = s.ring := by
  unfold State.takeTrap; rfl
@[simp] theorem State.takeTrap_todo (t : TrapInfo) (s : State) : (s.takeTrap t).todo = s.todo := by
  unfold State.takeTrap; rfl
@[simp] theorem State.takeTrap_opened (t : TrapInfo) (s : State) : (s.takeTrap t).opened = s.opened := by
  unfold State.takeTrap; rfl
@[simp] theorem State.takeTrap_inbox (t : TrapInfo) (s : State) : (s.takeTrap t).inbox = s.inbox := by
  unfold State.takeTrap; rfl
@[simp] theorem State.takeTrap_free (t : TrapInfo) (s : State) : (s.takeTrap t).free = s.free := by
  unfold State.takeTrap; rfl

@[simp] theorem State.takeTrap_hub_clk (t : TrapInfo) (s : State) : (s.takeTrap t).hub.clk = s.hub.clk := by
  unfold State.takeTrap; rfl
@[simp] theorem State.takeTrap_hub_base (t : TrapInfo) (s : State) : (s.takeTrap t).hub.base = s.hub.base := by
  unfold State.takeTrap; rfl
@[simp] theorem State.takeTrap_hub_mem (t : TrapInfo) (s : State) : (s.takeTrap t).hub.mem = s.hub.mem := by
  unfold State.takeTrap; rfl
@[simp] theorem State.takeTrap_hub_lines (t : TrapInfo) (s : State) :
    (s.takeTrap t).hub.lines = s.hub.lines := by
  unfold State.takeTrap; rfl
@[simp] theorem State.takeTrap_hub_versions (t : TrapInfo) (s : State) :
    (s.takeTrap t).hub.versions = s.hub.versions := by
  unfold State.takeTrap; rfl
@[simp] theorem State.takeTrap_hub_launches (t : TrapInfo) (s : State) :
    (s.takeTrap t).hub.launches = s.hub.launches := by
  unfold State.takeTrap; rfl
@[simp] theorem State.takeTrap_hub_parts (t : TrapInfo) (s : State) :
    (s.takeTrap t).hub.parts = s.hub.parts := by
  unfold State.takeTrap; rfl
@[simp] theorem State.takeTrap_hub_mon (t : TrapInfo) (s : State) : (s.takeTrap t).hub.mon = s.hub.mon := by
  unfold State.takeTrap; rfl
@[simp] theorem State.takeTrap_hub_queues (t : TrapInfo) (s : State) :
    (s.takeTrap t).hub.queues = s.hub.queues := by
  unfold State.takeTrap; rfl
@[simp] theorem State.stall_me_id (p : Bool) (s : State) : (s.stall p).me.id = s.me.id := rfl
@[simp] theorem State.stall_me_place (p : Bool) (s : State) : (s.stall p).me.place = s.me.place := rfl
@[simp] theorem State.stall_me_regs (p : Bool) (s : State) : (s.stall p).me.regs = s.me.regs := rfl
@[simp] theorem State.stall_me_spr (p : Bool) (s : State) : (s.stall p).me.spr = s.me.spr := rfl
@[simp] theorem State.stall_me_sched (p : Bool) (s : State) : (s.stall p).me.sched = s.me.sched := rfl
@[simp] theorem State.stall_me_units (p : Bool) (s : State) : (s.stall p).me.units = s.me.units := rfl
@[simp] theorem State.stall_me_latched (p : Bool) (s : State) : (s.stall p).me.latched = s.me.latched := rfl
@[simp] theorem State.stall_me_out (p : Bool) (s : State) : (s.stall p).me.iss.out = .stalled p := rfl
@[simp] theorem State.freezeFor_me_id (w : Want) (s : State) : (s.freezeFor w).me.id = s.me.id := rfl
@[simp] theorem State.freezeFor_me_place (w : Want) (s : State) : (s.freezeFor w).me.place = s.me.place := rfl
@[simp] theorem State.freezeFor_me_regs (w : Want) (s : State) : (s.freezeFor w).me.regs = s.me.regs := rfl
@[simp] theorem State.freezeFor_me_spr (w : Want) (s : State) : (s.freezeFor w).me.spr = s.me.spr := rfl
@[simp] theorem State.freezeFor_me_ctl (w : Want) (s : State) : (s.freezeFor w).me.ctl = s.me.ctl := rfl
@[simp] theorem State.freezeFor_me_sched (w : Want) (s : State) : (s.freezeFor w).me.sched = s.me.sched := rfl
@[simp] theorem State.freezeFor_me_units (w : Want) (s : State) : (s.freezeFor w).me.units = s.me.units := rfl
@[simp] theorem State.freezeFor_me_latched (w : Want) (s : State) :
    (s.freezeFor w).me.latched = s.me.latched := rfl
@[simp] theorem State.freezeFor_me_out (w : Want) (s : State) : (s.freezeFor w).me.iss.out = .frozen := rfl

/-! ### The hub -/

@[simp] theorem Hub.setPart_clk (p : Nat) (f : PartRegs → PartRegs) (h : Hub) :
    (h.setPart p f).clk = h.clk := rfl
@[simp] theorem Hub.setPart_base (p : Nat) (f : PartRegs → PartRegs) (h : Hub) :
    (h.setPart p f).base = h.base := rfl
@[simp] theorem Hub.setPart_mem (p : Nat) (f : PartRegs → PartRegs) (h : Hub) :
    (h.setPart p f).mem = h.mem := rfl
@[simp] theorem Hub.setPart_lines (p : Nat) (f : PartRegs → PartRegs) (h : Hub) :
    (h.setPart p f).lines = h.lines := rfl
@[simp] theorem Hub.setPart_mon (p : Nat) (f : PartRegs → PartRegs) (h : Hub) :
    (h.setPart p f).mon = h.mon := rfl
@[simp] theorem Hub.setPart_queues (p : Nat) (f : PartRegs → PartRegs) (h : Hub) :
    (h.setPart p f).queues = h.queues := rfl
@[simp] theorem Hub.setPart_launches (p : Nat) (f : PartRegs → PartRegs) (h : Hub) :
    (h.setPart p f).launches = h.launches := rfl
@[simp] theorem Hub.setPart_isl (p : Nat) (f : PartRegs → PartRegs) (h : Hub) :
    (h.setPart p f).isl = h.isl := rfl
@[simp] theorem Hub.setPart_power (p : Nat) (f : PartRegs → PartRegs) (h : Hub) :
    (h.setPart p f).power = h.power := rfl

/-- The registers of a partition after a change of those of one. -/
@[simp] theorem Hub.part_setPart (p q : Nat) (f : PartRegs → PartRegs) (h : Hub) :
    (h.setPart p f).part q = if p % 16 = q % 16 then f (h.part p) else h.part q := by
  simp [Hub.setPart, Hub.part, Vector.getElem_set]

/-! ### Registers -/

@[simp] theorem Regs.setS_g (r : Regs) (n : BitVec 6) (v : Word) : (r.setS n v).g = r.g := by
  unfold Regs.setS; split <;> rfl
@[simp] theorem Regs.setS_p (r : Regs) (n : BitVec 6) (v : Word) : (r.setS n v).p = r.p := by
  unfold Regs.setS; split <;> rfl
@[simp] theorem Regs.setS_m (r : Regs) (n : BitVec 6) (v : Word) : (r.setS n v).m = r.m := by
  unfold Regs.setS; split <;> rfl
@[simp] theorem Regs.setS_space (r : Regs) (n : BitVec 6) (v : Word) : (r.setS n v).space = r.space := by
  unfold Regs.setS; split <;> rfl
@[simp] theorem Regs.setG_s (r : Regs) (n : BitVec 5) (v : Word) : (r.setG n v).s = r.s := rfl
@[simp] theorem Regs.setG_p (r : Regs) (n : BitVec 5) (v : Word) : (r.setG n v).p = r.p := rfl
@[simp] theorem Regs.setG_m (r : Regs) (n : BitVec 5) (v : Word) : (r.setG n v).m = r.m := rfl
@[simp] theorem Regs.setG_space (r : Regs) (n : BitVec 5) (v : Word) : (r.setG n v).space = r.space := rfl
@[simp] theorem Regs.setP_s (r : Regs) (n : BitVec 3) (v : Bool) : (r.setP n v).s = r.s := by
  unfold Regs.setP; split <;> rfl
@[simp] theorem Regs.setP_g (r : Regs) (n : BitVec 3) (v : Bool) : (r.setP n v).g = r.g := by
  unfold Regs.setP; split <;> rfl
@[simp] theorem Regs.setP_m (r : Regs) (n : BitVec 3) (v : Bool) : (r.setP n v).m = r.m := by
  unfold Regs.setP; split <;> rfl
@[simp] theorem Regs.setP_space (r : Regs) (n : BitVec 3) (v : Bool) : (r.setP n v).space = r.space := by
  unfold Regs.setP; split <;> rfl
@[simp] theorem Regs.setM_s (r : Regs) (n : BitVec 3) (v : Word) : (r.setM n v).s = r.s := by
  unfold Regs.setM; split <;> rfl
@[simp] theorem Regs.setM_g (r : Regs) (n : BitVec 3) (v : Word) : (r.setM n v).g = r.g := by
  unfold Regs.setM; split <;> rfl
@[simp] theorem Regs.setM_p (r : Regs) (n : BitVec 3) (v : Word) : (r.setM n v).p = r.p := by
  unfold Regs.setM; split <;> rfl
@[simp] theorem Regs.setM_space (r : Regs) (n : BitVec 3) (v : Word) : (r.setM n v).space = r.space := by
  unfold Regs.setM; split <;> rfl
@[simp] theorem Regs.setUnits_s (r : Regs) (ws : List (Nat × BitVec 32)) : (r.setUnits ws).s = r.s := rfl
@[simp] theorem Regs.setUnits_g (r : Regs) (ws : List (Nat × BitVec 32)) : (r.setUnits ws).g = r.g := rfl
@[simp] theorem Regs.setUnits_p (r : Regs) (ws : List (Nat × BitVec 32)) : (r.setUnits ws).p = r.p := rfl
@[simp] theorem Regs.setUnits_m (r : Regs) (ws : List (Nat × BitVec 32)) : (r.setUnits ws).m = r.m := rfl
@[simp] theorem Regs.setUnits_space (r : Regs) (ws : List (Nat × BitVec 32)) :
    (r.setUnits ws).space = NMap.putAll 0#32 ws r.space := rfl

@[simp] theorem Regs.sReg_zero (r : Regs) : r.sReg 0#6 = 0#64 := rfl
@[simp] theorem Regs.pReg_zero (r : Regs) : r.pReg 0#3 = true := rfl
@[simp] theorem Regs.mReg_zero (r : Regs) : r.mReg 0#3 = BitVec.allOnes 64 := rfl

/-- Reading a scalar register after a write: `s0` keeps reading 0 (R71). -/
theorem Regs.sReg_setS (r : Regs) (n e : BitVec 6) (v : Word) :
    (r.setS n v).sReg e = if e = 0#6 then 0#64 else if n = e then v else r.sReg e := by
  unfold Regs.sReg Regs.setS
  by_cases he : e = 0#6 <;> by_cases hn : n = 0#6 <;> by_cases h : n = e <;>
    simp_all [BitVec.toNat_inj]

/-- Reading a predicate after a write: `p0` keeps reading 1 (R71). -/
theorem Regs.pReg_setP (r : Regs) (n e : BitVec 3) (v : Bool) :
    (r.setP n v).pReg e = if e = 0#3 then true else if n = e then v else r.pReg e := by
  unfold Regs.pReg Regs.setP
  by_cases he : e = 0#3 <;> by_cases hn : n = 0#3 <;> by_cases h : n = e <;>
    simp_all [BitVec.toNat_inj]

/-- Reading a mask register after a write: `m0` keeps reading all ones (R71). -/
theorem Regs.mReg_setM (r : Regs) (n e : BitVec 3) (v : Word) :
    (r.setM n v).mReg e = if e = 0#3 then BitVec.allOnes 64 else if n = e then v else r.mReg e := by
  unfold Regs.mReg Regs.setM
  by_cases he : e = 0#3 <;> by_cases hn : n = 0#3 <;> by_cases h : n = e <;>
    simp_all [BitVec.toNat_inj]

/-- Reading a uniform register after a write. -/
theorem Regs.gReg_setG (r : Regs) (n e : BitVec 5) (v : Word) :
    (r.setG n v).gReg e = if n = e then v else r.gReg e := by
  unfold Regs.gReg Regs.setG
  by_cases h : n = e <;> simp_all [BitVec.toNat_inj]

/-- An event that enters a queue is pending. -/
theorem Queue.mem_enter (e : QEvent) (x : Queue) : e ∈ (x.enter e).pend := by
  unfold Queue.enter
  split <;> simp_all

/-- One that has been taken is pending no more, and the others stay. -/
@[simp] theorem Queue.mem_took (e f : QEvent) (x : Queue) : f ∈ (x.took e).pend ↔ f ∈ x.pend ∧ f ≠ e := by
  simp [Queue.took]

end Sys2Proof.Machine
end

