-- ==== Sys2Proof/Laws/Ops.lean ====
section
/-! SUPPORT. For each shared operation, once, what it can do. -/

namespace Sys2Proof.Machine

/-! ### Choosing the acting hart -/

/-- A hart taken out of a list has the name that was asked for, and the others stay, in their order. -/
theorem takeHart_spec {h : HartId} {x : Hart} : ∀ {l r : List Hart}, takeHart h l = some (x, r) →
    x.id = h ∧ (x :: r).Perm l
  | [], _, e => by simp [takeHart] at e
  | y :: l, r, e => by
    unfold takeHart at e
    split at e
    · rename_i hy
      simp only [Option.some.injEq, Prod.mk.injEq] at e
      obtain ⟨rfl, rfl⟩ := e
      exact ⟨hy, List.Perm.refl _⟩
    · split at e
      · simp at e
      · rename_i z r' hz
        simp only [Option.some.injEq, Prod.mk.injEq] at e
        obtain ⟨rfl, rfl⟩ := e
        obtain ⟨hid, hp⟩ := takeHart_spec hz
        exact ⟨hid, (List.Perm.swap y z r').trans (hp.cons y)⟩

/-- `focus` makes the named hart the acting one; the harts are the same, and so is everything else. -/
theorem State.focus_spec {h : HartId} {s u : State} (e : s.focus h = some u) :
    u.me.id = h ∧ (u.me :: u.ring).Perm (s.me :: s.ring) ∧ u.hub = s.hub ∧ u.todo = s.todo ∧
      u.inbox = s.inbox ∧ u.free = s.free := by
  unfold State.focus at e
  split at e
  · rename_i hid
    obtain rfl := Option.some.inj e
    exact ⟨hid, List.Perm.refl _, rfl, rfl, rfl, rfl⟩
  · split at e
    · simp at e
    · rename_i x r hx
      obtain rfl := Option.some.inj e
      obtain ⟨hid, hp⟩ := takeHart_spec hx
      exact ⟨hid, (List.Perm.swap s.me x r).trans (hp.cons s.me), rfl, rfl, rfl, rfl⟩

/-- The acting hart is focused by its own name. -/
@[simp] theorem State.focus_self (s : State) : s.focus s.me.id = some s := by
  simp [State.focus]

/-! ### Guards and checks -/

/-- An operation whose guard holds is its meaning. -/
theorem guarded_of_holds {g : Guard} {k : Sem} {s : State} (h : guardHolds g s.me = true) :
    guarded g k s = k s := by
  simp [guarded, h]

/-- An operation whose guard does not hold only issues. -/
theorem guarded_of_not {g : Guard} {k : Sem} {s : State} (h : guardHolds g s.me = false) :
    guarded g k s = .next s.ok := by
  simp [guarded, h]

/-- The checks of a slot that only treads have. -/
theorem treadSlot_spec (i : Instr) (k : Sem) (s : State) :
    treadSlot i k s = k s ∧ s.me.isCore = false ∧ kernelCheck s.me i = none ∨
    ∃ d, treadSlot i k s = s.illegal d ∧ (s.me.isCore = true ∨ kernelCheck s.me i = some d) := by
  unfold treadSlot
  cases hc : s.me.isCore
  · cases hk : kernelCheck s.me i
    · exact .inl ⟨rfl, rfl, rfl⟩
    · exact .inr ⟨_, rfl, .inr rfl⟩
  · exact .inr ⟨2, by simp, .inl rfl⟩

/-- The checks of a slot that every hart has. -/
theorem kernelOk_of_none {i : Instr} {k : Sem} {s : State} (h : kernelCheck s.me i = none) :
    kernelOk i k s = k s := by
  simp [kernelOk, h]

/-! ### Results -/

/-- Every register write answers a next state, in which memory and the rest of the package are as before. -/
theorem State.writeG_spec (L : Nat) (d : BitVec 5) (v : Word) (s : State) :
    ∃ t, s.writeG L d v = .next t ∧ t.hub.mem = s.hub.mem ∧ t.hub.clk = s.hub.clk ∧ t.todo = s.todo ∧
      t.inbox = s.inbox ∧ t.free = s.free := by
  unfold State.writeG
  split
  · exact ⟨_, rfl, by simp⟩
  · split
    · exact ⟨_, rfl, by simp [State.trapS]⟩
    · split
      · exact ⟨_, rfl, by simp [State.broadcastG]⟩
      · exact ⟨_, rfl, by simp⟩

/-- A result for field D answers a next state. -/
theorem State.writeD_spec (L : Nat) (ud : Bool) (d : BitVec 6) (v : Word) (s : State) :
    ∃ t, s.writeD L ud d v = .next t ∧ t.hub.mem = s.hub.mem ∧ t.hub.clk = s.hub.clk ∧ t.todo = s.todo ∧
      t.inbox = s.inbox ∧ t.free = s.free := by
  unfold State.writeD
  split
  · exact State.writeG_spec ..
  · exact ⟨_, rfl, by simp⟩

/-- A result for a vector register is one result in flight, or the trap of R167 and R179. -/
theorem State.writeV_spec (L : Nat) (d : BitVec 6) (ws : List (Nat × BitVec 32)) (s : State) :
    s.writeV L d ws = s.illegal 9 ∧ s.me.vecWriteBad d.toNat (ws.map (·.1)) = true ∨
    s.writeV L d ws = .next (s.issue L 5 d.toNat [.space (s.me.shadowed d.toNat) ws]) ∧
      s.me.vecWriteBad d.toNat (ws.map (·.1)) = false := by
  unfold State.writeV
  split
  · rename_i h
    exact .inl ⟨rfl, h⟩
  · rename_i h
    exact .inr ⟨rfl, by simpa using h⟩

/-! ### Traps -/

/-- The illegal-instruction trap answers a next state: the acting hart is in the handler, and memory, the other
harts and the registers are as before. -/
theorem State.illegal_spec (d : Nat) (s : State) :
    ∃ t, s.illegal d = .next t ∧ t.ring = s.ring ∧ t.hub.mem = s.hub.mem ∧ t.me.regs = s.me.regs ∧
      t.me.units = s.me.units := by
  exact ⟨_, rfl, by simp [State.trapS]⟩

/-- So does the privileged-operation trap. -/
theorem State.privileged_spec (s : State) :
    ∃ t, s.privileged = .next t ∧ t.ring = s.ring ∧ t.hub.mem = s.hub.mem ∧ t.me.regs = s.me.regs ∧
      t.me.units = s.me.units := by
  exact ⟨_, rfl, by simp⟩

/-- A step of a trap keeps the other fields of the package. -/
theorem State.takeTrap_frame (t : TrapInfo) (s : State) :
    (s.takeTrap t).me.regs = s.me.regs ∧ (s.takeTrap t).me.units = s.me.units ∧
      (s.takeTrap t).ring = s.ring ∧ (s.takeTrap t).hub.mem = s.hub.mem ∧
      (s.takeTrap t).hub.lines = s.hub.lines := by
  simp

end Sys2Proof.Machine
end

