-- ==== Sys2Proof/Tests/Slice0.lean ====
section
/-! SUPPORT. Tests on fixed values, and the witnesses that the premises of the statements can be met. Words and
bytes come from the worked encodings of the spec, results from hand calculation by its rules. -/

-- one theorem after another: each evaluation takes a thread and its stack
set_option Elab.async false

open Sys2Proof Sys2Proof.Machine

namespace Sys2Proof.Tests

/-! ### Decoding: bytes that the spec writes out -/

/-- The instruction slots that bytes at offset 0 of a line decode to on a tread. -/
def reads (bs : List Byte) : Fetched := decodeBundle false (fun _ => none) 0 bs

/-- No guard, not marked K. -/
def gk0 : GK := ⟨⟨false, 0⟩, false⟩
/-- No guard, marked K. -/
def gk1 : GK := ⟨⟨false, 0⟩, true⟩
/-- No guard. -/
def g0 : Guard := ⟨false, 0⟩
/-- No wait and no signal. -/
def ws0 : WaitSig := ⟨0, 0, 0, 0⟩

/-- R379, R380. -/
theorem test_decode_traps :
    reads [0x01, 0x60, 0x03, 0x00, 0x00] = .bundle 5 [(.ct, .eret ⟨gk0⟩)] ∧
    reads [0x01, 0x00, 0x2b, 0x00, 0x00] = .bundle 5 [(.ct, .trap ⟨gk0, 5⟩)] ∧
    reads [0x01, 0x40, 0x03, 0x00, 0x00] = .bundle 5 [(.ct, .bkpt ⟨gk0, 0⟩)] := by decide +kernel

/-- R341. -/
theorem test_decode_system :
    reads [0x04, 0x20, 0x0e, 0x14, 0x21] = .bundle 5 [(.sb, .wrsr ⟨gk0, 0x21, 5, 0⟩)] ∧
    reads [0x04, 0x40, 0x0e, 0x10, 0x05] = .bundle 5 [(.sb, .tlbinv ⟨gk0, false, false, 5, 4, 0⟩)] ∧
    reads [0x04, 0x60, 0x0e, 0x00, 0x00] = .bundle 5 [(.sb, .tlbsync ⟨gk0, false, false, 0, 0, 0⟩)] ∧
    reads [0x01, 0x20, 0x3b, 0x00, 0x00] = .bundle 5 [(.ct, .sys ⟨gk0, 7⟩)] := by decide +kernel

/-- After R103: `rdsr s20, RANK` in SB; the same word in SA is an unassigned opcode. -/
theorem test_decode_row14_is_sb_only :
    reads [0x04, 0x00, 0x4e, 0x01, 0x03] = .bundle 5 [(.sb, .rdsr ⟨gk0, 3, 0, 20⟩)] ∧
    reads [0x02, 0x00, 0x4e, 0x01, 0x03] = .illegal 5 0x03 (some .sa) := by decide +kernel

/-- R130: a guarded branch 14 bytes back. -/
theorem test_decode_branch :
    reads [0x01, 0x41, 0x90, 0xff, 0xff] = .bundle 5 [(.ct, .br ⟨⟨⟨false, 1⟩, false⟩, 0x1ffff2⟩)] := by
  decide +kernel

/-- Section 13: `mul`, `movi.k` and a `hold` in one bundle of 13 bytes. -/
theorem test_decode_three_slots :
    reads [0x07, 0x20, 0x10, 0x00, 0x00, 0x00, 0x71, 0x28, 0x0a, 0x10, 0x65, 0x80, 0x00] =
      .bundle 13 [(.ct, .hold ⟨gk0, 2⟩), (.sa, .mul ⟨gk0, false, false, 10, 10, 7⟩),
        (.sb, .movi ⟨gk1, 32, 6⟩)] := by decide +kernel

/-- Section 19: `ld.wu`, `add` on uniform registers and a `hold` in one bundle of 15 bytes. -/
theorem test_decode_load_bundle :
    reads [0x0b, 0x20, 0x68, 0x00, 0x00, 0x00, 0x00, 0x41, 0xc3, 0x60, 0x1c, 0x10, 0x20, 0x00, 0x00] =
      .bundle 15 [(.ct, .hold ⟨gk0, 13⟩), (.sa, .add ⟨gk0, true, true, 3, 16, 16⟩),
        (.ls, .ldWu ⟨g0, 0, true, false, 0, 0, 16, 7⟩)] := by decide +kernel

/-- Section 14: a guarded store, and `sel` on `p3`. -/
theorem test_decode_store_and_select :
    reads [0x08, 0xb5, 0x24, 0x16, 0x00, 0x00, 0x00] =
      .bundle 7 [(.ls, .stD ⟨⟨false, 5⟩, 0, false, false, 0, 0, 22, 9⟩)] ∧
    reads [0x02, 0x60, 0x23, 0x45, 0x17] = .bundle 5 [(.sa, .sel 3 ⟨gk0, false, false, 23, 17, 18⟩)] := by
  decide +kernel

/-- Section 9: an atomic, and a refutation. -/
theorem test_decode_atomic_and_refute :
    reads [0x08, 0x10, 0x16, 0x84, 0x90, 0x01, 0x01] =
      .bundle 7 [(.ls, .amoCas ⟨g0, 16, 6, false, true, 0, 2, 4, 5⟩)] ∧
    reads [0x01, 0x60, 0x3a, 0x12, 0x80] =
      .bundle 5 [(.ct, .hypResolveRefute ⟨gk0, true, 0, 9, 7⟩)] := by decide +kernel

/-- Section 10: `mon.wait`, and `hyp.enter` beside a `movi`. -/
theorem test_decode_hypothesis_bundles :
    reads [0x08, 0x80, 0x0e, 0x40, 0x30, 0x00, 0x30] =
      .bundle 7 [(.ls, .monWait ⟨g0, 0x300, 0, true, true, 0, 1, 0, 3⟩)] ∧
    reads [0x03, 0x20, 0x5a, 0x1a, 0x00, 0x00, 0xe5, 0x84, 0x00] =
      .bundle 9 [(.ct, .hypEnter ⟨gk0, false, 0, 13, 11⟩), (.sa, .movi ⟨gk0, 33, 14⟩)] := by decide +kernel

/-- R96 and R151: vector words. -/
theorem test_decode_vector :
    reads [0x10, 0x20, 0x80, 0x00, 0x06, 0x20, 0x00] =
      .bundle 7 [(.va, .vmul ⟨g0, false, 0, false, false, 1, 0, 3, 0, 4, 0⟩)] ∧
    reads [0x10, 0x80, 0xa2, 0x10, 0x00, 0x60, 0x00] =
      .bundle 7 [(.va, .vredAdd ⟨g0, false, 0, false, false, 3, 0, 0, 2, 5, 0⟩)] ∧
    reads [0x11, 0x20, 0x58, 0x00, 0x00, 0x10, 0x43, 0x28, 0x00, 0x20, 0x00] =
      .bundle 11 [(.ct, .hold ⟨gk0, 11⟩), (.va, .accept ⟨g0, false, 0, false, false, 1, 0, 0, 5, 2, 0⟩)] := by
  decide +kernel

/-- R98: one MX word to the bit. -/
theorem test_decode_matrix :
    reads [0x40, 0x10, 0x88, 0x75, 0xc6, 0xc1, 0x80, 0x90, 0x10] =
      .bundle 9 [(.mx, .mmaQ ⟨g0, ⟨1, 9, 2, 3⟩, 7, 6, 7, false, 5, 8, 2⟩)] := by decide +kernel

/-- R100: copies and a group reduction. -/
theorem test_decode_engine :
    reads [0x80, 0x00, 0x30, 0xca, 0xd2, 0x00, 0x00, 0x00, 0x00] =
      .bundle 9 [(.ec, .copyGv ⟨g0, ws0, 0, 13, 11, 10, 12⟩)] ∧
    reads [0x80, 0xc0, 0x20, 0x47, 0x01, 0x00, 0x00, 0x00, 0x00] =
      .bundle 9 [(.ec, .grpRed ⟨g0, ws0, 0, 0, 5, 7, 8⟩)] ∧
    reads [0x86, 0xe0, 0xc1, 0x10, 0x80, 0xe0, 0xd1, 0x18, 0x80, 0x40, 0x2c, 0xc4, 0x00, 0x00, 0x00, 0x00,
        0x10] =
      .bundle 17 [(.sa, .mov ⟨gk0, true, false, 0, 4, 12⟩), (.sb, .mov ⟨gk0, true, false, 0, 6, 13⟩),
        (.ec, .copyTile ⟨g0, ⟨1, 0, 0, 0⟩, 0, 0, 3, 4, 11⟩)] := by decide +kernel

/-- R238: `flush.region.tr [s12+0], s16`. -/
theorem test_decode_flush :
    reads [0x08, 0xa0, 0x02, 0x0c, 0x00, 0x04, 0x00] =
      .bundle 7 [(.ls, .flushRegion ⟨g0, 0, 16, false, false, 0, 0, 12, 0⟩)] := by decide +kernel

/-- R97: `x.bcast.w32 v3, g0`, with B = 2, A = 0, UA = 1, D = 3 and OP 0 under header 0x20. -/
theorem test_decode_transfer :
    decodeSlot .xf (2 ^ 30 + 2 * 2 ^ 23 + 3 * 2 ^ 11) = .ok (.xBcast ⟨gk0, true, false, 2, 0, 3⟩) := by
  decide +kernel

/-- R78: a bundle may not cross the end of its line, and a Newel core has no vector slot (R30). -/
theorem test_decode_header_checks :
    decodeBundle false (fun _ => none) 60 [0x04, 0x00, 0x4e, 0x01] = .illegal 5 0x01 none ∧
    decodeBundle true (fun _ => none) 0 [0x10, 0x20, 0x80, 0x00, 0x06, 0x20, 0x00] =
      .illegal 7 0x02 (some .va) := by decide +kernel

/-- R12: two writers of one register in a bundle; `s0` counts for none. -/
theorem test_decode_clash :
    clash [(.sa, .movi ⟨gk0, 1, 3⟩), (.sb, .movi ⟨gk0, 2, 3⟩)] = true ∧
    clash [(.sa, .movi ⟨gk0, 1, 0⟩), (.sb, .movi ⟨gk0, 2, 0⟩)] = false := by decide +kernel

/-! ### Well-formedness: one ill-formed term for each check -/

/-- Fields that must be zero (R86, detail code 0x04): one term of each shape. -/
theorem test_reserved_fields_are_refused :
    ([.brR ⟨gk0, true, 0, 0, 1⟩, .barArrive ⟨gk0, false, 0, 0, 1⟩, .barWait ⟨gk0, true, 0, 0, 0⟩,
      .hypOpen ⟨gk0, false, 1, 0, 0⟩, .hypResolveConfirm ⟨gk0, true, 0, 0, 0⟩,
      .hypResolveRefute ⟨gk0, false, 0, 0, 0⟩, .mouldOpen ⟨gk0, false, 0, 1, 8⟩,
      .mov ⟨gk0, false, false, 1, 0, 0⟩, .rdsr ⟨gk0, 3, 1, 0⟩, .wrsr ⟨gk0, 3, 0, 1⟩,
      .tlbinv ⟨gk0, false, false, 0, 0, 1⟩, .tlbsync ⟨gk0, false, false, 0, 1, 0⟩,
      .ldD ⟨g0, 0, false, true, 0, 0, 0, 0⟩, .pf ⟨g0, 0, false, false, 0, 0, 0, 1⟩,
      .vld ⟨g0, 0, false, false, 0, 1, 0, 0⟩, .vst ⟨g0, 0, false, true, 0, 0, 0, 0⟩,
      .tld ⟨g0, 0, 0, false, false, 1, 0, 0, 0⟩, .vgath ⟨g0, 0, 0, false, false, 0, 1, 0, 0⟩,
      .vscat ⟨g0, 0, 0, false, true, 0, 0, 0, 0⟩, .amoAdd ⟨g0, 0, 0, false, false, 1, 0, 0, 0⟩,
      .redAdd ⟨g0, 0, 0, false, false, 0, 0, 0, 1⟩, .fenceScope ⟨g0, 1, 0, false, false, 0, 0, 0, 0⟩,
      .flushRegion ⟨g0, 0, 0, false, true, 0, 0, 0, 0⟩, .vadd ⟨g0, false, 0, false, false, 0, 1, 0, 0, 0, 0⟩,
      .vabs ⟨g0, false, 0, false, false, 0, 0, 1, 0, 0, 0⟩,
      .vmovi ⟨g0, false, 0, false, false, 0, 0, 0, 1, 0, 0⟩,
      .vrng ⟨g0, false, 0, false, false, 0, 0, 0, 1, 0, 0⟩,
      .mand ⟨g0, false, 0, false, false, 0, 1, 0, 0, 0, 0⟩,
      .mnot ⟨g0, false, 0, false, false, 0, 0, 1, 0, 0, 0⟩, .xAny ⟨gk0, false, false, 1, 0, 0⟩,
      .xPass ⟨gk0, false, false, 0, 0, 1⟩, .xRecv ⟨gk0, false, false, 1, 0, 0⟩,
      .mma ⟨g0, ws0, 0, 1, 0, false, 0, 0, 0⟩, .accClr ⟨g0, ws0, 0, 0, 1, false, 0, 0, 0⟩,
      .accLd ⟨g0, ws0, 0, 0, 0, true, 0, 0, 0⟩, .accCvt ⟨g0, ws0, 1, 0, 0, false, 0, 0, 0⟩,
      .latchRel ⟨g0, ws0, 0, 0, 0, false, 0, 0, 1⟩, .omSet ⟨g0, ws0, 0, 0, 0, false, 0, 1, 0⟩,
      .copyGv ⟨g0, ws0, 1, 0, 0, 0, 0⟩, .copyTile ⟨g0, ws0, 2, 0, 0, 0, 0⟩,
      .copyCheck ⟨g0, ws0, 0, 1, 0, 0, 0⟩, .semAdd ⟨g0, ws0, 0, 0, 0, 0, 1⟩,
      .sigWr ⟨g0, ws0, 0, 0, 0, 0, 1⟩, .grpRed ⟨g0, ws0, 8, 0, 0, 0, 0⟩] : List Instr).all
      (fun i => !i.reservedOk && decide (¬WellFormed i)) = true := by decide +kernel

/-- Fields out of their range or class (R86, detail code 0x05): one term of each shape. -/
theorem test_ranges_are_refused :
    ([.mouldOpen ⟨gk0, false, 8, 0, 0⟩, .add ⟨gk0, false, true, 0, 0, 32⟩, .cmpEq ⟨gk0, false, true, 0, 0, 0⟩,
      .cmpiEq ⟨gk0, 0, 0, 8⟩, .shli ⟨gk0, 64, 0, 0⟩, .pand ⟨gk0, true, false, 0, 0, 0⟩,
      .pnot ⟨gk0, false, false, 0, 8, 0⟩, .faddF32 ⟨gk0, true, false, 0, 0, 0⟩,
      .fcmpEqF32 ⟨gk0, false, false, 0, 0, 8⟩, .fcvt ⟨gk0, false, false, 16, 0, 0⟩,
      .rdsr ⟨gk0, 0x13, 0, 0⟩, .ldD ⟨g0, 0, true, false, 0, 0, 32, 0⟩,
      .tld ⟨g0, 0, 0, false, false, 0, 0, 0, 8⟩, .vgath ⟨g0, 0, 0, true, false, 0, 0, 32, 0⟩,
      .amoAdd ⟨g0, 0, 0, false, false, 0, 6, 0, 0⟩, .fenceScope ⟨g0, 0, 0, false, false, 0, 6, 0, 0⟩,
      .monWait ⟨g0, 0, 0, false, false, 0, 4, 0, 0⟩, .vadd ⟨g0, true, 0, false, false, 0, 0, 0, 0, 0, 0⟩,
      .vmin ⟨g0, false, 0, false, false, 0, 0, 0, 0, 0, 3⟩,
      .vcmpEq ⟨g0, false, 0, false, false, 0, 0, 0, 0, 8, 0⟩,
      .vabs ⟨g0, false, 1, false, false, 0, 0, 0, 0, 0, 0⟩, .vand ⟨g0, false, 0, true, false, 0, 0, 0, 0, 0, 4⟩,
      .vsel ⟨g0, false, 0, false, false, 0, 8, 0, 0, 0, 0⟩, .vshl ⟨g0, false, 0, false, false, 0, 0, 0, 0, 0, 0⟩,
      .vshr ⟨g0, false, 0, false, false, 0, 0, 0, 0, 0, 0⟩, .vrcp ⟨g0, false, 0, false, false, 0, 0, 0, 0, 0, 4⟩,
      .vcvt ⟨g0, false, 0, false, false, 0, 0, 10, 0, 0, 0⟩,
      .vquant ⟨g0, false, 0, false, false, 0, 0, 0, 0, 0, 0⟩,
      .vmovi ⟨g0, false, 0, false, false, 0, 0, 2, 0, 0, 6⟩, .vrot ⟨g0, false, 0, false, false, 0, 0, 0, 0, 0, 0⟩,
      .vrng ⟨g0, false, 0, false, false, 0, 0, 0, 0, 0, 1⟩, .accept ⟨g0, false, 0, false, false, 0, 0, 0, 0, 8, 0⟩,
      .mand ⟨g0, false, 0, false, false, 1, 0, 0, 0, 0, 0⟩, .mnot ⟨g0, false, 0, false, false, 0, 0, 0, 8, 0, 0⟩,
      .xBcast ⟨gk0, false, false, 3, 0, 0⟩, .xFirst ⟨gk0, false, false, 8, 0, 0⟩,
      .xLane ⟨gk0, true, false, 0, 0, 0⟩, .xAny ⟨gk0, false, true, 0, 0, 0⟩, .xCnt ⟨gk0, true, false, 0, 0, 0⟩,
      .xPass ⟨gk0, true, false, 0, 0, 0⟩, .mma ⟨g0, ws0, 0, 0, 6, false, 0, 0, 0⟩,
      .mmaQ ⟨g0, ws0, 0, 0, 5, false, 0, 0, 0⟩, .accCvt ⟨g0, ws0, 0, 0, 4, false, 0, 0, 0⟩,
      .copyIdx ⟨g0, ws0, 10, 0, 0, 0, 0⟩, .sigWr ⟨g0, ws0, 2, 0, 0, 0, 0⟩,
      .grpRed ⟨g0, ws0, 3, 0, 0, 0, 0⟩] : List Instr).all
      (fun i => !i.rangeOk && decide (¬WellFormed i)) = true := by decide +kernel

/-- The decoder refuses such words with the detail codes of R103: a `mov` with B = 1, a `shli` by 64. -/
theorem test_decoder_names_the_check :
    decodeSlot .sa (encode (.mov ⟨gk0, false, false, 1, 0, 0⟩)) = .error 0x04 ∧
    decodeSlot .sa (encode (.shli ⟨gk0, 64, 0, 0⟩)) = .error 0x05 ∧ decodeSlot .ct 0x800000e0 = .error 0x04 := by
  decide +kernel

/-! ### Small states -/

/-- A package without the constants of the board, so that states of it can be compared. -/
def hub : Hub :=
  { Hub.zero with
    flash := ⟨[], [], none, none, []⟩, mon := { MonRegs.zero with hbmcap := 64, pwrctl := 0 } }

/-- A running Newel core at level M. -/
def core : State :=
  { me := Hart.coreStart 0 .detached 0x1000 0x2000 0x3000, ring := [], todo := [], opened := false, hub := hub,
    inbox := [], free := 0 }

/-- An attached Press tread of one flight of width 1 at level M, with 64 vectors, 8 tiles and 4 accumulators. -/
def press : State :=
  let h := Hart.zero (.tread 1 0 0) { chip := 0, flight := 0, pos := 0 } .attached 0x1000
  { core with
    me := { h with spr := { h.spr with
      plv := 2, flw := 1, gang := 0x100, prof := 1, vwv := 0x40, vwt := 0x408, vwa := 0x204, svec := 0x3000,
      mvec := 0x2000 } },
    ring := [core.me] }

end Sys2Proof.Tests

/-- A scalar register of the acting hart set. -/
def Sys2Proof.Machine.State.withS (n : BitVec 6) (v : Sys2Proof.Word) (s : State) :
    State :=
  s.modMe (fun h => { h with regs := h.regs.setS n v })

namespace Sys2Proof.Tests

/-- What an outcome gives passes a test. -/
def gives (o : Host.Outcome State Fault Refusal) (p : State → Bool) : Bool :=
  match o with
  | .next t => p t
  | _ => false

theorem gives_next {o : Host.Outcome State Fault Refusal} {p : State → Bool} (h : gives o p = true) :
    ∃ t, o = .next t ∧ p t = true := by
  cases o with
  | next t => exact ⟨t, rfl, h⟩
  | fault r => simp [gives] at h
  | refused r => simp [gives] at h

/-- The value that the newest result in flight of the acting hart brings, and its latency. -/
def newest (s : State) : Option (Nat × Nat × Nat × Option (List Eff)) :=
  s.me.sched.pipe.getLast?.map (fun p => (p.left, p.kind, p.reg, p.effs))

/-! ### Steps -/

/-- At reset a step runs the instruction that stands where the core fetches: `movi s6, 32` (section 13); zeros
follow it, a line pad (R79). -/
theorem test_step_runs_word :
    gives (step (State.reset.withFetchWord 32 0x00806510)) (fun t =>
      t.me.regs.sReg 6 == 32 && t.me.ctl.pc == 64) = true := by decide +kernel

/-- `sys 7` (R341) ends in the handler with code 3, number 7 and the address of the next bundle. -/
theorem test_step_sys :
    gives (step (State.reset.withFetchWord 32 0x00003b20)) (fun t =>
      t.me.spr.tcause == 0x8000703 && t.me.spr.tpc == 64) = true := by decide +kernel

/-- R138: four `movsh` after a `movi`; the step of the third of them. -/
theorem test_movsh :
    newest (match exec (.movsh ⟨gk0, 0x26af, 8⟩) (core.withS 8 0x12345678) with | .next t => t | _ => core) =
      some (1, 1, 8, some [.s 8 0x48d159e26af]) := by decide +kernel

/-- R136: −7 divided by 2 is −3, remainder −1; the overflow case gives −2⁶³. -/
theorem test_division :
    divS (BitVec.ofInt 64 (-7)) 2 = BitVec.ofInt 64 (-3) ∧ remS (BitVec.ofInt 64 (-7)) 2 = BitVec.ofInt 64 (-1) ∧
    divS (BitVec.ofInt 64 (-2 ^ 63)) (BitVec.ofInt 64 (-1)) = BitVec.ofInt 64 (-2 ^ 63) ∧
    remU 7 0 = 7 := by decide +kernel

/-- R137: the field of 8 bits at 60 of all ones, sign- and zero-extended, and inserted at the top. -/
theorem test_bit_fields :
    bfxVal (BitVec.ofInt 64 (-1)) 0x73c = BitVec.ofInt 64 (-1) ∧ bfxuVal (BitVec.ofInt 64 (-1)) 0x73c = 15 ∧
    bfiVal 0x25 0x73c 0 = 0x5000000000000000 := by decide +kernel

/-- R138: counts and the byte reversal. -/
theorem test_counts :
    clzVal 1 = 63 ∧ clzVal 0 = 64 ∧ ctzVal 8 = 3 ∧ ctzVal 0 = 64 ∧
    bswapVal 0x0102030405060708 = 0x0807060504030201 := by decide +kernel

/-- R140: 1.5 + 0.5 in FP32, the square root of −0, and 0 × ∞ + NaN. -/
theorem test_float :
    fp32.enc .rne (FVal.add .rne (fp32.val 0x3fc00000) (fp32.val 0x3f000000)) = 0x40000000 ∧
    fp32.enc .rne (fp32.val 0x80000000).sqrt = 0x80000000 ∧
    fp32.enc .rne (FVal.fma .rne (fp32.val 0) (fp32.val 0x7f800000) (fp32.val 0x7fc00000)) = 0x7fc00000 := by
  decide +kernel

/-- R71: `s0` reads 0 after a write, and R11: a result one cycle from landing lands. -/
theorem test_landing :
    (State.endCycle (core.withResult 1 1 3 [.s 3 9])).me.regs.sReg 3 = 9 ∧
    (State.endCycle (core.withResult 2 1 3 [.s 3 9])).me.regs.sReg 3 = 0 := by decide +kernel

/-- R85: an increment, a decrement below zero and a set above the range. -/
theorem test_semaphore :
    semApply 65535 [⟨0, 0, 1, 0, false⟩] = 65535 ∧ semApply 3 [⟨0, 1, 5, 0, false⟩] = 0 ∧
    semApply 3 [⟨0, 2, 70000, 0, false⟩] = 65535 := by decide +kernel

/-! ### Witnesses: reset, decoding, stepping -/

/-- The line ends with the bundle. -/
theorem witness_DecodeReadsBackEncode :
    let i := Instr.movi ⟨gk0, 8192, 63⟩
    let chk : Instr → Option Nat := fun _ => none
    i.isOp = true ∧ WellFormed i ∧ chk i = none ∧ (Slot.sb = i.slot ∨ Slot.sb = .sa) ∧
      (Slot.sa = i.slot ∨ (Slot.sa = .sa ∧ i.slot = .sb ∧ encode i / 32 % 128 < 112)) ∧
      59 + 1 + Slot.sb.size ≤ 64 ∧ decodeBundle true chk 59 (0x04#8 :: toBytes 4 (encode i)) = .bundle 5 [(.sb, i)] := by
  decide +kernel

/-- The state in which core 0 runs `movi s6, 32`. -/
def atMovi : State := State.reset.withFetchWord 32 0x00806510

theorem witness_StepRunsDecodedBundle_at : CoreAtBundle 0 [] atMovi := by
  unfold CoreAtBundle
  decide +kernel

/-- What `exec` is applied to there. -/
def preparedMovi : State :=
  State.prep ⟨atMovi.me.ctl.pc, 5, 1, .sb, .movi ⟨gk1, 32, 6⟩⟩
    ((atMovi.modMe (Hart.raiseLt atMovi.hub.base)).modMe (Hart.setOut .ok))

theorem witness_StepRunsDecodedBundle :
    atMovi.me.bundleAt atMovi.me.ctl.pc atMovi.me.bundleBytes = .bundle 5 [(.sb, .movi ⟨gk1, 32, 6⟩)] ∧
    atMovi.me.interlocked [⟨atMovi.me.ctl.pc, 5, 1, .sb, .movi ⟨gk1, 32, 6⟩⟩] = false ∧
    gives (exec (.movi ⟨gk1, 32, 6⟩) preparedMovi) (fun t =>
      t.me.iss.out == .ok && t.me.level == atMovi.me.level) = true ∧
    gives (exec (.movi ⟨gk1, 32, 6⟩) (State.prep ⟨atMovi.me.ctl.pc, 5, 1, .sb, .movi ⟨gk1, 32, 6⟩⟩
      (State.modMe (fun h => { h with
        ctl := { h.ctl with stall := none }, iss := { h.iss with next := none, after := none } })
        { atMovi with todo := [] }))) (fun u => u.me.iss.out == .ok) = true := by decide +kernel

theorem witness_StepKeepsMemoryCanonical :
    Memory.wf atMovi.hub.mem = true ∧ gives (step atMovi) (fun t => Memory.wf t.hub.mem) = true := by
  decide +kernel

theorem witness_BytesReadBackAfterWrite :
    Memory.wf [(4, 1#8), (9, 2#8)] = true ∧ putBytes 4 [0#8, 7#8] [(4, 1#8), (9, 2#8)] = [(5, 7#8), (9, 2#8)] := by
  decide +kernel

theorem witness_ResultLandsAtItsLatency :
    core.me.units.semIn = [] ∧ core.me.ctl.stepping = false ∧
    (core.withResult 1 1 3 [.s 3 9]).me.sched.pipe = [⟨0, 1, 0x1000, 1, 3, some [.s 3 9]⟩] ∧
    (core.withResult 2 1 3 [.s 3 9]).me.sched.pipe = [⟨0, 2, 0x1000, 1, 3, some [.s 3 9]⟩] := by decide +kernel

theorem witness_FalseGuardDoesNothing :
    let i := Instr.vadd ⟨⟨true, 0⟩, false, 0, false, false, 0, 0, 63, 63, 63, 0⟩
    i.isOp = true ∧ guardHolds (guardOf i) press.me = false ∧ kernelCheck press.me i = none ∧
      press.me.ctl.dec = none ∧ press.me.isCore = false ∧
      gives (exec i press) (fun t => decide (t = press.issuedBare)) = true := by decide +kernel

/-- Entry to S from U of a tread, and to M from M of a core. -/
theorem witness_TrapEntersHandler :
    let t : TrapInfo := ⟨14, 4, 5, some .ct, 0x1000, 0, 1⟩
    let u := press.modMe (fun h => { h with spr := { h.spr with plv := 0x40 } })
    t.lvl = 1 ∧ u.me.level ≤ 2 ∧ (u.takeTrap t).me.spr.plv = 0x101 ∧ (u.takeTrap t).me.ctl.pc = 0x3000 ∧
      (u.takeTrap t).me.spr.tcause = 0x108000504 ∧ (core.takeTrap { t with lvl := 2 }).me.spr.plv = 0x22 := by
  decide +kernel

/-- A handler at S that returns to U, one at M that returns to S, `eret` at U, and one beside another slot. -/
theorem witness_EretReturnsFromHandler :
    let f : CN := ⟨gk0⟩
    let at_ (p : Word) := press.modMe (fun h => { h with spr := { h.spr with plv := p, tpc := 0x5000 } })
    guardHolds f.gk.g press.me = true ∧ (at_ 0x101).me.level = 1 ∧ (at_ 0x12).me.level = 2 ∧
      (at_ 0).me.level = 0 ∧ press.me.iss.ops ≤ 1 ∧ press.me.sched.pipe = [] ∧ press.me.sched.mx = none ∧
      gives (exec (.eret f) (at_ 0x101)) (fun t => t.me.spr.plv == 0x140 && t.me.iss.next == some 0x5000) = true ∧
      gives (exec (.eret f) (at_ 0x12)) (fun t => t.me.level == 1) = true ∧
      gives (exec (.eret f) (at_ 0)) (fun t => t.me.level == 1 && wbits 7 0 t.me.spr.tcause == 2) = true ∧
      gives (exec (.eret f) (press.modMe (fun h => { h with iss := { h.iss with ops := 2 } })))
        (fun t => wbits 23 0 t.me.spr.tcause == 0x901) = true := by decide +kernel

theorem witness_TrapInstructionsTrap :
    let f : CI := ⟨gk0, 5⟩
    let u := press.modMe (fun h => { h with spr := { h.spr with plv := 0, dbg := 0x10 } })
    guardHolds f.gk.g press.me = true ∧ u.me.level = 0 ∧ u.me.spr.dbg.getLsbD 4 = true ∧
      ¬(press.me.level = 0 ∧ press.me.spr.dbg.getLsbD 4 = true) ∧
      gives (exec (.trap f) u) (fun t => wbits 27 0 t.me.spr.tcause == 0x8000504 && t.me.level == 1) = true ∧
      gives (exec (.bkpt f) press) (fun t => wbits 27 0 t.me.spr.tcause == 0x8000505 && t.me.level == 2) = true ∧
      gives (exec (.bkpt f) u) (fun t => t.me.spr.dbg == 0) = true := by decide +kernel

/-! ### Witnesses: the scalar slots -/

/-- The guard of `p0` holds, for a scalar and for a uniform destination. -/
theorem witness_IntegerInstructionsCompute :
    let f : SR := ⟨gk0, false, false, 2, 1, 3⟩
    let s := (core.withS 1 7).withS 2 (BitVec.ofInt 64 (-3))
    guardHolds f.gk.g s.me = true ∧
      gives (exec (.mulhu f) s) (fun t => newest t == some (3, 1, 3, some [.s 3 6])) = true ∧
      gives (exec (.sra { f with a := 2, b := 1 }) s)
        (fun t => newest t == some (1, 1, 3, some [.s 3 (BitVec.ofInt 64 (-1))])) = true ∧
      gives (exec (.add { f with ud := true }) (press.withS 1 7)) (fun t =>
        newest t == some (1, 2, 3, some [.g 3 7])) = true := by decide +kernel

theorem witness_DivisionTruncatesAndNeverTraps :
    let f : SR := ⟨gk0, false, false, 2, 1, 3⟩
    let s := (core.withS 1 (BitVec.ofInt 64 (-7))).withS 2 2
    let z := core.withS 1 (BitVec.ofInt 64 (-7))
    let o := (core.withS 1 (BitVec.ofInt 64 (-2 ^ 63))).withS 2 (BitVec.ofInt 64 (-1))
    guardHolds f.gk.g s.me = true ∧ (s.me.regs.sReg 2).toNat ≠ 0 ∧ (z.me.regs.sReg 2).toNat = 0 ∧
      (s.me.regs.sReg 2).toInt ≠ -1 ∧ ((o.me.regs.sReg 1).toInt = -2 ^ 63 ∧ (o.me.regs.sReg 2).toInt = -1) := by
  decide +kernel

theorem witness_BitFieldsExtractAndInsert : guardHolds (⟨gk0, false, false, 2, 1, 3⟩ : SR).gk.g core.me = true := by
  decide +kernel

theorem witness_MovesSelectsAndCounts :
    guardHolds (⟨gk0, false, false, 0, 1, 3⟩ : SR).gk.g core.me = true ∧
      guardHolds (⟨gk0, 8192, 3⟩ : SU).gk.g core.me = true ∧
      gives (exec (.movi ⟨gk0, 8192, 3⟩) core) (fun t =>
        newest t == some (1, 1, 3, some [.s 3 (BitVec.ofInt 64 (-8192))])) = true := by decide +kernel

/-- The shift counts at the end of their range. -/
theorem witness_ImmediateInstructionsCompute :
    let f : SI := ⟨gk0, 63, 1, 3⟩
    guardHolds f.gk.g core.me = true ∧ f.imm.toNat < 64 ∧
      gives (exec (.shli f) (core.withS 1 3)) (fun t =>
        newest t == some (1, 1, 3, some [.s 3 0x8000000000000000])) = true := by decide +kernel

theorem witness_ComparesWritePredicates :
    let f : SR := ⟨gk0, false, false, 2, 1, 3⟩
    let i : SI := ⟨gk0, 255, 1, 3⟩
    guardHolds f.gk.g core.me = true ∧ guardHolds i.gk.g core.me = true ∧
      gives (exec (.cmpiLtu i) (core.withS 1 5)) (fun t => newest t == some (1, 3, 3, some [.p 3 true])) = true := by
  decide +kernel

theorem witness_FloatingInstructionsRoundOnce :
    let f : SR := ⟨gk0, false, false, 2, 1, 3⟩
    guardHolds f.gk.g core.me = true ∧
      gives (exec (.fdivF32 f) ((core.withS 1 0x3f800000).withS 2 0x80000000)) (fun t =>
        newest t == some (12, 1, 3, some [.s 3 0xff800000])) = true := by decide +kernel

/-- One operand is a NaN. -/
theorem witness_FloatingComparesAndConversions :
    let f : SR := ⟨gk0, false, false, 2, 1, 3⟩
    guardHolds f.gk.g core.me = true ∧
      (fp32.val ((core.withS 1 0x7fc00000).me.regs.sReg 1).toNat).isNan = true ∧
      gives (exec (.fcmpUnF32 f) (core.withS 1 0x7fc00000)) (fun t =>
        newest t == some (2, 3, 3, some [.p 3 true])) = true ∧
      fcvtVal 7 0xbf800000 = 0 := by decide +kernel

/-- Each cell of the access tables: no such number, none at U, read-only below a level that may write, read-only
everywhere, writable. -/
theorem witness_SystemRegistersObeyAccess :
    let f (n : BitVec 8) : SI := ⟨gk0, n, 1, 3⟩
    let g : SR := ⟨gk0, false, false, 2, 1, 0⟩
    let at_ (p : Word) := (press.modMe (fun h => { h with spr := { h.spr with plv := p } })).withS 2 4
    guardHolds (f 0).gk.g press.me = true ∧ guardHolds g.gk.g press.me = true ∧
      sprAccess false 0x13 = none ∧ (∃ c ∈ sprAccess false 0x27, levelCell c 0 = .no) ∧
      (∃ c ∈ sprAccess false 0x03, levelCell c 2 ≠ .no ∧ levelCell c 2 = .ro ∧ higherRw c 2 = false) ∧
      (∃ n ∈ List.range 64, ∃ c ∈ sprAccess true n, levelCell c 1 = .ro ∧ higherRw c 1 = true) ∧
      (∃ c ∈ sprAccess false 0x27, levelCell c 1 = .rw) ∧ (∃ c ∈ sprAccess false 0x0b, levelCell c 0 = .rw) ∧
      (let c := press.modMe (fun h => { h with units := { h.units with mould := { h.units.mould with mode := .closing } } })
       c.me.units.mould.mode = .closing ∧ guardHolds (f 0x0b).gk.g c.me = true ∧ c.me.isCore = false) ∧ (at_ 0).me.level = 0 ∧ (at_ 1).me.level = 1 ∧
      wbits 2 0 ((at_ 1).me.regs.sReg g.b) = 4 := by decide +kernel

theorem witness_TlbInvalidationBegins :
    let g : SR := ⟨gk0, false, false, 2, 1, 0⟩
    let s := core.withS 2 4
    let s1 := core.modMe (fun h => { h with spr := { h.spr with plv := 1 } })
    let w := s.modMe (fun h => { h with lsu := { h.lsu with tlbinvs := [0] } })
    guardHolds g.gk.g s.me = true ∧ s.hub.fenceDone 0 s.me = true ∧ s.me.tlbFull = false ∧ s.me.level = 2 ∧
      wbits 2 0 (s.me.regs.sReg g.b) ≤ 4 ∧ s1.me.level = 1 ∧ wbits 2 0 (s1.me.regs.sReg g.b) ≤ 1 ∧
      s1.hub.fenceDone 0 s1.me = true ∧ s.me.lsu.tlbinvs = [] ∧ w.me.lsu.tlbinvs ≠ [] ∧
      gives (exec (.tlbinv g) s) (fun t => t.hub.tlbinvs.length == 1) = true ∧
      gives (exec (.tlbsync g) w) (fun t => t.me.iss.out == .stalled false) = true := by decide +kernel

/-! ### Witnesses: the control slot -/

/-- A decision of the leading rank. -/
def item (taken : Bool) : Item :=
  { due := 0, seen := 0, wait := false, addr := 0x1000, line := none, taken := taken, target := 0x4000, trips := 0,
    code := [], pauses := [] }

/-- The acting hart with a decision. -/
def decided (it : Item) : State := press.modMe (fun h => { h with ctl := { h.ctl with dec := some it } })

/-- A negative displacement at the lowest address wraps at 57 bits. -/
theorem witness_BranchesMoveControl :
    let f : CB := ⟨gk0, 0x1ffff0⟩
    let r : CR := ⟨gk0, false, 0, 0, 1⟩
    let never : GK := ⟨⟨true, 0⟩, false⟩
    let h : CI := ⟨gk0, 1023⟩
    guardHolds f.gk.g press.me = true ∧ guardHolds r.gk.g press.me = true ∧ guardHolds h.gk.g press.me = true ∧
      guardHolds never.g press.me = false ∧ press.me.ctl.dec = none ∧ (decided (item true)).me.ctl.dec = some (item true) ∧
      (item true).taken = true ∧ (decided (item false)).me.ctl.dec = some (item false) ∧ (item false).taken = false ∧
      gives (exec (.br f) press) (fun t => t.me.iss.next == some 0xff0) = true ∧
      gives (exec (.call f) (press.modMe (fun h => { h with iss := { h.iss with len := 5 } }))) (fun t =>
        newest t == some (1, 1, 63, some [.s 63 0x1005])) = true ∧
      gives (exec (.brR r) (decided (item true))) (fun t => t.me.iss.next == some 0x4000) = true ∧
      gives (exec (.callR r) (decided (item false))) (fun t => decide (t = (decided (item false)).issuedBare)) = true ∧
      gives (exec (.hold h) press) (fun t => t.me.sched.hold == 1023) = true := by decide +kernel

/-- The threshold met exactly and missed by one; the clock at the operand and one short of it. -/
theorem witness_SemaphoreAndClockWaits :
    let f (n : BitVec 6) : CS := ⟨gk0, n, 255⟩
    let r : CR := ⟨gk0, false, 0, 0, 1⟩
    let s := press.modMe (fun h => { h with units := { h.units with sem := [(255, 62)] } })
    guardHolds (f 62).gk.g s.me = true ∧ kernelCheck s.me (.waitSem (f 62)) = none ∧ s.me.isCore = false ∧
      (f 62).thr.toNat ≤ NMap.get 0 (f 62).sem.toNat s.me.units.sem ∧
      NMap.get 0 (f 63).sem.toNat s.me.units.sem < (f 63).thr.toNat ∧
      guardHolds (f 63).gk.g core.me = true ∧ core.me.isCore = true ∧ kernelCheck core.me (.waitSem (f 63)) = none ∧
      guardHolds r.gk.g press.me = true ∧ kernelCheck press.me (.sleepUntil r) = none ∧
      ((press.withS 1 1).me.regs.sReg r.a).toNat ≤ press.nextCycle ∧
      press.nextCycle < ((press.withS 1 2).me.regs.sReg r.a).toNat ∧
      gives (exec (.waitSem (f 63)) s) (fun t => t.me.iss.out == .stalled false) = true ∧
      gives (exec (.sleepUntil r) (press.withS 1 1)) (fun t => t.me.iss.out == .ok) = true ∧
      gives (exec (.sleepUntil r) (press.withS 1 2)) (fun t => t.me.iss.out == .stalled false) = true := by
  decide +kernel

theorem witness_DetachMeetAndRetire :
    let f : CB := ⟨gk0, 0x100⟩
    let f' : CB := ⟨⟨⟨true, 0⟩, false⟩, 0x100⟩
    let n : CN := ⟨gk0⟩
    let own := press.modMe (fun h => { h with ctl := { h.ctl with run := .detached } })
    let c1 := core.modMe (fun h => { h with spr := { h.spr with plv := 1 } })
    press.me.isCore = false ∧ press.me.ctl.run = .attached ∧ guardHolds f.gk.g press.me = true ∧
      guardHolds f'.gk.g press.me = false ∧ own.me.ctl.run ≠ .attached ∧ own.me.ctl.run = .detached ∧
      guardHolds n.gk.g own.me = true ∧ kernelCheck press.me (.meet n) = none ∧ kernelCheck own.me (.meet n) = none ∧
      own.me.isCore = false ∧ core.me.isCore = true ∧ core.me.level = 2 ∧ c1.me.isCore = true ∧ c1.me.level ≠ 2 ∧
      gives (exec (.detach f) press) (fun t => t.me.spr.meet == 0x1100 && t.me.iss.after == some .detached) = true ∧
      gives (exec (.detach f') press) (fun t => t.me.iss.next == some 0x1100 && t.me.iss.after == some .atMeet) = true ∧
      gives (exec (.retire n) c1) (fun t => wbits 7 0 t.me.spr.tcause == 2) = true := by decide +kernel

/-- A tread at 0x1000 that holds the line with the given bundles; the `loop` occupies the first five bytes. -/
def lined (bs : List Byte) : State :=
  press.modMe (fun h => { h with
    ctl := { h.ctl with line := some (0x1000, List.replicate 5 1#8 ++ bs ++ List.replicate (59 - bs.length) 0#8) },
    iss := { h.iss with len := 5 } })

/-- A body of one bundle (section 12's shape): trip count 3, trip count 0, a running sequencer, and a body whose CT
slot is not `nop`. -/
theorem witness_LoopStartsSequencer :
    let f : CL := ⟨gk0, 0, 0, 1⟩
    let bs : List Byte := [0x04, 0x10, 0x65, 0x80, 0x00]
    let bad : List Byte := [0x01, 0x20, 0x10, 0x00, 0x00]
    let read (s : State) := s.readBody (f.len.toNat + 1 + 2 ^ 51) (s.me.ctl.pc.toNat + s.me.iss.len) (f.len.toNat + 1) []
    let body (b : List Byte) : List (VAddr × List Byte) := [(0x1005, b ++ List.replicate (59 - b.length) 0#8)]
    guardHolds f.gk.g (lined bs).me = true ∧ kernelCheck (lined bs).me (.loop f) = none ∧ (lined bs).me.isCore = false ∧
      (lined bs).me.ctl.dec = none ∧ read (lined bs) = .ok (body bs) 0x100a ∧
      (lined bs).me.regs.sReg 1 = 0 ∧ ((lined bs).withS 1 3).me.regs.sReg 1 ≠ 0 ∧ (lined bs).me.looping = false ∧
      (body bs).length = f.len.toNat + 1 ∧ bodyOk (f.ii.toNat + 1) (body bs) = true ∧
      read ((lined bs).withS 1 3) = .ok (body bs) 0x100a ∧ read (lined bad) = .ok (body bad) 0x100a ∧
      bodyOk (f.ii.toNat + 1) (body bad) = false ∧
      gives (exec (.loop f) (lined bs)) (fun t => t.me.iss.next == some 0x100a) = true ∧
      gives (exec (.loop f) ((lined bs).withS 1 3)) (fun t => t.me.sched.loop.isSome) = true := by decide +kernel

/-- A launch with one group of one workgroup in its first phase. -/
def grouped (ph : Nat) : State :=
  let s := press.modMe (fun h => { h with spr := { h.spr with grps := 0x100000005 } })
  { s with hub := { s.hub with launches := [
    { id := 1, part := 0, queue := 0, index := 0, slot := 0, pri := 0, wgcnt := 1, width := 1, gsize := 1, rel := 0,
      spec := false, csig := 0, args := [], kernels := [],
      groups := [⟨5, ph, ph, 0, 1, 0, false, 0, 0, accStart, accStart⟩], members := [(5, .strided 0 1 1 0xffff)],
      gangs := [], decisions := [], holds := [], served := 0, killed := false }] } }

/-- The hart's record of an arrival of its `grp.red` at this bundle. -/
def recorded (ph a : Nat) : State :=
  (grouped ph).modMe (fun h => { h with units := { h.units with grec := some ⟨0x1000, none, some (5, a)⟩ } })

theorem witness_GroupsArriveWaitAndReduce :
    let f : CR := ⟨gk0, false, 5, 3, 1⟩
    let e : EF := ⟨g0, ws0, 0, 0, 5, 7, 8⟩
    guardHolds f.gk.g (grouped 0).me = true ∧ kernelCheck (grouped 0).me (.barArrive f) = none ∧
      (grouped 0).me.isCore = false ∧ (grouped 0).me.groupSlot f.imm.toNat = some 0 ∧
      (grouped 0).me.arrived true f.imm.toNat = none ∧
      ((grouped 0).me.units.arrPhase[(0 : Fin 4)]).toNat = (grouped 0).phaseOf f.imm.toNat ∧
      (grouped 0).me.ctl.bar = none ∧ phaseDone ((grouped 0).phaseOf 5) 0 = false ∧
      phaseDone ((grouped 1).phaseOf 5) 0 = true ∧ (grouped 0).me.regs.sReg f.b = 0 ∧
      (((grouped 0).withS 3 1).me.regs.sReg f.b).getLsbD 0 = true ∧
      guardHolds e.g (recorded 1 0).me = true ∧ kernelCheck (recorded 1 0).me (.grpRed e) = none ∧
      waitHolds e.ws (recorded 1 0).me = true ∧ (recorded 1 0).me.groupSlot (ecIdx e) = some 0 ∧
      (recorded 1 0).me.arrived false (ecIdx e) = some 0 ∧ phaseDone ((recorded 1 0).phaseOf (ecIdx e)) 0 = true ∧
      phaseDone ((recorded 1 1).phaseOf (ecIdx e)) 1 = false ∧
      gives (exec (.barArrive f) (grouped 0)) (fun t => newest t == some (1, 1, 3, some [.s 3 0])) = true ∧
      gives (exec (.barWait f) (grouped 1)) (fun t => newest t == some (1, 1, 3, some [.s 3 1])) = true ∧
      gives (exec (.barWait f) ((grouped 0).withS 3 1)) (fun t => newest t == some (1, 1, 3, some [.s 3 4])) = true ∧
      gives (exec (.barWait f) (grouped 0)) (fun t => t.me.iss.out == .stalled true) = true ∧
      gives (exec (.grpRed e) (recorded 1 0)) (fun t => newest t == some (3, 1, 8, some [.s 8 0])) = true ∧
      gives (exec (.grpRed e) (recorded 1 1)) (fun t => t.me.iss.out == .stalled true) = true := by decide +kernel

/-- No request yet, an answered one, a child of the root, and a node below the root. -/
theorem witness_HypothesisInstructions :
    let f : CR := ⟨gk0, false, 0, 2, 1⟩
    let n : CN := ⟨gk0⟩
    let base : State := { press with hub := { press.hub with nodes := [⟨0, 1, 0⟩] } }
    let asked := base.modMe (fun h => { h with lsu := { h.lsu with hubReq := some ⟨0x1000, 0, 0, some (7, 9)⟩ } })
    let inside := base.modMe (fun h => { h with
      spr := { h.spr with hyp := 1 }, units := { h.units with hstack := [(1, 0x40)] } })
    guardHolds f.gk.g base.me = true ∧ kernelCheck base.me (.hypOpen f) = none ∧
      kernelCheck base.me (.hypResolveConfirm f) = none ∧ kernelCheck base.me (.hypResolveRefute f) = none ∧
      base.me.lsu.hubReq = none ∧ asked.me.lsu.hubReq = some ⟨asked.me.ctl.pc, 0, 0, some (7, 9)⟩ ∧
      kernelCheck base.me (.hypEnter f) = none ∧
      base.hub.node base.me.partNo ((base.withS 1 1).me.regs.sReg f.a).toNat = some ⟨0, 1, 0⟩ ∧
      base.me.spr.hyp.toNat = 0 ∧ base.me.units.hstack.length < 8 ∧ kernelCheck base.me (.hypLeave n) = none ∧
      base.me.spr.hyp = 0 ∧ inside.me.spr.hyp ≠ 0 ∧
      inside.hub.node inside.me.partNo inside.me.spr.hyp.toNat = some ⟨0, 1, 0⟩ ∧
      gives (exec (.hypOpen f) asked) (fun t => newest t == some (1, 1, 2, some [.s 2 7, .lt 9])) = true ∧
      gives (exec (.hypEnter f) ((base.withS 1 1).withS 2 0x40)) (fun t =>
        t.me.spr.hyp == 1 && t.me.units.hstack == [(1, 0x40)]) = true ∧
      gives (exec (.hypLeave n) inside) (fun t => t.me.spr.hyp == 0 && t.me.units.hstack == []) = true := by
  decide +kernel

/-- The mould over v8, of one register, in each of its modes. -/
def moulded (m : MouldMode) : State :=
  press.modMe (fun h => { h with units := { h.units with
    mould := { h.units.mould with mode := m, first := 8, count := 1 } } })

theorem witness_MouldOpensDrawsAndCloses :
    let r : CR := ⟨gk0, false, 0, 0, 8⟩
    let n : CN := ⟨gk0⟩
    let f (t : BitVec 3) : VF := ⟨g0, false, 0, false, false, 0, 0, 0, 0, 5, t⟩
    guardHolds r.gk.g press.me = true ∧ kernelCheck press.me (.mouldOpen r) = none ∧
      press.me.units.mould.mode = .closed ∧ press.me.inFlight (press.me.runKey r.a.toNat (r.imm.toNat + 1)) = false ∧
      kernelCheck press.me (.mouldCancel n) = none ∧ kernelCheck (moulded .closing).me (.mouldCancel n) = none ∧
      (moulded .closing).me.units.mould.mode = .closing ∧ (moulded .opened).me.units.mould.mode = .opened ∧
      (moulded .opened).me.shadowFlight = false ∧ kernelCheck press.me (.vrng (f 0)) = none ∧
      (f 0).t = 0#3 ∧ ¬((f 5).t = 0#3 ∨ (f 5).t = 4#3) ∧
      press.me.vecWriteBad (f 0).d.toNat ((vecWords (press.me.vBase + 64 * (f 0).d.toNat)
        (press.me.regs.mReg (f 0).m) (f 0).z (fun _ => 0#32)).map (·.1)) = false ∧
      kernelCheck (moulded .opened).me (.accept (f 0)) = none ∧
      (∀ k, k < 64 * (moulded .opened).me.units.mould.count →
        (moulded .opened).me.tileBusy ((moulded .opened).me.vBase + 64 * (moulded .opened).me.units.mould.first + k)
          = false) ∧
      gives (exec (.mouldOpen r) press) (fun t => t.me.units.mould.mode == .opened && t.me.units.mould.count == 1) = true ∧
      gives (exec (.mouldCancel n) (moulded .opened)) (fun t => t.me.units.mould.mode == .closed) = true ∧
      gives (exec (.vrng (f 5)) press) (fun t => (newest t).any (fun e => e.1 == 2 && e.2.1 == 5)) = true := by
  decide +kernel

/-- One bank held, one draining. -/
theorem witness_VaultBanksChangeHands :
    let f : CR := ⟨gk0, false, 0, 0, 1⟩
    let s := press.withS 1 0x80000001
    let d : State := { s with hub := { s.hub with banks := [(31, 2)] } }
    guardHolds f.gk.g s.me = true ∧ kernelCheck s.me (.vbankAcq f) = none ∧ kernelCheck s.me (.vbankRel f) = none ∧
      s.me.isCore = false ∧ (∀ k ∈ s.me.maskBanks (s.me.regs.sReg f.a), NMap.get 0 k s.hub.banks ≠ 2) ∧
      (∃ k ∈ d.me.maskBanks (d.me.regs.sReg f.a), NMap.get 0 k d.hub.banks = 2) ∧
      gives (exec (.vbankRel f) s) (fun t => t.hub.banks == [(0, 1), (31, 1)]) = true ∧
      gives (exec (.vbankAcq f) d) (fun t => t.me.iss.out == .stalled false) = true := by decide +kernel

/-! ### Witnesses: the load-store slot -/

/-- The acting hart under a hypothesis. -/
def tagged (n : Nat) (s : State) : State :=
  s.modMe (fun h => { h with spr := { h.spr with hyp := BitVec.ofNat 64 n } })

/-- The last aligned doubleword of a line, one byte before it, an address beyond 52 bits, and vault-window
addresses with and without bit 23. -/
theorem witness_ScalarLoadsAreSent :
    let f : LO := ⟨g0, 0, false, false, 0, 0, 1, 3⟩
    let at_ (a : Word) := press.withS 1 a
    guardHolds f.g press.me = true ∧ kernelCheck press.me (.ldD f) = none ∧ press.me.ctl.lsLeft = 0 ∧
      (at_ 0x178).pieces .load 2 (splitLines (loEa f (at_ 0x178).me) 8) = .ok [⟨0x178, 0x178, 8, .mem false⟩] ∧
      loEa f (at_ 0x178).me % 8 = 0 ∧ loEa f (at_ 0x177).me % 8 ≠ 0 ∧
      (at_ 0x177).pieces .load 2 (splitLines (loEa f (at_ 0x177).me) 8) = .ok [⟨0x177, 0x177, 8, .mem false⟩] ∧
      (at_ 0x10000000000000).pieces .load 2 (splitLines (loEa f (at_ 0x10000000000000).me) 8)
        = .fault ⟨3, 4, 3, 0⟩ 0x10000000000000 ∧
      (at_ 0x1ffffff00800000).pieces .load 2 (splitLines (loEa f (at_ 0x1ffffff00800000).me) 8)
        = .vault 0x1ffffff00800000 ∧
      gives (exec (.ldD f) (at_ 0x178)) (fun t => newest t == some (14, 1, 3, none)) = true ∧
      gives (exec (.ldD f) (at_ 0x177)) (fun t =>
        wbits 27 0 t.me.spr.tcause == 0x8000008 && t.me.spr.taddr == 0x177) = true ∧
      gives (exec (.ldD f) (at_ 0x1ffffff00000008)) (fun t => newest t == some (8, 1, 3, none)) = true ∧
      gives (exec (.ldD f) (at_ 0x1ffffff00800000)) (fun t => wbits 7 0 t.me.spr.tcause == 9) = true := by
  decide +kernel

/-- A store to memory, one to the tread's own vault, and a tagged one to a host. -/
theorem witness_ScalarStoresAreSent :
    let f : LO := ⟨g0, 0, false, false, 0, 0, 1, 3⟩
    let at_ (a : Word) := press.withS 1 a
    let m : Piece := ⟨0x178, 0x178, 8, .mem false⟩
    let v : Piece := ⟨0x1ffffff00000008, 0x100000000008, 8, .vault 0⟩
    let far : Piece := ⟨0x200000000000, 0x200000000000, 8, .mem false⟩
    guardHolds f.g press.me = true ∧ kernelCheck press.me (.stD f) = none ∧ press.me.ctl.lsLeft = 0 ∧
      (at_ 0x178).pieces .store 2 (splitLines (loEa f (at_ 0x178).me) 8) = .ok [m] ∧ m.va = loEa f (at_ 0x178).me ∧
      loEa f (at_ 0x178).me % 8 = 0 ∧ (at_ 0x178).versionWanted [m] = none ∧ (at_ 0x178).tagRefused m.pa = false ∧
      press.hub.nonCoherent press.me m.pa = false ∧
      (at_ 0x1ffffff00000008).pieces .store 2 (splitLines (loEa f (at_ 0x1ffffff00000008).me) 8) = .ok [v] ∧
      (at_ 0x1ffffff00000008).versionWanted [v] = none ∧
      (tagged 1 (at_ 0x200000000000)).pieces .store 2 (splitLines (loEa f (at_ 0x200000000000).me) 8) = .ok [far] ∧
      (tagged 1 (at_ 0x200000000000)).versionWanted [far] = none ∧
      (tagged 1 (at_ 0x200000000000)).tagRefused far.pa = true ∧
      gives (exec (.stD f) (at_ 0x178)) (fun t => t.me.lsu.writes.length == 1) = true ∧
      gives (exec (.stD f) (at_ 0x1ffffff00000008)) (fun t => t.me.lsu.vstores.length == 1) = true ∧
      gives (exec (.stD f) (tagged 1 (at_ 0x200000000000))) (fun t =>
        t.me.lsu.writes == [] && t.me.units.pending == 2) = true := by decide +kernel

/-- Lanes 0 and 63 of a mask, one below the end of a line; a tile; a gather from two lanes. -/
theorem witness_VectorAndTileLoadsAreSent :
    let f : LO := ⟨g0, 0, false, true, 1, 0, 1, 63⟩
    let g : LB := ⟨g0, 0, 2, false, false, 0, 0, 1, 7⟩
    let h : LB := ⟨g0, 0, 5, false, false, 1, 0, 1, 63⟩
    let s := ((press.withS 1 0x1040).withS 2 64).modMe (fun h => { h with
      regs := h.regs.setM 1 0x8000000000000001 })
    guardHolds f.g s.me = true ∧ kernelCheck s.me (.vld f) = none ∧ kernelCheck s.me (.tld g) = none ∧
      kernelCheck s.me (.vgath h) = none ∧ s.me.ctl.lsLeft = 0 ∧
      s.pieces .load 2 ((loLanes f s.me).map (fun l => (loEa f s.me + 4 * l, 4)))
        = .ok [⟨0x1040, 0x1040, 4, .mem false⟩, ⟨0x113c, 0x113c, 4, .mem false⟩] ∧
      loEa f s.me % 4 = 0 ∧ s.me.vecWriteBad f.d.toNat [4032, 4095, 4033] = false ∧
      (∃ ps, s.pieces .load 2 (tileRows (lbEa g s.me) 64) = .ok ps) ∧ lbEa g s.me % 64 = 0 ∧
      s.me.viewWriteBad ((List.range 1024).map (s.me.tBase + 1024 * g.d.toNat + ·)) = false ∧
      s.pieces .load 2 ((pixLanes 1 s.me (lanes (s.me.regs.mReg h.m))).map (fun l => (laneAddr h s.me l, 4)))
        = .ok [⟨0x1040, 0x1040, 4, .mem false⟩, ⟨0x1040, 0x1040, 4, .mem false⟩] ∧
      (∀ l ∈ pixLanes 1 s.me (lanes (s.me.regs.mReg h.m)), laneAddr h s.me l % 4 = 0) ∧
      gives (exec (.vld f) s) (fun t => newest t == some (14, 5, 63, none)) = true ∧
      gives (exec (.tld g) s) (fun t => newest t == some (30, 6, 7, none) && t.me.ctl.lsLeft == 16) = true ∧
      gives (exec (.vgath h) s) (fun t => newest t == some (22, 5, 63, none) && t.me.ctl.lsLeft == 4) = true := by
  refine ⟨?_, ?_, ?_, ?_, ?_, ?_, ?_, ?_, ⟨_, rfl⟩, ?_⟩ <;> decide +kernel

theorem witness_VectorAndTileStoresAreSent :
    let f : LO := ⟨g0, 0, false, false, 1, 0, 1, 63⟩
    let g : LB := ⟨g0, 0, 2, false, false, 0, 0, 1, 7⟩
    let h : LB := ⟨g0, 0, 5, false, false, 1, 0, 1, 63⟩
    let s := ((press.withS 1 0x1040).withS 2 64).modMe (fun h => { h with
      regs := h.regs.setM 1 0x8000000000000001 })
    let ps : List Piece := [⟨0x1040, 0x1040, 4, .mem false⟩, ⟨0x113c, 0x113c, 4, .mem false⟩]
    guardHolds f.g s.me = true ∧ kernelCheck s.me (.vst f) = none ∧ kernelCheck s.me (.tst g) = none ∧
      kernelCheck s.me (.vscat h) = none ∧ s.me.ctl.lsLeft = 0 ∧
      s.pieces .store 2 ((loLanes f s.me).map (fun l => (loEa f s.me + 4 * l, 4))) = .ok ps ∧
      s.versionWanted (ps.zipWith (fun p _ => p) (loLanes f s.me)) = none ∧
      (∃ qs, s.pieces .store 2 (tileRows (lbEa g s.me) 64) = .ok qs ∧ s.versionWanted qs = none) ∧
      (∃ qs, s.pieces .store 2 ((pixLanes 2 s.me (lanes (s.me.regs.mReg h.m))).map (fun l =>
        (laneAddr h s.me l, 4))) = .ok qs ∧ s.versionWanted qs = none) ∧
      gives (exec (.vst f) s) (fun t => t.me.lsu.writes.length == 2) = true ∧
      gives (exec (.tst g) s) (fun t => t.me.ctl.lsLeft == 16) = true ∧
      gives (exec (.vscat h) s) (fun t => t.me.ctl.lsLeft == 4) = true := by
  refine ⟨?_, ?_, ?_, ?_, ?_, ?_, ?_, ⟨_, rfl, ?_⟩, ⟨_, rfl, ?_⟩, ?_⟩ <;> decide +kernel

theorem witness_PrefetchNeverTraps :
    let f : LO := ⟨g0, 0, false, false, 0, 0, 1, 0⟩
    let at_ (a : Word) := press.withS 1 a
    guardHolds f.g press.me = true ∧ kernelCheck press.me (.pf f) = none ∧ press.me.ctl.lsLeft = 0 ∧
      inVault (loEa f (at_ 0x1ffffff00000008).me) = true ∧ inQuire (loEa f (at_ 0x1fffffe00ffffff).me) = true ∧
      (at_ 0x100).xlate .load 2 (loEa f (at_ 0x100).me) ≠ .wait ∧ (at_ 0x100).hub.peers = [] ∧
      gives (exec (.pf f) (at_ 0x10000000000000)) (fun t => t.me.iss.out == .ok) = true := by decide +kernel

/-- Gang scope: nothing to wait for, and a write that is not stamped; a vault-window address. -/
theorem witness_AtomicsAndReductionsAreSent :
    let f : LB := ⟨g0, 0, 2, false, true, 0, 2, 1, 3⟩
    let p : Piece := ⟨0x178, 0x178, 8, .mem false⟩
    let s := press.withS 1 0x178
    let w := s.modMe (fun h => { h with lsu := { h.lsu with writes :=
      [⟨0, 0x200, 0x200, .store [(0, 1#8)], 0, 0, 2, false, false, none, 0⟩] } })
    let v := press.withS 1 0x1ffffff00000008
    guardHolds f.g s.me = true ∧ kernelCheck s.me (.amoAdd f) = none ∧ kernelCheck s.me (.redAdd f) = none ∧
      s.me.ctl.lsLeft = 0 ∧ inVault (lbEa f s.me) = false ∧
      s.pieces .atomic 2 (splitLines (lbEa f s.me) 8) = .ok [p] ∧ lbEa f s.me % 8 = 0 ∧ s.tagRefused p.pa = false ∧
      s.versionWanted [p] = none ∧ s.hub.nonCoherent s.me p.pa = false ∧ s.hub.fenceDone 2 s.me = true ∧
      w.pieces .atomic 2 (splitLines (lbEa f w.me) 8) = .ok [p] ∧ w.hub.fenceDone 2 w.me = false ∧
      inVault (lbEa f v.me) = true ∧ lbEa f v.me % 8 = 0 ∧
      gives (exec (.amoCas f) s) (fun t => newest t == some (128, 1, 3, none) && t.me.lsu.writes.length == 1) = true ∧
      gives (exec (.redXor f) w) (fun t => t.me.iss.out == .stalled false) = true ∧
      gives (exec (.amoAdd f) v) (fun t => wbits 7 0 t.me.spr.tcause == 9) = true := by decide +kernel

theorem witness_FencesMonitorsAndFlushes :
    let f : LB := ⟨g0, 0, 0, false, false, 0, 2, 0, 3⟩
    let m : LB := ⟨g0, 0, 2, false, false, 0, 0, 1, 3⟩
    let lsu (l : Lsu → Lsu) := press.modMe (fun h => { h with lsu := l h.lsu })
    let waits := lsu (fun l => { l with writes := [⟨0, 0x200, 0x200, .store [(0, 1#8)], 0, 0, 2, false, false, none, 0⟩] })
    let sat := lsu (fun l => { l with mon := .satisfied 9 })
    let armed := lsu (fun l => { l with mon := .armed })
    let flushed := lsu (fun l => { l with flush := some [] })
    let waiting := (lsu (fun l => { l with
      flush := some [(press.me.id, 0)], writes := [⟨0, 0x200, 0x200, .back [], 0, 0, 2, false, false, none, 0⟩] }))
    guardHolds f.g press.me = true ∧ kernelCheck press.me (.fenceScope f) = none ∧
      kernelCheck press.me (.monWait m) = none ∧ kernelCheck press.me (.flushRegion f) = none ∧
      press.me.ctl.lsLeft = 0 ∧ press.hub.fenceDone 2 press.me = true ∧ waits.hub.fenceDone 2 waits.me = false ∧
      waits.me.units.pending.getLsbD 4 = false ∧ inVault (lbEa m press.me) = false ∧
      sat.me.lsu.mon = .satisfied 9 ∧ armed.me.lsu.mon = .armed ∧ press.me.lsu.flush = none ∧
      press.me.regs.sReg 0 = 0 ∧ press.backs 2 = [] ∧ flushed.me.lsu.flush = some [] ∧
      waiting.me.lsu.flush = some [(press.me.id, 0)] ∧ waiting.unstamped (press.me.id, 0) = true ∧
      gives (exec (.fenceScope f) press) (fun t => newest t == some (1, 1, 3, some [.s 3 0])) = true ∧
      gives (exec (.fenceScope f) waits) (fun t => t.me.iss.out == .stalled false) = true ∧
      gives (exec (.monWait m) sat) (fun t => t.me.spr.lt == 9) = true ∧
      gives (exec (.monWait m) armed) (fun t => t.me.iss.out == .stalled true) = true ∧
      gives (exec (.flushRegion f) press) (fun t => t.me.iss.out == .ok) = true ∧
      gives (exec (.flushRegion f) flushed) (fun t => t.me.iss.out == .ok) = true ∧
      gives (exec (.flushRegion f) waiting) (fun t => t.me.iss.out == .stalled false) = true := by decide +kernel

/-! ### Witnesses: the vector and transfer slots -/

/-- The press tread with lanes 0 and 1 of v1 and v2 set. -/
def lanesSet (a0 a1 b0 b1 : BitVec 32) : State :=
  press.modMe (fun h => { h with regs := h.regs.setUnits [(64, a0), (65, a1), (128, b0), (129, b1)] })

/-- The first two lanes of the newest result of the acting hart, with its latency. -/
def newLanes (s : State) : Option (Nat × List (Nat × BitVec 32)) :=
  s.me.sched.pipe.getLast?.bind (fun p => match p.effs with
    | some [.space false ws] => some (p.left, ws.take 2)
    | _ => none)

/-- 1.5 + 0.5 and −6.0 × 0.5 (R15's table), and 100 + 100 saturated in INT8. -/
theorem witness_VectorArithmeticComputes :
    let f : VF := ⟨g0, false, 0, false, false, 0, 0, 2, 1, 63, 0⟩
    guardHolds f.g press.me = true ∧ press.me.isCore = false ∧
      ([.vadd f, .vsub f, .vmul f, .vfma f, .vmin f, .vmax f, .vabs f, .vneg f].all
        (fun i => kernelCheck press.me i == none)) = true ∧
      press.me.vecWriteBad 63 [4032] = false ∧ (moulded .closing).me.vecWriteBad 8 [512] = true ∧
      gives (exec (.vadd f) (lanesSet 0x3fc00000 0xc0c00000 0x3f000000 0x3f000000)) (fun t =>
        newLanes t == some (4, [(4032, 0x40000000), (4033, 0xc0b00000)])) = true ∧
      gives (exec (.vadd { f with sat := true, t := 6 }) (lanesSet 0x6400ff64 0 0x64000164 0)) (fun t =>
        newLanes t == some (2, [(4032, 0x7f00007f), (4033, 0)])) = true := by decide +kernel

/-- A count equal to the width. -/
theorem witness_VectorLogicAndShiftsCompute :
    let f : VF := ⟨g0, false, 0, false, false, 0, 1, 2, 1, 63, 4⟩
    guardHolds f.g press.me = true ∧ press.me.isCore = false ∧
      ([.vand f, .vor f, .vxor f, .vnot f, .vmov f, .vsel f, .vshl f, .vshr f].all
        (fun i => kernelCheck press.me i == none)) = true ∧ f.width = 32 ∧
      gives (exec (.vshl f) (lanesSet 1 1 31 32)) (fun t =>
        newLanes t == some (2, [(4032, 0x80000000), (4033, 0)])) = true ∧
      gives (exec (.vshr f) (lanesSet 0x80000000 0x80000000 31 40)) (fun t =>
        newLanes t == some (2, [(4032, 0xffffffff), (4033, 0xffffffff)])) = true := by decide +kernel

/-- `ne` with a NaN holds; the other compares do not. -/
theorem witness_MasksAreWritten :
    let f : VF := ⟨g0, false, 0, false, false, 0, 0, 2, 1, 7, 0⟩
    let s := lanesSet 0x7fc00000 0 0x7fc00000 0x80000000
    guardHolds f.g press.me = true ∧ press.me.isCore = false ∧
      ([.vcmpEq f, .vcmpNe f, .vcmpLt f, .vcmpLe f, .mand f, .mor f, .mxor f, .mandn f, .mnot f].all
        (fun i => kernelCheck press.me i == none)) = true ∧
      gives (exec (.vcmpNe f) s) (fun t =>
        newest t == some (2, 4, 7, some [.mBits 7 (s.me.regs.mReg 0) 1])) = true ∧
      gives (exec (.mandn f) press) (fun t => newest t == some (1, 4, 7, some [.m 7 0])) = true := by decide +kernel

theorem witness_VectorFunctionsAndConversions :
    let f : VF := ⟨g0, false, 0, false, false, 0, 0, 2, 1, 63, 0⟩
    let q : VF := ⟨g0, false, 0, false, false, 0, 2, 8, 1, 63, 0⟩
    let group (s : State) (l : Nat) : FVal × Int := groupRec q.b.toNat (s.me.vLane q.c.toNat l).toNat
    guardHolds f.g press.me = true ∧ press.me.isCore = false ∧
      ([.vrcp f, .vrsqrt f, .vsqrt f, .vexp2 f, .vlog2 f, .vtanh f, .vsin f, .vcos f, .vcvt f, .vquant q,
        .vdequant q, .vmovi f].all (fun i => kernelCheck press.me i == none)) = true ∧
      (codeFmt q.b.toNat).isNone = true ∧ (codeFmt 3).isNone = false ∧ (∃ F ∈ codeFmt 3, F = F) ∧
      (match (group press 0).1 with
        | .fin _ n _ => n == 0
        | _ => false) = true ∧
      (match (group (lanesSet 0 0 0x3c00 0) 0).1 with
        | .fin _ n _ => n != 0
        | _ => false) = true ∧
      (match (group (lanesSet 0 0 0x7c00 0) 0).1 with
        | .fin _ _ _ => false
        | _ => true) = true ∧
      gives (exec (.vsqrt f) (lanesSet 0x40800000 0x80000000 0 0)) (fun t =>
        newLanes t == some (12, [(4032, 0x40000000), (4033, 0x80000000)])) = true ∧
      gives (exec (.vrcp f) (lanesSet 0x40000000 0 0 0)) (fun t =>
        newLanes t == some (12, [(4032, 0x3f000000), (4033, 0x7f800000)])) = true ∧
      gives (exec (.vmovi { f with b := 63, c := 63, t := 4 }) press) (fun t =>
        newLanes t == some (2, [(4032, 0xffffffff), (4033, 0xffffffff)])) = true := by decide +kernel

/-- R151: the tree sum of 1.0 and −1.0 beside zeros, an integer minimum, and no active element. -/
theorem witness_VectorReductionsAndPermutations :
    let f (t : BitVec 3) (m : BitVec 3) : VF := ⟨g0, false, 0, false, false, m, 0, 0, 1, 63, t⟩
    let s := lanesSet 0x3f800000 0xbf800000 0 0
    guardHolds (f 0 0).g press.me = true ∧ press.me.isCore = false ∧
      ([.vredAdd (f 0 0), .vredMin (f 0 0), .vredMax (f 0 0), .vperm (f 0 0), .vrot (f 4 0)].all
        (fun i => kernelCheck press.me i == none)) = true ∧
      (f 4 0).isFloat = false ∧ (f 0 0).isFloat = true ∧ activeElems s.me (f 0 1) = [] ∧
      ((activeElems s.me (f 4 0)).map (intElem false 32)).length = 64 ∧
      ((activeElems s.me (f 0 0)).map (f 0 0).fmt.val).length = 64 ∧
      gives (exec (.vredAdd (f 0 0)) s) (fun t => newLanes t == some (8, [(4032, 0)])) = true ∧
      gives (exec (.vredMin (f 4 0)) s) (fun t => newLanes t == some (8, [(4032, 0xbf800000)])) = true ∧
      gives (exec (.vredMin (f 0 1)) s) (fun t => newLanes t == some (8, [(4032, 0x7f800000)])) = true ∧
      gives (exec (.vrot { f 4 0 with b := 63 }) s) (fun t =>
        newLanes t == some (2, [(4032, 0), (4033, 0x3f800000)])) = true := by decide +kernel

/-- Two ranks of one flight, the second acting. -/
def ranks (acting : Nat) (q : List (Nat × List (BitVec 32))) : State :=
  let other := { press.me with
    id := .tread 1 0 (1 - acting), spr := { press.me.spr with rank := BitVec.ofNat 64 (1 - acting), flw := 2 } }
  { press with
    me := { press.me with
      id := .tread 1 0 acting, spr := { press.me.spr with rank := BitVec.ofNat 64 acting, flw := 2, rise := 2 },
      units := { press.me.units with xq := q } },
    ring := [other] }

theorem witness_TransfersCrossBetweenFiles :
    let f : XT := ⟨gk0, false, false, 2, 1, 3⟩
    let own := press.modMe (fun h => { h with ctl := { h.ctl with run := .detached } })
    let masked := press.modMe (fun h => { h with regs := h.regs.setM 2 0x8000000000000000 })
    guardHolds f.gk.g press.me = true ∧ press.me.isCore = false ∧
      ([.xBcast f, .xFirst f, .xLane f, .xAny f, .xAll f, .xNone f, .xCnt f, .xPass f, .xRecv f].all (fun i =>
        kernelCheck press.me i == none && kernelCheck (ranks 0 []).me i == none &&
        kernelCheck (ranks 1 []).me i == none)) = true ∧
      (masked.me.regs.mReg 2).getLsbD 63 = true ∧ (List.range 63).all (fun j => !(masked.me.regs.mReg 2).getLsbD j) = true ∧
      press.me.regs.mReg 2 = 0 ∧ (ranks 0 []).me.ctl.run = .attached ∧
      (ranks 0 []).me.rank + 1 ≠ (ranks 0 []).me.spr.flw.toNat % 32 ∧
      (∃ t ∈ (ranks 0 []).hart? (ranks 0 []).me.nextRank, t.live = true ∧ t.xCount < 4) ∧
      press.me.rank + 1 = press.me.spr.flw.toNat % 32 ∧ press.me.rank = 0 ∧ (ranks 1 []).me.rank ≠ 0 ∧
      (ranks 1 []).me.units.xq = [] ∧ (ranks 1 [(3, [7]), (5, [9])]).me.units.xq = [(3, [7]), (5, [9])] ∧
      (ranks 1 [(3, [7]), (5, [9])]).me.vecWriteBad 3 ((vecWords 192 (BitVec.allOnes 64) false (fun _ => 0#32)).map (·.1)) = false ∧
      own.me.ctl.run ≠ .attached ∧
      gives (exec (.xFirst f) (masked.modMe (fun h => { h with regs := h.regs.setUnits [(127, 9)] }))) (fun t =>
        newest t == some (3, 1, 3, some [.s 3 9])) = true ∧
      gives (exec (.xPass f) (ranks 0 [])) (fun t =>
        t.ring.map (fun h => h.sched.pipe.map (fun p => (p.left, p.kind))) == [[(3, 10)]]) = true ∧
      gives (exec (.xRecv f) (ranks 1 [(3, [7]), (5, [9])])) (fun t => newLanes t == some (1, [(192, 7), (193, 0)])) = true ∧
      gives (exec (.xBcast f) ((press.withS 1 0x3f000000))) (fun t =>
        newLanes t == some (3, [(192, 0x3f000000), (193, 0x3f000000)])) = true := by decide +kernel

/-- A tread whose `x.recv` queue is full passes nothing more. -/
theorem witness_TransfersCrossBetweenFiles_full :
    let s := ranks 0 []
    let s : State := { s with ring := s.ring.map (fun h => { h with units := { h.units with xq := [(0, []), (1, []), (2, []), (3, [])] } }) }
    (∃ t ∈ s.hart? s.me.nextRank, t.live = true ∧ 4 ≤ t.xCount) := by decide +kernel

/-! ### Witnesses: the matrix and engine slots -/

/-- A press tread with a shape in `MSH` (R158), whose operand map 0 names its own vault with rows of B 64 bytes
apart. -/
def mapped (msh : Word) : State :=
  press.modMe (fun h => { h with
    spr := { h.spr with msh := msh },
    units := { h.units with
      om := NMap.put { base := 0, desc := 0 } 0 { base := 0x1ffffff00000000, desc := 0x8000000000000040 } [] } })

/-- The fields of an MX slot: operands s1 and s2, accumulator 3. -/
def mf (fmt : BitVec 4) (ta : BitVec 4) (ws : WaitSig) : MF := ⟨g0, ws, 2, 1, fmt, false, 0, ta, 3⟩

theorem treadReady_of {g : Guard} {i : Instr} {s : State}
    (h : (guardHolds g s.me && kernelCheck s.me i == none && !s.me.isCore) = true) : TreadReady g i s := by
  simpa [TreadReady, Ready, and_assoc] using h

theorem matrixReady_of {i : Instr} {f : MF} {s : State}
    (h : (guardHolds f.g s.me && kernelCheck s.me i == none && !s.me.isCore && s.me.sched.mx == none &&
      waitHolds f.ws s.me && s.me.ctl.held == none) = true) : MatrixReady i f s := by
  simp only [Bool.and_eq_true, beq_iff_eq, Bool.not_eq_true'] at h
  obtain ⟨⟨⟨⟨⟨hg, hk⟩, hc⟩, hm⟩, hw⟩, hh⟩ := h
  refine ⟨⟨⟨hg, hk⟩, hc⟩, hm, hw, fun sc e => ?_⟩
  rw [hh] at e
  cases e

/-- Full depth for FP16 (K = 32), one row and one column; the A operand a tile, or the latch. -/
theorem witness_MultiplicationsIssue_mma :
    let s := mapped 0x20010001
    let l := s.modMe (fun h => { h with units := { h.units with latch := some (List.replicate 1024 0#32) } })
    MatrixReady (.mma (mf 0 1 ws0)) (mf 0 1 ws0) s ∧ MultiplyReady false 0 (mf 0 1 ws0) s ∧
      MatrixReady (.mma (mf 0 8 ws0)) (mf 0 8 ws0) l ∧ l.me.units.latch.isSome = true ∧
      gives (exec (.mma (mf 0 1 ws0)) s) (fun t => newest t == some (40, 8, 3, none) &&
        (t.me.sched.mx.map (·.left)) == some 32) = true := by
  refine ⟨matrixReady_of ?_, ⟨?_, ?_, ?_, ?_, ?_, ?_, ?_, ?_, (mapped 0x20010001).me, 0, ?_, ?_⟩, matrixReady_of ?_,
    ?_, ?_⟩ <;> decide +kernel

/-- The unit busy; a wait that is not satisfied; a map that is not set (R373: that before either). -/
theorem witness_MultiplicationsIssue_stall :
    let f := mf 0 1 ⟨0, 0, 1, 3⟩
    let s := mapped 0x20010001
    let busy := s.modMe (fun h => { h with sched := { h.sched with mx := some ⟨0, 5, 27, false, 0, none, none⟩ } })
    TreadReady f.g (.mma f) s ∧ MultiplyReady false 0 f s ∧ TreadReady f.g (.mma f) busy ∧
      waitHolds f.ws s.me = false ∧ s.me.ctl.held = none ∧ busy.me.sched.mx.isSome = true ∧
      gives (exec (.mma f) s) (fun t => t.me.iss.out == .stalled false) = true ∧
      gives (exec (.mma (mf 0 1 ws0)) busy) (fun t => t.me.iss.out == .stalled false) = true ∧
      mmaBad f press.me = true ∧
      gives (exec (.mma f) press) (fun t => wbits 23 0 t.me.spr.tcause == 0x901) = true := by
  refine ⟨treadReady_of ?_, ⟨?_, ?_, ?_, ?_, ?_, ?_, ?_, ?_, (mapped 0x20010001).me, 0, ?_, ?_⟩, treadReady_of ?_,
    ?_, ?_, ?_, ?_, ?_, ?_, ?_⟩ <;> decide +kernel

/-- A tensor of 64 by 64 INT8 elements at 0x4000 with groups of 64 along dimension 0 and its records at 0x8000, the
descriptor standing at address 0x1000 (R118). -/
def quantMem (fmt : Nat) : NMap Byte :=
  putBytes 0x1000 (toBytes 64 (1 + fmt * 2 ^ 64 + 2 * 2 ^ 84 + 64 * 2 ^ 208 + 4096 * 2 ^ 160 + 4096 * 2 ^ 112
    + 2 ^ 256 + 2 ^ 288 + 64 * 2 ^ 320 + 64 * 2 ^ 352 + 0x8000 * 2 ^ 384 + 0x4000 * 2 ^ 448)) []

/-- The press tread with that descriptor table, at the page that its translation cache holds. -/
def quantized (fmt : Nat) : State :=
  let s := (mapped 0x40010001).modMe (fun h => { h with lsu := { h.lsu with tlb :=
    [{ part := 0, mon := false, vpn := 1, span := 1, ipn := 1, ppn := 1, one := true, r := true, w := true, x := true, u := false,
       device := false }] } })
  { s with hub := Hub.setPart 0 (fun p => { p with tdtb := 0x1001 }) { s.hub with mem := quantMem fmt } }

theorem witness_MultiplicationsIssue_descriptors :
    let ok : Nat → Option (Nat × Nat) := fun fmt => match (quantized fmt).readTdt 0 with
      | .ok d n _ => if n = 0 then some (d.fmt, d.group) else none
      | _ => none
    ok 8 = some (8, 64) ∧ ok 9 = some (9, 64) ∧ (8 = if (mf 6 1 ws0).fmt = 6#4 then 8 else 9) ∧
      (9 ≠ if (mf 6 1 ws0).fmt = 6#4 then 8 else 9) ∧
      gives (exec (.mmaQ (mf 6 1 ws0)) (quantized 8)) (fun t => newest t == some (40, 8, 3, none)) = true ∧
      gives (exec (.mmaQ (mf 6 1 ws0)) (quantized 9)) (fun t => wbits 7 0 t.me.spr.tcause == 10) = true := by
  decide +kernel

theorem witness_MultiplicationsIssue_mmaQ :
    MatrixReady (.mmaQ (mf 6 1 ws0)) (mf 6 1 ws0) (quantized 8) ∧
      MultiplyReady true 64 (mf 6 1 ws0) (((quantized 8).sawTdt 0 32).sawTdt 0 32) ∧
      (quantized 8).recallOf 32 = none ∧ ((quantized 8).sawTdt 0 32).recallOf 32 = none ∧
      mmaBad (mf 6 1 ws0) (quantized 8).me = false := by
  refine ⟨matrixReady_of ?_, ⟨?_, ?_, ?_, ?_, ?_, ?_, ?_, ?_, (((quantized 8).sawTdt 0 32).sawTdt 0 32).me, 0, ?_, ?_⟩,
    ?_, ?_, ?_⟩ <;> decide +kernel

/-- Each clause: a NaN, both infinities, one infinity, negative zeros only, a value that R126 allows, the exact sum of
exact ones, a zero of terms that cancel, and an overflow, whose infinity has the sign of the partial sum. -/
theorem witness_AccumulateFollowsSpecialValues :
    let n (k : Int) : FVal := .fin (decide (k < 0)) k.natAbs 1
    let big : FVal := .fin false fp32Max 1
    (∃ x ∈ [FVal.nan, n 1], x.isNan = true) ∧ FVal.inf true ∈ [FVal.inf true, .inf false] ∧
      FVal.inf false ∈ [FVal.inf true, .inf false] ∧ (∀ x ∈ [FVal.inf true, n 1], x.isNan = false) ∧
      FVal.inf (!true) ∉ [FVal.inf true, n 1] ∧ (∀ x ∈ [FVal.fin true 0 1, .fin true 0 1], x = .fin true 0 1) ∧
      accAllowed [.fin true 0 1, .fin true 0 1] [.fin true 0 1, .fin true 0 1] (fp32.val 0x3f800000) = false ∧
      accAllowed [n 1, n 2] [n 1, n 2] (fp32.val 0x40400000) = true ∧ (fp32.val 0x40400000).isZero = false ∧
      sumExact [n 1, n 2] = true ∧ accAllowed [n 1, n 2] [n 1, n 2] (fp32.val 0x40400001) = false ∧
      accumulate 0x40400001 (n 1) [n 2] [n 2] = 0x40400000 ∧
      accumulate 0x80000000 (n 1) [n (-1)] [n (-1)] = 0 ∧
      accAllowed [big, big] [big, big] (.inf false) = true ∧ accAllowed [big, big] [big, big] (.inf true) = false ∧
      accumulate 0x7f800000 big [big] [big] = 0x7f800000 := by decide +kernel

theorem witness_AccumulatorAndMapOperations :
    let f := mf 0 0 ws0
    let s := (press.withS 1 0x1ffffff00000000).withS 2 0x8000000000000040
    let rows := (press.withS 1 0x1ffffff00000000).withS 2 512
    (∀ i ∈ [Instr.accClr f, .accLd f, .accSt f, .accCvt f, .latchRel f, .omSet f], MatrixReady i f s) ∧
      AccumulatorRowsReady f rows ∧ rows.me.viewWriteBad (rows.me.accKeys 3 64 128) = false ∧
      (∀ p ∈ s.me.sched.pipe, p.kind ≠ 8) ∧ s.me.shape.1 ≤ 64 ∧ s.me.shape.2.1 ≤ 128 ∧
      s.me.viewWriteBad (((List.range 4096).map (s.me.tBase + ·))) = false ∧
      ((press.me.regs.sReg f.b).getLsbD 63 = false) ∧
      (wbits 62 48 (s.me.regs.sReg 2) = 0 ∧ wbits 15 0 (s.me.regs.sReg 2) % 64 = 0 ∧
        inVault ((s.me.regs.sReg 1).toNat % 2 ^ 57) = true ∧ (s.me.regs.sReg 1).toNat % 2 ^ 57 % 64 = 0 ∧
        (∃ e ∈ s.vaultTarget ((s.me.regs.sReg 1).toNat % 2 ^ 57),
          (s.me.regs.sReg 1).toNat % 2 ^ 57 % 2 ^ 23 < vaultSize e.1.place.chip)) ∧
      gives (exec (.accClr f) s) (fun t => (newest t).any (fun e => e.1 == 2)) = true ∧
      gives (exec (.accLd f) rows) (fun t => (newest t).any (fun e => e.1 == 40)) = true ∧
      gives (exec (.accCvt f) s) (fun t => (newest t).any (fun e => e.1 == 20 && e.2.1 == 6)) = true ∧
      gives (exec (.omSet f) s) (fun t => t.me.units.om.length == 1) = true := by
  refine ⟨fun i hi => ?_, ⟨by decide +kernel, _, _, rfl, by decide +kernel⟩, by decide +kernel⟩
  simp only [List.mem_cons, List.not_mem_nil, or_false] at hi
  rcases hi with rfl | rfl | rfl | rfl | rfl | rfl <;>
    exact matrixReady_of (by decide +kernel)

/-- The fields of an EC slot: A s1, B s2, C s3, D s4. -/
def ef (q : BitVec 4) (ws : WaitSig) : EF := ⟨g0, ws, q, 3, 2, 1, 4⟩

/-- A copy of 64 bytes from 0x200 into the vault; an unsatisfied wait; a full engine. -/
theorem witness_EngineOperationsAreAccepted :
    let f := ef 0 ws0
    let at_ (a b c : Word) := ((press.withS 1 a).withS 2 b).withS 3 c
    let gv := at_ 0x1ffffff00000000 0x200 64
    let vg := at_ 0x200 0x1ffffff00000000 64
    let op : EngOp :=
      { id := 0, kind := .copy, dst := 0, src := 0, len := 0, hyp := 0, lt := 0, lvl := 0, stat := .running, promise := 0,
        latched := false, sig := none, stamp := 0, seen := false, left := [], avoid := [], got := none, verWait := [],
        tick := 0, tags := [], tainted := [], turn := 0 }
    let full := gv.modMe (fun h => { h with units := { h.units with eng := List.replicate 1024 op } })
    ([.copyGv f, .copyVg f, .copyVv f, .copyGg f, .copyTile f, .copyIdx f, .netPut f, .netGet f].all (fun i =>
      kernelCheck press.me i == none)) = true ∧ guardHolds f.g press.me = true ∧ press.me.isCore = false ∧
      waitHolds f.ws press.me = true ∧ press.me.engFull = false ∧ (gv.me.regs.sReg f.c).toNat < 2 ^ 32 ∧
      classBad true (gv.me.addrReg f.a) 64 = false ∧ classBad false (gv.me.addrReg f.b) 64 = false ∧
      classBad false (vg.me.addrReg f.a) 64 = false ∧ classBad true (vg.me.addrReg f.b) 64 = false ∧
      classBad true 0x1ffffff00000000 4096 = false ∧
      waitHolds (ef 0 ⟨0, 0, 1, 0⟩).ws press.me = false ∧ full.me.engFull = true ∧
      gives (exec (.copyGv f) gv) (fun t => t.me.units.eng.length == 1) = true ∧
      gives (exec (.copyVg f) vg) (fun t => t.me.units.eng.length == 1) = true ∧
      gives (exec (.copyGv f) { gv with hub := { gv.hub with banks := [(0, 1)] } }) (fun t =>
        t.me.units.eng.length == 1) = true ∧
      gives (exec (.copyGg f) (at_ 0x400 0x200 0)) (fun t => t.me.units.eng.map (·.stat) == [.done]) = true ∧
      gives (exec (.copyIdx f) (at_ 0x1ffffff00000000 0x200 2)) (fun t => t.me.units.eng.length == 1) = true ∧
      gives (exec (.netPut f) gv) (fun t => t.me.units.eng.map (·.stat) == [.failed]) = true ∧
      gives (exec (.copyGv f) full) (fun t => t.me.iss.out == .stalled false) = true := by
  decide +kernel

theorem witness_EngineOperationsAreAccepted_ranges :
    (∃ ps, press.pieces .engWrite 2 (ends 0x1ffffff00000000 64) = .ok ps) ∧
      (∃ ps, press.pieces .engRead 2 (ends 0x200 64) = .ok ps) ∧
      (∃ ps, press.pieces .engRead 2 (ends 0x1ffffff00000000 64) = .ok ps) ∧
      (∃ ps, press.pieces .engWrite 2 (ends 0x200 64) = .ok ps) ∧
      (∃ ps, press.pieces .engWrite 2 (ends 0x1ffffff00000000 4096) = .ok ps) ∧
      (∃ ps, press.pieces .engRead 2 [] = .ok ps) ∧ tileCoord 0 0 % 2 = 0 ∧
      gives (exec (.copyTile (ef 0 ws0)) ((quantized 8).withS 1 0x1ffffff00000000)) (fun t =>
        t.me.units.eng.length == 1) = true := by
  exact ⟨⟨_, rfl⟩, ⟨_, rfl⟩, ⟨_, rfl⟩, ⟨_, rfl⟩, ⟨_, rfl⟩, ⟨_, rfl⟩, by decide +kernel, by decide +kernel⟩

/-- The tread's own semaphore, another tread of the gang (R246), and a selector outside the gang. -/
theorem witness_SemaphoresChange :
    let f (q : BitVec 4) : EF := ⟨g0, ws0, q, 3, 63, 1, 4⟩
    let s := ranks 0 []
    let sel (v : Word) := s.withS 4 v
    guardHolds (f 0).g s.me = true ∧ s.me.isCore = false ∧ waitHolds (f 0).ws s.me = true ∧
      ([.semAdd (f 0), .semSub (f 0), .semSet (f 1)].all (fun i => kernelCheck s.me i == none)) = true ∧
      (f 0).q.getLsbD 0 = false ∧ (f 1).q.getLsbD 0 = true ∧ wbits 63 7 ((sel 1).me.regs.sReg 4) = 0 ∧
      (sel 1).me.selectorOk (wbits 6 4 ((sel 1).me.regs.sReg 4)) (wbits 3 0 ((sel 1).me.regs.sReg 4)) = true ∧
      ¬(wbits 6 4 ((sel 1).me.regs.sReg 4) = wbits 2 0 s.me.spr.gang ∧ wbits 3 0 ((sel 1).me.regs.sReg 4) = s.me.rank) ∧
      (wbits 6 4 ((sel 0).me.regs.sReg 4) = wbits 2 0 s.me.spr.gang ∧ wbits 3 0 ((sel 0).me.regs.sReg 4) = s.me.rank) ∧
      s.me.id = .tread 1 0 0 ∧
      (sel 0x10).me.selectorOk (wbits 6 4 ((sel 0x10).me.regs.sReg 4)) (wbits 3 0 ((sel 0x10).me.regs.sReg 4)) = false ∧
      wbits 63 7 ((sel 0x80).me.regs.sReg 4) ≠ 0 ∧
      gives (exec (.semAdd (f 0)) (s.withS 1 7)) (fun t => t.me.units.semIn == [⟨255, 0, 7, 0, false⟩]) = true ∧
      gives (exec (.semSet (f 1)) ((sel 1).withS 1 7)) (fun t =>
        t.me.units.semOut.map (fun u => (u.target, u.n, u.op, u.v)) == [(.tread 1 0 1, 255, 2, 7)]) = true ∧
      gives (exec (.semSub (f 1)) (sel 0x10)) (fun t => wbits 7 0 t.me.spr.tcause == 9) = true := by decide +kernel

theorem witness_CopyChecksAndSignalWrites :
    let f := ef 0 ws0
    let op (st : EngStat) (p : Nat) : EngOp :=
      { id := 0, kind := .copy, dst := 0, src := 0, len := 0, hyp := 0, lt := 0, lvl := 0, stat := st, promise := p,
        latched := false, sig := none, stamp := 0, seen := false, left := [], avoid := [], got := none, verWait := [],
        tick := 0, tags := [], tainted := [], turn := 0 }
    let s (l : List EngOp) := (press.withS 1 8).modMe (fun h => { h with units := { h.units with eng := l } })
    let ops (l : List EngOp) := (s l).me.units.eng.filter (fun o => o.promise ≤ ((s l).me.regs.sReg f.a).toNat)
    guardHolds f.g press.me = true ∧ press.me.isCore = false ∧ waitHolds f.ws press.me = true ∧
      kernelCheck press.me (.copyCheck f) = none ∧ kernelCheck press.me (.sigWr f) = none ∧
      (∀ o ∈ ops [op .done 8, op .running 9], o.stat = .done) ∧
      (∀ o ∈ ops [op .done 8, op .failed 8], o.stat = .done ∨ o.stat = .failed) ∧
      (∃ o ∈ ops [op .done 8, op .failed 8], o.stat = .failed) ∧
      inVault ((s []).me.addrReg f.a) = false ∧
      (s []).pieces .atomic 2 [((s []).me.addrReg f.a, 8)] = .ok [⟨8, 8, 8, .mem false⟩] ∧
      (s []).me.addrReg f.a % 8 = 0 ∧ (s []).me.spr.hyp = 0 ∧ (tagged 1 (s [])).me.spr.hyp ≠ 0 ∧
      inVault ((press.withS 1 0x1ffffff00000000).me.addrReg f.a) = true ∧
      gives (exec (.copyCheck f) (s [op .done 8, op .running 9])) (fun t =>
        newest t == some (3, 1, 4, some [.s 4 0, .seen 8])) = true ∧
      gives (exec (.copyCheck f) (s [op .done 8, op .failed 8])) (fun t =>
        newest t == some (3, 1, 4, some [.s 4 1])) = true ∧
      (∃ o ∈ ops [op .running 8], o.unfinished = true) ∧
      gives (exec (.copyCheck f) (s [op .running 8])) (fun t => (newest t).isSome && t.free == 1) = true ∧
      gives (exec (.sigWr f) (s [])) (fun t => t.me.lsu.writes.length == 1) = true ∧
      gives (exec (.sigWr f) (tagged 1 (s []))) (fun t => t.me.units.pending == 2) = true ∧
      gives (exec (.sigWr f) (press.withS 1 0x1ffffff00000000)) (fun t => wbits 7 0 t.me.spr.tcause == 9) = true := by
  decide +kernel

/-! ### Witnesses: events of harts -/

/-- The press tread with a change, at a time of `CLK`. -/
def tread (f : Hart → Hart) (clk : Nat := 0) : State :=
  { press.modMe f with hub := { press.hub with clk := clk } }

/-- The press tread with results in flight. -/
def flying (ps : List Pend) : State := tread (fun h => { h with sched := { h.sched with pipe := ps } })

/-- The name of the press tread. -/
def me : HartId := .tread 1 0 0

/-- The press tread finds itself, whatever changes. -/
theorem focus_tread (f : Hart → Hart) (c : Nat) (h : (f press.me).id = me) : (tread f c).focus me = some (tread f c) := by
  simp [State.focus, tread, State.modMe, h]

theorem witness_HartWaitsEnd_results :
    let lands := flying [⟨0, 0, 0x1000, 1, 63, some [.s 63 9]⟩]
    let passed := flying [⟨0, 0, 0x1000, 10, 0, some [.xpass 3 [7]]⟩]
    let late := flying [⟨0, 0, 0x1000, 1, 3, none⟩]
    lands.focus me = some lands ∧ passed.focus me = some passed ∧ late.focus me = some late ∧
      (∃ p ∈ late.me.sched.pipe, p.left = 0 ∧ p.effs = none) ∧ late.me.isCore = false ∧
      press.me.lsu.want.isSome = false ∧ press.me.sched.pipe = [] ∧
      gives (exec (.exposedResultLands me) lands) (fun t => t.me.regs.sReg 63 == 9 && t.me.sched.pipe == []) = true ∧
      gives (exec (.xPassEntryArrives me) passed) (fun t => t.me.units.xq == [(3, [7])]) = true ∧
      gives (exec (.freeze me) late) (fun t => t.me.ctl.frozen) = true ∧
      gives (exec (.freezeEnd me) late) (fun t => decide (t = late)) = true ∧
      gives (exec (.freezeEnd me) (tread (fun h => { h with ctl := { h.ctl with frozen := true } }))) (fun t =>
        !t.me.ctl.frozen) = true := by decide +kernel

/-- An operation of the matrix unit at its end: without a job, and a load of an accumulator. -/
theorem witness_HartWaitsEnd_matrix :
    let job : MxJob := ⟨0, true, 3, 0, 1, 1, 0, 0, false, 0x100000000000, 0, 0, 0, [(0, 7)], none, [], []⟩
    let s (j : Option MxJob) := tread (fun h => { h with
      sched := { h.sched with mx := some ⟨0, 0, 32, true, 0x1000, none, j⟩, pipe := [⟨0, 8, 0x1000, 8, 3, none⟩] },
      units := { h.units with latch := some [] } })
    (s none).me.sched.mx = some ⟨0, 0, 32, true, 0x1000, none, none⟩ ∧
      (s (some job)).me.sched.mx = some ⟨0, 0, 32, true, 0x1000, none, some job⟩ ∧
      gives (exec (.mxOccupancyEnd me) (s none)) (fun t => t.me.sched.mx == none && t.me.units.latch == none) = true ∧
      gives (exec (.mxOccupancyEnd me) (s (some job))) (fun t =>
        t.me.sched.mx == none && t.me.sched.pipe.all (fun p => p.effs.isSome)) = true := by decide +kernel

/-- A translation of S without stage 1 or stage 2 tables, one beyond the address space, and the times of a fence. -/
theorem witness_HartWaitsEnd_translations :
    let w (va : Nat) : Want := ⟨va, .load, 1, 0, 0⟩
    let s (va : Nat) := tread (fun h => { h with lsu := { h.lsu with want := some (w va) } })
    let f (c : Nat) := tread (fun h => { h with lsu := { h.lsu with fenceSince := some 0 } }) c
    (s 0).me.lsu.want = some (w 0) ∧ (w 0).tick ≤ (s 0).hub.clk ∧
      ([true, false].all (fun b => match (s 0).hub.resolve 0 b (w 0) with
        | .ok _ => false
        | .error _ => true)) = true ∧
      (f 4194304).me.lsu.fenceSince = some 0 ∧ 0 + 4194304 ≤ (f 4194304).hub.clk ∧
      (f 4194303).hub.clk < 0 + 4194304 ∧
      gives (exec (.translationWalk me 0 .load) (s 0)) (fun t => t.me.lsu.want == none && t.me.lsu.fault.isSome) = true ∧
      gives (exec (.fenceTimeout me) (f 4194304)) (fun t => t.me.units.pending == 16) = true ∧
      gives (exec (.fenceTimeout me) (f 4194303)) (fun t => decide (t = f 4194303)) = true := by decide +kernel

/-- A change of a semaphore for another tread, an arrival at a group, the timer at its time, and a flight at `MEET`. -/
theorem witness_HartWaitsEnd_events :
    let u : SemOut := ⟨.tread 1 0 1, 255, 0, 7, 0, 0⟩
    let r := (ranks 0 []).modMe (fun h => { h with units := { h.units with semOut := [u] } })
    let a := (grouped 0).modMe (fun h => { h with units := { h.units with arrivals := [⟨5, 0, none, 0⟩] } })
    let m := tread (fun h => { h with spr := { h.spr with meet := 0x1100 }, ctl := { h.ctl with run := .atMeet } })
    let c := core.modMe (fun h => { h with spr := { h.spr with tcmp := 0 } })
    r.me.units.semOut = [u] ∧ u.tick = 0 ∧ r.me.lsu.vstores = [] ∧ a.me.units.arrivals = [⟨5, 0, none, 0⟩] ∧
      a.hub.doneBefore 0 a.me = true ∧ m.harts.all (fun x => x.isCore || x.ctl.run == .atMeet) = true ∧
      (∃ x ∈ m.harts, x.id = .tread 1 0 0 ∧ x.ctl.run = .atMeet) ∧
      gives (exec (.semGgLands me) r) (fun t => t.ring.map (fun h => h.units.semIn) == [[⟨255, 0, 7, 0, true⟩]]) = true ∧
      gives (exec (.groupArrival me 5) a) (fun t =>
        t.hub.launches.map (fun l => l.groups.map (·.phase)) == [[1]]) = true ∧
      gives (exec (.timerExpiry 0) c) (fun t => t.me.spr.evpend.getLsbD 0) = true ∧
      gives (exec (.flightResumeAtMeet 1 0) m) (fun t =>
        (t.harts.filter (fun h => h.id == me)).map (fun h => (h.ctl.run, h.ctl.pc)) == [(.attached, 0x1100)]) = true := by
  decide +kernel

/-- One state for each latched condition. -/
theorem witness_BoundaryConditionsTrap :
    let l (f : Latched → Latched) := tread (fun h => { h with latched := f h.latched })
    let e := l (fun x => { x with memErr := [(0x40, 4), (0x80, 2)] })
    let p := l (fun x => { x with missed := [9, 7] })
    let d := l (fun x => { x with dbgStep := true })
    let x : XFault := ⟨1, 2, 1, 0⟩
    let o (st : EngStat) : EngOp :=
      { id := 0, kind := .copy, dst := 0, src := 0, len := 0, hyp := 0, lt := 0, lvl := 0, stat := st, promise := 5,
        latched := false, sig := none, stamp := 0, seen := false, left := [], avoid := [], got := none, verWait := [],
        tick := 0, tags := [], tainted := [], turn := 0 }
    let eng (st : EngStat) (c : Nat) := tread (fun h => { h with units := { h.units with eng := [o st] } }) c
    let v := tread (fun h => { h with lsu := { h.lsu with verWait := some (4096, 0x80) } })
    let n : State := { core.modMe (fun h => { h with spr := { h.spr with plv := 0, tcmp := 0, even := 1, evpend := 1 } }) with
      hub := { core.hub with clk := 1 } }
    let lost := tread (fun h => { h with
      spr := { h.spr with plv := 0 }, latched := { h.latched with hypLost := some (2, 2, 1) },
      units := { h.units with hstack := [(3, 0x80), (2, 0x40), (1, 0x20)] } })
    e.me.latched.memErr = (0x40, 4) :: [(0x80, 2)] ∧ p.me.latched.missed = 9 :: [7] ∧ d.me.latched.dbgStep = true ∧
      (eng (.suspended 0x40 x .engRead false) 0).me.units.eng = [o (.suspended 0x40 x .engRead false)] ∧
      v.me.lsu.verWait = some (4096, 0x80) ∧ (∃ e ∈ n.me.coreEventOf n.hub.clk, e.1 = 0) ∧
      press.me.ctl.run ≠ .retired ∧ lost.me.latched.hypLost = some (2, 2, 1) ∧ lost.me.level = 0 ∧
      popTo 2 lost.me.units.hstack = some (0x40, [(1, 0x20)]) ∧ lost.me.ctl.run = .attached ∧
      gives (exec (.treadStateError me 3 5) press) (fun t => wbits 23 0 t.me.spr.tcause == 0x311 && t.me.spr.taddr == 5) = true ∧
      gives (exec (.memoryError me) e) (fun t => wbits 23 0 t.me.spr.tcause == 0x40b && t.me.spr.taddr == 0x40 &&
        t.me.latched.memErr == [(0x80, 2)]) = true ∧
      gives (exec (.missedPromise me) p) (fun t => wbits 23 0 t.me.spr.tcause == 0x20e && t.me.spr.taddr == 7) = true ∧
      gives (exec (.debugStep me) d) (fun t => wbits 7 0 t.me.spr.tcause == 6 && t.me.level == 2) = true ∧
      gives (exec (.engineTranslationFault me 0) (eng (.suspended 0x40 x .engRead false) 0)) (fun t =>
        wbits 7 0 t.me.spr.tcause == 0x0d && t.me.spr.taddr == 0x40 && t.me.level == 2) = true ∧
      gives (exec (.engineTranslationFault me 0) ((eng (.suspended 0x40 x .engRead false) 0).modMe (fun h =>
        { h with spr := { h.spr with plv := 0 } }))) (fun t => t.me.level == 1) = true ∧
      (eng (.suspended 0x40 x .engRead false) 0).me.level ≤ 2 ∧
      gives (exec (.hypothesisFull me) v) (fun t => wbits 7 0 t.me.spr.tcause == 0x10) = true ∧
      gives (exec (.coreEvent 0) n) (fun t => wbits 23 0 t.me.spr.tcause == 0x12) = true ∧
      gives (exec (.missedPromiseLatch me) (eng .running 5)) (fun t => t.me.latched.missed == [5]) = true ∧
      gives (exec (.missedPromiseLatch me) (eng .running 4)) (fun t => t.me.latched.missed == []) = true ∧
      gives (exec (.hypothesisLost me) lost) (fun t =>
        t.me.ctl.pc == 0x40 && t.me.level == 0 && t.me.ctl.run == .orphan && t.me.spr.hyp == 1 &&
        wbits 23 0 t.me.spr.tcause == 0x20f) = true := by decide +kernel

/-! ### Witnesses: accesses at their home -/

/-- A store of two bytes at offset 5 of line 2 and an atomic there, each alone, and what they leave. -/
theorem witness_AccessesReachHome_writes :
    let w (k : WKind) : Write := ⟨7, 0x105, 0x105, k, 0, 0, 0, false, false, none, 0⟩
    let st := w (.store [(0, 0xaa), (1, 0xbb)])
    let am (op : AmoOp) := { w (.amo op false 5 0 7 3) with pa := 0x104 }
    let s (x : Write) := (tread (fun h => { h with
      lsu := { h.lsu with writes := [x] },
      sched := { h.sched with pipe := [⟨7, 3, 0x1000, 1, 3, none⟩] } })).modMe (fun h => { h with
        spr := { h.spr with lt := 9 } })
    let m (x : Write) : State := { s x with hub := { (s x).hub with mem := [(0x104, 0xfe#8), (0x107, 0xff#8)] } }
    (m st).me.headWrite = some st ∧ st.isStore = true ∧ st.tick ≤ (m st).hub.clk ∧ (m st).hub.loc st.pa = .hbm ∧
      (m st).me.isCore = false ∧ (m st).hub.vaultLine 2 = false ∧ (m st).hub.exclusive 2 = none ∧
      ((m st).hub.lineMeta 2).dir = 0 ∧ (m st).me.units.eng = [] ∧
      (m (am .add)).me.readySignal = none ∧ (m (am .add)).me.headWrite = some (am .add) ∧
      (m (am .add)).hub.loc (am .add).pa = .hbm ∧ (m (am .add)).hub.poisoned 0x104 = false ∧
      gives (exec (.writeStamp me) (m st)) (fun t => t.me.spr.storeTime == 9 && t.me.lsu.writes == [] &&
        t.hub.lines == [(2, { LineMeta.zero with wts := 9, rts := 9 })] &&
        t.hub.mem == [(0x104, 0xfe), (0x105, 0xaa), (0x106, 0xbb), (0x107, 0xff)]) = true ∧
      gives (exec (.atomicAtHome me) (m (am .add))) (fun t => t.me.spr.storeTime == 9 && t.me.lsu.writes == [] &&
        t.hub.mem == [(0x104, 0x03), (0x105, 0x01), (0x107, 0xff)] && t.me.sched.pipe ==
          [⟨7, 3, 0x1000, 1, 3, some [.s 3 0xffffffffff0000fe, .lt 9]⟩]) = true ∧
      gives (exec (.atomicAtHome me) (m (am .max))) (fun t =>
        t.hub.mem == [(0x104, 0x05)]) = true := by decide +kernel

/-- A load of the last two bytes of line 2, written at time 20 and leased by nobody. -/
def asking : State :=
  let a : Ask := ⟨7, [⟨0x17e, 0x17e, 2, .mem false⟩], .scalar 3 2 true, 0, 0, 0, [], 0⟩
  let s := tread (fun h => { h with
    lsu := { h.lsu with asks := [a] }, sched := { h.sched with pipe := [⟨7, 3, 0x1000, 1, 3, none⟩] } })
  { s with hub := { s.hub with
    mem := [(0x17f, 0x80)], lines := [(2, { LineMeta.zero with wts := 20, rts := 20 })] } }

theorem maybeEvict_none (a : Ask) (s : State) (h : s.me.lsu.lease = []) :
    s.maybeEvict a = { s with free := s.free + 1 } := by
  unfold State.maybeEvict
  cases Config.freeBool s.free <;> simp [State.modMe, h]
  rcases s with ⟨me, _, _, _, _, _⟩
  rcases me with ⟨_, _, _, _, _, _, _, _, lsu, _⟩
  rcases lsu with ⟨_, _, _, _, _, _, _, _, _, _, _, _, _, _⟩
  simp_all

theorem witness_AccessesReachHome_loads :
    let a : Ask := ⟨7, [⟨0x17e, 0x17e, 2, .mem false⟩], .scalar 3 2 true, 0, 0, 0, [], 0⟩
    let v : State := { asking with free := asking.free + 1 }
    let p : Piece := ⟨0x17e, 0x17e, 2, .mem false⟩
    asking.me.lsu.lease = [] ∧ asking.me.headAsk = some a ∧ a.tick ≤ asking.hub.clk ∧ a.answered = true ∧
      asking.coreFills a = none ∧ v.askFailure a = none ∧ v.misses a = [p] ∧ v.hub.exclusive (lineOf p.pa) = none ∧
      asking.me.blocked a.seq (lineOf p.pa) = false ∧ lineOf p.pa = 2 ∧
      (v.answerAsk a).me.spr.lt = 20 ∧ (v.answerAsk a).me.lsu.asks = [] ∧
      (v.answerAsk a).me.sched.pipe = [⟨7, 3, 0x1000, 1, 3, some [.s 3 0xffffffffffff8000]⟩] ∧
      (v.answerAsk a).me.lsu.lease.map (fun l => (l.line, l.wts, l.rts)) = [(2, 20, 36)] := by decide +kernel

/-- A direct store; a watch entry that was hit, and one that is checked again; the two parts of a `tlbinv`. -/
theorem witness_AccessesReachHome_rest :
    let d := tread (fun h => { h with lsu := { h.lsu with vstores := [⟨0, 0x100000000008, [1, 2], 0, 0, false⟩] } })
    let w (hit : Option Nat) : Watch := ⟨.hart me, 0, 0x100, 0x100, true, 0xff, 0, .eq, 0, hit⟩
    let s : State := { press with hub := { press.hub with watches := [w (some 12)] } }
    let r := tread (fun h => { h with lsu := { h.lsu with mon := .recheck 3 (w none) } }) 3
    let x : Xlat := ⟨0, false, 1, 1, 1, 1, true, true, true, true, true, false⟩
    let v (m : Option (List (HartId × Nat))) : TlbInv := ⟨5, me, 0, 0, 0x1000, 0, m⟩
    let i (m : Option (List (HartId × Nat))) : State := { press.modMe (fun h => { h with
        lsu := { h.lsu with tlb := [x], tlbinvs := [4, 5] }, ctl := { h.ctl with line := some (0, []) } }) with
      hub := { press.hub with tlbinvs := [v m] } }
    d.focus me = some d ∧ d.me.lsu.vstores = [⟨0, 0x100000000008, [1, 2], 0, 0, false⟩] ∧
      s.focus me = some s ∧ s.hub.watches = [w (some 12)] ∧ (w (some 12)).who = Waiter.hart me ∧
      r.focus me = some r ∧ r.me.lsu.mon = .recheck 3 (w none) ∧ 3 ≤ r.hub.clk ∧
      (i none).focus me = some (i none) ∧ (i none).hub.tlbinvs = [v none] ∧ (v none).tick ≤ (i none).hub.clk ∧
      (i (some [])).hub.tlbinvs = [v (some [])] ∧ (i (some [])).me.id = (v (some [])).by_ ∧
      gives (exec (.vaultStoreLands me) d) (fun t =>
        t.hub.mem == [(0x100000000008, 1), (0x100000000009, 2)] && t.me.lsu.vstores == []) = true ∧
      gives (exec (.watchTrigger me) s) (fun t => t.me.lsu.mon == .satisfied 12 && t.hub.watches == []) = true ∧
      gives (exec (.monWaitRecheck me) r) (fun t => match t.me.lsu.mon with
        | .satisfied _ => true
        | _ => false) = true ∧
      gives (exec (.tlbinvComplete 5) (i none)) (fun t =>
        t.me.lsu.tlb == [] && t.me.ctl.line == none && t.hub.tlbinvs.length == 1) = true ∧
      gives (exec (.tlbinvComplete 5) (i (some []))) (fun t =>
        t.hub.tlbinvs == [] && t.me.lsu.tlbinvs == [4]) = true := by decide +kernel

/-! ### Witnesses: the copy engine and the hub -/

/-- A copy of one byte from byte 8 of the tread's vault to byte 16, with the signal of semaphore 2. -/
def copyOp (kind : EngKind) (left : List (Nat × Nat)) : EngOp :=
  { id := 7, kind := kind, dst := 0x1ffffff00000010, src := 0x1ffffff00000008, len := 1, hyp := 0, lt := 0, lvl := 0,
    stat := .running, promise := 1000, latched := false, sig := some (2, 3), stamp := 0, seen := false, left := left,
    avoid := [], got := none, verWait := [], tick := 0, tags := [], tainted := [], turn := 0 }

/-- The press tread with one engine operation, and a connection 4 of its partition that is in order. -/
def copying (o : EngOp) : State :=
  let s := tread (fun h => { h with units := { h.units with eng := [o] } })
  { s with hub := { s.hub with
    mem := [(0x100000000008, 0x5a)],
    conns := [{ part := 0, q := 4, raw := 0x6001, spsn := 0, epsn := 0, err := false }],
    parts := s.hub.parts.set 0 { PartRegs.zero with connb := 1, pchip := 0x1000 } } }

theorem witness_EngineAndHubComplete_copy :
    let o := copyOp .copy [(0, 1)]
    let v : State := { copying o with free := (copying o).free + 2 }
    (copying o).me.running o.id = some o ∧ o.tick ≤ (copying o).hub.clk ∧
      (match v.engFetch o (o.unitOf 0) with
        | .ok (vs, []) => vs == [(0x5a, false)]
        | _ => false) = true ∧
      ((o.unitOf 0).head?).bind o.dstAt = some 0x1ffffff00000010 ∧
      (match v.engAt o .engWrite 0x1ffffff00000010 with
        | .ok a => a == .vault 0x100000000010
        | _ => false) = true ∧
      (copying (copyOp .copy [])).me.running 7 = some (copyOp .copy []) ∧
      gives (exec (.copyComplete me 7) (copying (copyOp .copy []))) (fun t =>
        t.me.units.eng.map (·.stat) == [.done] && t.me.units.semIn == [⟨2, 0, 3, 0, false⟩]) = true := by
  decide +kernel

theorem witness_EngineAndHubComplete_pick : (copyOp .copy [(0, 1)]).pick (copying (copyOp .copy [(0, 1)])).free = some 0 := by
  simp [EngOp.pick, copyOp, Nat.mod_one]

theorem witness_EngineAndHubComplete_net :
    let g := copyOp (.netGet 4) [(0, 1)]
    let p := copyOp (.netPut 4) []
    let w (n : Nat) := { copyOp .copy [(0, 1)] with hyp := 1, verWait := [(5, n)] }
    let v (n : Nat) : State := { copying (w n) with hub := (copying (w n)).hub.setPart 0 (fun p => { p with pquota := 0 }) }
    (copying g).me.running 7 = some g ∧ (copying g).netBefore g = false ∧ (copying g).hub.connOk 0 4 = true ∧
      (copying p).me.running 7 = some p ∧ (copying p).netBefore p = false ∧
      (v 0).me.running 7 = some (w 0) ∧ (v 0).versionFree 0 1 5 = false ∧
      (v 0).netBefore (w 0) = false ∧ (v 0).hub.deliveries = [] ∧
      gives (exec (.netComplete me 7 true [1, 2]) (copying g)) (fun t =>
        t.me.units.eng.map (·.got) == [some [1]]) = true ∧
      gives (exec (.netComplete me 7 true []) (copying p)) (fun t => t.me.units.eng.map (·.stat) == [.done]) = true ∧
      gives (exec (.netComplete me 7 false []) (copying p)) (fun t =>
        t.me.units.eng.map (·.stat) == [.failed] && t.me.units.pending == 2) = true ∧
      gives (exec (.engineVersionTimeout me 7) (v 4096)) (fun t =>
        t.me.units.eng.map (·.stat) == [.failed]) = true ∧
      gives (exec (.engineVersionTimeout me 7) (v 4095)) (fun t => decide (t = v 4095)) = true := by
  decide +kernel

/-- Hypothesis 1 with a child 2, and a request of the tread. -/
def requesting (kind : Nat) (node : Word) : State :=
  let s := tread (fun h => { h with lsu := { h.lsu with hubReq := some ⟨0x1000, kind, node, none⟩ } })
  { s with hub := { s.hub with
    nodes := [{ part := 0, id := 1, parent := 0 }, { part := 0, id := 2, parent := 1 }] } }

theorem witness_EngineAndHubComplete_hypotheses :
    let ans (t : State) := t.me.lsu.hubReq.bind (·.answer)
    (requesting 0 0).me.lsu.hubReq = some ⟨0x1000, 0, 0, none⟩ ∧ (requesting 0 0).hub.node 0 3 = none ∧
      (∀ k < 3, 0 < k → ((requesting 0 0).hub.node 0 k).isSome = true) ∧
      (requesting 1 9).hub.node 0 9 = none ∧
      (requesting 2 1).hub.node 0 1 = some { part := 0, id := 1, parent := 0 } ∧
      (requesting 1 2).hub.node 0 2 = some { part := 0, id := 2, parent := 1 } ∧
      gives (exec (.resolveComplete me) (requesting 0 0)) (fun t => ans t == some (3, 0) && t.hub.nodes.length == 3) = true ∧
      gives (exec (.resolveComplete me) (requesting 2 0)) (fun t => ans t == some (2, 0)) = true ∧
      gives (exec (.resolveComplete me) (requesting 1 9)) (fun t => ans t == some (1, 0)) = true ∧
      gives (exec (.resolveComplete me) (requesting 2 1)) (fun t => ans t == some (0, 0) && t.hub.nodes == []) = true ∧
      gives (exec (.resolveComplete me) (requesting 1 2)) (fun t =>
        (ans t).map (·.1) == some 0 && t.hub.nodes.map (·.id) == [1]) = true := by decide +kernel

theorem witness_EngineAndHubComplete_times :
    let s (c : Nat) : State := { press with hub := { press.hub with clk := c, raised := 64 } }
    let l : State := { press.modMe (fun h => { h with spr := { h.spr with lt := 12 } }) with
      hub := { press.hub with base := 2 ^ 40 - 2 ^ 32, lines := [(2, { LineMeta.zero with wts := 20, dir := 1 })] } }
    (s 128).hub.raised + 64 ≤ (s 128).hub.clk ∧ (s 127).hub.clk < (s 127).hub.raised + 64 ∧
      2 ^ 40 - 2 ^ 32 ≤ l.hub.base ∧
      gives (exec .baseTimeRise (s 128)) (fun t => t.hub.base == 1 && t.hub.raised == 128) = true ∧
      gives (exec .baseTimeRise (s 127)) (fun t => t.hub.base == 0) = true ∧
      gives (exec .logicalTimePause l) (fun t =>
        t.hub.base == 0 && t.me.spr.lt == 0 && t.hub.lines == [(2, { LineMeta.zero with dir := 1 })]) = true := by
  decide +kernel

/-! ### Witnesses: coherence and the stacks -/

/-- Line 2 as core 0 holds it in M. -/
def heldLine : PeerLine := ⟨0, 2, .M, 7#8 :: List.replicate 127 0#8⟩

/-- The press tread with a change of the package. -/
def pkg (f : Hub → Hub) : State := { press with hub := f press.hub }

theorem witness_CoherenceAndStacksMove_peers :
    let i (rec : Bool) : Inv := ⟨0, 2, rec, some 0, 0⟩
    let a := pkg (fun b => { b with peers := [heldLine], invs := [i false] })
    let r := pkg (fun b => { b with peers := [heldLine], invs := [i true] })
    let q : RdmaReq := ⟨0, 4, 0, 0, 0, 0, .fetchAdd, 0x100, 8, []⟩
    let l : Locked := ⟨0, 2, q, true, List.replicate 128 0#8, 0, some 44⟩
    let k := pkg (fun b => { b with peers := [heldLine], locked := [l], clk := 300 })
    let e := pkg (fun b => { b with mem := [(0x101, 9)] })
    a.hub.invs = [i false] ∧ a.hub.peers = [heldLine] ∧ r.hub.invs = [i true] ∧ r.hub.locked = [] ∧
      44 + 256 ≤ k.hub.clk ∧ k.hub.locked = [l] ∧
      (e.hub.localLoc (2 * 128)).leasable = true ∧ (e.hub.lineMeta 2).dir = 0 ∧ (e.hub.lineMeta 2).tenure = none ∧
      gives (exec (.invalidationAck 0 2) a) (fun t =>
        t.hub.invs == [⟨0, 2, false, none, 0⟩] && t.hub.mem == [(0x100, 7)] && t.hub.peers == []) = true ∧
      gives (exec (.invalidationAck 0 2) (pkg (fun b => { b with invs := [i false] }))) (fun t =>
        t.hub.invs == [⟨0, 2, false, none, 0⟩] && t.hub.mem == []) = true ∧
      gives (exec (.recallLine 2) r) (fun t =>
        t.hub.invs == [] && t.hub.mem == [(0x100, 7)] && t.hub.peers == [{ heldLine with st := .S }]) = true ∧
      gives (exec (.evictionNotice 0 2) (pkg (fun b => { b with peers := [heldLine] }))) (fun t =>
        t.hub.mem == [(0x100, 7)] && t.hub.peers == []) = true ∧
      gives (exec (.evictionNotice 0 2) k) (fun t => t.hub.peers == [heldLine]) = true ∧
      (e.hub.invalidated 2) = false ∧
      gives (exec (.peerFill 33 2 false) (pkg (fun b => { b with
          mem := [(0x101, 9)], lines := [(2, { LineMeta.zero with dir := dirFill 3 false 0 })] }))) (fun t =>
        t.hub.peers.map (fun p => (p.peer, p.st, p.bytes.getD 1 0)) == [(33, .S, 9)]) = true ∧
      gives (exec (.peerFill 33 2 true) e) (fun t => t.hub.peers.map (fun p => (p.peer, p.st, p.bytes.getD 1 0)) ==
        [(33, .M, 9)]) = true ∧
      gives (exec (.lockedSequenceTimeout 0 2) k) (fun t =>
        t.hub.peers == [{ heldLine with bytes := List.replicate 128 0#8 }] &&
        t.hub.locked.map (fun l => (l.held, l.deferred)) == [(false, none)]) = true := by decide +kernel

/-- A host line in the cache of core 0, and lines of a stack. -/
theorem witness_CoherenceAndStacksMove_lines :
    let p : PeerLine := { heldLine with line := 0x4000000000 }
    let h := pkg (fun b => { b with peers := [p] })
    let m := pkg (fun b => { b with mem := [(0x101, 9)], lines := [(2, { LineMeta.zero with poison := true })] })
    h.hub.localLoc (0x4000000000 * 128) = .host 0 ∧ (m.hub.localLoc (lineOf 0x105 * 128)).stacked = true ∧
      gives (exec (.evictionNotice 0 0x4000000000) h) (fun t => t.hub.peers == [] && t.hub.exts.map (fun x =>
        (x.far, x.pa, x.cxl)) == [(.host 0, 0x200000000000, some (0, .dirtyEvict))]) = true ∧
      gives (exec (.hostSnoop 0x4000000000 true) h) (fun t => t.hub.reply == .data p.bytes && t.hub.peers == []) = true ∧
      gives (exec (.hostSnoop 0x4000000000 false) h) (fun t => t.hub.reply == .data p.bytes) = true ∧
      gives (exec (.lineRead 0x105) m) (fun t =>
        t.hub.reply == .poisoned (0#8 :: 9#8 :: List.replicate 126 0#8)) = true ∧
      gives (exec (.lineWrite 0x105 5 [1, 2, 3]) m) (fun t =>
        t.hub.mem == [(0x100, 1), (0x101, 9), (0x102, 3)]) = true := by decide +kernel

/-- Regions of a side cache, its registers, its hash versions, errors and background work. -/
theorem witness_CoherenceAndStacksMove_stacks :
    let d (f : Stack → Stack) := pkg (fun b => { b with dram := b.dram.set 0 (f b.dram[0]) })
    let c := d (fun x => { x with msc := [⟨1, true, 15⟩, ⟨2, true, 3⟩, ⟨3, true, 1⟩], buffer := [2, 7] })
    let m (n : Nat) := d (fun x => { x with migrating := some n })
    let e := pkg (fun b => { b with mon := { b.mon with errst := 0x300000000 } })
    ((d id).hub.dram[0]).migrating = none ∧ ((m 9).hub.dram[0]).migrating = some 9 ∧
      e.hub.mon.errst.getLsbD 31 = false ∧
      wbits 63 32 e.hub.mon.errst ≠ 2 ^ 32 - 1 ∧
      gives (exec (.regionClean 0x100 1) c) (fun t =>
        t.hub.dram[0].msc == [⟨1, true, 15⟩, ⟨2, false, 3⟩, ⟨3, true, 1⟩] && t.hub.dram[0].buffer == [7]) = true ∧
      gives (exec (.regionInvalidate 0x100 1) c) (fun t =>
        t.hub.dram[0].msc == [⟨1, true, 15⟩, ⟨3, true, 1⟩]) = true ∧
      gives (exec (.configurationWrite 0 ⟨2, 8⟩ 5) (d id)) (fun t => t.hub.dram[0].regs == [(8, 5)]) = true ∧
      gives (exec (.configurationWrite 0 ⟨1, 8⟩ 5) (d id)) (fun t => t.hub.dram[0].regs == []) = true ∧
      gives (exec (.hashVersionAdopt 0) (d id)) (fun t => t.hub.dram[0].migrating == some 0) = true ∧
      gives (exec (.beaterMove 0) (m 9)) (fun t => t.hub.dram[0].migrating == some 10) = true ∧
      gives (exec (.beaterMove 0) (m 536870911)) (fun t => t.hub.dram[0].migrating == none) = true ∧
      gives (exec (.uncorrectableError (.line 0x105 true)) e) (fun t =>
        t.hub.lines == [(2, { LineMeta.zero with poison := true })] && t.hub.mon.errst == 0x381000000 &&
        t.hub.mon.erraddr == 0x105) = true ∧
      gives (exec (.uncorrectableError .corrected) e) (fun t => t.hub.mon.errst == 0x400000000) = true ∧
      gives (exec (.patrolScrub 0) e) (fun t => decide (t = e)) = true := by decide +kernel

/-! ### Witnesses: the stacks' tiles, and the outside -/

/-- Partition 0 with a second stage that gives it the first GiB as it is, and memory. -/
def paged (mem : NMap Byte) (f : Hub → Hub) : State :=
  pkg (fun b => f { b with
    mem := putBytes 0x4000 [0x01, 0x50] (putBytes 0x5000 [0x01, 0x60] (putBytes 0x6000 [0x3b] mem)),
    parts := b.parts.set 0 { PartRegs.zero with xl2 := 0x8000000000004000, tdtb := 0x1001 } })

/-- The tensor of `quantMem` has one tile; the tile beside it in dimension 2 lies out of range. -/
theorem witness_CoherenceAndStacksMove_tiles :
    let s := paged (quantMem 8) id
    let d : Tdt := ⟨1 + 8 * 2 ^ 64 + 2 * 2 ^ 84 + 64 * 2 ^ 208 + 4096 * 2 ^ 160 + 4096 * 2 ^ 112
      + 2 ^ 256 + 2 ^ 288 + 64 * 2 ^ 320 + 64 * 2 ^ 352 + 0x8000 * 2 ^ 384 + 0x4000 * 2 ^ 448⟩
    s.hub.readTdt s.free 0 0 = some d ∧ d.tileByte 0 65 = some 0x4041 ∧
      ((List.range 4096).all (fun o => (d.tileByte 0x100000000000 o).isNone)) = true ∧
      ((List.range 130).filterMap (fun o => (d.tileByte 0x3f00003f o).map (fun va => (va, o)))) = [(0x4fff, 0)] ∧
      s.hub.hubAddrs s.free 0 .store 0x4fff 1 = some [0x4fff] := by decide +kernel

/-- A load of the tread that waits for another package by link 3, and for a host. -/
def abroad (far : Far) (f : Link → Link) : State :=
  let a : Ask := ⟨7, [⟨0x200000000000, 0x200000000000, 8, .mem false⟩], .scalar 3 8 true, 0, 0, 0, [(9, none)], 0⟩
  let s := tread (fun h => { h with lsu := { h.lsu with asks := [a] } })
  { s with hub := { s.hub with
    exts := [⟨9, far, me, 0x200000000000, false, 8, none⟩], mon := { s.hub.mon with errst := 0x80000000 },
    links := s.hub.links.set 3 (f { Link.zero with trained := true, far := 5 }) } }

theorem witness_OutsideIsAnswered_links :
    let l := abroad (.link 3) id
    let d := abroad (.link 3) (fun x => { x with failed := 8 })
    let tags (t : State) := t.me.lsu.asks.map (·.tags)
    let c := pkg (fun b => { b with
      exts := [⟨4, .host 0, .core 0, 0x200000000000, false, 128, some (0, .rdShared)⟩] })
    l.hub.exts = [⟨9, .link 3, me, 0x200000000000, false, 8, none⟩] ∧ l.me.id = me ∧ l.me.lsu.writes = [] ∧
      l.me.units.eng = [] ∧ (l.hub.links[3]).trained = true ∧ (l.hub.links[3]).dead = false ∧
      (l.hub.links[3]).ready = true ∧ (d.hub.links[3]).spent = true ∧ d.hub.mon.errst.getLsbD 31 = true ∧
      gives (exec (.hostWriteComplete 9 [1]) (abroad (.host 0) id)) (fun t =>
        tags t == [[(9, some (0, [1]))]] && t.hub.exts == []) = true ∧
      gives (exec (.cxlDeviceAcknowledgement 9 [1]) (abroad (.cxl 0) id)) (fun t => tags t == [[(9, some (0, [1]))]]) = true ∧
      gives (exec (.hostWriteComplete 4 [6]) c) (fun t => t.hub.exts == [] && t.hub.peers.map (fun p =>
        (p.peer, p.line, p.st, p.bytes.take 2)) == [(0, 0x4000000000, .S, [6, 0])]) = true ∧
      gives (exec (.flitReceive 3 0 false .empty) l) (fun t =>
        (t.hub.links[3]).asked == some 0 && (t.hub.links[3]).next == 0) = true ∧
      gives (exec (.flitReceive 3 0 true (.answer 9 6 [1])) l) (fun t =>
        tags t == [[(9, some (0, [1]))]] && (t.hub.links[3]).next == 1 && t.me.spr.lt == 6) = true ∧
      (l.hub.loc 0x100).here = true ∧ l.hub.vaultLine (lineOf 0x100) = false ∧ l.hub.poisoned 0x100 = false ∧
      gives (exec (.flitReceive 3 0 true (.read 5 0x100 2 3)) l) (fun t =>
        (t.hub.links[3]).queue == [.answer 5 3 [0, 0]]) = true ∧
      gives (exec (.readyReturn 3) l) (fun t => (t.hub.links[3]).ready) = true ∧
      gives (exec (.linkUp 3 70) l) (fun t => (t.hub.links[3]).far == 6 && (t.hub.links[3]).trained) = true ∧
      gives (exec (.deadLink 3) d) (fun t => tags t == [[(9, some (1, []))]] && (t.hub.links[3]).dead) = true := by
  decide +kernel

/-- A bound stream of partition 0 with physical addresses, with virtual ones, and no stream. -/
theorem witness_OutsideIsAnswered_host :
    let s (e : Word) := paged [(0x101, 9)] (fun b => { b with
      mon := { b.mon with streams := b.mon.streams.set 0 [(0x21, e)] } })
    let b := s 0x8000000700000000
    let q (wr : Bool) (addr : Nat) (n : Nat) : HostReq := ⟨0, 0x721, false, wr, addr, List.replicate n 5#8⟩
    let addrs (addr n : Nat) : Option (List Nat) :=
      match (b.hub.inboundAddrs b.free 0 none .store ((List.range n).map (fun k => addr + k))).1 with
      | .ok l => some l
      | .error _ => none
    (NMap.get 0#64 (0x721 % 256) (b.hub.mon.streams[0])).getLsbD 63 = true ∧
      wbits 39 32 (NMap.get 0#64 (0x721 % 256) (b.hub.mon.streams[0])) = 0x721 / 256 ∧
      (NMap.get 0#64 (0x721 % 256) ((s 0).hub.mon.streams[0])).getLsbD 63 = false ∧
      addrs 0x101 2 = some [0x101, 0x102] ∧ addrs 0x10000000000000 1 = none ∧ b.hub.unreached 0x101 = false ∧
      gives (exec (.inboundHostRequest (q true 0x101 2)) (s 0)) (fun t =>
        t.hub.mon.iounb == 1 && t.hub.reply == .dropped) = true ∧
      gives (exec (.inboundHostRequest (q true 0x101 2)) b) (fun t =>
        bytesAt t.hub.mem 0x100 4 == [0, 5, 5, 0] && t.hub.reply == .done) = true ∧
      gives (exec (.inboundHostRequest (q false 0x100 2)) b) (fun t => t.hub.reply == .data [0, 9]) = true ∧
      gives (exec (.inboundHostRequest (q false 0x10000000000000 2)) b) (fun t => t.hub.reply == .unsupported) = true := by
  decide +kernel

/-- One address of an engine without a cached translation: either span gives it the same place. -/
theorem inboundAddrs_one {hb : Hub} {fr part a pa : Nat} {k : Fin 3} {acc : Acc} (hc : hb.caches[k] = [])
    (hv : (inVault (a % 2 ^ 57) || inQuire (a % 2 ^ 57)) = false)
    (h : ∀ b, ∃ x, hb.resolve fr b { va := a % 2 ^ 57, acc := acc, lvl := 0, part := part, tick := 0 } = .ok x ∧
      x.addr (a % 2 ^ 57) = pa) :
    ∃ c, hb.inboundAddrs fr part (some k) acc [a] = (.ok [pa], { hb with caches := c }) := by
  obtain ⟨x, hx, ha⟩ := h (Config.freeBool fr)
  simp only [Bool.or_eq_false_iff] at hv
  refine ⟨hb.caches.set k [x], ?_⟩
  simp only [Hub.inboundAddrs, Hub.inboundAddr]
  generalize a % 2 ^ 57 = v at *
  simp [Hub.translate, hc, evictFrom, cachedIn, dropDenying, hx, ha, hv, Except.map]

/-- A connection at port 2 for reads of 4096 bytes at 0x100000, and requests with its key and another. -/
theorem witness_OutsideIsAnswered_rdma :
    let raw := 0x60c1 + 2 * 2 ^ 8 + 4096 * 2 ^ 128 + 77 * 2 ^ 160 + 0x100000 * 2 ^ 215 + 3 * 2 ^ 328
    let s (pchip : Word) := (paged [(0x100001, 9)] (fun b => { b with
      lines := [(0x2000, { LineMeta.zero with dir := dirFill 3 false 0 })] })).setPart 0 (fun r => { r with pchip := pchip })
    let t : State := { s 0x4000 with hub := { (s 0x4000).hub with
      conns := [{ part := 0, q := 4, raw := raw, spsn := 0, epsn := 0, err := false }] } }
    let q (key : Nat) (op : RdmaOp) : RdmaReq := ⟨0, 4, 0, 3, key, 0, op, 0x100000, 2, [7, 8]⟩
    let c : Conn := { part := 0, q := 4, raw := raw, spsn := 0, epsn := 0, err := false }
    t.hub.conn 0 4 = some c ∧ c.accepts (q 77 .read) = true ∧ c.accepts (q 77 .write) = true ∧ c.accepts (q 78 .read) = false ∧
      (t.hub.part 0).pchip.getLsbD (12 + c.port) = true ∧
      gives (exec (.incomingRdma (q 77 .read)) press) (fun t => t.hub.reply == .accessError) = true ∧
      gives (exec (.incomingRdma (q 78 .read)) t) (fun u =>
        u.hub.reply == .accessError && u.hub.conns.map (·.err) == [true]) = true ∧
      (let u := t.rdmaRead (q 77 .read) 32 [0x100000, 0x100001]
       u.hub.reply == .data [0, 9] && u.hub.peers.map (·.st) == [.S]) = true ∧
      c.accepts { q 77 .read with len := 0 } = true ∧
      (let u := State.rdmaWrite (q 77 .write) 32 [0x100000, 0x100001] { t with hub := { t.hub with lines := [] } }
       u.hub.reply == .done && u.hub.peers.map (fun p => (p.st, p.bytes.take 3)) == [(.M, [7, 8, 0])]) = true ∧
      c.accepts (q 77 .fetchAdd) = true ∧ (q 77 .fetchAdd).addr % 8 = 0 ∧
      t.hub.caches[0] = [] ∧ t.hub.unreached 0x100000 = false ∧ (t.hub.loc 0x100000).cacheable = true ∧
      ([true, false].all (fun b => match t.hub.resolve t.free b ⟨0x100000, .load, 0, 0, 0⟩ with
        | .ok x => x.addr 0x100000 == 0x100000
        | .error _ => false)) = true ∧
      ([true, false].all (fun b => match t.hub.resolve t.free b ⟨0x40000000, .load, 0, 0, 0⟩ with
        | .ok _ => false
        | .error _ => true)) = true := by decide +kernel

/-! ### Witnesses: queues -/

/-- Queue 0 of partition 0: its descriptor at 0x2000, a ring of 16 packets at 0x3000, one packet available. -/
def aQueue : Queue :=
  { part := 0, q := 0, va := 0x2000, base := 0x3000, wline := 64, log2n := 4, pri := 2, state := 1, ridx := 5, widx := 6,
    pend := [], barrier := none, reread := none, deps := [] }

/-- The enabled positions 0, 1 and 17 of chiplet 0, which partition 0 holds, with its flights 0 and 1. -/
def holding (b : Hub) : Hub :=
  { b with
    record := List.replicate 48 0#8 ++ [3, 0, 2] ++ List.replicate 200 0#8,
    mon := { b.mon with chst := b.mon.chst.set 0 2 } }

/-- A partition with that queue, the packet `p` in its place of the ring, and memory. -/
def queued (p : Nat) (mem : NMap Byte) (f : Hub → Hub) : State :=
  paged (putBytes 0x3140 (toBytes 64 p) mem) (fun b => f (holding { b with queues := [aQueue] }))

/-- With a command of `QCTL` on queue 0. -/
def qctl (n : Nat) (s : State) : State :=
  s.setPart 0 (fun r => { r with qctl := BitVec.ofNat 64 (2 ^ 62 + n * 2 ^ 14), qtb := 0x2001 })

/-- An object with one kernel for profile 1 at 0x10000 (R414 to R416). -/
def object : NMap Byte :=
  putBytes 0x10000 (toBytes 64 (0x4a424f56 + 2 ^ 32 + 2 ^ 48 + 0x40 * 2 ^ 64 + 0x200 * 2 ^ 96))
    (putBytes 0x10040 (toBytes 16 (0x50 + 2 ^ 32 + 9 * 2 ^ 64))
      (putBytes 0x10050 (toBytes 16 (1 + 0x80 * 2 ^ 32))
        (putBytes 0x10080 (toBytes 64 (1 + 0x100 * 2 ^ 64 + 64 * 2 ^ 96)) [(0x20008, 7#8)])))

/-- One workgroup of width 2 of that kernel, with its arguments at 0x20000. -/
def dispatchWord : Nat :=
  1 + 3 * 2 ^ 9 + 2 * 2 ^ 16 + 2 ^ 27 + 2 ^ 32 + 0x10000 * 2 ^ 128 + 0x20000 * 2 ^ 192

theorem witness_QueuesAreProcessed_doorbell :
    let bell := queued 0 [(0x2038, 9#8)] (fun b => { b with queues := [{ aQueue with pend := [.poke, .bell] }] })
    bell.hub.queues = [{ aQueue with pend := [.poke, .bell] }] ∧
      bell.hub.readVa 0 0 ((0x2000 + 56) % 2 ^ 57) 8 = some [9, 0, 0, 0, 0, 0, 0, 0] ∧
      gives (exec (.doorbell 0 0) bell) (fun t => t.hub.queues.map (fun x => (x.pend, x.widx)) == [([.poke], 9)]) = true := by
  decide +kernel

theorem witness_QueuesAreProcessed_dispatch :
    let d := queued dispatchWord object id
    d.hub.nextPacket 0 0 0 = some (aQueue, some dispatchWord) ∧ packetIllegal dispatchWord = false ∧
      (match (d.hubSaw 0 0x3140 64).hub.launchOf (d.free + 1) aQueue dispatchWord with
        | .ok l => l.wgcnt == 1 && l.width == 2 && l.kernels.map (·.code) == [0x10100] && l.args.take 2 == [0, 7]
        | .error _ => false) = true := by decide +kernel

theorem witness_QueuesAreProcessed_bad :
    let bad := queued 9 [] id
    bad.hub.nextPacket 0 0 0 = some (aQueue, some 9) ∧ packetIllegal 9 = true ∧
      (pkg (fun b => { b with queues := [aQueue] })).hub.nextPacket 0 0 0 = some (aQueue, none) ∧
      gives (exec (.dispatchPacket 0 0) bad) (fun t => t.hub.queues.map (fun x => (x.state, x.ridx)) == [(2, 6)] &&
        bytesAt t.hub.mem 0x2000 9 == [2, 0, 0, 0, 0, 0, 0, 0, 1]) = true := by decide +kernel

theorem witness_QueuesAreProcessed_signals :
    let w := 3 + 2 ^ 12 + 0x8000 * 2 ^ 64 + 2 * 2 ^ 128
    let ba := queued 2 [] id
    let sg := queued w [(0x8000, 9#8)] id
    ba.hub.nextPacket 0 0 0 = some (aQueue, some 2) ∧ packetIllegal 2 = false ∧ packetWindow 2 = false ∧
      sg.hub.nextPacket 0 0 0 = some (aQueue, some w) ∧ packetIllegal w = false ∧ packetWindow w = false ∧
      gives (exec (.barrierPacket 0 0) ba) (fun t => t.hub.queues.map (·.ridx) == [6]) = true ∧
      gives (exec (.signalPacket 0 0) sg) (fun t =>
        t.hub.queues.map (·.ridx) == [6] && bytesAt t.hub.mem 0x8000 2 == [7, 0]) = true := by decide +kernel

theorem witness_QueuesAreProcessed_barriers :
    let w : Watch := ⟨.queue 0 0, 0, 0x8000, 0x8000, true, BitVec.allOnes 64, 1, .ne, 0, some 4⟩
    let x : Queue := { aQueue with barrier := some ([0x8000], 0) }
    let b := queued 2 [(0x8000, 0#8)] (fun b => { b with queues := [x], watches := [w] })
    let o := queued 2 [(0x8007, 128#8)] (fun b => { b with queues := [{ x with pend := [.poke] }] })
    let r := queued 2 [(0x8000, 1#8)] (fun b => { b with queues := [{ x with reread := some 9 }], clk := 9 })
    let e := queued 2 [] (fun b => { b with queues := [{ aQueue with barrier := some ([], 0) }] })
    b.hub.queue 0 0 = some x ∧ (∃ w ∈ b.hub.watches, w.who = Waiter.queue 0 0 ∧ w.hit.isSome = true) ∧
      o.hub.queue 0 0 = some { x with pend := [.poke] } ∧
      gives (exec (.barrierEvaluate 0 0) o) (fun t => bytesAt t.hub.mem 0x2000 9 == [2, 0, 0, 0, 0, 0, 0, 0, 6]) = true ∧
      r.hub.queue 0 0 = some { x with reread := some 9 } ∧ 9 ≤ r.hub.clk ∧
      e.hub.queue 0 0 = some { aQueue with barrier := some ([], 0) } ∧
      gives (exec (.barrierEvaluate 0 0) b) (fun t =>
        t.hub.queues.map (fun x => (x.barrier, x.ridx)) == [(none, 6)] && t.hub.watches == []) = true ∧
      gives (exec (.barrierSignalReread 0 0) r) (fun t => t.hub.watches.map (fun w => (w.pa, w.val)) == [(0x8000, 1)] &&
        t.hub.queues.map (·.reread) == [none]) = true ∧
      ((e.evalBarrier 0 0).hub.queues.map (fun x => (x.barrier, x.ridx))) = [(none, 6)] := by decide +kernel

/-- A launch of one kernel with one gang. -/
def aLaunch (spec : Bool) (g : Gang) : Launch :=
  { id := 4, part := 0, queue := 0, index := 5, slot := 5, pri := 2, wgcnt := 1, width := 2, gsize := 1, rel := 3,
    spec := spec, csig := 0, args := [3, 7],
    kernels := [{ prof := 1, xmode := false, rise := 0, vbase := 0, vcnt := 0, tbase := 0, tcnt := 0, abase := 0, acnt := 0,
                  code := 0x10100, codelen := 64, entry := 0, mask := 2, kid := 9, plan := none }],
    groups := [], members := [], gangs := [g], decisions := [], holds := [], served := 0, killed := false }

/-- Its gang with a state. -/
def aGang (st : GangSt) : Gang := { Gang.fresh 0 0 false with st := st, prof := 1 }

theorem witness_QueuesAreProcessed_completion :
    let ended : State := { core with hub := { core.hub with launches := [aLaunch false (aGang .retired)] } }
    ended.hub.launches = [aLaunch false (aGang .retired)] ∧ ended.launchDone (aLaunch false (aGang .retired)) = true ∧
      ended.me.id = .core 0 ∧
      gives (exec (.dispatchComplete 4) ended) (fun t => t.hub.launches == []) = true := by decide +kernel

theorem witness_QueuesAreProcessed_activation :
    let act := qctl 0 (queued 2 [(0x2002, 4#8), (0x2019, 0x30#8)] (fun b => { b with queues := [] }))
    wbits 63 62 (act.hub.part 0).qctl = 1 ∧ wbits 15 14 (act.hub.part 0).qctl = 0 ∧
      wbits 11 0 (act.hub.part 0).qctl = 0 ∧ (act.hub.part 0).qtb.getLsbD 0 = true ∧
      ((act.hub.readVa 0 0 0x2000 64).map (fun bs => descOk (leBytes bs))) = some true ∧
      ((act.hub.hubAddrs 0 0 .store 0x2000 64).map (·.length)) = some 64 := by decide +kernel

theorem witness_QueuesAreProcessed_commands :
    let off := qctl 1 (queued 2 [] (fun b => { b with queues := [] }))
    let rs (n : Nat) := qctl 2 (queued 2 [] (fun b => { b with queues := [{ aQueue with state := n }] }))
    wbits 15 14 (off.hub.part 0).qctl = 1 ∧ wbits 15 14 ((rs 1).hub.part 0).qctl = 2 ∧
      gives (exec (.qctlDisable 0 0) off) (fun t => wbits 63 62 (t.hub.part 0).qctl == 2) = true ∧
      gives (exec (.qctlReset 0 0) (rs 1)) (fun t => wbits 63 62 (t.hub.part 0).qctl == 3) = true ∧
      gives (exec (.qctlReset 0 0) (rs 2)) (fun t =>
        wbits 63 62 (t.hub.part 0).qctl == 2 && t.hub.queues.map (fun x => (x.state, x.pend)) == [(1, [.bell])]) = true := by
  decide +kernel

/-- A launch with the residual flag: an entry with its key, no quota, and a kernel of one retiring bundle. -/
theorem witness_QueuesAreProcessed_calender :
    let l := aLaunch true (aGang .unstarted)
    let key : List Byte := [2, 0, 2, 7, 0, 0, 0, 0, 0, 0, 0]
    let y : Quire := ⟨0, 64, 128, 9, 1, BitVec.ofNat 64 (crc64 key), key, 3, [], false⟩
    let s (q : Nat) (ys : List Quire) := (paged (putBytes 0x10100 [0x00, 0, 0, 0, 0] []) (fun b =>
      holding { b with launches := [l], quires := ys })).setPart 0 (fun r => { r with calctl := BitVec.ofNat 64 (q * 2 ^ 32) })
    let at_ (s : State) := (s.deciding 4 1).map (fun x => (x.1 == l, x.2))
    (s 0 []).hub.launches = [l] ∧ at_ (s 0 []) = some (true, aGang .unstarted, 0, 0) ∧
      at_ (s 1 []) = some (true, aGang .unstarted, 0, 0) ∧ at_ (s 0 [y]) = some (true, aGang .unstarted, 0, 0) ∧
      l.kernels.map (fun k => (k.prof, keyString k l)) = [(1, key)] ∧ y.fp.toNat = crc64 key ∧
      (s 0 []).hub.quireQuota 0 = 0 ∧ (s 1 []).hub.quireQuota 0 ≠ 0 ∧
      gives (exec (.calenderDecision 4 1) (s 0 [y])) (fun t =>
        t.hub.launches.map (·.decisions) == [[⟨1, some 64⟩]] && t.hub.quires.map (·.pins) == [[4]]) = true ∧
      gives (exec (.calenderDecision 4 1) (s 0 [])) (fun t => t.hub.launches.map (·.decisions) == [[⟨1, none⟩]] &&
        wbits 7 0 (t.hub.part 0).calst == 8) = true := by decide +kernel

theorem witness_QueuesAreProcessed_residual :
    let l := aLaunch true (aGang .unstarted)
    let s := (paged (putBytes 0x10100 (1#8 :: toBytes 4 (encode (.retire ⟨gk0⟩))) []) (fun b =>
      holding { b with launches := [l] })).setPart 0 (fun r => { r with calctl := BitVec.ofNat 64 (2 ^ 32) })
    let u := s.holdFlights l (aGang .unstarted) 0 0 1
    s.hub.quires = [] ∧ s.hub.quireQuota 0 ≠ 0 ∧ (s.deciding 4 1).map (·.2) = some (aGang .unstarted, 0, 0) ∧
      (match l.kernels with
        | [k] => (match (u.calEnv l k).specialise l k with
          | .ok bs => bs.take 1 == [1] && (bs.drop 64).take 5 == 1#8 :: toBytes 4 (encode (.retire ⟨gk0⟩))
          | .error _ => false)
        | _ => false) = true ∧
      gives (exec (.calenderDecision 4 1) s) (fun t => t.hub.launches.map (·.decisions) == [[⟨1, some 0⟩]]) = true := by
  decide +kernel

/-! ### Witnesses: gangs -/

/-- One launch with one gang on a machine with the positions of `holding`, and harts besides. -/
def ganged (g : Gang) (hs : List Hart) (f : Hub → Hub) : State :=
  { core with ring := hs, hub := f (holding { core.hub with launches := [aLaunch false g] }) }

/-- The treads of the gang on flight 0. -/
def itsTread (r : Nat) (f : Hart → Hart) : Hart := f (Hart.zero (.tread 4 0 r) ⟨0, 0, r⟩ .attached 0x10105)

/-- A placed gang, a saved one. -/
def saved : Gang := { aGang .saved with ctx := [itsTread 0 id, itsTread 1 id], since := 7, size := 100 }

theorem witness_GangsArePlacedSavedRestored_place :
    let u := ganged (aGang .unstarted) [] id
    let r := ganged saved [] id
    let places (s : State) := (s.hub.nextPlacement 0).map (fun x => (x.1 == aLaunch false x.2.1, x.2.2))
    u.hub.launches = [aLaunch false (aGang .unstarted)] ∧
      (u.hub.nextPlacement 0).map (fun x => x.2.1) = some (aGang .unstarted) ∧ places u = some (true, [(0, 0)]) ∧
      (∀ h ∈ u.harts ++ r.harts, h.hasDirty = false) ∧
      (r.hub.nextPlacement 0).map (fun x => x.2.1) = some saved ∧ places r = some (true, [(0, 0)]) ∧
      r.hub.unplaceable (aLaunch false saved) saved = false ∧
      r.hub.targetsReady saved (saved.ctx.map (fun h => (h, r.hub.newPlace (aLaunch false saved) 0 0 0 h))) = true ∧
      gives (exec (.gangPlace 4 0 0 0) u) (fun t => t.ring.map (fun h => (h.id, h.ctl.pc, h.regs.gReg 1)) ==
        [(.tread 4 0 0, 0x10100, 7), (.tread 4 0 1, 0x10100, 7)]) = true ∧
      gives (exec (.gangRestore 4 0 0 0) r) (fun t => t.ring.map (fun h => (h.id, h.ctl.pc, h.place.pos)) ==
        [(.tread 4 0 0, 0x10105, 0), (.tread 4 0 1, 0x10105, 1)]) = true := by decide +kernel

/-- A launch of priority 6 waits while a gang of priority 2 holds the one flight that fits it. -/
theorem witness_GangsArePlacedSavedRestored_preempt :
    let g : Gang := { aGang .placed with idx := 1 }
    let l : Launch := { aLaunch false (aGang .placed) with gangs := [aGang .placed, g], wgcnt := 2 }
    let m : Launch := { aLaunch false (aGang .unstarted) with
      id := 5, pri := 6, wgcnt := 2, gangs := [aGang .retired, { aGang .unstarted with idx := 1 }] }
    let v := ganged (aGang .placed) [] (fun b => { b with
      clk := 2 ^ 21, launches := [l, m],
      record := List.replicate 48 0#8 ++ [3] ++ List.replicate 200 0#8 })
    (v.nextVictims 0).map (fun x => (x.1.1.id, x.1.2.idx, x.2.map (fun e => (e.1.id, e.2.idx)))) = some (5, 1, [(4, 1)]) ∧
      v.hub.launches.find? (fun m => m.id = 4) = some l ∧
      (∀ m ∈ v.hub.launches, m.part = 0) ∧
      gives (exec (.gangPreempt 4 1) v) (fun t => t.hub.launches.map (fun l => l.gangs.map (·.st)) ==
        [[.placed, .saving .priority], [.retired, .unstarted]]) = true ∧
      gives (exec .sliceTimerTick v) (fun t => t.hub.launches.map (fun l => l.gangs.map (·.st)) ==
        [[.placed, .saving .priority], [.retired, .unstarted]]) = true := by decide +kernel

/-- A gang of priority 6 that needs both flights, which gangs of priority 2 hold (R276, R279): both are taken, and the
first, once saved, does not get its flight back. -/
theorem test_two_victims :
    let m : Launch := { aLaunch false (aGang .unstarted) with
      id := 5, pri := 6, width := 1, gsize := 2, wgcnt := 4, gangs := [aGang .retired, { Gang.fresh 1 0 false with idx := 1 }] }
    let v (a b : GangSt) := ganged (aGang .placed) [] (fun hb => { hb with
      clk := 2 ^ 21,
      launches := [{ aLaunch false (aGang a) with
        width := 1, wgcnt := 3, gangs := [{ aGang .placed with flight := 2 }, { aGang a with idx := 1 }, { aGang b with idx := 2, flight := 1 }] }, m] })
    let u := v .placed .placed
    let t := match u.nextVictims 0 with
      | some (c, vs) => u.yieldTo c vs
      | none => u
    let ends (n : Nat) : Hub := { t.hub with launches := t.hub.launches.map (fun l => { l with
      gangs := l.gangs.map (fun g => if g.st = .saving .priority ∧ g.idx ≤ n then { g with st := .saved } else g) }) }
    (u.nextVictims 0).map (fun x => x.2.map (fun e => e.2.idx)) = some [1, 2] ∧
      t.hub.launches.map (fun l => l.gangs.map (fun g => g.yields)) =
        [[none, some (5, 1), some (5, 1)], [none, none]] ∧
      (t.nextVictims 0).isNone = true ∧ ((ends 1).nextPlacement 0).isNone = true ∧
      ((ends 2).nextPlacement 0).map (fun x => (x.1.id, x.2.1.idx, x.2.2)) = some (5, 1, [(0, 0)]) := by
  decide +kernel

theorem witness_GangsArePlacedSavedRestored_save :
    let sv := ganged (aGang (.saving .park)) [itsTread 0 id, itsTread 1 id] (fun b => { b with
      mon := { b.mon with ctxres := 64 } })
    let sp := ganged saved [] (fun b => { b with mon := { b.mon with ctxb := b.mon.ctxb.set 0 0x0010000000000000 } })
    (sv.gangHarts 4 0).length = 2 ∧ (∀ h ∈ sv.gangHarts 4 0, sv.hub.quiet h = true) ∧
      (∀ h ∈ sv.gangHarts 4 0, h.hasDirty = false) ∧
      sp.hub.spillable.map (fun x => (x.1.id, x.2)) = some (4, saved) ∧
      gives (exec (.contextSpill 4 0) sp) (fun t => t.hub.launches.map (fun l => l.gangs.map (·.spilled)) == [[true]]) = true := by
  decide +kernel

theorem witness_GangsArePlacedSavedRestored_waits :
    let old := ganged { saved with waitSince := 3, aged := 1 } [] (fun b => { b with clk := 2 * 16777216 + 3 })
    let st : Stall := ⟨5, 0x1000, true, 100, [(3, 0)], none⟩
    let h := itsTread 0 (fun h => { h with ctl := { h.ctl with stall := some st } })
    let k := ganged (aGang .placed) [h] (fun b => { b with clk := 105 })
    let p := { aGang .parked with ctx := [{ h with lsu := { h.lsu with mon := .satisfied 4 } }] }
    let w := ganged p [] id
    saved.held = false ∧ k.gangHarts 4 0 = [h] ∧ h.parkDue k.hub.clk = true ∧
      (∃ h ∈ p.ctx, (aLaunch false p).wakes h = true) ∧
      gives (exec (.agingTick 4 0) old) (fun t => t.hub.launches.map (fun l => l.gangs.map (·.aged)) == [[2]]) = true ∧
      gives (exec (.gangPark 4 0) k) (fun t => t.hub.launches.map (fun l => l.gangs.map (·.st)) == [[.saving .park]]) = true ∧
      gives (exec (.parkedGangWake 4 0) w) (fun t => t.hub.launches.map (fun l => l.gangs.map (·.st)) == [[.saved]]) = true := by
  decide +kernel

/-- Commands on the second gang of a launch. -/
theorem witness_GangsArePlacedSavedRestored_commands :
    let l (g : Gang) : Launch := { aLaunch false (aGang .placed) with gangs := [aGang .placed, g], wgcnt := 2 }
    let s (n : Nat) (g : Gang) : State := { core with hub := { core.hub with
      launches := [l g], slots := [(slotKey 0 0 5, 4)],
      parts := core.hub.parts.set 0 { PartRegs.zero with preq := BitVec.ofNat 64 (2 ^ 62 + n * 2 ^ 28 + 5), preqg := 1 } } }
    let g : Gang := { aGang .placed with idx := 1 }
    let q : Gang := { aGang .saved with idx := 1, held := true }
    (s 0 g).hub.preqGang 0 = some (l g, 1, some g) ∧ (l g).lead ≠ some 1 ∧ (s 2 q).hub.preqGang 0 = some (l q, 1, some q) ∧
      wbits 29 28 ((s 1 g).hub.part 0).preq = 1 ∧ wbits 63 62 ((s 1 g).hub.part 0).preq = 1 ∧
      gives (exec (.preqPreempt 0) (s 0 g)) (fun t =>
        t.hub.launches.map (fun l => l.gangs.map (·.st)) == [[.placed, .saving (.supervisor false)]]) = true ∧
      gives (exec (.preqPreemptHold 0) (s 1 g)) (fun t =>
        t.hub.launches.map (fun l => l.gangs.map (·.st)) == [[.placed, .saving (.supervisor true)]]) = true ∧
      gives (exec (.preqRelease 0) (s 2 q)) (fun t => t.hub.launches.map (fun l => l.gangs.map (·.held)) == [[false, false]] &&
        wbits 63 62 (t.hub.part 0).preq == 2) = true := by decide +kernel

theorem sum_mapIdx_le {α : Type} (m : Nat) (l : List α) (f : Nat → α → Nat) (h : ∀ i, ∀ x ∈ l, f i x ≤ m) :
    (l.mapIdx f).sum ≤ l.length * m := by
  induction l generalizing f with
  | nil => simp
  | cons a r ih =>
    have i := ih (fun j x => f (j + 1) x) (fun j x hx => h (j + 1) x (List.mem_cons_of_mem a hx))
    have j := h 0 a List.mem_cons_self
    rw [List.mapIdx_cons, List.sum_cons, List.length_cons, Nat.succ_mul, Nat.add_comm]
    exact Nat.add_le_add i j

/-- The part of a context's size that R389 fixes. -/
def fixedSize (s : State) (h : Hart) : Nat :=
  let k := s.kernelOf h
  (match k with
    | some k => 256 * k.vcnt + 4096 * k.tcnt + 32768 * k.acnt
    | none => 0) + (s.hub.liveBanks k (s.savedPos h) h).length * bankSize h.place.chip

/-- Whatever the free part of its size is, the context of the gang fits. -/
theorem witness_GangsArePlacedSavedRestored_room :
    let sv := ganged (aGang (.saving .park)) [itsTread 0 id, itsTread 1 id] (fun b => { b with
      mon := { b.mon with ctxres := 64 } })
    sv.hub.roomFor (sv.ctxSize [itsTread 0 id, itsTread 1 id]) = true := by
  intro sv
  have r : sv.hub.reserve = 805306368 := by decide +kernel
  have u : sv.hub.reserveUsed = 0 := by decide +kernel
  have f : ∀ x ∈ [itsTread 0 id, itsTread 1 id], fixedSize sv x ≤ 8388608 := by decide +kernel
  have h := sum_mapIdx_le (8388608 + 65536) [itsTread 0 id, itsTread 1 id]
    (fun i h => fixedSize sv h + freeAt sv.free i % 65536) (fun i x hx => by have := f x hx; omega)
  rw [Hub.roomFor, r, u, decide_eq_true_eq, Nat.zero_add]
  exact Nat.le_trans h (by decide)

/-! ### Witnesses: commands and registers -/

/-- A package with `CHST` of chiplet 3, and a command of `CHCTL`. -/
def chip3 (chst : Word) (chctl : Nat) (f : Hub → Hub) : State :=
  pkg (fun b => f { b with mon := { b.mon with
    chst := b.mon.chst.set 3 chst, chctl := BitVec.ofNat 64 (2 ^ 62 + chctl) } })

theorem witness_CommandsAndRegisters_chiplets :
    let a := chip3 1 (3 + 5 * 2 ^ 16) id
    let u := chip3 0x52 (3 + 2 ^ 8) id
    let i := chip3 1 (3 + 2 * 2 ^ 8) id
    let j := chip3 3 (3 + 2 * 2 ^ 8) (fun b => { b with
      isolations := [{ chip := 3, since := 0, killed := true, drain := some 0 }] })
    let r (n : Word) := chip3 n (3 + 3 * 2 ^ 8) id
    let e := chip3 0 (3 + 4 * 2 ^ 8) id
    wbits 63 62 a.hub.mon.chctl = 1 ∧ wbits 11 8 a.hub.mon.chctl = 0 ∧ wbits 3 0 a.hub.mon.chctl = 3 ∧
      a.hub.chipState 3 = 1 ∧ wbits 19 16 a.hub.mon.chctl = 5 ∧ u.hub.chipState 3 = 2 ∧ u.hub.holder 3 = 5 ∧
      i.hub.isolations = [] ∧ j.hub.occupied 3 = false ∧ (∀ h ∈ j.harts, h.draining 3 = false) ∧
      wbits 11 8 e.hub.mon.chctl = 4 ∧ e.hub.chipState 3 = 0 ∧
      gives (exec (.chctlAssign 3 5) a) (fun t => t.hub.chipState 3 == 2 && t.hub.holder 3 == 5 &&
        (t.hub.part 5).pchip == 8 && wbits 63 62 t.hub.mon.chctl == 2) = true ∧
      gives (exec (.chctlUnassign 3) u) (fun t => t.hub.chipState 3 == 1) = true ∧
      gives (exec (.chctlIsolate 3) i) (fun t => t.hub.chipState 3 == 3 && t.hub.isolations.length == 1) = true ∧
      gives (exec (.chctlIsolate 3) j) (fun t => t.hub.chipState 3 == 4 && t.hub.isolations == [] &&
        wbits 55 52 t.hub.mon.chctl == 5) = true ∧
      gives (exec (.chctlReset 3) (r 4)) (fun t => t.hub.chipState 3 == 5) = true ∧
      gives (exec (.chctlReset 3) (r 5)) (fun t => t.hub.chipState 3 == 0 && wbits 63 62 t.hub.mon.chctl == 2) = true := by
  decide +kernel

theorem witness_CommandsAndRegisters_isolation :
    let i (d : Option Nat) : Isolation := { chip := 3, since := 0, killed := false, drain := d }
    let g : Gang := { aGang (.saving .park) with chip := 3 }
    let k := ganged g [{ itsTread 0 id with place := ⟨3, 0, 0⟩ }] (fun b => { b with isolations := [i none], clk := 1048576 })
    let n := ganged (aGang .placed) [] (fun b => { b with isolations := [i none] })
    let d := ganged (aGang .retired) [{ itsTread 0 (fun h => { h with
      lsu := { h.lsu with
        vstores := [⟨0, 0x100000000008, [1], 0, 0, false⟩],
        writes := [⟨0, 0x200, 0x200, .back [], 0, 0, 0, false, false, none, 0⟩,
          ⟨1, 0x200, 0x200, .store [(0, 1#8)], 0, 0, 0, false, false, none, 0⟩] } }) with place := ⟨3, 0, 0⟩ }] (fun b => { b with
        isolations := [i (some 0)], clk := 4194304 })
    k.hub.isolations = [i none] ∧ k.hub.launches = [aLaunch false g] ∧ g.chip = 3 ∧ g.since + 1048576 ≤ k.hub.clk ∧
      n.hub.launches.all (fun l => l.gangs.all (fun g => g.st == .placed)) = true ∧ 0 + 4194304 ≤ d.hub.clk ∧
      gives (exec (.isolationSaveTimeout 3) k) (fun t => t.hub.launches.map (fun l => (l.killed, l.gangs.map (·.st))) ==
        [(true, [.retired])] && t.hub.isolations.map (·.killed) == [true]) = true ∧
      gives (exec (.isolationDrainTimeout 3) d) (fun t =>
        t.harts.flatMap (fun h => h.lsu.writes.map Write.isBack) == [true] &&
        t.harts.all (fun h => h.lsu.vstores.isEmpty)) = true := by decide +kernel

theorem witness_CommandsAndRegisters_ports :
    let s (n : Nat) (pchip : Word) := State.setPart 5 (fun r => { r with pchip := pchip }) (chip3 0
      (14 + n * 2 ^ 8 + 5 * 2 ^ 16 + 13 * 2 ^ 24) (fun b => { b with
        record := List.replicate 192 255#8, conns := [{ part := 5, q := 2, raw := 0x0d01, spsn := 0, epsn := 0, err := false }] }))
    wbits 31 24 (s 5 0).hub.mon.chctl = 13 ∧ wbits 3 0 (s 5 0).hub.mon.chctl = 13 + 13 / 12 ∧
      (s 5 0).hub.portHolder 13 = none ∧ (s 5 0).hub.recBit (1440 + 13) = true ∧
      (s 6 0x2000000).hub.portHolder 13 = some 5 ∧
      gives (exec (.chctlAssignPort 13 5) (s 5 0)) (fun t => (t.hub.part 5).pchip == 0x2000000) = true ∧
      gives (exec (.chctlUnassignPort 13) (s 6 0x2000000)) (fun t => (t.hub.part 5).pchip == 0 &&
        t.hub.conns.map (·.err) == [true]) = true := by decide +kernel

theorem witness_CommandsAndRegisters_cores :
    let n (v : Nat) (s : State) : State := s.setMon (fun m => { m with ncore := BitVec.ofNat 64 (2 ^ 62 + v), ncaddr := 0x8040 })
    let a := n 0x107 (pkg (fun b => { b with record := List.replicate 192 255#8 }))
    let h := n 0 core
    a.hart? (.core 7) = none ∧ a.hub.recBit (1408 + 7) = true ∧ h.me.id = .core 0 ∧ h.me.live = true ∧
      gives (exec (.ncoreStart 7) a) (fun t => t.ring.map (fun h => (h.id, h.ctl.pc, h.level)) ==
        [(.core 0, 0x1000, 2), (.core 7, 0x8040, 2)]) = true ∧
      gives (exec (.ncoreHalt 0) h) (fun t => t.me.ctl.run == .halted) = true := by decide +kernel

theorem witness_CommandsAndRegisters_regions :
    let s (m : Nat) (rs : List (Nat × Nat)) := State.setPart 0 (fun r => { r with
        ncrq := BitVec.ofNat 64 (2 ^ 62 + m * 2 ^ 57 + 2 ^ 52 + 9 * 2 ^ 21) }) (paged [] (fun b => { b with
      regions := rs, mon := { b.mon with chst := b.mon.chst.set 9 2 } }))
    (s 1 []).hub.ncrq 0 1 = some (1, 9) ∧ (8 + 1) ∈ (s 1 []).hub.partChips 0 ∧
      ((s 1 []).hub.loc (9 * 2 ^ 21)).leasable = true ∧ (s 1 []).hub.ofPart 0 0 (9 * 2 ^ 21) 512 = true ∧
      (s 0 [(1, 9)]).hub.ncrq 0 0 = some (1, 9) ∧
      (∀ h ∈ (s 0 [(1, 9)]).harts, h.lsu.lease = []) ∧
      gives (exec (.ncrqMakeNoncoherent 0) (s 1 [])) (fun t => t.hub.regions == [(1, 9)]) = true ∧
      gives (exec (.ncrqMakeCoherent 0) (s 0 [(1, 9)])) (fun t => t.hub.regions == []) = true := by decide +kernel

/-- The registers whose writes have conditions. -/
theorem witness_CommandsAndRegisters_registers :
    let d : Word := 0x20
    (core.hart? (.core (wbits 4 0 d))).isSome = true ∧
      core.hub.sumWith 0 (wbits 40 32 (0x10000000000 : Word)) (fun r => wbits 40 32 r.calctl) ≤ 256 ∧
      256 < core.hub.sumWith 0 (wbits 40 32 (0x10100000000 : Word)) (fun r => wbits 40 32 r.calctl) ∧
      NMap.get [] 17 core.hub.mext = [] ∧ (0x1000 : Word).getLsbD 0 = false ∧ wbits 7 0 core.hub.mon.trlen = 0 ∧
      core.hub.launches = [] ∧ wbits 6 0 (85 : Word) ≤ 85 ∧
      gives (exec (.ndoorWrite 0 d) core) (fun t => t.me.spr.evpend == 2) = true ∧
      gives (exec (.mdoorWrite d) core) (fun t => t.me.spr.evpend == 2) = true ∧
      gives (exec (.calctlQuotaWrite 0 0x10000000000) core) (fun t => (t.hub.part 0).calctl == 0x10000000000) = true ∧
      gives (exec (.calctlQuotaWrite 0 0x10100000000) core) (fun t => (t.hub.part 0).calctl == 0) = true ∧
      gives (exec (.mextWrite 0x1001) core) (fun t => NMap.get [] 17 t.hub.mext == List.replicate 32 0) = true ∧
      gives (exec (.connbWrite 0 0x1000) core) (fun t => (t.hub.part 0).connb == 0x1000) = true ∧
      gives (exec (.ctxresWrite 85) core) (fun t => t.hub.mon.ctxres == 85) = true ∧
      gives (exec (.registerWrite (.part 3 0x28) 0) core) (fun t => (t.hub.part 3).ordc == 1) = true := by decide +kernel

/-! ### Witnesses: power and management -/

theorem witness_PowerAndManagementAnswer_power :
    let s (x : Island) (m : Nat) : State := { core with hub := { core.hub with
      clk := 9, isl := [(30, x)], power := { core.hub.power with mainOn := true, off := false, tripped := false, marginMs := m },
      mon := { core.hub.mon with pwrctl := 0x258000000320 } } }
    let x : Island := { Island.zero with req := 3 }
    let r (mw t : Nat) : PowerReading := ⟨mw, [(1027, t)]⟩
    let off (b : Bool) : State := { s x 4 with hub := { (s x 4).hub with power :=
      { (s x 4).hub.power with standby := b, mainOn := false } } }
    let y : Island := { x with chg := some (3, 9) }
    (s y 0).hub.island 30 = y ∧ 9 ≤ (s y 0).hub.clk ∧ (s x 0).islandTarget 30 ≠ ((s x 0).hub.island 30).cur ∧
      (s x 0).hub.dark = false ∧ (s x 0).hub.power.standby = true ∧ (s x 0).hub.powerLimit = 800 ∧
      (off true).hub.dark = true ∧ (1027 / 512 = 2 ∨ 1027 / 512 = 3) ∧
      1000 * (s x 0).hub.powerLimit < 800001 ∧ 10 * 720000 ≤ 9 * (1000 * (s x 0).hub.powerLimit) ∧
      ¬10 * 720001 ≤ 9 * (1000 * (s x 0).hub.powerLimit) ∧
      gives (exec (.islandLevelChange 30) (s y 0)) (fun t => t.hub.island 30 == { x with cur := 3 }) = true ∧
      gives (exec (.powerControlSample (r 800001 0)) (s x 4)) (fun t =>
        (t.hub.island 5).cap == 6 && t.hub.power.marginMs == 0) = true ∧
      gives (exec (.powerControlSample (r 720000 94500)) (s x 4)) (fun t => t.hub.power.marginMs == 5) = true ∧
      gives (exec (.powerControlSample (r 720000 0)) (s { x with cap := 2 } 9)) (fun t =>
        (t.hub.island 30).cap == 3 && t.hub.power.marginMs == 10) = true ∧
      ([(720001, 0), (720000, 94501), (720000, 105000)].all (fun e =>
        gives (exec (.powerControlSample (r e.1 e.2)) (s x 4)) (fun t =>
          t.hub.power.marginMs == 0 && (t.hub.island 5).cap == 7))) = true ∧
      ([105001, 115000].all (fun e => gives (exec (.powerControlSample (r 0 e)) (s x 4)) (fun t =>
        (t.hub.island 5).cap == 6 && !t.hub.dark))) = true ∧
      gives (exec (.powerControlSample (r 0 115001)) (s x 4)) (fun t => t.hub.dark && t.hub.power.tripped) = true ∧
      gives (exec (.powerControlSample (r 7 9)) (off true)) (fun t => t.hub.power.sample == [(512, 7), (1027, 9)]) = true ∧
      gives (exec (.powerControlSample (r 7 9)) (off false)) (fun t => decide (t = off false)) = true ∧
      gives (exec .thermalTrip (s x 0)) (fun t => t.hub.dark) = true := by decide +kernel

theorem witness_PowerAndManagementAnswer_spdm :
    let x : Spdm := ⟨1, true, true, true, [1]⟩
    let s : State := { core with hub := { core.hub with
      spdm := [x], mext := [(17, [5, 6])], power := { core.hub.power with mainOn := true, off := false, tripped := false } } }
    let f : State := { s with hub := { s.hub with spdm := [] } }
    s.hub.spdmOf 1 = x ∧ s.hub.dark = false ∧ x.version = true ∧ x.caps = true ∧ x.algs = true ∧
      s.measurements.map (·.1) = [1, 17] ∧ (f.hub.spdmOf 2).version = false ∧ (f.hub.spdmOf 2).caps = false ∧
      s.measurement 17 = some [5, 6] ∧ s.measurement 18 = none ∧ s.hub.power.tripped = false ∧
      gives (exec (.getVersion 1) s) (fun t => t.hub.reply == .data [0x12, 0x13]) = true ∧
      gives (exec (.getCapabilities 2) f) (fun t => t.hub.reply == .unsupported) = true ∧
      gives (exec (.getCertificate 1 0 2) s) (fun t => t.hub.reply == .data []) = true ∧
      gives (exec (.getMeasurements 1 18 []) s) (fun t => t.hub.reply == .unsupported) = true ∧
      gives (exec .readBstatMessage s) (fun t => t.hub.reply == .word 0) = true ∧
      gives (exec (.setPwrctlOobMessage 70000) s) (fun t => wbits 47 32 t.hub.mon.pwrctl == 65535) = true := by
  decide +kernel

/-! ### Witnesses: clauses on the borders of the statements above -/

/-- Some bits of `m2` land: those of the mask 6, with the value 3. -/
theorem witness_ResultLandsAtItsLatency_bits :
    let s := core.withResult 1 4 2 [.mBits 2 6 3]
    s.me.sched.pipe = [⟨0, 1, 0x1000, 4, 2, some [.mBits 2 6 3]⟩] ∧ s.me.units.semIn = [] ∧
      ((s.modMe (fun h => { h with regs := h.regs.setM 2 9 })).endCycle.me.regs.mReg 2) = 11 := by decide +kernel

/-- A tread that sleeps keeps the time of its waking (R289). -/
theorem witness_SemaphoreAndClockWaits_sleep :
    gives (exec (.sleepUntil ⟨gk0, false, 0, 0, 1⟩) (press.withS 1 9)) (fun t =>
      t.me.ctl.stall.bind (·.asleep) == some 9) = true := by decide +kernel

/-- `meet` in the handler of an attached tread and of an orphan (R297, R378). -/
theorem witness_DetachMeetAndRetire_meet :
    let n : CN := ⟨gk0⟩
    let in_ (r : Run) := press.modMe (fun h => { h with ctl := { h.ctl with run := r }, spr := { h.spr with meet := 0x1100 } })
    TreadReady n.gk.g (.meet n) (in_ .handler) ∧ TreadReady n.gk.g (.meet n) (in_ .orphan) ∧
      gives (exec (.meet n) (in_ .handler)) (fun t => t.me.iss.next == none && t.me.iss.after == none) = true ∧
      gives (exec (.meet n) (in_ .orphan)) (fun t => t.me.iss.next == some 0x1100 && t.me.iss.after == none) = true := by
  exact ⟨treadReady_of (by decide +kernel), treadReady_of (by decide +kernel), by decide +kernel, by decide +kernel⟩

/-- The press tread with the mould on `v63` and `v7`, closing. -/
def closing (s : State) : State :=
  s.modMe (fun h => { h with units := { h.units with mould :=
    { h.units.mould with mode := .closing, first := 7, count := 57 } } })

/-- A write to a closing mould comes before the address's own faults (R179, R373): `vld` at an address of no class, and
`x.recv`; a tile over a shadowed register. -/
theorem witness_VectorAndTileLoadsAreSent_state :
    let f : LO := ⟨g0, 0, false, true, 1, 0, 1, 63⟩
    let g : LB := ⟨g0, 0, 2, false, false, 0, 0, 1, 0⟩
    let h : LB := ⟨g0, 0, 5, false, false, 1, 0, 1, 63⟩
    let s := closing (press.withS 1 0x1ffffff00800001)
    let bad (o : Host.Outcome State Fault Refusal) : Bool := gives o (fun t => wbits 23 0 t.me.spr.tcause == 0x901)
    AccessReady f.g (.vld f) s ∧ AccessReady g.g (.tld g) s ∧ AccessReady h.g (.vgath h) s ∧
      bad (exec (.vld f) s) = true ∧ bad (exec (.tld g) (s.modMe (fun h => { h with
        units := { h.units with mould := { h.units.mould with first := 0 } }, spr := { h.spr with vwt := 8 } }))) = true ∧
      bad (exec (.vgath h) s) = true ∧
      bad (exec (.xRecv ⟨gk0, false, false, 0, 0, 63⟩) (closing (ranks 1 [(0, [7])]))) = true := by
  refine ⟨⟨⟨?_, ?_⟩, ?_⟩, ⟨⟨?_, ?_⟩, ?_⟩, ⟨⟨?_, ?_⟩, ?_⟩, ?_, ?_, ?_, ?_⟩ <;> decide +kernel

/-- Lanes 0 and 63 of a gather and of a scatter are misaligned, and the higher lane has the lower address (R224). -/
theorem witness_VectorAndTileAccesses_misaligned :
    let g : LB := ⟨g0, 0, 5, false, false, 1, 0, 1, 63⟩
    let s := (press.withS 1 0x1000).modMe (fun h => { h with
      regs := (h.regs.setM 1 0x8000000000000001).setUnits [(320, 0x43), (383, 0x21)] })
    let at_ (t : State) : Bool := wbits 7 0 t.me.spr.tcause == 8 && t.me.spr.taddr == 0x1021
    laneAddr g s.me 0 = 0x1043 ∧ laneAddr g s.me 63 = 0x1021 ∧
      (∃ ps, s.pieces .load 2 ([0, 63].map (fun l => (laneAddr g s.me l, 4))) = .ok ps) ∧
      (∃ ps, s.pieces .store 2 ([0, 63].map (fun l => (laneAddr g s.me l, 4))) = .ok ps) ∧
      gives (exec (.vgath g) s) at_ = true ∧ gives (exec (.vscat g) s) at_ = true := by
  refine ⟨?_, ?_, ⟨_, rfl⟩, ⟨_, rfl⟩, ?_, ?_⟩ <;> decide +kernel

/-- A prefetched line is in the lease cache; one whose lease has run out is leased again (R230). -/
theorem witness_PrefetchNeverTraps_fills :
    let f : LO := ⟨g0, 0, false, false, 0, 0, 1, 0⟩
    let s := press.withS 1 0x100
    s.xlate .load 2 0x100 = .ok 0x100 false ∧ s.me.isCore = false ∧ (s.hub.loc 0x100).leasable = true ∧
      s.hub.poisoned 0x100 = false ∧ s.hub.exclusive 2 = none ∧ s.me.leaseLine 0 0 2 = none ∧
      gives (exec (.pf f) s) (fun t => (t.me.leaseLine 0 0 2).isSome &&
        gives (exec (.pf f) (t.modMe (fun h =>
          { h.raiseLt 100000 with ctl := { h.ctl with lsLeft := 0 } }))) (fun u =>
          (u.me.leaseLine 0 0 2).any (fun l => 100000 ≤ l.rts))) = true := by decide +kernel

/-- A tagged atomic and a tagged reduction in a non-coherent region of another chiplet (R210, R215). -/
theorem witness_AtomicsAndReductionsAreSent_refused :
    let f : LB := ⟨g0, 0, 2, false, true, 0, 0, 1, 3⟩
    let s := tagged 1 (press.withS 1 0x178)
    let s : State := { s with hub := { s.hub with regions := [(3, 0)] } }
    let p : Piece := ⟨0x178, 0x178, 8, .mem false⟩
    s.pieces .atomic 2 (splitLines (lbEa f s.me) 8) = .ok [p] ∧ s.versionWanted [p] = none ∧ s.tagRefused p.pa = true ∧
      gives (exec (.amoAdd f) s) (fun t => newest t == some (128, 1, 3, some [.memErr 0x178 2]) &&
        t.me.lsu.writes == []) = true ∧
      gives (exec (.redAdd f) s) (fun t => t.me.units.pending == 2 && t.me.lsu.writes == []) = true := by
  decide +kernel

/-- The first check of `mon.wait` finds the condition: 0 equals 0 under the mask 0 (R235). -/
theorem witness_FencesMonitorsAndFlushes_first :
    let m : LB := ⟨g0, 0, 2, false, false, 0, 0, 1, 3⟩
    let s := press.withS 1 0x40
    let p : Piece := ⟨0x40, 0x40, 4, .mem false⟩
    s.pieces .monWait 2 (splitLines (lbEa m s.me) 4) = .ok [p] ∧ s.hub.readFailure p.pa = 0 ∧
      (s.hub.loc p.pa).outside = none ∧ s.hub.exclusive (lineOf p.pa) = none ∧
      s.hub.watchHolds (monEntry m 0x40 0x40 s.me) = true ∧
      gives (exec (.monWait m) s) (fun t => t.me.lsu.mon == .none && t.me.iss.out == .ok) = true := by decide +kernel

/-- SHA-256 of the letters abc (R363: FIPS 180-4 gives this digest). -/
theorem test_sha256 : sha256 [0x61, 0x62, 0x63] =
    [0xba, 0x78, 0x16, 0xbf, 0x8f, 0x01, 0xcf, 0xea, 0x41, 0x41, 0x40, 0xde, 0x5d, 0xae, 0x22, 0x23,
     0xb0, 0x03, 0x61, 0xa3, 0x96, 0x17, 0x7a, 0x9c, 0xb4, 0x10, 0xff, 0x61, 0xf2, 0x00, 0x15, 0xad] := by
  decide +kernel

/-- CRC-32C of the digits 1 to 9 (R395: the Castagnoli polynomial, reflected; its known check value). -/
theorem test_crc32c : crc32c [0x31, 0x32, 0x33, 0x34, 0x35, 0x36, 0x37, 0x38, 0x39] = 0xe3069283 := by decide +kernel

/-! ### Witnesses: results that land -/

/-- The state after the cycle in which one effect is due. -/
def landed (s : State) (e : Eff) : State :=
  State.endCycle (s.modMe (fun h => { h with sched := { h.sched with pipe := [⟨0, 1, 0x1000, 1, 3, some [e]⟩] } }))

/-- All ones, written to each register: the fields that take them (R339, R340, R378, R386, R392). -/
theorem witness_ResultLandsAtItsLatency_registers :
    let z := core.modMe (fun h => { h with spr := { h.spr with plv := 2 } })
    let w (lvl n : Nat) := (landed z (.spr lvl n (BitVec.allOnes 64))).me.spr
    (w 2 0x08).meet = 0x1ffffffffffffff ∧ (w 2 0x09).pix = z.me.spr.pix ∧ (w 2 0x0a).msh = 0xffff007f ∧
      (w 2 0x18).tcause = 0x10fffffff ∧ (w 2 0x19).tpc = 0xffffffffffffffff ∧ (w 2 0x22).mvec = 0x1ffffffffffffff ∧
      (w 2 0x23).part = 0xf ∧ (w 2 0x24).xflt = 0xfffffffffffff000 ∧ (w 2 0x27).dbg = 0x1d ∧ (w 1 0x27).dbg = 0x11 ∧
      (w 2 0x28).hwsel = 0xff ∧ (w 2 0x2c).even = 0x3f ∧ (w 2 0x2d).evlvl = 0x3f ∧
      ((landed z (.spr 2 0x09 0x30000000000007)).me.spr.pix = 0x30000000000007) ∧
      ((landed z (.spr 2 0x12 5)).hub.part 0).park = 4096 ∧
      (landed z (.spr 2 0x20 0x3ff)).me.spr.plv = 0x3c2 ∧ (landed z (.spr 1 0x20 0x3ff)).me.spr.plv = 0x142 ∧
      (landed z (.spr 2 0x20 0x55)).me.spr.plv = 0x56 ∧ (landed press (.spr 2 0x2d 1)).me.spr.evlvl = press.me.spr.evlvl := by
  decide +kernel

/-- A path, a mould, masks, vector units, an error and a result of `acc.st`. -/
theorem witness_ResultLandsAtItsLatency_effects :
    let p : State := { press.modMe (fun h => { h with
        spr := { h.spr with hyp := 2 }, units := { h.units with hstack := [(2, 0x40), (1, 0x20)] } }) with
      hub := { press.hub with nodes := [{ part := 0, id := 1, parent := 0 }, { part := 0, id := 2, parent := 1 }] } }
    let m := press.modMe (fun h => { h with units := { h.units with mould := { h.units.mould with
      mode := .closing, first := 7, count := 1, shadow := [(448, 9), (450, 8)], cA := [(0, 4294967295)] } } })
    (landed p (.spr 0 0x02 1)).me.spr.hyp = 1 ∧ (landed p (.spr 0 0x02 1)).me.units.hstack = [(1, 0x20)] ∧
      (landed p (.spr 0 0x02 3)).me.spr.hyp = 2 ∧
      (landed m (.accept 1 5)).me.regs.space = [(448, 9)] ∧
      (landed m (.accept 1 5)).me.units.mould.cA = [(0, 4294967295), (2, 1)] ∧
      (landed m (.accept 1 5)).me.units.mould.cC = [(0, 1)] ∧
      (landed press (.space false [(3, 7), (3, 8)])).me.regs.space = [(3, 8)] ∧
      (landed press (.bits false 3 0xff 0x1234)).me.regs.space = [(3, 0x34)] ∧
      (landed (landed press (.memErr 8 2)) (.memErr 16 4)).me.latched.memErr = [(8, 2), (16, 4)] ∧
      (landed (landed press (.xpass 5 [9])) (.xpass 3 [7])).me.units.xq = [(3, [7]), (5, [9])] ∧
      (landed press (.vault 0 0x100000000008 [1, 2])).hub.mem = [(0x100000000008, 1), (0x100000000009, 2)] ∧
      (landed press (.lt 12)).me.spr.lt = 12 ∧ (landed press (.m 0 5)).me.regs.mReg 0 = BitVec.allOnes 64 := by
  decide +kernel

/-- Two results for one register that are due together. -/
theorem witness_ResultLandsAtItsLatency_two :
    let s := press.modMe (fun h => { h with sched := { h.sched with
      pipe := [⟨4, 1, 0x1000, 1, 3, some [.s 3 8]⟩, ⟨2, 1, 0x1000, 1, 3, some [.s 3 7]⟩] } })
    (State.endCycle s).me.regs.sReg 3 = 8 := by decide +kernel

/-! ### Witnesses: clauses of the load-store slot -/

/-- A misaligned address that R183 forbids: the misalignment comes first (R373). -/
theorem witness_ScalarLoadsAreSent_vault :
    let f : LO := ⟨g0, 0, false, false, 0, 0, 1, 3⟩
    let s := press.withS 1 0x1ffffff00800001
    s.pieces .load 2 (splitLines (loEa f s.me) 8) = .vault 0x1ffffff00800001 ∧ loEa f s.me % 8 ≠ 0 ∧
      gives (exec (.ldD f) s) (fun t => wbits 7 0 t.me.spr.tcause == 8 && t.me.spr.taddr == 0x1ffffff00800001) = true := by
  decide +kernel

/-- A store of a Vat tread to a line that is made non-coherent: first without a copy of the line, then with one. -/
theorem witness_ScalarStoresAreSent_noncoherent :
    let f : LO := ⟨g0, 0, false, false, 0, 0, 1, 3⟩
    let s : State := { (press.withS 1 0x178).modMe (fun h => { h with place := { h.place with chip := 8 } }) with
      hub := { press.hub with regions := [(0, 0)], lines := [(2, { LineMeta.zero with wts := 20, rts := 20 })] } }
    let p : Piece := ⟨0x178, 0x178, 8, .mem false⟩
    s.pieces .store 2 (splitLines (loEa f s.me) 8) = .ok [p] ∧ s.versionWanted [p] = none ∧
      s.tagRefused p.pa = false ∧ s.hub.nonCoherent s.me p.pa = true ∧ s.me.leaseLine 0 0 2 = none ∧
      s.hub.exclusive 2 = none ∧ s.me.lsu.lease.length < 1024 ∧ s.hub.seenWts 0 0 2 = 20 ∧
      gives (exec (.stD f) (s.withS 3 0x0102030405060708)) (fun t => t.me.spr.lt == 20 && t.me.lsu.writes == [] &&
        (t.me.leaseLine 0 0 2).any (fun l => l.nc && l.wts == 20 && l.dirty == [120, 121, 122, 123, 124, 125, 126, 127] &&
          l.bytes.drop 120 == [8, 7, 6, 5, 4, 3, 2, 1] && l.bytes.length == 128 &&
          gives (exec (.stB f) (t.modMe (fun h =>
            { h with regs := h.regs.setS 1 0x101, ctl := { h.ctl with lsLeft := 0 } }))) (fun u =>
              (u.me.leaseLine 0 0 2).any (fun m => m.dirty.contains 1 && m.dirty.contains 127 &&
                m.bytes.getD 1 0 == 8 && u.me.spr.lt == 20)))) = true := by decide +kernel

/-- Rows of a tile at a stride of 32 and of -32: the lowest one that is not aligned (R224). -/
theorem witness_VectorAndTileAccesses_rows :
    let g : LB := ⟨g0, 0, 2, false, false, 0, 0, 1, 7⟩
    let s (st : Word) := (press.withS 1 0x1040).withS 2 st
    let at_ (a : Nat) (t : State) : Bool := wbits 7 0 t.me.spr.tcause == 8 && t.me.spr.taddr.toNat == a
    LowestOddRow (lbEa g (s 32).me) 32 0x1060 ∧ LowestOddRow (lbEa g (s (-32)).me) (2 ^ 64 - 32) 0x860 ∧
      (∃ ps, (s 32).pieces .load 2 (tileRows (lbEa g (s 32).me) 32) = .ok ps) ∧
      (∃ ps, (s 32).pieces .store 2 (tileRows (lbEa g (s 32).me) 32) = .ok ps) ∧
      gives (exec (.tld g) (s 32)) (at_ 0x1060) = true ∧ gives (exec (.tst g) (s 32)) (at_ 0x1060) = true ∧
      gives (exec (.tld g) (s (-32))) (at_ 0x860) = true ∧ gives (exec (.tst g) (s (-32))) (at_ 0x860) = true := by
  refine ⟨⟨?_, ⟨1, ?_, ?_⟩, ?_⟩, ⟨?_, ⟨63, ?_, ?_⟩, ?_⟩, ⟨_, rfl⟩, ⟨_, rfl⟩, ?_, ?_, ?_, ?_⟩ <;> decide +kernel

/-- A tread at S whose lane 63 has no translation yet. -/
def stopping : State :=
  (quantized 8).modMe (fun h => { h with
    spr := { h.spr with plv := 1 },
    regs := ((h.regs.setS 1 0x1000).setM 1 0x8000000000000001).setUnits [(320, 0x40), (383, 0x2000)] })

/-- Its gather and its scatter may stop between those lanes: whether they do is a free value (R386, log entry 112). -/
theorem witness_VectorAndTileAccesses_stop (h : Config.freeBool stopping.free = true) :
    let g : LB := ⟨g0, 0, 5, false, false, 1, 0, 1, 63⟩
    stopping.stopsAfter .load ([0, 63].map (laneAddr g stopping.me)) =
        some ([⟨0x1040, 0x1040, 4, .mem false⟩], ⟨0x3000, .load, 1, 0, 0⟩) ∧
      (stopping.stopsAfter .store ([0, 63].map (laneAddr g stopping.me))).isSome = true := by
  intro g
  constructor <;> simp only [State.stopsAfter, h] <;> decide +kernel

/-! ### Witnesses: the control slot in broadcast -/

/-- A loop whose guard reads false; one that the leading rank has decided, with two trips and with none (R54, R291). -/
theorem witness_LoopStartsSequencer_decided :
    let f : CL := ⟨gk0, 0, 0, 1⟩
    let off : CL := ⟨⟨⟨true, 0⟩, false⟩, 0, 0, 1⟩
    let bs : List Byte := [0x04, 0x10, 0x65, 0x80, 0x00]
    let body : List (VAddr × List Byte) := [(0x1005, bs ++ List.replicate 54 0#8)]
    let it (n : Nat) : Item := ⟨0, 0, false, 0x1000, none, false, 0x100a, n, body, []⟩
    let s (n : Nat) := (lined bs).modMe (fun h => { h with ctl := { h.ctl with dec := some (it n) } })
    let on := (lined bs).withS 1 3
    guardHolds off.gk.g on.me = false ∧ kernelCheck on.me (.loop off) = none ∧ (s 2).me.ctl.dec = some (it 2) ∧
      kernelCheck (s 2).me (.loop f) = none ∧ (s 2).me.looping = false ∧ bodyOk (f.ii.toNat + 1) body = true ∧
      (∀ la ∈ on.me.bodyLines body, on.fetchRecall la = none) ∧
      gives (exec (.loop off) on) (fun t => t.me.iss.next == some 0x100a && t.me.sched.loop == none) = true ∧
      gives (exec (.loop f) (s 2)) (fun t => t.me.sched.loop.map (fun l => (l.n, l.ii)) == some (2, 1)) = true ∧
      gives (exec (.loop f) (s 0)) (fun t => t.me.iss.next == some 0x100a) = true := by decide +kernel

/-- The first issue of `grp.red` sends its contribution, and waits without one where the phase is not its own (R303). -/
theorem witness_GroupsArriveWaitAndReduce_first :
    let e : EF := ⟨g0, ws0, 0, 0, 5, 7, 8⟩
    let f : CR := ⟨gk0, false, 5, 3, 1⟩
    let s := (grouped 0).withS 7 9
    let later := s.modMe (fun h => { h with units := { h.units with arrPhase := h.units.arrPhase.set 0 1 } })
    waitHolds e.ws s.me = true ∧ s.me.groupSlot (ecIdx e) = some 0 ∧ s.me.arrived false (ecIdx e) = none ∧
      (s.me.units.arrPhase[(0 : Fin 4)]).toNat = s.phaseOf (ecIdx e) ∧ s.phaseDone (ecIdx e) 0 = false ∧
      (later.me.units.arrPhase[(0 : Fin 4)]).toNat ≠ later.phaseOf (ecIdx e) ∧ later.me.arrived true f.imm.toNat = none ∧
      gives (exec (.grpRed e) s) (fun t => t.me.iss.out == .stalled true && t.me.arrived false 5 == some 0 &&
        t.me.units.arrivals.map (fun a => (a.group, a.phase, a.contrib)) == [(5, 0, some 9)]) = true ∧
      gives (exec (.grpRed e) later) (fun t => t.me.iss.out == .stalled true && t.me.units.arrivals == []) = true ∧
      gives (exec (.barArrive f) later) (fun t => t.me.iss.out == .stalled true && t.me.units.arrivals == []) = true := by
  decide +kernel

/-! ### Witnesses: the matrix unit, semaphores and the homes -/

/-- A set of the tread itself, one from outside that stands over it, and none (R85). -/
theorem witness_SemaphoresChange_order :
    let own : List SemUpd := [⟨5, 1, 10000, 0, false⟩, ⟨5, 2, 70000, 1, false⟩]
    let both : List SemUpd := [⟨5, 2, 70, 0, false⟩, ⟨5, 2, 9, 0, true⟩, ⟨5, 0, 1, 1, false⟩]
    (own = [⟨5, 1, 10000, 0, false⟩] ++ ⟨5, 2, 70000, 1, false⟩ :: [] ∧ (∀ x ∈ own, x.op = 2 → x.outside = false)) ∧
      (∃ u ∈ both, u.op = 2 ∧ u.outside = true) ∧ semApply 3 own = 60000 ∧ semApply 3 both = 10 ∧
      semApply 3 [⟨5, 1, 8, 0, false⟩, ⟨5, 0, 2, 0, false⟩] = 0 := by decide +kernel

/-- An accumulator of two rows and one column: it is stored row by row, and loaded from its base. -/
theorem witness_AccumulatorAndMapOperations_rows :
    let f := mf 0 0 ws0
    let z := (((mapped 0x20010001).withS 1 0x1ffffff00000000).withS 2 512).modMe (fun h =>
      { h with regs := h.regs.setUnits [(h.aKey 3 0 0, 7), (h.aKey 3 1 0, 8)] })
    z.me.shape.1 = 1 ∧ accRows 512 2 1 = [(0, 4), (512, 4)] ∧
      gives (exec (.accSt f) z) (fun t => (t.me.sched.pipe.filterMap (·.effs)).flatten.any (fun e => match e with
        | .vault _ pa bs => pa == 0x100000000000 && bs == [7, 0, 0, 0]
        | _ => false)) = true ∧
      gives (exec (.accLd f) z) (fun t => (t.me.sched.mx.bind (·.job)).any (fun j =>
        j.base == 0x100000000000 && j.stride == 512 && j.loads)) = true := by decide +kernel

/-- A longer operation that is still to write the accumulator writes it no more once `acc.clr` has issued. -/
theorem witness_AccumulatorAndMapOperations_clear :
    let f := mf 0 0 ws0
    let s := press.modMe (fun h => { h with sched := { h.sched with
      pipe := [⟨0, 40, 0x1000, 8, 3, some [.space false [(h.aKey 3 0 0, 9), (h.aKey 4 0 0, 5)]]⟩] } })
    s.me.units.mould.mode = .closed ∧
      gives (exec (.accClr f) s) (fun t => (t.me.sched.pipe.filter (fun p => p.left == 40)).all (fun p =>
        p.effs == some [.space false [(press.me.aKey 4 0 0, 5)]])) = true := by
  decide +kernel

/-- A job without depth leaves the accumulator as it was. -/
theorem witness_HartWaitsEnd_jobs :
    let job : MxJob := ⟨0, false, 3, 0, 1, 1, 0, 0, false, 0x100000000000, 0, 0, 0,
      [(0x100000000000, 7)], none, [], [5]⟩
    let s := tread (fun h => { h with
      sched := { h.sched with mx := some ⟨0, 0, 32, false, 0x1000, none, some job⟩,
                              pipe := [⟨0, 8, 0x1000, 8, 3, none⟩] } })
    let leaves (v : BitVec 32) (t : State) : Bool :=
      t.me.sched.pipe.map (·.effs) == [some [.space false [(press.me.aKey 3 0 0, v)]]]
    s.me.sched.mx.bind (·.job) = some job ∧ job.loads = false ∧ job.kk = 0 ∧
      gives (exec (.mxOccupancyEnd me) s) (leaves 5) = true := by decide +kernel

/-- A store of a whole unit clears its poison; one of two bytes meets it; a delivery; caches after a `tlbinv`. -/
theorem witness_AccessesReachHome_poison :
    let bad : NMap LineMeta := [(0x2000000000, { LineMeta.zero with poison := true })]
    let st (v : VStore) : State :=
      let s := tread (fun h => { h with lsu := { h.lsu with vstores := [v] } })
      { s with hub := { s.hub with lines := bad } }
    let whole : VStore := ⟨0, 0x100000000000, List.replicate 128 1, 0, 0, true⟩
    let part : VStore := ⟨0, 0x100000000008, [1, 2], 0, 0, false⟩
    let dv : State := { press with hub := { press.hub with deliveries := [⟨me, [(0x200, 6)], 0⟩] } }
    let x : Xlat := ⟨0, false, 1, 1, 1, 1, true, true, true, true, true, false⟩
    let c : State := { press with hub := { press.hub with
      caches := press.hub.caches.set 0 [x], tlbinvs := [⟨5, me, 0, 0, 0x1000, 0, none⟩] } }
    (st whole).focus me = some (st whole) ∧ NMap.wf LineMeta.zero (st whole).hub.lines = true ∧
      (whole.pa + whole.bytes.length) % 128 = 0 ∧ (st part).hub.vaultHit part.pa part.bytes.length = true ∧
      dv.hub.headDelivery me = some ⟨me, [(0x200, 6)], 0⟩ ∧ dv.me.lsu.vstores = [] ∧
      gives (exec (.vaultStoreLands me) (st whole)) (fun t => t.hub.lines == [] && t.me.units.pending == 0) = true ∧
      gives (exec (.vaultStoreLands me) (st part)) (fun t => t.me.units.pending == 4 &&
        (t.hub.lineMeta 0x2000000000).poison) = true ∧
      gives (exec (.vaultStoreLands me) dv) (fun t => t.hub.mem == [(0x200, 6)] && t.hub.deliveries == []) = true ∧
      gives (exec (.tlbinvComplete 5) c) (fun t => t.hub.caches.toList.all (fun l => l == [])) = true := by
  decide +kernel

/-- A copy of one byte from the vault to memory takes a time above the line's and its own issue's. -/
theorem witness_EngineAndHubComplete_memory :
    let o : EngOp := { copyOp .copy [(0, 1)] with dst := 0x200, lt := 9, lvl := 2 }
    let s : State := { copying o with hub := { (copying o).hub with
      lines := [(4, { LineMeta.zero with wts := 20, rts := 25 })] } }
    let v : State := { s with free := s.free + 2 }
    s.me.running o.id = some o ∧ o.hyp = 0 ∧ o.lt = 9 ∧
      (match v.engFetch o (o.unitOf 0) with
        | .ok (vs, []) => vs == [(0x5a, false)]
        | _ => false) = true ∧
      ((o.unitOf 0).head?).bind o.dstAt = some 0x200 ∧
      (match v.engAt o .engWrite 0x200 with
        | .ok a => a == .mem 0x200
        | _ => false) = true ∧
      s.hub.loc 0x200 = .hbm ∧ s.hub.vaultLine 4 = false ∧ s.hub.exclusive 4 = none ∧ (s.hub.lineMeta 4).dir = 0 ∧
      NMap.wf LineMeta.zero s.hub.lines = true := by decide +kernel

/-- A line without poison whose check byte does not fit its bytes; a write of the whole line; both causes of an error. -/
theorem witness_CoherenceAndStacksMove_checks :
    let m := pkg (fun b => { b with lines := [(2, { LineMeta.zero with syn := 1 })] })
    NMap.wf LineMeta.zero m.hub.lines = true ∧ (m.hub.lineMeta 2).syn ≠ 0 ∧
      gives (exec (.lineRead 0x105) m) (fun t => t.hub.reply == .poisoned (List.replicate 128 0#8) &&
        (t.hub.lineMeta 2).poison) = true ∧
      gives (exec (.lineWrite 0x105 (2 ^ 128 - 1) (List.replicate 128 0)) m) (fun t =>
        (t.hub.lineMeta 2).syn == 0 && !(t.hub.lineMeta 2).poison) = true ∧
      gives (exec (.uncorrectableError (.line 0x105 false)) (pkg id)) (fun t =>
        t.hub.mon.errst.getLsbD 31 && (t.hub.lineMeta 2).poison) = true := by decide +kernel

/-- The entry of `CONNB` whose `ERR` a refused request sets (R346). -/
theorem witness_OutsideIsAnswered_connb :
    let raw := 0x60c1 + 2 * 2 ^ 8 + 4096 * 2 ^ 128 + 77 * 2 ^ 160 + 0x100000 * 2 ^ 215 + 3 * 2 ^ 328
    let c : Conn := { part := 0, q := 4, raw := raw, spsn := 0, epsn := 0, err := false }
    let s := (paged [(0x100100, 0xc1)] (fun b => { b with conns := [c] })).setPart 0 (fun r => { r with connb := 0x100001 })
    let q : RdmaReq := ⟨0, 4, 0, 3, 78, 0, .read, 0x100000, 2, [7, 8]⟩
    let u := (s.rdmaDone q).modConn 0 4 (fun x => { x with err := true })
    s.hub.conn 0 4 = some c ∧ c.accepts q = false ∧ (s.hub.part 0).connb.getLsbD 0 = true ∧
      wbits 56 12 (s.hub.part 0).connb * 4096 + 64 * 4 = 0x100100 ∧
      u.hub.readVa s.free 0 0x100100 1 = some [0xc1] ∧ (u.hubWriteVa 0 0x100100 [0xc3]).isSome = true ∧
      gives (exec (.incomingRdma q) s) (fun t => t.hub.reply == .accessError &&
        bytesAt t.hub.mem 0x100100 1 == [0xc3]) = true := by decide +kernel

end Sys2Proof.Tests
end

section
/-! Memory as a sparse map: reads after a write of bytes, and the memory of the reset state. -/

namespace Sys2Proof.Machine

/-! ### Several writes to a sparse map -/

section
variable {α : Type} [DecidableEq α] {d : α}

/-- Several writes leave a key alone that none of them names. -/
theorem NMap.get_putAll_of_forall_ne {i : Nat} : ∀ {l : List (Nat × α)} {m : NMap α}, (∀ e ∈ l, i ≠ e.1) →
    NMap.wf d m = true → NMap.get d i (NMap.putAll d l m) = NMap.get d i m
  | [], _, _, _ => rfl
  | e :: l, m, hi, h => by
    have hl : ∀ e ∈ l, i ≠ e.1 := fun x hx => hi x (List.mem_cons_of_mem e hx)
    calc NMap.get d i (NMap.putAll d l (NMap.put d e.1 e.2 m))
        = NMap.get d i (NMap.put d e.1 e.2 m) := NMap.get_putAll_of_forall_ne hl (NMap.wf_put h)
      _ = NMap.get d i m := NMap.get_put_of_ne (hi e List.mem_cons_self) h

end

/-! ### Bytes in memory -/

/-- The first byte is written first, the others from the next address on. -/
theorem putBytes_cons {a : Nat} {b : Byte} {bs : List Byte} {m : NMap Byte} :
    putBytes a (b :: bs) m = putBytes (a + 1) bs (NMap.put 0#8 a b m) := by
  simp [putBytes, NMap.putAll, List.mapIdx_cons, Nat.add_comm, Nat.add_left_comm]

/-- Bytes written leave every address outside them alone. -/
theorem get_putBytes_of_outside {i a : Nat} {bs : List Byte} {m : NMap Byte}
    (hi : i < a ∨ a + bs.length ≤ i) (h : Memory.wf m = true) :
    NMap.get 0#8 i (putBytes a bs m) = NMap.get 0#8 i m := by
  refine NMap.get_putAll_of_forall_ne (fun e he => ?_) h
  obtain ⟨k, hk, rfl⟩ := List.mem_mapIdx.mp he
  dsimp only
  omega

/-- A byte written reads back. -/
theorem get_putBytes_of_inside : ∀ {bs : List Byte} {a k : Nat} {m : NMap Byte}, Memory.wf m = true →
    k < bs.length → NMap.get 0#8 (a + k) (putBytes a bs m) = bs.getD k 0#8
  | b :: bs, a, 0, m, h, _ => by
    have hm : Memory.wf (NMap.put 0#8 a b m) = true := NMap.wf_put h
    calc NMap.get 0#8 a (putBytes a (b :: bs) m)
        = NMap.get 0#8 a (NMap.put 0#8 a b m) := by
          rw [putBytes_cons, get_putBytes_of_outside (Or.inl a.lt_succ_self) hm]
      _ = b := NMap.get_put_self h
  | b :: bs, a, k + 1, m, h, hk => by
    have hm : Memory.wf (NMap.put 0#8 a b m) = true := NMap.wf_put h
    calc NMap.get 0#8 (a + (k + 1)) (putBytes a (b :: bs) m)
        = NMap.get 0#8 (a + 1 + k) (putBytes (a + 1) bs (NMap.put 0#8 a b m)) := by
          rw [putBytes_cons, Nat.add_assoc, Nat.add_comm 1 k]
      _ = bs.getD k 0#8 := get_putBytes_of_inside hm (Nat.lt_of_succ_lt_succ hk)

/-- Settles O8: bytes inside the written range by induction on them, every other address because no write names it. -/
theorem bytesReadBackAfterWrite : Obligations.BytesReadBackAfterWrite := fun _ _ _ h =>
  ⟨fun _ hk => get_putBytes_of_inside h hk, fun _ hb => get_putBytes_of_outside hb h, Memory.wf_putBytes h⟩

/-- Settles O7: the memory of the reset state lists no byte. -/
theorem resetMemoryIsCanonical : Obligations.ResetMemoryIsCanonical := by
  have hmem : State.reset.hub.mem = [] := rfl
  unfold Obligations.ResetMemoryIsCanonical MemoryCanonical
  rw [hmem]
  rfl

end Sys2Proof.Machine
end

section
/-! FRAMES. Every operation of the state that writes no byte of memory leaves memory as it is; these lemmas say it once
for each, in the order of the model. -/

namespace Sys2Proof.Machine

/-! ### The memory of an outcome, and the changes that many operations share -/

/-- The memory of the next state, where the outcome is one. -/
def memAfter : Host.Outcome State Fault Refusal → Option (NMap Byte)
  | .next t => some t.hub.mem
  | _ => none

@[simp] theorem memAfter_next (t : State) : memAfter (.next t) = some t.hub.mem := rfl

@[simp] theorem memAfter_ite {c : Prop} [Decidable c] (a b : Host.Outcome State Fault Refusal) :
    memAfter (if c then a else b) = if c then memAfter a else memAfter b := apply_ite ..

@[simp] theorem State.ite_hub {c : Prop} [Decidable c] (a b : State) :
    (if c then a else b).hub = if c then a.hub else b.hub := apply_ite ..

@[simp] theorem Hub.ite_mem {c : Prop} [Decidable c] (a b : Hub) :
    (if c then a else b).mem = if c then a.mem else b.mem := apply_ite ..

/-- A fold of changes each of which keeps memory keeps memory. -/
@[simp] theorem State.foldl_hub_mem {β : Type} {f : State → β → State} {l : List β} {s : State}
    (hf : ∀ s b, (f s b).hub.mem = s.hub.mem) : (l.foldl f s).hub.mem = s.hub.mem := by
  induction l generalizing s with
  | nil => rfl
  | cons b l ih => simp [ih, hf]

@[simp] theorem Hub.foldl_mem {β : Type} {f : Hub → β → Hub} {l : List β} {h : Hub}
    (hf : ∀ h b, (f h b).mem = h.mem) : (l.foldl f h).mem = h.mem := by
  induction l generalizing h with
  | nil => rfl
  | cons b l ih => simp [ih, hf]

theorem State.focus_hub_mem {h : HartId} {s t : State} (e : s.focus h = some t) : t.hub.mem = s.hub.mem :=
  congrArg Hub.mem (State.focus_spec e).2.2.1

@[simp] theorem State.onHart_hub_mem {h : HartId} {f : State → State} {s : State}
    (hf : ∀ s, (f s).hub.mem = s.hub.mem) : (s.onHart h f).hub.mem = s.hub.mem := by
  unfold State.onHart
  split
  next t e => exact (hf t).trans (State.focus_hub_mem e)
  next => rfl

@[simp] theorem State.each_hub_mem {l : List HartId} {f : State → State} {s : State}
    (hf : ∀ s, (f s).hub.mem = s.hub.mem) : (s.each l f).hub.mem = s.hub.mem :=
  State.foldl_hub_mem fun _ _ => State.onHart_hub_mem hf

/-- A change that may not be made keeps memory, where it keeps memory when it is made. -/
theorem State.getD_hub_mem {o : Option State} {s : State} (h : ∀ {t}, o = some t → t.hub.mem = s.hub.mem) :
    (o.getD s).hub.mem = s.hub.mem := by
  cases o with
  | none => rfl
  | some t => exact h rfl

theorem State.mem_withMon (m : MonRegs) (s : State) :
    ({ s with hub := { s.hub with mon := m } } : State).hub.mem = s.hub.mem := rfl

theorem State.modMe_hub_mem (f : Hart → Hart) (s : State) : (s.modMe f).hub.mem = s.hub.mem := rfl

theorem State.stall_hub_mem (p : Bool) (s : State) : (s.stall p).hub.mem = s.hub.mem := rfl

theorem State.ok_hub_mem (s : State) : s.ok.hub.mem = s.hub.mem := rfl

/-! ### Traps, results and special registers -/

@[simp] theorem State.mapHart_hub_mem (id : HartId) (f : Hart → Hart) (s : State) :
    (s.mapHart id f).hub.mem = s.hub.mem := rfl

@[simp] theorem State.fresh_snd_hub_mem (s : State) :
    s.fresh.2.hub.mem = s.hub.mem := rfl

@[simp] theorem Hub.setLine_mem (l : Nat) (f : LineMeta → LineMeta) (h : Hub) :
    (h.setLine l f).mem = h.mem := rfl

@[simp] theorem State.trapS_hub_mem (cls code info taddr : Nat) (s : State) :
    (s.trapS cls code info taddr).hub.mem = s.hub.mem := by
  simp [State.trapS]

@[simp] theorem State.illegal_memAfter (d : Nat) (s : State) :
    memAfter (s.illegal d) = some s.hub.mem := by
  simp [State.illegal]

@[simp] theorem State.privileged_memAfter (s : State) :
    memAfter s.privileged = some s.hub.mem := by
  simp [State.privileged]

@[simp] theorem State.misaligned_memAfter (va : Nat) (s : State) :
    memAfter (s.misaligned va) = some s.hub.mem := by
  simp [State.misaligned]

@[simp] theorem State.vaultFault_memAfter (va : Nat) (s : State) :
    memAfter (s.vaultFault va) = some s.hub.mem := by
  simp [State.vaultFault]

@[simp] theorem State.descFault_memAfter (id : Word) (info : Nat) (s : State) :
    memAfter (s.descFault id info) = some s.hub.mem := by
  simp [State.descFault]

@[simp] theorem State.xlatFault_memAfter (x : XFault) (acc : Acc) (va : Nat) (s : State) :
    memAfter (s.xlatFault x acc va) = some s.hub.mem := by
  simp [State.xlatFault]

@[simp] theorem hypWrite_hub_mem (v : Word) (s : State) : (hypWrite v s).hub.mem = s.hub.mem := by
  simp only [hypWrite]
  split <;> rfl

@[simp] theorem sprWrite_hub_mem (lvl n : Nat) (v : Word) (s : State) :
    (sprWrite lvl n v s).hub.mem = s.hub.mem := by
  unfold sprWrite
  extract_lets r set core reach
  have hset (f : Sprs → Sprs) : (set f).hub.mem = s.hub.mem := State.modMe_hub_mem _ s
  have hwhere (c : Prop) [Decidable c] (f : Sprs → Sprs) : (if c then set f else s).hub.mem = s.hub.mem := by
    split
    · exact hset f
    · rfl
  clear_value set core reach
  split
  · exact hypWrite_hub_mem ..
  · exact hwhere _ _
  · split
    · rfl
    · exact hset _
  · exact hset _
  · exact State.modMe_hub_mem ..
  · rfl
  · exact hset _
  · exact hset _
  · exact hset _
  · exact hset _
  · exact hset _
  · exact hset _
  · exact hset _
  · exact hwhere _ _
  · exact hset _
  · exact hset _
  · exact hset _
  · exact hset _
  · exact hset _
  · exact hwhere _ _
  · exact hwhere _ _
  · exact hwhere _ _
  · exact hwhere _ _
  · rfl

@[simp] theorem State.writeMBits_hub_mem (L : Nat) (d : BitVec 6) (k v : Word) (s : State) :
    (s.writeMBits L d k v).hub.mem = s.hub.mem := rfl

@[simp] theorem State.broadcastG_hub_mem (L : Nat) (d : BitVec 5) (v : Word) (s : State) :
    (s.broadcastG L d v).hub.mem = s.hub.mem := rfl

@[simp] theorem State.writeG_memAfter (L : Nat) (d : BitVec 5) (v : Word) (s : State) :
    memAfter (s.writeG L d v) = some s.hub.mem := by
  simp [State.writeG]

@[simp] theorem State.writeD_memAfter (L : Nat) (ud : Bool) (d : BitVec 6) (v : Word) (s : State) :
    memAfter (s.writeD L ud d v) = some s.hub.mem := by
  simp [State.writeD]

@[simp] theorem State.writeV_memAfter (L : Nat) (d : BitVec 6) (ws : List (Nat × BitVec 32)) (s : State) :
    memAfter (s.writeV L d ws) = some s.hub.mem := by
  simp [State.writeV]

@[simp] theorem State.writeVBits_memAfter (L : Nat) (d : BitVec 6) (u : Nat) (k v : BitVec 32) (s : State) :
    memAfter (s.writeVBits L d u k v) = some s.hub.mem := by
  simp [State.writeVBits]

@[simp] theorem State.writeElems_memAfter (L : Nat) (f : VF) (w : Nat) (g : Nat → Nat) (s : State) :
    memAfter (s.writeElems L f w g) = some s.hub.mem := by
  simp [State.writeElems]

/-! ### Reads of lines, and the caches of the stacks -/

@[simp] theorem Hub.protect_mem (part node a n t : Nat) (h : Hub) :
    (h.protect part node a n t).mem = h.mem := by
  simp [Hub.protect]

@[simp] theorem Hub.testWatches_mem (part node line t : Nat) (h : Hub) :
    (h.testWatches part node line t).mem = h.mem := rfl

@[simp] theorem Hub.raise_mem (t : Nat) (h : Hub) :
    (h.raise t).mem = h.mem := rfl

@[simp] theorem Hub.ringBells_mem (line : Nat) (bs : List (Nat × Byte)) (h : Hub) :
    (h.ringBells line bs).mem = h.mem := rfl

@[simp] theorem Hub.onStack_mem (line : Nat) (f : Stack → Stack) (h : Hub) :
    (h.onStack line f).mem = h.mem := by
  unfold Hub.onStack
  split <;> simp

@[simp] theorem Hub.mscTouch_mem (line : Nat) (dirty : Bool) (h : Hub) :
    (h.mscTouch line dirty).mem = h.mem := by
  simp [Hub.mscTouch]

@[simp] theorem Hub.mscWrite_mem (line : Nat) (h : Hub) :
    (h.mscWrite line).mem = h.mem := by
  simp [Hub.mscWrite]

@[simp] theorem Hub.readLine_mem (line : Nat) (h : Hub) :
    (h.readLine line).mem = h.mem := by
  simp [Hub.readLine]

@[simp] theorem Hub.readAt_mem (part node a n t : Nat) (h : Hub) :
    (h.readAt part node a n t).mem = h.mem := by
  simp [Hub.readAt]

@[simp] theorem Hub.mscClean_mem (line : Nat) (h : Hub) :
    (h.mscClean line).mem = h.mem := by
  simp [Hub.mscClean]

/-! ### Translation, requests under way and stores that wait -/

@[simp] theorem Hub.translate_snd_mem (h : Hub) (fr : Nat) (k : Fin 3) (w : Want) :
    (h.translate fr k w).2.mem = h.mem := by
  simp only [Hub.translate]
  split
  · rfl
  · split <;> rfl

@[simp] theorem State.awaitXlat_hub_mem (w : Want) (s : State) :
    (s.awaitXlat w).hub.mem = s.hub.mem := by
  simp [State.awaitXlat]

@[simp] theorem State.sendFor_snd_hub_mem (who : HartId) (cxl : Option (Nat × CxlReq)) (far : Far) (pa len : Nat)
    (write : Bool) (s : State) :
    (s.sendFor who cxl far pa len write).2.hub.mem = s.hub.mem := rfl

@[simp] theorem State.sendOut_snd_hub_mem (far : Far) (pa len : Nat) (write : Bool) (s : State) :
    (s.sendOut far pa len write).2.hub.mem = s.hub.mem := rfl

@[simp] theorem State.sendPieces_snd_hub_mem (ps : List Piece) (s : State) :
    (State.sendPieces ps s).2.hub.mem = s.hub.mem := by
  induction ps generalizing s with
  | nil => rfl
  | cons p ps ih =>
    simp only [State.sendPieces]
    split
    · exact (ih _).trans (State.sendOut_snd_hub_mem ..)
    · exact ih s

@[simp] theorem State.sendLoad_hub_mem (L kind reg occ : Nat) (dest : LoadDest) (ps : List Piece) (s : State) :
    (s.sendLoad L kind reg occ dest ps).hub.mem = s.hub.mem :=
  (State.sendPieces_snd_hub_mem ps s.fresh.2).trans (State.fresh_snd_hub_mem s)

@[simp] theorem State.stallVersion_hub_mem (va : Nat) (s : State) :
    (s.stallVersion va).hub.mem = s.hub.mem := rfl

theorem State.recallOf_hub_mem {line : Nat} {s t : State} (e : s.recallOf line = some t) :
    t.hub.mem = s.hub.mem := by
  unfold State.recallOf at e
  split at e
  · cases e
  · split at e
    · exact congrArg (·.hub.mem) (Option.some.inj e).symm
    · exact congrArg (·.hub.mem) (Option.some.inj e).symm

@[simp] theorem State.leaseRoom_hub_mem (s : State) : s.leaseRoom.hub.mem = s.hub.mem := by
  simp only [State.leaseRoom]
  split
  · rfl
  · split <;> rfl

@[simp] theorem State.fillLine_hub_mem (part node t pa n : Nat) (s : State) :
    (s.fillLine part node t pa n).hub.mem = s.hub.mem := by
  simp [State.fillLine]

@[simp] theorem State.ncWrite_hub_mem (pa : Nat) (bs : List (Nat × Byte)) (s : State) :
    (s.ncWrite pa bs).hub.mem = s.hub.mem := by
  simp [State.ncWrite]

theorem State.ncRecall_hub_mem {ps : List Piece} {s t : State} (e : s.ncRecall ps = some t) :
    t.hub.mem = s.hub.mem := by
  obtain ⟨p, -, hp⟩ := List.exists_of_findSome?_eq_some e
  split at hp
  · split at hp
    · exact State.recallOf_hub_mem hp
    · cases hp
  · cases hp

@[simp] theorem State.queueUnder_hub_mem (dev : Bool) (node va pa : Nat) (kind : WKind) (wide : Bool)
    (s : State) : (s.queueUnder dev node va pa kind wide).hub.mem = s.hub.mem := by
  simp only [State.queueUnder]
  split <;> simp

@[simp] theorem State.queueWrite_hub_mem (dev : Bool) (va pa : Nat) (kind : WKind) (wide : Bool) (s : State) :
    (s.queueWrite dev va pa kind wide).hub.mem = s.hub.mem := by
  simp [State.queueWrite]

@[simp] theorem State.queueVault_hub_mem (whole : Bool) (pa dist : Nat) (bytes : List Byte) (s : State) :
    (s.queueVault whole pa dist bytes).hub.mem = s.hub.mem := rfl

@[simp] theorem State.storeVault_hub_mem (pa dist : Nat) (bytes : List Byte) (s : State) :
    (s.storeVault pa dist bytes).hub.mem = s.hub.mem := by
  unfold State.storeVault
  split
  · simp
  · exact State.foldl_hub_mem fun _ _ => State.queueVault_hub_mem ..

@[simp] theorem State.storeMem_hub_mem (p : Piece) (bs : List (Nat × Byte)) (wide : Bool) (s : State) :
    (s.storeMem p bs wide).hub.mem = s.hub.mem := by
  simp [State.storeMem]

@[simp] theorem State.storePiece_hub_mem (p : Piece) (bytes : List Byte) (wide : Bool) (s : State) :
    (s.storePiece p bytes wide).hub.mem = s.hub.mem := by
  unfold State.storePiece
  split <;> simp

@[simp] theorem State.sendStores_hub_mem (occ : Nat) (wide merge : Bool) (ps : List (Piece × List Byte))
    (s : State) : (s.sendStores occ wide merge ps).hub.mem = s.hub.mem := by
  unfold State.sendStores
  split
  · simp
  · split
    next t e => simp [State.ncRecall_hub_mem e]
    next => simp

@[simp] theorem State.stopLanes_hub_mem (kind n : Nat) (w : Want) (s : State) :
    (s.stopLanes kind n w).hub.mem = s.hub.mem :=
  (State.awaitXlat_hub_mem w _).trans (congrArg Hub.mem (State.modMe_hub _ { s with free := s.free + 1 }))

@[simp] theorem State.backOwn_hub_mem (va pa : Nat) (s : State) : (s.backOwn va pa).hub.mem = s.hub.mem := by
  simp only [State.backOwn]
  split
  · split <;> simp
  · rfl

/-! ### Monitored waits, units and the engine's queue -/

@[simp] theorem State.monCheck_snd_hub_mem (lt : Nat) (w : Watch) (s : State) :
    (s.monCheck lt w).2.hub.mem = s.hub.mem := by
  unfold State.monCheck
  extract_lets n f b t u
  have hu : u.hub.mem = s.hub.mem := Hub.readAt_mem ..
  split
  · rfl
  · split
    · rfl
    · split
      next v e => exact State.recallOf_hub_mem e
      next =>
        split
        · exact hu
        · split <;> exact hu

@[simp] theorem State.monFault_memAfter (va info : Nat) (s : State) :
    memAfter (s.monFault va info) = some s.hub.mem := by
  simp [State.monFault]

@[simp] theorem State.monStand_memAfter (m : Mon) (s : State) :
    memAfter (s.monStand m) = some s.hub.mem := by
  unfold State.monStand
  split <;> simp

@[simp] theorem State.backsAt_hub_mem (chip : Nat) (at_ : Nat → Bool) (s : State) :
    (s.backsAt chip at_).hub.mem = s.hub.mem := rfl

@[simp] theorem State.sawTdt_hub_mem (seen line : Nat) (s : State) :
    (s.sawTdt seen line).hub.mem = s.hub.mem := by
  simp [State.sawTdt]

@[simp] theorem State.mxIssue_hub_mem (t : Nat × Nat) (kind reg : Nat) (release : Bool) (tile : Option Nat)
    (job : Option MxJob) (effs : Option (List Eff)) (s : State) :
    (s.mxIssue t kind reg release tile job effs).hub.mem = s.hub.mem := rfl

@[simp] theorem writeRed_memAfter (f : VF) (r : Nat) (s : State) :
    memAfter (writeRed f r s) = some s.hub.mem := by
  simp [writeRed]

@[simp] theorem State.acceptOp_hub_mem (f : EF) (kind : EngKind) (dst src len total : Nat) (fails : Bool)
    (s : State) : (s.acceptOp f kind dst src len total fails).hub.mem = s.hub.mem := by
  simp [State.acceptOp]

@[simp] theorem State.semOwn_hub_mem (f : EF) (op : Nat) (s : State) :
    (s.semOwn f op).hub.mem = s.hub.mem := rfl

@[simp] theorem State.modConn_hub_mem (part q : Nat) (f : Conn → Conn) (s : State) :
    (s.modConn part q f).hub.mem = s.hub.mem := rfl

/-! ### Fetch times, groups and the registers of partition and monitor -/

theorem State.fetchRecall_hub_mem {la : Nat} {s t : State} (e : s.fetchRecall la = some t) :
    t.hub.mem = s.hub.mem := by
  simp only [State.fetchRecall] at e
  split at e
  · split at e
    · exact State.recallOf_hub_mem e
    · cases e
  · cases e

@[simp] theorem State.fetchTime_hub_mem (la : Nat) (s : State) :
    (s.fetchTime la).hub.mem = s.hub.mem := by
  unfold State.fetchTime
  split
  · rfl
  · split
    · rfl
    · split
      · rfl
      · extract_lets part t u
        have hu : u.hub.mem = s.hub.mem := by
          unfold u
          split
          · exact State.fillLine_hub_mem ..
          · exact Hub.readAt_mem ..
        exact hu

@[simp] theorem State.stallOn_hub_mem (n p : Nat) (s : State) :
    (s.stallOn n p).hub.mem = s.hub.mem := rfl

@[simp] theorem State.arrive_snd_hub_mem (ct : Bool) (n : Nat) (j : Fin 4) (contrib : Option Word) (s : State) :
    (s.arrive ct n j contrib).2.hub.mem = s.hub.mem := by
  simp only [State.arrive]
  split
  · rfl
  · split <;> rfl

@[simp] theorem State.pendEvent_hub_mem (core bit : Nat) (s : State) :
    (s.pendEvent core bit).hub.mem = s.hub.mem := rfl

@[simp] theorem State.raiseBy_hub_mem (r : Word) (bit : Nat) (s : State) :
    (s.raiseBy r bit).hub.mem = s.hub.mem := by
  simp [State.raiseBy]

@[simp] theorem State.logErr_hub_mem (kind addr : Nat) (s : State) :
    (s.logErr kind addr).hub.mem = s.hub.mem := by
  unfold State.logErr
  extract_lets m m'
  split
  · rfl
  · exact (State.raiseBy_hub_mem ..).trans (State.mem_withMon m' s)

@[simp] theorem State.countCorrected_hub_mem (s : State) :
    s.countCorrected.hub.mem = s.hub.mem := rfl

@[simp] theorem State.setPart_hub_mem (p : Nat) (f : PartRegs → PartRegs) (s : State) :
    (s.setPart p f).hub.mem = s.hub.mem := rfl

@[simp] theorem State.setMon_hub_mem (f : MonRegs → MonRegs) (s : State) :
    (s.setMon f).hub.mem = s.hub.mem := rfl

@[simp] theorem State.ioFault_hub_mem (p stage kind src : Nat) (wr : Bool) (addr : Nat) (s : State) :
    (s.ioFault p stage kind src wr addr).hub.mem = s.hub.mem := by
  simp [State.ioFault]

theorem State.ndoor_hub_mem {lvl part : Nat} {v : Word} {s t : State} (e : s.ndoor lvl part v = some t) :
    t.hub.mem = s.hub.mem := by
  unfold State.ndoor at e
  extract_lets c own at e
  split at e
  · exact Option.some.inj e ▸ State.pendEvent_hub_mem ..
  · cases e

@[simp] theorem State.mdoor_hub_mem (v : Word) (s : State) :
    (s.mdoor v).hub.mem = s.hub.mem := rfl

@[simp] theorem State.quotaWrite_hub_mem (p : Nat) (v : Word) (s : State) :
    (s.quotaWrite p v).hub.mem = s.hub.mem := by
  simp [State.quotaWrite]

@[simp] theorem State.calFlush_hub_mem (p : Nat) (s : State) :
    (s.calFlush p).hub.mem = s.hub.mem := rfl

@[simp] theorem State.calClear_hub_mem (p : Nat) (s : State) :
    (s.calClear p).hub.mem = s.hub.mem := rfl

@[simp] theorem State.pquota_hub_mem (p : Nat) (v : Word) (s : State) :
    (s.pquota p v).hub.mem = s.hub.mem := by
  simp [State.pquota]

@[simp] theorem State.readConns_hub_mem (p : Nat) (s : State) :
    (s.readConns p).hub.mem = s.hub.mem := rfl

@[simp] theorem State.connb_hub_mem (p : Nat) (v : Word) (s : State) :
    (s.connb p v).hub.mem = s.hub.mem := rfl

@[simp] theorem State.mext_hub_mem (v : Word) (s : State) :
    (s.mext v).hub.mem = s.hub.mem := by
  simp [State.mext]

@[simp] theorem State.dirq_hub_mem (v : Word) (s : State) :
    (s.dirq v).hub.mem = s.hub.mem := rfl

@[simp] theorem State.pknum_hub_mem (v : Word) (s : State) :
    (s.pknum v).hub.mem = s.hub.mem := rfl

@[simp] theorem State.ctxres_hub_mem (v : Word) (s : State) :
    (s.ctxres v).hub.mem = s.hub.mem := by
  simp [State.ctxres]

@[simp] theorem State.counterClear_hub_mem (r : CounterReg) (v : Word) (s : State) :
    (s.counterClear r v).hub.mem = s.hub.mem := by
  cases r with
  | ioflt p => exact State.setPart_hub_mem ..
  | iounb => exact State.setMon_hub_mem ..
  | errst => exact State.setMon_hub_mem ..

@[simp] theorem State.setIsl_hub_mem (i : Nat) (f : Island → Island) (s : State) :
    (s.setIsl i f).hub.mem = s.hub.mem := rfl

@[simp] theorem State.islReq_hub_mem (i : Nat) (v : Word) (s : State) :
    (s.islReq i v).hub.mem = s.hub.mem := by
  simp [State.islReq]

@[simp] theorem State.pwrctl_hub_mem (v : Word) (s : State) :
    (s.pwrctl v).hub.mem = s.hub.mem := rfl

@[simp] theorem State.telsel_hub_mem (v : Word) (s : State) :
    (s.telsel v).hub.mem = s.hub.mem := rfl

@[simp] theorem State.plainPart_hub_mem (p off : Nat) (v : Word) (s : State) :
    (s.plainPart p off v).hub.mem = s.hub.mem := rfl

@[simp] theorem State.plainMon_hub_mem (off : Nat) (v : Word) (s : State) :
    (s.plainMon off v).hub.mem = s.hub.mem := rfl

theorem State.partWrite_hub_mem {p lvl off : Nat} {v : Word} {s t : State} (e : s.partWrite p lvl off v = some t) :
    t.hub.mem = s.hub.mem := by
  unfold State.partWrite at e
  split at e
  · obtain rfl := Option.some.inj e
    simp only [State.ite_hub, Hub.ite_mem]
    split <;> exact State.setPart_hub_mem p _ s
  · exact Option.some.inj e ▸ State.setPart_hub_mem ..
  · split at e
    · exact Option.some.inj e ▸ State.calClear_hub_mem ..
    · cases e
  · split at e
    · exact Option.some.inj e ▸ State.calClear_hub_mem ..
    · cases e
  · obtain rfl := Option.some.inj e
    have h : (if lvl = 2 then s.quotaWrite p v else s).hub.mem = s.hub.mem := by simp
    split
    · exact (State.calFlush_hub_mem ..).trans h
    · exact h
  · split at e
    · exact Option.some.inj e ▸ State.pquota_hub_mem ..
    · cases e
  · cases e
  · exact Option.some.inj e ▸ State.connb_hub_mem ..
  · exact Option.some.inj e ▸ State.counterClear_hub_mem ..
  · exact Option.some.inj e ▸ State.setPart_hub_mem ..
  · exact State.ndoor_hub_mem e
  · split at e
    · exact Option.some.inj e ▸ State.plainPart_hub_mem ..
    · cases e
  · split at e
    · exact Option.some.inj e ▸ State.plainPart_hub_mem ..
    · cases e
  · exact Option.some.inj e ▸ State.plainPart_hub_mem ..

@[simp] theorem State.monWrite_hub_mem (off : Nat) (v : Word) (s : State) :
    (s.monWrite off v).hub.mem = s.hub.mem := by
  unfold State.monWrite
  split <;> simp

theorem State.cfgWrite_hub_mem {part lvl off : Nat} {v : Word} {s t : State}
    (e : s.cfgWrite part lvl off v = some t) : t.hub.mem = s.hub.mem := by
  simp only [State.cfgWrite] at e
  split at e
  · split at e
    · obtain rfl := Option.some.inj e
      simp
    · cases e
  · split at e
    · exact State.partWrite_hub_mem e
    · cases e

/-! ### Peers, hosts and results that go out -/

@[simp] theorem State.peerSee_hub_mem (p t : Nat) (s : State) :
    (s.peerSee p t).hub.mem = s.hub.mem := by
  simp [State.peerSee]

@[simp] theorem Hub.setPeer_mem (x : PeerLine) (hb : Hub) :
    (hb.setPeer x).mem = hb.mem := rfl

@[simp] theorem Hub.dropPeer_mem (p line : Nat) (hb : Hub) :
    (hb.dropPeer p line).mem = hb.mem := rfl

@[simp] theorem Hub.endTenure_mem (line : Nat) (hb : Hub) :
    (hb.endTenure line).mem = hb.mem := by
  unfold Hub.endTenure
  split <;> simp

@[simp] theorem Hub.restartInvs_mem (hb : Hub) :
    hb.restartInvs.mem = hb.mem := rfl

@[simp] theorem Hub.defer_mem (peer line : Nat) (hb : Hub) :
    (hb.defer peer line).mem = hb.mem := rfl

theorem State.clearPeers_hub_mem {line : Nat} {except : Option Nat} {s t : State}
    (e : s.clearPeers line except = some t) : t.hub.mem = s.hub.mem := by
  unfold State.clearPeers at e
  extract_lets ps sent open_ missing new at e
  split at e
  · cases e
  · exact congrArg (·.hub.mem) (Option.some.inj e).symm

theorem State.grantOwn_hub_mem {st : Moesi} {peer line : Nat} {s t : State}
    (e : s.grantOwn st peer line = some t) : t.hub.mem = s.hub.mem := by
  unfold State.grantOwn at e
  split at e
  next u h => exact Option.some.inj e ▸ State.clearPeers_hub_mem h
  next =>
    extract_lets old hb hb' m b bytes hb2 hb3 at e
    have h' : hb'.mem = s.hub.mem := by
      simp only [hb', hb, Hub.ite_mem, Hub.readLine_mem, Hub.endTenure_mem, ite_self]
    have h3 : hb3.mem = s.hub.mem := (Hub.setLine_mem ..).trans h'
    exact Option.some.inj e ▸ (State.peerSee_hub_mem ..).trans h3

@[simp] theorem State.askHost_hub_mem (port peer line : Nat) (req : CxlReq) (s : State) :
    (s.askHost port peer line req).hub.mem = s.hub.mem := by
  simp [State.askHost]

@[simp] theorem State.hostFill_hub_mem (port peer line : Nat) (own : Bool) (s : State) :
    (s.hostFill port peer line own).hub.mem = s.hub.mem := by
  simp only [State.hostFill]
  split
  · simp
  · split
    · simp
    · split <;> simp

@[simp] theorem State.takeHost_hub_mem (peer line : Nat) (req : CxlReq) (data : List Byte) (s : State) :
    (s.takeHost peer line req data).hub.mem = s.hub.mem := by
  unfold State.takeHost
  split <;> simp

@[simp] theorem State.cxlAck_hub_mem (loc : Loc) (pa len : Nat) (s : State) :
    (s.cxlAck loc pa len).hub.mem = s.hub.mem := by
  unfold State.cxlAck
  split <;> simp

@[simp] theorem Hub.writtenBy_mem (n node line : Nat) (bs : List (Nat × Byte)) (hb : Hub) :
    (hb.writtenBy n node line bs).mem = hb.mem := by
  simp only [Hub.writtenBy]
  split <;> simp

@[simp] theorem Hub.peerWrite_mem (peer line : Nat) (bs : List (Nat × Byte)) (t : Nat) (hb : Hub) :
    (hb.peerWrite peer line bs t).mem = hb.mem := by
  unfold Hub.peerWrite
  split <;> simp

@[simp] theorem State.coreWrite_hub_mem (line : Nat) (bs : List (Nat × Byte)) (t : Nat) (s : State) :
    (s.coreWrite line bs t).hub.mem = s.hub.mem := by
  unfold State.coreWrite
  split <;> simp

@[simp] theorem State.heldWrite_hub_mem (peer line : Nat) (bs : List (Nat × Byte)) (s : State) :
    (s.heldWrite peer line bs).hub.mem = s.hub.mem := by
  simp only [State.heldWrite]
  have hs : ((s.grantOwn .M peer line).getD s).hub.mem = s.hub.mem := State.getD_hub_mem State.grantOwn_hub_mem
  split <;> simp [hs]

@[simp] theorem State.endSequence_hub_mem (l : Locked) (s : State) :
    (s.endSequence l).hub.mem = s.hub.mem := by
  simp [State.endSequence]

@[simp] theorem State.endSequences_hub_mem (line : Nat) (s : State) :
    (s.endSequences line).hub.mem = s.hub.mem := by
  simp [State.endSequences]

@[simp] theorem State.hubSaw_hub_mem (part va n : Nat) (s : State) :
    (s.hubSaw part va n).hub.mem = s.hub.mem := by
  unfold State.hubSaw
  split <;> simp

@[simp] theorem State.stampConfig_hub_mem (line : Nat) (s : State) :
    (s.stampConfig line).hub.mem = s.hub.mem := rfl

@[simp] theorem State.sendWrite_hub_mem (w : Write) (f : Far) (s : State) :
    (s.sendWrite w f).hub.mem = s.hub.mem := rfl

@[simp] theorem State.atomicFails_hub_mem (w : Write) (bits : Nat) (s : State) :
    (s.atomicFails w bits).hub.mem = s.hub.mem := by
  unfold State.atomicFails
  split <;> simp

@[simp] theorem State.atomicDone_hub_mem (w : Write) (old t : Nat) (s : State) :
    (s.atomicDone w old t).hub.mem = s.hub.mem := rfl

/-! ### Answers to loads, banks and the engine -/

@[simp] theorem State.answerAsk_hub_mem (a : Ask) (s : State) : (s.answerAsk a).hub.mem = s.hub.mem := by
  unfold State.answerAsk
  extract_lets u ms t effs v
  split
  · rfl
  · split
    next v e =>
      obtain ⟨p, -, hp⟩ := List.exists_of_findSome?_eq_some e
      exact ((State.modMe_hub_mem ..).trans (State.recallOf_hub_mem hp)).trans (State.modMe_hub_mem _ s)
    next =>
      split
      · rfl
      · exact State.foldl_hub_mem (s := u) fun _ _ => by
          split
          · exact State.fillLine_hub_mem ..
          · exact Hub.readAt_mem ..

@[simp] theorem State.maybeEvict_hub_mem (a : Ask) (s : State) :
    (s.maybeEvict a).hub.mem = s.hub.mem := rfl

@[simp] theorem State.answerDirect_hub_mem (s : State) :
    s.answerDirect.hub.mem = s.hub.mem := by
  simp [State.answerDirect]

@[simp] theorem State.settleBanks_hub_mem (s : State) :
    s.settleBanks.hub.mem = s.hub.mem := by
  simp [State.settleBanks]

@[simp] theorem State.engFail_hub_mem (id bits : Nat) (s : State) :
    (s.engFail id bits).hub.mem = s.hub.mem := by
  simp [State.engFail]

@[simp] theorem State.engSuspend_hub_mem (id va : Nat) (x : XFault) (acc : Acc) (s : State) :
    (s.engSuspend id va x acc).hub.mem = s.hub.mem := by
  simp [State.engSuspend]

@[simp] theorem State.engFinish_hub_mem (id : Nat) (s : State) :
    (s.engFinish id).hub.mem = s.hub.mem := by
  unfold State.engFinish
  split <;> simp

@[simp] theorem State.engWait_hub_mem (id : Nat) (s : State) :
    (s.engWait id).hub.mem = s.hub.mem := rfl

@[simp] theorem State.engFailTurn_hub_mem (o : EngOp) (bits : Nat) (s : State) :
    (s.engFailTurn o bits).hub.mem = s.hub.mem := by
  simp [State.engFailTurn]

@[simp] theorem State.engMoved_hub_mem (id line : Nat) (os : List Nat) (s : State) :
    (s.engMoved id line os).hub.mem = s.hub.mem := by
  simp [State.engMoved]

@[simp] theorem Hub.setPoison_mem (part node line : Nat) (bad clears : Bool) (hb : Hub) :
    (hb.setPoison part node line bad clears).mem = hb.mem := by
  simp [Hub.setPoison]

@[simp] theorem State.landOut_hub_mem (u : SemOut) (s : State) :
    (s.landOut u).hub.mem = s.hub.mem := rfl

@[simp] theorem State.takeAnswer_hub_mem (tag bits time : Nat) (data : List Byte) (s : State) :
    (s.takeAnswer tag bits time data).hub.mem = s.hub.mem := by
  unfold State.takeAnswer
  extract_lets waits wrote s1 s2 s3 s4
  have h4 : s4.hub.mem = s.hub.mem := by
    unfold s4
    split
    · rfl
    · split
      · exact State.atomicFails_hub_mem ..
      · exact State.atomicDone_hub_mem ..
  split
  · exact h4
  · split
    · exact (State.engFail_hub_mem ..).trans h4
    · exact (State.engFinish_hub_mem ..).trans h4

/-! ### Links, requests from outside and base dies -/

@[simp] theorem State.setLink_hub_mem (k : Nat) (f : Link → Link) (s : State) :
    (s.setLink k f).hub.mem = s.hub.mem := by
  unfold State.setLink
  split <;> simp

@[simp] theorem State.linkSend_hub_mem (k : Nat) (s : State) :
    (s.linkSend k).hub.mem = s.hub.mem := by
  simp [State.linkSend]

@[simp] theorem State.reply_hub_mem (k : Nat) (x : LinkItem) (s : State) :
    (s.reply k x).hub.mem = s.hub.mem := by
  simp [State.reply]

@[simp] theorem Hub.inboundAddr_snd_mem (fr part : Nat) (k : Option (Fin 3)) (acc : Acc) (a : Nat) (hb : Hub) :
    (hb.inboundAddr fr part k acc a).2.mem = hb.mem := by
  simp only [Hub.inboundAddr]
  split
  · split <;> simp
  · split
    · rfl
    · split
      · rfl
      · split <;> rfl

@[simp] theorem Hub.inboundAddrs_snd_mem (fr part : Nat) (k : Option (Fin 3)) (acc : Acc) (as : List Nat)
    (hb : Hub) : (Hub.inboundAddrs fr part k acc as hb).2.mem = hb.mem := by
  induction as generalizing hb with
  | nil => rfl
  | cons a as ih =>
    have ha := Hub.inboundAddr_snd_mem fr part k acc a hb
    unfold Hub.inboundAddrs
    split
    next e => exact (congrArg (·.2.mem) e).symm.trans ha
    next pa hc e =>
      have hc' : (Hub.inboundAddrs fr part k acc as hc).2.mem = hb.mem :=
        (ih hc).trans ((congrArg (·.2.mem) e).symm.trans ha)
      split
      next l hd e' => exact (congrArg (·.2.mem) e').symm.trans hc'
      next => exact hc'

@[simp] theorem State.tell_hub_mem (r : Reply) (s : State) :
    (s.tell r).hub.mem = s.hub.mem := rfl

@[simp] theorem State.tellFailed_hub_mem (wr rdma : Bool) (s : State) :
    (s.tellFailed wr rdma).hub.mem = s.hub.mem := rfl

@[simp] theorem State.tellBytes_hub_mem (pas : List Nat) (s : State) :
    (s.tellBytes pas).hub.mem = s.hub.mem := rfl

@[simp] theorem State.onRdma_hub_mem (r : RdmaReq) (f : Locked → Locked) (s : State) :
    (s.onRdma r f).hub.mem = s.hub.mem := rfl

@[simp] theorem State.rdmaDone_hub_mem (r : RdmaReq) (s : State) :
    (s.rdmaDone r).hub.mem = s.hub.mem := rfl

@[simp] theorem State.rdmaLater_hub_mem (r : RdmaReq) (peer line : Nat) (s : State) :
    (s.rdmaLater r peer line).hub.mem = s.hub.mem := by
  simp [State.rdmaLater]

@[simp] theorem State.wantLine_hub_mem (peer : Nat) (own : Bool) (line : Nat) (s : State) :
    (s.wantLine peer own line).hub.mem = s.hub.mem := by
  unfold State.wantLine
  split
  · exact State.hostFill_hub_mem ..
  · exact State.getD_hub_mem (s := s) State.recallOf_hub_mem

@[simp] theorem State.rdmaAtomic_hub_mem (r : RdmaReq) (peer pa : Nat) (s : State) :
    (s.rdmaAtomic r peer pa).hub.mem = s.hub.mem := by
  unfold State.rdmaAtomic
  extract_lets line n l hb took
  split
  · rfl
  · split
    · rfl
    · split
      · split
        next t e => exact (State.onRdma_hub_mem ..).trans (State.recallOf_hub_mem e)
        next =>
          have h : ∀ {t}, took = some t → t.hub.mem = s.hub.mem := by
            unfold took
            split
            · exact fun e => Option.some.inj e ▸ State.hostFill_hub_mem ..
            · exact State.grantOwn_hub_mem
          cases e : took with
          | none => rfl
          | some t =>
            have ht := h e
            exact (State.onRdma_hub_mem ..).trans ht
      · exact State.endSequence_hub_mem ..

@[simp] theorem State.setStack_hub_mem (k : Nat) (f : Stack → Stack) (s : State) :
    (s.setStack k f).hub.mem = s.hub.mem := by
  unfold State.setStack
  split <;> simp

@[simp] theorem State.mapStacks_hub_mem (f : Stack → Stack) (s : State) :
    (s.mapStacks f).hub.mem = s.hub.mem := rfl

@[simp] theorem State.damageLine_hub_mem (line : Nat) (s : State) :
    (s.damageLine line).hub.mem = s.hub.mem := rfl

@[simp] theorem State.poisonLine_hub_mem (line : Nat) (s : State) :
    (s.poisonLine line).hub.mem = s.hub.mem := rfl

@[simp] theorem State.stateError_hub_mem (h : HartId) (cls num : Nat) (s : State) :
    (s.stateError h cls num).hub.mem = s.hub.mem := by
  unfold State.stateError
  split <;> simp

/-! ### Events between bundles, hypotheses, groups and gangs -/

@[simp] theorem State.mapAll_hub_mem (f : Hart → Hart) (s : State) :
    (s.mapAll f).hub.mem = s.hub.mem := rfl

@[simp] theorem State.mapId_hub_mem (id : HartId) (f : Hart → Hart) (s : State) :
    (s.mapId id f).hub.mem = s.hub.mem := rfl

@[simp] theorem State.boundaryTrap_hub_mem (cls code info taddr lvl : Nat) (s : State) :
    (s.boundaryTrap cls code info taddr lvl).hub.mem = s.hub.mem := by
  simp [State.boundaryTrap]

@[simp] theorem State.openNode_snd_hub_mem (part : Nat) (parent : Word) (s : State) :
    (s.openNode part parent).2.hub.mem = s.hub.mem := by
  simp only [State.openNode]
  split
  · rfl
  · split
    · rfl
    · split <;> rfl

@[simp] theorem State.refuteNode_hub_mem (part n p : Nat) (s : State) :
    (s.refuteNode part n p).hub.mem = s.hub.mem := by
  simp [State.refuteNode]

@[simp] theorem State.setLaunch_hub_mem (id : Nat) (f : Launch → Launch) (s : State) :
    (s.setLaunch id f).hub.mem = s.hub.mem := rfl

@[simp] theorem State.leaveGroups_hub_mem (h : Hart) (ms : List (Nat × Nat)) (s : State) :
    (s.leaveGroups h ms).hub.mem = s.hub.mem :=
  State.foldl_hub_mem fun _ _ => State.setLaunch_hub_mem ..

@[simp] theorem State.settleLeaves_hub_mem (s : State) :
    s.settleLeaves.hub.mem = s.hub.mem := by
  simp [State.settleLeaves]

@[simp] theorem State.haltCore_hub_mem (core : Nat) (s : State) :
    (s.haltCore core).hub.mem = s.hub.mem := rfl

@[simp] theorem State.startDrain_hub_mem (ws : List Hart) (s : State) :
    (s.startDrain ws).hub.mem = s.hub.mem := rfl

@[simp] theorem State.setGang_hub_mem (launch gang : Nat) (f : Gang → Gang) (s : State) :
    (s.setGang launch gang f).hub.mem = s.hub.mem := rfl

@[simp] theorem State.endGang_hub_mem (launch gang : Nat) (s : State) :
    (s.endGang launch gang).hub.mem = s.hub.mem := by
  simp [State.endGang]

@[simp] theorem State.retireMe_hub_mem (s : State) :
    s.retireMe.hub.mem = s.hub.mem := by
  simp [State.retireMe]

@[simp] theorem State.startSave_hub_mem (launch gang : Nat) (why : Why) (s : State) :
    (s.startSave launch gang why).hub.mem = s.hub.mem := rfl

/-! ### Queues, commands and power -/

@[simp] theorem State.setQueue_hub_mem (part q : Nat) (f : Queue → Queue) (s : State) :
    (s.setQueue part q f).hub.mem = s.hub.mem := rfl

@[simp] theorem State.freeWatches_hub_mem (part q : Nat) (s : State) :
    (s.freeWatches part q).hub.mem = s.hub.mem := rfl

@[simp] theorem State.dropBarrier_hub_mem (part q : Nat) (s : State) :
    (s.dropBarrier part q).hub.mem = s.hub.mem := rfl

@[simp] theorem Hub.unpin_mem (launch : Nat) (hb : Hub) :
    (hb.unpin launch).mem = hb.mem := rfl

@[simp] theorem State.unstart_hub_mem (part q : Nat) (s : State) : (s.unstart part q).hub.mem = s.hub.mem :=
  Hub.foldl_mem fun _ _ => Hub.unpin_mem ..

@[simp] theorem Hub.keepWatches_mem (part q : Nat) (vs : List (Nat × Word)) (hb : Hub) :
    (hb.keepWatches part q vs).mem = hb.mem := rfl

@[simp] theorem State.armDep_hub_mem (part q va : Nat) (v : Word) (s : State) :
    (s.armDep part q va v).hub.mem = s.hub.mem := by
  unfold State.armDep
  split
  · simp
  · split <;> simp

@[simp] theorem State.dropHarts_hub_mem (launch : Nat) (s : State) : (s.dropHarts launch).hub.mem = s.hub.mem :=
  State.getD_hub_mem State.focus_hub_mem

@[simp] theorem State.addQueue_hub_mem (x : Queue) (s : State) :
    (s.addQueue x).hub.mem = s.hub.mem := rfl

@[simp] theorem State.reopen_hub_mem (part q : Nat) (s : State) :
    (s.reopen part q).hub.mem = s.hub.mem := by
  unfold State.reopen
  split <;> simp

@[simp] theorem State.endQctl_hub_mem (part st : Nat) (s : State) :
    (s.endQctl part st).hub.mem = s.hub.mem := rfl

@[simp] theorem State.yieldTo_hub_mem (c : Launch × Gang) (vs : List (Launch × Gang)) (s : State) :
    (s.yieldTo c vs).hub.mem = s.hub.mem :=
  State.foldl_hub_mem fun _ _ => by simp

@[simp] theorem Hub.holdBanks_mem (p : Place) (hb : Hub) :
    (hb.holdBanks p).mem = hb.mem := by
  simp [Hub.holdBanks]

@[simp] theorem State.endPreq_hub_mem (part st cause : Nat) (s : State) :
    (s.endPreq part st cause).hub.mem = s.hub.mem := rfl

@[simp] theorem State.preqDone_hub_mem (part : Nat) (why : Why) (st cause : Nat) (s : State) :
    (s.preqDone part why st cause).hub.mem = s.hub.mem := by
  unfold State.preqDone
  split <;> simp

@[simp] theorem State.takeOff_hub_mem (hs : List Hart) (s : State) : (s.takeOff hs).hub.mem = s.hub.mem :=
  State.getD_hub_mem State.focus_hub_mem

@[simp] theorem State.killGang_hub_mem (launch gang : Nat) (s : State) :
    (s.killGang launch gang).hub.mem = s.hub.mem := by
  simp [State.killGang]

@[simp] theorem State.abandonSave_hub_mem (l : Launch) (g : Gang) (why : Why) (s : State) :
    (s.abandonSave l g why).hub.mem = s.hub.mem := by
  simp [State.abandonSave]

@[simp] theorem State.saveGang_hub_mem (l : Launch) (g : Gang) (why : Why) (hs : List Hart) (s : State) :
    (s.saveGang l g why hs).hub.mem = s.hub.mem := by
  simp [State.saveGang]

@[simp] theorem State.holdGang_hub_mem (l : Launch) (i : Nat) (on : Bool) (s : State) :
    (s.holdGang l i on).hub.mem = s.hub.mem := rfl

@[simp] theorem State.endNcrq_hub_mem (part st : Nat) (s : State) :
    (s.endNcrq part st).hub.mem = s.hub.mem := rfl

@[simp] theorem State.dropRegion_hub_mem (chip region : Nat) (s : State) :
    (s.dropRegion chip region).hub.mem = s.hub.mem := rfl

@[simp] theorem State.endChctl_hub_mem (st cause : Nat) (s : State) :
    (s.endChctl st cause).hub.mem = s.hub.mem := State.setMon_hub_mem ..

@[simp] theorem State.setChst_hub_mem (chip st part : Nat) (failed : Bool) (s : State) :
    (s.setChst chip st part failed).hub.mem = s.hub.mem := by
  unfold State.setChst
  split <;> simp

@[simp] theorem State.setPchip_hub_mem (part bit : Nat) (on : Bool) (s : State) :
    (s.setPchip part bit on).hub.mem = s.hub.mem := rfl

@[simp] theorem State.vacate_hub_mem (chip : Nat) (s : State) :
    (s.vacate chip).hub.mem = s.hub.mem := rfl

@[simp] theorem State.setIsolation_hub_mem (chip : Nat) (f : Isolation → Isolation) (s : State) :
    (s.setIsolation chip f).hub.mem = s.hub.mem := rfl

@[simp] theorem State.endNcore_hub_mem (st : Nat) (s : State) : (s.endNcore st).hub.mem = s.hub.mem :=
  State.setMon_hub_mem ..

@[simp] theorem State.setIsland_hub_mem (i : Nat) (x : Island) (s : State) :
    (s.setIsland i x).hub.mem = s.hub.mem := rfl

@[simp] theorem Hub.moveCaps_mem (from_ to_ : Nat) (hb : Hub) :
    (hb.moveCaps from_ to_).mem = hb.mem := by
  simp [Hub.moveCaps]

@[simp] theorem Hub.lowerCaps_mem (hb : Hub) :
    hb.lowerCaps.mem = hb.mem := by
  simp [Hub.lowerCaps]

@[simp] theorem Hub.raiseCaps_mem (hb : Hub) :
    hb.raiseCaps.mem = hb.mem := by
  simp [Hub.raiseCaps]

@[simp] theorem Hub.trip_mem (hb : Hub) :
    hb.trip.mem = hb.mem := rfl

@[simp] theorem State.bootDone_hub_mem (n : Nat) (s : State) :
    (s.bootDone n).hub.mem = s.hub.mem := rfl

@[simp] theorem State.bootFail_hub_mem (cause : Nat) (s : State) :
    (s.bootFail cause).hub.mem = s.hub.mem := State.setMon_hub_mem ..

@[simp] theorem State.spdmSet_hub_mem (x : Spdm) (r : Reply) (s : State) :
    (s.spdmSet x r).hub.mem = s.hub.mem := rfl

@[simp] theorem State.setDecision_hub_mem (l : Launch) (prof : Nat) (base : Option Nat) (s : State) :
    (s.setDecision l prof base).hub.mem = s.hub.mem := rfl

@[simp] theorem State.fallBack_hub_mem (l : Launch) (k : KHead) (reason : Nat) (s : State) :
    (s.fallBack l k reason).hub.mem = s.hub.mem := rfl

@[simp] theorem State.quireHit_hub_mem (l : Launch) (k : KHead) (q : Quire) (s : State) :
    (s.quireHit l k q).hub.mem = s.hub.mem := rfl

@[simp] theorem State.holdFlights_hub_mem (l : Launch) (g : Gang) (chip flight prof : Nat) (s : State) :
    (s.holdFlights l g chip flight prof).hub.mem = s.hub.mem := rfl

/-! ### One cycle -/

@[simp] theorem State.prep_hub_mem (o : Slotted) (s : State) :
    (s.prep o).hub.mem = s.hub.mem := rfl

theorem pickTrap_hub_mem {lim : Nat} {s t : State} {ts : List Tried} (e : pickTrap lim s ts = some t) :
    ∃ x ∈ ts, t.hub.mem = x.st.hub.mem := by
  simp only [pickTrap, Option.map_eq_some_iff] at e
  obtain ⟨c, hc, rfl⟩ := e
  obtain ⟨x, hx, h⟩ := List.mem_filterMap.mp (List.mem_of_find?_eq_some hc)
  refine ⟨x, hx, ?_⟩
  split at h
  · split at h
    · obtain rfl := Option.some.inj h
      rfl
    · cases h
  · cases h

theorem stopOf_hub_mem {old : Option Stall} {a : VAddr} {s t : State} {ts : List Tried}
    (e : stopOf old a s ts = some t) : ∃ x ∈ ts, t.hub.mem = x.st.hub.mem := by
  unfold stopOf at e
  split at e
  next u h => exact Option.some.inj e ▸ pickTrap_hub_mem h
  next =>
    split at e
    next x hx =>
      obtain rfl := Option.some.inj e
      exact ⟨x, List.mem_of_find?_eq_some hx, rfl⟩
    next => exact pickTrap_hub_mem e

@[simp] theorem State.decodeTrap_hub_mem (a : VAddr) (d : Nat) (sl : Option Slot) (s : State) :
    (s.decodeTrap a d sl).hub.mem = s.hub.mem := by
  simp [State.decodeTrap]

@[simp] theorem State.fetchTrap_hub_mem (code info lvl : Nat) (s : State) :
    (s.fetchTrap code info lvl).hub.mem = s.hub.mem := by
  simp [State.fetchTrap]

@[simp] theorem State.fetchFault_hub_mem (f : FRes) (s : State) :
    (s.fetchFault f).hub.mem = s.hub.mem := by
  unfold State.fetchFault
  split <;> simp

@[simp] theorem State.fetch_snd_hub_mem (fuel : Nat) (s : State) : (State.fetch fuel s).2.hub.mem = s.hub.mem := by
  induction fuel generalizing s with
  | zero => rfl
  | succ fuel ih =>
    simp only [State.fetch]
    split
    · split
      · exact ih _
      · rfl
    · split
      · exact (ih _).trans (State.fresh_snd_hub_mem s)
      · split
        · rfl
        · split
          next t e => exact State.fetchRecall_hub_mem e
          next => split <;> simp [ih]

@[simp] theorem State.idle_hub_mem (s : State) :
    s.idle.hub.mem = s.hub.mem := rfl

@[simp] theorem State.endFrozen_hub_mem (s : State) :
    s.endFrozen.hub.mem = s.hub.mem := rfl

@[simp] theorem State.commitBundle_hub_mem (s : State) : s.commitBundle.hub.mem = s.hub.mem := by
  simp only [State.commitBundle]
  split
  · simp
  · simp
  · split <;> simp
  · simp

@[simp] theorem State.commitMe_hub_mem (s : State) : s.commitMe.hub.mem = s.hub.mem := by
  simp only [State.commitMe]
  split
  · simp
  · split
    · simp
    · split <;> simp

@[simp] theorem State.mayWriteBack_hub_mem (s : State) :
    s.mayWriteBack.hub.mem = s.hub.mem := by
  simp [State.mayWriteBack]

@[simp] theorem State.mayEvict_hub_mem (s : State) :
    s.mayEvict.hub.mem = s.hub.mem := by
  simp [State.mayEvict]

@[simp] theorem State.fetchOwn_snd_hub_mem (s : State) :
    s.fetchOwn.2.hub.mem = s.hub.mem := by
  unfold State.fetchOwn
  split <;> simp

@[simp] theorem State.pushItem_hub_mem (it : Item) (rs : List (HartId × Nat)) (s : State) :
    (s.pushItem it rs).hub.mem = s.hub.mem :=
  State.foldl_hub_mem fun _ _ => State.mapHart_hub_mem ..

@[simp] theorem State.settleItem_hub_mem (it : Item) (rs : List (HartId × Nat)) (s : State) :
    (s.settleItem it rs).hub.mem = s.hub.mem :=
  State.foldl_hub_mem fun _ _ => State.mapHart_hub_mem ..

@[simp] theorem State.passStopped_hub_mem (ids : List HartId) (s : State) :
    (s.passStopped ids).hub.mem = s.hub.mem :=
  State.each_hub_mem fun _ => rfl

@[simp] theorem State.wakeLead_hub_mem (lead : HartId) (it : Item) (ids : List HartId) (t : State) :
    (t.wakeLead lead it ids).hub.mem = t.hub.mem := by
  unfold State.wakeLead
  extract_lets rs posted u u'
  have h : u.hub.mem = t.hub.mem := State.each_hub_mem State.commitMe_hub_mem
  have h' : u'.hub.mem = u.hub.mem := by
    unfold u'
    split
    · exact State.settleItem_hub_mem ..
    · exact State.pushItem_hub_mem ..
  exact (State.each_hub_mem fun _ => State.modMe_hub_mem ..).trans (h'.trans h)

@[simp] theorem State.fetchLead_snd_hub_mem (lead : HartId) (s : State) :
    (s.fetchLead lead).2.hub.mem = s.hub.mem := by
  unfold State.fetchLead
  split
  · rfl
  next t e => split <;> simp [State.focus_hub_mem e]

@[simp] theorem State.deal_hub_mem (s : State) :
    s.deal.hub.mem = s.hub.mem := rfl

@[simp] theorem State.advance_hub_mem (s : State) :
    s.advance.hub.mem = s.hub.mem := by
  simp [State.advance]

end Sys2Proof.Machine
end

section
/-! What the slot operations leave of memory: all of it. A store is queued, and reaches memory by an event. -/

namespace Sys2Proof.Machine

/-- A meaning that always answers a next state, and leaves memory as it is. -/
def KeepsMemory (k : Sem) : Prop := ∀ s, memAfter (k s) = some s.hub.mem

/-! ### The common parts of the slots -/

theorem guarded_keepsMemory {g : Guard} {k : Sem} (hk : KeepsMemory k) : KeepsMemory (guarded g k) := fun s => by
  unfold guarded
  split
  · exact hk s
  · rfl

/-- What waits either stalls or does what it does. -/
theorem waitsOn_keepsMemory {w : State → Bool} {k : Sem} (hk : KeepsMemory k) :
    KeepsMemory (waitsOn w k) := fun s => by
  have h := hk s
  unfold waitsOn
  split
  next t e =>
    rw [e] at h
    split
    · split
      · rfl
      · exact h
    · split
      · rfl
      · exact h
    · exact h
  next => exact h

theorem treadSlot_keepsMemory {i : Instr} {k : Sem} (hk : KeepsMemory k) : KeepsMemory (treadSlot i k) := fun s => by
  obtain ⟨e, -, -⟩ | ⟨d, e, -⟩ := treadSlot_spec i k s
  · exact e ▸ hk s
  · exact e ▸ State.illegal_memAfter ..

theorem kernelOk_keepsMemory {i : Instr} {k : Sem} (hk : KeepsMemory k) : KeepsMemory (kernelOk i k) := fun s => by
  unfold kernelOk
  split
  · exact State.illegal_memAfter ..
  · exact hk s

theorem lsSlot_keepsMemory {i : Instr} {g : Guard} {k : Sem} (hk : KeepsMemory k) : KeepsMemory (lsSlot i g k) :=
  kernelOk_keepsMemory (guarded_keepsMemory (waitsOn_keepsMemory hk))

theorem xfSlot_keepsMemory {i : Instr} {f : XT} {k : Sem} (hk : KeepsMemory k) : KeepsMemory (xfSlot i f k) :=
  treadSlot_keepsMemory (guarded_keepsMemory hk)

theorem vaSlot_keepsMemory {i : Instr} {f : VF} {k : Sem} (hk : KeepsMemory k) : KeepsMemory (vaSlot i f k) :=
  treadSlot_keepsMemory (guarded_keepsMemory hk)

theorem ctSlot_keepsMemory {i : Instr} {g : Guard} {k : Sem} (hk : KeepsMemory k) : KeepsMemory (ctSlot i g k) :=
  kernelOk_keepsMemory (guarded_keepsMemory hk)

theorem treadCt_keepsMemory {i : Instr} {g : Guard} {k : Sem} (hk : KeepsMemory k) : KeepsMemory (treadCt i g k) :=
  ctSlot_keepsMemory fun s => by
    split
    · exact State.illegal_memAfter ..
    · exact hk s

theorem groupCt_keepsMemory {i : Instr} {f : CR} {k : Fin 4 → Sem} (hk : ∀ j, KeepsMemory (k j)) :
    KeepsMemory (groupCt i f k) :=
  treadCt_keepsMemory fun s => by
    split
    · exact State.illegal_memAfter ..
    next j _ => exact hk j s

theorem mxSlot_keepsMemory {i : Instr} {f : MF} {k : Sem} (hk : KeepsMemory k) : KeepsMemory (mxSlot i f k) :=
  treadSlot_keepsMemory (guarded_keepsMemory (waitsOn_keepsMemory fun s => by
    split
    · exact State.illegal_memAfter ..
    · exact hk s))

theorem ecSlot_keepsMemory {i : Instr} {f : EF} {k : Sem} (hk : KeepsMemory k) : KeepsMemory (ecSlot i f k) :=
  treadSlot_keepsMemory (guarded_keepsMemory (waitsOn_keepsMemory hk))

theorem engSlot_keepsMemory {i : Instr} {f : EF} {k : Sem} (hk : KeepsMemory k) : KeepsMemory (engSlot i f k) :=
  ecSlot_keepsMemory (waitsOn_keepsMemory hk)

/-- An access freezes, traps, or goes on with its pieces. -/
theorem accessing_keepsMemory {acc : Acc} {ranges : State → List (Nat × Nat)} {mis : State → Option Nat}
    {k : List Piece → Sem} (hk : ∀ ps, KeepsMemory (k ps)) : KeepsMemory (accessing acc ranges mis k) := fun s => by
  unfold accessing
  split
  · simp
  · exact State.xlatFault_memAfter ..
  next ps _ =>
    split
    · exact State.misaligned_memAfter ..
    · exact hk ps s
  · split
    · exact State.misaligned_memAfter ..
    · exact State.vaultFault_memAfter ..

theorem engChecks_keepsMemory {ws rs : List (Nat × Nat)} {k : Sem} (hk : KeepsMemory k) :
    KeepsMemory (engChecks ws rs k) := fun s => by
  unfold engChecks
  extract_lets
  split
  · simp
  · exact State.xlatFault_memAfter ..
  · simp
  · exact State.xlatFault_memAfter ..
  · exact State.vaultFault_memAfter ..
  · exact State.vaultFault_memAfter ..
  · exact hk s

theorem inVaultRanges_keepsMemory {base : Nat} {rs : List (Nat × Nat)} {k : Nat → Sem} (hk : ∀ a, KeepsMemory (k a)) :
    KeepsMemory (inVaultRanges base rs k) := fun s => by
  unfold inVaultRanges
  split
  · exact State.vaultFault_memAfter ..
  · extract_lets
    split
    · exact State.vaultFault_memAfter ..
    · exact hk _ s

theorem withTdt_keepsMemory {id : Word} {k : Tdt → Sem} (hk : ∀ t, KeepsMemory (k t)) :
    KeepsMemory (withTdt id k) := fun s => by
  unfold withTdt
  split
  next t _ _ _ =>
    split
    next u e => exact congrArg some ((State.stall_hub_mem ..).trans (State.recallOf_hub_mem e))
    next => exact (hk t _).trans (congrArg some (State.sawTdt_hub_mem ..))
  · simp
  · exact State.xlatFault_memAfter ..
  · exact State.descFault_memAfter ..

/-! ### Scalar slots -/

theorem alu_keepsMemory (L : Nat) (op : Word → Word → Word) (f : SR) : KeepsMemory (alu L op f) :=
  guarded_keepsMemory fun _ => State.writeD_memAfter ..

theorem aluI_keepsMemory (L : Nat) (op : Word → Word → Word) (f : SI) : KeepsMemory (aluI L op f) :=
  guarded_keepsMemory fun _ => rfl

theorem cmpR_keepsMemory (p : Word → Word → Bool) (f : SR) : KeepsMemory (cmpR p f) :=
  guarded_keepsMemory fun _ => rfl

theorem cmpI_keepsMemory (p : Word → Word → Bool) (f : SI) : KeepsMemory (cmpI p f) :=
  guarded_keepsMemory fun _ => rfl

theorem predOp_keepsMemory (p : Bool → Bool → Bool) (f : SR) : KeepsMemory (predOp p f) :=
  guarded_keepsMemory fun _ => rfl

theorem fpOp_keepsMemory (F : Fmt) (L : Nat) (op : FVal → FVal → FVal) (f : SR) : KeepsMemory (fpOp F L op f) :=
  guarded_keepsMemory fun _ => rfl

theorem ffmaOp_keepsMemory (F : Fmt) (L : Nat) (f : SR) : KeepsMemory (ffmaOp F L f) :=
  guarded_keepsMemory fun _ => rfl

theorem fcmpOp_keepsMemory (F : Fmt) (p : FVal → FVal → Bool) (f : SR) : KeepsMemory (fcmpOp F p f) :=
  guarded_keepsMemory fun _ => rfl

theorem execBfi_keepsMemory (f : SR) : KeepsMemory (execBfi f) :=
  guarded_keepsMemory fun _ => State.writeD_memAfter ..

theorem execSel_keepsMemory (pn : BitVec 3) (f : SR) : KeepsMemory (execSel pn f) :=
  guarded_keepsMemory fun _ => State.writeD_memAfter ..

theorem execMovi_keepsMemory (f : SU) : KeepsMemory (execMovi f) := guarded_keepsMemory fun _ => rfl

theorem execMovsh_keepsMemory (f : SU) : KeepsMemory (execMovsh f) := guarded_keepsMemory fun _ => rfl

theorem execFcvt_keepsMemory (f : SR) : KeepsMemory (execFcvt f) := guarded_keepsMemory fun _ => rfl

theorem execRdsr_keepsMemory (f : SI) : KeepsMemory (execRdsr f) := guarded_keepsMemory fun s => by
  extract_lets
  split
  · exact State.illegal_memAfter ..
  · split
    · exact State.privileged_memAfter ..
    · rfl

theorem execWrsr_keepsMemory (f : SI) : KeepsMemory (execWrsr f) := guarded_keepsMemory fun s => by
  extract_lets
  split
  · exact State.illegal_memAfter ..
  · split
    · exact State.privileged_memAfter ..
    · split
      · exact State.privileged_memAfter ..
      · rfl
    · split
      · exact State.illegal_memAfter ..
      · rfl

theorem execTlbinv_keepsMemory (f : SR) : KeepsMemory (execTlbinv f) := guarded_keepsMemory fun s => by
  extract_lets
  split
  · exact State.privileged_memAfter ..
  · split
    · exact State.illegal_memAfter ..
    · split <;> rfl

theorem execTlbsync_keepsMemory (f : SR) : KeepsMemory (execTlbsync f) := guarded_keepsMemory fun s => by
  split
  · exact State.privileged_memAfter ..
  · split <;> rfl

/-! ### The load-store slot -/

theorem scalarLoad_keepsMemory (i : Instr) (w : Nat) (signed : Bool) (f : LO) :
    KeepsMemory (scalarLoad i w signed f) :=
  lsSlot_keepsMemory fun s => accessing_keepsMemory (fun _ _ => by simp) s

theorem scalarStore_keepsMemory (i : Instr) (w : Nat) (f : LO) : KeepsMemory (scalarStore i w f) :=
  lsSlot_keepsMemory fun s => accessing_keepsMemory (fun _ _ => by simp) s

theorem execPf_keepsMemory (f : LO) : KeepsMemory (execPf f) := lsSlot_keepsMemory fun s => by
  extract_lets
  split
  · rfl
  · split
    · simp
    · rfl
    · extract_lets
      split
      · rfl
      · split
        next t e => exact congrArg some ((State.stall_hub_mem ..).trans (State.recallOf_hub_mem e))
        next => exact congrArg some (State.fillLine_hub_mem ..)

theorem execVld_keepsMemory (f : LO) : KeepsMemory (execVld f) := lsSlot_keepsMemory fun s => by
  extract_lets
  split
  · exact State.illegal_memAfter ..
  · exact accessing_keepsMemory (fun _ _ => by simp) s

theorem execVst_keepsMemory (f : LO) : KeepsMemory (execVst f) :=
  lsSlot_keepsMemory fun s => accessing_keepsMemory (fun _ _ => by simp) s

theorem execTld_keepsMemory (f : LB) : KeepsMemory (execTld f) := lsSlot_keepsMemory fun s => by
  extract_lets
  split
  · exact State.illegal_memAfter ..
  · exact accessing_keepsMemory (fun _ _ => by simp) s

theorem execTst_keepsMemory (f : LB) : KeepsMemory (execTst f) :=
  lsSlot_keepsMemory fun s => accessing_keepsMemory (fun _ _ => by simp) s

theorem execVgath_keepsMemory (f : LB) : KeepsMemory (execVgath f) := lsSlot_keepsMemory fun s => by
  extract_lets
  split
  · exact State.illegal_memAfter ..
  · split
    · exact congrArg some ((State.stopLanes_hub_mem ..).trans (State.sendLoad_hub_mem ..))
    · exact accessing_keepsMemory (fun _ _ => by simp) s

/-- The stores of a scatter, lane by lane. -/
theorem State.foldl_storePiece_hub_mem (l : List (Piece × List Byte)) (s : State) :
    (l.foldl (fun s e => s.storePiece e.1 e.2 false) s).hub.mem = s.hub.mem :=
  State.foldl_hub_mem fun _ _ => State.storePiece_hub_mem ..

theorem execVscat_keepsMemory (f : LB) : KeepsMemory (execVscat f) := lsSlot_keepsMemory fun s => by
  extract_lets
  split
  · exact congrArg some ((State.stopLanes_hub_mem ..).trans (State.foldl_storePiece_hub_mem ..))
  · refine accessing_keepsMemory (fun ps s => ?_) s
    split
    · simp
    next t _ e => exact congrArg some ((State.stall_hub_mem ..).trans (State.ncRecall_hub_mem e))
    · exact congrArg some (State.foldl_storePiece_hub_mem ..)

theorem execFenceScope_keepsMemory (f : LB) : KeepsMemory (execFenceScope f) := lsSlot_keepsMemory fun s => by
  extract_lets
  split <;> rfl

theorem atomically_keepsMemory {i : Instr} {f : LB} {k : Piece → Sem} (hk : ∀ p, KeepsMemory (k p)) :
    KeepsMemory (atomically i f k) := lsSlot_keepsMemory fun s => by
  extract_lets
  split
  · split
    · exact State.misaligned_memAfter ..
    · exact State.vaultFault_memAfter ..
  · refine accessing_keepsMemory (fun ps s => ?_) s
    split
    next p =>
      split
      · rfl
      · split
        · simp
        · exact (hk p _).trans (congrArg some (State.backOwn_hub_mem ..))
    · rfl

theorem amo_keepsMemory (i : Instr) (op : AmoOp) (f : LB) : KeepsMemory (amo i op f) :=
  atomically_keepsMemory fun p s => by
    dsimp only
    split
    · rfl
    · exact congrArg some ((State.ok_hub_mem _).trans (State.queueWrite_hub_mem ..))

theorem red_keepsMemory (i : Instr) (op : AmoOp) (f : LB) : KeepsMemory (red i op f) :=
  atomically_keepsMemory fun p s => by
    split
    · rfl
    · exact congrArg some ((State.ok_hub_mem _).trans (State.queueWrite_hub_mem ..))

theorem execMonWait_keepsMemory (f : LB) : KeepsMemory (execMonWait f) := lsSlot_keepsMemory fun s => by
  extract_lets
  split
  · split
    · exact State.misaligned_memAfter ..
    · exact State.vaultFault_memAfter ..
  · split
    · refine accessing_keepsMemory (fun ps s => ?_) s
      split
      · exact (State.monStand_memAfter ..).trans (congrArg some (State.monCheck_snd_hub_mem ..))
      · rfl
    · exact State.monStand_memAfter ..

/-- The memory that the walk of a flush leaves, whether it ends or stops at a page. -/
def flushMem : Except (State × Host.Outcome State Fault Refusal) State → Option (NMap Byte)
  | .error e => memAfter e.2
  | .ok t => some t.hub.mem

theorem State.flushLines_flushMem (f : LB) (n va k : Nat) (s : State) :
    flushMem (s.flushLines f n va k) = some s.hub.mem := by
  induction n generalizing va k s with
  | zero => rfl
  | succ n ih =>
    unfold State.flushLines
    split
    · exact ih ..
    · split
      · simp [flushMem]
      · simp [flushMem]
      · exact (ih ..).trans (by simp)

theorem execFlushRegion_keepsMemory (f : LB) : KeepsMemory (execFlushRegion f) := lsSlot_keepsMemory fun s => by
  split
  · split <;> rfl
  · extract_lets va n count k start
    have h := State.flushLines_flushMem f (count - k) start k s
    split
    next e => exact (congrArg flushMem e).symm.trans h
    next t e =>
      have ht : t.hub.mem = s.hub.mem := Option.some.inj ((congrArg flushMem e).symm.trans h)
      extract_lets
      split <;> exact congrArg some ht

/-! ### The transfer slot -/

theorem execXBcast_keepsMemory (f : XT) : KeepsMemory (execXBcast f) :=
  xfSlot_keepsMemory fun _ => State.writeV_memAfter ..

theorem execXFirst_keepsMemory (f : XT) : KeepsMemory (execXFirst f) :=
  xfSlot_keepsMemory fun _ => State.writeD_memAfter ..

theorem execXLane_keepsMemory (f : XT) : KeepsMemory (execXLane f) :=
  xfSlot_keepsMemory fun _ => State.writeD_memAfter ..

theorem execXAny_keepsMemory (f : XT) : KeepsMemory (execXAny f) := xfSlot_keepsMemory fun _ => rfl

theorem execXAll_keepsMemory (f : XT) : KeepsMemory (execXAll f) := xfSlot_keepsMemory fun _ => rfl

theorem execXNone_keepsMemory (f : XT) : KeepsMemory (execXNone f) := xfSlot_keepsMemory fun _ => rfl

theorem execXCnt_keepsMemory (f : XT) : KeepsMemory (execXCnt f) :=
  xfSlot_keepsMemory fun _ => State.writeD_memAfter ..

theorem execXPass_keepsMemory (f : XT) : KeepsMemory (execXPass f) := xfSlot_keepsMemory fun s => by
  extract_lets
  split
  · exact State.illegal_memAfter ..
  · split
    · rfl
    · split
      · rfl
      · split
        · rfl
        · split
          · exact State.illegal_memAfter ..
          · rfl

theorem execXRecv_keepsMemory (f : XT) : KeepsMemory (execXRecv f) := xfSlot_keepsMemory fun s => by
  extract_lets
  split
  · exact State.illegal_memAfter ..
  · split
    · exact State.writeV_memAfter ..
    · split
      · exact State.illegal_memAfter ..
      · split
        · exact State.illegal_memAfter ..
        · exact State.writeV_memAfter ..

/-! ### The matrix slot -/

theorem mmaCore_keepsMemory (quant : Bool) (g : Nat) (f : MF) : KeepsMemory (mmaCore quant g f) := fun s => by
  unfold mmaCore
  dsimp only
  cases Hart.operandA f s.me with
  | none => exact State.illegal_memAfter ..
  | some a =>
    dsimp only
    split
    · exact State.illegal_memAfter ..
    · exact inVaultRanges_keepsMemory (fun _ _ => rfl) s

theorem execMma_keepsMemory (f : MF) : KeepsMemory (execMma f) := mxSlot_keepsMemory (mmaCore_keepsMemory _ _ _)

theorem execMmaQ_keepsMemory (f : MF) : KeepsMemory (execMmaQ f) := mxSlot_keepsMemory fun s => by
  extract_lets
  split
  · exact State.illegal_memAfter ..
  · refine withTdt_keepsMemory (fun ta s => ?_) s
    split
    · exact State.descFault_memAfter ..
    · refine withTdt_keepsMemory (fun tb s => ?_) s
      split
      · exact State.descFault_memAfter ..
      · exact mmaCore_keepsMemory _ _ _ s

theorem execAccClr_keepsMemory (f : MF) : KeepsMemory (execAccClr f) := mxSlot_keepsMemory fun s => by
  extract_lets
  split
  · exact State.illegal_memAfter ..
  · rfl

theorem execAccLd_keepsMemory (f : MF) : KeepsMemory (execAccLd f) := mxSlot_keepsMemory fun s => by
  dsimp only
  split
  · exact State.illegal_memAfter ..
  · exact inVaultRanges_keepsMemory (fun _ _ => rfl) s

theorem execAccSt_keepsMemory (f : MF) : KeepsMemory (execAccSt f) := mxSlot_keepsMemory fun s => by
  dsimp only
  split
  · exact State.illegal_memAfter ..
  · refine inVaultRanges_keepsMemory (fun a s => ?_) s
    extract_lets
    refine congrArg some (Eq.trans (State.foldl_hub_mem fun _ _ => ?_) (State.mxIssue_hub_mem ..))
    rfl

theorem execAccCvt_keepsMemory (f : MF) : KeepsMemory (execAccCvt f) := mxSlot_keepsMemory fun s => by
  dsimp only
  split
  · exact State.illegal_memAfter ..
  · rfl

theorem execLatchRel_keepsMemory (f : MF) : KeepsMemory (execLatchRel f) := mxSlot_keepsMemory fun _ => rfl

theorem execOmSet_keepsMemory (f : MF) : KeepsMemory (execOmSet f) := mxSlot_keepsMemory fun s => by
  extract_lets
  split
  · rfl
  · split
    · exact State.illegal_memAfter ..
    · split
      · exact State.vaultFault_memAfter ..
      · split
        · exact State.vaultFault_memAfter ..
        · rfl

/-! ### The vector slot -/

theorem elementwise_keepsMemory (i : Instr) (f : VF) (fl : FVal → FVal → FVal → FVal) (it : Int → Int → Int → Int) :
    KeepsMemory (elementwise i f fl it) :=
  vaSlot_keepsMemory fun _ => State.writeElems_memAfter ..

theorem bitwise_keepsMemory (i : Instr) (f : VF) (op : BitVec 32 → BitVec 32 → BitVec 32) :
    KeepsMemory (bitwise i f op) :=
  vaSlot_keepsMemory fun _ => State.writeV_memAfter ..

theorem vectorCmp_keepsMemory (i : Instr) (f : VF) (fl : FVal → FVal → Bool) (it : Int → Int → Bool) :
    KeepsMemory (vectorCmp i f fl it) :=
  vaSlot_keepsMemory fun _ => rfl

theorem transcendental_keepsMemory (i : Instr) (f : VF) (g : FVal → FVal) : KeepsMemory (transcendental i f g) :=
  vaSlot_keepsMemory fun _ => State.writeElems_memAfter ..

theorem vectorMinMax_keepsMemory (i : Instr) (f : VF) (eF : FVal) (eI : Int) (fl : FVal → FVal → FVal)
    (it : Int → Int → Int) : KeepsMemory (vectorMinMax i f eF eI fl it) :=
  vaSlot_keepsMemory fun _ => writeRed_memAfter ..

theorem maskOp_keepsMemory (i : Instr) (f : VF) (op : Word → Word → Word) : KeepsMemory (maskOp i f op) :=
  vaSlot_keepsMemory fun _ => rfl

theorem execVsel_keepsMemory (f : VF) : KeepsMemory (execVsel f) :=
  vaSlot_keepsMemory fun _ => State.writeV_memAfter ..

theorem execVshl_keepsMemory (f : VF) : KeepsMemory (execVshl f) :=
  vaSlot_keepsMemory fun _ => State.writeElems_memAfter ..

theorem execVshr_keepsMemory (f : VF) : KeepsMemory (execVshr f) :=
  vaSlot_keepsMemory fun _ => State.writeElems_memAfter ..

theorem execVcvt_keepsMemory (f : VF) : KeepsMemory (execVcvt f) :=
  vaSlot_keepsMemory fun _ => State.writeElems_memAfter ..

theorem execVquant_keepsMemory (f : VF) : KeepsMemory (execVquant f) :=
  vaSlot_keepsMemory fun _ => State.writeElems_memAfter ..

theorem execVdequant_keepsMemory (f : VF) : KeepsMemory (execVdequant f) :=
  vaSlot_keepsMemory fun _ => State.writeElems_memAfter ..

theorem execVmovi_keepsMemory (f : VF) : KeepsMemory (execVmovi f) :=
  vaSlot_keepsMemory fun _ => State.writeElems_memAfter ..

theorem execVredAdd_keepsMemory (f : VF) : KeepsMemory (execVredAdd f) :=
  vaSlot_keepsMemory fun _ => writeRed_memAfter ..

theorem execVperm_keepsMemory (f : VF) : KeepsMemory (execVperm f) :=
  vaSlot_keepsMemory fun _ => State.writeElems_memAfter ..

theorem execVrot_keepsMemory (f : VF) : KeepsMemory (execVrot f) :=
  vaSlot_keepsMemory fun _ => State.writeV_memAfter ..

theorem execVrng_keepsMemory (f : VF) : KeepsMemory (execVrng f) := vaSlot_keepsMemory fun s => by
  extract_lets h m mo draws v ws t
  split
  · exact State.illegal_memAfter ..
  · have ht : t.hub.mem = s.hub.mem := by
      unfold t
      split <;> rfl
    exact (State.writeV_memAfter ..).trans (congrArg some ht)

theorem execAccept_keepsMemory (f : VF) : KeepsMemory (execAccept f) := vaSlot_keepsMemory fun s => by
  extract_lets
  split
  · exact State.illegal_memAfter ..
  · rfl

/-! ### The engine slot -/

theorem copyOp_keepsMemory (i : Instr) (dv sv : Bool) (f : EF) : KeepsMemory (copyOp i dv sv f) :=
  engSlot_keepsMemory fun s => by
    extract_lets
    split
    · exact State.illegal_memAfter ..
    · exact engChecks_keepsMemory (fun _ => by simp) s

theorem execCopyTile_keepsMemory (f : EF) : KeepsMemory (execCopyTile f) := engSlot_keepsMemory fun s => by
  have checks {st : Bool} {va : Nat} {k : Sem} (hk : KeepsMemory k) :
      KeepsMemory (if st then engChecks [] (ends va 4096) k else engChecks (ends va 4096) [] k) := by
    split <;> exact engChecks_keepsMemory hk
  extract_lets
  split
  · exact State.illegal_memAfter ..
  · split
    · simp
    · exact State.xlatFault_memAfter ..
    · exact checks (fun _ => State.descFault_memAfter ..) s
    · split
      · exact State.illegal_memAfter ..
      · refine checks (fun s => ?_) s
        extract_lets
        split
        next t e => exact congrArg some ((State.stall_hub_mem ..).trans (State.recallOf_hub_mem e))
        next => exact congrArg some ((State.acceptOp_hub_mem ..).trans (State.sawTdt_hub_mem ..))

theorem execCopyIdx_keepsMemory (f : EF) : KeepsMemory (execCopyIdx f) := engSlot_keepsMemory fun s => by
  extract_lets
  split
  · exact State.illegal_memAfter ..
  · split
    · exact State.misaligned_memAfter ..
    · exact engChecks_keepsMemory (fun _ => by simp) s

theorem execCopyCheck_keepsMemory (f : EF) : KeepsMemory (execCopyCheck f) := ecSlot_keepsMemory fun s => by
  extract_lets
  split <;> rfl

theorem semOp_keepsMemory (i : Instr) (op : Nat) (f : EF) :
    KeepsMemory (semOp i op f) := ecSlot_keepsMemory fun s => by
  extract_lets
  split
  · rfl
  · split
    · exact State.vaultFault_memAfter ..
    · split
      · rfl
      · split <;> rfl

theorem execSigWr_keepsMemory (f : EF) : KeepsMemory (execSigWr f) := ecSlot_keepsMemory fun s => by
  extract_lets
  split
  · split
    · exact State.misaligned_memAfter ..
    · exact State.vaultFault_memAfter ..
  · refine accessing_keepsMemory (fun ps s => ?_) s
    split
    · split
      · rfl
      · exact congrArg some ((State.ok_hub_mem _).trans (State.queueWrite_hub_mem ..))
    · rfl

theorem netOp_keepsMemory (i : Instr) (put : Bool) (f : EF) :
    KeepsMemory (netOp i put f) := engSlot_keepsMemory fun s => by
  extract_lets loc rem len q k
  have hk : KeepsMemory k := fun s => by
    unfold k
    extract_lets
    split
    · exact congrArg some (State.acceptOp_hub_mem ..)
    · exact congrArg some (State.acceptOp_hub_mem ..)
  split
  · exact State.illegal_memAfter ..
  · split
    · exact engChecks_keepsMemory hk s
    · exact engChecks_keepsMemory hk s

theorem execGrpRed_keepsMemory (f : EF) : KeepsMemory (execGrpRed f) := ecSlot_keepsMemory fun s => by
  extract_lets n
  split
  · exact State.illegal_memAfter ..
  next j _ =>
    have ha := State.arrive_snd_hub_mem false n j (some (s.me.regs.sReg f.a)) s
    split
    next u e =>
      have hu : u.hub.mem = s.hub.mem := (congrArg (·.2.hub.mem) e).symm.trans ha
      exact congrArg some ((State.stallOn_hub_mem ..).trans hu)
    next a u e =>
      have hu : u.hub.mem = s.hub.mem := (congrArg (·.2.hub.mem) e).symm.trans ha
      split
      · exact congrArg some ((State.stallOn_hub_mem ..).trans hu)
      · exact congrArg some hu

/-! ### The control slot -/

theorem branchTo_keepsMemory (g : Guard) (call : Bool) (target : State → VAddr) :
    KeepsMemory (branchTo g call target) := fun s => by
  unfold branchTo
  split
  dsimp only
  split
  · rfl
  · split <;> rfl

theorem execHold_keepsMemory (f : CI) : KeepsMemory (execHold f) := guarded_keepsMemory fun _ => rfl

theorem execWaitSem_keepsMemory (f : CS) : KeepsMemory (execWaitSem f) := treadCt_keepsMemory fun s => by
  split <;> rfl

theorem execSleepUntil_keepsMemory (f : CR) : KeepsMemory (execSleepUntil f) := ctSlot_keepsMemory fun s => by
  extract_lets
  split <;> rfl

theorem execLoop_keepsMemory (f : CL) : KeepsMemory (execLoop f) := fun s => by
  unfold execLoop
  split
  · exact State.illegal_memAfter ..
  · split
    · split
      · exact State.illegal_memAfter ..
      · rfl
    · extract_lets n len ii body
      clear_value n body
      split
      · simp
      · split
        · rfl
        · exact State.illegal_memAfter ..
      next body after _ =>
        extract_lets lines t
        split
        next t e =>
          obtain ⟨la, -, hla⟩ := List.exists_of_findSome?_eq_some e
          exact congrArg some ((State.modMe_hub_mem ..).trans (State.fetchRecall_hub_mem hla))
        next =>
          have h (l : List Nat) : (l.foldl (fun s la => s.fetchTime la) s).hub.mem = s.hub.mem :=
            State.foldl_hub_mem fun _ _ => State.fetchTime_hub_mem ..
          split
          · exact congrArg some (h _)
          · split
            · exact (State.illegal_memAfter ..).trans (congrArg some (h _))
            · exact congrArg some (h _)

theorem execDetach_keepsMemory (f : CB) : KeepsMemory (execDetach f) := fun s => by
  unfold execDetach
  extract_lets
  split
  · split
    · exact State.illegal_memAfter ..
    · rfl
  · split
    · split
      · exact State.illegal_memAfter ..
      · rfl
    · split <;> rfl

theorem execMeet_keepsMemory (f : CN) : KeepsMemory (execMeet f) := treadCt_keepsMemory fun s => by
  extract_lets
  split <;> rfl

theorem execRetire_keepsMemory (f : CN) : KeepsMemory (execRetire f) := guarded_keepsMemory fun s => by
  split
  · split
    · rfl
    · exact State.privileged_memAfter ..
  · rfl

theorem execTrap_keepsMemory (f : CI) : KeepsMemory (execTrap f) :=
  guarded_keepsMemory fun _ => congrArg some (State.trapS_hub_mem ..)

theorem execBkpt_keepsMemory (f : CI) : KeepsMemory (execBkpt f) := guarded_keepsMemory fun s => by
  split
  · rfl
  · exact congrArg some (State.takeTrap_hub_mem ..)

theorem execSys_keepsMemory (f : CI) : KeepsMemory (execSys f) :=
  guarded_keepsMemory fun _ => congrArg some (State.takeTrap_hub_mem ..)

theorem execEret_keepsMemory (f : CN) : KeepsMemory (execEret f) := guarded_keepsMemory fun s => by
  split
  · exact State.privileged_memAfter ..
  · split
    · exact State.illegal_memAfter ..
    · split <;> rfl

theorem execBarArrive_keepsMemory (f : CR) : KeepsMemory (execBarArrive f) := groupCt_keepsMemory fun j s => by
  have ha := State.arrive_snd_hub_mem true f.imm.toNat j none s
  split
  next u e =>
    have hu : u.hub.mem = s.hub.mem := (congrArg (·.2.hub.mem) e).symm.trans ha
    exact congrArg some ((State.stallOn_hub_mem ..).trans hu)
  next u e =>
    have hu : u.hub.mem = s.hub.mem := (congrArg (·.2.hub.mem) e).symm.trans ha
    exact congrArg some hu

theorem execBarWait_keepsMemory (f : CR) : KeepsMemory (execBarWait f) := groupCt_keepsMemory fun _ s => by
  extract_lets n p test done first g lost v t
  split
  · rfl
  · have ht : t.hub.mem = s.hub.mem := by
      unfold t
      split <;> rfl
    exact congrArg some ht

theorem execMouldOpen_keepsMemory (f : CR) : KeepsMemory (execMouldOpen f) := ctSlot_keepsMemory fun s => by
  extract_lets
  split
  · exact State.illegal_memAfter ..
  · rfl

theorem execMouldCancel_keepsMemory (f : CN) : KeepsMemory (execMouldCancel f) := ctSlot_keepsMemory fun s => by
  split
  · rfl
  · exact State.illegal_memAfter ..
  · split
    · exact State.illegal_memAfter ..
    · rfl

theorem execVbankAcq_keepsMemory (f : CR) : KeepsMemory (execVbankAcq f) := treadCt_keepsMemory fun s => by
  extract_lets
  split <;> rfl

theorem execVbankRel_keepsMemory (f : CR) : KeepsMemory (execVbankRel f) := treadCt_keepsMemory fun _ => rfl

theorem hubAsks_keepsMemory (i : Instr) (kind : Nat) (f : CR) : KeepsMemory (hubAsks i kind f) :=
  ctSlot_keepsMemory fun s => by
    extract_lets
    split
    · split
      · split <;> rfl
      · rfl
    · rfl

theorem execHypEnter_keepsMemory (f : CR) : KeepsMemory (execHypEnter f) := ctSlot_keepsMemory fun s => by
  extract_lets
  split
  · exact State.illegal_memAfter ..
  · rfl

theorem execHypLeave_keepsMemory (f : CN) : KeepsMemory (execHypLeave f) := ctSlot_keepsMemory fun s => by
  extract_lets
  split
  · exact State.illegal_memAfter ..
  · rfl

end Sys2Proof.Machine
end

section
/-! What the events that write no byte leave of memory. -/

namespace Sys2Proof.Machine

/-! ### Writes of registers -/

theorem execNdoorWrite_keepsMemory (part : Nat) (v : Word) : KeepsMemory (execNdoorWrite part v) := fun _ =>
  congrArg some (State.getD_hub_mem State.ndoor_hub_mem)

theorem execMdoorWrite_keepsMemory (v : Word) : KeepsMemory (execMdoorWrite v) := fun _ =>
  congrArg some (State.mdoor_hub_mem ..)

theorem execTcmpWrite_keepsMemory (core : Nat) (v : Word) : KeepsMemory (execTcmpWrite core v) := fun _ =>
  congrArg some (State.mapHart_hub_mem ..)

theorem execCalctlQuotaWrite_keepsMemory (part : Nat) (v : Word) :
    KeepsMemory (execCalctlQuotaWrite part v) := fun _ =>
  congrArg some (State.quotaWrite_hub_mem ..)

theorem execCalctlFlush_keepsMemory (part : Nat) : KeepsMemory (execCalctlFlush part) := fun _ =>
  congrArg some (State.calFlush_hub_mem ..)

theorem execCalstClear_keepsMemory (part : Nat) : KeepsMemory (execCalstClear part) := fun _ =>
  congrArg some (State.calClear_hub_mem ..)

theorem execPquotaWrite_keepsMemory (part : Nat) (v : Word) : KeepsMemory (execPquotaWrite part v) := fun _ =>
  congrArg some (State.pquota_hub_mem ..)

theorem execMextWrite_keepsMemory (v : Word) : KeepsMemory (execMextWrite v) := fun _ =>
  congrArg some (State.mext_hub_mem ..)

theorem execDirqWrite_keepsMemory (v : Word) : KeepsMemory (execDirqWrite v) := fun _ =>
  congrArg some (State.dirq_hub_mem ..)

theorem execPknumWrite_keepsMemory (v : Word) : KeepsMemory (execPknumWrite v) := fun _ =>
  congrArg some (State.pknum_hub_mem ..)

theorem execCtxresWrite_keepsMemory (v : Word) : KeepsMemory (execCtxresWrite v) := fun _ =>
  congrArg some (State.ctxres_hub_mem ..)

theorem execCounterClearWrite_keepsMemory (r : CounterReg) (v : Word) : KeepsMemory (execCounterClearWrite r v) :=
  fun _ => congrArg some (State.counterClear_hub_mem ..)

theorem execIslReqWrite_keepsMemory (isl : Nat) (v : Word) : KeepsMemory (execIslReqWrite isl v) := fun _ =>
  congrArg some (State.islReq_hub_mem ..)

theorem execPwrctlWrite_keepsMemory (v : Word) : KeepsMemory (execPwrctlWrite v) := fun _ =>
  congrArg some (State.pwrctl_hub_mem ..)

theorem execTelselWrite_keepsMemory (v : Word) : KeepsMemory (execTelselWrite v) := fun _ =>
  congrArg some (State.telsel_hub_mem ..)

theorem execRegisterWrite_keepsMemory (reg : PlainReg) (v : Word) : KeepsMemory (execRegisterWrite reg v) := fun s =>
  match reg with
  | .monitor off => congrArg some (State.plainMon_hub_mem off v s)
  | .part p off => congrArg some (State.plainPart_hub_mem p off v s)

/-! ### Peers, hosts and results from outside -/

theorem execLockedSequenceTimeout_keepsMemory (peer line : Nat) : KeepsMemory (execLockedSequenceTimeout peer line) :=
  fun s => by
    unfold execLockedSequenceTimeout
    extract_lets late
    split
    · rfl
    next l _ =>
      extract_lets hb
      have hhb : hb.mem = s.hub.mem := by
        unfold hb
        split
        · exact Hub.setPeer_mem ..
        · rfl
      exact congrArg some hhb

theorem execHostSnoop_keepsMemory (line : Nat) (inv : Bool) : KeepsMemory (execHostSnoop line inv) := fun s => by
  unfold execHostSnoop
  extract_lets
  split
  · rfl
  · exact congrArg some (State.endSequences_hub_mem line s)

/-- An event at a hart keeps memory, where what the hart does keeps it. -/
theorem onHart_keepsMemory {h : HartId} {f : State → State} (hf : ∀ s, (f s).hub.mem = s.hub.mem) :
    KeepsMemory (fun s => .next (s.onHart h f)) := fun _ => congrArg some (State.onHart_hub_mem hf)

theorem execLeaseFill_keepsMemory (h : HartId) (line : Nat) : KeepsMemory (execLeaseFill h line) :=
  onHart_keepsMemory fun s => by
    split
    · split
      · exact (State.answerAsk_hub_mem ..).trans (State.maybeEvict_hub_mem ..)
      · rfl
    · rfl

theorem execFenceTimeout_keepsMemory (h : HartId) : KeepsMemory (execFenceTimeout h) :=
  onHart_keepsMemory fun s => by
    split
    · split <;> rfl
    · rfl

theorem execHypothesisFull_keepsMemory (h : HartId) : KeepsMemory (execHypothesisFull h) :=
  onHart_keepsMemory fun s => by
    split
    · split
      · exact State.takeTrap_hub_mem ..
      · rfl
    · rfl

theorem execEngineVersionTimeout_keepsMemory (h : HartId) (op : Nat) : KeepsMemory (execEngineVersionTimeout h op) :=
  onHart_keepsMemory fun s => by
    split
    · split
      · exact State.engFailTurn_hub_mem ..
      · rfl
    · rfl

theorem execNetComplete_keepsMemory (h : HartId) (op : Nat) (ok : Bool) (data : List Byte) :
    KeepsMemory (execNetComplete h op ok data) :=
  onHart_keepsMemory fun s => by
    split
    · split
      · rfl
      · split
        · split
          · exact State.engFail_hub_mem ..
          · split
            · exact (State.engFinish_hub_mem ..).trans (State.modConn_hub_mem ..)
            · rfl
        · split
          · exact State.engFail_hub_mem ..
          · split
            · rfl
            · exact State.modConn_hub_mem ..
        · rfl
    · rfl

theorem execMissedPromiseLatch_keepsMemory (h : HartId) : KeepsMemory (execMissedPromiseLatch h) :=
  onHart_keepsMemory fun s => by split <;> rfl

theorem execSemGgLands_keepsMemory (h : HartId) : KeepsMemory (execSemGgLands h) :=
  onHart_keepsMemory fun _ => State.foldl_hub_mem fun _ _ => State.landOut_hub_mem ..

theorem execReadyReturn_keepsMemory (link : Nat) : KeepsMemory (execReadyReturn link) := fun _ =>
  congrArg some (State.setLink_hub_mem ..)

theorem execLinkUp_keepsMemory (link far : Nat) : KeepsMemory (execLinkUp link far) := fun _ =>
  congrArg some (State.setLink_hub_mem ..)

/-! ### Base dies -/

theorem execLineRead_keepsMemory (pa : Nat) : KeepsMemory (execLineRead pa) := fun s => by
  unfold execLineRead
  extract_lets
  split
  · exact congrArg some (State.tell_hub_mem ..)
  · exact congrArg some ((State.tell_hub_mem ..).trans (Hub.readLine_mem ..))

theorem execTileRead_keepsMemory (part : Nat) (tid coords : Word) : KeepsMemory (execTileRead part tid coords) :=
  fun s => by
    unfold execTileRead
    split
    · exact congrArg some (State.tell_hub_mem ..)
    · exact congrArg some (State.tell_hub_mem ..)

theorem execRegionClean_keepsMemory (base len : Nat) : KeepsMemory (execRegionClean base len) := fun _ =>
  congrArg some (State.mapStacks_hub_mem ..)

theorem execRegionInvalidate_keepsMemory (base len : Nat) : KeepsMemory (execRegionInvalidate base len) := fun _ =>
  congrArg some (State.mapStacks_hub_mem ..)

theorem execConfigurationRead_keepsMemory (stack : Nat) (reg : DieReg) :
    KeepsMemory (execConfigurationRead stack reg) :=
  fun _ => congrArg some (State.tell_hub_mem ..)

theorem execConfigurationWrite_keepsMemory (stack : Nat) (reg : DieReg) (v : Word) :
    KeepsMemory (execConfigurationWrite stack reg v) := fun s => by
  unfold execConfigurationWrite
  split
  · exact congrArg some (State.tell_hub_mem ..)
  · exact congrArg some (State.setStack_hub_mem ..)

theorem execHashVersionAdopt_keepsMemory (stack : Nat) : KeepsMemory (execHashVersionAdopt stack) := fun _ =>
  congrArg some (State.setStack_hub_mem ..)

theorem execBeaterMove_keepsMemory (stack : Nat) : KeepsMemory (execBeaterMove stack) := fun _ =>
  congrArg some (State.setStack_hub_mem ..)

theorem execUncorrectableError_keepsMemory (site : ErrSite) : KeepsMemory (execUncorrectableError site) := fun s => by
  unfold execUncorrectableError
  split
  · exact congrArg some (State.countCorrected_hub_mem ..)
  · exact congrArg some ((State.logErr_hub_mem ..).trans (State.poisonLine_hub_mem ..))
  · exact congrArg some ((State.logErr_hub_mem ..).trans (State.damageLine_hub_mem ..))
  · exact congrArg some ((State.logErr_hub_mem ..).trans (State.damageLine_hub_mem ..))
  next h pa =>
    extract_lets line dirty t
    have ht : t.hub.mem = s.hub.mem := State.mapHart_hub_mem ..
    refine congrArg some (Eq.trans ?_ ht)
    split
    · exact (State.logErr_hub_mem ..).trans (State.poisonLine_hub_mem ..)
    · rfl
  · exact congrArg some (State.stateError_hub_mem ..)

/-! ### Stalls, walks and watches -/

theorem execFreeze_keepsMemory (h : HartId) : KeepsMemory (execFreeze h) :=
  onHart_keepsMemory fun s => by split <;> rfl

theorem execFreezeEnd_keepsMemory (h : HartId) : KeepsMemory (execFreezeEnd h) :=
  onHart_keepsMemory fun s => by split <;> rfl

theorem execTranslationWalk_keepsMemory (h : HartId) (va : Nat) (acc : Acc) :
    KeepsMemory (execTranslationWalk h va acc) :=
  onHart_keepsMemory fun s => by
    split
    · split
      · extract_lets r t
        clear_value r
        split <;> rfl
      · rfl
    · rfl

theorem execTlbinvComplete_keepsMemory (id : Nat) : KeepsMemory (execTlbinvComplete id) := fun s => by
  unfold execTlbinvComplete
  split
  · rfl
  · extract_lets upd
    split
    · rfl
    · split
      · exact congrArg some (State.mapAll_hub_mem ..)
      · extract_lets done
        split
        · exact congrArg some (State.mapId_hub_mem ..)
        · rfl

theorem execMonWaitRecheck_keepsMemory (h : HartId) : KeepsMemory (execMonWaitRecheck h) := fun s => by
  unfold execMonWaitRecheck
  split
  · split
    · split
      · exact congrArg some ((State.mapId_hub_mem ..).trans (State.monCheck_snd_hub_mem ..))
      · rfl
    · rfl
  · rfl

theorem execWatchTrigger_keepsMemory (h : HartId) : KeepsMemory (execWatchTrigger h) := fun s => by
  unfold execWatchTrigger
  split
  · rfl
  · exact congrArg some (State.mapId_hub_mem ..)

/-! ### Traps and events between bundles -/

theorem execTreadStateError_keepsMemory (h : HartId) (cls num : Nat) : KeepsMemory (execTreadStateError h cls num) :=
  onHart_keepsMemory fun _ => State.boundaryTrap_hub_mem ..

theorem execMemoryError_keepsMemory (h : HartId) : KeepsMemory (execMemoryError h) :=
  onHart_keepsMemory fun s => by
    split
    · exact State.boundaryTrap_hub_mem ..
    · rfl

theorem execEngineTranslationFault_keepsMemory (h : HartId) (op : Nat) :
    KeepsMemory (execEngineTranslationFault h op) :=
  onHart_keepsMemory fun s => by
    split
    · split
      · exact (State.modMe_hub_mem ..).trans (State.boundaryTrap_hub_mem ..)
      · rfl
    · rfl

theorem execMissedPromise_keepsMemory (h : HartId) : KeepsMemory (execMissedPromise h) :=
  onHart_keepsMemory fun s => by
    split
    · exact State.boundaryTrap_hub_mem ..
    · rfl

theorem execHypothesisLost_keepsMemory (h : HartId) : KeepsMemory (execHypothesisLost h) :=
  onHart_keepsMemory fun s => by
    split
    · split
      · rfl
      · split <;> rfl
    · rfl

theorem execDebugStep_keepsMemory (h : HartId) : KeepsMemory (execDebugStep h) :=
  onHart_keepsMemory fun s => by
    split
    · exact State.boundaryTrap_hub_mem ..
    · rfl

theorem execCoreEvent_keepsMemory (core : Nat) : KeepsMemory (execCoreEvent core) :=
  onHart_keepsMemory fun s => by
    split
    · exact State.boundaryTrap_hub_mem ..
    · rfl

theorem execTimerExpiry_keepsMemory (core : Nat) : KeepsMemory (execTimerExpiry core) := fun _ =>
  congrArg some (State.mapHart_hub_mem ..)

/-! ### Times, units and flights -/

theorem execBaseTimeRise_keepsMemory : KeepsMemory execBaseTimeRise := fun s => by
  refine congrArg some ?_
  split <;> rfl

theorem execLogicalTimePause_keepsMemory : KeepsMemory execLogicalTimePause := fun s => by
  unfold execLogicalTimePause
  split
  · rfl
  · exact congrArg some (State.mapAll_hub_mem ..)

theorem execMxOccupancyEnd_keepsMemory (h : HartId) : KeepsMemory (execMxOccupancyEnd h) :=
  onHart_keepsMemory fun s => by
    split
    · split
      · rfl
      · extract_lets t
        have ht : t.hub.mem = s.hub.mem := by
          unfold t
          split <;> rfl
        exact ht
    · rfl

theorem execGroupArrival_keepsMemory (h : HartId) (group : Nat) : KeepsMemory (execGroupArrival h group) :=
  onHart_keepsMemory fun s => by
    split
    · split
      · exact State.setLaunch_hub_mem ..
      · rfl
    · rfl

theorem execFlightResumeAtMeet_keepsMemory (launch wgi : Nat) : KeepsMemory (execFlightResumeAtMeet launch wgi) :=
  fun s => by
    unfold execFlightResumeAtMeet
    extract_lets
    split <;> rfl

/-! ### Gangs -/

theorem execGangPark_keepsMemory (launch gang : Nat) : KeepsMemory (execGangPark launch gang) := fun s => by
  unfold execGangPark
  split
  · split
    · exact congrArg some (State.startSave_hub_mem ..)
    · rfl
  · rfl

theorem execParkedGangWake_keepsMemory (launch gang : Nat) :
    KeepsMemory (execParkedGangWake launch gang) := fun s => by
  unfold execParkedGangWake
  split
  · split
    · exact congrArg some (State.setGang_hub_mem ..)
    · rfl
  · rfl

theorem execGangPreempt_keepsMemory (launch gang : Nat) : KeepsMemory (execGangPreempt launch gang) := fun s => by
  unfold execGangPreempt
  split
  · rfl
  · split
    · refine congrArg some ?_
      split
      · exact State.yieldTo_hub_mem ..
      · rfl
    · rfl

theorem execSliceTimerTick_keepsMemory : KeepsMemory execSliceTimerTick := fun s =>
  congrArg some (State.foldl_hub_mem fun s p => by
    split
    · exact State.yieldTo_hub_mem ..
    · rfl)

theorem execAgingTick_keepsMemory (launch gang : Nat) : KeepsMemory (execAgingTick launch gang) := fun _ =>
  congrArg some (State.setLaunch_hub_mem ..)

theorem execContextSave_keepsMemory (launch gang : Nat) : KeepsMemory (execContextSave launch gang) := fun s => by
  unfold execContextSave
  split
  · split
    · extract_lets
      split
      · rfl
      · split
        · rfl
        · split
          · exact congrArg some (State.saveGang_hub_mem ..)
          · split
            · rfl
            · exact congrArg some (State.abandonSave_hub_mem ..)
    · rfl
  · rfl

theorem execContextSpill_keepsMemory (launch gang : Nat) : KeepsMemory (execContextSpill launch gang) := fun s => by
  unfold execContextSpill
  split
  · split
    · exact congrArg some (State.setGang_hub_mem ..)
    · rfl
  · rfl

/-! ### Commands of a partition -/

theorem preqStop_keepsMemory (part : Nat) (hold : Bool) : KeepsMemory (preqStop part hold) := fun s => by
  unfold preqStop
  split
  · exact congrArg some (State.endPreq_hub_mem ..)
  · split
    · exact congrArg some (State.endPreq_hub_mem ..)
    · split
      · exact congrArg some (State.startSave_hub_mem ..)
      · rfl
      · refine congrArg some ((State.endPreq_hub_mem ..).trans ?_)
        split
        · exact State.holdGang_hub_mem ..
        · rfl

theorem execPreqPreempt_keepsMemory (part : Nat) : KeepsMemory (execPreqPreempt part) := fun s => by
  unfold execPreqPreempt
  split
  · exact congrArg some (State.endPreq_hub_mem ..)
  · split
    · exact preqStop_keepsMemory part false s
    · rfl

theorem execPreqPreemptHold_keepsMemory (part : Nat) : KeepsMemory (execPreqPreemptHold part) := fun s => by
  unfold execPreqPreemptHold
  split
  · exact preqStop_keepsMemory part true s
  · rfl

theorem execPreqRelease_keepsMemory (part : Nat) : KeepsMemory (execPreqRelease part) := fun s => by
  unfold execPreqRelease
  split
  · rfl
  · split
    · exact congrArg some (State.endPreq_hub_mem ..)
    · extract_lets
      split
      · exact congrArg some ((State.endPreq_hub_mem ..).trans (State.holdGang_hub_mem ..))
      · exact congrArg some (State.endPreq_hub_mem ..)

theorem execNcrqMakeNoncoherent_keepsMemory (part : Nat) : KeepsMemory (execNcrqMakeNoncoherent part) := fun s => by
  unfold execNcrqMakeNoncoherent
  split
  · rfl
  · extract_lets
    split
    · exact congrArg some (State.endNcrq_hub_mem ..)
    · exact congrArg some ((State.endNcrq_hub_mem ..).trans (State.dropRegion_hub_mem ..))

theorem execNcrqMakeCoherent_keepsMemory (part : Nat) : KeepsMemory (execNcrqMakeCoherent part) := fun s => by
  unfold execNcrqMakeCoherent
  split
  · rfl
  · extract_lets
    split
    · exact congrArg some (State.endNcrq_hub_mem ..)
    · exact congrArg some ((State.endNcrq_hub_mem ..).trans (State.dropRegion_hub_mem ..))

/-! ### Commands of the monitor -/

theorem onChiplet_keepsMemory {cmd chip : Nat} {k : Sem} (hk : KeepsMemory k) : KeepsMemory (onChiplet cmd chip k) :=
  fun s => by
    unfold onChiplet
    split
    · rfl
    · split
      · exact congrArg some (State.endChctl_hub_mem ..)
      · exact hk s

theorem execChctlAssign_keepsMemory (chip part : Nat) : KeepsMemory (execChctlAssign chip part) :=
  onChiplet_keepsMemory fun s => by
    extract_lets
    split
    · rfl
    · split
      · exact congrArg some (State.endChctl_hub_mem ..)
      · split
        · exact congrArg some (State.endChctl_hub_mem ..)
        · exact congrArg some ((State.endChctl_hub_mem ..).trans
            ((State.setPchip_hub_mem ..).trans (State.setChst_hub_mem ..)))

theorem execChctlUnassign_keepsMemory (chip : Nat) : KeepsMemory (execChctlUnassign chip) := fun s => by
  unfold execChctlUnassign
  split
  · exact congrArg some (State.endChctl_hub_mem ..)
  · refine onChiplet_keepsMemory (fun s => ?_) s
    split
    · exact congrArg some (State.endChctl_hub_mem ..)
    · exact congrArg some ((State.endChctl_hub_mem ..).trans ((State.setChst_hub_mem ..).trans
        ((State.setPchip_hub_mem ..).trans (State.vacate_hub_mem ..))))

theorem execChctlEnumerate_keepsMemory (chip : Nat) : KeepsMemory (execChctlEnumerate chip) :=
  onChiplet_keepsMemory fun s => by
    split
    · exact congrArg some (State.endChctl_hub_mem ..)
    · split
      · exact congrArg some ((State.endChctl_hub_mem ..).trans (State.setChst_hub_mem ..))
      · exact congrArg some ((State.endChctl_hub_mem ..).trans (State.setChst_hub_mem ..))

theorem execChctlIsolate_keepsMemory (chip : Nat) : KeepsMemory (execChctlIsolate chip) :=
  onChiplet_keepsMemory fun s => by
    split
    · extract_lets st p t i u
      have ht : t.hub.mem = s.hub.mem := by
        unfold t
        split
        · exact State.setPchip_hub_mem ..
        · rfl
      split
      · exact congrArg some (State.endChctl_hub_mem ..)
      · exact congrArg some ((State.setChst_hub_mem ..).trans ((State.vacate_hub_mem ..).trans ht))
    · split
      · exact congrArg some (State.vacate_hub_mem ..)
      · split
        · exact congrArg some ((State.setIsolation_hub_mem ..).trans (State.backsAt_hub_mem ..))
        · split
          · rfl
          · exact congrArg some ((State.endChctl_hub_mem ..).trans (State.setChst_hub_mem ..))

theorem execIsolationSaveTimeout_keepsMemory (chip : Nat) : KeepsMemory (execIsolationSaveTimeout chip) := fun s => by
  unfold execIsolationSaveTimeout
  split
  · rfl
  · refine congrArg some (State.foldl_hub_mem fun s e => ?_)
    split
    · exact (State.preqDone_hub_mem ..).trans (State.killGang_hub_mem ..)
    · rfl

theorem execIsolationDrainTimeout_keepsMemory (chip : Nat) :
    KeepsMemory (execIsolationDrainTimeout chip) := fun s => by
  unfold execIsolationDrainTimeout
  split
  · rfl
  · split
    · rfl
    · split
      · rfl
      · exact congrArg some ((State.settleBanks_hub_mem ..).trans (Hub.restartInvs_mem ..))

theorem onPort_keepsMemory {cmd port : Nat} {k : Sem} (hk : KeepsMemory k) : KeepsMemory (onPort cmd port k) :=
  fun s => by
    unfold onPort
    extract_lets
    split
    · rfl
    · split
      · exact congrArg some (State.endChctl_hub_mem ..)
      · split
        · exact congrArg some (State.endChctl_hub_mem ..)
        · exact hk s

theorem execChctlAssignPort_keepsMemory (port part : Nat) : KeepsMemory (execChctlAssignPort port part) :=
  onPort_keepsMemory fun s => by
    extract_lets
    split
    · rfl
    · split
      · exact congrArg some (State.endChctl_hub_mem ..)
      · split
        · exact congrArg some ((State.endChctl_hub_mem ..).trans (State.setPchip_hub_mem ..))
        · exact congrArg some (State.endChctl_hub_mem ..)

theorem execChctlUnassignPort_keepsMemory (port : Nat) : KeepsMemory (execChctlUnassignPort port) :=
  onPort_keepsMemory fun s => by
    split
    · exact congrArg some (State.endChctl_hub_mem ..)
    next p _ => exact congrArg some ((State.endChctl_hub_mem ..).trans (State.setPchip_hub_mem p (12 + port) false s))

theorem execNcoreStart_keepsMemory (core : Nat) : KeepsMemory (execNcoreStart core) := fun s => by
  unfold execNcoreStart
  split
  · rfl
  · extract_lets halted writes new t
    have ht : t.hub.mem = s.hub.mem := by
      unfold t
      split
      · exact State.mapHart_hub_mem ..
      · rfl
    split
    · exact congrArg some (State.endNcore_hub_mem ..)
    · split
      · rfl
      · exact congrArg some ((State.endNcore_hub_mem ..).trans ht)

theorem execNcoreHalt_keepsMemory (core : Nat) : KeepsMemory (execNcoreHalt core) := fun s => by
  unfold execNcoreHalt
  split
  · rfl
  · split
    · split
      · exact congrArg some (State.endNcore_hub_mem ..)
      · exact congrArg some ((State.endNcore_hub_mem ..).trans (State.haltCore_hub_mem ..))
    · exact congrArg some (State.endNcore_hub_mem ..)

/-! ### Power and management -/

theorem execIslandLevelChange_keepsMemory (isl : Nat) : KeepsMemory (execIslandLevelChange isl) := fun s => by
  unfold execIslandLevelChange
  split
  · rfl
  · extract_lets
    split
    · split
      · rfl
      · exact congrArg some (State.setIsland_hub_mem ..)
    · split
      · rfl
      · exact congrArg some ((State.setIsland_hub_mem ..).trans (State.fresh_snd_hub_mem ..))

theorem execPowerControlSample_keepsMemory (r : PowerReading) : KeepsMemory (execPowerControlSample r) := fun s => by
  unfold execPowerControlSample
  extract_lets h p hb lim low _ n hc
  have hlow : low.mem = s.hub.mem := Hub.lowerCaps_mem hb
  have hhc : hc.mem = s.hub.mem := rfl
  clear_value low hc
  split
  · rfl
  · split
    · rfl
    · split
      · exact congrArg some (Hub.trip_mem hb)
      · split
        · exact congrArg some hlow
        · split
          · refine congrArg some (Eq.trans ?_ hhc)
            dsimp only
            split
            · exact Hub.raiseCaps_mem hc
            · rfl
          · rfl

theorem execThermalTrip_keepsMemory : KeepsMemory execThermalTrip := fun _ => congrArg some (Hub.trip_mem ..)

theorem execMainInputOff_keepsMemory : KeepsMemory execMainInputOff := fun _ => rfl

theorem onSpdm_keepsMemory {port : Nat} {ok : Spdm → Bool} {k : Spdm → Sem} (hk : ∀ x, KeepsMemory (k x)) :
    KeepsMemory (onSpdm port ok k) := fun s => by
  unfold onSpdm
  split
  · exact congrArg some (State.tell_hub_mem ..)
  · extract_lets x
    split
    · exact hk x s
    · exact congrArg some (State.tell_hub_mem ..)

theorem spdmData_keepsMemory (x : Spdm) (bs : List Byte) : KeepsMemory (spdmData x bs) := fun _ =>
  congrArg some (State.spdmSet_hub_mem ..)

theorem spdmSigned_keepsMemory (x : Spdm) (bs : List Byte) : KeepsMemory (spdmSigned x bs) := fun _ =>
  congrArg some (State.spdmSet_hub_mem ..)

theorem execGetVersion_keepsMemory (port : Nat) : KeepsMemory (execGetVersion port) :=
  onSpdm_keepsMemory fun _ => spdmData_keepsMemory _ _

theorem execGetCapabilities_keepsMemory (port : Nat) : KeepsMemory (execGetCapabilities port) :=
  onSpdm_keepsMemory fun _ => spdmData_keepsMemory _ _

theorem execNegotiateAlgorithms_keepsMemory (port : Nat) (req : SpdmAlgs) :
    KeepsMemory (execNegotiateAlgorithms port req) :=
  onSpdm_keepsMemory fun _ => spdmData_keepsMemory _ _

theorem execGetDigests_keepsMemory (port : Nat) : KeepsMemory (execGetDigests port) :=
  onSpdm_keepsMemory fun _ s => spdmData_keepsMemory _ _ s

theorem execGetCertificate_keepsMemory (port off len : Nat) : KeepsMemory (execGetCertificate port off len) :=
  onSpdm_keepsMemory fun _ s => spdmData_keepsMemory _ _ s

theorem execChallenge_keepsMemory (port : Nat) (nonce : List Byte) : KeepsMemory (execChallenge port nonce) :=
  onSpdm_keepsMemory fun _ s => spdmSigned_keepsMemory _ _ s

theorem execGetMeasurements_keepsMemory (port idx : Nat) (nonce : List Byte) :
    KeepsMemory (execGetMeasurements port idx nonce) :=
  onSpdm_keepsMemory fun x s => by
    split
    · exact spdmSigned_keepsMemory _ _ s
    · split
      · exact spdmSigned_keepsMemory _ _ s
      · split
        · exact spdmSigned_keepsMemory _ _ s
        · exact congrArg some (State.tell_hub_mem ..)

theorem execReadTelemetryMessage_keepsMemory (kind idx : Nat) : KeepsMemory (execReadTelemetryMessage kind idx) :=
  fun _ => congrArg some (State.tell_hub_mem ..)

theorem execReadBstatMessage_keepsMemory : KeepsMemory execReadBstatMessage := fun _ =>
  congrArg some (State.tell_hub_mem ..)

theorem execSetPwrctlOobMessage_keepsMemory (watts : Nat) : KeepsMemory (execSetPwrctlOobMessage watts) := fun _ =>
  congrArg some ((State.tell_hub_mem ..).trans (State.setMon_hub_mem ..))

/-! ### The calender -/

theorem quireEvict_mem (part n : Nat) : ∀ (fuel : Nat) {hb hc : Hub} {a : Nat},
    quireEvict part n fuel hb = some (a, hc) → hc.mem = hb.mem
  | 0, hb, hc, a, e => by
    obtain ⟨b, -, e⟩ := Option.map_eq_some_iff.mp e
    exact congrArg (·.2.mem) e.symm
  | fuel + 1, hb, hc, a, e => by
    unfold quireEvict at e
    split at e
    · exact congrArg (·.2.mem) (Option.some.inj e).symm
    · dsimp only at e
      split at e
      · cases e
      · exact (quireEvict_mem part n fuel e).trans rfl

theorem Hub.quireRoom_mem {part n a : Nat} {hb hc : Hub} (e : hb.quireRoom part n = some (a, hc)) : hc.mem = hb.mem :=
  quireEvict_mem part n _ e

end Sys2Proof.Machine
end

section
/-! The canonical form of memory, what writes memory, and the operations that do so: lines, stores and atomics. -/

namespace Sys2Proof.Machine

/-! ### The canonical form as a property of states, hubs, outcomes and meanings -/

/-- The canonical form, said of the hub that holds memory. -/
def Hub.Canonical (hb : Hub) : Prop := Memory.wf hb.mem = true

theorem Hub.Canonical.of_mem {hb hc : Hub} (h : hb.Canonical) (e : hc.mem = hb.mem) : hc.Canonical :=
  (congrArg Memory.wf e).trans h

/-- A state whose memory is that of a canonical state is canonical. -/
theorem MemoryCanonical.of_mem {s t : State} (h : MemoryCanonical s) (e : t.hub.mem = s.hub.mem) :
    MemoryCanonical t :=
  (congrArg Memory.wf e).trans h

/-- An outcome whose next state, where it is one, has canonical memory. -/
def OutcomeCanonical : Host.Outcome State Fault Refusal → Prop
  | .next t => MemoryCanonical t
  | _ => True

theorem OutcomeCanonical.ite {c : Prop} [Decidable c] {a b : Host.Outcome State Fault Refusal}
    (ha : OutcomeCanonical a) (hb : OutcomeCanonical b) : OutcomeCanonical (if c then a else b) := by
  split
  · exact ha
  · exact hb

/-- A meaning that keeps the canonical form of memory. -/
def KeepsCanonical (k : Sem) : Prop := ∀ s, MemoryCanonical s → OutcomeCanonical (k s)

/-- An outcome that leaves memory as it was leaves it canonical. -/
theorem MemoryCanonical.of_memAfter {s : State} {o : Host.Outcome State Fault Refusal} (h : MemoryCanonical s)
    (e : memAfter o = some s.hub.mem) : OutcomeCanonical o := by
  cases o with
  | next t => exact h.of_mem (Option.some.inj e)
  | fault _ => trivial
  | refused _ => trivial

theorem KeepsMemory.keepsCanonical {k : Sem} (hk : KeepsMemory k) :
    KeepsCanonical k := fun s h => h.of_memAfter (hk s)

theorem State.foldl_canonical {β : Type} {f : State → β → State} {l : List β} {s : State}
    (hf : ∀ s b, MemoryCanonical s → MemoryCanonical (f s b)) (h : MemoryCanonical s) :
    MemoryCanonical (l.foldl f s) :=
  List.foldlRecOn l f h fun s hs b _ => hf s b hs

theorem Hub.foldl_canonical {β : Type} {f : Hub → β → Hub} {l : List β} {hb : Hub}
    (hf : ∀ hb b, hb.Canonical → (f hb b).Canonical) (h : hb.Canonical) : (l.foldl f hb).Canonical :=
  List.foldlRecOn l f h fun hb hs b _ => hf hb b hs

theorem State.onHart_canonical {id : HartId} {f : State → State} {s : State}
    (hf : ∀ s, MemoryCanonical s → MemoryCanonical (f s)) (h : MemoryCanonical s) :
    MemoryCanonical (s.onHart id f) := by
  unfold State.onHart
  split
  next t e => exact hf t (h.of_mem (State.focus_hub_mem e))
  next => exact h

theorem State.each_canonical {l : List HartId} {f : State → State} {s : State}
    (hf : ∀ s, MemoryCanonical s → MemoryCanonical (f s)) (h : MemoryCanonical s) : MemoryCanonical (s.each l f) :=
  State.foldl_canonical (fun _ _ => State.onHart_canonical hf) h

/-- A change that may not be made keeps the form, where it keeps it when it is made. -/
theorem State.getD_canonical {o : Option State} {s : State} (ho : ∀ {t}, o = some t → MemoryCanonical t)
    (h : MemoryCanonical s) : MemoryCanonical (o.getD s) := by
  cases o with
  | none => exact h
  | some t => exact ho rfl

/-- An event at a hart keeps the form, where what the hart does keeps it. -/
theorem onHart_keepsCanonical {id : HartId} {f : State → State}
    (hf : ∀ s, MemoryCanonical s → MemoryCanonical (f s)) :
    KeepsCanonical (fun s => .next (s.onHart id f)) := fun _ => State.onHart_canonical hf

/-! ### What is written to memory -/

theorem Hub.putVault_mem (pa : Nat) (bs : List Byte) (hb : Hub) : (hb.putVault pa bs).mem = putBytes pa bs hb.mem :=
  Hub.foldl_mem fun _ _ => Hub.setLine_mem ..

theorem Hub.putVault_canonical {pa : Nat} {bs : List Byte} {hb : Hub} (h : hb.Canonical) :
    (hb.putVault pa bs).Canonical :=
  (congrArg Memory.wf (Hub.putVault_mem pa bs hb)).trans (Memory.wf_putBytes h)

theorem Hub.putCells_mem (cells : List (Nat × Byte)) (hb : Hub) :
    (hb.putCells cells).mem = NMap.putAll 0#8 cells hb.mem :=
  Hub.foldl_mem fun _ _ => Hub.setLine_mem ..

theorem Hub.putCells_canonical {cells : List (Nat × Byte)} {hb : Hub} (h : hb.Canonical) :
    (hb.putCells cells).Canonical :=
  (congrArg Memory.wf (Hub.putCells_mem cells hb)).trans (NMap.wf_putAll h)

theorem Hub.takeBack_canonical {line : Nat} {hb : Hub} (h : hb.Canonical) : (hb.takeBack line).Canonical := by
  unfold Hub.takeBack
  split
  next p _ =>
    have hp : Hub.Canonical { hb with mem := putBytes (line * 128) p.bytes hb.mem } := Memory.wf_putBytes h
    exact (hp.of_mem (Hub.setLine_mem ..)).of_mem (Hub.mscWrite_mem ..)
  next => exact h

theorem Hub.zeroRange_canonical {a n : Nat} {hb : Hub} (h : hb.Canonical) : (hb.zeroRange a n).Canonical := by
  unfold Hub.zeroRange
  extract_lets inside
  exact NMap.wf_drop (p := inside) (m := hb.mem) h

theorem Hub.landStore_canonical {v : VStore} {hb : Hub} (h : hb.Canonical) : (hb.landStore v).Canonical := by
  have hp : (hb.putVault v.pa v.bytes).Canonical := Hub.putVault_canonical h
  unfold Hub.landStore
  extract_lets hc
  split
  · exact hp.of_mem (Hub.setLine_mem ..)
  · exact hp

theorem Hub.commit_canonical {who : HartId} {tick part node line t : Nat} {bs : List (Nat × Byte)} {quiet : Bool}
    {hb : Hub} (h : hb.Canonical) : (hb.commit who tick part node line bs t quiet).Canonical := by
  unfold Hub.commit
  extract_lets whole cells plain lined main _ _ ver hc hd
  have hplain : plain.Canonical := by
    unfold plain
    split
    · exact h
    · exact NMap.wf_putAll (m := hb.mem) h
  have hlined : lined.Canonical := hplain.of_mem (Hub.setLine_mem ..)
  have hmain : main.Canonical := hlined
  have hver : ver.Canonical := h.of_mem (Hub.setLine_mem ..)
  have hhc : hc.Canonical := by
    unfold hc
    split
    · exact hmain.of_mem ((Hub.ringBells_mem ..).trans (Hub.mscWrite_mem ..))
    · exact hver
  have hhd : hd.Canonical := hhc.of_mem (Hub.raise_mem ..)
  split
  · exact hhd
  · exact hhd.of_mem (Hub.testWatches_mem ..)

/-! ### Results of a hart that write its vault -/

theorem State.vaultLands_canonical {n pa : Nat} {bs : List Byte} {s : State} (h : MemoryCanonical s) :
    MemoryCanonical (s.vaultLands n pa bs) :=
  Hub.putVault_canonical (hb := s.hub) h

theorem State.landEff_canonical {s : State} (h : MemoryCanonical s) (e : Eff) : MemoryCanonical (s.landEff e) := by
  match e with
  | .vault n pa bs => exact State.vaultLands_canonical h
  | .spr lvl n v => exact h.of_mem (sprWrite_hub_mem ..)
  | .space false _ | .space true _ | .bits false .. | .bits true .. => exact h
  | .s .. | .g .. | .p .. | .m .. | .mBits .. | .sem .. | .lt .. | .xpass .. | .accept .. | .memErr .. | .seen .. =>
    exact h

theorem State.landPend_canonical {s : State} (h : MemoryCanonical s) (p : Pend) : MemoryCanonical (s.landPend p) :=
  State.foldl_canonical (fun _ e h => State.landEff_canonical h e) h

theorem State.landDue_canonical {s : State} (h : MemoryCanonical s) : MemoryCanonical s.landDue :=
  State.foldl_canonical (fun _ p h => State.landPend_canonical h p) h

/-! ### Lines that peers hold -/

theorem execInvalidationAck_canonical (peer line : Nat) :
    KeepsCanonical (execInvalidationAck peer line) := fun s h => by
  unfold execInvalidationAck
  extract_lets mine t held hb excl hc hd
  have hhc : hc.Canonical := by
    unfold hc
    split
    · exact (Hub.takeBack_canonical (hb := s.hub) h).of_mem (Hub.endTenure_mem ..)
    · exact h
  have hhd : hd.Canonical := by
    unfold hd
    split
    · exact hhc.of_mem (Hub.dropPeer_mem ..)
    · exact hhc
  split
  · exact h
  · split
    · exact h.of_mem (Hub.defer_mem ..)
    · exact hhd

theorem execRecallLine_canonical (line : Nat) : KeepsCanonical (execRecallLine line) := fun s h => by
  unfold execRecallLine
  split
  · exact h
  · extract_lets done
    split
    · have hr {hb : Hub} (hb' : hb.mem = s.hub.mem) : OutcomeCanonical (.next { s with hub := done hb }) :=
        h.of_mem hb'
      refine hr ?_
      split
      · rfl
      · exact Hub.setLine_mem ..
    next p _ =>
      have hb : (s.hub.takeBack line).Canonical := Hub.takeBack_canonical h
      split
      · exact h.of_mem (Hub.defer_mem ..)
      · extract_lets u v
        have hu : u.Canonical := hb.of_mem ((Hub.setPeer_mem ..).trans (Hub.endTenure_mem ..))
        have hv : v.Canonical := hu.of_mem (Hub.setLine_mem ..)
        exact hv

theorem State.evict_canonical {peer line : Nat} {s : State} (h : MemoryCanonical s) :
    MemoryCanonical (s.evict peer line) := by
  unfold State.evict
  split
  · exact h
  · exact h.of_mem ((State.askHost_hub_mem ..).trans (Hub.dropPeer_mem ..))
  next p _ _ _ _ =>
    extract_lets hb crossing hc hd
    have hhc : hc.Canonical := by
      unfold hc
      split
      · exact (Hub.takeBack_canonical (hb := s.hub) h).of_mem (Hub.endTenure_mem ..)
      · split
        · exact Hub.Canonical.of_mem h (Hub.endTenure_mem ..)
        · exact h
    have hhd : hd.Canonical := hhc.of_mem (Hub.dropPeer_mem ..)
    refine (?_ : Hub.Canonical _)
    dsimp only
    split
    · exact hhd
    · exact hhd.of_mem (Hub.setLine_mem ..)

theorem execEvictionNotice_canonical (peer line : Nat) :
    KeepsCanonical (execEvictionNotice peer line) := fun s h => by
  unfold execEvictionNotice
  split
  · exact h
  · exact State.evict_canonical h

theorem State.peerRoom_canonical {peer line : Nat} {s : State} (h : MemoryCanonical s) :
    MemoryCanonical (s.peerRoom peer line) := by
  unfold State.peerRoom
  extract_lets ls
  split
  · exact h
  · split
    · exact State.evict_canonical h
    · exact h

theorem State.grantShared_canonical {peer line : Nat} {s : State} (h : MemoryCanonical s) :
    MemoryCanonical (s.grantShared peer line) := by
  unfold State.grantShared
  split
  · exact h
  · extract_lets h0 h1 h2 m d h3 bytes h4 h5
    have c0 : h0.Canonical := Hub.Canonical.of_mem h (Hub.endTenure_mem ..)
    have c1 : h1.Canonical := by
      unfold h1
      split
      · split
        · exact c0.of_mem ((Hub.setLine_mem ..).trans (Hub.setPeer_mem ..))
        · exact c0.of_mem (Hub.setPeer_mem ..)
      · exact c0
    have c2 : h2.Canonical := by
      unfold h2
      split
      · exact c1
      · exact c1.of_mem (Hub.readLine_mem ..)
    have c3 : h3.Canonical := by
      unfold h3
      split
      · split
        · exact (Hub.takeBack_canonical c2).of_mem (Hub.setPeer_mem ..)
        · exact c2
      · exact c2
    have c5 : h5.Canonical := c3.of_mem ((Hub.setLine_mem ..).trans (Hub.setPeer_mem ..))
    exact MemoryCanonical.of_mem (s := { s with hub := h5 }) c5 (State.peerSee_hub_mem ..)

theorem State.grantOwn_canonical {st : Moesi} {peer line : Nat} {s : State} (h : MemoryCanonical s) :
    MemoryCanonical ((s.grantOwn st peer line).getD s) :=
  h.of_mem (State.getD_hub_mem State.grantOwn_hub_mem)

theorem State.grantRead_canonical {peer line : Nat} {s : State} (h : MemoryCanonical s) :
    MemoryCanonical (s.grantRead peer line) := by
  unfold State.grantRead
  extract_lets e t
  split
  · exact State.grantOwn_canonical (s := t) h
  · exact State.grantShared_canonical (s := t) h

theorem execPeerFill_canonical (peer line : Nat) (own : Bool) :
    KeepsCanonical (execPeerFill peer line own) := fun s h => by
  unfold execPeerFill
  extract_lets loc
  clear_value loc
  split
  · exact h
  · split
    · exact State.peerRoom_canonical (h.of_mem (State.hostFill_hub_mem ..))
    · split
      · exact h.of_mem (State.getD_hub_mem State.recallOf_hub_mem)
      · split
        · exact State.peerRoom_canonical (State.grantOwn_canonical h)
        · split
          · exact h
          · exact State.peerRoom_canonical (State.grantRead_canonical h)

/-! ### Writes of the hub -/

theorem State.hubClear_canonical {writer : Option Nat} {line : Nat} {s : State} (h : MemoryCanonical s) :
    MemoryCanonical (s.hubClear writer line) := by
  unfold State.hubClear
  extract_lets u ps t hb hc
  have hu : MemoryCanonical u := h.of_mem (State.endSequences_hub_mem ..)
  have hhb : hb.Canonical := (Hub.takeBack_canonical (hb := u.hub) hu).of_mem (Hub.endTenure_mem ..)
  have hhc : hc.Canonical := hhb.of_mem (Hub.setLine_mem ..)
  exact hhc

theorem State.hubWrite_canonical {floor line : Nat} {bs : List (Nat × Byte)} {s : State} (h : MemoryCanonical s) :
    MemoryCanonical (s.hubWrite floor line bs) := by
  unfold State.hubWrite
  extract_lets u t hb mine hc
  have hu : MemoryCanonical u := State.hubClear_canonical h
  have hhb : hb.Canonical := Hub.commit_canonical (hb := u.hub) hu
  have hhc : hc.Canonical := Hub.foldl_canonical (fun _ _ => Hub.putCells_canonical) hhb
  exact hhc

theorem State.hubStore_canonical {floor pa : Nat} {bs : List Byte} {s : State} (h : MemoryCanonical s) :
    MemoryCanonical (s.hubStore floor pa bs) :=
  State.foldl_canonical (fun s r h => by
    split
    · exact State.hubWrite_canonical h
    · split
      · exact h.of_mem (State.sendFor_snd_hub_mem ..)
      · exact h) h

theorem State.hubAtomic_canonical {part va : Nat} {f : Word → Word} {s t : State} (e : s.hubAtomic part va f = some t)
    (h : MemoryCanonical s) : MemoryCanonical t := by
  unfold State.hubAtomic at e
  split at e
  · exact Option.some.inj e ▸ State.hubStore_canonical (s := { s with free := s.free + 1 }) h
  · cases e

theorem State.hubWriteVa_canonical {part va : Nat} {bs : List Byte} {s t : State}
    (e : s.hubWriteVa part va bs = some t) (h : MemoryCanonical s) : MemoryCanonical t := by
  unfold State.hubWriteVa at e
  split at e
  · exact Option.some.inj e ▸ State.hubStore_canonical (s := { s with free := s.free + 1 }) h
  · cases e

theorem State.markConn_canonical {part q : Nat} {err : Bool} {s : State} (h : MemoryCanonical s) :
    MemoryCanonical (s.markConn part q err) := by
  unfold State.markConn
  extract_lets r va
  split
  · exact h
  · split
    · split
      · exact h
      · exact State.getD_canonical (fun e => State.hubWriteVa_canonical e h) h
    · exact h

theorem State.clearErrs_canonical {part : Nat} {s : State} (h : MemoryCanonical s) :
    MemoryCanonical (s.clearErrs part) :=
  State.foldl_canonical (fun _ _ => State.markConn_canonical) h

theorem State.afterConfig_canonical {off : Nat} {s : State} (h : MemoryCanonical s) :
    MemoryCanonical (s.afterConfig off) := by
  unfold State.afterConfig
  split
  · exact State.clearErrs_canonical h
  · exact h

theorem execConnbWrite_canonical (part : Nat) (v : Word) : KeepsCanonical (execConnbWrite part v) := fun _ h =>
  State.clearErrs_canonical (h.of_mem (State.connb_hub_mem ..))

/-! ### Stores and atomics of a hart -/

theorem State.commitOwn_canonical {part node line t : Nat} {bs : List (Nat × Byte)} {quiet : Bool} {s : State}
    (h : MemoryCanonical s) : MemoryCanonical (s.commitOwn part node line bs t quiet) := by
  unfold State.commitOwn
  extract_lets tick hit hb hc u
  have hhb : hb.Canonical := Hub.commit_canonical (hb := s.hub) h
  have hhc : hc.Canonical := by
    unfold hc
    split
    · exact hhb.of_mem (Hub.writtenBy_mem ..)
    · exact hhb
  exact hhc

theorem State.stampStore_canonical {w : Write} {s : State} (h : MemoryCanonical s) :
    MemoryCanonical (s.stampStore w) := by
  unfold State.stampStore
  extract_lets loc line v _ _ u x
  clear_value loc
  split
  · exact h
  · exact h
  · extract_lets done
    have hdone {t : State} (e : done = some t) : MemoryCanonical t := by
      unfold done at e
      split at e
      · exact h.of_mem (State.cfgWrite_hub_mem e)
      · cases e
    clear_value done
    split
    next t => exact State.afterConfig_canonical ((hdone rfl).of_mem (State.stampConfig_hub_mem ..))
    next => exact h
  · split
    · split
      · exact h.of_mem ((State.modMe_hub_mem ..).trans (State.coreWrite_hub_mem ..))
      · exact h
    · split
      · exact h.of_mem (State.sendWrite_hub_mem ..)
      · split
        next t e => exact h.of_mem ((State.modMe_hub_mem ..).trans (State.clearPeers_hub_mem e))
        next =>
          have hu : MemoryCanonical u := State.commitOwn_canonical h
          have hx : MemoryCanonical x := by
            unfold x
            split
            · exact hu.of_mem (Hub.mscClean_mem ..)
            · exact hu
          exact hx.of_mem ((State.modMe_hub_mem ..).trans (State.cxlAck_hub_mem ..))

theorem execWriteStamp_canonical (h : HartId) : KeepsCanonical (execWriteStamp h) :=
  onHart_keepsCanonical fun s h => by
    split
    · split
      · exact State.stampStore_canonical h
      · exact h
    · exact h

theorem State.atomicHere_canonical {w : Write} {loc : Loc} {s : State} (h : MemoryCanonical s) :
    MemoryCanonical (s.atomicHere w loc) := by
  unfold State.atomicHere
  extract_lets line _ u _
  split
  next n op v c _ =>
    extract_lets _ _ _ _ _ x
    split
    · exact h.of_mem (State.atomicFails_hub_mem ..)
    · split
      next t e => exact h.of_mem ((State.modMe_hub_mem ..).trans (State.recallOf_hub_mem e))
      next =>
        split
        next t e => exact h.of_mem ((State.modMe_hub_mem ..).trans (State.clearPeers_hub_mem e))
        next =>
          have hu : MemoryCanonical u := h.of_mem (Hub.readLine_mem ..)
          have hx : MemoryCanonical x := State.commitOwn_canonical hu
          exact hx.of_mem ((State.atomicDone_hub_mem ..).trans (State.cxlAck_hub_mem ..))

theorem State.hostAtomic_canonical {port : Nat} {w : Write} {s : State} (h : MemoryCanonical s) :
    MemoryCanonical (s.hostAtomic port w) := by
  unfold State.hostAtomic
  extract_lets line n
  split
  · exact h.of_mem ((State.atomicDone_hub_mem ..).trans (State.coreWrite_hub_mem ..))
  · exact State.peerRoom_canonical (h.of_mem (State.hostFill_hub_mem ..))

theorem State.stampAtomic_canonical {w : Write} {s : State} (h : MemoryCanonical s) :
    MemoryCanonical (s.stampAtomic w) := by
  unfold State.stampAtomic
  extract_lets loc
  clear_value loc
  split
  · exact h.of_mem (State.atomicFails_hub_mem ..)
  · exact h.of_mem (State.atomicFails_hub_mem ..)
  · exact h.of_mem (State.atomicFails_hub_mem ..)
  · exact h.of_mem (State.sendWrite_hub_mem ..)
  · split
    · exact State.hostAtomic_canonical h
    · exact h.of_mem (State.sendWrite_hub_mem ..)
  · exact State.atomicHere_canonical h

theorem execAtomicAtHome_canonical (h : HartId) : KeepsCanonical (execAtomicAtHome h) :=
  onHart_keepsCanonical fun s h => by
    split
    · split
      · exact State.stampAtomic_canonical h
      · exact h
    · split
      · split
        · exact State.stampAtomic_canonical h
        · exact h
      · exact h

theorem execVaultStoreLands_canonical (h : HartId) : KeepsCanonical (execVaultStoreLands h) :=
  onHart_keepsCanonical fun s h => by
    split
    next v rest _ =>
      have hv : (s.hub.landStore v).Canonical := Hub.landStore_canonical h
      split
      · exact MemoryCanonical.of_mem (s := { s with hub := s.hub.landStore v }) hv
          ((State.settleBanks_hub_mem ..).trans (State.modMe_hub_mem ..))
      · exact h
    · split
      · split
        · exact Hub.putCells_canonical (hb := s.hub) h
        · exact h
      · exact h

end Sys2Proof.Machine
end

section
/-! The canonical form: data movement, answers from outside, links, hosts, the network and the base dies. -/

namespace Sys2Proof.Machine

/-! ### Data movement -/

theorem State.engStore_canonical {o : EngOp} {os : List Nat} {pa : Nat} {vs : List (Byte × Bool)} {s : State}
    (h : MemoryCanonical s) : MemoryCanonical (s.engStore o os pa vs) := by
  unfold State.engStore
  extract_lets loc part line t bs tick bad x hb u v
  have hhb : hb.Canonical :=
    (Hub.commit_canonical (hb := s.hub) h).of_mem (Hub.setPoison_mem ..)
  have hv : MemoryCanonical v := hhb
  clear_value loc
  split
  · exact h.of_mem (State.engFailTurn_hub_mem ..)
  · exact h.of_mem (State.engFailTurn_hub_mem ..)
  · split
    · exact h.of_mem (State.engFailTurn_hub_mem ..)
    · split
      · exact h.of_mem (State.engFailTurn_hub_mem ..)
      · split
        · exact h.of_mem ((State.engMoved_hub_mem ..).trans (State.sendOut_snd_hub_mem ..))
        · split
          · exact h.of_mem (State.engWait_hub_mem ..)
          · split
            next t e =>
              have ht : MemoryCanonical t := h.of_mem (State.clearPeers_hub_mem e)
              exact ht.of_mem ((State.engWait_hub_mem ..).trans (State.modMe_hub_mem ..))
            next => exact hv.of_mem ((State.engMoved_hub_mem ..).trans (State.cxlAck_hub_mem ..))

theorem State.engPut_canonical {o : EngOp} {os : List Nat} {vs : List (Byte × Bool)} {s : State}
    (h : MemoryCanonical s) : MemoryCanonical (s.engPut o os vs) := by
  unfold State.engPut
  split
  · exact h.of_mem (State.engMoved_hub_mem ..)
  · split
    · exact h.of_mem (State.engSuspend_hub_mem ..)
    · exact h.of_mem (State.engFailTurn_hub_mem ..)
    · extract_lets line bad x hb
      have hhb : hb.Canonical := (Hub.putVault_canonical (hb := s.hub) h).of_mem (Hub.setPoison_mem ..)
      exact MemoryCanonical.of_mem (s := { s with hub := hb }) hhb
        ((State.engMoved_hub_mem ..).trans (State.modMe_hub_mem ..))
    · exact State.engStore_canonical h

theorem State.engMove_canonical {o : EngOp} {s : State} (h : MemoryCanonical s) : MemoryCanonical (s.engMove o) := by
  unfold State.engMove
  split
  · exact h.of_mem (State.engFinish_hub_mem ..)
  · extract_lets t os isPut part
    have ht : MemoryCanonical t := h
    split
    · exact ht.of_mem (State.engSuspend_hub_mem ..)
    · exact ht.of_mem (State.engFailTurn_hub_mem ..)
    · split
      · exact ht.of_mem (State.engFailTurn_hub_mem ..)
      · split
        next u e =>
          obtain ⟨a, -, ea⟩ := List.exists_of_findSome?_eq_some e
          exact ht.of_mem ((State.engWait_hub_mem ..).trans (State.recallOf_hub_mem ea))
        next =>
          exact State.engPut_canonical (State.foldl_canonical (fun s a h => h.of_mem (Hub.readAt_mem ..)) ht)

theorem execCopyComplete_canonical (h : HartId) (op : Nat) : KeepsCanonical (execCopyComplete h op) :=
  onHart_keepsCanonical fun s h => by
    split
    · extract_lets wait
      split
      · exact h
      · exact State.engMove_canonical h
    · exact h

/-! ### Answers and links -/

theorem State.answer_canonical {tag bits time : Nat} {data : List Byte} {s : State} (h : MemoryCanonical s) :
    MemoryCanonical (s.answer tag bits time data) := by
  unfold State.answer
  split
  · exact h
  · extract_lets _ t u
    have ht : MemoryCanonical t := h
    have hu : MemoryCanonical u := by
      unfold u
      split
      · exact State.peerRoom_canonical (ht.of_mem (State.takeHost_hub_mem ..))
      · exact ht
    exact State.onHart_canonical (fun s h => h.of_mem (State.takeAnswer_hub_mem ..)) hu

theorem execCxlDeviceAcknowledgement_canonical (tag : Nat) (data : List Byte) :
    KeepsCanonical (execCxlDeviceAcknowledgement tag data) := fun s h => by
  refine (?_ : MemoryCanonical _)
  split
  · exact State.answer_canonical h
  · exact h

theorem execHostWriteComplete_canonical (tag : Nat) (data : List Byte) :
    KeepsCanonical (execHostWriteComplete tag data) := fun s h => by
  refine (?_ : MemoryCanonical _)
  split
  · exact State.answer_canonical h
  · exact h

theorem State.serve_canonical {k tag pa n : Nat} {read : Bool} {f : State → State} {s : State}
    (hf : MemoryCanonical s → MemoryCanonical (f s)) (h : MemoryCanonical s) :
    MemoryCanonical (s.serve k tag pa n read f) := by
  unfold State.serve
  extract_lets l
  split
  · exact h.of_mem (State.reply_hub_mem ..)
  · split
    · exact h.of_mem (State.reply_hub_mem ..)
    · exact hf h

theorem State.deliverFlit_canonical {k : Nat} {x : FlitPayload} {s : State} (h : MemoryCanonical s) :
    MemoryCanonical (s.deliverFlit k x) := by
  unfold State.deliverFlit
  extract_lets sent timeOf
  split
  · exact h
  · split
    · exact State.answer_canonical h
    · exact h
  · split
    · exact State.answer_canonical h
    · exact h
  · split
    · exact State.answer_canonical h
    · exact h
  · exact h.of_mem (State.setLink_hub_mem ..)
  · exact h.of_mem (State.setLink_hub_mem ..)
  · exact State.serve_canonical (fun h => h.of_mem ((State.reply_hub_mem ..).trans (Hub.readAt_mem ..))) h
  · exact State.serve_canonical (fun h => (State.hubStore_canonical h).of_mem (State.reply_hub_mem ..)) h
  · refine State.serve_canonical (fun h => ?_) h
    extract_lets n m bs new t
    have ht : MemoryCanonical t := by
      unfold t
      split
      · exact State.hubWrite_canonical h
      · exact State.hubStore_canonical h
    exact ht.of_mem (State.reply_hub_mem ..)

theorem execFlitReceive_canonical (link seq : Nat) (crcOk : Bool) (payload : FlitPayload) :
    KeepsCanonical (execFlitReceive link seq crcOk payload) := fun s h => by
  unfold execFlitReceive
  extract_lets l low t
  have ht : MemoryCanonical t := h
  split
  · exact h
  · split
    next good l' _ =>
      extract_lets u
      have hu : MemoryCanonical u := ht.of_mem (State.setLink_hub_mem ..)
      refine (?_ : MemoryCanonical _)
      split
      · exact State.deliverFlit_canonical hu
      · exact hu

theorem execDeadLink_canonical (link : Nat) : KeepsCanonical (execDeadLink link) := fun s h => by
  unfold execDeadLink
  split
  · exact h
  · exact State.foldl_canonical (fun _ _ => State.answer_canonical)
      (h.of_mem ((State.logErr_hub_mem ..).trans (State.setLink_hub_mem ..)))

/-! ### Requests of hosts and of the network -/

theorem State.storeBytes_canonical {floor : Nat} {pas : List Nat} {data : List Byte} {s : State}
    (h : MemoryCanonical s) : MemoryCanonical (s.storeBytes floor pas data) :=
  State.foldl_canonical (fun s l h => by
    extract_lets mine
    split
    · exact State.hubWrite_canonical h
    · exact h) h

theorem execInboundHostRequest_canonical (req : HostReq) :
    KeepsCanonical (execInboundHostRequest req) := fun s h => by
  unfold execInboundHostRequest
  extract_lets e t part n
  clear_value e
  split
  · exact h.of_mem ((State.tellFailed_hub_mem ..).trans (State.setMon_hub_mem ..))
  · have hm := Hub.inboundAddrs_snd_mem s.free part (if e.getLsbD 62 then some 2 else none)
      (if req.write then .store else .load) ((List.range n).map (fun k => req.addr + k)) s.hub
    split
    next a x hb eq =>
      have hhb : hb.Canonical := Hub.Canonical.of_mem h ((congrArg (·.2.mem) eq).symm.trans hm)
      exact MemoryCanonical.of_mem (s := { s with hub := hb }) hhb
        ((State.tellFailed_hub_mem ..).trans (State.ioFault_hub_mem ..))
    next pas hb eq =>
      extract_lets u
      have hhb : hb.Canonical := Hub.Canonical.of_mem h ((congrArg (·.2.mem) eq).symm.trans hm)
      have hu : MemoryCanonical u := hhb
      split
      · exact hu.of_mem (State.tellFailed_hub_mem ..)
      · split
        · exact (State.storeBytes_canonical hu).of_mem (State.tell_hub_mem ..)
        · exact hu.of_mem (State.tellBytes_hub_mem ..)

theorem State.connError_canonical {part q : Nat} {s : State} (h : MemoryCanonical s) :
    MemoryCanonical (s.connError part q) :=
  State.markConn_canonical (h.of_mem (State.modConn_hub_mem ..))

theorem State.refuseRdma_canonical {r : RdmaReq} {s : State} (h : MemoryCanonical s) :
    MemoryCanonical (s.refuseRdma r) := by
  have hu : MemoryCanonical { s with hub := { s.hub with locked := s.hub.locked.filter (fun x => x.req ≠ r) } } := h
  exact (State.connError_canonical hu).of_mem (State.tell_hub_mem ..)

theorem State.takeLine_canonical {peer line : Nat} {s : State} (h : MemoryCanonical s) :
    MemoryCanonical (s.takeLine peer line) := by
  unfold State.takeLine
  extract_lets t u
  have ht : MemoryCanonical t := State.hubClear_canonical h
  have hu : MemoryCanonical u := ht.of_mem (Hub.setLine_mem ..)
  exact State.grantOwn_canonical hu

theorem State.peerStore_canonical {peer line : Nat} {bs : List (Nat × Byte)} {s : State} (h : MemoryCanonical s) :
    MemoryCanonical (s.peerStore peer line bs) := by
  unfold State.peerStore
  extract_lets at_ write t
  have hw {n : Nat} {s : State} (h : MemoryCanonical s) : MemoryCanonical (write n s) :=
    h.of_mem ((State.peerSee_hub_mem ..).trans (Hub.peerWrite_mem ..))
  have ht : MemoryCanonical t := State.takeLine_canonical h
  split
  · exact hw h
  · split
    · exact hw ht
    · exact ht

theorem State.rdmaRead_canonical {r : RdmaReq} {peer : Nat} {pas : List Nat} {s : State} (h : MemoryCanonical s) :
    MemoryCanonical (s.rdmaRead r peer pas) := by
  unfold State.rdmaRead
  extract_lets ls lacks fills t
  have ht : MemoryCanonical t := State.foldl_canonical (fun _ _ => State.grantRead_canonical) h
  clear_value lacks
  split
  · exact h.of_mem ((State.rdmaLater_hub_mem ..).trans (State.foldl_hub_mem fun _ _ => State.wantLine_hub_mem ..))
  · exact ht.of_mem ((State.modConn_hub_mem ..).trans
      ((State.tellBytes_hub_mem ..).trans (State.rdmaDone_hub_mem ..)))

theorem State.engineBytes_canonical {peer line : Nat} {mine : List (Nat × Byte)} {s : State} (h : MemoryCanonical s) :
    MemoryCanonical (s.engineBytes peer line mine) := by
  unfold State.engineBytes
  extract_lets pa bs
  split
  · split
    · split
      · exact h.of_mem (State.askHost_hub_mem ..)
      · exact h.of_mem (Hub.peerWrite_mem ..)
    · exact h.of_mem (State.sendFor_snd_hub_mem ..)
  · exact h.of_mem (State.sendFor_snd_hub_mem ..)
  · split
    · exact State.peerStore_canonical h
    · split
      · exact State.hubWrite_canonical h
      · exact h

theorem State.rdmaWrite_canonical {r : RdmaReq} {peer : Nat} {pas : List Nat} {s : State} (h : MemoryCanonical s) :
    MemoryCanonical (s.rdmaWrite r peer pas) := by
  unfold State.rdmaWrite
  extract_lets cells of_ ls lacks t
  have ht : MemoryCanonical t := State.foldl_canonical (fun _ _ => State.engineBytes_canonical) h
  clear_value lacks
  split
  · exact h.of_mem ((State.rdmaLater_hub_mem ..).trans (State.foldl_hub_mem fun _ _ => State.wantLine_hub_mem ..))
  · exact ht.of_mem ((State.modConn_hub_mem ..).trans ((State.tell_hub_mem ..).trans (State.rdmaDone_hub_mem ..)))

theorem execIncomingRdma_canonical (req : RdmaReq) : KeepsCanonical (execIncomingRdma req) := fun s h => by
  unfold execIncomingRdma
  split
  · exact h.of_mem ((State.tell_hub_mem ..).trans (State.rdmaDone_hub_mem ..))
  next c _ =>
    split
    · exact State.refuseRdma_canonical h
    · extract_lets wr n acc
      clear_value n acc
      have hm := Hub.inboundAddrs_snd_mem s.free req.part (some (if c.peer = 32 then 0 else 1)) acc
        ((List.range n).map (fun k => req.addr + k)) s.hub
      split
      next a x hb eq =>
        have hhb : hb.Canonical := Hub.Canonical.of_mem h ((congrArg (·.2.mem) eq).symm.trans hm)
        exact State.refuseRdma_canonical (MemoryCanonical.of_mem (s := { s with hub := hb }) hhb
          (State.ioFault_hub_mem ..))
      next pas hb eq =>
        extract_lets u
        have hhb : hb.Canonical := Hub.Canonical.of_mem h ((congrArg (·.2.mem) eq).symm.trans hm)
        have hu : MemoryCanonical u := hhb
        split
        · exact State.refuseRdma_canonical hu
        · split
          · exact State.rdmaRead_canonical hu
          · exact State.rdmaWrite_canonical hu
          · split
            · exact State.refuseRdma_canonical hu
            · exact hu.of_mem (State.rdmaAtomic_hub_mem ..)
          · exact hu

/-! ### Writes of the base dies -/

theorem execLineWrite_canonical (pa mask : Nat) (data : List Byte) : KeepsCanonical (execLineWrite pa mask data) :=
  fun s h => by
    unfold execLineWrite
    extract_lets line ks hb
    have hhb : hb.Canonical := Hub.putCells_canonical (hb := s.hub) h
    split
    · exact h
    · split
      · exact h.of_mem (State.tell_hub_mem ..)
      · exact hhb.of_mem (Hub.mscWrite_mem ..)

theorem execTileWrite_canonical (part : Nat) (tid coords : Word) (data : List Byte) :
    KeepsCanonical (execTileWrite part tid coords data) := fun s h => by
  unfold execTileWrite
  split
  · exact h.of_mem (State.tell_hub_mem ..)
  · extract_lets cells pas
    clear_value cells
    split
    · exact h.of_mem (State.tell_hub_mem ..)
    · exact (State.storeBytes_canonical h).of_mem (State.tell_hub_mem ..)

end Sys2Proof.Machine
end

section
/-! The canonical form: results that land, queues, places, resets, boot and the calender. -/

namespace Sys2Proof.Machine

/-! ### Results that land, and the version store -/

theorem execExposedResultLands_canonical (h : HartId) : KeepsCanonical (execExposedResultLands h) :=
  onHart_keepsCanonical fun _ => State.landDue_canonical

theorem execXPassEntryArrives_canonical (h : HartId) : KeepsCanonical (execXPassEntryArrives h) :=
  onHart_keepsCanonical fun _ h => State.foldl_canonical (fun _ p h => State.landPend_canonical h p) h

theorem State.confirmNode_canonical {part n p : Nat} {s : State} (h : MemoryCanonical s) :
    MemoryCanonical (s.confirmNode part n p).2 := by
  unfold State.confirmNode
  extract_lets vs acks t hit cleared _ u me written nodes watches _ v
  have hcleared : MemoryCanonical cleared := State.foldl_canonical (fun _ _ => State.hubClear_canonical) h
  have hwritten : MemoryCanonical written :=
    State.foldl_canonical (fun s v h => by
      extract_lets bs tick
      exact (Hub.commit_canonical (hb := s.hub) h).of_mem (Hub.setPoison_mem ..)) (hcleared.of_mem rfl)
  have hv : MemoryCanonical v := hwritten.of_mem rfl
  exact hv.of_mem ((State.modMe_hub_mem ..).trans (State.mapAll_hub_mem ..))

theorem execResolveComplete_canonical (h : HartId) : KeepsCanonical (execResolveComplete h) :=
  onHart_keepsCanonical fun s h => by
    split
    next r _ =>
      split
      · exact h
      · extract_lets part say
        have hsay {v : Word} {t : Nat} {s : State} (h : MemoryCanonical s) : MemoryCanonical (say v t s) := h
        split
        · exact hsay (h.of_mem (State.openNode_snd_hub_mem ..))
        · split
          · exact hsay h
          · split
            · exact hsay h
            · split
              · exact hsay (State.confirmNode_canonical h)
              · exact hsay (h.of_mem (State.refuteNode_hub_mem ..))
    next => exact h

/-! ### Queues and packets -/

theorem State.setDesc_canonical {part q off : Nat} {bs : List Byte} {s : State} (h : MemoryCanonical s) :
    MemoryCanonical (s.setDesc part q off bs) := by
  unfold State.setDesc
  split
  · exact State.getD_canonical (fun e => State.hubWriteVa_canonical e h) h
  · exact h

theorem State.csigMin_canonical {part csig : Nat} {s : State} (h : MemoryCanonical s) :
    MemoryCanonical (s.csigMin part csig) := by
  unfold State.csigMin
  split
  · exact h
  · exact State.getD_canonical (fun e => State.hubAtomic_canonical e h) h

theorem State.csigAdd_canonical {part csig : Nat} {s : State} (h : MemoryCanonical s) :
    MemoryCanonical (s.csigAdd part csig).2 := by
  unfold State.csigAdd
  split
  · exact h
  · split
    next t e => exact State.hubAtomic_canonical e h
    next => exact h

theorem State.setRidx_canonical {part q i : Nat} {s : State} (h : MemoryCanonical s) :
    MemoryCanonical (s.setRidx part q i) :=
  State.setDesc_canonical (h.of_mem (State.setQueue_hub_mem ..))

theorem State.markAborted_canonical {part q err epkt : Nat} {s : State} (h : MemoryCanonical s) :
    MemoryCanonical (s.markAborted part q err epkt) := by
  unfold State.markAborted
  split
  · split
    · exact h
    · exact State.setDesc_canonical (State.setDesc_canonical (State.setDesc_canonical
        (h.of_mem ((State.raiseBy_hub_mem ..).trans (State.setQueue_hub_mem ..)))))
  · exact h

theorem State.abortFrom_canonical {part q : Nat} : ∀ (n : Nat) {s : State}, MemoryCanonical s →
    MemoryCanonical (s.abortFrom part q n)
  | 0, _, h => h
  | n + 1, s, h => by
    unfold State.abortFrom
    split
    next x _ =>
      split
      · exact h
      · extract_lets t
        have ht : MemoryCanonical t := by
          unfold t
          split
          · exact State.csigMin_canonical h
          · exact h
        exact State.abortFrom_canonical n (State.setRidx_canonical ht)
    next => exact h

theorem State.abortRest_canonical {part q : Nat} {s : State} (h : MemoryCanonical s) :
    MemoryCanonical (s.abortRest part q) := by
  unfold State.abortRest
  split
  · extract_lets n
    split
    · exact h
    · exact State.abortFrom_canonical n (h.of_mem ((State.dropBarrier_hub_mem ..).trans (State.unstart_hub_mem ..)))
  · exact h

theorem State.abortPacket_canonical {part q err : Nat} {p : Option Nat} {s : State} (h : MemoryCanonical s) :
    MemoryCanonical (s.abortPacket part q err p) := by
  unfold State.abortPacket
  split
  · exact State.abortRest_canonical (State.setRidx_canonical (State.markAborted_canonical
      ((State.csigMin_canonical h).of_mem (State.dropBarrier_hub_mem ..))))
  · exact h

theorem State.dispatch_canonical {x : Queue} {p : Nat} {s : State} (h : MemoryCanonical s) :
    MemoryCanonical (s.dispatch x p) := by
  unfold State.dispatch
  split
  · exact State.abortPacket_canonical h
  · extract_lets r t u v
    have ht : MemoryCanonical t := by
      unfold t
      exact h.of_mem (State.hubSaw_hub_mem ..)
    have hu : MemoryCanonical u := by
      unfold u
      split
      · exact ht
      · exact ht.of_mem (State.hubSaw_hub_mem _ _ _ t)
    have hv : MemoryCanonical v := hu.of_mem rfl
    clear_value r
    split
    · exact State.abortPacket_canonical hv
    · exact hv.of_mem rfl

theorem State.evalBarrier_canonical {part q : Nat} {s : State} (h : MemoryCanonical s) :
    MemoryCanonical (s.evalBarrier part q) := by
  unfold State.evalBarrier
  split
  · split
    next x _ _ deps csig _ =>
      extract_lets pas taken value vs seen t abort ws
      have htaken : MemoryCanonical taken := h.of_mem (State.setQueue_hub_mem ..)
      have hseen : MemoryCanonical seen :=
        State.foldl_canonical (fun _ _ h => h.of_mem (State.hubSaw_hub_mem ..)) htaken
      have ht : MemoryCanonical t := hseen.of_mem rfl
      have habort (e : Nat) : MemoryCanonical (abort e) :=
        State.abortPacket_canonical (State.csigMin_canonical ht)
      split
      · exact habort 5
      · split
        · exact habort 6
        · split
          · have hadd : MemoryCanonical (t.csigAdd part csig).2 := State.csigAdd_canonical ht
            have hrow := State.setRidx_canonical (part := part) (q := q) (i := x.ridx + 1)
              (hadd.of_mem (State.dropBarrier_hub_mem part q _))
            dsimp only
            split
            · exact hrow
            · exact State.abortRest_canonical (State.markAborted_canonical hrow)
          · refine State.foldl_canonical (fun s v h => ?_) (ht.of_mem (Hub.keepWatches_mem ..))
            split
            · exact h
            · exact h.of_mem (State.armDep_hub_mem ..)
    next => exact h
  · exact h

theorem State.barrier_canonical {x : Queue} {p : Nat} {s : State} (h : MemoryCanonical s) :
    MemoryCanonical (s.barrier x p) := by
  unfold State.barrier
  split
  · exact State.abortPacket_canonical h
  · split
    · exact State.abortPacket_canonical h
    · exact State.evalBarrier_canonical (h.of_mem (State.setQueue_hub_mem ..))

theorem State.signalPacket_canonical {x : Queue} {p : Nat} {s : State} (h : MemoryCanonical s) :
    MemoryCanonical (s.signalPacket x p) := by
  unfold State.signalPacket
  split
  · exact State.abortPacket_canonical h
  · split
    · exact State.abortPacket_canonical h
    · extract_lets v f
      split
      next t e => exact State.setRidx_canonical (State.hubAtomic_canonical e h)
      next => exact State.abortPacket_canonical h

theorem processIf_canonical {part q : Nat} {ty : Nat → Bool} {f : Queue → Nat → State → State}
    (hf : ∀ x p s, MemoryCanonical s → MemoryCanonical (f x p s)) :
    KeepsCanonical (processIf part q ty f) := fun s h => by
  unfold processIf
  split
  · extract_lets t
    have ht : MemoryCanonical t := h.of_mem (State.hubSaw_hub_mem ..)
    refine (?_ : MemoryCanonical _)
    split
    · exact hf _ _ _ ht
    · exact ht
  · exact State.abortPacket_canonical (s := { s with free := s.free + 1 }) h
  · exact h

theorem execDispatchPacket_canonical (part q : Nat) : KeepsCanonical (execDispatchPacket part q) :=
  processIf_canonical fun _ _ _ => State.dispatch_canonical

theorem execBarrierPacket_canonical (part q : Nat) : KeepsCanonical (execBarrierPacket part q) :=
  processIf_canonical fun _ _ _ => State.barrier_canonical

theorem execSignalPacket_canonical (part q : Nat) : KeepsCanonical (execSignalPacket part q) :=
  processIf_canonical fun _ _ _ => State.signalPacket_canonical

theorem execDoorbell_canonical (part q : Nat) : KeepsCanonical (execDoorbell part q) := fun s h => by
  unfold execDoorbell
  split
  · exact h
  next x _ =>
    split
    · exact h
    · extract_lets t bad u bad'
      have ht : MemoryCanonical t := h.of_mem (State.setQueue_hub_mem ..)
      have hu : MemoryCanonical u := by
        unfold u
        exact ht.of_mem (State.hubSaw_hub_mem ..)
      have hbad (e : Nat) : MemoryCanonical (bad e) := by
        unfold bad
        split
        · exact State.markAborted_canonical ht
        · exact ht
      have hbad' (e : Nat) : MemoryCanonical (bad' e) := by
        unfold bad'
        split
        · exact State.markAborted_canonical hu
        · exact hu
      clear_value u bad bad'
      split
      · exact ht
      · split
        · exact hbad 5
        · extract_lets w v
          have hv : MemoryCanonical v := hu.of_mem (State.setQueue_hub_mem ..)
          split
          · exact hbad' 7
          · refine (?_ : MemoryCanonical _)
            split
            · exact State.abortRest_canonical hv
            · exact hv

theorem execBarrierEvaluate_canonical (part q : Nat) : KeepsCanonical (execBarrierEvaluate part q) := fun s h => by
  refine (?_ : MemoryCanonical _)
  split
  · exact State.evalBarrier_canonical h
  · exact h.of_mem (State.setQueue_hub_mem ..)

theorem execBarrierSignalReread_canonical (part q : Nat) : KeepsCanonical (execBarrierSignalReread part q) :=
  fun s h => by
    unfold execBarrierSignalReread
    extract_lets due
    refine (?_ : MemoryCanonical _)
    split
    · exact State.evalBarrier_canonical h
    · exact h

theorem execDispatchComplete_canonical (launch : Nat) : KeepsCanonical (execDispatchComplete launch) := fun s h => by
  unfold execDispatchComplete
  split
  · exact h
  next l _ =>
    split
    · exact h
    · have hsig : MemoryCanonical
          (if l.killed then (true, s.csigMin l.part l.csig) else s.csigAdd l.part l.csig).2 := by
        split
        · exact State.csigMin_canonical h
        · exact State.csigAdd_canonical h
      split
      next ok t e =>
        have ht : MemoryCanonical t := (congrArg (MemoryCanonical ·.2) e).mp hsig
        extract_lets _ u v
        have hu : MemoryCanonical u := ht.of_mem (Hub.unpin_mem ..)
        have hv : MemoryCanonical v := hu.of_mem (State.dropHarts_hub_mem ..)
        refine (?_ : MemoryCanonical _)
        split
        · exact hv
        · exact State.abortRest_canonical (State.markAborted_canonical (hv.of_mem (State.reopen_hub_mem ..)))

theorem execQctlActivate_canonical (part q : Nat) : KeepsCanonical (execQctlActivate part q) := fun s h => by
  unfold execQctlActivate
  split
  · exact h
  · extract_lets old
    split
    · exact h.of_mem (State.endQctl_hub_mem ..)
    · split
      · exact (State.setDesc_canonical (State.setDesc_canonical (h.of_mem (State.addQueue_hub_mem ..)))).of_mem
          (State.endQctl_hub_mem ..)
      · exact h.of_mem (State.endQctl_hub_mem ..)

theorem execQctlDisable_canonical (part q : Nat) : KeepsCanonical (execQctlDisable part q) := fun s h => by
  unfold execQctlDisable
  split
  · exact h
  · extract_lets t on u _ v
    have ht : MemoryCanonical t := h.of_mem (State.unstart_hub_mem ..)
    have hu : MemoryCanonical u := by
      unfold u
      split
      · exact State.setDesc_canonical (ht.of_mem (State.dropBarrier_hub_mem ..))
      · exact ht
    exact hu.of_mem (State.endQctl_hub_mem ..)

theorem execQctlReset_canonical (part q : Nat) : KeepsCanonical (execQctlReset part q) := fun s h => by
  unfold execQctlReset
  split
  · exact h
  · split
    · split
      · exact h.of_mem (State.endQctl_hub_mem ..)
      · exact (State.setDesc_canonical (State.setDesc_canonical (h.of_mem (State.setQueue_hub_mem ..)))).of_mem
          (State.endQctl_hub_mem ..)
    · exact h.of_mem (State.endQctl_hub_mem ..)

/-! ### Places, restored banks and resets -/

theorem Hub.takePosition_canonical {part chip pos : Nat} {hb : Hub} (h : hb.Canonical) :
    (hb.takePosition part chip pos).Canonical := by
  unfold Hub.takePosition
  extract_lets was p zeroed cleared
  have hz : zeroed.Canonical := Hub.zeroRange_canonical h
  have hc : cleared.Canonical := by
    unfold cleared
    split
    · exact h
    · exact hz.of_mem rfl
  exact hc.of_mem rfl

theorem State.afterStart_canonical {l : Launch} {gang : Nat} {s : State} (h : MemoryCanonical s) :
    MemoryCanonical (s.afterStart l gang) := by
  unfold State.afterStart
  split
  · split
    · exact (State.setRidx_canonical h).of_mem (State.setQueue_hub_mem ..)
    · exact h
  · exact h.of_mem (State.setLaunch_hub_mem ..)

theorem execGangPlace_canonical (launch gang chip flight : Nat) :
    KeepsCanonical (execGangPlace launch gang chip flight) :=
  fun s h => by
    unfold execGangPlace
    split
    · exact h
    · split
      · split
        · exact h
        · extract_lets places t hb u new v w x
          have ht : MemoryCanonical t := h.of_mem (State.backsAt_hub_mem ..)
          have hhb : hb.Canonical := Hub.foldl_canonical
            (fun hb p h => (Hub.takePosition_canonical h).of_mem (Hub.holdBanks_mem ..)) ht
          have hu : MemoryCanonical u := hhb
          have hv : MemoryCanonical v := State.afterStart_canonical hu
          have hw : MemoryCanonical w := hv.of_mem (State.setGang_hub_mem ..)
          have hx : MemoryCanonical x := hw.of_mem (State.setLaunch_hub_mem ..)
          exact hx
      · exact h

theorem Hub.restoreBanks_canonical {g : Gang} {id : HartId} {pl : Place} {hb : Hub} (h : hb.Canonical) :
    (hb.restoreBanks g id pl).Canonical :=
  Hub.foldl_canonical (fun hb b h => by
    extract_lets k a zeroed m
    split
    · split
      · exact h
      · exact h
    · exact NMap.wf_putAll (m := zeroed.mem) (Hub.zeroRange_canonical h)) h

theorem execGangRestore_canonical (launch gang chip flight : Nat) :
    KeepsCanonical (execGangRestore launch gang chip flight) := fun s h => by
  unfold execGangRestore
  split
  · exact h
  · split
    · exact h.of_mem ((State.logErr_hub_mem ..).trans (State.setGang_hub_mem ..))
    · split
      · extract_lets ts mv t hb u v
        have ht : MemoryCanonical t := h.of_mem (State.backsAt_hub_mem ..)
        have hhb : hb.Canonical := Hub.foldl_canonical
          (fun hb p h => Hub.restoreBanks_canonical (Hub.takePosition_canonical h)) ht
        have hu : MemoryCanonical u := hhb
        have hv : MemoryCanonical v := hu.of_mem (State.setGang_hub_mem ..)
        split
        · exact h
        · exact hv.of_mem (State.setLaunch_hub_mem ..)
      · exact h

theorem onChiplet_canonical {cmd chip : Nat} {k : Sem} (hk : KeepsCanonical k) :
    KeepsCanonical (onChiplet cmd chip k) :=
  fun s h => by
    unfold onChiplet
    split
    · exact h
    · split
      · exact h.of_mem (State.endChctl_hub_mem ..)
      · exact hk s h

theorem execChctlReset_canonical (chip : Nat) : KeepsCanonical (execChctlReset chip) :=
  onChiplet_canonical fun s h => by
    extract_lets st hb mine hc t u
    have hhb : hb.Canonical := Hub.zeroRange_canonical (hb := s.hub) h
    have hu : MemoryCanonical u := hhb
    split
    · exact h.of_mem (State.setChst_hub_mem ..)
    · split
      · exact h.of_mem (State.endChctl_hub_mem ..)
      · exact hu.of_mem ((State.endChctl_hub_mem ..).trans (State.setChst_hub_mem ..))

theorem execPackageReset_canonical : KeepsCanonical execPackageReset := fun s _ => by
  unfold execPackageReset
  extract_lets r t
  have ht : MemoryCanonical t := resetMemoryIsCanonical
  refine (?_ : MemoryCanonical _)
  split
  · exact ht.of_mem (State.setMon_hub_mem ..)
  · exact ht

theorem State.bootStep_canonical {s : State} (h : MemoryCanonical s) : MemoryCanonical s.bootStep := by
  unfold State.bootStep
  extract_lets fl signed _ c same at_ t
  have ht : MemoryCanonical t := h.of_mem (State.setMon_hub_mem ..)
  split
  · exact h
  · split
    · split
      · exact h.of_mem (State.bootFail_hub_mem ..)
      · exact h.of_mem (State.bootDone_hub_mem ..)
    · split
      · exact h.of_mem (State.bootDone_hub_mem ..)
      · exact h.of_mem (State.bootFail_hub_mem ..)
    · split
      · exact h.of_mem (State.bootFail_hub_mem ..)
      · split
        · exact h.of_mem (State.bootFail_hub_mem ..)
        · exact ht.of_mem (State.bootDone_hub_mem ..)
    · split
      · split
        · exact h.of_mem (State.bootDone_hub_mem ..)
        · exact h.of_mem (State.bootFail_hub_mem ..)
      · exact h.of_mem (State.bootFail_hub_mem ..)
    · split
      next i _ _ =>
        split
        · exact h.of_mem (State.bootFail_hub_mem ..)
        · extract_lets a u
          have hu : MemoryCanonical u := Memory.wf_putBytes (m := s.hub.mem) h
          exact hu.of_mem ((State.mapHart_hub_mem ..).trans (State.bootDone_hub_mem ..))
      next => exact h.of_mem (State.bootFail_hub_mem ..)
    · exact h

/-! ### The calender -/

theorem State.newEntry_hub_mem (l : Launch) (k : KHead) (bs : List Byte) (s : State) :
    (s.newEntry l k bs).hub.mem = s.hub.mem := by
  unfold State.newEntry
  split
  · exact State.fallBack_hub_mem ..
  next base hb e =>
    have hhb : hb.mem = s.hub.mem := Hub.quireRoom_mem e
    exact (State.setDecision_hub_mem ..).trans hhb

theorem execCalenderDecision_keepsMemory (launch prof : Nat) :
    KeepsMemory (execCalenderDecision launch prof) := fun s => by
  unfold execCalenderDecision
  split
  · rfl
  next l g chip flight _ =>
    extract_lets t
    have ht : t.hub.mem = s.hub.mem := State.holdFlights_hub_mem ..
    split
    · exact congrArg some ((State.setDecision_hub_mem ..).trans ht)
    · extract_lets key hit r
      clear_value hit r
      split
      · exact congrArg some ((State.quireHit_hub_mem ..).trans ht)
      · split
        · exact congrArg some ((State.fallBack_hub_mem ..).trans ht)
        · exact congrArg some ((State.newEntry_hub_mem ..).trans ht)

end Sys2Proof.Machine
end

section
/-! The canonical form: every instruction and event, and the cycle of a hart. -/

namespace Sys2Proof.Machine

theorem exec_canonical (i : Instr) : KeepsCanonical (exec i) := fun s h => by
  unfold exec
  cases i with
  | nop _ | patrolScrub _ | dramCalibration _ | linkCalibration _ | rowDisturbanceManagement _ => exact h
  | hold _ => exact h.of_memAfter (execHold_keepsMemory ..)
  | br _ | call _ | brR _ | callR _ => exact h.of_memAfter (branchTo_keepsMemory ..)
  | loop _ => exact h.of_memAfter (execLoop_keepsMemory ..)
  | sleepUntil _ => exact h.of_memAfter (execSleepUntil_keepsMemory ..)
  | waitSem _ => exact h.of_memAfter (execWaitSem_keepsMemory ..)
  | detach _ => exact h.of_memAfter (execDetach_keepsMemory ..)
  | meet _ => exact h.of_memAfter (execMeet_keepsMemory ..)
  | retire _ => exact h.of_memAfter (execRetire_keepsMemory ..)
  | barArrive _ => exact h.of_memAfter (execBarArrive_keepsMemory ..)
  | barWait _ => exact h.of_memAfter (execBarWait_keepsMemory ..)
  | hypOpen _ | hypResolveConfirm _ | hypResolveRefute _ => exact h.of_memAfter (hubAsks_keepsMemory ..)
  | hypEnter _ => exact h.of_memAfter (execHypEnter_keepsMemory ..)
  | hypLeave _ => exact h.of_memAfter (execHypLeave_keepsMemory ..)
  | mouldOpen _ => exact h.of_memAfter (execMouldOpen_keepsMemory ..)
  | mouldCancel _ => exact h.of_memAfter (execMouldCancel_keepsMemory ..)
  | vbankAcq _ => exact h.of_memAfter (execVbankAcq_keepsMemory ..)
  | vbankRel _ => exact h.of_memAfter (execVbankRel_keepsMemory ..)
  | trap _ => exact h.of_memAfter (execTrap_keepsMemory ..)
  | sys _ => exact h.of_memAfter (execSys_keepsMemory ..)
  | bkpt _ => exact h.of_memAfter (execBkpt_keepsMemory ..)
  | eret _ => exact h.of_memAfter (execEret_keepsMemory ..)
  | add _ | sub _ | and _ | or _ | xor _ | shl _ | shr _ | sra _ | mul _ | mulhs _ | mulhu _ | div _ | divu _
    | rem _ | remu _ | mov _ | min _ | max _ | minu _ | maxu _ | bfx _ | bfxu _ | clz _ | ctz _ | popc _
    | bswap _ => exact h.of_memAfter (alu_keepsMemory ..)
  | bfi _ => exact h.of_memAfter (execBfi_keepsMemory ..)
  | sel _ _ => exact h.of_memAfter (execSel_keepsMemory ..)
  | addi _ | andi _ | ori _ | xori _ | shli _ | shri _ | srai _ | muli _ =>
    exact h.of_memAfter (aluI_keepsMemory ..)
  | movi _ => exact h.of_memAfter (execMovi_keepsMemory ..)
  | movsh _ => exact h.of_memAfter (execMovsh_keepsMemory ..)
  | cmpEq _ | cmpNe _ | cmpLt _ | cmpLe _ | cmpLtu _ | cmpLeu _ => exact h.of_memAfter (cmpR_keepsMemory ..)
  | cmpiEq _ | cmpiNe _ | cmpiLt _ | cmpiLe _ | cmpiLtu _ | cmpiLeu _ => exact h.of_memAfter (cmpI_keepsMemory ..)
  | pand _ | por _ | pxor _ | pnot _ => exact h.of_memAfter (predOp_keepsMemory ..)
  | faddF32 _ | fsubF32 _ | fmulF32 _ | fdivF32 _ | fsqrtF32 _ | fminF32 _ | fmaxF32 _ | faddF64 _ | fsubF64 _
    | fmulF64 _ | fdivF64 _ | fsqrtF64 _ | fminF64 _ | fmaxF64 _ => exact h.of_memAfter (fpOp_keepsMemory ..)
  | ffmaF32 _ | ffmaF64 _ => exact h.of_memAfter (ffmaOp_keepsMemory ..)
  | fcmpEqF32 _ | fcmpLtF32 _ | fcmpLeF32 _ | fcmpUnF32 _ | fcmpEqF64 _ | fcmpLtF64 _ | fcmpLeF64 _
    | fcmpUnF64 _ => exact h.of_memAfter (fcmpOp_keepsMemory ..)
  | fcvt _ => exact h.of_memAfter (execFcvt_keepsMemory ..)
  | rdsr _ => exact h.of_memAfter (execRdsr_keepsMemory ..)
  | wrsr _ => exact h.of_memAfter (execWrsr_keepsMemory ..)
  | tlbinv _ => exact h.of_memAfter (execTlbinv_keepsMemory ..)
  | tlbsync _ => exact h.of_memAfter (execTlbsync_keepsMemory ..)
  | ldB _ | ldH _ | ldW _ | ldD _ | ldBu _ | ldHu _ | ldWu _ => exact h.of_memAfter (scalarLoad_keepsMemory ..)
  | pf _ => exact h.of_memAfter (execPf_keepsMemory ..)
  | stB _ | stH _ | stW _ | stD _ => exact h.of_memAfter (scalarStore_keepsMemory ..)
  | vld _ => exact h.of_memAfter (execVld_keepsMemory ..)
  | vst _ => exact h.of_memAfter (execVst_keepsMemory ..)
  | tld _ => exact h.of_memAfter (execTld_keepsMemory ..)
  | tst _ => exact h.of_memAfter (execTst_keepsMemory ..)
  | vgath _ => exact h.of_memAfter (execVgath_keepsMemory ..)
  | vscat _ => exact h.of_memAfter (execVscat_keepsMemory ..)
  | amoAdd _ | amoMin _ | amoMax _ | amoMinu _ | amoMaxu _ | amoAnd _ | amoOr _ | amoXor _ | amoXchg _
    | amoCas _ => exact h.of_memAfter (amo_keepsMemory ..)
  | redAdd _ | redMin _ | redMax _ | redAnd _ | redOr _ | redXor _ => exact h.of_memAfter (red_keepsMemory ..)
  | monWait _ => exact h.of_memAfter (execMonWait_keepsMemory ..)
  | fenceScope _ => exact h.of_memAfter (execFenceScope_keepsMemory ..)
  | flushRegion _ => exact h.of_memAfter (execFlushRegion_keepsMemory ..)
  | vadd _ | vsub _ | vmul _ | vfma _ | vmin _ | vmax _ | vabs _ | vneg _ =>
    exact h.of_memAfter (elementwise_keepsMemory ..)
  | vand _ | vor _ | vxor _ | vnot _ | vmov _ => exact h.of_memAfter (bitwise_keepsMemory ..)
  | vshl _ => exact h.of_memAfter (execVshl_keepsMemory ..)
  | vshr _ => exact h.of_memAfter (execVshr_keepsMemory ..)
  | vsel _ => exact h.of_memAfter (execVsel_keepsMemory ..)
  | vcmpEq _ | vcmpNe _ | vcmpLt _ | vcmpLe _ => exact h.of_memAfter (vectorCmp_keepsMemory ..)
  | vrcp _ | vrsqrt _ | vsqrt _ | vexp2 _ | vlog2 _ | vtanh _ | vsin _ | vcos _ =>
    exact h.of_memAfter (transcendental_keepsMemory ..)
  | vcvt _ => exact h.of_memAfter (execVcvt_keepsMemory ..)
  | vquant _ => exact h.of_memAfter (execVquant_keepsMemory ..)
  | vdequant _ => exact h.of_memAfter (execVdequant_keepsMemory ..)
  | vmovi _ => exact h.of_memAfter (execVmovi_keepsMemory ..)
  | vredAdd _ => exact h.of_memAfter (execVredAdd_keepsMemory ..)
  | vredMin _ | vredMax _ => exact h.of_memAfter (vectorMinMax_keepsMemory ..)
  | vperm _ => exact h.of_memAfter (execVperm_keepsMemory ..)
  | vrot _ => exact h.of_memAfter (execVrot_keepsMemory ..)
  | vrng _ => exact h.of_memAfter (execVrng_keepsMemory ..)
  | accept _ => exact h.of_memAfter (execAccept_keepsMemory ..)
  | mand _ | mor _ | mxor _ | mandn _ | mnot _ => exact h.of_memAfter (maskOp_keepsMemory ..)
  | xBcast _ => exact h.of_memAfter (execXBcast_keepsMemory ..)
  | xFirst _ => exact h.of_memAfter (execXFirst_keepsMemory ..)
  | xLane _ => exact h.of_memAfter (execXLane_keepsMemory ..)
  | xAny _ => exact h.of_memAfter (execXAny_keepsMemory ..)
  | xAll _ => exact h.of_memAfter (execXAll_keepsMemory ..)
  | xNone _ => exact h.of_memAfter (execXNone_keepsMemory ..)
  | xCnt _ => exact h.of_memAfter (execXCnt_keepsMemory ..)
  | xPass _ => exact h.of_memAfter (execXPass_keepsMemory ..)
  | xRecv _ => exact h.of_memAfter (execXRecv_keepsMemory ..)
  | mma _ => exact h.of_memAfter (execMma_keepsMemory ..)
  | mmaQ _ => exact h.of_memAfter (execMmaQ_keepsMemory ..)
  | accClr _ => exact h.of_memAfter (execAccClr_keepsMemory ..)
  | accLd _ => exact h.of_memAfter (execAccLd_keepsMemory ..)
  | accSt _ => exact h.of_memAfter (execAccSt_keepsMemory ..)
  | accCvt _ => exact h.of_memAfter (execAccCvt_keepsMemory ..)
  | latchRel _ => exact h.of_memAfter (execLatchRel_keepsMemory ..)
  | omSet _ => exact h.of_memAfter (execOmSet_keepsMemory ..)
  | copyGv _ | copyVg _ | copyVv _ | copyGg _ => exact h.of_memAfter (copyOp_keepsMemory ..)
  | copyTile _ => exact h.of_memAfter (execCopyTile_keepsMemory ..)
  | copyIdx _ => exact h.of_memAfter (execCopyIdx_keepsMemory ..)
  | copyCheck _ => exact h.of_memAfter (execCopyCheck_keepsMemory ..)
  | semAdd _ | semSub _ | semSet _ => exact h.of_memAfter (semOp_keepsMemory ..)
  | sigWr _ => exact h.of_memAfter (execSigWr_keepsMemory ..)
  | grpRed _ => exact h.of_memAfter (execGrpRed_keepsMemory ..)
  | netPut _ | netGet _ => exact h.of_memAfter (netOp_keepsMemory ..)
  | exposedResultLands _ => exact execExposedResultLands_canonical _ s h
  | xPassEntryArrives _ => exact execXPassEntryArrives_canonical _ s h
  | mxOccupancyEnd _ => exact h.of_memAfter (execMxOccupancyEnd_keepsMemory ..)
  | freeze _ => exact h.of_memAfter (execFreeze_keepsMemory ..)
  | freezeEnd _ => exact h.of_memAfter (execFreezeEnd_keepsMemory ..)
  | flightResumeAtMeet _ _ => exact h.of_memAfter (execFlightResumeAtMeet_keepsMemory ..)
  | groupArrival _ _ => exact h.of_memAfter (execGroupArrival_keepsMemory ..)
  | gangPark _ _ => exact h.of_memAfter (execGangPark_keepsMemory ..)
  | parkedGangWake _ _ => exact h.of_memAfter (execParkedGangWake_keepsMemory ..)
  | monWaitRecheck _ => exact h.of_memAfter (execMonWaitRecheck_keepsMemory ..)
  | watchTrigger _ => exact h.of_memAfter (execWatchTrigger_keepsMemory ..)
  | baseTimeRise => exact h.of_memAfter (execBaseTimeRise_keepsMemory ..)
  | logicalTimePause => exact h.of_memAfter (execLogicalTimePause_keepsMemory ..)
  | writeStamp _ => exact execWriteStamp_canonical _ s h
  | leaseFill _ _ => exact h.of_memAfter (execLeaseFill_keepsMemory ..)
  | invalidationAck _ _ => exact execInvalidationAck_canonical _ _ s h
  | peerFill _ _ _ => exact execPeerFill_canonical _ _ _ s h
  | evictionNotice _ _ => exact execEvictionNotice_canonical _ _ s h
  | recallLine _ => exact execRecallLine_canonical _ s h
  | atomicAtHome _ => exact execAtomicAtHome_canonical _ s h
  | lockedSequenceTimeout _ _ => exact h.of_memAfter (execLockedSequenceTimeout_keepsMemory ..)
  | vaultStoreLands _ => exact execVaultStoreLands_canonical _ s h
  | fenceTimeout _ => exact h.of_memAfter (execFenceTimeout_keepsMemory ..)
  | hypothesisFull _ => exact h.of_memAfter (execHypothesisFull_keepsMemory ..)
  | engineVersionTimeout _ _ => exact h.of_memAfter (execEngineVersionTimeout_keepsMemory ..)
  | hypothesisLost _ => exact h.of_memAfter (execHypothesisLost_keepsMemory ..)
  | copyComplete _ _ => exact execCopyComplete_canonical _ _ s h
  | netComplete _ _ _ _ => exact h.of_memAfter (execNetComplete_keepsMemory ..)
  | engineTranslationFault _ _ => exact h.of_memAfter (execEngineTranslationFault_keepsMemory ..)
  | missedPromiseLatch _ => exact h.of_memAfter (execMissedPromiseLatch_keepsMemory ..)
  | missedPromise _ => exact h.of_memAfter (execMissedPromise_keepsMemory ..)
  | semGgLands _ => exact h.of_memAfter (execSemGgLands_keepsMemory ..)
  | memoryError _ => exact h.of_memAfter (execMemoryError_keepsMemory ..)
  | translationWalk _ _ _ => exact h.of_memAfter (execTranslationWalk_keepsMemory ..)
  | tlbinvComplete _ => exact h.of_memAfter (execTlbinvComplete_keepsMemory ..)
  | debugStep _ => exact h.of_memAfter (execDebugStep_keepsMemory ..)
  | coreEvent _ => exact h.of_memAfter (execCoreEvent_keepsMemory ..)
  | timerExpiry _ => exact h.of_memAfter (execTimerExpiry_keepsMemory ..)
  | treadStateError _ _ _ => exact h.of_memAfter (execTreadStateError_keepsMemory ..)
  | uncorrectableError _ => exact h.of_memAfter (execUncorrectableError_keepsMemory ..)
  | lineRead _ => exact h.of_memAfter (execLineRead_keepsMemory ..)
  | lineWrite _ _ _ => exact execLineWrite_canonical _ _ _ s h
  | tileRead _ _ _ => exact h.of_memAfter (execTileRead_keepsMemory ..)
  | tileWrite _ _ _ _ => exact execTileWrite_canonical _ _ _ _ s h
  | regionClean _ _ => exact h.of_memAfter (execRegionClean_keepsMemory ..)
  | regionInvalidate _ _ => exact h.of_memAfter (execRegionInvalidate_keepsMemory ..)
  | configurationRead _ _ => exact h.of_memAfter (execConfigurationRead_keepsMemory ..)
  | configurationWrite _ _ _ => exact h.of_memAfter (execConfigurationWrite_keepsMemory ..)
  | hashVersionAdopt _ => exact h.of_memAfter (execHashVersionAdopt_keepsMemory ..)
  | beaterMove _ => exact h.of_memAfter (execBeaterMove_keepsMemory ..)
  | flitReceive _ _ _ _ => exact execFlitReceive_canonical _ _ _ _ s h
  | deadLink _ => exact execDeadLink_canonical _ s h
  | linkUp _ _ => exact h.of_memAfter (execLinkUp_keepsMemory ..)
  | hostSnoop _ _ => exact h.of_memAfter (execHostSnoop_keepsMemory ..)
  | inboundHostRequest _ => exact execInboundHostRequest_canonical _ s h
  | incomingRdma _ => exact execIncomingRdma_canonical _ s h
  | doorbell _ _ => exact execDoorbell_canonical _ _ s h
  | dispatchPacket _ _ => exact execDispatchPacket_canonical _ _ s h
  | barrierPacket _ _ => exact execBarrierPacket_canonical _ _ s h
  | signalPacket _ _ => exact execSignalPacket_canonical _ _ s h
  | barrierEvaluate _ _ => exact execBarrierEvaluate_canonical _ _ s h
  | barrierSignalReread _ _ => exact execBarrierSignalReread_canonical _ _ s h
  | dispatchComplete _ => exact execDispatchComplete_canonical _ s h
  | gangPlace _ _ _ _ => exact execGangPlace_canonical _ _ _ _ s h
  | calenderDecision _ _ => exact h.of_memAfter (execCalenderDecision_keepsMemory ..)
  | gangPreempt _ _ => exact h.of_memAfter (execGangPreempt_keepsMemory ..)
  | contextSave _ _ => exact h.of_memAfter (execContextSave_keepsMemory ..)
  | contextSpill _ _ => exact h.of_memAfter (execContextSpill_keepsMemory ..)
  | gangRestore _ _ _ _ => exact execGangRestore_canonical _ _ _ _ s h
  | agingTick _ _ => exact h.of_memAfter (execAgingTick_keepsMemory ..)
  | sliceTimerTick => exact h.of_memAfter (execSliceTimerTick_keepsMemory ..)
  | qctlActivate _ _ => exact execQctlActivate_canonical _ _ s h
  | qctlDisable _ _ => exact execQctlDisable_canonical _ _ s h
  | qctlReset _ _ => exact execQctlReset_canonical _ _ s h
  | ncrqMakeNoncoherent _ => exact h.of_memAfter (execNcrqMakeNoncoherent_keepsMemory ..)
  | ncrqMakeCoherent _ => exact h.of_memAfter (execNcrqMakeCoherent_keepsMemory ..)
  | preqPreempt _ => exact h.of_memAfter (execPreqPreempt_keepsMemory ..)
  | preqPreemptHold _ => exact h.of_memAfter (execPreqPreemptHold_keepsMemory ..)
  | preqRelease _ => exact h.of_memAfter (execPreqRelease_keepsMemory ..)
  | chctlAssign _ _ => exact h.of_memAfter (execChctlAssign_keepsMemory ..)
  | chctlUnassign _ => exact h.of_memAfter (execChctlUnassign_keepsMemory ..)
  | chctlIsolate _ => exact h.of_memAfter (execChctlIsolate_keepsMemory ..)
  | isolationSaveTimeout _ => exact h.of_memAfter (execIsolationSaveTimeout_keepsMemory ..)
  | isolationDrainTimeout _ => exact h.of_memAfter (execIsolationDrainTimeout_keepsMemory ..)
  | chctlReset _ => exact execChctlReset_canonical _ s h
  | chctlEnumerate _ => exact h.of_memAfter (execChctlEnumerate_keepsMemory ..)
  | chctlAssignPort _ _ => exact h.of_memAfter (execChctlAssignPort_keepsMemory ..)
  | chctlUnassignPort _ => exact h.of_memAfter (execChctlUnassignPort_keepsMemory ..)
  | ncoreStart _ => exact h.of_memAfter (execNcoreStart_keepsMemory ..)
  | ncoreHalt _ => exact h.of_memAfter (execNcoreHalt_keepsMemory ..)
  | ndoorWrite _ _ => exact h.of_memAfter (execNdoorWrite_keepsMemory ..)
  | mdoorWrite _ => exact h.of_memAfter (execMdoorWrite_keepsMemory ..)
  | tcmpWrite _ _ => exact h.of_memAfter (execTcmpWrite_keepsMemory ..)
  | calctlQuotaWrite _ _ => exact h.of_memAfter (execCalctlQuotaWrite_keepsMemory ..)
  | calctlFlush _ => exact h.of_memAfter (execCalctlFlush_keepsMemory ..)
  | calstClear _ => exact h.of_memAfter (execCalstClear_keepsMemory ..)
  | connbWrite _ _ => exact execConnbWrite_canonical _ _ s h
  | pquotaWrite _ _ => exact h.of_memAfter (execPquotaWrite_keepsMemory ..)
  | mextWrite _ => exact h.of_memAfter (execMextWrite_keepsMemory ..)
  | dirqWrite _ => exact h.of_memAfter (execDirqWrite_keepsMemory ..)
  | pknumWrite _ => exact h.of_memAfter (execPknumWrite_keepsMemory ..)
  | ctxresWrite _ => exact h.of_memAfter (execCtxresWrite_keepsMemory ..)
  | counterClearWrite _ _ => exact h.of_memAfter (execCounterClearWrite_keepsMemory ..)
  | islReqWrite _ _ => exact h.of_memAfter (execIslReqWrite_keepsMemory ..)
  | islandLevelChange _ => exact h.of_memAfter (execIslandLevelChange_keepsMemory ..)
  | pwrctlWrite _ => exact h.of_memAfter (execPwrctlWrite_keepsMemory ..)
  | powerControlSample _ => exact h.of_memAfter (execPowerControlSample_keepsMemory ..)
  | telselWrite _ => exact h.of_memAfter (execTelselWrite_keepsMemory ..)
  | registerWrite _ _ => exact h.of_memAfter (execRegisterWrite_keepsMemory ..)
  | thermalTrip => exact h.of_memAfter (execThermalTrip_keepsMemory ..)
  | packageReset => exact execPackageReset_canonical s h
  | getVersion _ => exact h.of_memAfter (execGetVersion_keepsMemory ..)
  | getCapabilities _ => exact h.of_memAfter (execGetCapabilities_keepsMemory ..)
  | negotiateAlgorithms _ _ => exact h.of_memAfter (execNegotiateAlgorithms_keepsMemory ..)
  | getDigests _ => exact h.of_memAfter (execGetDigests_keepsMemory ..)
  | getCertificate _ _ _ => exact h.of_memAfter (execGetCertificate_keepsMemory ..)
  | challenge _ _ => exact h.of_memAfter (execChallenge_keepsMemory ..)
  | getMeasurements _ _ _ => exact h.of_memAfter (execGetMeasurements_keepsMemory ..)
  | readTelemetryMessage _ _ => exact h.of_memAfter (execReadTelemetryMessage_keepsMemory ..)
  | readBstatMessage => exact h.of_memAfter (execReadBstatMessage_keepsMemory ..)
  | setPwrctlOobMessage _ => exact h.of_memAfter (execSetPwrctlOobMessage_keepsMemory ..)
  | readyReturn _ => exact h.of_memAfter (execReadyReturn_keepsMemory ..)
  | cxlDeviceAcknowledgement _ _ => exact execCxlDeviceAcknowledgement_canonical _ _ s h
  | hostWriteComplete _ _ => exact execHostWriteComplete_canonical _ _ s h
  | resolveComplete _ => exact execResolveComplete_canonical _ s h
  | mainInputOff => exact h.of_memAfter (execMainInputOff_keepsMemory ..)

/-! ### Values that may be absent -/

/-- What holds of a value where there is one. -/
def IfSome {α : Type} (P : α → Prop) : Option α → Prop
  | some a => P a
  | none => True

theorem IfSome.of_eq {α : Type} {P : α → Prop} {o : Option α} {a : α} (h : IfSome P o) (e : o = some a) : P a := by
  subst e
  exact h

theorem IfSome.ite {α : Type} {P : α → Prop} {c : Prop} [Decidable c] {o p : Option α} (ho : IfSome P o)
    (hp : IfSome P p) : IfSome P (if c then o else p) := by
  split
  · exact ho
  · exact hp

theorem IfSome.orElse {α : Type} {P : α → Prop} {o p : Option α} (ho : IfSome P o) (hp : IfSome P p) :
    IfSome P (o <|> p) := by
  cases o with
  | some a => exact ho
  | none => exact hp

theorem IfSome.findSome? {α β : Type} {P : β → Prop} {f : α → Option β} (hf : ∀ a, IfSome P (f a)) (l : List α) :
    IfSome P (l.findSome? f) := by
  cases e : l.findSome? f with
  | none => trivial
  | some b =>
    obtain ⟨a, -, ha⟩ := List.exists_of_findSome?_eq_some e
    exact (hf a).of_eq ha

theorem IfSome.map {α β : Type} {P : β → Prop} {f : α → β} (hf : ∀ a, P (f a)) (o : Option α) :
    IfSome P (o.map f) := by
  cases o with
  | some a => exact hf a
  | none => trivial

theorem IfSome.bind {α β : Type} {P : β → Prop} {f : α → Option β} (hf : ∀ a, IfSome P (f a)) (o : Option α) :
    IfSome P (o.bind f) := by
  cases o with
  | some a => exact hf a
  | none => trivial

/-! ### One operation -/

theorem State.perform_hub_mem {f : Sem} (hf : KeepsMemory f) (s : State) : (s.perform f).hub.mem = s.hub.mem := by
  have e := hf s
  unfold State.perform
  split
  next t h => exact Option.some.inj ((congrArg memAfter h).symm.trans e)
  next => rfl

theorem State.perform_canonical {f : Sem} {s : State} (hf : KeepsCanonical f) (h : MemoryCanonical s) :
    MemoryCanonical (s.perform f) := by
  have ht := hf s h
  unfold State.perform
  split
  next t e =>
    rw [e] at ht
    exact ht
  next => exact h

theorem State.trial_canonical {o : Slotted} {s : State} (h : MemoryCanonical s) : MemoryCanonical (s.trial o) :=
  State.perform_canonical (exec_canonical o.ins) (h.of_mem (State.prep_hub_mem ..))

theorem State.keepSent_hub_mem (o : Slotted) (r s : State) : (State.keepSent o r s).hub.mem = s.hub.mem := by
  unfold State.keepSent
  extract_lets t
  have ht : t.hub.mem = s.hub.mem := State.modMe_hub_mem _ s
  split
  · split
    · exact (State.modMe_hub_mem ..).trans ((State.prep_hub_mem ..).trans ht)
    · exact ht
  · exact ht

theorem State.waitAll_canonical {os : List Slotted} {s : State} (h : MemoryCanonical s) :
    MemoryCanonical (s.waitAll os) := by
  unfold State.waitAll
  extract_lets t
  have ht : MemoryCanonical t := State.foldl_canonical (fun s o h => by
    extract_lets r
    have hr : MemoryCanonical r := State.trial_canonical h
    split
    · exact hr
    · split
      · exact hr.of_mem (State.keepSent_hub_mem ..)
      · exact h) h
  split
  · exact ht
  · exact ht

theorem State.issueRun_canonical {os : List Slotted} {s : State} (h : MemoryCanonical s) :
    MemoryCanonical (s.issueRun os).2 :=
  List.foldlRecOn (motive := fun (acc : List Slotted × State) => MemoryCanonical acc.2) os _ h fun acc ha o _ => by
    extract_lets r
    split
    · exact State.trial_canonical ha
    · exact ha

theorem State.issueAll_canonical {a : VAddr} {os : List Slotted} {s : State} (h : MemoryCanonical s) :
    MemoryCanonical (s.issueAll a os).2 := by
  have hr : MemoryCanonical (State.issueRun (issueOrder os)
      ((s.modMe (Hart.atIssue s.hub.base s.hub.clk os)).modMe (Hart.setOut .ok))).2 := State.issueRun_canonical h
  unfold State.issueAll
  dsimp only
  split
  · exact hr.of_mem (State.modMe_hub_mem ..)
  · exact hr.of_mem ((State.modMe_hub_mem ..).trans (State.modMe_hub_mem ..))

theorem State.tryOp_canonical {bad : List Slotted} {o : Slotted} {s : State} (h : MemoryCanonical s) :
    MemoryCanonical (s.tryOp bad o).st := by
  have hr : MemoryCanonical (s.trial o) := State.trial_canonical h
  unfold State.tryOp
  dsimp only
  split
  · exact h.of_mem ((State.perform_hub_mem (fun s => State.illegal_memAfter 9 s) _).trans (State.prep_hub_mem ..))
  · split
    · exact hr.of_mem (State.perform_hub_mem (execHypothesisFull_keepsMemory _) _)
    · exact hr

/-! ### One bundle, one sequencer cycle -/

/-- The operations that were tried all end in states with canonical memory. -/
def TriesCanonical (ts : List Tried) : Prop := ∀ t ∈ ts, MemoryCanonical t.st

theorem TriesCanonical.append_map_tryOp {pre : List Tried} {bad os : List Slotted} {s : State}
    (hpre : TriesCanonical pre) (h : MemoryCanonical s) :
    TriesCanonical (pre ++ os.map (fun o => s.tryOp bad o)) := fun t ht => by
  obtain ht | ht := List.mem_append.mp ht
  · exact hpre t ht
  · obtain ⟨o, -, rfl⟩ := List.mem_map.mp ht
    exact State.tryOp_canonical h

/-- What stops a bundle is one of the operations that were tried. -/
theorem stopOf_canonical {old : Option Stall} {a : VAddr} {s t : State} {ts us : List Tried} (h : TriesCanonical ts)
    (hsub : ∀ x ∈ us, x ∈ ts) (e : stopOf old a s us = some t) : MemoryCanonical t := by
  obtain ⟨x, hx, hm⟩ := stopOf_hub_mem e
  exact (h x (hsub x hx)).of_mem hm

theorem State.examineAt_canonical {a : VAddr} {as : List VAddr} {pre : List Tried} {os : List Slotted} {s : State}
    (hpre : TriesCanonical pre) (h : MemoryCanonical s) : MemoryCanonical (s.examineAt a as pre os) := by
  have hbase : MemoryCanonical (s.modMe Hart.beginCycle) := h
  have hdone : MemoryCanonical ((s.modMe Hart.beginCycle).issueAll a os).2 := State.issueAll_canonical hbase
  unfold State.examineAt
  dsimp only
  split
  next t e =>
    obtain ⟨b, -, hb⟩ := List.exists_of_findSome?_eq_some e
    exact stopOf_canonical (hpre.append_map_tryOp hbase) (fun _ hx => List.mem_of_mem_filter hx) hb
  next =>
    split
    · exact hdone
    · exact State.waitAll_canonical hbase

theorem TriesCanonical.nil : TriesCanonical [] := fun _ ht => absurd ht List.not_mem_nil

theorem State.examine_canonical {a : VAddr} {os : List Slotted} {s : State} (h : MemoryCanonical s) :
    MemoryCanonical (s.examine a os) :=
  State.examineAt_canonical .nil h

theorem State.examineBundle_canonical {a : VAddr} {bytes : List Byte} {s : State} (h : MemoryCanonical s) :
    MemoryCanonical (s.examineBundle a bytes) := by
  unfold State.examineBundle
  split
  · exact h
  · exact h.of_mem (State.decodeTrap_hub_mem ..)
  · extract_lets os
    split
    · exact h
    · exact State.examine_canonical h

theorem State.examineHere_canonical {s : State} (h : MemoryCanonical s) : MemoryCanonical s.examineHere :=
  State.examineBundle_canonical h

theorem State.loopCycle_tries_canonical {l : LoopSt} {s : State} (h : MemoryCanonical s) :
    TriesCanonical (s.loopCycle l).2.2.1 := fun t ht => by
  obtain ⟨f, -, hf⟩ := List.mem_filterMap.mp ht
  split at hf
  · obtain rfl := Option.some.inj hf
    exact h.of_mem (State.decodeTrap_hub_mem ..)
  · split at hf
    · obtain rfl := Option.some.inj hf
      exact h.of_mem (State.decodeTrap_hub_mem ..)
    · cases hf
  · cases hf

theorem State.examineLoop_canonical {l : LoopSt} {s : State} (h : MemoryCanonical s) :
    MemoryCanonical (s.examineLoop l) := by
  unfold State.examineLoop
  split
  · exact h.of_mem (State.idle_hub_mem ..)
  · extract_lets x t
    have ht : MemoryCanonical t := State.examineAt_canonical (State.loopCycle_tries_canonical h) h
    split
    · exact ht.of_mem (State.modMe_hub_mem ..)
    · exact ht

/-! ### The end of a cycle -/

theorem State.endFrozen_canonical {s : State} (h : MemoryCanonical s) : MemoryCanonical s.endFrozen :=
  h.of_mem (State.endFrozen_hub_mem s)

theorem State.endCycle_canonical {s : State} (h : MemoryCanonical s) : MemoryCanonical s.endCycle :=
  State.endFrozen_canonical (State.landDue_canonical (h.of_mem (State.modMe_hub_mem ..)))

theorem State.endAfter_canonical {s : State} (h : MemoryCanonical s) : MemoryCanonical s.endAfter := by
  unfold State.endAfter
  split
  · exact State.endCycle_canonical h
  · exact (State.endCycle_canonical (h.of_mem (State.modMe_hub_mem ..))).of_mem (State.modMe_hub_mem ..)

theorem State.endStalled_canonical {s : State} (h : MemoryCanonical s) : MemoryCanonical s.endStalled :=
  State.endCycle_canonical (h.of_mem (State.modMe_hub_mem ..))

theorem State.commitMe_canonical {s : State} (h : MemoryCanonical s) : MemoryCanonical s.commitMe :=
  h.of_mem (State.commitMe_hub_mem s)

/-! ### The cycle of a hart of its own -/

theorem State.examineOwn_canonical {s : State} (h : MemoryCanonical s) : MemoryCanonical s.examineOwn := by
  unfold State.examineOwn
  split
  · exact h.of_mem (State.idle_hub_mem ..)
  · split
    · exact State.examineLoop_canonical h
    · exact State.examineHere_canonical h

theorem State.finishOwn_canonical {s : State} (h : MemoryCanonical s) : MemoryCanonical s.finishOwn := by
  unfold State.finishOwn
  split
  · exact State.endFrozen_canonical h
  · exact State.endStalled_canonical h
  · split
    · exact State.endAfter_canonical (State.commitMe_canonical h)
    · exact State.endCycle_canonical h
  · exact State.endCycle_canonical (State.commitMe_canonical h)

theorem State.issueOwn_canonical {s : State} (h : MemoryCanonical s) : MemoryCanonical s.issueOwn := by
  unfold State.issueOwn
  extract_lets r back
  have hr : MemoryCanonical r := State.examineOwn_canonical h
  split
  · exact (State.commitMe_canonical hr).of_mem (State.modMe_hub_mem ..)
  · exact State.finishOwn_canonical hr

/-- The events between two bundles leave memory as it is. -/
theorem State.boundary_keepsMemory (s : State) : IfSome (fun ev => KeepsMemory ev.1) s.boundary := by
  unfold State.boundary
  extract_lets h fault
  clear_value fault
  split
  · trivial
  · split
    · split
      · exact execDebugStep_keepsMemory _
      · trivial
    · split
      · exact execTreadStateError_keepsMemory _ _ _
      · exact execMemoryError_keepsMemory _
      · exact execEngineTranslationFault_keepsMemory _ _
      · split
        · exact execMissedPromise_keepsMemory _
        · split
          · exact execHypothesisLost_keepsMemory _
          · split
            · exact execDebugStep_keepsMemory _
            · split
              · exact execCoreEvent_keepsMemory _
              · trivial

theorem State.boundaries_fst_hub_mem (ids : List HartId) (s : State) : (s.boundaries ids).1.hub.mem = s.hub.mem :=
  List.foldlRecOn (motive := fun (acc : State × Bool) => acc.1.hub.mem = s.hub.mem) ids _ rfl fun acc ha id _ => by
    split
    · exact ha
    next t e =>
      have ht : t.hub.mem = s.hub.mem := (State.focus_hub_mem e).trans ha
      split
      next ev hev => exact (State.perform_hub_mem ((State.boundary_keepsMemory t).of_eq hev) t).trans ht
      next => exact ht

theorem State.fetchFault_canonical {f : FRes} {s : State} (h : MemoryCanonical s) :
    MemoryCanonical (s.fetchFault f) :=
  h.of_mem (State.fetchFault_hub_mem f s)

theorem State.ownCycle_canonical {s : State} (h : MemoryCanonical s) : MemoryCanonical s.ownCycle := by
  unfold State.ownCycle
  split
  · exact State.bootStep_canonical h
  · split
    · exact State.endFrozen_canonical h
    · have hfetch : MemoryCanonical (if s.me.meets then (FetchEnd.ready, s) else s.mayEvict.fetchOwn).2 := by
        split
        · exact h
        · exact h.of_mem ((State.fetchOwn_snd_hub_mem _).trans (State.mayEvict_hub_mem s))
      split
      next f t e =>
        have ht : MemoryCanonical t := (congrArg (MemoryCanonical ·.2) e).mp hfetch
        split
        · exact State.endFrozen_canonical ht
        · split
          next ev hev =>
            exact State.endCycle_canonical
              (ht.of_mem (State.perform_hub_mem ((State.boundary_keepsMemory t).of_eq hev) t))
          next =>
            split
            · exact State.endCycle_canonical (ht.of_mem (State.modMe_hub_mem ..))
            · split
              · exact State.endCycle_canonical (State.fetchFault_canonical ht)
              · extract_lets r
                have hr : MemoryCanonical r.commitMe := State.commitMe_canonical (State.examineOwn_canonical ht)
                have hf : MemoryCanonical r.commitMe.fetchOwn.2 := hr.of_mem (State.fetchOwn_snd_hub_mem _)
                split
                · split
                  next u eu =>
                    have hu : MemoryCanonical u := (congrArg (MemoryCanonical ·.2) eu).mp hf
                    split
                    · exact State.endCycle_canonical (hu.of_mem (State.modMe_hub_mem ..))
                    · exact State.issueOwn_canonical hu
                  next u eu =>
                    have hu : MemoryCanonical u := (congrArg (MemoryCanonical ·.2) eu).mp hf
                    exact State.endFrozen_canonical hu
                  next r' u eu =>
                    have hu : MemoryCanonical u := (congrArg (MemoryCanonical ·.2) eu).mp hf
                    exact State.endCycle_canonical (State.fetchFault_canonical hu)
                · exact State.issueOwn_canonical ht

/-! ### The cycle of a flight -/

theorem State.presentOps_canonical {a : VAddr} {as : List VAddr} {pre : List Tried} {os : List Slotted} {s : State}
    (hpre : TriesCanonical pre) (h : MemoryCanonical s) : MemoryCanonical (s.presentOps a as pre os) := by
  unfold State.presentOps
  extract_lets base tries
  split
  · exact h.of_mem (State.idle_hub_mem ..)
  · split
    · exact State.examineAt_canonical hpre h
    · have hbase : MemoryCanonical base := h
      exact (State.waitAll_canonical hbase).of_mem ((State.idle_hub_mem ..).trans (State.modMe_hub_mem ..))

theorem State.present_canonical {a : VAddr} {line : Option (Nat × List Byte)} {s : State} (h : MemoryCanonical s) :
    MemoryCanonical (s.present a line) := by
  unfold State.present
  split
  · exact h.of_mem (State.idle_hub_mem ..)
  · extract_lets t
    have ht : MemoryCanonical t := h
    split
    · exact State.presentOps_canonical .nil ht
    · exact h.of_mem (State.idle_hub_mem ..)

theorem State.presentLoop_canonical {s : State} (h : MemoryCanonical s) : MemoryCanonical s.presentLoop := by
  unfold State.presentLoop
  split
  · exact State.presentOps_canonical (State.loopCycle_tries_canonical h) h
  · exact h.of_mem (State.idle_hub_mem ..)

theorem State.examineRank_canonical {lead : Bool} {virt : Option Item} {s : State} (h : MemoryCanonical s) :
    MemoryCanonical (s.examineRank lead virt) := by
  unfold State.examineRank
  extract_lets x due
  clear_value due
  split
  · split
    · exact h
    · exact h.of_mem (State.idle_hub_mem ..)
  · split
    · exact State.examineLoop_canonical h
    · exact h
    · extract_lets t
      have ht : MemoryCanonical t := h
      split
      · exact ht.of_mem ((State.modMe_hub_mem ..).trans (State.idle_hub_mem ..))
      · exact State.examineHere_canonical (ht.of_mem (State.modMe_hub_mem ..))
    · split
      · split
        · exact State.present_canonical h
        · exact h.of_mem (State.idle_hub_mem ..)
      · split
        · exact State.examineHere_canonical h
        · exact h.of_mem (State.idle_hub_mem ..)

theorem State.keepOnly_canonical {k : Keep} {lead : HartId} {it : Option Item} {ids : List HartId} {s : State}
    (h : MemoryCanonical s) : MemoryCanonical (s.keepOnly k lead it ids) :=
  State.each_canonical (fun s h => by
    extract_lets id r
    have hr : MemoryCanonical r := State.examineRank_canonical h
    split
    · exact hr
    · exact h) h

theorem State.goCycle_canonical {lead : HartId} {it : Option Item} {ids : List HartId} {t : State}
    (h : MemoryCanonical t) : MemoryCanonical (t.goCycle lead it ids) := by
  unfold State.goCycle
  extract_lets rs posted committed settled
  have hc : MemoryCanonical committed := State.each_canonical (fun s h =>
    (State.commitMe_canonical h).of_mem (State.modMe_hub_mem ..)) h
  have hs : MemoryCanonical settled := by
    unfold settled
    split
    · exact hc
    · split
      · exact hc.of_mem (State.settleItem_hub_mem ..)
      · exact hc.of_mem (State.pushItem_hub_mem ..)
  refine State.each_canonical (fun s h => ?_) hs
  extract_lets u
  have hu : MemoryCanonical u := h
  split
  · exact State.endAfter_canonical hu
  · exact State.endCycle_canonical hu

end Sys2Proof.Machine
end

section
/-! The canonical form: the cycle of a flight, the agenda of events, and one step. -/

namespace Sys2Proof.Machine

/-! ### A flight that stalls, wakes or goes on -/

/-- Where a flight stalls, a rank that is behind goes on, and the others present their bundle, stall or wait. -/
theorem State.stallCycle_canonical {lead : HartId} {it : Option Item} {ids : List HartId} {outs : List (HartId × Out)}
    {s : State} (h : MemoryCanonical s) : MemoryCanonical (s.stallCycle lead it ids outs) := by
  unfold State.stallCycle
  extract_lets posted stuck b c moved push pushed
  have hmoved : MemoryCanonical moved := by
    refine State.each_canonical (fun s h => ?_) h
    extract_lets x virt here early r
    have hrank : MemoryCanonical (s.examineRank (x.id = lead) virt) := State.examineRank_canonical h
    have hr : MemoryCanonical r := by
      unfold r
      split
      · exact h.of_mem (State.idle_hub_mem ..)
      · exact hrank
    clear_value early
    split
    · split
      · exact State.endCycle_canonical ((State.commitMe_canonical hr).of_mem (State.modMe_hub_mem ..))
      · split
        · exact State.endAfter_canonical (State.commitMe_canonical hr)
        · exact State.endCycle_canonical hr
      · exact State.endStalled_canonical hr
    · split
      · exact State.endStalled_canonical (hrank.of_mem (State.modMe_hub_mem ..))
      · split
        · split
          · exact State.endStalled_canonical (State.present_canonical h)
          · exact State.endStalled_canonical (State.present_canonical h)
          · split
            · exact State.endStalled_canonical (State.present_canonical h)
            · exact State.endStalled_canonical h
        · split
          · exact State.endStalled_canonical (State.presentLoop_canonical h)
          · exact State.endStalled_canonical h
  have hpushed : MemoryCanonical pushed := by
    unfold pushed
    split
    · split
      · exact hmoved.of_mem ((State.mapHart_hub_mem ..).trans (State.pushItem_hub_mem ..))
      · exact hmoved
    · exact hmoved
  exact State.each_canonical (fun s h => h.of_mem (State.modMe_hub_mem ..)) hpushed

theorem State.eachEndFrozen_canonical {ids : List HartId} {s : State} (h : MemoryCanonical s) :
    MemoryCanonical (s.each ids State.endFrozen) :=
  State.each_canonical (fun _ => State.endFrozen_canonical) h

theorem State.flightIssue_canonical {lead : HartId} {it : Option Item} {ids : List HartId} {s : State}
    (h : MemoryCanonical s) : MemoryCanonical (s.flightIssue lead it ids) := by
  unfold State.flightIssue
  extract_lets t outs
  have ht : MemoryCanonical t := State.each_canonical (fun s h => State.examineRank_canonical h) h
  split
  · exact State.eachEndFrozen_canonical (State.keepOnly_canonical h)
  · split
    · exact (State.keepOnly_canonical h).of_mem (State.passStopped_hub_mem ..)
    · split
      · exact State.stallCycle_canonical h
      · exact State.goCycle_canonical ht

theorem State.wakes_canonical {lead : HartId} {it : Option Item} {ids : List HartId} {s : State}
    (h : MemoryCanonical s) : IfSome MemoryCanonical (s.wakes lead it ids) := by
  unfold State.wakes
  split
  next it =>
    extract_lets mine hs t
    have ht : MemoryCanonical t := State.each_canonical (fun s h => State.examineRank_canonical h) h
    split
    · split
      · exact ht.of_mem (State.wakeLead_hub_mem ..)
      · trivial
    · trivial
  next => trivial

theorem State.fetchLead_canonical {lead : HartId} {s t : State} {f : FetchEnd} (h : MemoryCanonical s)
    (e : s.fetchLead lead = (f, t)) : MemoryCanonical t :=
  h.of_mem ((congrArg (·.2.hub.mem) e).symm.trans (State.fetchLead_snd_hub_mem lead s))

/-- The fetch of the leader traps: the ranks that trap do so, and the others let the cycle pass. -/
theorem State.flightTrap_canonical {lead : HartId} {it : Option Item} {ids here : List HartId} {f : FRes} {s : State}
    (h : MemoryCanonical s) :
    MemoryCanonical ((State.keepOnly .traps lead it ids (s.fetchFault f)).passStopped here) :=
  (State.keepOnly_canonical (State.fetchFault_canonical h)).of_mem (State.passStopped_hub_mem ..)

theorem State.flightGo_canonical {here : List HartId} {s : State} (h : MemoryCanonical s) :
    MemoryCanonical (s.flightGo here) := by
  unfold State.flightGo
  split
  · exact h
  · split
    next t e => exact State.eachEndFrozen_canonical (State.fetchLead_canonical h e)
    next f t e => exact State.flightTrap_canonical (State.fetchLead_canonical h e)
    next t e =>
      have ht : MemoryCanonical t := State.fetchLead_canonical h e
      extract_lets it
      split
      · exact State.flightIssue_canonical ht
      next u eu =>
        have hu : MemoryCanonical u := (State.wakes_canonical ht).of_eq eu
        split
        next v ev => exact State.flightIssue_canonical (State.fetchLead_canonical hu ev)
        next v ev => exact State.eachEndFrozen_canonical (State.fetchLead_canonical hu ev)
        next f v ev => exact State.flightTrap_canonical (State.fetchLead_canonical hu ev)

theorem State.flightCycle_canonical {s : State} (h : MemoryCanonical s) : MemoryCanonical s.flightCycle := by
  unfold State.flightCycle
  extract_lets me ids t
  have ht : MemoryCanonical t := State.each_canonical (fun s h => h.of_mem (State.mayEvict_hub_mem s)) h
  clear_value t ids
  split
  · exact h
  next lead _ =>
    split
    · exact h.of_mem (State.passStopped_hub_mem ..)
    · split
      · exact State.eachEndFrozen_canonical h
      · split
        next u e => exact State.eachEndFrozen_canonical (State.fetchLead_canonical ht e)
        next f u _ e =>
          have hu : MemoryCanonical u := State.fetchLead_canonical ht e
          extract_lets it
          split
          next v stop ev =>
            have hv : MemoryCanonical v :=
              hu.of_mem ((congrArg (·.1.hub.mem) ev).symm.trans (State.boundaries_fst_hub_mem _ u))
            extract_lets here w
            have hw : MemoryCanonical w := by
              unfold w
              split
              · split
                · exact State.onHart_canonical (fun _ => State.fetchFault_canonical) hv
                · exact hv
              · exact hv
            split
            · exact (State.keepOnly_canonical hw).of_mem (State.passStopped_hub_mem ..)
            · exact State.flightGo_canonical (State.each_canonical (fun _ => State.endCycle_canonical) hv)

theorem State.turn_canonical {id : HartId} {s : State} (h : MemoryCanonical s) : MemoryCanonical (s.turn id) := by
  unfold State.turn
  split
  · exact h
  next t e =>
    have ht : MemoryCanonical t := h.of_mem (State.focus_hub_mem e)
    split
    · exact State.endFrozen_canonical ht
    · split
      · extract_lets ids u
        have hu : MemoryCanonical u := ht
        exact State.flightCycle_canonical hu
      · exact State.ownCycle_canonical ht

/-! ### The agenda -/

/-- An event, where one is due, that keeps the canonical form. -/
def EventCanonical (o : Option Sem) : Prop := IfSome KeepsCanonical o

theorem State.writeEvent_canonical (s : State) : EventCanonical s.writeEvent := by
  unfold State.writeEvent
  extract_lets h due
  split
  · split
    · exact execAtomicAtHome_canonical _
    · trivial
  · split
    · trivial
    · split
      · trivial
      · split
        · exact execAtomicAtHome_canonical _
        · extract_lets line
          split
          · split
            · split
              · trivial
              · exact execPeerFill_canonical _ _ _
            · trivial
          · exact execWriteStamp_canonical _

theorem State.loadEvent_canonical (s : State) : EventCanonical s.loadEvent := by
  unfold State.loadEvent
  extract_lets h
  split
  · trivial
  · split
    · trivial
    · split
      · split
        · trivial
        · exact execPeerFill_canonical _ _ _
      · exact .map (fun _ => (execLeaseFill_keepsMemory _ _).keepsCanonical) _

theorem State.engineEvent_canonical (s : State) : EventCanonical s.engineEvent :=
  .findSome? (fun o => by
    split
    · trivial
    · split
      · exact (execEngineVersionTimeout_keepsMemory _ _).keepsCanonical
      · extract_lets waits
        split
        · trivial
        · split
          · trivial
          · exact execCopyComplete_canonical _ _) _

theorem State.vaultEvent_canonical (s : State) : EventCanonical s.vaultEvent := by
  unfold State.vaultEvent
  extract_lets due
  split
  · exact execVaultStoreLands_canonical _
  · trivial

theorem State.waitEvent_canonical (s : State) : EventCanonical s.waitEvent := by
  unfold State.waitEvent
  extract_lets h clk stopped x
  have hlands : KeepsCanonical (if x then execXPassEntryArrives h.id else execExposedResultLands h.id) := by
    split
    · exact execXPassEntryArrives_canonical _
    · exact execExposedResultLands_canonical _
  refine .ite hlands <|
    .ite (execMxOccupancyEnd_keepsMemory _).keepsCanonical <|
    .ite (.map (fun _ => (execTranslationWalk_keepsMemory _ _ _).keepsCanonical) _) <|
    .ite (execFreezeEnd_keepsMemory _).keepsCanonical <|
    .ite (execFreeze_keepsMemory _).keepsCanonical <|
    .ite (execMissedPromiseLatch_keepsMemory _).keepsCanonical <|
    .ite (execFenceTimeout_keepsMemory _).keepsCanonical <|
    .ite (execSemGgLands_keepsMemory _).keepsCanonical <|
    .ite (execResolveComplete_canonical _) ?_
  split
  · exact .ite (execTimerExpiry_keepsMemory _).keepsCanonical trivial
  · exact .map (fun _ => (execGroupArrival_keepsMemory _ _).keepsCanonical) _

theorem State.hartEvent_canonical (h : Hart) (s : State) : EventCanonical (s.hartEvent h) := by
  unfold State.hartEvent
  split
  · trivial
  next t _ =>
    exact t.waitEvent_canonical.orElse (t.vaultEvent_canonical.orElse (t.writeEvent_canonical.orElse
      (t.loadEvent_canonical.orElse t.engineEvent_canonical)))

theorem State.peerEvent_canonical (s : State) : EventCanonical s.peerEvent := by
  unfold State.peerEvent
  extract_lets clk late next
  have hnext : EventCanonical next := .findSome? (fun i => by
    split
    · trivial
    · split
      · trivial
      · split
        · exact execInvalidationAck_canonical _ _
        · exact execRecallLine_canonical _) _
  have hlate : EventCanonical (late.map (fun l => execLockedSequenceTimeout l.peer l.line)) :=
    .map (fun _ => (execLockedSequenceTimeout_keepsMemory _ _).keepsCanonical) _
  exact hlate.orElse (hnext.orElse (.map (fun _ => execIncomingRdma_canonical _) _))

theorem State.packageEvent_canonical (s : State) : EventCanonical s.packageEvent := by
  unfold State.packageEvent
  extract_lets clk tlb link isl stack
  have htlb : EventCanonical tlb := .map (fun _ => (execTlbinvComplete_keepsMemory _).keepsCanonical) _
  have hlink : EventCanonical link := .findSome? (fun k => by
    extract_lets l
    split
    · exact execDeadLink_canonical _
    · split
      · exact fun _ h => h.of_mem (State.linkSend_hub_mem ..)
      · split
        · exact (execReadyReturn_keepsMemory _).keepsCanonical
        · trivial) _
  have hisl : EventCanonical isl := .findSome? (fun e => by
    extract_lets moves
    split
    · exact (execIslandLevelChange_keepsMemory _).keepsCanonical
    · trivial) _
  have hstack : EventCanonical stack := .findSome? (fun k => by
    split
    · exact (execHashVersionAdopt_keepsMemory _).keepsCanonical
    · trivial) _
  split
  · exact execBaseTimeRise_keepsMemory.keepsCanonical
  · split
    · exact execLogicalTimePause_keepsMemory.keepsCanonical
    · exact htlb.orElse (hlink.orElse (hisl.orElse hstack))

theorem State.queueEvent_canonical (s : State) : EventCanonical s.queueEvent :=
  .findSome? (fun x => by
    extract_lets p q commanded
    split
    · exact execDoorbell_canonical _ _
    · exact execBarrierEvaluate_canonical _ _
    · trivial
    · split
      · split
        · exact execBarrierEvaluate_canonical _ _
        · split
          · exact execBarrierSignalReread_canonical _ _
          · trivial
      · split
        · refine (?_ : KeepsCanonical _)
          split
          · exact execBarrierPacket_canonical _ _
          · split
            · exact execSignalPacket_canonical _ _
            · exact execDispatchPacket_canonical _ _
        · exact execDispatchPacket_canonical _ _
        · trivial) _

theorem State.partCommand_canonical (p : Nat) (s : State) : EventCanonical (s.partCommand p) := by
  unfold State.partCommand
  extract_lets r q behind qctl ncrq saving preq
  have hqctl : EventCanonical qctl := by
    unfold qctl
    split
    · trivial
    · split
      · split
        · trivial
        · exact execQctlDisable_canonical _ _
      · exact execQctlReset_canonical _ _
      · exact execQctlActivate_canonical _ _
  have hncrq : EventCanonical ncrq := by
    unfold ncrq
    split
    · trivial
    · split
      · exact (execNcrqMakeNoncoherent_keepsMemory _).keepsCanonical
      · exact (execNcrqMakeCoherent_keepsMemory _).keepsCanonical
  have hpreq : EventCanonical preq := by
    unfold preq
    split
    · trivial
    · split
      · split
        · trivial
        · exact (execPreqPreemptHold_keepsMemory _).keepsCanonical
      · exact (execPreqRelease_keepsMemory _).keepsCanonical
      · exact (execPreqPreempt_keepsMemory _).keepsCanonical
      · split
        · trivial
        · exact (execPreqPreempt_keepsMemory _).keepsCanonical
  exact hqctl.orElse (hncrq.orElse hpreq)

theorem State.monCommand_canonical (s : State) : EventCanonical s.monCommand := by
  unfold State.monCommand
  extract_lets c chip port part chctl n core writes ncore iso
  have hchctl : EventCanonical chctl := by
    unfold chctl
    split
    · trivial
    · split
      · exact (execChctlAssign_keepsMemory _ _).keepsCanonical
      · split
        · exact (execChctlIsolate_keepsMemory _).keepsCanonical
        · trivial
      · exact execChctlReset_canonical _
      · exact (execChctlEnumerate_keepsMemory _).keepsCanonical
      · exact (execChctlAssignPort_keepsMemory _ _).keepsCanonical
      · exact (execChctlUnassignPort_keepsMemory _).keepsCanonical
      · exact (execChctlUnassign_keepsMemory _).keepsCanonical
  have hncore : EventCanonical ncore := by
    unfold ncore
    split
    · trivial
    · split
      · exact (execNcoreHalt_keepsMemory _).keepsCanonical
      · split
        · trivial
        · exact (execNcoreStart_keepsMemory _).keepsCanonical
  have hiso : EventCanonical iso := .findSome? (fun i => by
    split
    · exact (execIsolationSaveTimeout_keepsMemory _).keepsCanonical
    · split
      · exact (execIsolationDrainTimeout_keepsMemory _).keepsCanonical
      · trivial) _
  exact hiso.orElse (hchctl.orElse hncore)

theorem State.monEvent_canonical (s : State) : EventCanonical s.monEvent := by
  unfold State.monEvent
  extract_lets hits all
  have hhits : EventCanonical hits := .findSome? (fun w => by
    split
    · split
      · exact (execWatchTrigger_keepsMemory _).keepsCanonical
      · trivial
    · trivial) _
  exact hhits.orElse (.findSome? (fun h => by
    split
    · split
      · exact (execMonWaitRecheck_keepsMemory _).keepsCanonical
      · trivial
    · trivial) _)

theorem State.gangEvent_canonical (l : Launch) (g : Gang) (s : State) : EventCanonical (s.gangEvent l g) := by
  unfold State.gangEvent
  extract_lets clk hs met
  have hmet : EventCanonical met := .findSome? (fun h => by
    split
    · extract_lets rs
      split
      · exact (execFlightResumeAtMeet_keepsMemory _ _).keepsCanonical
      · trivial
    · extract_lets rs
      split
      · exact (execFlightResumeAtMeet_keepsMemory _ _).keepsCanonical
      · trivial
    · trivial) _
  split
  · refine hmet.orElse ?_
    split
    · exact (execGangPark_keepsMemory _ _).keepsCanonical
    · trivial
  · split
    · trivial
    · split
      · split
        · exact (execContextSpill_keepsMemory _ _).keepsCanonical
        · exact (execContextSave_keepsMemory _ _).keepsCanonical
      · exact (execContextSave_keepsMemory _ _).keepsCanonical
  · split
    · exact (execParkedGangWake_keepsMemory _ _).keepsCanonical
    · trivial
  · split
    · exact (execAgingTick_keepsMemory _ _).keepsCanonical
    · split
      · exact execGangRestore_canonical _ _ _ _
      · trivial
  · split
    · exact (execAgingTick_keepsMemory _ _).keepsCanonical
    · split
      · exact execGangRestore_canonical _ _ _ _
      · trivial
  · trivial

theorem State.launchEvent_canonical (l : Launch) (s : State) : EventCanonical (s.launchEvent l) := by
  unfold State.launchEvent
  split
  · exact execDispatchComplete_canonical _
  · exact .findSome? (fun g => State.gangEvent_canonical l g s) _

theorem State.placeEvent_canonical (p : Nat) (s : State) : EventCanonical (s.placeEvent p) := by
  unfold State.placeEvent
  extract_lets place
  have hplace : EventCanonical place := by
    unfold place
    split
    · trivial
    · refine .map (fun x => ?_) _
      split
      · exact execGangRestore_canonical _ _ _ _
      · split
        · exact (execCalenderDecision_keepsMemory _ _).keepsCanonical
        · exact execGangPlace_canonical _ _ _ _
  refine hplace.orElse (.bind (fun x => .map (fun v => ?_) _) _)
  split
  · exact execSliceTimerTick_keepsMemory.keepsCanonical
  · exact (execGangPreempt_keepsMemory _ _).keepsCanonical

theorem State.nextEvent_canonical (s : State) : EventCanonical s.nextEvent := by
  unfold State.nextEvent
  have hharts : EventCanonical (s.harts.findSome? (fun h => s.hartEvent h)) :=
    .findSome? (fun h => State.hartEvent_canonical h s) _
  have hparts : EventCanonical ((List.range 16).findSome? (fun p => s.partCommand p)) :=
    .findSome? (fun p => State.partCommand_canonical p s) _
  have hlaunches : EventCanonical (s.hub.launches.findSome? (fun l => s.launchEvent l)) :=
    .findSome? (fun l => State.launchEvent_canonical l s) _
  have hplaces : EventCanonical ((List.range 16).findSome? (fun p => s.placeEvent p)) :=
    .findSome? (fun p => State.placeEvent_canonical p s) _
  exact hharts.orElse (s.packageEvent_canonical.orElse (s.peerEvent_canonical.orElse (s.monEvent_canonical.orElse
    (s.monCommand_canonical.orElse (hparts.orElse (s.queueEvent_canonical.orElse (hlaunches.orElse
      (.ite trivial hplaces))))))))

/-! ### One step -/

theorem State.input_canonical {i : Instr} {r : List Instr} {s : State} (h : MemoryCanonical s) :
    OutcomeCanonical (s.input i r) := by
  have hr : MemoryCanonical { s with inbox := r } := h.of_mem rfl
  unfold State.input
  exact .ite (exec_canonical i _ hr) hr

theorem State.inner_canonical {s : State} (h : MemoryCanonical s) : OutcomeCanonical s.inner := by
  unfold State.inner
  split
  next id r _ =>
    extract_lets t
    have ht : MemoryCanonical t := State.turn_canonical (s := { s with todo := r }) (h.of_mem rfl)
    refine (?_ : MemoryCanonical _)
    split
    · exact ht.of_mem (State.settleLeaves_hub_mem t)
    · exact ht
  next =>
    split
    next f e => exact (State.nextEvent_canonical s).of_eq e s h
    next =>
      refine (?_ : MemoryCanonical _)
      split
      · exact h.of_mem (State.advance_hub_mem s)
      · exact h.of_mem (State.deal_hub_mem s)

theorem step_canonical : KeepsCanonical step := fun s h => by
  unfold step
  split
  · exact State.input_canonical h
  · split
    · trivial
    · exact State.inner_canonical h

/-- Settles O6: every input, event and turn keeps the canonical form, and these are all that a step can do. -/
theorem stepKeepsMemoryCanonical : Obligations.StepKeepsMemoryCanonical := fun s t h e => by
  have ht : OutcomeCanonical (step s) := step_canonical s h
  rw [e] at ht
  exact ht

end Sys2Proof.Machine
end

section
/-! What one turn of a Newel core does with a bundle of one operation: the examination of one operation that issues,
and the way from the step to it. -/

namespace Sys2Proof.Machine

/-! ### A state whose hart has issued -/

theorem State.issued_of_ok {s : State} (h : s.me.iss.out = .ok) : s.issued = true := by
  simp [State.issued, h]

theorem State.raised_of_ok {s : State} (h : s.me.iss.out = .ok) : s.raised = none := by
  simp [State.raised, h]

theorem State.waits_of_ok {s : State} (h : s.me.iss.out = .ok) : s.waits = false := by
  simp [State.waits, h]

theorem State.froze_of_ok {s : State} (h : s.me.iss.out = .ok) : s.froze = false := by
  simp [State.froze, h]

/-! ### One operation that issues -/

theorem issueOrder_singleton (o : Slotted) : issueOrder [o] = [o] := by
  obtain ⟨addr, len, ops, sl, i⟩ := o
  cases sl <;> rfl

theorem State.trial_of_next {o : Slotted} {s t : State} (h : exec o.ins (s.prep o) = .next t) : s.trial o = t := by
  unfold State.trial State.perform
  rw [h]

/-- What an operation leaves when it has issued alone from `a`: the record of its arrivals is cleared. -/
def State.afterIssue (a b : VAddr) (t : State) : State :=
  t.modMe (fun h => { (h.clearRecord [b]).setOut .ok with ctl := { h.ctl with pc := a } })

theorem State.issueAll_singleton {a : VAddr} {o : Slotted} {s t : State}
    (h : exec o.ins (((s.modMe (Hart.atIssue s.hub.base s.hub.clk [o])).modMe (Hart.setOut .ok)).prep o) = .next t)
    (ho : t.me.iss.out = .ok) : s.issueAll a [o] = ([], t.afterIssue a o.addr) := by
  have hrun : State.issueRun [o] ((s.modMe (Hart.atIssue s.hub.base s.hub.clk [o])).modMe (Hart.setOut .ok))
      = ([], t) := by
    simp [State.issueRun, State.trial_of_next h, State.issued_of_ok ho]
  have hout : (t.modMe (Hart.clearRecord ([o].map (·.addr)))).me.iss.out = .ok := ho
  unfold State.issueAll
  simp only [issueOrder_singleton, hrun, hout]
  rfl

theorem State.tryOp_of_ok {o : Slotted} {s u : State} (h : exec o.ins (s.prep o) = .next u)
    (ho : u.me.iss.out = .ok) : s.tryOp [] o = { addr := o.addr, slot := some o.slot, st := u } := by
  simp [State.tryOp, State.trial_of_next h, State.waits_of_ok ho]

theorem stopOf_of_ok {old : Option Stall} {a : VAddr} {s : State} {x : Tried} (ho : x.st.me.iss.out = .ok) :
    stopOf old a s [x] = none := by
  simp [stopOf, pickTrap, State.raised_of_ok ho, State.froze_of_ok ho]

/-- The examination of one operation that issues, tried alone and together with what the bundle observes (R11, R287). -/
theorem State.examine_singleton {o : Slotted} {s u t : State}
    (hu : exec o.ins ((s.modMe Hart.beginCycle).prep o) = .next u) (huo : u.me.iss.out = .ok)
    (ht : exec o.ins ((((s.modMe Hart.beginCycle).modMe (Hart.atIssue s.hub.base s.hub.clk [o])).modMe
      (Hart.setOut .ok)).prep o) = .next t) (hto : t.me.iss.out = .ok) :
    s.examine o.addr [o] = t.afterIssue o.addr o.addr := by
  have hall : (s.modMe Hart.beginCycle).issueAll o.addr [o] = ([], t.afterIssue o.addr o.addr) :=
    State.issueAll_singleton ht hto
  unfold State.examine State.examineAt
  simp [hall, State.tryOp_of_ok hu huo, stopOf_of_ok, huo, State.waits_of_ok huo]

/-! ### The turn of a core at a bundle -/

/-- A core at a bundle that it holds goes straight to it: nothing is evicted, fetched or trapped before. -/
theorem State.ownCycle_of_coreAtBundle {n : Nat} {rest : List HartId} {s : State} (h : CoreAtBundle n rest s) :
    State.ownCycle { s with todo := rest } = State.issueOwn { s with todo := rest } := by
  obtain ⟨-, -, -, hid, hrun, hfrozen, hhold, hloop, htlb, hlease, hbound, hslept, hline, hhead⟩ := h
  have hlive : s.me.live = true := by simp [Hart.live, hrun]
  have hmeets : s.me.meets = false := by simp [Hart.meets, Hart.isCore, hrun, hid]
  have hevict : State.mayEvict { s with todo := rest } = { s with todo := rest } := by
    simp [State.mayEvict, State.mayWriteBack, htlb, hlease]
  have hfetch : State.fetchOwn { s with todo := rest } = (.ready, { s with todo := rest }) := by
    simp [State.fetchOwn, Hart.atBundle, State.fetch, hhold, hloop, hline, hhead]
  have hboundary : State.boundary { s with todo := rest } = none := Option.isNone_iff_eq_none.mp hbound
  simp [State.ownCycle, hrun, hlive, hfrozen, hmeets, hevict, hfetch, hboundary, hslept]

/-- The step of a core at a bundle is the issue of that bundle, and after the last turn of a tick the groups that
treads have left are settled (R286). -/
theorem step_of_coreAtBundle {n : Nat} {rest : List HartId} {s : State} (h : CoreAtBundle n rest s) :
    step s = .next (let v := State.issueOwn { s with todo := rest }
      if v.todo.isEmpty then v.settleLeaves else v) := by
  have hown := State.ownCycle_of_coreAtBundle h
  obtain ⟨hin, hdark, htodo, hid, hrun, -⟩ := h
  have hfocus : State.focus (.core n) { s with todo := rest } = some { s with todo := rest } := by
    simp [State.focus, hid]
  have hturn : State.turn (.core n) { s with todo := rest } = State.issueOwn { s with todo := rest } := by
    simp [State.turn, hfocus, State.stopped, hid, hrun, hown]
  have hinner : step s = s.inner := by simp [step, hin, hdark]
  rw [hinner]
  unfold State.inner
  simp only [htodo, hturn]

/-- A bundle whose examination has issued at the same level, outside a hold and a loop, commits, and the cycle ends. -/
theorem State.issueOwn_of_examineBundle {s r : State} (hhold : s.me.sched.hold = 0) (hloop : s.me.sched.loop = none)
    (hr : s.examineBundle s.me.ctl.pc s.me.bundleBytes = r) (ho : r.me.iss.out = .ok)
    (hlevel : r.me.level = s.me.level) : s.issueOwn = r.commitMe.endCycle := by
  have hown : s.examineOwn = r := by simp [State.examineOwn, State.examineHere, hhold, hloop, hr]
  simp [State.issueOwn, hown, State.finishOwn, ho, hlevel]

/-- Settles O4: the turn goes straight to the bundle, its one operation issues, and nothing turns it back. -/
theorem stepRunsDecodedBundle : Obligations.StepRunsDecodedBundle := by
  intro s n rest len sl i hcore hbundle hfree o base u t hu huo ht hto hlevel v
  have hexamine : State.examineBundle s.me.ctl.pc s.me.bundleBytes { s with todo := rest }
      = t.afterIssue s.me.ctl.pc s.me.ctl.pc := by
    have hone : State.examine s.me.ctl.pc [o] { s with todo := rest } = t.afterIssue s.me.ctl.pc s.me.ctl.pc :=
      State.examine_singleton (o := o) hu huo ht hto
    simp only [State.examineBundle, hbundle]
    rw [if_neg (by simpa [slotted] using hfree)]
    exact hone
  rw [step_of_coreAtBundle hcore]
  obtain ⟨-, -, -, -, -, -, hhold, hloop, -⟩ := hcore
  rw [State.issueOwn_of_examineBundle (s := { s with todo := rest }) hhold hloop hexamine rfl hlevel]
  rfl

end Sys2Proof.Machine
end

section
/-! The vector slot: how it runs where a tread has it, and what the element-wise instructions, the compares, the mask
operations, the reductions and the permutations write. -/

namespace Sys2Proof.Machine

/-! ### Slots that only treads have -/

theorem treadSlot_of_ready {i : Instr} {g : Guard} {k : Sem} {s : State} (h : TreadReady g i s) :
    treadSlot i (guarded g k) s = k s := by
  obtain ⟨⟨hguard, hcheck⟩, hcore⟩ := h
  simp [treadSlot, guarded, hcore, hcheck, hguard]

theorem vaSlot_of_ready {i : Instr} {f : VF} {k : Sem} {s : State} (h : TreadReady f.g i s) :
    vaSlot i f k s = k s := treadSlot_of_ready h

/-! ### Results for vector registers -/

theorem vectorTakes_of_writeV {i : Instr} {L : Nat} {d : BitVec 6} {ws : List (Nat × BitVec 32)} {s : State}
    (h : exec i s = s.writeV L d ws) : VectorTakes i L d ws s := by
  unfold State.writeV at h
  exact ⟨fun hbad => by rw [h, hbad]; rfl, fun hbad => by rw [h, hbad]; rfl⟩

/-- An element-wise instruction writes the results of its floating rule, or those of its integer rule (R143). -/
theorem elementsTake_of_elementwise {i : Instr} {f : VF} {fl : FVal → FVal → FVal → FVal} {it : Int → Int → Int → Int}
    {s : State} (he : exec i s = elementwise i f fl it s) (h : TreadReady f.g i s) :
    ElementsTake i f.lat f f.width (fun l =>
      if f.isFloat then f.fmt.enc f.mode (fl (f.fmt.val (s.me.vElem f.a.toNat f.width l))
        (f.fmt.val (s.me.vElem f.b.toNat f.width l)) (f.fmt.val (s.me.vElem f.c.toNat f.width l)))
      else f.intRes (it (intElem f.u f.width (s.me.vElem f.a.toNat f.width l))
        (intElem f.u f.width (s.me.vElem f.b.toNat f.width l))
        (intElem f.u f.width (s.me.vElem f.c.toNat f.width l)))) s :=
  vectorTakes_of_writeV (he.trans (vaSlot_of_ready h))

/-- The absolute value as `vabs` takes it is the one of the statement. -/
theorem natAbs_eq_ite (a : Int) : (a.natAbs : Int) = if a < 0 then -a else a := by
  split <;> omega

/-- Settles O39: each instruction is one floating and one integer rule, which the element-wise lemma carries to every
element. -/
theorem vectorArithmeticComputes : Obligations.VectorArithmeticComputes := by
  intro f s el computes
  have hcomputes (i : Instr) (fl : FVal → FVal → FVal → FVal) (it : Int → Int → Int → Int)
      (he : exec i s = elementwise i f fl it s) : computes i fl it := elementsTake_of_elementwise he
  have habs : computes (.vabs f) (fun a _ _ => a.abs) (fun a _ _ => if a < 0 then -a else a) := by
    simpa only [natAbs_eq_ite] using hcomputes (.vabs f) (fun a _ _ => a.abs) (fun a _ _ => a.natAbs) rfl
  exact ⟨hcomputes (.vadd f) (fun a b _ => FVal.add f.mode a b) (fun a b _ => a + b) rfl,
    hcomputes (.vsub f) (fun a b _ => FVal.add f.mode a b.negate) (fun a b _ => a - b) rfl,
    hcomputes (.vmul f) (fun a b _ => FVal.mul a b) (fun a b _ => a * b) rfl,
    hcomputes (.vfma f) (fun a b c => FVal.fma f.mode a b c) (fun a b c => a * b + c) rfl,
    hcomputes (.vmin f) (fun a b _ => FVal.minimum a b) (fun a b _ => min a b) rfl,
    hcomputes (.vmax f) (fun a b _ => FVal.maximum a b) (fun a b _ => max a b) rfl,
    habs,
    hcomputes (.vneg f) (fun a _ _ => a.negate) (fun a _ _ => -a) rfl⟩

/-! ### Masks -/

/-- A number put together from bits, the lowest first, has these bits and no other. -/
theorem testBit_foldl_bits (p : Nat → Bool) (n : Nat) :
    (List.range n).foldl (fun a k => a + (p k).toNat * 2 ^ k) 0 < 2 ^ n ∧
    ∀ k, ((List.range n).foldl (fun a k => a + (p k).toNat * 2 ^ k) 0).testBit k = (decide (k < n) && p k) := by
  induction n with
  | zero => simp
  | succ n ih =>
    obtain ⟨hlt, hbit⟩ := ih
    rw [List.range_succ, List.foldl_append]
    generalize (List.range n).foldl (fun a k => a + (p k).toNat * 2 ^ k) 0 = x at hlt hbit
    refine ⟨?_, fun k => ?_⟩
    · calc x + (p n).toNat * 2 ^ n < 2 ^ n + 1 * 2 ^ n := add_lt_add_of_lt_of_le hlt (by gcongr; exact Bool.toNat_le _)
        _ = 2 ^ (n + 1) := by ring
    · have hsum : [n].foldl (fun a k => a + (p k).toNat * 2 ^ k) x = 2 ^ n * (p n).toNat + x := by
        simp [Nat.add_comm, Nat.mul_comm]
      rw [hsum, Nat.testBit_two_pow_mul_add _ hlt]
      by_cases hk : k < n
      · simp [hk, hbit, hk.trans n.lt_succ_self]
      · obtain rfl | hkn : k = n ∨ n < k := by omega
        · cases p k <;> simp
        · have hzero : Nat.testBit 1 (k - n) = false := by
            rw [Bool.eq_false_iff, ne_eq, Nat.testBit_one_eq_true_iff_self_eq_zero]
            omega
          cases p n <;> simp [hk, show ¬k < n + 1 by omega, hzero]

/-- The mask of a compare holds, for each active lane, whether every element of it compares so, and 0 elsewhere
(R146). -/
theorem getLsbD_cmpMask_zero {m : Word} {z : Bool} {w : Nat} {p : Nat → Bool} {k : Nat} (hk : k < 64) :
    (cmpMask 0 m z w p).getLsbD k
      = (m.getLsbD k && (List.range (32 / w)).all (fun j => p (k * (32 / w) + j))) := by
  have hbits := (testBit_foldl_bits
    (fun k => if m.getLsbD k then (List.range (32 / w)).all (fun j => p (k * (32 / w) + j))
      else !z && (0 : Word).getLsbD k) 64).2 k
  unfold cmpMask
  rw [BitVec.getLsbD_ofNat, hbits]
  cases m.getLsbD k <;> simp [hk]

theorem execVectorCmp_of_ready {i : Instr} {f : VF} {fl : FVal → FVal → Bool} {it : Int → Int → Bool} {s : State}
    (he : exec i s = vectorCmp i f fl it s) (h : TreadReady f.g i s) :
    exec i s = .next (s.writeMBits 2 f.d (if f.z then BitVec.allOnes 64 else s.me.regs.mReg f.m)
      (cmpMask 0 (s.me.regs.mReg f.m) f.z f.width (fun l =>
        if f.isFloat then fl (f.fmt.val (s.me.vElem f.a.toNat f.width l)) (f.fmt.val (s.me.vElem f.b.toNat f.width l))
        else it (intElem f.u f.width (s.me.vElem f.a.toNat f.width l))
          (intElem f.u f.width (s.me.vElem f.b.toNat f.width l))))) :=
  he.trans (vaSlot_of_ready h)

theorem maskTakes_of_maskOp {i : Instr} {f : VF} {op : Word → Word → Word} {s : State}
    (he : exec i s = maskOp i f op s) (h : TreadReady f.g i s) :
    MaskTakes i 1 f.d (op (s.me.regs.mReg (BitVec.ofNat 3 f.a.toNat)) (s.me.regs.mReg (BitVec.ofNat 3 f.b.toNat))) s :=
  he.trans (vaSlot_of_ready h)

/-- Settles O41: the compares write the mask whose bits `getLsbD_cmpMask_zero` gives, and the mask operations their
result as a whole. -/
theorem masksAreWritten : Obligations.MasksAreWritten := by
  intro f s m el cmp bits
  have hcmp (i : Instr) (fl : FVal → FVal → Bool) (it : Int → Int → Bool) (he : exec i s = vectorCmp i f fl it s) :
      cmp i fl it := fun h => ⟨_, fun k hk => getLsbD_cmpMask_zero hk, execVectorCmp_of_ready he h⟩
  have hne : cmp (.vcmpNe f) (fun a b => !fEq a b) (fun a b => a != b) := by
    have hit : (fun a b : Int => a != b) = fun a b => decide (a ≠ b) := by
      funext a b
      simp [bne, BEq.beq]
    rw [hit]
    exact hcmp (.vcmpNe f) (fun a b => !fEq a b) (fun a b => decide (a ≠ b)) rfl
  have hbits (i : Instr) (op : Word → Word → Word) (he : exec i s = maskOp i f op s) : bits i (op (m f.a) (m f.b)) :=
    maskTakes_of_maskOp he
  exact ⟨hcmp (.vcmpEq f) fEq (fun a b => a == b) rfl, hne, hcmp (.vcmpLt f) fLt (fun a b => a < b) rfl,
    hcmp (.vcmpLe f) fLe (fun a b => a ≤ b) rfl, hbits (.mand f) (fun a b => a &&& b) rfl,
    hbits (.mor f) (fun a b => a ||| b) rfl, hbits (.mxor f) (fun a b => a ^^^ b) rfl,
    hbits (.mandn f) (fun a b => a &&& ~~~b) rfl, hbits (.mnot f) (fun a _ => ~~~a) rfl⟩

/-! ### Reductions and permutations -/

/-- A reduction whose result is `r` writes element 0, and under `.z` zeros above it (R151). -/
def ReductionTakes (i : Instr) (f : VF) (r : Nat) (s : State) : Prop :=
  let base := s.me.vBase + 64 * f.d.toNat
  let v := BitVec.ofNat 32 (r % 2 ^ f.width)
  (f.z = true → VectorTakes i 8 f.d ((base, v) :: (List.range 63).map (fun l => (base + 1 + l, 0#32))) s) ∧
  (f.z = false → f.width = 32 → VectorTakes i 8 f.d [(base, v)] s) ∧
  (f.z = false → f.width ≠ 32 →
    (s.me.vecWriteBad f.d.toNat [base] = false → exec i s = .next (s.withResult 8 5 f.d.toNat
      [.bits (s.me.shadowed f.d.toNat) base (BitVec.ofNat 32 (2 ^ f.width - 1)) v])) ∧
    (s.me.vecWriteBad f.d.toNat [base] = true → exec i s = s.illegal 9))

theorem reductionTakes_of_writeRed {i : Instr} {f : VF} {r : Nat} {s : State} (h : exec i s = writeRed f r s) :
    ReductionTakes i f r s := by
  unfold writeRed at h
  refine ⟨fun hz => vectorTakes_of_writeV ?_, fun hz hw => vectorTakes_of_writeV ?_, fun hz hw => ?_⟩
  · rw [h, if_pos hz]
  · rw [h, hz, if_neg Bool.false_ne_true, if_pos hw]
  · rw [hz, if_neg Bool.false_ne_true, if_neg hw, State.writeVBits] at h
    exact ⟨fun hbad => by rw [h, hbad]; rfl, fun hbad => by rw [h, hbad]; rfl⟩

/-- The result of a minimum or a maximum over the active elements (R151). -/
def minMaxResult (f : VF) (emptyF : FVal) (emptyI : Int) (fl : FVal → FVal → FVal) (it : Int → Int → Int)
    (es : List Nat) : Nat :=
  if f.isFloat then
    match es.map f.fmt.val with
    | [] => f.fmt.enc .rne emptyF
    | x :: xs => f.fmt.enc .rne (xs.foldl fl x)
  else
    match es.map (intElem f.u f.width) with
    | [] => wrapBits f.width emptyI
    | x :: xs => wrapBits f.width (xs.foldl it x)

theorem reductionTakes_of_vectorMinMax {i : Instr} {f : VF} {emptyF : FVal} {emptyI : Int} {fl : FVal → FVal → FVal}
    {it : Int → Int → Int} {s : State} (he : exec i s = vectorMinMax i f emptyF emptyI fl it s)
    (h : TreadReady f.g i s) :
    ReductionTakes i f (minMaxResult f emptyF emptyI fl it (activeElems s.me f)) s :=
  reductionTakes_of_writeRed ((he.trans (vaSlot_of_ready h)).trans rfl)

theorem execVredAdd_of_ready {f : VF} {s : State} (h : TreadReady f.g (.vredAdd f) s) :
    exec (.vredAdd f) s = writeRed f (if f.isFloat then f.fmt.enc .rne (f.fmt.val (treeSum
      (fun a b => f.fmt.enc f.mode (FVal.add f.mode (f.fmt.val a) (f.fmt.val b))) 9 (activeElems s.me f)))
      else f.intRes ((activeElems s.me f).map (intElem f.u f.width)).sum) s :=
  vaSlot_of_ready h

/-- Settles O43: each reduction is `writeRed` of its result, which is taken by type and, for a minimum or a maximum, by
whether an element is active. -/
theorem vectorReductionsAndPermutations : Obligations.VectorReductionsAndPermutations := by
  intro f s base es ints red
  have hadd {r} (hr : (if f.isFloat then f.fmt.enc .rne (f.fmt.val (treeSum
      (fun a b => f.fmt.enc f.mode (FVal.add f.mode (f.fmt.val a) (f.fmt.val b))) 9 es))
      else f.intRes ints.sum) = r) : red (.vredAdd f) r := fun h =>
    reductionTakes_of_writeRed (hr ▸ execVredAdd_of_ready h)
  have hmin {r} (hr : minMaxResult f (.inf false) (intRange f.u f.width).2 FVal.minimum min es = r) :
      red (.vredMin f) r := fun h => hr ▸ reductionTakes_of_vectorMinMax rfl h
  have hmax {r} (hr : minMaxResult f (.inf true) (intRange f.u f.width).1 FVal.maximum max es = r) :
      red (.vredMax f) r := fun h => hr ▸ reductionTakes_of_vectorMinMax rfl h
  refine ⟨fun hf => hadd (by simp [hf]), fun hf => hadd (by simp [hf]), fun x xs hf hx => ?_, fun hf hx => ?_,
    fun x xs hf hx => ?_, fun hf hx => ?_, fun h => vectorTakes_of_writeV (vaSlot_of_ready h),
    fun h => vectorTakes_of_writeV (vaSlot_of_ready h)⟩
  · exact ⟨hmin (by simp [minMaxResult, hf, show es.map (intElem f.u f.width) = x :: xs from hx]),
      hmax (by simp [minMaxResult, hf, show es.map (intElem f.u f.width) = x :: xs from hx])⟩
  · exact ⟨hmin (by simp [minMaxResult, hf, show es.map (intElem f.u f.width) = [] from hx]),
      hmax (by simp [minMaxResult, hf, show es.map (intElem f.u f.width) = [] from hx])⟩
  · exact ⟨hmin (by simp [minMaxResult, hf, hx]), hmax (by simp [minMaxResult, hf, hx])⟩
  · exact ⟨hmin (by simp [minMaxResult, hf, hx]), hmax (by simp [minMaxResult, hf, hx])⟩

end Sys2Proof.Machine
end

section
/-! The engine slot: when an operation of the copy engine goes on, what its acceptance leaves, and which operations
are accepted. -/

namespace Sys2Proof.Machine

/-! ### Waits -/

/-- An operation that issues or stalls does so once what it waits for holds. -/
theorem waitsOn_of_met {wait : State → Bool} {k : Sem} {s t : State} (hk : k s = .next t) (hw : wait s = false) :
    waitsOn wait k s = .next t := by
  simp only [waitsOn, hk, hw, Bool.false_eq_true, if_false]
  split <;> rfl

/-- While what it waits for does not hold, an operation that would issue stalls. -/
theorem waitsOn_of_unmet {wait : State → Bool} {k : Sem} {s t : State} (hk : k s = .next t)
    (ho : t.me.iss.out = .ok ∨ ∃ p, t.me.iss.out = .stalled p) (hw : wait s = true) :
    waitsOn wait k s = .next (s.stall false) := by
  obtain ho | ⟨p, ho⟩ := ho <;> simp only [waitsOn, hk, hw, ho, if_true]

/-- An operation of the copy engine that would issue does so where its wait holds and the engine has a place. -/
theorem engSlot_of_free {i : Instr} {f : EF} {k : Sem} {s t : State} (h : TreadReady f.g i s) (hk : k s = .next t)
    (hw : waitHolds f.ws s.me = true) (hfull : s.me.engFull = false) : engSlot i f k s = .next t := by
  have hplace : waitsOn (fun s => s.me.engFull) k s = .next t := waitsOn_of_met hk hfull
  exact (treadSlot_of_ready h).trans (waitsOn_of_met hplace (by simp [hw]))

/-- Otherwise it stalls (R16, R84). -/
theorem engSlot_of_waiting {i : Instr} {f : EF} {k : Sem} {s t : State} (h : TreadReady f.g i s) (hk : k s = .next t)
    (ho : t.me.iss.out = .ok) (hw : waitHolds f.ws s.me = false ∨ s.me.engFull = true) :
    engSlot i f k s = .next (s.stall false) := by
  refine (treadSlot_of_ready h).trans ?_
  cases hfull : s.me.engFull with
  | true =>
    have hplace : waitsOn (fun s => s.me.engFull) k s = .next (s.stall false) :=
      waitsOn_of_unmet hk (.inl ho) hfull
    cases hholds : waitHolds f.ws s.me with
    | true => exact waitsOn_of_met hplace (by simp [hholds])
    | false => exact waitsOn_of_unmet hplace (.inr ⟨false, rfl⟩) (by simp [hholds])
  | false =>
    have hplace : waitsOn (fun s => s.me.engFull) k s = .next t := waitsOn_of_met hk hfull
    exact waitsOn_of_unmet hplace (.inl ho) (by simp_all)

/-! ### Acceptance -/

/-- What R240 says of an acceptance is what `acceptOp` leaves. -/
theorem State.acceptOp_accepted (f : EF) (kind : EngKind) (dst src len total : Nat) (fails : Bool) (s : State) :
    Accepted f kind dst src len total fails (s.netWaits kind.conn s.free) s
      (s.acceptOp f kind dst src len total fails) := by
  obtain ⟨waits, hwaits⟩ : ∃ waits, s.netWaits kind.conn s.free = waits := ⟨_, rfl⟩
  simp only [State.acceptOp, State.fresh, hwaits]
  cases fails with
  | true =>
    refine ⟨⟨rfl, rfl, rfl, rfl, rfl, rfl, rfl, rfl⟩, rfl, fun _ => by simp, nofun,
      _, rfl, ?_, rfl, rfl, rfl, rfl, rfl, rfl, rfl, rfl⟩
    dsimp only
    split <;> omega
  | false =>
    refine ⟨⟨rfl, rfl, rfl, rfl, rfl, rfl, rfl, rfl⟩, rfl, nofun, fun _ => rfl,
      _, rfl, ?_, rfl, rfl, rfl, rfl, rfl, rfl, by simp, ?_⟩
    · dsimp only
      split <;> omega
    · by_cases hdone : total = 0 ∧ waits = false
      · obtain ⟨rfl, rfl⟩ := hdone
        rfl
      · simp [hdone, Hart.push]

theorem State.acceptOp_spr (f : EF) (kind : EngKind) (dst src len total : Nat) (fails : Bool) (s : State) :
    (s.acceptOp f kind dst src len total fails).me.spr = s.me.spr := by
  cases fails <;> rfl

theorem engChecks_of_ok {ws rs : List (Nat × Nat)} {k : Sem} {s : State}
    (hw : ∃ ps, s.pieces .engWrite s.me.level (ws.filter (fun r => !s.vaultByteOk r.1)) = .ok ps)
    (hr : ∃ ps, s.pieces .engRead s.me.level (rs.filter (fun r => !s.vaultByteOk r.1)) = .ok ps) :
    engChecks ws rs k s = k s := by
  obtain ⟨ps, hw⟩ := hw
  obtain ⟨qs, hr⟩ := hr
  simp only [engChecks, hw, hr]

/-- An operation of the copy engine whose meaning issues: it does where nothing keeps it, and stalls otherwise. -/
theorem engSlot_goes {i : Instr} {f : EF} {k : Sem} {s t : State} {done : State → Prop} (h : TreadReady f.g i s)
    (he : exec i s = engSlot i f k s) (hk : k s = .next t) (ho : t.me.iss.out = .ok) (hd : done t) :
    (waitHolds f.ws s.me = true → s.me.engFull = false → ∃ t, exec i s = .next t ∧ done t) ∧
    (waitHolds f.ws s.me = false ∨ s.me.engFull = true → exec i s = .next (s.stall false)) :=
  ⟨fun hw hfull => ⟨t, he.trans (engSlot_of_free h hk hw hfull), hd⟩,
    fun hw => he.trans (engSlot_of_waiting h hk ho hw)⟩

theorem inVault_of_classBad {va len : Nat} (h : classBad true va len = false) : inVault va = true := by
  simp_all [classBad]

/-- Settles O48: the checks of each form pass under its premises, so that its meaning is an acceptance, which issues or
stalls by the wait and the place in the engine. -/
theorem engineOperationsAreAccepted : Obligations.EngineOperationsAreAccepted := by
  intro f s a b c checked goes copy net
  have haccept (kind : EngKind) (dst src len total : Nat) (fails : Bool) :=
    State.acceptOp_accepted f kind dst src len total fails s
  have hcopy (i : Instr) (dv sv : Bool) (he : exec i s = copyOp i dv sv f s) : copy i dv sv := by
    intro hr hlen ha hb ⟨hw, hrd⟩
    refine engSlot_goes hr he ?_ (haccept ..).2.1 ⟨State.acceptOp_spr .., haccept .copy a b c.toNat c.toNat false⟩
    have hfits : ¬(2 ^ 32 ≤ c.toNat ∨ classBad dv a c.toNat = true ∨ classBad sv b c.toNat = true) :=
      not_or.mpr ⟨not_le.mpr hlen, by simp [ha, hb]⟩
    exact (if_neg hfits).trans (engChecks_of_ok hw hrd)
  have hnet (i : Instr) (put : Bool) (he : exec i s = netOp i put f s) : net i put := by
    intro hr hlen ⟨hw, hrd⟩ fails rem later
    have hfits : ¬2 ^ 31 < c.toNat := by omega
    cases put with
    | true =>
      refine engSlot_goes hr he ?_ (haccept ..).2.1
        ⟨State.acceptOp_spr .., fun _ => haccept (.netPut f.q.toNat) rem a c.toNat c.toNat fails, nofun⟩
      exact (if_neg hfits).trans ((if_pos rfl).trans (engChecks_of_ok (ws := []) (rs := ends a c.toNat) hw hrd))
    | false =>
      refine engSlot_goes hr he ?_ (haccept ..).2.1
        ⟨State.acceptOp_spr .., nofun, fun _ => haccept (.netGet f.q.toNat) a rem c.toNat c.toNat fails⟩
      exact (if_neg hfits).trans ((if_neg Bool.false_ne_true).trans
        (engChecks_of_ok (ws := ends a c.toNat) (rs := []) hw hrd))
  refine ⟨hcopy (.copyGv f) true false rfl, hcopy (.copyVg f) false true rfl, hcopy (.copyVv f) true true rfl,
    hcopy (.copyGg f) false false rfl, hnet (.netPut f) true rfl, hnet (.netGet f) false rfl, ?_, ?_⟩
  · intro d n line hr ha halign hread hrecall hparity ⟨hw, hrd⟩
    refine engSlot_goes (i := .copyTile f) hr rfl ?_ (State.acceptOp_accepted ..).2.1
      ⟨State.acceptOp_spr .., State.acceptOp_accepted f _ a 0 4096 4096 false (s.sawTdt n line)⟩
    have hplace : ¬((!inVault a) = true ∨ a % 64 ≠ 0) := by simp [inVault_of_classBad ha, halign]
    have hodd : ¬(d.width = 4 ∧ tileCoord c 0 % 2 = 1) := fun ⟨hwidth, hone⟩ => by
      have := hparity hwidth
      omega
    refine (if_neg hplace).trans ?_
    simp only [hread]
    refine (if_neg hodd).trans ?_
    cases hst : f.q.getLsbD 0 with
    | true =>
      rw [hst] at hw hrd
      simp only [if_true]
      exact (engChecks_of_ok (ws := []) (rs := ends a 4096) hw hrd).trans (by simp only [hrecall]; rfl)
    | false =>
      rw [hst] at hw hrd
      simp only [Bool.false_eq_true, if_false]
      exact (engChecks_of_ok (ws := ends a 4096) (rs := []) hw hrd).trans (by simp only [hrecall]; rfl)
  · intro hr hlen ha hb ⟨hw, hrd⟩
    refine engSlot_goes (i := .copyIdx f) hr rfl ?_ (haccept ..).2.1
      ⟨State.acceptOp_spr .., haccept (.idx (2 ^ (f.q.toNat + 2))) a b c.toNat _ false⟩
    have hfits : ¬(65536 < c.toNat ∨ classBad true a (c.toNat * 2 ^ (f.q.toNat + 2)) = true) := by
      simp [ha, hlen]
    exact (if_neg hfits).trans ((if_neg (not_not.mpr hb)).trans (engChecks_of_ok hw hrd))

end Sys2Proof.Machine
end

section
/-! The landing of results: what one effect leaves on the acting hart, and with it the end of a cycle (R11). -/

namespace Sys2Proof.Machine

/-! ### Several writes to a sparse map -/

section
variable {α : Type} [DecidableEq α] {d : α}

theorem NMap.putAll_append_cons (a b : List (Nat × α)) (u : Nat) (v : α) (m : NMap α) :
    NMap.putAll d (a ++ (u, v) :: b) m = NMap.putAll d b (NMap.put d u v (NMap.putAll d a m)) := by
  simp [NMap.putAll, List.foldl_append]

/-- Writes whose values are those of one function of the key: a key that is named takes its value. -/
theorem NMap.get_putAll_of_function {g : Nat → α} {u : Nat} : ∀ {ws : List (Nat × α)} {m : NMap α},
    (∀ e ∈ ws, e.2 = g e.1) → NMap.wf d m = true →
    NMap.get d u (NMap.putAll d ws m) = if ∃ e ∈ ws, e.1 = u then g u else NMap.get d u m
  | [], _, _, _ => by simp [NMap.putAll]
  | e :: ws, m, hg, h => by
    have hput : NMap.putAll d (e :: ws) m = NMap.putAll d ws (NMap.put d e.1 e.2 m) := rfl
    have hval : NMap.get d u (NMap.put d e.1 e.2 m) = if e.1 = u then g u else NMap.get d u m := by
      split
      · rename_i he
        rw [← he, NMap.get_put_self h, hg e List.mem_cons_self]
      · rename_i he
        exact NMap.get_put_of_ne (Ne.symm he) h
    rw [hput, NMap.get_putAll_of_function (fun x hx => hg x (List.mem_cons_of_mem e hx)) (NMap.wf_put h), hval]
    by_cases he : e.1 = u
    · rw [if_pos he, ite_self, if_pos ⟨e, List.mem_cons_self, he⟩]
    · rw [if_neg he]
      exact if_congr (by simp [he]) rfl rfl

/-- A change of one key at a time, of keys that are all different: each key that is named is changed once. -/
theorem NMap.get_foldl_put {f : α → α} {i : Nat} : ∀ {ks : List Nat} {m : NMap α}, ks.Nodup → NMap.wf d m = true →
    NMap.get d i (ks.foldl (fun m k => NMap.put d k (f (NMap.get d k m)) m) m)
      = if i ∈ ks then f (NMap.get d i m) else NMap.get d i m
  | [], _, _, _ => by simp
  | k :: ks, m, hks, h => by
    obtain ⟨hk, hks⟩ := List.nodup_cons.mp hks
    rw [List.foldl_cons, NMap.get_foldl_put hks (NMap.wf_put h)]
    by_cases hik : i = k
    · subst hik
      simp [hk, NMap.get_put_self h]
    · simp [hik, NMap.get_put_of_ne hik h]

end

/-- Writes of units leave what `UnitsLand` says: the last value for a unit, and the other units as before. -/
theorem unitsLand_putAll (ws : List (Nat × BitVec 32)) (m : NMap (BitVec 32)) :
    UnitsLand ws m (NMap.putAll 0#32 ws m) := by
  refine fun h => ⟨NMap.wf_putAll h, fun u hu => ?_, fun a u v b hws hb => ?_⟩
  · exact NMap.get_putAll_of_forall_ne (fun e he => (hu e he).symm) h
  · subst hws
    have ha : NMap.wf 0#32 (NMap.putAll 0#32 a m) = true := NMap.wf_putAll h
    rw [NMap.putAll_append_cons, NMap.get_putAll_of_forall_ne (fun e he => (hb e he).symm) (NMap.wf_put ha),
      NMap.get_put_self ha]

/-! ### Lists in order -/

/-- `sortBy` is the insertion sort of the library. -/
theorem sortBy_eq_insertionSort {α : Type} (le : α → α → Bool) (l : List α) :
    sortBy le l = l.insertionSort (fun a b => le a b = true) := by
  have hinsert (a : α) (l : List α) : insertBy le a l = l.orderedInsert (fun a b => le a b = true) a := by
    induction l with
    | nil => rfl
    | cons b l ih => simp only [insertBy, List.orderedInsert, ih]
  induction l with
  | nil => rfl
  | cons a l ih =>
    rw [sortBy, ih, hinsert]
    rfl

theorem mem_sortBy {α : Type} {le : α → α → Bool} {l : List α} {x : α} : x ∈ sortBy le l ↔ x ∈ l := by
  rw [sortBy_eq_insertionSort, List.mem_insertionSort]

/-- The `x.recv` queue is in the order in which its entries were sent. -/
theorem pairwise_sortBy_fst {β : Type} (l : List (Nat × β)) :
    (sortBy (fun a b => decide (a.1 ≤ b.1)) l).Pairwise (fun a b => a.1 ≤ b.1) := by
  have : Std.Total (fun a b : Nat × β => decide (a.1 ≤ b.1) = true) := ⟨fun a b => by simpa using le_total a.1 b.1⟩
  have : IsTrans (Nat × β) (fun a b => decide (a.1 ≤ b.1) = true) := ⟨fun a b c hab hbc => by
    simp only [decide_eq_true_eq] at hab hbc ⊢
    exact hab.trans hbc⟩
  rw [sortBy_eq_insertionSort]
  simpa using List.pairwise_insertionSort (fun a b : Nat × β => decide (a.1 ≤ b.1) = true) l

/-! ### Bits of words -/

theorem masked_maskWrite (mask : Nat) (old v : Word) : Masked mask old v (maskWrite mask old v) := by
  intro b hb
  simp only [maskWrite, BitVec.getLsbD_or, BitVec.getLsbD_and, BitVec.getLsbD_not, BitVec.getLsbD_ofNat, hb,
    decide_true, Bool.true_and]
  cases mask.testBit b <;> simp

/-- A write of a whole word. -/
theorem masked_whole (old v : Word) : Masked (2 ^ 64 - 1) old v v := by
  intro b hb
  rw [Nat.testBit_two_pow_sub_one, decide_eq_true hb, if_pos rfl]

/-- A number cut at a field: what lies above the bits `[h:l]`, the field, and what lies below. -/
theorem eq_above_add_field {h l : Nat} (hl : l ≤ h) (w : Nat) :
    w = 2 ^ (h + 1) * (w / 2 ^ (h + 1)) + (2 ^ l * bitsOf h l w + w % 2 ^ l) := by
  have hpow : 2 ^ (h + 1) = 2 ^ l * 2 ^ (h + 1 - l) := by rw [← pow_add, Nat.add_sub_cancel' (by omega)]
  have hlow := Nat.div_add_mod w (2 ^ l)
  have hhigh := Nat.div_add_mod (w / 2 ^ l) (2 ^ (h + 1 - l))
  rw [Nat.div_div_eq_div_mul, ← hpow] at hhigh
  rw [bitsOf, Nat.shiftRight_eq_div_pow, ← add_assoc, hpow, mul_assoc, ← mul_add, ← hpow, hhigh, hlow]

/-- A number whose field takes another value, bit by bit. -/
theorem testBit_replace_field {h l b : Nat} (hl : l ≤ h) (w v : Nat) :
    (w - bitsOf h l w * 2 ^ l + v % 2 ^ (h + 1 - l) * 2 ^ l).testBit b
      = if l ≤ b ∧ b ≤ h then v.testBit (b - l) else w.testBit b := by
  have hpow : 2 ^ (h + 1) = 2 ^ l * 2 ^ (h + 1 - l) := by rw [← pow_add, Nat.add_sub_cancel' (by omega)]
  have hcut : w - bitsOf h l w * 2 ^ l + v % 2 ^ (h + 1 - l) * 2 ^ l
      = 2 ^ (h + 1) * (w / 2 ^ (h + 1)) + (2 ^ l * (v % 2 ^ (h + 1 - l)) + w % 2 ^ l) := by
    have := eq_above_add_field hl w
    rw [mul_comm (bitsOf h l w), mul_comm (v % 2 ^ (h + 1 - l))]
    omega
  have hlow : w % 2 ^ l < 2 ^ l := Nat.mod_lt _ (by positivity)
  have hfield : 2 ^ l * (v % 2 ^ (h + 1 - l)) + w % 2 ^ l < 2 ^ (h + 1) := by
    have hv : v % 2 ^ (h + 1 - l) + 1 ≤ 2 ^ (h + 1 - l) := Nat.mod_lt _ (by positivity)
    calc 2 ^ l * (v % 2 ^ (h + 1 - l)) + w % 2 ^ l < 2 ^ l * (v % 2 ^ (h + 1 - l)) + 2 ^ l := by omega
      _ = 2 ^ l * (v % 2 ^ (h + 1 - l) + 1) := by ring
      _ ≤ 2 ^ (h + 1) := by rw [hpow]; gcongr
  rw [hcut, Nat.testBit_two_pow_mul_add _ hfield, Nat.testBit_two_pow_mul_add _ hlow]
  by_cases habove : b < h + 1
  · by_cases hbelow : b < l
    · simp [habove, hbelow, show ¬l ≤ b by omega, Nat.testBit_mod_two_pow]
    · simp [habove, hbelow, show l ≤ b by omega, show b ≤ h by omega, Nat.testBit_mod_two_pow,
        show b - l < h + 1 - l by omega]
  · simp [habove, show ¬b ≤ h by omega, Nat.testBit_div_two_pow, show b - (h + 1) + (h + 1) = b by omega]

/-- The bits of a word after a field of it has taken a value. -/
theorem getLsbD_setBits {h l b : Nat} (hl : l ≤ h) (hb : b < 64) (v : Nat) (w : Word) :
    (setBits h l v w).getLsbD b = if l ≤ b ∧ b ≤ h then v.testBit (b - l) else w.getLsbD b := by
  rw [setBits, BitVec.getLsbD_ofNat, testBit_replace_field hl, decide_eq_true hb, Bool.true_and]
  rfl

/-- The bits of a field. -/
theorem testBit_wbits {h l i : Nat} (w : Word) :
    (wbits h l w).testBit i = (decide (i < h + 1 - l) && w.getLsbD (l + i)) := by
  rw [wbits, bitsOf, Nat.testBit_mod_two_pow, Nat.testBit_shiftRight]
  rfl

/-- A field of a word that takes the same field of another one. -/
theorem getLsbD_setBits_wbits {h l b : Nat} (hl : l ≤ h) (hb : b < 64) (v w : Word) :
    (setBits h l (wbits h l v) w).getLsbD b = if l ≤ b ∧ b ≤ h then v.getLsbD b else w.getLsbD b := by
  rw [getLsbD_setBits hl hb]
  split
  · rename_i h
    rw [testBit_wbits, decide_eq_true (by omega), Bool.true_and, Nat.add_sub_cancel' h.1]
  · rfl

/-- The bits that a write of `PLV` reaches at a level (R337). -/
theorem getLsbD_plvWrite (lvl : Nat) (old v : Word) {b : Nat} (hb : b < 64) :
    (plvWrite lvl old v).getLsbD b =
      if b = 6 ∨ b = 8 ∨ ((b = 2 ∨ b = 3) ∧ wbits 3 2 v ≠ 3 ∧ (lvl = 1 → wbits 3 2 v ≠ 2)) ∨
        (lvl = 2 ∧ (b = 7 ∨ b = 9 ∨ ((b = 4 ∨ b = 5) ∧ wbits 5 4 v ≠ 3)))
      then v.getLsbD b else old.getLsbD b := by
  have hS (old : Word) : (maskWrite 0x140 old v).getLsbD b = if b = 6 ∨ b = 8 then v.getLsbD b else old.getLsbD b := by
    have hmask : ∀ b < 64, Nat.testBit 0x140 b = decide (b = 6 ∨ b = 8) := by decide
    rw [masked_maskWrite _ _ _ b hb, hmask b hb]
    simp
  have hM (old : Word) : (maskWrite 0x280 old v).getLsbD b = if b = 7 ∨ b = 9 then v.getLsbD b else old.getLsbD b := by
    have hmask : ∀ b < 64, Nat.testBit 0x280 b = decide (b = 7 ∨ b = 9) := by decide
    rw [masked_maskWrite _ _ _ b hb, hmask b hb]
    simp
  have hsp (w : Word) :
      (if wbits 3 2 v = 3 ∨ (lvl = 1 ∧ wbits 3 2 v = 2) then w else setBits 3 2 (wbits 3 2 v) w).getLsbD b
      = if (b = 2 ∨ b = 3) ∧ wbits 3 2 v ≠ 3 ∧ (lvl = 1 → wbits 3 2 v ≠ 2) then v.getLsbD b else w.getLsbD b := by
    split
    · rw [if_neg (by tauto)]
    · rw [getLsbD_setBits_wbits (by decide) hb]
      exact if_congr (by omega) rfl rfl
  have hmp (w : Word) : (if wbits 5 4 v = 3 then w else setBits 5 4 (wbits 5 4 v) w).getLsbD b
      = if (b = 4 ∨ b = 5) ∧ wbits 5 4 v ≠ 3 then v.getLsbD b else w.getLsbD b := by
    split
    · rw [if_neg (by tauto)]
    · rw [getLsbD_setBits_wbits (by decide) hb]
      exact if_congr (by omega) rfl rfl
  simp only [plvWrite]
  split
  · rename_i hlvl
    rw [hmp, hM, hsp, hS, ← ite_or, ← ite_or, ← ite_or]
    exact if_congr (by tauto) rfl rfl
  · rename_i hlvl
    rw [hsp, hS, ← ite_or]
    exact if_congr (by tauto) rfl rfl

end Sys2Proof.Machine
end

section
/-! Writes of system registers when they land, and the landing of each effect of a result (R11, R340). -/

namespace Sys2Proof.Machine

/-! ### What a landing changes -/

/-- A write of a system register changes the system registers, and for `HYP`, `RNGK` and the park threshold what hangs
on them. -/
def SprFrame (n : Nat) (s t : State) : Prop :=
  ∃ r hs mo hb, t = { s with
      me := { s.me with spr := r, units := { s.me.units with hstack := hs, mould := mo } }, hub := hb } ∧
    (n ≠ 0x0b → mo = s.me.units.mould) ∧ (n ≠ 0x12 → hb = s.hub)

theorem sprWrite_frame (lvl n : Nat) (v : Word) (s : State) : SprFrame n s (sprWrite lvl n v s) := by
  have hsame : SprFrame n s s := ⟨_, _, _, _, rfl, fun _ => rfl, fun _ => rfl⟩
  unfold sprWrite
  extract_lets r set core reach
  have hset (f : Sprs → Sprs) : SprFrame n s (set f) := ⟨_, _, _, _, rfl, fun _ => rfl, fun _ => rfl⟩
  have hwhere (c : Prop) [Decidable c] (f : Sprs → Sprs) : SprFrame n s (if c then set f else s) := by
    split
    · exact hset f
    · exact hsame
  clear_value set core reach
  split
  · unfold hypWrite
    extract_lets p
    split
    · exact ⟨_, _, _, _, rfl, fun _ => rfl, fun _ => rfl⟩
    · exact hsame
  · exact hwhere _ _
  · split
    · exact hsame
    · exact hset _
  · exact hset _
  · exact ⟨_, _, _, _, rfl, fun h => absurd rfl h, fun _ => rfl⟩
  · exact ⟨_, _, _, _, rfl, fun _ => rfl, fun h => absurd rfl h⟩
  · exact hset _
  · exact hset _
  · exact hset _
  · exact hset _
  · exact hset _
  · exact hset _
  · exact hset _
  · exact hwhere _ _
  · exact hset _
  · exact hset _
  · exact hset _
  · exact hset _
  · exact hset _
  · exact hwhere _ _
  · exact hwhere _ _
  · exact hwhere _ _
  · exact hwhere _ _
  · exact hsame

/-- The landing of an effect changes registers, system registers, units, the memory side, what is latched, and the
package: the acting hart keeps its name, its place, its control and its schedule, and the other harts are as before. -/
theorem State.landEff_frame (s : State) (e : Eff) : ∃ r p u l m hb, s.landEff e =
    { s with me := { s.me with regs := r, spr := p, units := u, lsu := l, latched := m }, hub := hb } := by
  cases e with
  | spr lvl n v =>
    obtain ⟨r, hs, mo, hb, he, -, -⟩ := sprWrite_frame lvl n v s
    exact ⟨_, _, _, _, _, _, he⟩
  | space shadow ws => cases shadow <;> exact ⟨_, _, _, _, _, _, rfl⟩
  | bits shadow k mask v => cases shadow <;> exact ⟨_, _, _, _, _, _, rfl⟩
  | vault n pa bs =>
    simp only [State.landEff, State.vaultLands]
    split <;> exact ⟨_, _, _, _, _, _, rfl⟩
  | _ => exact ⟨_, _, _, _, _, _, rfl⟩

/-! ### System registers -/

/-- The events that a write at a level reaches (R339). -/
theorem testBit_eventReach (lvl : Nat) (evlvl : Word) (b : Nat) :
    (if lvl = 2 then 0x3f else 0x3f - evlvl.toNat % 64).testBit b = true ↔
      b < 6 ∧ (lvl = 2 ∨ evlvl.getLsbD b = false) := by
  split
  · rename_i hlvl
    rw [show (0x3f : Nat) = 2 ^ 6 - 1 from rfl, Nat.testBit_two_pow_sub_one]
    simp [hlvl]
  · rename_i hlvl
    have hlt : evlvl.toNat % 2 ^ 6 < 2 ^ 6 := Nat.mod_lt _ (by decide)
    rw [show 0x3f - evlvl.toNat % 64 = 2 ^ 6 - (evlvl.toNat % 2 ^ 6 + 1) by omega,
      Nat.testBit_two_pow_sub_succ hlt, Nat.testBit_mod_two_pow]
    by_cases hb : b < 6 <;> simp [hlvl, hb, BitVec.getLsbD]

/-- A write of a system register leaves what `SprLands` says of its number. -/
theorem sprWrite_lands (lvl n : Nat) (v : Word) (s : State) : SprLands lvl n v s (sprWrite lvl n v s) := by
  unfold SprLands
  refine ⟨?hyp, ?hypKept, ?meet, ?pix, ?msh, ?rngk, ?park, ?tcause, ?tpc, ?taddr, ?titer, ?plv, ?svec, ?mvec, ?part,
    ?xflt, ?sscr, ?mscr, ?dbg, ?hwsel, ?evpend, ?even, ?evlvl, ?tcmp⟩
  case msh | tcause | svec | mvec | xflt | dbg | hwsel =>
    rintro rfl
    exact ⟨_, rfl, masked_maskWrite _ _ _⟩
  case tpc | taddr | titer | sscr | mscr =>
    rintro rfl
    exact ⟨_, rfl, masked_whole _ _⟩
  case hyp =>
    rintro rfl k hk
    simp [sprWrite, hypWrite, hk]
  case hypKept =>
    rintro rfl hk
    simp [sprWrite, hypWrite, hk]
  case meet =>
    rintro rfl
    refine ⟨fun h => ⟨maskWrite (2 ^ 57 - 1) s.me.spr.meet v, ?_, masked_maskWrite _ _ _⟩, fun h => ?_⟩
    · obtain h | h | ⟨h, hprev⟩ := h
      · simp [sprWrite, h]
      · simp [sprWrite, h]
      · simp [sprWrite, h, hprev]
    · obtain ⟨hcore, hrun⟩ := not_or.mp h
      obtain ⟨hrun, hhandler⟩ := not_or.mp hrun
      simp [sprWrite, hcore, hrun, hhandler]
  case pix =>
    rintro rfl
    exact ⟨fun h => ⟨maskWrite (7 * 2 ^ 52 + (2 ^ 32 - 1)) s.me.spr.pix v, by simp [sprWrite, not_le.mpr h],
      masked_maskWrite _ _ _⟩, fun h => by simp [sprWrite, h]⟩
  case rngk =>
    rintro rfl
    exact ⟨⟨_, rfl, masked_whole _ _⟩, rfl, rfl, rfl⟩
  case park =>
    rintro rfl
    refine ⟨rfl, fun _ => ?_⟩
    have hlt : wbits 31 0 v < 2 ^ 32 := Nat.mod_lt _ (by decide)
    simp only [sprWrite, Hub.part_setPart, if_true]
    split
    · rename_i h
      exact (Nat.max_eq_left h.le).symm
    · rename_i h
      rw [BitVec.toNat_ofNat, Nat.mod_eq_of_lt (by omega)]
      exact (Nat.max_eq_right (not_lt.mp h)).symm
  case plv =>
    rintro rfl
    exact ⟨_, rfl, fun b hb => getLsbD_plvWrite lvl _ v hb⟩
  case part =>
    rintro rfl
    exact ⟨fun h => ⟨maskWrite 0xf s.me.spr.part v, by simp [sprWrite, h], masked_maskWrite _ _ _⟩,
      fun h => by simp [sprWrite, h]⟩
  case evlvl =>
    rintro rfl
    exact ⟨fun h => ⟨maskWrite 0x3f s.me.spr.evlvl v, by simp [sprWrite, h], masked_maskWrite _ _ _⟩,
      fun h => by simp [sprWrite, h]⟩
  case tcmp =>
    rintro rfl
    exact ⟨fun h => ⟨v, by simp [sprWrite, h], masked_whole _ _⟩, fun h => by simp [sprWrite, h]⟩
  case even =>
    rintro rfl
    refine ⟨fun h => ⟨maskWrite (if lvl = 2 then 0x3f else 0x3f - s.me.spr.evlvl.toNat % 64) s.me.spr.even v,
      by simp [sprWrite, h], fun b hb => ?_⟩, fun h => by simp [sprWrite, h]⟩
    have hreach := testBit_eventReach lvl s.me.spr.evlvl b
    rw [masked_maskWrite _ _ _ b hb]
    exact ⟨fun h => if_pos (hreach.mpr h), fun h => if_neg (mt hreach.mp h)⟩
  case evpend =>
    rintro rfl
    refine ⟨fun h => ⟨s.me.spr.evpend &&& ~~~(v &&& BitVec.ofNat 64
      ((if lvl = 2 then 0x3f else 0x3f - s.me.spr.evlvl.toNat % 64) &&& 0x3e)),
      by simp [sprWrite, h], fun b hb => ?_⟩, fun h => by simp [sprWrite, h]⟩
    have hmask : ∀ b < 64, Nat.testBit 0x3e b = decide (0 < b ∧ b < 6) := by decide
    have hreach := testBit_eventReach lvl s.me.spr.evlvl b
    rw [BitVec.getLsbD_and, BitVec.getLsbD_not, BitVec.getLsbD_and, BitVec.getLsbD_ofNat, Nat.testBit_and, hmask b hb]
    beta_reduce
    rw [← hreach]
    by_cases hr : (if lvl = 2 then 0x3f else 0x3f - s.me.spr.evlvl.toNat % 64).testBit b = true
    · generalize v.getLsbD b = x
      cases x <;> simp [hr, hb, (hreach.mp hr).1]
    · simp [hr, hb]

/-! ### Registers -/

theorem Regs.setS_eq (r : Regs) (n : BitVec 6) (v : Word) : r.setS n v = { r with s := (r.setS n v).s } := by
  unfold Regs.setS
  split <;> rfl

theorem Regs.setP_eq (r : Regs) (n : BitVec 3) (v : Bool) : r.setP n v = { r with p := (r.setP n v).p } := by
  unfold Regs.setP
  split <;> rfl

theorem Regs.setM_eq (r : Regs) (n : BitVec 3) (v : Word) : r.setM n v = { r with m := (r.setM n v).m } := by
  unfold Regs.setM
  split <;> rfl

/-- A read after a write of register `n`, of which number 0 keeps its constant. -/
theorem read_after_write_eq {α : Type} {w : Nat} {n j : BitVec w} {zero v : α} {old : BitVec w → α}
    (hz : old 0#w = zero) : (if j = 0#w then zero else if n = j then v else old j)
      = if j = n ∧ n ≠ 0 then v else old j := by
  by_cases hj : j = 0#w
  · subst hj
    by_cases hn : (0#w : BitVec w) = n
    · subst hn
      simp [hz]
    · simp [hz, hn]
  · by_cases hn : n = j
    · subst hn
      simp [hj]
    · simp [hj, hn, Ne.symm hn]

theorem getLsbD_mergeBits (on old v : Word) {l : Nat} (hl : l < 64) :
    (mergeBits on old v).getLsbD l = if on.getLsbD l then v.getLsbD l else old.getLsbD l := by
  simp only [mergeBits, BitVec.getLsbD_or, BitVec.getLsbD_and, BitVec.getLsbD_not, hl, decide_true, Bool.true_and]
  cases on.getLsbD l <;> simp

/-! ### The landing of an `accept` -/

/-- The count of a lane after it has risen by one, at most to its greatest value (R178). -/
def bumpCount (c : BitVec 32) : BitVec 32 := if c = BitVec.allOnes 32 then c else c + 1

theorem toNat_bumpCount (c : BitVec 32) : (bumpCount c).toNat = Nat.min (2 ^ 32 - 1) (c.toNat + 1) := by
  unfold bumpCount
  split
  · rename_i h
    subst h
    rfl
  · rename_i h
    have hne : c.toNat ≠ 2 ^ 32 - 1 := fun e => h (BitVec.eq_of_toNat_eq (e.trans (by decide)))
    have hlt := c.isLt
    rw [BitVec.toNat_add, show BitVec.toNat (1 : BitVec 32) = 1 from rfl, Nat.mod_eq_of_lt (by omega)]
    exact (Nat.min_eq_right (by omega)).symm

/-- The counts of the lanes that a mask names rise by one each. -/
theorem counts_foldl_bump (on : Word) {m : NMap (BitVec 32)} (h : NMap.wf 0#32 m = true) {l : Nat} (hl : l < 64) :
    (NMap.get 0#32 l (((List.range 64).filter (fun l => on.getLsbD l)).foldl
      (fun m l => NMap.put 0#32 l (bumpCount (NMap.get 0#32 l m)) m) m)).toNat
      = if on.getLsbD l then Nat.min (2 ^ 32 - 1) ((NMap.get 0#32 l m).toNat + 1) else (NMap.get 0#32 l m).toNat := by
  have hnodup : ((List.range 64).filter (fun l => on.getLsbD l)).Nodup := List.nodup_range.filter _
  rw [NMap.get_foldl_put hnodup h]
  cases hon : on.getLsbD l with
  | true => simp [hon, hl, toNat_bumpCount]
  | false => simp [hon]

/-- The key of a shadowed unit, by its offset in the shadowed registers. -/
theorem mem_acceptedKeys (ok : Word) (base count u : Nat) :
    (∃ k ∈ (List.range (64 * count)).filter (fun k => ok.getLsbD (k % 64)), base + k = u) ↔
      base ≤ u ∧ u < base + 64 * count ∧ ok.getLsbD ((u - base) % 64) = true := by
  simp only [List.mem_filter, List.mem_range]
  constructor
  · rintro ⟨k, ⟨hk, hok⟩, rfl⟩
    exact ⟨by omega, by omega, by rwa [Nat.add_sub_cancel_left]⟩
  · rintro ⟨hle, hlt, hok⟩
    exact ⟨u - base, ⟨by omega, hok⟩, by omega⟩

theorem Hart.acceptLands_lands (ok active : Word) (h : Hart) : AcceptLands ok active h (h.acceptLands ok active) := by
  refine ⟨fun hwf u => ?_, rfl, rfl, rfl, fun hwf l hl => counts_foldl_bump active hwf hl,
    fun hwf l hl => counts_foldl_bump ok hwf hl⟩
  have hbase : h.spr.vwv.toNat / 2 ^ 8 % 2 ^ 10 * 64 + h.units.mould.first * 64
      = h.vBase + 64 * h.units.mould.first := by
    rw [Hart.vBase, wbits, bitsOf, Nat.shiftRight_eq_div_pow, Nat.mul_comm 64]
  simp only [Hart.acceptLands, Regs.setUnits_space, hbase]
  rw [NMap.get_putAll_of_function (g := fun u => NMap.get 0#32 u h.units.mould.shadow) _ hwf]
  · refine if_congr ?_ rfl rfl
    rw [← mem_acceptedKeys]
    simp
  · rintro e he
    obtain ⟨k, -, rfl⟩ := List.mem_map.mp he
    rfl

/-! ### The landing of each effect -/

theorem le_foldl_max {α : Type} (g : α → Nat) (b : Nat) {l : List α} {x : α} (hx : x ∈ l) :
    g x ≤ l.foldl (fun t o => Nat.max t (g o)) b := by
  have hstart (l : List α) (b : Nat) : b ≤ l.foldl (fun t o => Nat.max t (g o)) b := by
    induction l generalizing b with
    | nil => exact le_rfl
    | cons y l ih => exact (Nat.le_max_left b (g y)).trans (ih _)
  induction l generalizing b with
  | nil => cases hx
  | cons y l ih =>
    obtain rfl | hx := List.mem_cons.mp hx
    · exact (Nat.le_max_right b (g x)).trans (hstart l _)
    · exact ih _ hx

/-- An effect leaves what `Lands` says of it (R11, R12, R15, R71, R85, R156, R169, R173, R207, R373). -/
theorem State.landEff_lands (e : Eff) (s : State) : Lands e s (s.landEff e) := by
  cases e with
  | s n v =>
    refine ⟨⟨Regs.setS_eq _ _ _, rfl, rfl, rfl⟩, fun j => ?_⟩
    exact (Regs.sReg_setS _ _ _ _).trans (read_after_write_eq rfl)
  | g n v =>
    refine ⟨⟨rfl, rfl, rfl, rfl⟩, fun j => (Regs.gReg_setG _ _ _ _).trans ?_⟩
    exact if_congr eq_comm rfl rfl
  | p n v =>
    refine ⟨⟨Regs.setP_eq _ _ _, rfl, rfl, rfl⟩, fun j => ?_⟩
    exact (Regs.pReg_setP _ _ _ _).trans (read_after_write_eq rfl)
  | m n v =>
    refine ⟨⟨Regs.setM_eq _ _ _, rfl, rfl, rfl⟩, fun j => ?_⟩
    exact (Regs.mReg_setM _ _ _ _).trans (read_after_write_eq rfl)
  | mBits n on w =>
    have hread (j : BitVec 3) : (s.landEff (.mBits n on w)).me.regs.mReg j
        = if j = n ∧ n ≠ 0 then mergeBits on (s.me.regs.mReg n) w else s.me.regs.mReg j :=
      (Regs.mReg_setM _ _ _ _).trans (read_after_write_eq rfl)
    refine ⟨⟨Regs.setM_eq _ _ _, rfl, rfl, rfl⟩, fun j hj => ?_, fun l hl => ?_⟩
    · rw [hread, if_neg (fun h => hj h.1)]
    · rw [hread]
      by_cases hn : n = 0
      · subst hn
        rw [if_neg (fun h => h.2 rfl), show s.me.regs.mReg 0 = BitVec.allOnes 64 from rfl, BitVec.getLsbD_allOnes]
        simp [hl]
      · rw [if_pos ⟨rfl, hn⟩, getLsbD_mergeBits _ _ _ hl, beq_false_of_ne hn, Bool.false_or]
  | space shadow ws =>
    cases shadow with
    | false => exact ⟨⟨rfl, rfl, rfl, rfl⟩, unitsLand_putAll _ _⟩
    | true => exact ⟨rfl, rfl, rfl, rfl, unitsLand_putAll _ _⟩
  | bits shadow u on v =>
    cases shadow with
    | false => exact ⟨rfl, rfl, rfl, unitsLand_putAll _ _, nofun, fun _ => rfl⟩
    | true => exact ⟨rfl, rfl, rfl, unitsLand_putAll _ _, fun _ => rfl, nofun⟩
  | sem n inc => exact ⟨rfl, rfl, rfl⟩
  | lt x => exact ⟨rfl, rfl, rfl⟩
  | spr lvl n v =>
    obtain ⟨r, hs, mo, hb, he, hmould, hhub⟩ := sprWrite_frame lvl n v s
    have hregs : (sprWrite lvl n v s).me.regs = s.me.regs := by rw [he]
    have hmould' : n ≠ 0x0b → (sprWrite lvl n v s).me.units.mould = s.me.units.mould :=
      fun hn => by rw [he, ← hmould hn]
    have hhub' : n ≠ 0x12 → (sprWrite lvl n v s).hub = s.hub := fun hn => by rw [he, ← hhub hn]
    exact ⟨hregs, sprWrite_lands lvl n v s, hmould', hhub'⟩
  | xpass n ls =>
    exact ⟨⟨rfl, rfl, rfl, rfl⟩, fun _ => pairwise_sortBy_fst _, fun x => by
      rw [show (s.landEff (.xpass n ls)).me.units.xq = sortBy _ _ from rfl, mem_sortBy]
      simp [or_comm]⟩
  | accept ok active => exact ⟨rfl, rfl, rfl, Hart.acceptLands_lands ok active s.me⟩
  | memErr a i => exact ⟨⟨rfl, rfl, rfl, rfl⟩, rfl⟩
  | vault n pa bs =>
    simp only [State.landEff, State.vaultLands]
    cases hhit : s.hub.vaultHit pa bs.length with
    | true => exact ⟨rfl, rfl, Hub.putVault_mem .., by simp [State.modMe, hhit]⟩
    | false => exact ⟨rfl, rfl, Hub.putVault_mem .., by simp [State.modMe, hhit]⟩
  | seen p =>
    refine ⟨rfl, rfl, _, rfl, Nat.le_max_left _ _, fun o ho hp hd => ?_⟩
    exact (le_foldl_max EngOp.stamp 0 (List.mem_filter.mpr ⟨ho, by simp [hp, hd]⟩)).trans (Nat.le_max_right _ _)

/-! ### The end of a cycle -/

theorem State.landDue_single {s : State} {q k r : Nat} {pc : VAddr} {e : Eff}
    (h : s.me.sched.pipe = [⟨q, 0, pc, k, r, some [e]⟩]) :
    s.landDue = (s.modMe (fun x => { x with sched := { x.sched with pipe := [] } })).landEff e := by
  simp [State.landDue, h, Pend.ready, sortBy, insertBy, State.landPend, State.modMe]

theorem State.landDue_none {s : State} (h : ∀ p ∈ s.me.sched.pipe, p.ready = false) : s.landDue = s := by
  have hdue : s.me.sched.pipe.filter Pend.ready = [] := List.filter_eq_nil_iff.mpr (by simpa using h)
  have hrest : s.me.sched.pipe.filter (fun p => !p.ready) = s.me.sched.pipe :=
    List.filter_eq_self.mpr (by simpa using h)
  simp [State.landDue, hdue, hrest, sortBy, State.modMe]

/-- Of two results for a scalar register that are due together, the later-issued lands last (R12). -/
theorem State.landDue_pair {s : State} {q q' k r : Nat} {pc pc' : VAddr} {d : BitVec 6} {v w : Word} (hq : q < q')
    (h : s.me.sched.pipe = [⟨q', 0, pc', k, r, some [.s d w]⟩, ⟨q, 0, pc, k, r, some [.s d v]⟩]) :
    s.landDue = ((s.modMe (fun x => { x with sched := { x.sched with pipe := [] } })).landEff (.s d v)).landEff
      (.s d w) := by
  simp [State.landDue, h, Pend.ready, sortBy, insertBy, hq.not_ge, State.landPend, State.modMe]

/-- A write of a scalar register over another write of the same one leaves what it leaves alone. -/
theorem Lands.over_scalar {s t u : State} {d : BitVec 6} {v w : Word} (h : Lands (.s d v) s t)
    (h' : Lands (.s d w) t u) : Lands (.s d w) s u := by
  obtain ⟨⟨hregs, hspr, hmould, hhub⟩, hread⟩ := h
  obtain ⟨⟨hregs', hspr', hmould', hhub'⟩, hread'⟩ := h'
  refine ⟨⟨?_, hspr'.trans hspr, hmould'.trans hmould, hhub'.trans hhub⟩, fun j => (hread' j).trans ?_⟩
  · rw [hregs'.trans (congrArg (fun r : Regs => { r with s := u.me.regs.s }) hregs)]
  · rw [hread j]
    split <;> rfl

/-- The end of a cycle lands changes of semaphores alone. -/
theorem State.endFrozen_frame (s : State) : s.endFrozen.me.regs = s.me.regs ∧ s.endFrozen.me.spr = s.me.spr ∧
    s.endFrozen.me.sched = s.me.sched ∧ s.endFrozen.me.units.mould = s.me.units.mould ∧ s.endFrozen.hub = s.hub ∧
    s.endFrozen.ring = s.ring := by
  have hdone (h : Hart) : h.stepDone.regs = h.regs ∧ h.stepDone.spr = h.spr ∧ h.stepDone.sched = h.sched ∧
      h.stepDone.units = h.units := by
    unfold Hart.stepDone
    split <;> exact ⟨rfl, rfl, rfl, rfl⟩
  obtain ⟨hregs, hspr, hsched, hunits⟩ := hdone s.me.pass.landSems
  have hmould : s.me.pass.landSems.stepDone.units.mould = s.me.units.mould := by rw [hunits]; rfl
  exact ⟨hregs, hspr, hsched, hmould, rfl, rfl⟩

/-- A cycle that ends after a landing, outside a stepped one, changes nothing that the landing speaks of. -/
theorem Lands.endFrozen {e : Eff} {s t : State} (h : Lands e s t) (hstep : t.me.ctl.stepping = false) :
    Lands e s t.endFrozen := by
  have hend : t.endFrozen = t.modMe (fun x => x.pass.landSems) := by
    simp [State.endFrozen, State.modMe, Hart.stepDone, Hart.pass, hstep]
  rw [hend]
  exact h

/-- The acting hart with the results in flight taken out. -/
def State.emptyPipe (s : State) : State := s.modMe (fun x => { x with sched := { x.sched with pipe := [] } })

/-- The start of the end of a cycle: what is counted in cycles comes one nearer. -/
def State.tickMe (s : State) : State :=
  s.modMe (fun h => { h with sched := h.sched.tick, ctl := { h.ctl with lsLeft := h.ctl.lsLeft - 1 } })

theorem State.endCycle_eq (s : State) : s.endCycle = s.tickMe.landDue.endFrozen := rfl

/-- One result that is due leaves at the end of the cycle what its effect leaves. -/
theorem State.endCycle_lands {s : State} {q k r : Nat} {pc : VAddr} {e : Eff} (hstep : s.me.ctl.stepping = false)
    (hpipe : s.me.sched.pipe = [⟨q, 1, pc, k, r, some [e]⟩]) :
    Lands e s s.endCycle ∧ s.endCycle.me.sched.pipe = [] ∧ s.endCycle.me.sched.loop = s.me.sched.loop ∧
      s.endCycle.ring = s.ring := by
  have htick : s.tickMe.me.sched.pipe = [⟨q, 0, pc, k, r, some [e]⟩] := by
    simp [State.tickMe, State.modMe, Sched.tick, hpipe]
  have hdue : s.tickMe.landDue = s.tickMe.emptyPipe.landEff e := State.landDue_single htick
  have hlands : Lands e s (s.tickMe.emptyPipe.landEff e) := State.landEff_lands e s.tickMe.emptyPipe
  obtain ⟨-, -, hsched, -, -, hring⟩ := State.endFrozen_frame (s.tickMe.emptyPipe.landEff e)
  rw [State.endCycle_eq, hdue, hsched, hring]
  obtain ⟨r, p, u, l, m, hb, he⟩ := State.landEff_frame s.tickMe.emptyPipe e
  refine ⟨hlands.endFrozen ?_, ?_, ?_, ?_⟩ <;> rw [he]
  · exact hstep
  · rfl
  · rfl
  · rfl

/-- Settles O9: the end of a cycle is a tick, the landing of what is due, and the changes of semaphores, and each
effect lands as `State.landEff_lands` says. -/
theorem resultLandsAtItsLatency : Obligations.ResultLandsAtItsLatency := by
  intro s q o k r pc e hsem hstep
  refine ⟨State.endCycle_lands hstep, fun hpipe => ?_, fun d v w q' pc' hq hpipe => ?_⟩
  · have htick : s.tickMe.me.sched.pipe = [⟨q, o + 1, pc, k, r, some [e]⟩] := by
      simp [State.tickMe, State.modMe, Sched.tick, hpipe]
    have hnone : s.tickMe.landDue = s.tickMe := State.landDue_none (by simp [htick, Pend.ready])
    obtain ⟨hregs, hspr, hsched, hmould, hhub, -⟩ := State.endFrozen_frame s.tickMe
    rw [State.endCycle_eq, hnone, hregs, hspr, hsched, hmould, hhub]
    exact ⟨rfl, rfl, rfl, rfl, htick⟩
  · have htick : s.tickMe.me.sched.pipe
        = [⟨q', 0, pc', k, r, some [.s d w]⟩, ⟨q, 0, pc, k, r, some [.s d v]⟩] := by
      simp [State.tickMe, State.modMe, Sched.tick, hpipe]
    have hdue : s.tickMe.landDue = (s.tickMe.emptyPipe.landEff (.s d v)).landEff (.s d w) :=
      State.landDue_pair hq htick
    have hfirst : Lands (.s d v) s (s.tickMe.emptyPipe.landEff (.s d v)) :=
      State.landEff_lands (.s d v) s.tickMe.emptyPipe
    rw [State.endCycle_eq, hdue]
    exact (hfirst.over_scalar (State.landEff_lands _ _)).endFrozen hstep

end Sys2Proof.Machine
end

section
/-! The waits of a hart: what each event that ends one leaves, wherever the hart stands. -/

namespace Sys2Proof.Machine

/-- An event that concerns a hart acts on the state in which this hart acts. -/
theorem State.onHart_of_focus {h : HartId} {s u : State} {f : State → State} (e : s.focus h = some u) :
    s.onHart h f = f u := by
  simp [State.onHart, e]

/-! ### Results that are due -/

/-- The landing of one result that is due, with the other results and the other harts as they were. -/
theorem State.landDue_lands {s : State} {q k r : Nat} {pc : VAddr} {e : Eff}
    (h : s.me.sched.pipe = [⟨q, 0, pc, k, r, some [e]⟩]) :
    Lands e s s.landDue ∧ s.landDue.me.sched = { s.me.sched with pipe := [] } ∧ s.landDue.ring = s.ring := by
  have hdue : s.landDue = s.emptyPipe.landEff e := State.landDue_single h
  have hlands : Lands e s (s.emptyPipe.landEff e) := State.landEff_lands e s.emptyPipe
  rw [hdue]
  obtain ⟨r, p, u, l, m, hb, he⟩ := State.landEff_frame s.emptyPipe e
  exact ⟨hlands, by rw [he]; rfl, by rw [he]; rfl⟩

/-- A vector that was passed is the only due result: the event lands it as any due result lands. -/
theorem execXPassEntryArrives_of_single {h : HartId} {s u : State} {q k r n : Nat} {pc : VAddr} {ls : List (BitVec 32)}
    (e : s.focus h = some u) (hpipe : u.me.sched.pipe = [⟨q, 0, pc, k, r, some [.xpass n ls]⟩]) :
    execXPassEntryArrives h s = .next u.landDue := by
  rw [State.landDue_single hpipe, execXPassEntryArrives, State.onHart_of_focus e]
  simp [hpipe, Pend.ready, sortBy, insertBy, State.landPend, State.modMe]

/-! ### The matrix unit -/

/-- The arrival of a value leaves every result in flight in its place in the issue order. -/
theorem Hart.liveTails_deliver (seq : Nat) (effs : List Eff) (h : Hart) :
    (h.deliver seq effs).sched.liveTails = h.sched.liveTails := by
  have hseq (p : Pend) : (if p.seq = seq ∧ p.effs.isNone then { p with effs := some effs } else p).seq = p.seq := by
    split <;> rfl
  simp only [Sched.liveTails, Hart.deliver, List.any_map, Function.comp_def, hseq]

/-- What the unit streamed is the vault as it is now, or as it was at issue (R167). -/
theorem State.streamed_eq_or_mem (j : MxJob) (fr : Nat) (s : State) (a : Nat) :
    s.streamed j fr a = s.me.vaultUnit s.me.iss.seq s.hub.mem a ∨ (a, s.streamed j fr a) ∈ j.units := by
  unfold State.streamed
  split
  · rename_i e he
    split
    · exact .inl rfl
    · obtain rfl : e.1 = a := by simpa using List.find?_some he
      exact .inr (List.mem_of_find?_eq_some he)
  · exact .inl rfl

/-- The result of a finished operation, from what the unit streamed (R161, R164, R167, R169). -/
theorem State.jobResult (j : MxJob) (s : State) :
    JobResult s j (j.result (fun r c => s.me.aKey j.ac r c) s.free (fun a => s.streamed j s.free a)) := by
  refine ⟨fun a => s.streamed j s.free a, _, fun a => s.streamed_eq_or_mem j s.free a, rfl, fun r c _ _ => ⟨?_, ?_, ?_⟩⟩
  · intro hl
    simp only [hl, if_true]
    rfl
  · intro hl hk
    simp [hl, hk]
  · intro hl hk
    simp only [hl, hk, if_false, Bool.false_eq_true]
    exact ⟨_, rfl⟩

/-- The end of the occupancy frees the unit: the hart keeps its registers, and the latch goes where the operation asked
for it (R18, R166). -/
def Hart.freeMx (o : MxOp) (h : Hart) : Hart :=
  { h with
    sched := { h.sched with mx := none, tails := h.sched.liveTails ++ [(o.seq, o.done)] },
    units := { h.units with latch := if o.release then none else h.units.latch } }

/-- The effects of a finished job: its result, and the signal of its slot (R84). -/
theorem State.jobEffs_eq (j : MxJob) (s : State) : s.jobEffs j
    = .space false (j.result (fun r c => s.me.aKey j.ac r c) s.free (fun a => s.streamed j s.free a)) ::
      (j.sig.map (fun g => Eff.sem g.1 g.2)).toList := by
  unfold State.jobEffs
  cases j.sig <;> rfl

theorem execMxOccupancyEnd_of_noJob {h : HartId} {s u : State} {o : MxOp} (e : s.focus h = some u)
    (hmx : u.me.sched.mx = some o) (hleft : o.left = 0) (hjob : o.job = none) :
    execMxOccupancyEnd h s = .next (u.modMe (Hart.freeMx o)) := by
  rw [execMxOccupancyEnd, State.onHart_of_focus e]
  simp only [hmx, hleft, hjob]
  rfl

theorem execMxOccupancyEnd_of_job {h : HartId} {s u : State} {o : MxOp} {j : MxJob} (e : s.focus h = some u)
    (hmx : u.me.sched.mx = some o) (hleft : o.left = 0) (hjob : o.job = some j) :
    execMxOccupancyEnd h s =
      .next ((State.modMe (Hart.deliver j.seq (u.jobEffs j)) { u with free := u.free + 1 }).modMe (Hart.freeMx o)) := by
  rw [execMxOccupancyEnd, State.onHart_of_focus e]
  simp only [hmx, hleft, hjob]
  rfl

/-! ### Freezes and limits of waiting -/

/-- What is absent or awaited, as R50 gives it. -/
theorem Hart.absent_or_wants_iff (h : Hart) : h.absent = true ∨ h.wants = true ↔
    h.lsu.want.isSome = true ∨ h.isCore = false ∧ ∃ p ∈ h.sched.pipe, p.left = 0 ∧ p.effs = none := by
  simp [Hart.absent, Hart.wants, or_comm]

theorem execFenceTimeout_of_since {h : HartId} {s u : State} {t : Nat} (e : s.focus h = some u)
    (ht : u.me.lsu.fenceSince = some t) :
    execFenceTimeout h s = .next (if t + 4194304 ≤ u.hub.clk then u.modMe (Hart.setPending 4) else u) := by
  rw [execFenceTimeout, State.onHart_of_focus e]
  simp only [ht]

/-- A walk that is due ends, with what it found (R349). -/
theorem execTranslationWalk_of_ok {h : HartId} {s u : State} {w : Want} {x : Xlat} (e : s.focus h = some u)
    (hw : u.me.lsu.want = some w) (htick : w.tick ≤ u.hub.clk)
    (hx : u.hub.resolve u.free (Config.freeBool u.free) w = .ok x) :
    execTranslationWalk h w.va w.acc s = .next (State.modMe (fun y =>
      { y with lsu := { y.lsu with tlb := x :: y.lsu.tlb, want := none, fault := none } })
      { u with free := u.free + 1 }) := by
  rw [execTranslationWalk, State.onHart_of_focus e]
  simp only [hw, htick, hx, and_self, if_true]

theorem execTranslationWalk_of_error {h : HartId} {s u : State} {w : Want} {x : XFault} (e : s.focus h = some u)
    (hw : u.me.lsu.want = some w) (htick : w.tick ≤ u.hub.clk)
    (hx : u.hub.resolve u.free (Config.freeBool u.free) w = .error x) :
    execTranslationWalk h w.va w.acc s = .next (State.modMe (fun y =>
      { y with lsu := { y.lsu with want := none, fault := some (w, x) } }) { u with free := u.free + 1 }) := by
  rw [execTranslationWalk, State.onHart_of_focus e]
  simp only [hw, htick, hx, and_self, if_true]

/-! ### Group semaphores and arrivals -/

theorem execSemGgLands_of_single {h : HartId} {s u : State} {x : SemOut} (e : s.focus h = some u)
    (hout : u.me.units.semOut = [x]) (htick : x.tick = 0) (hstores : u.me.lsu.vstores = []) :
    execSemGgLands h s =
      .next (State.landOut x (u.modMe (fun y => { y with units := { y.units with semOut := [] } }))) := by
  have hready : u.semReady x = true := by simp [State.semReady, htick, hstores]
  rw [execSemGgLands, State.onHart_of_focus e]
  simp [hout, hready, State.modMe]

theorem execGroupArrival_of_next {h : HartId} {s u : State} {a : Arrival} {l : List Arrival} (e : s.focus h = some u)
    (harr : u.me.units.arrivals = a :: l) (hdone : u.hub.doneBefore a.afterSeq u.me = true) :
    execGroupArrival h a.group s = .next
      ((u.modMe (fun y => { y with units := { y.units with arrivals := l } })).setLaunch u.me.launchNo
        (Launch.setGroup a.group (Group.take u.me.spr.storeTime a.contrib))) := by
  rw [execGroupArrival, State.onHart_of_focus e]
  simp [harr, hdone, State.modMe, Hart.launchNo]

/-! ### The meeting of a flight -/

/-- A hart is a rank of the flight of a workgroup. -/
def Hart.ofFlight (l w : Nat) (x : Hart) : Prop := ∃ r, x.id = .tread l w r

theorem Hart.rejoin_id (lead rise : Nat) (h : Hart) : (h.rejoin lead rise).id = h.id := by
  unfold Hart.rejoin
  split <;> rfl

theorem Hart.rejoin_regs (lead rise : Nat) (h : Hart) : (h.rejoin lead rise).regs = h.regs := by
  unfold Hart.rejoin
  split <;> rfl

/-- A rank that has not retired goes on attached, at the meeting bundle. -/
theorem Hart.rejoin_run (lead rise : Nat) (h : Hart) : (h.rejoin lead rise).ctl.run = .retired ∨
    (h.rejoin lead rise).ctl.run = .attached ∧
      (h.rejoin lead rise).ctl.pc = (h.rejoin lead rise).spr.meet.truncate 57 := by
  unfold Hart.rejoin
  split
  · rename_i hretired
    exact .inl hretired
  · exact .inr ⟨rfl, rfl⟩

/-- A flight of which every rank has met or retired, and one has met, resumes: its ranks rejoin (R296). -/
theorem execFlightResumeAtMeet_of_met {l w : Nat} {s : State}
    (hall : ∀ x ∈ s.harts, x.ofFlight l w → x.ctl.run = .atMeet ∨ x.ctl.run = .retired)
    (hone : ∃ x ∈ s.harts, x.ofFlight l w ∧ x.ctl.run = .atMeet) :
    ∃ mine lead rise, (∀ x, mine x = true ↔ x.ofFlight l w) ∧
      execFlightResumeAtMeet l w s = .next (s.mapWhere mine (Hart.rejoin lead rise)) := by
  unfold execFlightResumeAtMeet
  extract_lets mine ranks live lead rise
  have hmine (x : Hart) : mine x = true ↔ x.ofFlight l w := by
    simp only [mine, Hart.ofFlight]
    cases x.id <;> simp
  have hlive : ¬live.isEmpty = true := by
    obtain ⟨x, hx, hflight, hrun⟩ := hone
    rw [List.isEmpty_iff]
    refine List.ne_nil_of_mem (a := x) (List.mem_filter.mpr ⟨List.mem_filter.mpr ⟨hx, (hmine x).mpr hflight⟩, ?_⟩)
    simp [hrun]
  have hmet : ranks.all Hart.metOrGone = true := by
    refine List.all_eq_true.mpr fun x hx => ?_
    obtain ⟨hx, hflight⟩ := List.mem_filter.mp hx
    obtain hrun | hrun := hall x hx ((hmine x).mp hflight) <;> simp [Hart.metOrGone, hrun]
  refine ⟨mine, lead, rise, hmine, if_neg ?_⟩
  simp [hlive, hmet]

/-- The harts after a change of some of them. -/
theorem State.mapWhere_harts (p : Hart → Bool) (f : Hart → Hart) (s : State) :
    (s.mapWhere p f).harts = s.harts.map (fun h => if p h then f h else h) := rfl

/-- A field that a change of some harts keeps. -/
theorem State.mapWhere_harts_map {α : Type} {p : Hart → Bool} {f : Hart → Hart} {g : Hart → α}
    (h : ∀ x, g (f x) = g x) (s : State) : (s.mapWhere p f).harts.map g = s.harts.map g := by
  rw [State.mapWhere_harts, List.map_map]
  refine List.map_congr_left fun x _ => ?_
  simp only [Function.comp_apply]
  split
  · exact h x
  · rfl

/-! ### The waits -/

/-- Settles O51: each event acts on the hart that is named, and there it does what the lemma about it says. -/
theorem hartWaitsEnd : Obligations.HartWaitsEnd := by
  intro s u h e me pipe with_ absent
  refine ⟨?result, ?passed, ⟨?idle, ?job⟩, ?absent, ?present, ?walk, ?fence, ?semaphore, ?arrival, ?timer, ?meet⟩
  case result =>
    intro q pc k r f hpipe
    exact ⟨u.landDue, congrArg Host.Outcome.next (State.onHart_of_focus e), State.landDue_lands hpipe⟩
  case passed =>
    intro q pc k r n ls hpipe
    exact ⟨u.landDue, execXPassEntryArrives_of_single e hpipe, State.landDue_lands hpipe⟩
  case idle =>
    intro o hmx hleft hjob
    exact ⟨_, execMxOccupancyEnd_of_noJob e hmx hleft hjob, ⟨rfl, rfl, rfl, rfl, rfl⟩, rfl, rfl, rfl⟩
  case job =>
    intro o j hmx hleft hjob
    refine ⟨_, _, execMxOccupancyEnd_of_job e hmx hleft hjob, ⟨rfl, ?_, rfl, rfl, rfl⟩, u.jobResult j, ?_, rfl, rfl⟩
    · exact congrArg (· ++ [(o.seq, o.done)]) (Hart.liveTails_deliver j.seq (u.jobEffs j) me)
    · rw [← u.jobEffs_eq j]
      rfl
  case absent =>
    intro h
    have habsent := (Hart.absent_or_wants_iff me).mpr h
    exact ⟨congrArg Host.Outcome.next ((State.onHart_of_focus e).trans (if_pos habsent)),
      congrArg Host.Outcome.next ((State.onHart_of_focus e).trans (if_pos habsent))⟩
  case present =>
    intro h
    have hpresent := mt (Hart.absent_or_wants_iff me).mp h
    exact ⟨congrArg Host.Outcome.next ((State.onHart_of_focus e).trans (if_neg hpresent)),
      congrArg Host.Outcome.next ((State.onHart_of_focus e).trans (if_neg hpresent))⟩
  case walk =>
    intro w hw htick
    cases hx : u.hub.resolve u.free (Config.freeBool u.free) w with
    | ok x =>
      refine ⟨_, execTranslationWalk_of_ok e hw htick hx, rfl, rfl, fun y hy => ?_, nofun⟩
      cases hy
      rfl
    | error x =>
      refine ⟨_, execTranslationWalk_of_error e hw htick hx, rfl, rfl, nofun, fun y hy => ?_⟩
      cases hy
      rfl
  case fence =>
    intro t0 ht0
    exact ⟨fun h => (execFenceTimeout_of_since e ht0).trans (congrArg Host.Outcome.next (if_pos h)),
      fun h => (execFenceTimeout_of_since e ht0).trans (congrArg Host.Outcome.next (if_neg (not_le.mpr h)))⟩
  case semaphore =>
    intro x hout htick hstores
    refine ⟨_, execSemGgLands_of_single e hout htick hstores, rfl, (State.mapWhere_harts ..).trans ?_⟩
    exact List.map_congr_left fun y _ => if_congr (by simp) rfl rfl
  case arrival =>
    intro a l harr hdone
    exact ⟨_, execGroupArrival_of_next e harr hdone, rfl, rfl, rfl, rfl⟩
  case timer =>
    intro n
    have hdue (x : Hart) :
        (decide (x.spr.tcmp.toNat ≤ s.hub.clk)).toNat = if x.spr.tcmp.toNat ≤ s.hub.clk then 1 else 0 := by
      split <;> simp [*]
    simp only [← hdue]
    rfl
  case meet =>
    intro l w ofFlight hall hone
    obtain ⟨mine, lead, rise, hmine, hexec⟩ := execFlightResumeAtMeet_of_met hall hone
    have hharts := State.mapWhere_harts mine (Hart.rejoin lead rise) s
    refine ⟨_, hexec, rfl, State.mapWhere_harts_map (Hart.rejoin_id lead rise) s,
      State.mapWhere_harts_map (Hart.rejoin_regs lead rise) s, fun x hx hflight => ?_, fun x hx hflight => ?_⟩
    · rw [hharts] at hx
      obtain ⟨y, hy, rfl⟩ := List.mem_map.mp hx
      split at hflight
      · rename_i hm
        rw [if_pos hm]
        exact Hart.rejoin_run lead rise y
      · rename_i hm
        exact absurd ((hmine y).mpr hflight) hm
    · rw [hharts]
      exact List.mem_map.mpr ⟨x, hx, if_neg (mt (hmine x).mp hflight)⟩

end Sys2Proof.Machine
end

section
/-! Traps at a bundle boundary (R371 to R373): what each latched condition makes the hart take. -/

namespace Sys2Proof.Machine

/-- What an event of a hart gives, from what its action gives in the state in which the hart acts. -/
theorem next_onHart_of_focus {h : HartId} {s u t : State} {f : State → State} (e : s.focus h = some u) (hf : f u = t) :
    (Host.Outcome.next (s.onHart h f) : Host.Outcome State Fault Refusal) = .next t := by
  rw [State.onHart_of_focus e, hf]

/-! ### What a trap writes -/

/-- The level that a field write of `PLV.CUR` leaves. -/
theorem toNat_setBits_level (v : Nat) (w : Word) : (setBits 1 0 v w).toNat % 4 = v % 4 := by
  simp only [setBits, bitsOf, BitVec.toNat_ofNat, Nat.shiftRight_zero]
  omega

/-- A trap that is taken at S or M leaves the hart at that level. -/
theorem Hart.trapEntry_level {t : TrapInfo} {w : Word} {h : Hart} (hlvl : t.lvl = 1 ∨ t.lvl = 2) :
    (h.trapEntry t w).level = t.lvl := by
  rw [Hart.level, Hart.trapEntry_plv]
  rcases hlvl with hlvl | hlvl <;> rw [hlvl] <;> exact toNat_setBits_level ..

/-- A cause word has the code in its bits `[7:0]`. -/
theorem wbits_causeWord_code (t : TrapInfo) (held : Bool) (hslot : t.slot = none) :
    wbits 7 0 (causeWord t held) = t.code % 256 := by
  simp only [wbits, bitsOf, causeWord, hslot, BitVec.toNat_ofNat, Nat.shiftRight_zero]
  omega

/-- A cause word has INFO in its bits `[23:8]`. -/
theorem wbits_causeWord_info (t : TrapInfo) (held : Bool) (hslot : t.slot = none) :
    wbits 23 8 (causeWord t held) = t.info % 65536 := by
  have hheld := Bool.toNat_le held
  simp only [wbits, bitsOf, causeWord, hslot, BitVec.toNat_ofNat, Nat.shiftRight_eq_div_pow]
  omega

/-- The level of a translation fault (R335, R371): S or M, and no lower than that of the hart. -/
theorem xfltLevel_cases {lvl : Nat} (x : XFault) (h : lvl ≤ 2) :
    xfltLevel lvl x = Nat.max lvl (if x.stage = 1 then 1 else 2) ∧ (xfltLevel lvl x = 1 ∨ xfltLevel lvl x = 2) := by
  rw [xfltLevel, Nat.mod_eq_of_lt (by omega)]
  refine ⟨rfl, ?_⟩
  change max _ _ = 1 ∨ max _ _ = 2
  split <;> omega

/-! ### The conditions -/

/-- The number that a fold by the minimum gives is one of the list and exceeds none of it. -/
theorem foldl_min_mem_and_le (p : Nat) (ps : List Nat) :
    ps.foldl Nat.min p ∈ p :: ps ∧ ∀ q ∈ p :: ps, ps.foldl Nat.min p ≤ q := by
  induction ps generalizing p with
  | nil => simp
  | cons q ps ih =>
    obtain ⟨hmem, hle⟩ := ih (Nat.min p q)
    have hstart : ps.foldl Nat.min (Nat.min p q) ≤ min p q := hle _ List.mem_cons_self
    rw [List.foldl_cons]
    refine ⟨?_, fun r hr => ?_⟩
    · rcases List.mem_cons.mp hmem with h | h
      · rw [h]
        rcases min_choice p q with h | h <;> simp [show Nat.min p q = _ from h]
      · simp [h]
    · simp only [List.mem_cons] at hr
      rcases hr with rfl | rfl | hr
      · exact hstart.trans (min_le_left ..)
      · exact hstart.trans (min_le_right ..)
      · exact hle r (by simp [hr])

/-- The core event that comes next is pending and enabled, its level is the one that `EVLVL` names, and it
does not lie below the level of the core (R339). -/
theorem Hart.coreEventOf_some {clk b lvl : Nat} {h : Hart} (e : h.coreEventOf clk = some (b, lvl)) :
    (evpend clk h).getLsbD b = true ∧ h.spr.even.getLsbD b = true ∧ lvl = (if h.spr.evlvl.getLsbD b then 2 else 1) ∧
      (h.level ≤ 2 → h.level ≤ lvl) := by
  unfold Hart.coreEventOf at e
  split at e
  · cases e
  dsimp only at e
  split at e
  case h_1 hpick =>
    cases e
    have hb := List.find?_some hpick
    simp only [BitVec.getLsbD_and, Bool.and_eq_true, decide_eq_true_eq] at hb
    obtain ⟨⟨⟨hpend, hon⟩, hlvl⟩, -⟩ := hb
    exact ⟨hpend, hon, by rw [hlvl]; rfl, fun hle => hle⟩
  case h_2 hpick =>
    cases e
    have hb := List.find?_some hpick
    simp only [BitVec.getLsbD_and, Bool.and_eq_true, decide_eq_true_eq] at hb
    obtain ⟨⟨⟨hpend, hon⟩, hlvl⟩, hadmits⟩ := hb
    exact ⟨hpend, hon, by rw [hlvl]; rfl, fun _ => by simp at hadmits; omega⟩
  case h_3 => cases e

/-- The hart after a write of `XFLT`. -/
def Hart.setXflt (w : Word) (h : Hart) : Hart := { h with spr := { h.spr with xflt := w } }

@[simp] theorem Hart.setXflt_xflt (w : Word) (h : Hart) : (h.setXflt w).spr.xflt = w := rfl
@[simp] theorem Hart.setXflt_tcause (w : Word) (h : Hart) : (h.setXflt w).spr.tcause = h.spr.tcause := rfl
@[simp] theorem Hart.setXflt_taddr (w : Word) (h : Hart) : (h.setXflt w).spr.taddr = h.spr.taddr := rfl
@[simp] theorem Hart.setXflt_level (w : Word) (h : Hart) : (h.setXflt w).level = h.level := rfl
@[simp] theorem Hart.setXflt_units (w : Word) (h : Hart) : (h.setXflt w).units = h.units := rfl
@[simp] theorem Hart.setXflt_regs (w : Word) (h : Hart) : (h.setXflt w).regs = h.regs := rfl

/-- The state after an operation of the engine has been noted as trapped (R241). -/
def State.noteSuspended (op va : Nat) (x : XFault) (acc : Acc) (s : State) : State :=
  s.modMe (Hart.modEng op (fun o => { o with stat := .suspended va x acc true }))

/-- The only operation of the engine, suspended by a fault that has not trapped: it traps, and the fault is
noted as taken (R241, R353). -/
theorem execEngineTranslationFault_of_single {h : HartId} {s u : State} {o : EngOp} {va : Nat} {x : XFault} {acc : Acc}
    (e : s.focus h = some u) (heng : u.me.units.eng = [o]) (hstat : o.stat = .suspended va x acc false) :
    execEngineTranslationFault h o.id s = .next (((u.noteSuspended o.id va x acc).boundaryTrap 3 0x0d 0 va
      (xfltLevel u.me.level x)).modMe (Hart.setXflt (xfltWord x acc))) := by
  rw [execEngineTranslationFault, State.onHart_of_focus e]
  simp only [heng, List.find?_cons, decide_true, hstat]
  rfl

/-- The hypothesis-lost trap of a hart at U that has a handler for the node (R372, R378). -/
theorem execHypothesisLost_of_handler {h : HartId} {s u : State} {n d p : Nat} {a : VAddr} {below : List (Nat × VAddr)}
    (e : s.focus h = some u) (hlost : u.me.latched.hypLost = some (n, d, p)) (hlvl : u.me.level = 0)
    (hpop : popTo n u.me.units.hstack = some (a, below)) : ∃ t, execHypothesisLost h s = .next t ∧
      t.me = { u.me.lostEntry n a below with
        spr := { (u.me.lostEntry n a below).spr with titer := u.titer u.me u.me.ctl.pc.toNat [] } } ∧
      t.ring = u.ring ∧ t.hub.mem = u.hub.mem := by
  rw [execHypothesisLost, State.onHart_of_focus e]
  simp only [hlost, hlvl, hpop, ne_eq, not_true_eq_false, if_false]
  exact ⟨_, rfl, rfl, rfl, rfl⟩

/-- Settles O52: each latched condition traps at the boundary, and a lost hypothesis branches to its handler. -/
theorem boundaryConditionsTrap : Obligations.BoundaryConditionsTrap := by
  unfold Obligations.BoundaryConditionsTrap
  intro s u h e me enters latch toSM
  refine ⟨?stateError, ?memoryError, ?missed, ?debugStep, ?engineFault, ?full, ?coreEvent, ?latches, ?lost⟩
  case stateError =>
    intro c n
    exact ⟨1, congrArg Host.Outcome.next (State.onHart_of_focus e)⟩
  case memoryError =>
    intro a n r hlatched
    exact ⟨2, next_onHart_of_focus e (by simp only [show u.me.latched.memErr = _ from hlatched]; rfl)⟩
  case missed =>
    intro p ps hlatched
    exact ⟨Nat.min (ps.length + 1) 65535, ps.foldl Nat.min p,
      ⟨4, next_onHart_of_focus e (by simp only [show u.me.latched.missed = _ from hlatched]; rfl)⟩, rfl,
      foldl_min_mem_and_le p ps⟩
  case debugStep =>
    intro hlatched
    exact ⟨6, next_onHart_of_focus e (by simp only [show u.me.latched.dbgStep = true from hlatched, if_true]; rfl)⟩
  case engineFault =>
    intro o va x acc heng hstat hlvl
    obtain ⟨hmax, hlevel⟩ := xfltLevel_cases x hlvl
    refine ⟨_, 3, execEngineTranslationFault_of_single e heng hstat, ?_⟩
    rw [State.modMe_me, State.boundaryTrap, State.takeTrap_me, Hart.setXflt_level, Hart.trapEntry_level hlevel]
    refine ⟨?_, Hart.setXflt_xflt .., ?_, hmax, ?_, ?_, ?_⟩
    · simp [State.noteSuspended, Hart.modEng, show u.me.units.eng = _ from heng]
    · rw [Hart.setXflt_taddr, Hart.trapEntry_taddr]
    · rw [Hart.setXflt_tcause, Hart.trapEntry_spr]
      rfl
    · rw [Hart.setXflt_regs, Hart.trapEntry_regs]
      rfl
    · rw [State.modMe_ring, State.takeTrap_ring]
      rfl
  case full =>
    intro n va hwait hn
    exact ⟨clsFull, next_onHart_of_focus e (by simp only [show u.me.lsu.verWait = _ from hwait, hn, if_true]; rfl)⟩
  case coreEvent =>
    rintro n b lvl rfl hevent
    exact ⟨⟨7, next_onHart_of_focus e (by simp only [show u.me.coreEventOf u.hub.clk = _ from hevent]; rfl)⟩,
      Hart.coreEventOf_some hevent⟩
  case latches =>
    intro hrun
    exact next_onHart_of_focus e (if_neg hrun)
  case lost =>
    intro n d p a below hlost hlvl hpop
    obtain ⟨t, hexec, hme, hring, hmem⟩ := execHypothesisLost_of_handler e hlost hlvl hpop
    refine ⟨t, hexec, ?_⟩
    rw [hme]
    refine ⟨rfl, hlvl, ?_, rfl, wbits_causeWord_code _ _ rfl, wbits_causeWord_info _ _ rfl, rfl, rfl, rfl, rfl, rfl,
      fun hrun => ?_, fun hrun => ?_, hring, hmem⟩
    · exact Nat.mod_eq_of_lt (me.ctl.pc.isLt.trans_le (by decide))
    · simp only [Hart.lostEntry, show u.me.ctl.run = _ from hrun]
    · simp only [Hart.lostEntry, show u.me.ctl.run = _ from hrun]

end Sys2Proof.Machine
end

section
/-! The state that package reset leaves (R41, R362, R427, R428). -/

namespace Sys2Proof.Machine

/-- Every partition has its reset registers (R75, R192, R345). -/
theorem State.reset_part (p : Nat) : State.reset.hub.part p = PartRegs.zero := by
  simp [Hub.part, State.reset, Hub.zero]

/-- Settles O1: each register is written out in the reset state, and the partitions have one value of theirs. -/
theorem resetLeavesBootingCore : Obligations.ResetLeavesBootingCore := by
  unfold Obligations.ResetLeavesBootingCore
  refine ⟨rfl, rfl, rfl, rfl, rfl, rfl, rfl, rfl, rfl, rfl, rfl, rfl, rfl, rfl, rfl, rfl, rfl, rfl, rfl,
    fun i => ⟨rfl, rfl, rfl⟩, fun p => ?_⟩
  rw [State.reset_part]
  exact ⟨rfl, rfl⟩

end Sys2Proof.Machine
end

section
/-! Coherence at the home and requests at the stacks: what peers, lines, tiles and side caches are left with (R196 to R202,
R208, R212 to R214, R395 to R401). -/

namespace Sys2Proof.Machine

/-! ### What the home changes when it reads a line, takes it back or ends a tenure -/

theorem Hub.mscTouch_frame (line : Nat) (dirty : Bool) (hb : Hub) :
    ∃ ds, hb.mscTouch line dirty = { hb with dram := ds } := by
  unfold Hub.mscTouch Hub.onStack
  split
  · exact ⟨_, rfl⟩
  · exact ⟨hb.dram, rfl⟩

theorem Hub.readLine_frame (line : Nat) (hb : Hub) :
    ∃ ls ds, hb.readLine line = { hb with lines := ls, dram := ds } := by
  obtain ⟨ds, e⟩ := hb.mscTouch_frame line false
  exact ⟨_, ds, by rw [Hub.readLine, e]; rfl⟩

theorem Hub.endTenure_frame (line : Nat) (hb : Hub) : ∃ ls, hb.endTenure line = { hb with lines := ls } := by
  unfold Hub.endTenure
  split
  · exact ⟨hb.lines, rfl⟩
  · exact ⟨_, rfl⟩

theorem Hub.takeBack_frame (line : Nat) (hb : Hub) :
    ∃ m ls ds, hb.takeBack line = { hb with mem := m, lines := ls, dram := ds } := by
  unfold Hub.takeBack
  split
  · obtain ⟨ds, e⟩ := Hub.mscTouch_frame line true _
    exact ⟨_, _, ds, e⟩
  · exact ⟨hb.mem, hb.lines, hb.dram, rfl⟩

/-- A line whose latest bytes come home (R196): memory takes them from the owner. -/
theorem Hub.takeBack_mem_of_owner {line : Nat} {p : PeerLine} {hb : Hub} (h : hb.owner line = some p) :
    (hb.takeBack line).mem = putBytes (line * 128) p.bytes hb.mem := by
  simp [Hub.takeBack, h]

/-- Taking a line back and ending its tenure changes nothing but what the home keeps (R196, R199). -/
theorem Hub.takeBack_endTenure_frame (line : Nat) (hb : Hub) : ∃ ls ds, (hb.takeBack line).endTenure line =
    { hb with mem := (hb.takeBack line).mem, lines := ls, dram := ds } := by
  obtain ⟨m, ls, ds, e⟩ := hb.takeBack_frame line
  obtain ⟨ls', e'⟩ := Hub.endTenure_frame line (hb.takeBack line)
  exact ⟨ls', ds, by rw [e', e]⟩

/-- A line that the home reads has been tested (R395, R396). -/
theorem Hub.lineMeta_readLine {line : Nat} {hb : Hub} (h : NMap.wf LineMeta.zero hb.lines = true) :
    (hb.readLine line).lineMeta line = (hb.lineMeta line).verify := by
  obtain ⟨ds, e⟩ := hb.mscTouch_frame line false
  rw [Hub.readLine, e]
  exact NMap.get_put_self h

/-! ### A peer that holds the only cached line in M -/

/-- The one line that peers hold is this one, and its holder has it in M. -/
def SoleHolder (peer line : Nat) (p : PeerLine) (hb : Hub) : Prop :=
  p.peer = peer ∧ p.line = line ∧ hb.peers = [p] ∧ p.st = .M

section
variable {peer line : Nat} {p : PeerLine} {hb : Hub}

theorem SoleHolder.peer_eq (h : SoleHolder peer line p hb) : p.peer = peer := by
  obtain ⟨hpeer, -, -, -⟩ := h
  exact hpeer

theorem SoleHolder.st_eq (h : SoleHolder peer line p hb) : p.st = .M := by
  obtain ⟨-, -, -, hst⟩ := h
  exact hst

theorem SoleHolder.owner (h : SoleHolder peer line p hb) : hb.owner line = some p := by
  obtain ⟨-, hline, hpeers, hst⟩ := h
  simp [Hub.owner, hpeers, hline, hst]

theorem SoleHolder.exclusive (h : SoleHolder peer line p hb) : hb.exclusive line = some p := by
  obtain ⟨-, hline, hpeers, hst⟩ := h
  simp [Hub.exclusive, hpeers, hline, hst]

theorem SoleHolder.peerLine (h : SoleHolder peer line p hb) : hb.peerLine peer line = some p := by
  obtain ⟨hpeer, hline, hpeers, -⟩ := h
  simp [Hub.peerLine, hpeers, hpeer, hline]

/-- The holder's data goes to memory and its tenure ends (R199, R201). -/
theorem SoleHolder.surrendered (h : SoleHolder peer line p hb) : ∃ ls ds, (hb.takeBack line).endTenure line =
    { hb with mem := putBytes (line * 128) p.bytes hb.mem, lines := ls, dram := ds } := by
  obtain ⟨ls, ds, e⟩ := hb.takeBack_endTenure_frame line
  exact ⟨ls, ds, by rw [e, Hub.takeBack_mem_of_owner h.owner]⟩

theorem SoleHolder.dropPeer_peers (h : SoleHolder peer line p hb) {hc : Hub} (hpeers : hc.peers = hb.peers) :
    (hc.dropPeer peer line).peers = [] := by
  obtain ⟨hpeer, hline, hp, -⟩ := h
  simp [Hub.dropPeer, hpeers, hp, hpeer, hline]

theorem SoleHolder.setPeer_peers (h : SoleHolder peer line p hb) {hc : Hub} {q : PeerLine}
    (hpeers : hc.peers = hb.peers) (hpeer : q.peer = p.peer) (hline : q.line = p.line) : (hc.setPeer q).peers = [q] := by
  obtain ⟨-, -, hp, -⟩ := h
  simp [Hub.setPeer, hpeers, hp, hpeer, hline]

end

/-- Without a locked sequence no peer defers anything (R202). -/
theorem Hub.locks_of_nil {peer line : Nat} {hb : Hub} (h : hb.locked = []) : hb.locks peer line = false := by
  simp [Hub.locks, h]

/-! ### Invalidations, recalls and evictions -/

/-- A peer answers the one invalidation under way (R198). -/
theorem execInvalidationAck_of_sole {peer line : Nat} {x : Inv} {s : State} (hinvs : s.hub.invs = [x])
    (hpeer : x.peer = peer) (hline : x.line = line) (hrec : x.isRecall = false) (htick : x.tick.isSome = true)
    (hlock : s.hub.locks peer line = false) : ∃ hb : Hub,
      execInvalidationAck peer line s = .next { s with hub := hb } ∧
      hb.invs = [{ x with tick := none, lt := s.peerLt peer }] ∧ (s.hub.peers = [] → hb.mem = s.hub.mem) ∧
      ∀ p, SoleHolder peer line p s.hub → hb.mem = putBytes (line * 128) p.bytes s.hub.mem ∧ hb.peers = [] := by
  unfold execInvalidationAck
  extract_lets mine t held hb excl hc hd
  have hmine : mine x = true := by simp [mine, hpeer, hline, hrec, htick]
  rw [if_neg (by simp [hinvs, hmine]), if_neg (by simp [hlock])]
  refine ⟨_, rfl, ?_, fun hnone => ?_, fun p hp => ?_⟩
  · have hhc : hc.invs = s.hub.invs := by
      obtain ⟨ls, ds, e⟩ := hb.takeBack_endTenure_frame line
      unfold hc
      split
      · rw [e]
      · rfl
    have hhd : hd.invs = [x] := by
      unfold hd
      split <;> exact hhc.trans hinvs
    simp [hhd, hmine, t]
  · have hexcl : excl = false := by simp [excl, hb, Hub.exclusive, hnone]
    simp [hd, hc, hexcl, hb, held]
  · have hexcl : excl = true := by simp [excl, hb, hp.exclusive, hp.peer_eq]
    obtain ⟨ls, ds, e⟩ := hp.surrendered
    have hheld : held = true := by simp [held, hp.peerLine]
    have hhd : hd = Hub.dropPeer peer line { s.hub with
        mem := putBytes (line * 128) p.bytes s.hub.mem, lines := ls, dram := ds } := by
      simp only [hd, hheld, hc, hexcl, if_true, hb, e]
    simp only [hhd]
    exact ⟨rfl, hp.dropPeer_peers rfl⟩

/-- The one recall under way takes the line of its holder home and leaves it a shared copy (R201). -/
theorem execRecallLine_of_sole {peer line : Nat} {x : Inv} {p : PeerLine} {s : State} (hinvs : s.hub.invs = [x])
    (hline : x.line = line) (hrec : x.isRecall = true) (hp : SoleHolder peer line p s.hub)
    (hlocked : s.hub.locked = []) : ∃ hb : Hub, execRecallLine line s = .next { s with hub := hb } ∧ hb.invs = [] ∧
      hb.mem = putBytes (line * 128) p.bytes s.hub.mem ∧ hb.peers = [{ p with st := .S }] := by
  obtain ⟨ls, ds, e⟩ := hp.surrendered
  have hfind : s.hub.invs.find? (fun i => i.line = line && i.isRecall) = some x := by simp [hinvs, hline, hrec]
  have hlock : s.hub.locks p.peer line = false := Hub.locks_of_nil hlocked
  unfold execRecallLine
  simp only [hfind, hp.exclusive, hlock, e]
  refine ⟨_, rfl, ?_, rfl, hp.setPeer_peers rfl rfl rfl⟩
  simp [Hub.setLine, Hub.setPeer, hinvs, hline, hrec]

/-- The holder in M of a line of this package evicts it: the notice brings the data (R200). -/
theorem State.evict_of_dirty {peer line : Nat} {p : PeerLine} {s : State} (hp : SoleHolder peer line p s.hub)
    (hinvs : s.hub.invs = []) (hhost : (s.hub.localLoc (line * 128)).isHost = false) : ∃ hb : Hub,
      s.evict peer line = { s with hub := hb } ∧ hb.peers = [] ∧
      hb.mem = putBytes (line * 128) p.bytes s.hub.mem := by
  obtain ⟨ls, ds, e⟩ := hp.surrendered
  unfold State.evict
  split
  next h => simp [hp.peerLine] at h
  next h => simp [h, Loc.isHost] at hhost
  next q hq _ =>
    obtain rfl : p = q := Option.some.inj (hp.peerLine.symm.trans hq)
    simp only [hinvs, List.any_nil, hp.st_eq, true_or, if_true, e]
    exact ⟨_, rfl, hp.dropPeer_peers rfl, rfl⟩

/-- The holder in M of a line of host memory evicts it: its data goes to the host (R39). -/
theorem State.evict_of_dirty_host {peer line port : Nat} {p : PeerLine} {s : State} (hp : SoleHolder peer line p s.hub)
    (hhost : s.hub.localLoc (line * 128) = .host port) : ∃ (hb : Hub) (x : Ext),
      s.evict peer line = { s with hub := hb, free := s.free + 1 } ∧ hb.peers = [] ∧ hb.exts = s.hub.exts ++ [x] ∧
      x.far = .host port ∧ x.pa = line * 128 ∧ x.cxl = some (peer, .dirtyEvict) := by
  unfold State.evict
  rw [hp.peerLine, hhost]
  simp only [hp.st_eq, true_or, if_true]
  exact ⟨_, _, rfl, hp.dropPeer_peers rfl, rfl, rfl, rfl, rfl⟩

/-! ### Fills -/

/-- Peers may hold any line that lease caches may hold (R196). -/
theorem Loc.cacheable_of_leasable {l : Loc} (h : l.leasable = true) : l.cacheable = true := by
  match l, h with
  | .hbm, _ | .lpddr, _ | .cxl _, _ => rfl

/-- A peer with few lines in its cache has room (R30). -/
theorem State.peerRoom_of_few {peer line : Nat} {s : State} (h : s.hub.peers.length ≤ 8192) :
    s.peerRoom peer line = s := by
  have hfew : ((s.hub.peers.filter (fun p => p.peer = peer)).map (·.line)).length ≤ 8192 := by
    rw [List.length_map]
    exact (List.length_filter_le ..).trans h
  exact if_pos (.inr hfew)

@[simp] theorem State.peerSee_peers (p t : Nat) (s : State) : (s.peerSee p t).hub.peers = s.hub.peers := by
  unfold State.peerSee
  split <;> rfl

/-- The copy of a line that a peer fills from memory. -/
def Hub.filledCopy (peer line : Nat) (st : Moesi) (hb : Hub) : PeerLine :=
  { peer := peer, line := line, st := st, bytes := bytesAt hb.mem (line * 128) 128 }

section
variable {peer line : Nat} {s : State}

/-- A line that no directory entry covers and no peer holds is granted from memory (R199). -/
theorem State.grantOwn_of_uncovered (st : Moesi) (hcov : covered (s.hub.lineMeta line).dir = [])
    (hpeers : s.hub.peers = []) : ∃ t, s.grantOwn st peer line = some t ∧
      t.hub.peers = [s.hub.filledCopy peer line st] ∧ t.hub.mem = s.hub.mem := by
  have hclear : s.clearPeers line (some peer) = none := by simp [State.clearPeers, hcov]
  have hnone : s.hub.peerLine peer line = none := by simp [Hub.peerLine, hpeers]
  obtain ⟨ls, e⟩ := s.hub.endTenure_frame line
  obtain ⟨ls', ds, e'⟩ := Hub.readLine_frame line { s.hub with lines := ls }
  unfold State.grantOwn
  simp only [hclear, hnone, e, e', Option.map_none, Option.isSome_none, Bool.false_eq_true, if_false]
  exact ⟨_, rfl, by simp [Hub.setPeer, Hub.setLine, hpeers, Hub.filledCopy], State.peerSee_hub_mem ..⟩

/-- A line that no peer holds is shared with one (R196, R198). -/
theorem State.grantShared_of_unheld (hpeers : s.hub.peers = []) :
    (s.grantShared peer line).hub.peers = [s.hub.filledCopy peer line .S] ∧
      (s.grantShared peer line).hub.mem = s.hub.mem := by
  have hnone (hb : Hub) (h : hb.peers = []) :
      hb.peerLine peer line = none ∧ hb.exclusive line = none ∧ hb.owner line = none := by
    simp [Hub.peerLine, Hub.exclusive, Hub.owner, h]
  obtain ⟨ls, e⟩ := s.hub.endTenure_frame line
  obtain ⟨ls', ds, e'⟩ := Hub.readLine_frame line { s.hub with lines := ls }
  unfold State.grantShared
  simp only [hnone s.hub hpeers, e, hnone { s.hub with lines := ls } hpeers, e',
    hnone { s.hub with lines := ls', dram := ds } hpeers, Option.isSome_none, Bool.false_eq_true, if_false, ite_self]
  exact ⟨by simp [Hub.setPeer, Hub.setLine, hpeers, Hub.filledCopy], State.peerSee_hub_mem ..⟩

/-- A line that no peer holds is filled to be read: in E only where no entry covers it, and else in S (R196). -/
theorem State.grantRead_of_unheld (hpeers : s.hub.peers = []) : ∃ st,
    (s.grantRead peer line).hub.peers = [s.hub.filledCopy peer line st] ∧
      (st = .S ∨ st = .E ∧ covered (s.hub.lineMeta line).dir = []) ∧
      (s.grantRead peer line).hub.mem = s.hub.mem := by
  unfold State.grantRead
  extract_lets e u
  split
  next he =>
    have hcov : covered (s.hub.lineMeta line).dir = [] := by
      simp only [e, Bool.and_eq_true, List.isEmpty_iff] at he
      exact he.1
    obtain ⟨t, ht, htp, htm⟩ := State.grantOwn_of_uncovered (peer := peer) (s := u) .E hcov hpeers
    rw [ht]
    exact ⟨.E, htp, .inr ⟨rfl, hcov⟩, htm⟩
  next =>
    obtain ⟨hp, hm⟩ := State.grantShared_of_unheld (peer := peer) (line := line) (s := u) hpeers
    exact ⟨.S, hp, .inl rfl, hm⟩

/-- What the fill of a line of this package that no peer holds, and no locked sequence, comes to (R196, R198, R199). -/
theorem execPeerFill_of_unheld (own : Bool) (hpeer : peer < 34)
    (hloc : (s.hub.localLoc (line * 128)).leasable = true) (hpeers : s.hub.peers = []) (hlocked : s.hub.locked = []) :
    execPeerFill peer line own s = if own then .next (((s.grantOwn .M peer line).getD s).peerRoom peer line)
      else if s.hub.invalidated line then .next s else .next ((s.grantRead peer line).peerRoom peer line) := by
  have hfill : ¬(34 ≤ peer ∨ (!(s.hub.localLoc (line * 128)).cacheable) = true) := by
    simp [Loc.cacheable_of_leasable hloc, hpeer]
  unfold execPeerFill
  rw [if_neg hfill]
  split
  next h => rw [h] at hloc; cases hloc
  next => simp [Hub.lockHeld, hlocked, Hub.peerLine, hpeers]

/-- A fill to read of a line that no peer holds (R196). -/
theorem execPeerFill_shares (hpeer : peer < 34) (hloc : (s.hub.localLoc (line * 128)).leasable = true)
    (hpeers : s.hub.peers = []) (hlocked : s.hub.locked = []) (hinv : s.hub.invalidated line = false) :
    ∃ t st, execPeerFill peer line false s = .next t ∧ t.hub.peers = [s.hub.filledCopy peer line st] ∧
      (st = .S ∨ st = .E ∧ covered (s.hub.lineMeta line).dir = []) ∧ t.hub.mem = s.hub.mem := by
  obtain ⟨st, hp, hst, hm⟩ := State.grantRead_of_unheld (peer := peer) (line := line) hpeers
  refine ⟨_, st, ?_, hp, hst, hm⟩
  rw [execPeerFill_of_unheld false hpeer hloc hpeers hlocked, if_neg (by decide), hinv, if_neg (by decide),
    State.peerRoom_of_few (by simp [hp])]

/-- A fill to write of a line that no directory entry covers (R199). -/
theorem execPeerFill_owns (hpeer : peer < 34) (hloc : (s.hub.localLoc (line * 128)).leasable = true)
    (hpeers : s.hub.peers = []) (hlocked : s.hub.locked = []) (hdir : (s.hub.lineMeta line).dir = 0) :
    ∃ t, execPeerFill peer line true s = .next t ∧ t.hub.peers = [s.hub.filledCopy peer line .M] ∧
      t.hub.mem = s.hub.mem := by
  have hcov : covered (s.hub.lineMeta line).dir = [] := by rw [hdir]; decide
  obtain ⟨t, ht, hp, hm⟩ := State.grantOwn_of_uncovered (peer := peer) .M hcov hpeers
  refine ⟨t, ?_, hp, hm⟩
  rw [execPeerFill_of_unheld true hpeer hloc hpeers hlocked, if_pos rfl, ht, Option.getD_some,
    State.peerRoom_of_few (by simp [hp])]

end

/-! ### Locked sequences and snoops -/

/-- A sequence that has kept a recall waiting for 256 cycles gives the line up as it was before (R202). -/
theorem execLockedSequenceTimeout_of_late {peer line t0 : Nat} {l : Locked} {p : PeerLine} {s : State}
    (hlocked : s.hub.locked = [l]) (hpeer : l.peer = peer) (hline : l.line = line) (hheld : l.held = true)
    (hdef : l.deferred = some t0) (hlate : t0 + 256 ≤ s.hub.clk) (hp : SoleHolder peer line p s.hub) :
    ∃ t n, execLockedSequenceTimeout peer line s = .next t ∧ t.hub.peers = [{ p with bytes := l.old }] ∧
      s.hub.clk < n ∧ t.hub.locked = [{ l with held := false, deferred := none, tick := n }] ∧
      t.hub.mem = s.hub.mem := by
  unfold execLockedSequenceTimeout
  simp only [hlocked, List.find?_cons, hpeer, hline, hheld, hdef, hlate, decide_true, Bool.and_self, hp.peerLine]
  refine ⟨_, s.hub.clk + 1 + Config.freeNat s.free, rfl, hp.setPeer_peers rfl rfl rfl, by omega, ?_, rfl⟩
  simp [Hub.setPeer, hlocked, hpeer, hline]

/-- A snoop of a line of host memory that no locked sequence holds up (R39). -/
theorem execHostSnoop_of_unlocked {line port : Nat} (inv : Bool) {s : State}
    (hhost : s.hub.localLoc (line * 128) = .host port) (hlocked : s.hub.locked = []) : ∃ t,
      execHostSnoop line inv s = .next t ∧ (∀ p, s.hub.owner line = some p → t.hub.reply = .data p.bytes) ∧
      (inv = true → ∀ p ∈ t.hub.peers, p.line ≠ line) ∧ t.hub.mem = s.hub.mem ∧ t.me = s.me := by
  have hend : s.endSequences line = s := by simp [State.endSequences, hlocked]
  unfold execHostSnoop
  simp only [hhost, hend]
  refine ⟨_, rfl, fun p hp => ?_, ?_, rfl, rfl⟩
  · simp [hp]
  · rintro rfl
    simp

/-! ### Lines and tiles of the stacks -/

/-- The home's read of a line of a stack (R212): poisoned data is marked (R395, R396). -/
theorem execLineRead_of_stacked {pa : Nat} {s : State} (hloc : (s.hub.localLoc (lineOf pa * 128)).stacked = true)
    (hwf : NMap.wf LineMeta.zero s.hub.lines = true) : ∃ t, execLineRead pa s = .next t ∧ t.hub.mem = s.hub.mem ∧
      t.me = s.me ∧ t.hub.lineMeta (lineOf pa) = (s.hub.lineMeta (lineOf pa)).verify ∧
      t.hub.reply = (if (s.hub.lineMeta (lineOf pa)).verify.poison
        then .poisoned (bytesAt s.hub.mem (lineOf pa * 128) 128)
        else .data (bytesAt s.hub.mem (lineOf pa * 128) 128)) := by
  have hmeta := Hub.lineMeta_readLine (line := lineOf pa) hwf
  unfold execLineRead
  simp only [hloc, Bool.not_true, Bool.false_eq_true, if_false]
  exact ⟨_, rfl, Hub.readLine_mem .., rfl, hmeta, by rw [hmeta]; rfl⟩

/-- Cells of one line make a new check value for this line alone (R395). -/
theorem Hub.putCells_of_line {line : Nat} {cells : List (Nat × Byte)} {hb : Hub} (hne : cells ≠ [])
    (hcells : ∀ e ∈ cells, e.1 / 128 = line) : hb.putCells cells =
      ({ hb with mem := NMap.putAll 0#8 cells hb.mem } : Hub).setLine line
        (LineMeta.rewrite (decide (cells.length = 128))) := by
  have hlines : (cells.map (fun e => e.1 / 128)).eraseDups = [line] := by
    rw [List.map_congr_left hcells]
    cases cells with
    | nil => exact absurd rfl hne
    | cons c cells => simp [List.eraseDups_cons, List.filter_eq_nil_iff.mpr]
  have hmine : cells.filter (fun e => e.1 / 128 = line) = cells := by
    simpa using hcells
  simp [Hub.putCells, hlines, hmine]

/-- The cells of a line that a byte mask names, with their data. -/
def maskedCells (line mask : Nat) (data : List Byte) : List (Nat × Byte) :=
  ((List.range 128).filter (fun k => mask.testBit k)).map (fun k => (line * 128 + k, data.getD k 0#8))

theorem mem_maskedCells_line {line mask : Nat} {data : List Byte} : ∀ e ∈ maskedCells line mask data, e.1 / 128 = line := by
  intro e he
  obtain ⟨k, hk, rfl⟩ := List.mem_map.mp he
  have hlt : k < 128 := List.mem_range.mp (List.mem_filter.mp hk).1
  dsimp only
  omega

theorem length_maskedCells_of_full {line mask : Nat} {data : List Byte} (h : mask % 2 ^ 128 = 2 ^ 128 - 1) :
    (maskedCells line mask data).length = 128 := by
  have hbit : ∀ k ∈ List.range 128, mask.testBit k = true := fun k hk => by
    have hk : k < 128 := List.mem_range.mp hk
    have hb : (mask % 2 ^ 128).testBit k = true := by rw [h, Nat.testBit_two_pow_sub_one, decide_eq_true hk]
    rw [Nat.testBit_mod_two_pow, Bool.and_eq_true] at hb
    exact hb.2
  rw [maskedCells, List.filter_eq_self.mpr hbit, List.length_map, List.length_range]

/-- The masked write of a line of a stack (R212): the bytes that the mask names; a whole line is left without poison, with
a check value that fits (R395, R396). -/
theorem execLineWrite_of_stacked {pa mask : Nat} {data : List Byte} {s : State}
    (hloc : (s.hub.localLoc (lineOf pa * 128)).stacked = true) : ∃ t, execLineWrite pa mask data s = .next t ∧
      t.me = s.me ∧ t.ring = s.ring ∧
      (mask % 2 ^ 128 = 2 ^ 128 - 1 → NMap.wf LineMeta.zero s.hub.lines = true →
        (t.hub.lineMeta (lineOf pa)).poison = false ∧ (t.hub.lineMeta (lineOf pa)).syn = 0) ∧
      t.hub.mem = NMap.putAll 0#8 (maskedCells (lineOf pa) mask data) s.hub.mem := by
  unfold execLineWrite
  extract_lets line ks hb
  by_cases hks : ks = []
  · have hcells : maskedCells (lineOf pa) mask data = [] := congrArg (List.map _) hks
    rw [if_pos (List.isEmpty_iff.mpr hks), hcells]
    refine ⟨s, rfl, rfl, rfl, fun hfull _ => ?_, rfl⟩
    have hlen := length_maskedCells_of_full (line := lineOf pa) (data := data) hfull
    rw [hcells] at hlen
    cases hlen
  · obtain ⟨ds, e⟩ := hb.mscTouch_frame line true
    rw [if_neg (by simpa using hks), if_neg (by simp [line, hloc]), Hub.mscWrite, e]
    refine ⟨_, rfl, rfl, rfl, fun hfull hwf => ?_, Hub.putCells_mem ..⟩
    have hhb : hb = _ := Hub.putCells_of_line (cells := maskedCells line mask data) (hb := s.hub)
      (fun h => hks (List.map_eq_nil_iff.mp h)) mem_maskedCells_line
    have hmeta : hb.lineMeta line = (s.hub.lineMeta line).rewrite true := by
      rw [hhb, length_maskedCells_of_full hfull]
      exact NMap.get_put_self hwf
    have hmeta' : Hub.lineMeta { hb with dram := ds } line = (s.hub.lineMeta line).rewrite true := hmeta
    exact ⟨(congrArg LineMeta.poison hmeta').trans (Bool.and_false _), congrArg LineMeta.syn hmeta'⟩

/-- A fold from the right that puts one element after the other. -/
theorem foldr_eq_some_map {α β : Type} {f : α → Option (List β) → Option (List β)} {g : α → β} {l : List α}
    (h : ∀ o ∈ l, ∀ r, f o (some r) = some (g o :: r)) : l.foldr f (some []) = some (l.map g) := by
  induction l with
  | nil => rfl
  | cons o l ih =>
    rw [List.foldr_cons, ih fun o ho => h o (List.mem_cons_of_mem _ ho), h o List.mem_cons_self, List.map_cons]

section
variable {part : Nat} {tid c : Word} {d : Tdt} {s : State}

/-- A tile outside the tensor reads as the pad pattern (R122, R208). -/
theorem execTileRead_of_outside (hd : s.hub.readTdt s.free part tid = some d)
    (hout : ∀ o, o < 4096 → d.tileByte c o = none) : ∃ t, execTileRead part tid c s = .next t ∧
      t.hub.mem = s.hub.mem ∧ t.hub.reply = .data ((List.range 4096).map d.padByte) := by
  unfold execTileRead
  rw [hd]
  dsimp only
  rw [foldr_eq_some_map (g := d.padByte) fun o ho r => by simp only [hout o (List.mem_range.mp ho)]]
  exact ⟨_, rfl, rfl, rfl⟩

/-- The bytes of a tile that lie in the tensor (R122): their addresses, and their places in the tile. -/
def Tdt.cells (d : Tdt) (c : Word) : List (Nat × Nat) :=
  (List.range 4096).filterMap (fun o => (d.tileByte c o).map (fun va => (va, o)))

/-- A tile whose bytes in the tensor translate is stored at their addresses (R208). -/
theorem execTileWrite_of_addrs {data : List Byte} {pas : List Nat} (hd : s.hub.readTdt s.free part tid = some d)
    (hpas : (d.cells c).map (fun e => s.hub.hubAddrs s.free part .store e.1 1) = pas.map (fun pa => some [pa])) :
    execTileWrite part tid c data s =
      .next ((s.storeBytes 0 pas ((d.cells c).map (fun e => data.getD e.2 0#8))).tell .done) := by
  unfold execTileWrite
  split
  next h => simp [hd] at h
  next t h =>
    obtain rfl : d = t := Option.some.inj (hd.symm.trans h)
    rw [← Tdt.cells]
    extract_lets cells qas
    have hlen : (d.cells c).length = pas.length := by simpa using congrArg List.length hpas
    have hqas : qas = pas.map some := by
      refine List.ext_getElem (by simpa [qas, cells] using hlen) fun i hi _ => ?_
      have hat := List.getElem_of_eq hpas (i := i) (by simpa [qas, cells] using hi)
      simp only [List.getElem_map] at hat
      simp only [qas, cells, List.getElem_map, hat]
    simp [hqas, cells]

/-- A tile outside the tensor is not stored at all (R208). -/
theorem execTileWrite_of_outside {data : List Byte} (hd : s.hub.readTdt s.free part tid = some d)
    (hout : ∀ o, o < 4096 → d.tileByte c o = none) : execTileWrite part tid c data s = .next (s.tell .done) := by
  have hcells : d.cells c = [] := by
    simpa [Tdt.cells, List.filterMap_eq_nil_iff] using hout
  rw [execTileWrite_of_addrs (pas := []) hd (by rw [hcells]; rfl), hcells]
  rfl

end

/-! ### Regions and registers of the base dies -/

@[simp] theorem Stack.access_msc (clk line : Nat) (d : Stack) : (d.access clk line).msc = d.msc := by
  simp only [Stack.access]
  split <;> rfl

@[simp] theorem Stack.access_buffer (clk line : Nat) (d : Stack) : (d.access clk line).buffer = d.buffer := by
  simp only [Stack.access]
  split <;> rfl

/-- The cached lines of a base die when those that a test names are clean (R212). -/
def cleaned (p : Nat → Bool) (msc : List MscLine) : List MscLine :=
  msc.map (fun e => if p e.line then { e with dirty := false } else e)

/-- Only the dirty lines matter to what is cleaned. -/
theorem cleaned_congr {p q : Nat → Bool} {msc : List MscLine} (h : ∀ e ∈ msc, e.dirty = true → p e.line = q e.line) :
    cleaned p msc = cleaned q msc := by
  refine List.map_congr_left fun e he => ?_
  cases hd : e.dirty with
  | true => rw [h e he hd]
  | false =>
    have hself : { e with dirty := false } = e := by rw [← hd]
    rw [hself, ite_self, ite_self]

theorem cleaned_cleaned (p q : Nat → Bool) (msc : List MscLine) :
    cleaned p (cleaned q msc) = cleaned (fun l => q l || p l) msc := by
  rw [cleaned, cleaned, cleaned, List.map_map]
  refine List.map_congr_left fun e _ => ?_
  cases hq : q e.line <;> simp [hq]

theorem cleaned_false (msc : List MscLine) : cleaned (fun _ => false) msc = msc := by simp [cleaned]

theorem Stack.clean_buffer (clk line : Nat) (d : Stack) : (d.clean clk line).buffer = d.buffer := by
  unfold Stack.clean
  split
  · exact Stack.access_buffer ..
  · rfl

theorem Stack.clean_msc (clk line : Nat) (d : Stack) :
    (d.clean clk line).msc = cleaned (fun l => decide (l = line)) d.msc := by
  unfold Stack.clean
  split
  · simp [cleaned]
  next h =>
    refine (cleaned_false d.msc).symm.trans (cleaned_congr fun e he hd => ?_)
    simp only [List.any_eq_true, Bool.and_eq_true, decide_eq_true_eq, not_exists, not_and] at h
    simpa using fun hl => h e he hl hd

theorem Stack.foldl_clean (clk : Nat) (es : List MscLine) (d : Stack) :
    (es.foldl (fun d e => d.clean clk e.line) d).msc = cleaned (fun l => es.any (fun e => l = e.line)) d.msc ∧
      (es.foldl (fun d e => d.clean clk e.line) d).buffer = d.buffer := by
  induction es generalizing d with
  | nil => exact ⟨(cleaned_false d.msc).symm, rfl⟩
  | cons e es ih =>
    obtain ⟨hmsc, hbuf⟩ := ih (d.clean clk e.line)
    rw [Stack.clean_msc, cleaned_cleaned] at hmsc
    exact ⟨hmsc, hbuf.trans (Stack.clean_buffer ..)⟩

/-- A region clean (R212, R213): the dirty lines of the region are clean, and gone from the eviction buffer. -/
theorem Stack.cleanRegion_lines (clk base len : Nat) (d : Stack) :
    (d.cleanRegion clk base len).msc = cleaned (inSpan base len) d.msc ∧
      (d.cleanRegion clk base len).buffer = d.buffer.filter (fun l => !inSpan base len l) := by
  obtain ⟨hmsc, hbuf⟩ := Stack.foldl_clean clk (d.msc.filter (fun e => e.dirty && inSpan base len e.line)) d
  refine ⟨hmsc.trans (cleaned_congr fun e he hd => ?_), congrArg (List.filter _) hbuf⟩
  rw [Bool.eq_iff_iff, List.any_eq_true]
  constructor
  · rintro ⟨x, hx, hxl⟩
    rw [of_decide_eq_true hxl]
    exact (Bool.and_eq_true_iff.mp (List.mem_filter.mp hx).2).2
  · exact fun hin => ⟨e, List.mem_filter.mpr ⟨he, by simp [hd, hin]⟩, by simp⟩

/-- Lines outside a region are as they were when it is cleaned. -/
theorem filter_cleaned (p : Nat → Bool) (msc : List MscLine) :
    (cleaned p msc).filter (fun e => !p e.line) = msc.filter (fun e => !p e.line) := by
  induction msc with
  | nil => rfl
  | cons e msc ih =>
    have hcons : cleaned p (e :: msc) = (if p e.line then { e with dirty := false } else e) :: cleaned p msc := rfl
    rw [hcons, List.filter_cons, List.filter_cons, ih]
    cases hp : p e.line <;> simp [hp]

theorem State.setStack_of_lt {k : Nat} (g : k < 12) (f : Stack → Stack) (s : State) : s.setStack k f =
    { s with hub := { s.hub with dram := s.hub.dram.set k (f (s.hub.dram[k]'g)) g } } := dif_pos g

/-! ### Errors -/

theorem State.raiseBy_hub (r : Word) (bit : Nat) (s : State) : (s.raiseBy r bit).hub = s.hub := by
  unfold State.raiseBy
  split <;> rfl

/-- `ERRST` when an error of a kind is the first since VALID was cleared (R398). -/
def firstError (kind : Nat) (w : Word) : Word := setBits 31 31 1 (setBits 30 24 kind w)

theorem firstError_valid (kind : Nat) (w : Word) : (firstError kind w).getLsbD 31 = true := by
  rw [firstError, getLsbD_setBits (by decide) (by decide)]
  rfl

theorem wbits_firstError {kind : Nat} (h : kind < 128) (w : Word) : wbits 30 24 (firstError kind w) = kind := by
  refine Nat.eq_of_testBit_eq fun i => ?_
  rw [testBit_wbits]
  by_cases hi : i < 7
  · rw [firstError, getLsbD_setBits (by decide) (by omega), getLsbD_setBits (by decide) (by omega),
      if_neg (by omega), if_pos (by omega), decide_eq_true (by omega), Nat.add_sub_cancel_left, Bool.true_and]
  · rw [decide_eq_false (by omega), Bool.false_and,
      Nat.testBit_lt_two_pow (h.trans_le (Nat.pow_le_pow_right (n := 2) Nat.two_pos (Nat.le_of_not_lt hi)))]

/-- The first error since VALID was cleared is kept (R398). -/
theorem State.logErr_hub_of_clear {kind addr : Nat} {s : State} (h : s.hub.mon.errst.getLsbD 31 = false) :
    (s.logErr kind addr).hub = { s.hub with mon := { s.hub.mon with
      errst := firstError kind s.hub.mon.errst, erraddr := BitVec.ofNat 64 (addr % 2 ^ 52) } } := by
  simp only [State.logErr, h, Bool.false_eq_true, if_false, State.raiseBy_hub]
  rfl

/-- A line whose check value does not fit is poisoned when it is tested (R395, R396). -/
theorem LineMeta.verify_of_misfit {m : LineMeta} (h : m.syn ≠ 0) : m.verify = { m with poison := true } := by
  rw [LineMeta.verify, decide_eq_true h, Bool.or_true]

/-- An error of a line that memory or the side cache reports poisons it and is logged (R395 to R398). -/
theorem execUncorrectableError_line {pa : Nat} (dram : Bool) {s : State} (h : s.hub.mon.errst.getLsbD 31 = false) :
    ∃ t syn, execUncorrectableError (.line pa dram) s = .next t ∧
      t.hub.lines = NMap.put LineMeta.zero (lineOf pa) { s.hub.lineMeta (lineOf pa) with poison := true, syn := syn }
        s.hub.lines ∧
      (dram = true → syn = (s.hub.lineMeta (lineOf pa)).syn) ∧ (dram = false → syn ≠ 0) ∧
      t.hub.mon.errst = firstError (if dram then 1 else 2) s.hub.mon.errst ∧
      t.hub.mon.erraddr = BitVec.ofNat 64 (pa % 2 ^ 52) ∧ t.hub.mem = s.hub.mem := by
  cases dram with
  | true =>
    have hlog := State.logErr_hub_of_clear (kind := 1) (addr := pa) (s := s.poisonLine (lineOf pa)) h
    refine ⟨_, _, rfl, ?_, fun _ => rfl, nofun, ?_, ?_, ?_⟩ <;> rw [hlog] <;> rfl
  | false =>
    have hlog := State.logErr_hub_of_clear (kind := 2) (addr := pa) (s := s.damageLine (lineOf pa)) h
    have hsyn : (if (s.hub.lineMeta (lineOf pa)).syn = 0 then 1 else (s.hub.lineMeta (lineOf pa)).syn) ≠ 0 := by
      split
      · decide
      · assumption
    refine ⟨_, _, rfl, ?_, nofun, fun _ => hsyn, ?_, ?_, ?_⟩ <;> rw [hlog]
    · exact congrArg (NMap.put LineMeta.zero (lineOf pa) · s.hub.lines) (LineMeta.verify_of_misfit hsyn)
    all_goals rfl

/-! ### The obligation -/

/-- Settles O55: the peers by what the home keeps of a line that has one holder, the stacks by what a fold over the
lines or bytes named leaves, and the background work changes nothing by definition. -/
theorem coherenceAndStacksMove : Obligations.CoherenceAndStacksMove := by
  unfold Obligations.CoherenceAndStacksMove
  intro s peer line own back replies idle
  refine ⟨?invalidation, ?recalled, ?eviction, ?lockedEviction, ?fill, ?lateSequence, ?snoop, ?lines, ?outside, ?tileWrite,
    ?regions, ?registers, ?error, ?corrected, fun n => ⟨rfl, rfl, rfl, rfl⟩⟩
  case invalidation =>
    intro x hinvs hpeer hline hrec htick hlock
    obtain ⟨hb, hexec, hi, hnone, hown⟩ := execInvalidationAck_of_sole hinvs hpeer hline hrec htick hlock
    exact ⟨_, hexec, hi, rfl, rfl, hnone, hown⟩
  case recalled =>
    intro x p hinvs hline hrec hp hlocked
    obtain ⟨hb, hexec, hi, hm, hpeers⟩ := execRecallLine_of_sole hinvs hline hrec hp hlocked
    exact ⟨_, hexec, hi, hm, hpeers, rfl, rfl⟩
  case eviction =>
    intro p hp hinvs hlock
    have hevict : execEvictionNotice peer line s = .next (s.evict peer line) := if_neg (by simp [hlock])
    refine ⟨fun hhost => ?_, fun port hhost => ?_⟩
    · obtain ⟨hb, he, hpeers, hm⟩ := State.evict_of_dirty hp hinvs hhost
      exact ⟨_, hevict.trans (congrArg _ he), hpeers, hm, rfl, rfl⟩
    · obtain ⟨hb, x, he, hpeers, hexts, hfar, hpa, hcxl⟩ := State.evict_of_dirty_host hp hhost
      exact ⟨_, x, hevict.trans (congrArg _ he), hpeers, hexts, hfar, hpa, hcxl, rfl, rfl⟩
  case lockedEviction =>
    exact fun hlock => if_pos hlock
  case fill =>
    intro hpeer hloc hpeers hlocked
    exact ⟨execPeerFill_shares hpeer hloc hpeers hlocked,
      fun hdir _ => execPeerFill_owns hpeer hloc hpeers hlocked hdir⟩
  case lateSequence =>
    intro l t0 p hlocked hpeer hline hheld hdef hlate hp
    exact execLockedSequenceTimeout_of_late hlocked hpeer hline hheld hdef hlate hp
  case snoop =>
    intro port inv hhost hlocked
    obtain ⟨t, hexec, hreply, hinv, hm, hme⟩ := execHostSnoop_of_unlocked inv hhost hlocked
    exact ⟨t, hexec, fun p hp => hreply p (SoleHolder.owner hp), hinv, hm, hme⟩
  case lines =>
    intro pa hloc bs bad
    refine ⟨fun hwf => ?_, fun mask data => execLineWrite_of_stacked hloc⟩
    obtain ⟨t, hexec, hm, hme, hmeta, hreply⟩ := execLineRead_of_stacked hloc hwf
    exact ⟨t, hexec, hm, hme, congrArg LineMeta.poison hmeta, hreply⟩
  case outside =>
    intro part tid c d hd hout
    have hread : exec (.tileRead part tid c) s = execTileRead part tid c s := rfl
    have hwrite (data : List Byte) : exec (.tileWrite part tid c data) s = execTileWrite part tid c data s := rfl
    rw [hread]
    exact ⟨execTileRead_of_outside hd hout, fun data => (hwrite data).trans (execTileWrite_of_outside hd hout)⟩
  case tileWrite =>
    intro part tid c data d pas hd cells hpas
    have hwrite : exec (.tileWrite part tid c data) s = execTileWrite part tid c data s := rfl
    have hcells : cells = d.cells c := by simp only [cells, Tdt.cells]
    rw [hcells] at hpas ⊢
    exact hwrite.trans (execTileWrite_of_addrs hd hpas)
  case regions =>
    intro base len
    refine ⟨_, _, rfl, rfl, rfl, rfl, rfl, rfl, fun k g => ?_⟩
    intro inside
    obtain ⟨hmsc, hbuf⟩ := Stack.cleanRegion_lines s.hub.clk base len (s.hub.dram[k]'g)
    have hmap (f : Stack → Stack) : (s.mapStacks f).hub.dram[k] = f (s.hub.dram[k]'g) := Vector.getElem_map ..
    simp only [hmap]
    refine ⟨hmsc, hbuf, ?_⟩
    rw [hmsc]
    exact filter_cleaned ..
  case registers =>
    intro k off v g
    refine ⟨fun lvl hlvl => ⟨?_, if_pos hlvl⟩, ?_, ?_, fun hidle => ?_, fun n hmig => ?_⟩
    · exact congrArg (fun r => Host.Outcome.next (s.tell r)) (if_pos hlvl)
    · exact congrArg (fun w => Host.Outcome.next (s.tell (.word w))) (dif_pos g)
    · exact congrArg Host.Outcome.next (State.setStack_of_lt g _ s)
    · refine congrArg Host.Outcome.next ((State.setStack_of_lt g _ s).trans ?_)
      simp only [Stack.adopt, hidle]
    · refine congrArg Host.Outcome.next ((State.setStack_of_lt g _ s).trans ?_)
      simp only [hmig]
      rfl
  case error =>
    intro pa dram hclear
    obtain ⟨t, syn, hexec, hlines, hdram, hcache, herrst, haddr, hm⟩ := execUncorrectableError_line dram hclear
    refine ⟨t, hexec, ⟨syn, hlines, hdram, hcache⟩, ?_, ?_, haddr, hm⟩
    · rw [herrst, firstError_valid]
    · rw [herrst, wbits_firstError (by cases dram <;> decide)]
  case corrected =>
    intro hfew
    refine congrArg Host.Outcome.next ?_
    simp only [State.countCorrected, hfew, if_false]
    rfl

end Sys2Proof.Machine
end

section
/-! The outside of the package: answers to requests that left it (R40, R203, R205), Treluk links (R24, R40), and inbound
requests of hosts and of RDMA peers (R202, R346, R356, R357). -/

namespace Sys2Proof.Machine

/-! ### Answers to requests that left the package -/

/-- The hart that an answer reaches when only loads of it wait: each that asked has the data, and LT follows the time of
the far home (R40, R191). -/
def Hart.hears (tag bits time : Nat) (data : List Byte) (h : Hart) : Hart :=
  { (if h.lsu.asks.any (fun a => a.tags.any (fun t => t.1 = tag)) then h.raiseLt time else h) with
    lsu := { h.lsu with asks := h.lsu.asks.map (fun a => { a with
      tags := a.tags.map (fun t => if t.1 = tag then (tag, some (bits, data)) else t) }) } }

theorem State.takeAnswer_of_loads {tag bits time : Nat} {data : List Byte} {s : State} (hwrites : s.me.lsu.writes = [])
    (heng : s.me.units.eng = []) : s.takeAnswer tag bits time data = s.modMe (Hart.hears tag bits time data) := by
  by_cases hwaits : s.me.lsu.asks.any (fun a => a.tags.any (fun t => t.1 = tag)) = true
  · simp [State.takeAnswer, Hart.hears, State.modMe, hwrites, heng, hwaits]
  · simp [State.takeAnswer, Hart.hears, State.modMe, hwrites, heng, hwaits]

/-- The one request that has left the package is a load of the acting hart, which has no write and no engine operation
under way. -/
def SoleRequest (e : Ext) (s : State) : Prop :=
  s.hub.exts = [e] ∧ e.cxl = none ∧ s.me.id = e.hart ∧ s.me.lsu.writes = [] ∧ s.me.units.eng = []

/-- No request that left the package is outstanding any more. -/
def State.closed (s : State) : State := { s with hub := { s.hub with exts := [] } }

/-- The one request that has left is answered, and nothing but a load waits for it. -/
def State.ended (e : Ext) (bits time : Nat) (data : List Byte) (s : State) : State :=
  s.closed.modMe (Hart.hears e.tag bits time data)

section
variable {e : Ext} {s : State}

theorem SoleRequest.exts (h : SoleRequest e s) : s.hub.exts = [e] := by
  obtain ⟨hexts, -, -, -, -⟩ := h
  exact hexts

/-- The answer to the one request that is outstanding, which no peer sent, goes to its hart (R40). -/
theorem State.answer_of_hart (hexts : s.hub.exts = [e]) (hcxl : e.cxl = none) (bits time : Nat) (data : List Byte) :
    s.answer e.tag bits time data = s.closed.onHart e.hart (State.takeAnswer e.tag bits time data) := by
  simp [State.answer, hexts, hcxl, State.closed]

/-- The answer to the one request that is outstanding, which a peer sent, fills the peer's cache (R39). -/
theorem State.answer_of_peer {peer : Nat} {req : CxlReq} (hexts : s.hub.exts = [e]) (hcxl : e.cxl = some (peer, req))
    (bits time : Nat) (data : List Byte) : s.answer e.tag bits time data =
      ((s.closed.takeHost peer (e.pa / 128) req data).peerRoom peer (e.pa / 128)).onHart e.hart
        (State.takeAnswer e.tag bits time data) := by
  simp [State.answer, hexts, hcxl, State.closed]

theorem SoleRequest.answer (h : SoleRequest e s) (bits time : Nat) (data : List Byte) :
    s.answer e.tag bits time data = s.ended e bits time data := by
  obtain ⟨hexts, hcxl, hid, hwrites, heng⟩ := h
  have hfocus : s.closed.focus e.hart = some s.closed := if_pos hid
  rw [State.answer_of_hart hexts hcxl, State.onHart_of_focus hfocus,
    State.takeAnswer_of_loads (s := s.closed) hwrites heng, State.ended]

theorem State.asked_of_sole (hexts : s.hub.exts = [e]) (p : Far → Bool) : s.asked e.tag p = p e.far := by
  simp [State.asked, hexts]

theorem execCxlDeviceAcknowledgement_of_sole (h : SoleRequest e s) {p : Nat} (hfar : e.far = .cxl p) (data : List Byte) :
    execCxlDeviceAcknowledgement e.tag data s = .next (s.ended e 0 0 data) :=
  congrArg Host.Outcome.next
    ((if_pos ((State.asked_of_sole h.exts _).trans (by rw [hfar]))).trans (h.answer 0 0 data))

theorem execHostWriteComplete_of_sole (h : SoleRequest e s) {p : Nat} (hfar : e.far = .host p) (data : List Byte) :
    execHostWriteComplete e.tag data s = .next (s.ended e 0 0 data) :=
  congrArg Host.Outcome.next
    ((if_pos ((State.asked_of_sole h.exts _).trans (by rw [hfar]))).trans (h.answer 0 0 data))

/-- An answer changes nothing of the package where no hart has a write or an engine operation under way. -/
theorem State.onHart_takeAnswer_hub {tag bits time : Nat} {data : List Byte} (h : HartId)
    (hidle : ∀ x ∈ s.harts, x.lsu.writes = [] ∧ x.units.eng = []) :
    (s.onHart h (State.takeAnswer tag bits time data)).hub = s.hub := by
  unfold State.onHart
  split
  next u hu =>
    obtain ⟨-, hperm, hhub, -, -, -⟩ := State.focus_spec hu
    obtain ⟨hwrites, heng⟩ := hidle u.me (hperm.mem_iff.mp List.mem_cons_self)
    rw [State.takeAnswer_of_loads hwrites heng]
    exact hhub
  next => rfl

/-- The host gives a core's cache the line that it asked for to share (R39). -/
theorem execHostWriteComplete_of_rdShared {p peer : Nat} (hexts : s.hub.exts = [e]) (hfar : e.far = .host p)
    (hcxl : e.cxl = some (peer, .rdShared)) (hpeers : s.hub.peers = [])
    (hidle : ∀ x ∈ s.harts, x.lsu.writes = [] ∧ x.units.eng = []) (data : List Byte) : ∃ t,
      execHostWriteComplete e.tag data s = .next t ∧ t.hub.exts = [] ∧ t.hub.peers =
        [{ peer := peer, line := e.pa / 128, st := .S, bytes := (List.range 128).map (fun k => data.getD k 0#8) }] := by
  have hexec : execHostWriteComplete e.tag data s = .next (s.answer e.tag 0 0 data) :=
    congrArg Host.Outcome.next (if_pos ((State.asked_of_sole hexts _).trans (by rw [hfar])))
  have hfill : (s.closed.takeHost peer (e.pa / 128) .rdShared data).hub.peers =
      [{ peer := peer, line := e.pa / 128, st := .S, bytes := (List.range 128).map (fun k => data.getD k 0#8) }] := by
    simp [State.takeHost, Hub.setPeer, State.closed, hpeers]
  rw [hexec, State.answer_of_peer hexts hcxl, State.peerRoom_of_few (by simp [hfill])]
  refine ⟨_, rfl, ?_, ?_⟩ <;>
    rw [State.onHart_takeAnswer_hub (s := s.closed.takeHost peer (e.pa / 128) .rdShared data) e.hart hidle]
  · rfl
  · exact hfill

end

/-! ### Links -/

/-- The state with another link `k`. -/
def State.relink (k : Nat) (g : k < 8) (l : Link) (s : State) : State :=
  { s with hub := { s.hub with links := s.hub.links.set k l g } }

theorem State.setLink_of_lt {k : Nat} (g : k < 8) (f : Link → Link) (s : State) :
    s.setLink k f = s.relink k g (f (s.hub.links[k]'g)) := dif_pos g

theorem State.relink_link {k : Nat} (g : k < 8) (l : Link) (s : State) : (s.relink k g l).hub.links[k] = l :=
  Vector.getElem_set_self g

theorem State.reply_queue {k : Nat} (g : k < 8) (x : LinkItem) (s : State) :
    ((s.reply k x).hub.links[k]'g).queue = (s.hub.links[k]'g).queue ++ [x] := by
  rw [State.reply, State.setLink_of_lt g]
  exact congrArg Link.queue (State.relink_link ..)

/-- The link after this side has counted a flit and has kept or dropped its ready signal (R40). -/
def Link.counted (low : Bool) (l : Link) : Link :=
  { l with ready := l.ready && !low, sent := if l.ready then 0 else l.sent + 1 }

/-- The next flit in order moves the link on where it is intact (R40). -/
theorem Link.receive_next_intact (l : Link) :
    l.receive l.next true = (true, { l with next := l.next + 1, asked := none, failed := 0 }) := by
  simp [Link.receive]

/-- The next flit in order is asked for again where it is damaged (R40). -/
theorem Link.receive_next_damaged (l : Link) : l.receive l.next false = (false, { l with
    asked := some l.next,
    failed := if l.asked.any (fun high => l.next ≤ high) then l.failed + 1 else l.failed }) := by
  simp [Link.receive]

/-- The link takes flits: it is up, and the far side may send (R40). -/
def Link.takes (l : Link) : Prop := l.trained = true ∧ l.dead = false ∧ (l.ready = true ∨ l.sent < 64)

/-- The state after a flit has arrived that leaves this link (R40). -/
def State.gotFlit (k : Nat) (g : k < 8) (l : Link) (s : State) : State :=
  { s.relink k g (l.counted (Config.freeBool s.free)) with free := s.free + 1 }

theorem State.gotFlit_link {k : Nat} (g : k < 8) (l : Link) (s : State) :
    (s.gotFlit k g l).hub.link k = l.counted (Config.freeBool s.free) := (dif_pos g).trans (State.relink_link ..)

/-- A flit that arrives is counted, and delivered where the link takes it as the next one (R40). -/
theorem execFlitReceive_of_takes {k seq : Nat} (g : k < 8) {s : State} (h : (s.hub.links[k]'g).takes) {ok good : Bool}
    {p : FlitPayload} {l : Link} (hrec : (s.hub.links[k]'g).receive seq ok = (good, l)) :
    execFlitReceive k seq ok p s = .next (if good then (s.gotFlit k g l).deliverFlit k p else s.gotFlit k g l) := by
  obtain ⟨hup, halive, hready⟩ := h
  have hlink : s.hub.link k = s.hub.links[k]'g := dif_pos g
  unfold execFlitReceive
  rw [hlink, if_neg (by rcases hready with hr | hr <;> simp [hup, halive, hr, g])]
  simp only [hrec, State.setLink_of_lt g]
  rfl

/-- An answer that comes over a link ends the one request that was sent over it (R40). -/
theorem State.deliverFlit_answer {k time : Nat} {e : Ext} {data : List Byte} {s : State} (h : SoleRequest e s)
    (hfar : e.far = .link k) (hsent : (s.hub.link k).queue.contains (.request e.tag) = false) :
    s.deliverFlit k (.answer e.tag time data) = s.ended e 0 time data := by
  have hasked : s.asked e.tag (fun f => f = .link k) = true :=
    (State.asked_of_sole h.exts _).trans (decide_eq_true hfar)
  have hdelivered : (s.asked e.tag (fun f => f = .link k) && !(s.hub.link k).queue.contains (.request e.tag)) = true := by
    rw [hasked, hsent]
    rfl
  exact (if_pos hdelivered).trans (h.answer 0 time data)

/-- What a location of this package names does not depend on the links (R24). -/
theorem Hub.loc_withLinks {pa : Nat} {hb : Hub} (h : (hb.loc pa).here = true) (ls : Vector Link 8) :
    Hub.loc { hb with links := ls } pa = hb.loc pa := by
  simp only [Hub.loc] at h ⊢
  split at h
  next hn =>
    rw [if_pos hn, if_pos hn]
    rfl
  next hn =>
    exfalso
    split at h
    · split at h
      · split at h <;> cases h
      · cases h
    · cases h

/-- The bytes that the hub reads of a location of this package do not depend on the links. -/
theorem Hub.hubBytes_withLinks {pa : Nat} {hb : Hub} (h : (hb.loc pa).here = true) (ls : Vector Link 8) (fr n : Nat) :
    Hub.hubBytes { hb with links := ls } fr pa n = hb.hubBytes fr pa n := by
  unfold Hub.hubBytes
  rw [Hub.loc_withLinks h]
  rfl

theorem Hub.protect_frame (part node a n t : Nat) (hb : Hub) :
    ∃ ls vs, hb.protect part node a n t = { hb with lines := ls, versions := vs } := by
  simp only [Hub.protect]
  split
  · exact ⟨_, _, rfl⟩
  · exact ⟨hb.lines, _, rfl⟩

@[simp] theorem Hub.readAt_links (part node a n t : Nat) (hb : Hub) :
    (hb.readAt part node a n t).links = hb.links := by
  obtain ⟨ls, ds, e⟩ := hb.readLine_frame (a / 128)
  obtain ⟨ls', vs, e'⟩ := Hub.protect_frame part node a n t { hb with lines := ls, dram := ds }
  rw [Hub.readAt, e, e']

/-- Another package's request for bytes of a line that is at home here, and not poisoned, is served (R22). -/
theorem State.serve_of_here {k tag pa n : Nat} {read : Bool} {f : State → State} {s : State}
    (hhere : (s.hub.loc pa).here = true) (hn : n ≠ 0) (hline : pa % 128 + n ≤ 128) (hgood : s.hub.poisoned pa = false) :
    s.serve k tag pa n read f = f s := by
  have hserved : ¬((!(s.hub.loc pa).here) = true ∨ 128 < pa % 128 + n ∨ n = 0) := by simp [hhere, hn, hline]
  exact (if_neg hserved).trans (if_neg (by simp [hgood]))

/-- Another package's read of a line that is at home here is answered with its bytes, at a time no earlier than the
reader's and than the last write (R22, R191). -/
theorem State.deliverFlit_read {k tag pa len lt : Nat} (g : k < 8) (l : Link) {s : State}
    (hhere : (s.hub.loc pa).here = true) (hlen : len ≠ 0) (hline : pa % 128 + len ≤ 128)
    (hgood : s.hub.poisoned pa = false) : ∃ t time,
      (s.gotFlit k g l).deliverFlit k (.read tag pa len lt) = t ∧ lt ≤ time ∧
      s.hub.seenWts 0 0 (lineOf pa) ≤ time ∧ t.me = s.me ∧ t.hub.mem = s.hub.mem ∧
      (t.hub.links[k]'g).queue = l.queue ++ [.answer tag time (s.hub.hubBytes (s.free + 1) pa len)] := by
  have hloc : (s.gotFlit k g l).hub.loc pa = s.hub.loc pa := Hub.loc_withLinks hhere _
  have hbytes : (s.gotFlit k g l).hub.hubBytes (s.gotFlit k g l).free pa len = s.hub.hubBytes (s.free + 1) pa len :=
    Hub.hubBytes_withLinks hhere ..
  have hlink : (s.gotFlit k g l).hub.links[k] = l.counted (Config.freeBool s.free) := State.relink_link ..
  have hserve := State.serve_of_here (k := k) (tag := tag) (read := true) (s := s.gotFlit k g l)
    (f := fun s => State.reply k
      (.answer tag (Nat.max lt (s.hub.seenWts 0 0 (lineOf pa))) (s.hub.hubBytes s.free pa len))
      { s with hub := s.hub.readAt 0 0 (locOf pa) len (Nat.max lt (s.hub.seenWts 0 0 (lineOf pa))) })
    (hloc ▸ hhere) hlen hline hgood
  refine ⟨_, Nat.max lt (s.hub.seenWts 0 0 (lineOf pa)), hserve, Nat.le_max_left .., Nat.le_max_right .., ?_, ?_, ?_⟩
  · rw [State.reply, State.setLink_of_lt g]
    rfl
  · exact (State.reply_hub_mem ..).trans (Hub.readAt_mem ..)
  · rw [State.reply_queue g, hbytes]
    simp only [Hub.readAt_links, hlink]
    rfl

theorem State.logErr_of_valid {kind addr : Nat} {s : State} (h : s.hub.mon.errst.getLsbD 31 = true) :
    s.logErr kind addr = s := if_pos h

/-- A dead link ends the one request that waits for its far side with DEAD (R40, R205). -/
theorem execDeadLink_of_sole {k : Nat} (g : k < 8) {e : Ext} {s : State} (h : SoleRequest e s) (hfar : e.far = .link k)
    (hspent : (s.hub.links[k]'g).spent = true) (hvalid : s.hub.mon.errst.getLsbD 31 = true) :
    execDeadLink k s = .next ((s.relink k g { s.hub.links[k]'g with
      dead := true, trained := false, queue := [], again := none }).ended e 1 0 []) := by
  have hlink : s.hub.link k = s.hub.links[k]'g := dif_pos g
  have hes : s.hub.exts.filter (fun e => e.far = .link k) = [e] := by simp [h.exts, hfar]
  unfold execDeadLink
  rw [hlink, if_neg (by simp [hspent])]
  simp only [hes, State.setLink_of_lt g]
  have hlog (addr : Nat) (l : Link) : (s.relink k g l).logErr 7 addr = s.relink k g l := State.logErr_of_valid hvalid
  rw [hlog]
  exact congrArg Host.Outcome.next (SoleRequest.answer (s := s.relink k g _) h 1 0 [])

/-! ### Requests of hosts -/

/-- An inbound read is told the bytes, and whether they are poisoned (R396). -/
theorem State.tellBytes_reply (pas : List Nat) (s : State) :
    (s.tellBytes pas).hub.reply = .data (pas.flatMap (fun pa => s.hub.hubBytes s.free pa 1)) ∨
      (s.tellBytes pas).hub.reply = .poisoned (pas.flatMap (fun pa => s.hub.hubBytes s.free pa 1)) := by
  by_cases h : pas.any (fun pa => (s.hub.loc pa).here && s.hub.poisoned pa) = true
  · exact .inr (if_pos h)
  · exact .inl (if_neg h)

section
variable {q : HostReq} (g : q.port < 2) {s : State}

/-- A request that no stream entry binds is counted and fails (R356). -/
theorem execInboundHostRequest_of_unbound
    (h : (NMap.get 0 (q.rid % 256) (s.hub.mon.streams[q.port]'g)).getLsbD 63 = false ∨
      wbits 39 32 (NMap.get 0 (q.rid % 256) (s.hub.mon.streams[q.port]'g)) ≠ q.rid / 256 ∨ q.pasid = true) :
    execInboundHostRequest q s = .next ((s.setMon (fun m => { m with
      iounb := if m.iounb = BitVec.allOnes 64 then m.iounb else m.iounb + 1 })).tellFailed q.write false) := by
  unfold execInboundHostRequest
  rw [dif_pos g]
  exact if_pos (by simpa using h)

/-- The stream entry of a request binds it to a partition (R356). -/
def State.binds (q : HostReq) (g : q.port < 2) (s : State) : Prop :=
  (NMap.get 0 (q.rid % 256) (s.hub.mon.streams[q.port]'g)).getLsbD 63 = true ∧
    wbits 39 32 (NMap.get 0 (q.rid % 256) (s.hub.mon.streams[q.port]'g)) = q.rid / 256 ∧ q.pasid = false

theorem State.binds.not_refused (h : s.binds q g) :
    ¬((!(NMap.get 0 (q.rid % 256) (s.hub.mon.streams[q.port]'g)).getLsbD 63) = true ∨
      wbits 39 32 (NMap.get 0 (q.rid % 256) (s.hub.mon.streams[q.port]'g)) ≠ q.rid / 256 ∨ q.pasid = true) := by
  obtain ⟨hvalid, hrid, hpasid⟩ := h
  rw [hvalid, hrid, hpasid]
  simp

/-- Where the bytes of a bound request lie, and what the translation caches hold then (R352, R356). -/
def State.hostAddrs (q : HostReq) (g : q.port < 2) (s : State) : Except (Nat × XFault) (List Nat) × Hub :=
  s.hub.inboundAddrs s.free (wbits 61 58 (NMap.get 0 (q.rid % 256) (s.hub.mon.streams[q.port]'g)))
    (if (NMap.get 0 (q.rid % 256) (s.hub.mon.streams[q.port]'g)).getLsbD 62 then some 2 else none)
    (if q.write then .store else .load) ((List.range q.data.length).map (fun k => q.addr + k))

/-- A bound request that meets a fault fails, and the fault is recorded (R357); one whose bytes can be reached is made
(R356). -/
theorem execInboundHostRequest_of_bound (h : s.binds q g) :
    let r := s.hostAddrs q g
    let u : State := { s with hub := r.2, free := s.free + 1 }
    (∀ a x, r.1 = .error (a, x) → execInboundHostRequest q s =
      .next ((State.ioFault (wbits 61 58 (NMap.get 0 (q.rid % 256) (s.hub.mon.streams[q.port]'g))) x.stage x.kind q.port
        q.write a { s with hub := r.2 }).tellFailed q.write false)) ∧
    (∀ pas, r.1 = .ok pas → (∀ pa ∈ pas, r.2.unreached pa = false) → execInboundHostRequest q s =
      if q.write then .next ((u.storeBytes 0 pas q.data).tell .done) else .next (u.tellBytes pas)) := by
  intro r u
  unfold execInboundHostRequest
  rw [dif_pos g, if_neg h.not_refused]
  extract_lets part n
  rw [show s.hub.inboundAddrs _ _ _ _ _ = r from rfl]
  clear_value r
  obtain ⟨r, hb⟩ := r
  refine ⟨?fault, ?reached⟩
  case fault =>
    rintro a x rfl
    rfl
  case reached =>
    rintro pas rfl hreach
    exact if_neg (by simpa using hreach)

end

/-! ### RDMA requests -/

/-- A connection that enters error is in error (R346). -/
theorem State.modConn_err {part q : Nat} {s : State} :
    ∀ x ∈ (s.modConn part q (fun c => { c with err := true })).hub.conns, x.part = part → x.q = q → x.err = true := by
  intro x hx hpart hq
  obtain ⟨c, -, rfl⟩ := List.mem_map.mp hx
  split
  · rfl
  next h =>
    rw [if_neg h] at hpart hq
    exact absurd ⟨hpart, hq⟩ h

section
variable {q : RdmaReq} {c : Conn} {s : State}

/-- A request for a connection that the Arcades do not hold is answered with an access error (R346). -/
theorem execIncomingRdma_of_noConn (hconn : s.hub.conn q.part q.conn = none) :
    execIncomingRdma q s = .next ((s.rdmaDone q).tell .accessError) := by
  unfold execIncomingRdma
  rw [hconn]

/-- A request that its connection does not accept is answered with an access error (R346). -/
theorem execIncomingRdma_of_unaccepted (hconn : s.hub.conn q.part q.conn = some c) (h : c.accepts q = false) :
    execIncomingRdma q s = .next (s.refuseRdma q) := by
  unfold execIncomingRdma
  rw [hconn]
  exact if_pos (by simp [h])

/-- The error bit of a connection's entry is left alone where there is no table (R346). -/
theorem State.markConn_of_noTable {part n : Nat} {err : Bool} (h : (s.hub.part part).connb.getLsbD 0 = false) :
    s.markConn part n err = s := if_pos (by rw [h]; rfl)

/-- The error bit of a connection's entry in memory is set where it was clear (R346). -/
theorem State.markConn_of_clear {part n : Nat} {b : Byte} {t : State}
    (htable : (s.hub.part part).connb.getLsbD 0 = true)
    (hread : s.hub.readVa s.free part (wbits 56 12 (s.hub.part part).connb * 4096 + 64 * n) 1 = some [b])
    (hclear : b.getLsbD 1 = false)
    (hwrite : s.hubWriteVa part (wbits 56 12 (s.hub.part part).connb * 4096 + 64 * n) [b ||| 2#8] = some t) :
    s.markConn part n true = t := by
  unfold State.markConn
  extract_lets r va
  rw [if_neg (by rw [show r.getLsbD 0 = true from htable]; decide), show s.hub.readVa s.free part va 1 = _ from hread]
  dsimp only
  rw [if_neg (by rw [hclear]; decide), if_pos rfl, show s.hubWriteVa part va _ = _ from hwrite, Option.getD_some]

/-- What an RDMA request does to its bytes, and how many they are (R346). -/
def rdmaAccess (q : RdmaReq) : Acc × Nat :=
  (if q.op = .read then .load else if q.op = .write then .store else .atomic,
    if q.op = .read ∨ q.op = .write then q.len else 8)

/-- Where the bytes of an RDMA request lie, and what the translation caches hold then (R346, R352). -/
def State.rdmaAddrs (q : RdmaReq) (c : Conn) (s : State) : Except (Nat × XFault) (List Nat) × Hub :=
  s.hub.inboundAddrs s.free q.part (some (if c.peer = 32 then 0 else 1)) (rdmaAccess q).1
    ((List.range (rdmaAccess q).2).map (fun k => q.addr + k))

/-- A connection takes a request through a port of its partition (R346). -/
def State.takesRdma (q : RdmaReq) (c : Conn) (s : State) : Prop :=
  s.hub.conn q.part q.conn = some c ∧ c.accepts q = true ∧ (s.hub.part q.part).pchip.getLsbD (12 + c.port) = true

/-- An accepted request that meets a fault is refused, and the fault is recorded (R357); one whose bytes can be reached is
performed (R202, R346). -/
theorem execIncomingRdma_of_takes (h : s.takesRdma q c) :
    let r := s.rdmaAddrs q c
    let u : State := { s with hub := r.2, free := s.free + 1 }
    (∀ a x, r.1 = .error (a, x) → execIncomingRdma q s =
      .next ((State.ioFault q.part x.stage x.kind (2 + c.port) (decide (q.op ≠ .read)) a
        { s with hub := r.2 }).refuseRdma q)) ∧
    (∀ pas, r.1 = .ok pas → (∀ pa ∈ pas, r.2.unreached pa = false) →
      (q.op = .read → execIncomingRdma q s = .next (u.rdmaRead q c.peer pas)) ∧
      (q.op = .write → execIncomingRdma q s = .next (u.rdmaWrite q c.peer pas)) ∧
      (q.op ≠ .read → q.op ≠ .write → q.addr % 8 = 0 → ∀ pa, pas.head? = some pa → (r.2.loc pa).cacheable = true →
        execIncomingRdma q s = .next (u.rdmaAtomic q c.peer pa))) := by
  intro r u
  obtain ⟨hconn, haccepts, hport⟩ := h
  unfold execIncomingRdma
  split
  next hnone => simp [hconn] at hnone
  next c' hsome =>
  obtain rfl : c = c' := Option.some.inj (hconn.symm.trans hsome)
  rw [if_neg (by rw [haccepts, hport]; decide)]
  extract_lets wr n acc
  have hn : n = (rdmaAccess q).2 := by
    unfold n rdmaAccess
    cases q.op <;> rfl
  have hacc : acc = (rdmaAccess q).1 := by
    unfold acc rdmaAccess
    cases q.op <;> rfl
  rw [hn, hacc, show s.hub.inboundAddrs _ _ _ _ _ = r from rfl]
  clear_value r
  obtain ⟨r, hb⟩ := r
  refine ⟨?fault, ?reached⟩
  case fault =>
    rintro a x rfl
    rfl
  case reached =>
    rintro pas rfl hreach
    have hgo : ¬pas.any hb.unreached = true := by simpa using hreach
    dsimp only
    rw [if_neg hgo]
    refine ⟨fun hop => by rw [hop], fun hop => by rw [hop], fun hread hwrite halign pa hpa hcache => ?_⟩
    obtain ⟨rest, rfl⟩ : ∃ rest, pas = pa :: rest := List.head?_eq_some_iff.mp hpa
    split
    next hop => exact absurd hop hread
    next hop => exact absurd hop hwrite
    next heq _ _ =>
      obtain ⟨rfl, rfl⟩ := List.cons.inj heq
      exact if_neg (by simp [halign, hcache])
    next heq _ _ => cases heq

/-- A read of bytes that no peer may hold asks for no line (R346). -/
theorem State.rdmaRead_of_uncacheable {peer : Nat} {pas : List Nat}
    (h : ∀ pa ∈ pas, (s.hub.loc pa).cacheable = false) : s.rdmaRead q peer pas =
      ((s.rdmaDone q).tellBytes pas).modConn q.part q.conn (Conn.received pas.length) := by
  have hlines : linesOf (pas.filter (fun pa => (s.hub.loc pa).cacheable)) = [] := by
    rw [List.filter_eq_nil_iff.mpr (by simpa using h)]
    rfl
  unfold State.rdmaRead
  rw [hlines]
  rfl

end

/-! ### The obligation -/

/-- Settles O56: an answer by what it does at the hart of the one request that is outstanding, a flit by what its link
counts and delivers, and a request from outside by where its addresses translate. -/
theorem outsideIsAnswered : Obligations.OutsideIsAnswered := by
  unfold Obligations.OutsideIsAnswered
  intro s ended sole
  refine ⟨?device, ?host, ?hostLine, ?links, ?hostRequest, ?rdma⟩
  case device =>
    exact fun e p data h hfar => execCxlDeviceAcknowledgement_of_sole h hfar data
  case host =>
    exact fun e p data h hfar => execHostWriteComplete_of_sole h hfar data
  case hostLine =>
    exact fun e p peer data hexts hfar hcxl hpeers hidle =>
      execHostWriteComplete_of_rdShared hexts hfar hcxl hpeers hidle data
  case links =>
    intro k g l relink
    refine ⟨congrArg Host.Outcome.next (State.setLink_of_lt g ..),
      fun far => congrArg Host.Outcome.next (State.setLink_of_lt g ..), fun hup halive hready => ?_,
      fun e h hfar hspent hvalid => execDeadLink_of_sole g h hfar hspent hvalid⟩
    have htakes : l.takes := ⟨hup, halive, hready⟩
    refine ⟨l.ready && !Config.freeBool s.free, if l.ready then 0 else l.sent + 1,
      fun p => execFlitReceive_of_takes g htakes (Link.receive_next_damaged l),
      execFlitReceive_of_takes g htakes (Link.receive_next_intact l), fun e time data h hfar hsent => ?_,
      fun tag pa len lt hhere hlen hline hgood => ?_⟩
    · have hqueue : ((s.gotFlit k g { l with next := l.next + 1, asked := none, failed := 0 }).hub.link k).queue.contains
          (.request e.tag) = false := by
        rw [State.gotFlit_link g]
        exact hsent
      exact (execFlitReceive_of_takes g htakes (Link.receive_next_intact l)).trans
        (congrArg Host.Outcome.next (State.deliverFlit_answer h hfar hqueue))
    · obtain ⟨t, time, ht, hlt, hseen, hme, hm, hqueue⟩ := State.deliverFlit_read g
        { l with next := l.next + 1, asked := none, failed := 0 } hhere hlen hline hgood
      exact ⟨t, time, (execFlitReceive_of_takes g htakes (Link.receive_next_intact l)).trans (congrArg _ ht), hlt, hseen,
        hme, hm, hqueue⟩
  case hostRequest =>
    intro q g e part failed
    refine ⟨fun h => execInboundHostRequest_of_unbound g h, fun hvalid hrid hpasid => ?_⟩
    intro r u
    obtain ⟨hfault, hok⟩ := execInboundHostRequest_of_bound g ⟨hvalid, hrid, hpasid⟩
    refine ⟨hfault, fun pas hr hreach => ⟨fun hwrite => ?_, fun hread => ?_⟩⟩
    · exact (hok pas hr hreach).trans (if_pos hwrite)
    · refine ⟨_, _, (hok pas hr hreach).trans (if_neg (by simp [hread])), rfl, rfl, State.tellBytes_reply ..⟩
  case rdma =>
    intro q
    refine ⟨fun hnone => ?_, fun c hconn hrefused => ?_, fun c r hconn haccepts hport hr => ?_⟩
    · exact execIncomingRdma_of_noConn hnone
    · intro connb va u
      have hrefuse : execIncomingRdma q s = .next ((u.markConn q.part q.conn true).tell .accessError) :=
        execIncomingRdma_of_unaccepted hconn hrefused
      refine ⟨State.modConn_err, fun htable => ?_, fun b t htable hread hclear hwrite => ?_⟩
      · exact hrefuse.trans (congrArg (fun t => Host.Outcome.next (t.tell .accessError))
          (State.markConn_of_noTable (s := u) htable))
      · exact hrefuse.trans (congrArg (fun t => Host.Outcome.next (t.tell .accessError))
          (State.markConn_of_clear (s := u) htable hread hclear hwrite))
    · subst hr
      intro u
      obtain ⟨hfault, hok⟩ := execIncomingRdma_of_takes ⟨hconn, haccepts, hport⟩
      refine ⟨hfault, fun pas hr hreach => ?_⟩
      obtain ⟨hread, hwrite, hatomic⟩ := hok pas hr hreach
      exact ⟨fun hop => ⟨hread hop, fun hun => State.rdmaRead_of_uncacheable (s := u) hun⟩, hwrite, hatomic⟩

end Sys2Proof.Machine
end

section
/-! The transfer slot (R154 to R156): how it runs where a tread has it, and what its instructions write and send. -/

namespace Sys2Proof.Machine

theorem xfSlot_of_ready {i : Instr} {f : XT} {k : Sem} {s : State} (h : TreadReady f.gk.g i s) :
    xfSlot i f k s = k s := treadSlot_of_ready h

/-! ### Results for scalar and uniform registers -/

theorem uniformTakes_of_writeG {i : Instr} {L : Nat} {d : BitVec 5} {v : Word} {s : State}
    (h : exec i s = s.writeG L d v) : UniformTakes i L d v s := by
  unfold State.writeG at h
  refine ⟨fun hcore => ?_, fun hcore hrun hlead => ?_, fun hcore hrun hlead => ?_, fun hcore hrun => ?_⟩
  · rw [h, if_pos hcore]
    rfl
  · rw [h, hcore, if_neg Bool.false_ne_true, if_neg (not_not.mpr hrun), if_pos hlead]
    rfl
  · rw [h, hcore, if_neg Bool.false_ne_true, if_neg (not_not.mpr hrun), hlead]
    rfl
  · rw [h, hcore, if_neg Bool.false_ne_true, if_pos hrun]

theorem destTakes_of_writeD {i : Instr} {L : Nat} {ud : Bool} {d : BitVec 6} {v : Word} {s : State}
    (h : exec i s = s.writeD L ud d v) : DestTakes i L ud d v s := by
  unfold State.writeD at h
  refine ⟨fun hud => ?_, fun hud => uniformTakes_of_writeG ?_⟩
  · rw [ScalarTakes, h, hud]
    rfl
  · rw [h, if_pos hud]

/-! ### The lowest bit of a mask -/

theorem lowestBit_eq_some {m : Word} {k : Nat} (hk : m.getLsbD k = true) (hlow : ∀ j, j < k → m.getLsbD j = false) :
    lowestBit m.toNat 64 = some k := by
  have hbit (j : Nat) : decide (m.toNat / 2 ^ j % 2 = 1) = m.getLsbD j := by
    rw [BitVec.getLsbD, Nat.testBit_eq_decide_div_mod_eq]
  simp only [lowestBit, hbit, List.find?_range_eq_some]
  exact ⟨hk, List.mem_range.mpr (BitVec.lt_of_getLsbD hk), fun j hj => by simp [hlow j hj]⟩

theorem lowestBit_zero : lowestBit (0 : Word).toNat 64 = none := by decide

theorem execXFirst_of_ready {f : XT} {s : State} (h : TreadReady f.gk.g (.xFirst f) s) :
    exec (.xFirst f) s = s.writeD 3 f.ud f.d
      (match lowestBit (s.me.regs.mReg (BitVec.ofNat 3 f.b.toNat)).toNat 64 with
        | some k => (s.me.vLane f.a.toNat k).zeroExtend 64
        | none => 0) :=
  (xfSlot_of_ready h).trans rfl

/-! ### Questions about a mask -/

theorem predicateTakes_of_writeP {i : Instr} {L : Nat} {d : BitVec 6} {v w : Bool} {s : State}
    (h : exec i s = .next (s.writeP L d v)) (hv : v = w) : PredicateTakes i L d w s := hv ▸ h

theorem maskAny_eq_bne (m : Word) : maskAny m = (m != 0) := by
  simp [maskAny, bne, BEq.beq]

theorem maskAll_eq_beq (m : Word) : maskAll m = (m == BitVec.allOnes 64) := rfl

theorem maskNone_eq_beq (m : Word) : maskNone m = (m == 0) := rfl

/-! ### Values between ranks -/

/-- A tread in broadcast whose next rank runs and has room sends its register on its way (R156). -/
theorem execXPass_of_room {f : XT} {s : State} {t : Hart} (h : TreadReady f.gk.g (.xPass f) s)
    (hrun : s.me.ctl.run = .attached) (hrank : s.me.rank + 1 ≠ s.me.spr.flw.toNat % 32)
    (hnext : s.hart? s.me.nextRank = some t) (hlive : t.live = true) (hroom : t.xCount < 4) :
    exec (.xPass f) s = .next (s.mapHart t.id (fun t => t.push (1 + s.me.spr.rise.toNat % 16) 10 0
      (some [.xpass s.hub.clk ((List.range 64).map (fun l => s.me.vLane f.a.toNat l))]))).issuedBare := by
  refine (xfSlot_of_ready h).trans ?_
  simp only [hrun, hrank, hnext, hlive, show ¬4 ≤ t.xCount by omega, ne_eq, not_true, if_false, Bool.not_true,
    Bool.false_eq_true]
  rfl

theorem execXPass_of_full {f : XT} {s : State} {t : Hart} (h : TreadReady f.gk.g (.xPass f) s)
    (hrun : s.me.ctl.run = .attached) (hrank : s.me.rank + 1 ≠ s.me.spr.flw.toNat % 32)
    (hnext : s.hart? s.me.nextRank = some t) (hlive : t.live = true) (hfull : 4 ≤ t.xCount) :
    exec (.xPass f) s = s.illegal 9 := by
  refine (xfSlot_of_ready h).trans ?_
  simp [hrun, hrank, hnext, hlive, hfull]

theorem execXPass_of_lastRank {f : XT} {s : State} (h : TreadReady f.gk.g (.xPass f) s)
    (hrun : s.me.ctl.run = .attached) (hrank : s.me.rank + 1 = s.me.spr.flw.toNat % 32) :
    exec (.xPass f) s = .next s.issuedBare := by
  refine (xfSlot_of_ready h).trans ?_
  simp only [hrun, hrank, ne_eq, not_true, if_false, if_true]
  rfl

theorem execXPass_of_not_attached {f : XT} {s : State} (h : TreadReady f.gk.g (.xPass f) s)
    (hrun : s.me.ctl.run ≠ .attached) : exec (.xPass f) s = s.illegal 9 :=
  (xfSlot_of_ready h).trans (if_pos hrun)

/-- The 256 bytes of an entry of the receive queue, as the units of the register that takes them (R156). -/
def recvUnits (f : XT) (h : Hart) (e : List (BitVec 32)) : List (Nat × BitVec 32) :=
  vecWords (h.vBase + 64 * f.d.toNat) (BitVec.allOnes 64) false (fun l => e.getD l 0#32)

/-- A tread in broadcast takes zero at rank 0, and the oldest entry at another rank (R156). -/
theorem execXRecv_of_attached {f : XT} {s : State} (h : TreadReady f.gk.g (.xRecv f) s)
    (hrun : s.me.ctl.run = .attached) :
    exec (.xRecv f) s = if s.me.rank = 0 then s.writeV 1 f.d (recvUnits f s.me [])
      else match s.me.units.xq with
        | [] => s.illegal 9
        | e :: r =>
          if s.me.vecWriteBad f.d.toNat ((recvUnits f s.me e.2).map (·.1)) then s.illegal 9
          else (s.modMe (fun h => { h with units := { h.units with xq := r } })).writeV 1 f.d (recvUnits f s.me e.2) :=
  (xfSlot_of_ready h).trans (if_neg (not_not.mpr hrun))

theorem execXRecv_of_not_attached {f : XT} {s : State} (h : TreadReady f.gk.g (.xRecv f) s)
    (hrun : s.me.ctl.run ≠ .attached) : exec (.xRecv f) s = s.illegal 9 :=
  (xfSlot_of_ready h).trans (if_pos hrun)

theorem writeV_of_not_bad {L : Nat} {d : BitVec 6} {ws : List (Nat × BitVec 32)} {s : State}
    (h : s.me.vecWriteBad d.toNat (ws.map (·.1)) = false) :
    s.writeV L d ws = .next (s.withResult L 5 d.toNat [.space (s.me.shadowed d.toNat) ws]) := by
  unfold State.writeV
  rw [h]
  rfl

/-- Settles O44: each instruction is one write of its result, a mask's lowest bit is the lane that `x.first` reads, and
`x.pass` and `x.recv` go by the rank and by the queue. -/
theorem transfersCrossBetweenFiles : Obligations.TransfersCrossBetweenFiles := by
  intro f s m lat all ready
  have hzero (h : ready (.xRecv f)) (hrun : s.me.ctl.run = .attached) (hrank : s.me.rank = 0) :
      VectorTakes (.xRecv f) 1 f.d (all (fun _ => 0#32)) s :=
    vectorTakes_of_writeV ((execXRecv_of_attached h hrun).trans (if_pos hrank))
  have htake (h : ready (.xRecv f)) (hrun : s.me.ctl.run = .attached) (e r) (hrank : s.me.rank ≠ 0)
      (hq : s.me.units.xq = e :: r) :
      exec (.xRecv f) s = if s.me.vecWriteBad f.d.toNat ((recvUnits f s.me e.2).map (·.1)) then s.illegal 9
        else (s.modMe (fun h => { h with units := { h.units with xq := r } })).writeV 1 f.d
          (recvUnits f s.me e.2) := by
    rw [execXRecv_of_attached h hrun, if_neg hrank, hq]
  refine ⟨fun h => vectorTakes_of_writeV (xfSlot_of_ready h), fun k h hk hlow => destTakes_of_writeD ?_,
    fun h hm => destTakes_of_writeD ?_, fun h => destTakes_of_writeD (xfSlot_of_ready h),
    fun h => predicateTakes_of_writeP (xfSlot_of_ready h) (maskAny_eq_bne _),
    fun h => predicateTakes_of_writeP (xfSlot_of_ready h) (maskAll_eq_beq _),
    fun h => predicateTakes_of_writeP (xfSlot_of_ready h) (maskNone_eq_beq _),
    fun h => destTakes_of_writeD (xfSlot_of_ready h),
    fun t h hrun hrank hnext hlive => ⟨execXPass_of_room h hrun hrank hnext hlive,
      execXPass_of_full h hrun hrank hnext hlive⟩,
    execXPass_of_lastRank,
    fun h hrun => ⟨hzero h hrun, fun hrank hq => ?_, fun e r hrank hq hbad => ?_, fun e r hrank hq hbad => ?_⟩,
    execXPass_of_not_attached, execXRecv_of_not_attached⟩
  · rw [execXFirst_of_ready h, lowestBit_eq_some hk hlow]
  · rw [execXFirst_of_ready h, show s.me.regs.mReg (BitVec.ofNat 3 f.b.toNat) = 0 from hm, lowestBit_zero]
  · rw [execXRecv_of_attached h hrun, if_neg hrank, hq]
  · rw [htake h hrun e r hrank hq, if_neg (Bool.not_eq_true _ ▸ hbad)]
    exact writeV_of_not_bad hbad
  · exact (htake h hrun e r hrank hq).trans (if_pos hbad)

end Sys2Proof.Machine
end

section
/-! An operation whose guard reads false (R82): the guard of each encoding format, the slots that stand under a guard,
and every operation but `loop` and `detach`. -/

namespace Sys2Proof

/-! ### The guard of a slot word -/

theorem Guard.enc_lt (g : Guard) : g.enc < 16 := by
  have hpred := g.pred.isLt
  have hneg := g.neg.toNat_le
  unfold Guard.enc
  omega

/-- A word has the guard that its lowest four bits encode. -/
theorem Guard.dec_of_mod {g : Guard} {w : Nat} (h : w % 16 = g.enc) : Guard.dec w = g := by
  obtain ⟨neg, pred⟩ := g
  have hpred := pred.isLt
  cases neg <;> simp only [Guard.enc, Bool.toNat_false, Bool.toNat_true] at h
  all_goals
    simp only [Guard.dec, bitAt, Guard.mk.injEq, decide_eq_true_eq, decide_eq_false_iff_not]
    exact ⟨by omega, BitVec.eq_of_toNat_eq (by rw [BitVec.toNat_ofNat]; omega)⟩

theorem CN.guard_enc (op : Nat) (f : CN) : Guard.dec (f.enc op) = f.gk.g :=
  Guard.dec_of_mod (by have := f.gk.g.enc_lt; unfold CN.enc GK.enc; omega)
theorem CI.guard_enc (op : Nat) (f : CI) : Guard.dec (f.enc op) = f.gk.g :=
  Guard.dec_of_mod (by have := f.gk.g.enc_lt; unfold CI.enc GK.enc; omega)
theorem CB.guard_enc (op : Nat) (f : CB) : Guard.dec (f.enc op) = f.gk.g :=
  Guard.dec_of_mod (by have := f.gk.g.enc_lt; unfold CB.enc GK.enc; omega)
theorem CR.guard_enc (op : Nat) (f : CR) : Guard.dec (f.enc op) = f.gk.g :=
  Guard.dec_of_mod (by have := f.gk.g.enc_lt; unfold CR.enc GK.enc; omega)
theorem CL.guard_enc (op : Nat) (f : CL) : Guard.dec (f.enc op) = f.gk.g :=
  Guard.dec_of_mod (by have := f.gk.g.enc_lt; unfold CL.enc GK.enc; omega)
theorem CS.guard_enc (op : Nat) (f : CS) : Guard.dec (f.enc op) = f.gk.g :=
  Guard.dec_of_mod (by have := f.gk.g.enc_lt; unfold CS.enc GK.enc; omega)
theorem SR.guard_enc (op : Nat) (f : SR) : Guard.dec (f.enc op) = f.gk.g :=
  Guard.dec_of_mod (by have := f.gk.g.enc_lt; unfold SR.enc GK.enc; omega)
theorem SI.guard_enc (op : Nat) (f : SI) : Guard.dec (f.enc op) = f.gk.g :=
  Guard.dec_of_mod (by have := f.gk.g.enc_lt; unfold SI.enc GK.enc; omega)
theorem SU.guard_enc (op : Nat) (f : SU) : Guard.dec (f.enc op) = f.gk.g :=
  Guard.dec_of_mod (by have := f.gk.g.enc_lt; unfold SU.enc GK.enc; omega)
theorem XT.guard_enc (op : Nat) (f : XT) : Guard.dec (f.enc op) = f.gk.g :=
  Guard.dec_of_mod (by have := f.gk.g.enc_lt; unfold XT.enc GK.enc; omega)
theorem LO.guard_enc (op : Nat) (f : LO) : Guard.dec (f.enc op) = f.g :=
  Guard.dec_of_mod (by have := f.g.enc_lt; unfold LO.enc; omega)
theorem LB.guard_enc (op : Nat) (f : LB) : Guard.dec (f.enc op) = f.g :=
  Guard.dec_of_mod (by have := f.g.enc_lt; unfold LB.enc; omega)
theorem VF.guard_enc (op : Nat) (f : VF) : Guard.dec (f.enc op) = f.g :=
  Guard.dec_of_mod (by have := f.g.enc_lt; unfold VF.enc; omega)
theorem MF.guard_enc (op : Nat) (f : MF) : Guard.dec (f.enc op) = f.g :=
  Guard.dec_of_mod (by have := f.g.enc_lt; unfold MF.enc WaitSig.enc; omega)
theorem EF.guard_enc (op : Nat) (f : EF) : Guard.dec (f.enc op) = f.g :=
  Guard.dec_of_mod (by have := f.g.enc_lt; unfold EF.enc WaitSig.enc; omega)

end Sys2Proof

namespace Sys2Proof.Machine

/-! ### The slots under a guard -/

/-- In a state a meaning issues and changes nothing else. -/
def OnlyIssues (s : State) (k : Sem) : Prop := k s = .next s.issuedBare

theorem guarded_onlyIssues {g : Guard} {k : Sem} {s : State} (hguard : guardHolds g s.me = false) :
    OnlyIssues s (guarded g k) := guarded_of_not hguard

theorem kernelOk_onlyIssues {i : Instr} {g : Guard} {k : Sem} {s : State} (hcheck : kernelCheck s.me i = none)
    (hguard : guardHolds g s.me = false) : OnlyIssues s (kernelOk i (guarded g k)) :=
  (kernelOk_of_none hcheck).trans (guarded_of_not hguard)

theorem treadSlot_onlyIssues {i : Instr} {g : Guard} {k : Sem} {s : State} (hcore : s.me.isCore = false)
    (hcheck : kernelCheck s.me i = none) (hguard : guardHolds g s.me = false) :
    OnlyIssues s (treadSlot i (guarded g k)) := by
  unfold OnlyIssues treadSlot
  rw [hcore, hcheck]
  exact guarded_of_not hguard

/-- Outside a broadcast decision a branch or call goes by its own guard (R131). -/
theorem branchTo_onlyIssues {g : Guard} {call : Bool} {target : State → VAddr} {s : State}
    (hdec : s.me.ctl.dec = none) (hguard : guardHolds g s.me = false) : OnlyIssues s (branchTo g call target) := by
  simp only [OnlyIssues, branchTo, State.decides, hdec, hguard]
  rfl

/-! ### Every operation -/

theorem guardHolds_of_dec {w : Nat} {g : Guard} {h : Hart} {b : Bool} (hw : Guard.dec w = g)
    (hguard : guardHolds (Guard.dec w) h = b) : guardHolds g h = b := hw ▸ hguard

/-- Settles O10: the guard of an operation's word is that of its fields, under which every slot stands; a `nop` does
nothing with or without it. -/
theorem falseGuardDoesNothing : Obligations.FalseGuardDoesNothing := by
  intro i s hop hguard hcheck hdec hcore hloop hdetach
  change OnlyIssues s (exec i)
  cases i with
  | nop _ => rfl
  | loop f => exact absurd rfl (hloop f)
  | detach f => exact absurd rfl (hdetach f)
  | br _ | call _ => exact branchTo_onlyIssues hdec (guardHolds_of_dec (CB.guard_enc _ _) hguard)
  | brR _ | callR _ => exact branchTo_onlyIssues hdec (guardHolds_of_dec (CR.guard_enc _ _) hguard)
  | hold _ | trap _ | sys _ | bkpt _ => exact guarded_onlyIssues (guardHolds_of_dec (CI.guard_enc _ _) hguard)
  | retire _ | eret _ => exact guarded_onlyIssues (guardHolds_of_dec (CN.guard_enc _ _) hguard)
  | meet _ | hypLeave _ | mouldCancel _ =>
    exact kernelOk_onlyIssues hcheck (guardHolds_of_dec (CN.guard_enc _ _) hguard)
  | waitSem _ => exact kernelOk_onlyIssues hcheck (guardHolds_of_dec (CS.guard_enc _ _) hguard)
  | sleepUntil _ | barArrive _ | barWait _ | hypOpen _ | hypEnter _ | hypResolveConfirm _ | hypResolveRefute _
    | mouldOpen _ | vbankAcq _ | vbankRel _ =>
    exact kernelOk_onlyIssues hcheck (guardHolds_of_dec (CR.guard_enc _ _) hguard)
  | add _ | sub _ | and _ | or _ | xor _ | shl _ | shr _ | sra _ | mul _ | mulhs _ | mulhu _ | div _ | divu _
    | rem _ | remu _ | mov _ | min _ | max _ | minu _ | maxu _ | bfx _ | bfxu _ | bfi _ | clz _ | ctz _ | popc _
    | bswap _ | cmpEq _ | cmpNe _ | cmpLt _ | cmpLe _ | cmpLtu _ | cmpLeu _ | pand _ | por _ | pxor _ | pnot _
    | faddF32 _ | fsubF32 _ | fmulF32 _ | ffmaF32 _ | fdivF32 _ | fsqrtF32 _ | fminF32 _ | fmaxF32 _ | faddF64 _
    | fsubF64 _ | fmulF64 _ | ffmaF64 _ | fdivF64 _ | fsqrtF64 _ | fminF64 _ | fmaxF64 _ | fcmpEqF32 _ | fcmpLtF32 _
    | fcmpLeF32 _ | fcmpUnF32 _ | fcmpEqF64 _ | fcmpLtF64 _ | fcmpLeF64 _ | fcmpUnF64 _ | fcvt _ | tlbinv _
    | tlbsync _ | sel _ _ => exact guarded_onlyIssues (guardHolds_of_dec (SR.guard_enc _ _) hguard)
  | addi _ | andi _ | ori _ | xori _ | shli _ | shri _ | srai _ | muli _ | cmpiEq _ | cmpiNe _ | cmpiLt _
    | cmpiLe _ | cmpiLtu _ | cmpiLeu _ | rdsr _ | wrsr _ =>
    exact guarded_onlyIssues (guardHolds_of_dec (SI.guard_enc _ _) hguard)
  | movi _ | movsh _ => exact guarded_onlyIssues (guardHolds_of_dec (SU.guard_enc _ _) hguard)
  | ldB _ | ldH _ | ldW _ | ldD _ | ldBu _ | ldHu _ | ldWu _ | pf _ | stB _ | stH _ | stW _ | stD _ | vld _
    | vst _ => exact kernelOk_onlyIssues hcheck (guardHolds_of_dec (LO.guard_enc _ _) hguard)
  | tld _ | tst _ | vgath _ | vscat _ | amoAdd _ | amoMin _ | amoMax _ | amoMinu _ | amoMaxu _ | amoAnd _
    | amoOr _ | amoXor _ | amoXchg _ | amoCas _ | redAdd _ | redMin _ | redMax _ | redAnd _ | redOr _ | redXor _
    | monWait _ | fenceScope _ | flushRegion _ =>
    exact kernelOk_onlyIssues hcheck (guardHolds_of_dec (LB.guard_enc _ _) hguard)
  | vadd _ | vsub _ | vmul _ | vfma _ | vmin _ | vmax _ | vabs _ | vneg _ | vand _ | vor _ | vxor _ | vnot _
    | vshl _ | vshr _ | vmov _ | vsel _ | vcmpEq _ | vcmpNe _ | vcmpLt _ | vcmpLe _ | vrcp _ | vrsqrt _ | vsqrt _
    | vexp2 _ | vlog2 _ | vtanh _ | vsin _ | vcos _ | vcvt _ | vquant _ | vdequant _ | vmovi _ | vredAdd _
    | vredMin _ | vredMax _ | vperm _ | vrot _ | vrng _ | accept _ | mand _ | mor _ | mxor _ | mandn _ | mnot _ =>
    exact treadSlot_onlyIssues (hcore (Nat.le_of_ble_eq_true rfl)) hcheck (guardHolds_of_dec (VF.guard_enc _ _) hguard)
  | xBcast _ | xFirst _ | xLane _ | xAny _ | xAll _ | xNone _ | xCnt _ | xPass _ | xRecv _ =>
    exact treadSlot_onlyIssues (hcore (Nat.le_of_ble_eq_true rfl)) hcheck (guardHolds_of_dec (XT.guard_enc _ _) hguard)
  | mma _ | mmaQ _ | accClr _ | accLd _ | accSt _ | accCvt _ | latchRel _ | omSet _ =>
    exact treadSlot_onlyIssues (hcore (Nat.le_of_ble_eq_true rfl)) hcheck (guardHolds_of_dec (MF.guard_enc _ _) hguard)
  | copyGv _ | copyVg _ | copyVv _ | copyGg _ | copyTile _ | copyIdx _ | copyCheck _ | semAdd _ | semSub _
    | semSet _ | sigWr _ | grpRed _ | netPut _ | netGet _ =>
    exact treadSlot_onlyIssues (hcore (Nat.le_of_ble_eq_true rfl)) hcheck (guardHolds_of_dec (EF.guard_enc _ _) hguard)
  | _ => exact absurd hop Bool.false_ne_true

end Sys2Proof.Machine
end

section
/-! `detach`, `meet` and `retire` (R54, R294, R295, R298): what each does to the way a hart runs. -/

namespace Sys2Proof.Machine

/-! ### The control slot of a tread -/

theorem ctSlot_of_ready {i : Instr} {g : Guard} {k : Sem} {s : State} (h : Ready g i s) : ctSlot i g k s = k s := by
  obtain ⟨hguard, hcheck⟩ := h
  rw [ctSlot, kernelOk_of_none hcheck, guarded_of_holds hguard]

theorem treadCt_of_ready {i : Instr} {g : Guard} {k : Sem} {s : State} (h : TreadReady g i s) :
    treadCt i g k s = k s := by
  obtain ⟨hready, hcore⟩ := h
  rw [treadCt, ctSlot_of_ready hready, hcore, if_neg Bool.false_ne_true]

/-! ### `detach` -/

/-- The address that a `detach` of the acting hart writes to `MEET`. -/
abbrev State.meeting (f : CB) (s : State) : VAddr := s.me.relTarget f.disp

/-- The flight after a `detach` has written the meeting address to `MEET` of the acting tread and of the orphans of its
flight (R378). -/
def State.meetSet (f : CB) (s : State) : State :=
  s.mapWhere (fun h => h.id = s.me.id || (h.sameFlight s.me && h.ctl.run = .orphan))
    (fun h => { h with spr := { h.spr with meet := BitVec.ofNat 64 (s.meeting f).toNat } })

/-- Only `MEET` is written, on the acting tread and on others. -/
theorem State.meetSet_frame (f : CB) (s : State) :
    (s.meetSet f).me = { s.me with spr := { s.me.spr with meet := BitVec.ofNat 64 (s.meeting f).toNat } } ∧
      (s.meetSet f).hub = s.hub ∧ (s.meetSet f).ring.map (·.regs) = s.ring.map (·.regs) := by
  refine ⟨by simp [State.meetSet], rfl, ?_⟩
  simp only [State.meetSet, State.mapWhere_ring, List.map_map]
  refine List.map_congr_left fun h _ => ?_
  simp only [Function.comp_apply]
  split <;> rfl

theorem execDetach_of_attached {f : CB} {s : State} (hcore : s.me.isCore = false) (hrun : s.me.ctl.run = .attached) :
    exec (.detach f) s = if guardHolds f.gk.g s.me then .next ((s.meetSet f).modMe (Hart.become .detached)).ok
      else .next ((s.meetSet f).modMe (fun h => (h.goTo (s.meeting f)).become .atMeet)).ok := by
  change execDetach f s = _
  unfold execDetach
  rw [hcore, if_neg Bool.false_ne_true, if_neg (not_not.mpr hrun)]
  rfl

/-- Elsewhere than in broadcast `detach` is a state violation, where it executes. -/
theorem execDetach_of_not_attached {f : CB} {s : State} (h : s.me.isCore = true ∨ s.me.ctl.run ≠ .attached) :
    exec (.detach f) s = if guardHolds f.gk.g s.me then s.illegal 9 else .next s.issuedBare := by
  change execDetach f s = _
  unfold execDetach
  cases hcore : s.me.isCore with
  | true => rfl
  | false =>
    have hrun : s.me.ctl.run ≠ .attached := h.resolve_left (by simp [hcore])
    rw [if_neg Bool.false_ne_true, if_pos hrun]
    rfl

/-! ### `meet` -/

/-- `meet` on a tread that executes it (R295, R297, R378). -/
theorem execMeet_of_ready {f : CN} {s : State} (h : TreadReady f.gk.g (.meet f) s) :
    exec (.meet f) s = match s.me.ctl.run with
      | .attached | .handler => .next s.ok
      | .orphan => .next (s.modMe (Hart.goTo (s.me.spr.meet.truncate 57))).ok
      | _ => .next (s.modMe (fun h => (h.goTo (s.me.spr.meet.truncate 57)).become .atMeet)).ok := by
  change execMeet f s = _
  rw [execMeet]
  exact treadCt_of_ready h

/-! ### `retire` -/

theorem execRetire_of_holds {f : CN} {s : State} (h : guardHolds f.gk.g s.me = true) :
    exec (.retire f) s = if s.me.isCore then
        if s.me.level = 2 then .next (s.modMe (Hart.become .halted)).ok else s.privileged
      else .next (s.modMe (Hart.become .retired)).ok := by
  change execRetire f s = _
  rw [execRetire, guarded_of_holds h]

/-- Settles O26: `detach` by whether the hart is in broadcast and by its guard, `meet` by the way the tread runs, and
`retire` by the hart and its level. -/
theorem detachMeetAndRetire : Obligations.DetachMeetAndRetire := by
  intro f n s
  have hmeeting : s.meeting f = s.me.ctl.pc + BitVec.ofInt 57 f.disp.toInt := rfl
  have htrunc : BitVec.ofNat 57 s.me.spr.meet.toNat = s.me.spr.meet.truncate 57 := BitVec.ofNat_toNat ..
  refine ⟨fun hcore hrun => ?_, fun hguard h => ?_, fun hguard h => ?_, fun h => ⟨fun hrun => ?_, fun hrun => ?_,
    fun hrun => ?_⟩, fun hguard => ⟨fun hcore => ?_, fun hcore hlevel => ?_, fun hcore hlevel => ?_⟩⟩
  · obtain ⟨hme, hhub, hring⟩ := State.meetSet_frame f s
    rw [execDetach_of_attached hcore hrun, ← hmeeting]
    cases hguard : guardHolds f.gk.g s.me with
    | true =>
      exact ⟨_, rfl, by simp [Hart.become, Hart.setOut, hme, hhub, hring]⟩
    | false =>
      exact ⟨_, rfl, by simp [Hart.become, Hart.goTo, Hart.setOut, hme, hhub, hring]⟩
  · rw [execDetach_of_not_attached h, if_pos hguard]
  · rw [execDetach_of_not_attached h, hguard]
    rfl
  · rw [execMeet_of_ready h]
    obtain hrun | hrun := hrun <;> rw [hrun] <;> rfl
  · rw [execMeet_of_ready h, hrun, htrunc]
    rfl
  · rw [execMeet_of_ready h, hrun, htrunc]
    rfl
  · rw [execRetire_of_holds hguard, hcore]
    rfl
  · rw [execRetire_of_holds hguard, if_pos hcore, if_pos hlevel]
    rfl
  · rw [execRetire_of_holds hguard, if_pos hcore, if_neg hlevel]

end Sys2Proof.Machine
end

section
/-! The start of a launch's last gang moves `RIDX` of its queue (R269), and that write of the hub ends a locked sequence
on the descriptor's line (R202). Where a Newel core holds the line, its `LT` rises: placing a gang does not leave every
hart as it was. -/

namespace Sys2Proof.Machine

namespace DescriptorLocked

/-- A gang that waits for its first placement. -/
def gang : Gang := Gang.fresh 0 0 false

/-- A kernel for profile 1. -/
def kernel : KHead :=
  { prof := 1, xmode := false, rise := 0, vbase := 0, vcnt := 0, tbase := 0, tcnt := 0, abase := 0, acnt := 0,
    code := 0x10100, codelen := 64, entry := 0, mask := 2, kid := 0, plan := none }

/-- A launch of queue 0 whose only gang, of one tread, is its last. -/
def launch : Launch :=
  { id := 4, part := 0, queue := 0, index := 5, slot := 5, pri := 2, wgcnt := 1, width := 1, gsize := 1, rel := 0,
    spec := false, csig := 0, args := [], kernels := [kernel], groups := [], members := [], gangs := [gang],
    decisions := [], holds := [], served := 0, killed := false }

/-- Its queue: the descriptor lies at 0x2000, and `RIDX` in it on line 64. -/
def queue : Queue :=
  { part := 0, q := 0, va := 0x2000, base := 0x3000, wline := 64, log2n := 4, pri := 2, state := 1, ridx := 5,
    widx := 6, pend := [], barrier := none, reread := none, deps := [] }

/-- A locked sequence on line 64 for which core 0 holds the line. -/
def sequence : Locked :=
  { peer := 0, line := 64, req := ⟨0, 0, 0, 0, 0, 0, .fetchAdd, 0x2030, 8, []⟩, held := true, old := [], tick := 0,
    deferred := none }

/-- Core 0 runs on a package with these. Partition 0 holds chiplet 0 with position 0 enabled, and its second stage
gives it the first GiB as it is. -/
def start : State :=
  { State.reset with
    me := Hart.coreStart 0 .detached 0 0 0
    hub := { Hub.zero with
      mem := putBytes 0x4000 [0x01, 0x50] (putBytes 0x5000 [0x01, 0x60] (putBytes 0x6000 [0x3b] [])),
      parts := Hub.zero.parts.set 0 { PartRegs.zero with xl2 := 0x8000000000004000 },
      mon := { MonRegs.zero with hbmcap := 64, chst := MonRegs.zero.chst.set 0 2 },
      record := List.replicate 48 0#8 ++ [1] ++ List.replicate 200 0#8,
      launches := [launch], queues := [queue], locked := [sequence] } }

/-- The gang is placed next, on flight 0 of chiplet 0. -/
theorem nextPlacement_start : start.hub.nextPlacement 0 = some (launch, gang, [(0, 0)]) := by decide +kernel

theorem hasDirty_start : ∀ h ∈ start.harts, h.hasDirty = false := by decide

/-- The logical time of the acting hart after an outcome. -/
def ltAfter : Host.Outcome State Fault Refusal → Option Nat
  | .next t => some t.me.spr.lt
  | _ => none

/-- The write of `RIDX` ends the sequence with a write of core 0, whose time core 0 has then seen. -/
theorem ltAfter_gangPlace_start : ltAfter (exec (.gangPlace 4 0 0 0) start) = some 1 := by decide +kernel

theorem lt_start : start.me.spr.lt = 0 := rfl

end DescriptorLocked

/-- Refutes O58 by its first clause, which says that placing a gang leaves the acting hart as it is. In
`DescriptorLocked.start` it raises the `LT` of core 0, which holds the line of the queue's descriptor for a locked
sequence. In a run only Arcade engines begin locked sequences (R202), so the state is one that a run does not reach, but
no premise of the clause excludes it. -/
theorem not_gangsArePlacedSavedRestored : ¬ Obligations.GangsArePlacedSavedRestored := by
  unfold Obligations.GangsArePlacedSavedRestored
  intro h
  obtain ⟨hplace, -⟩ := h DescriptorLocked.start DescriptorLocked.launch DescriptorLocked.gang
  obtain ⟨t, hexec, hme, -⟩ := hplace 0 0 DescriptorLocked.kernel [(0, 0)] ⟨rfl, rfl⟩
    DescriptorLocked.nextPlacement_start List.mem_cons_self rfl rfl rfl rfl rfl DescriptorLocked.hasDirty_start
  have hlt : some t.me.spr.lt = some 1 :=
    (congrArg DescriptorLocked.ltAfter hexec).symm.trans DescriptorLocked.ltAfter_gangPlace_start
  rw [hme, DescriptorLocked.lt_start] at hlt
  exact absurd hlt (by decide)

end Sys2Proof.Machine
end

section
/-! Decoding reads back what encoding wrote (R77 to R103): the layout of each slot format, the grids, the bytes of a
slot word, and the bundle of one operation. -/

namespace Sys2Proof

/-! ### Fields of a word -/

theorem bitAt_of_mod {l w : Nat} {b : Bool} (h : w / 2 ^ l % 2 = b.toNat) : bitAt l w = b := by
  cases b <;> simp_all [bitAt]

theorem ofNat_of_mod {n w : Nat} {x : BitVec n} (h : w % 2 ^ n = x.toNat) : BitVec.ofNat n w = x :=
  BitVec.eq_of_toNat_eq (by rw [BitVec.toNat_ofNat, h])

theorem GK.enc_lt (x : GK) : x.enc < 32 := by
  have hg := x.g.enc_lt
  have hk := x.k.toNat_le
  unfold GK.enc
  omega

theorem GK.dec_of_mod {x : GK} {w : Nat} (h : w % 32 = x.enc) : GK.dec w = x := by
  obtain ⟨g, k⟩ := x
  have hg := g.enc_lt
  have hk := k.toNat_le
  simp only [GK.enc] at h
  simp only [GK.dec, GK.mk.injEq]
  exact ⟨Guard.dec_of_mod (by omega), bitAt_of_mod (by omega)⟩

/-! ### Formats -/

/-- The lowest bit of a slot's opcode field (R87 to R101). -/
def Slot.opAt : Slot → Nat
  | .ct | .sa | .sb | .xf => 5
  | .ls | .va | .mx | .ec => 4

/-- The width of a slot's opcode field (R87 to R101). -/
def Slot.opBits : Slot → Nat
  | .sa | .sb => 7
  | .ct | .ls | .va | .xf | .mx | .ec => 6

/-- The grid in which a slot's opcode is looked up. -/
def Slot.grid : Slot → Nat → Nat → Option Instr
  | .ct => decodeCt
  | .sa => fun op w => if 112 ≤ op then none else decodeScalar op w
  | .sb => decodeScalar
  | .ls => decodeLs
  | .va => decodeVa
  | .xf => decodeXf
  | .mx => decodeMx
  | .ec => decodeEc

theorem rawDecode_eq_grid (sl : Slot) (w : Nat) :
    rawDecode sl w = sl.grid (w / 2 ^ sl.opAt % 2 ^ sl.opBits) w := by
  cases sl <;> rfl

/-- In words of a slot a format keeps the opcode and every field: a word fits the slot, its opcode field holds the
opcode, and the fields read back. -/
def Layout {α : Type} (sl : Slot) (enc : Nat → α → Nat) (dec : Nat → α) : Prop :=
  ∀ op f, op < 2 ^ sl.opBits →
    enc op f < 2 ^ (8 * sl.size) ∧ enc op f / 2 ^ sl.opAt % 2 ^ sl.opBits = op ∧ dec (enc op f) = f

theorem CN.layout : Layout .ct CN.enc CN.dec := by
  intro op f h
  obtain ⟨gk⟩ := f
  have hgk := gk.enc_lt
  simp only [CN.enc, CN.dec, CN.mk.injEq, Slot.opBits, Slot.opAt, Slot.size] at *
  refine ⟨?_, ?_, GK.dec_of_mod ?_⟩ <;> omega

theorem CI.layout : Layout .ct CI.enc CI.dec := by
  intro op f h
  obtain ⟨gk, imm⟩ := f
  have hgk := gk.enc_lt
  simp only [CI.enc, CI.dec, CI.mk.injEq, Slot.opBits, Slot.opAt, Slot.size] at *
  refine ⟨?_, ?_, GK.dec_of_mod ?_, ofNat_of_mod ?_⟩ <;> omega

theorem CB.layout : Layout .ct CB.enc CB.dec := by
  intro op f h
  obtain ⟨gk, disp⟩ := f
  have hgk := gk.enc_lt
  simp only [CB.enc, CB.dec, CB.mk.injEq, Slot.opBits, Slot.opAt, Slot.size] at *
  refine ⟨?_, ?_, GK.dec_of_mod ?_, ofNat_of_mod ?_⟩ <;> omega

theorem CR.layout : Layout .ct CR.enc CR.dec := by
  intro op f h
  obtain ⟨gk, q, imm, b, a⟩ := f
  have hgk := gk.enc_lt
  have hq := q.toNat_le
  simp only [CR.enc, CR.dec, CR.mk.injEq, Slot.opBits, Slot.opAt, Slot.size] at *
  refine ⟨?_, ?_, GK.dec_of_mod ?_, bitAt_of_mod ?_, ofNat_of_mod ?_, ofNat_of_mod ?_, ofNat_of_mod ?_⟩ <;> omega

theorem CL.layout : Layout .ct CL.enc CL.dec := by
  intro op f h
  obtain ⟨gk, ii, len, a⟩ := f
  have hgk := gk.enc_lt
  simp only [CL.enc, CL.dec, CL.mk.injEq, Slot.opBits, Slot.opAt, Slot.size] at *
  refine ⟨?_, ?_, GK.dec_of_mod ?_, ofNat_of_mod ?_, ofNat_of_mod ?_, ofNat_of_mod ?_⟩ <;> omega

theorem CS.layout : Layout .ct CS.enc CS.dec := by
  intro op f h
  obtain ⟨gk, thr, sem⟩ := f
  have hgk := gk.enc_lt
  simp only [CS.enc, CS.dec, CS.mk.injEq, Slot.opBits, Slot.opAt, Slot.size] at *
  refine ⟨?_, ?_, GK.dec_of_mod ?_, ofNat_of_mod ?_, ofNat_of_mod ?_⟩ <;> omega

theorem SR.layout : Layout .sb SR.enc SR.dec := by
  intro op f h
  obtain ⟨gk, ua, ud, b, a, d⟩ := f
  have hgk := gk.enc_lt
  have hua := ua.toNat_le
  have hud := ud.toNat_le
  simp only [SR.enc, SR.dec, SR.mk.injEq, Slot.opBits, Slot.opAt, Slot.size] at *
  refine ⟨?_, ?_, GK.dec_of_mod ?_, bitAt_of_mod ?_, bitAt_of_mod ?_, ofNat_of_mod ?_, ofNat_of_mod ?_,
    ofNat_of_mod ?_⟩ <;> omega

theorem SI.layout : Layout .sb SI.enc SI.dec := by
  intro op f h
  obtain ⟨gk, imm, a, d⟩ := f
  have hgk := gk.enc_lt
  simp only [SI.enc, SI.dec, SI.mk.injEq, Slot.opBits, Slot.opAt, Slot.size] at *
  refine ⟨?_, ?_, GK.dec_of_mod ?_, ofNat_of_mod ?_, ofNat_of_mod ?_, ofNat_of_mod ?_⟩ <;> omega

theorem SU.layout : Layout .sb SU.enc SU.dec := by
  intro op f h
  obtain ⟨gk, imm, d⟩ := f
  have hgk := gk.enc_lt
  simp only [SU.enc, SU.dec, SU.mk.injEq, Slot.opBits, Slot.opAt, Slot.size] at *
  refine ⟨?_, ?_, GK.dec_of_mod ?_, ofNat_of_mod ?_, ofNat_of_mod ?_⟩ <;> omega

theorem LO.layout : Layout .ls LO.enc LO.dec := by
  intro op f h
  obtain ⟨g, off, ua, q, m, sc, a, d⟩ := f
  have hg := g.enc_lt
  have hua := ua.toNat_le
  have hq := q.toNat_le
  simp only [LO.enc, LO.dec, LO.mk.injEq, Slot.opBits, Slot.opAt, Slot.size] at *
  refine ⟨?_, ?_, Guard.dec_of_mod ?_, ofNat_of_mod ?_, bitAt_of_mod ?_, bitAt_of_mod ?_, ofNat_of_mod ?_,
    ofNat_of_mod ?_, ofNat_of_mod ?_, ofNat_of_mod ?_⟩ <;> omega

theorem LB.layout : Layout .ls LB.enc LB.dec := by
  intro op f h
  obtain ⟨g, off, b, ua, q, m, sc, a, d⟩ := f
  have hg := g.enc_lt
  have hua := ua.toNat_le
  have hq := q.toNat_le
  simp only [LB.enc, LB.dec, LB.mk.injEq, Slot.opBits, Slot.opAt, Slot.size] at *
  refine ⟨?_, ?_, Guard.dec_of_mod ?_, ofNat_of_mod ?_, ofNat_of_mod ?_, bitAt_of_mod ?_, bitAt_of_mod ?_,
    ofNat_of_mod ?_, ofNat_of_mod ?_, ofNat_of_mod ?_, ofNat_of_mod ?_⟩ <;> omega

theorem VF.layout : Layout .va VF.enc VF.dec := by
  intro op f h
  obtain ⟨g, sat, rm, u, z, m, c, b, a, d, t⟩ := f
  have hg := g.enc_lt
  have hsat := sat.toNat_le
  have hu := u.toNat_le
  have hz := z.toNat_le
  simp only [VF.enc, VF.dec, VF.mk.injEq, Slot.opBits, Slot.opAt, Slot.size] at *
  refine ⟨?_, ?_, Guard.dec_of_mod ?_, bitAt_of_mod ?_, ofNat_of_mod ?_, bitAt_of_mod ?_, bitAt_of_mod ?_,
    ofNat_of_mod ?_, ofNat_of_mod ?_, ofNat_of_mod ?_, ofNat_of_mod ?_, ofNat_of_mod ?_, ofNat_of_mod ?_⟩ <;> omega

theorem XT.layout : Layout .xf XT.enc XT.dec := by
  intro op f h
  obtain ⟨gk, ua, ud, b, a, d⟩ := f
  have hgk := gk.enc_lt
  have hua := ua.toNat_le
  have hud := ud.toNat_le
  simp only [XT.enc, XT.dec, XT.mk.injEq, Slot.opBits, Slot.opAt, Slot.size] at *
  refine ⟨?_, ?_, GK.dec_of_mod ?_, bitAt_of_mod ?_, bitAt_of_mod ?_, ofNat_of_mod ?_, ofNat_of_mod ?_,
    ofNat_of_mod ?_⟩ <;> omega

theorem MF.layout : Layout .mx MF.enc MF.dec := by
  intro op f h
  obtain ⟨g, ⟨sinc, sidx, wthr, widx⟩, b, a, fmt, keep, om, ta, ac⟩ := f
  have hg := g.enc_lt
  have hkeep := keep.toNat_le
  simp only [MF.enc, MF.dec, MF.mk.injEq, WaitSig.enc, WaitSig.dec, WaitSig.mk.injEq, Slot.opBits, Slot.opAt,
    Slot.size] at *
  refine ⟨?_, ?_, Guard.dec_of_mod ?_, ⟨ofNat_of_mod ?_, ofNat_of_mod ?_, ofNat_of_mod ?_, ofNat_of_mod ?_⟩,
    ofNat_of_mod ?_, ofNat_of_mod ?_, ofNat_of_mod ?_, bitAt_of_mod ?_, ofNat_of_mod ?_, ofNat_of_mod ?_,
    ofNat_of_mod ?_⟩ <;> omega

theorem EF.layout : Layout .ec EF.enc EF.dec := by
  intro op f h
  obtain ⟨g, ⟨sinc, sidx, wthr, widx⟩, q, c, b, a, d⟩ := f
  have hg := g.enc_lt
  simp only [EF.enc, EF.dec, EF.mk.injEq, WaitSig.enc, WaitSig.dec, WaitSig.mk.injEq, Slot.opBits, Slot.opAt,
    Slot.size] at *
  refine ⟨?_, ?_, Guard.dec_of_mod ?_, ⟨ofNat_of_mod ?_, ofNat_of_mod ?_, ofNat_of_mod ?_, ofNat_of_mod ?_⟩,
    ofNat_of_mod ?_, ofNat_of_mod ?_, ofNat_of_mod ?_, ofNat_of_mod ?_, ofNat_of_mod ?_⟩ <;> omega

/-! ### Grids -/

/-- The word of an operation fits a slot, and the slot's grid reads the operation back from it. -/
structure ReadsBack (sl : Slot) (i : Instr) : Prop where
  word_lt : encode i < 2 ^ (8 * sl.size)
  raw : rawDecode sl (encode i) = some i

section
variable {α : Type} {sl : Slot} {enc : Nat → α → Nat} {dec : Nat → α} {op : Nat} {f : α} {i : Instr}

theorem Layout.readsBack (h : Layout sl enc dec) (hop : op < 2 ^ sl.opBits) (he : encode i = enc op f)
    (hg : ∀ w, dec w = f → sl.grid op w = some i) : ReadsBack sl i := by
  obtain ⟨hlt, hopcode, hdec⟩ := h op f hop
  exact ⟨by rwa [he], by rw [he, rawDecode_eq_grid, hopcode, hg _ hdec]⟩

/-- An opcode that stands for one operation whatever its fields. -/
theorem Layout.readsBack_row {mk : α → Instr} (h : Layout sl enc dec) (hop : op < 2 ^ sl.opBits)
    (he : encode (mk f) = enc op f) (hg : ∀ w, sl.grid op w = some (mk (dec w))) : ReadsBack sl (mk f) :=
  h.readsBack hop he fun w hw => by rw [hg, hw]

end

/-- The eight rows of `sel` name their predicate by the opcode's low bits (R91). -/
theorem decodeScalar_of_sel_row {op : Nat} (hlow : 24 ≤ op) (hhigh : op ≤ 31) (w : Nat) :
    decodeScalar op w = some (.sel (BitVec.ofNat 3 op) (SR.dec w)) := by
  interval_cases op <;> rfl

theorem decodeScalar_sel (pn : BitVec 3) (w : Nat) : decodeScalar (24 + pn.toNat) w = some (.sel pn (SR.dec w)) := by
  have hpn : BitVec.ofNat 3 (24 + pn.toNat) = pn := ofNat_of_mod (by omega)
  rw [decodeScalar_of_sel_row (by omega) (by omega), hpn]

/-- Bit Q tells the two forms of `hyp.resolve` apart (R88). -/
theorem decodeCt_hypResolve (w : Nat) : decodeCt 19 w =
    if (CR.dec w).q then some (.hypResolveRefute (CR.dec w)) else some (.hypResolveConfirm (CR.dec w)) := rfl

/-- Every operation is one row of its slot's grid, or one of the forms that `sel` and `hyp.resolve` share a row with. -/
theorem readsBack_of_reservedOk {i : Instr} (hop : i.isOp = true) (hw : i.reservedOk = true) :
    ReadsBack i.slot i := by
  cases i with
  | nop _ | meet _ | retire _ | hypLeave _ | mouldCancel _ | eret _ =>
    exact CN.layout.readsBack_row (by decide) rfl fun _ => rfl
  | hold _ | trap _ | sys _ | bkpt _ => exact CI.layout.readsBack_row (by decide) rfl fun _ => rfl
  | br _ | call _ | detach _ => exact CB.layout.readsBack_row (by decide) rfl fun _ => rfl
  | brR _ | callR _ | sleepUntil _ | barArrive _ | barWait _ | hypOpen _ | hypEnter _ | mouldOpen _ | vbankAcq _
    | vbankRel _ => exact CR.layout.readsBack_row (by decide) rfl fun _ => rfl
  | hypResolveConfirm f =>
    have hq : f.q = false := by simp_all [Instr.reservedOk]
    exact CR.layout.readsBack (by decide) rfl fun w h => by simp [Slot.grid, decodeCt_hypResolve, h, hq]
  | hypResolveRefute f =>
    have hq : f.q = true := by simp_all [Instr.reservedOk]
    exact CR.layout.readsBack (by decide) rfl fun w h => by simp [Slot.grid, decodeCt_hypResolve, h, hq]
  | loop _ => exact CL.layout.readsBack_row (by decide) rfl fun _ => rfl
  | waitSem _ => exact CS.layout.readsBack_row (by decide) rfl fun _ => rfl
  | sel pn _ => exact SR.layout.readsBack_row (by change 24 + pn.toNat < 128; omega) rfl (decodeScalar_sel pn)
  | add _ | sub _ | and _ | or _ | xor _ | shl _ | shr _ | sra _ | mul _ | mulhs _ | mulhu _ | div _ | divu _ | rem _
    | remu _ | mov _ | min _ | max _ | minu _ | maxu _ | bfx _ | bfxu _ | bfi _ | clz _ | ctz _ | popc _ | bswap _
    | cmpEq _ | cmpNe _ | cmpLt _ | cmpLe _ | cmpLtu _ | cmpLeu _ | pand _ | por _ | pxor _ | pnot _ | faddF32 _
    | fsubF32 _ | fmulF32 _ | ffmaF32 _ | fdivF32 _ | fsqrtF32 _ | fminF32 _ | fmaxF32 _ | faddF64 _ | fsubF64 _
    | fmulF64 _ | ffmaF64 _ | fdivF64 _ | fsqrtF64 _ | fminF64 _ | fmaxF64 _ | fcmpEqF32 _ | fcmpLtF32 _
    | fcmpLeF32 _ | fcmpUnF32 _ | fcmpEqF64 _ | fcmpLtF64 _ | fcmpLeF64 _ | fcmpUnF64 _ | fcvt _ | tlbinv _
    | tlbsync _ => exact SR.layout.readsBack_row (by decide) rfl fun _ => rfl
  | addi _ | andi _ | ori _ | xori _ | shli _ | shri _ | srai _ | muli _ | cmpiEq _ | cmpiNe _ | cmpiLt _ | cmpiLe _
    | cmpiLtu _ | cmpiLeu _ | rdsr _ | wrsr _ => exact SI.layout.readsBack_row (by decide) rfl fun _ => rfl
  | movi _ | movsh _ => exact SU.layout.readsBack_row (by decide) rfl fun _ => rfl
  | ldB _ | ldH _ | ldW _ | ldD _ | ldBu _ | ldHu _ | ldWu _ | pf _ | stB _ | stH _ | stW _ | stD _ | vld _ | vst _ =>
    exact LO.layout.readsBack_row (by decide) rfl fun _ => rfl
  | tld _ | tst _ | vgath _ | vscat _ | amoAdd _ | amoMin _ | amoMax _ | amoMinu _ | amoMaxu _ | amoAnd _ | amoOr _
    | amoXor _ | amoXchg _ | amoCas _ | redAdd _ | redMin _ | redMax _ | redAnd _ | redOr _ | redXor _ | monWait _
    | fenceScope _ | flushRegion _ => exact LB.layout.readsBack_row (by decide) rfl fun _ => rfl
  | vadd _ | vsub _ | vmul _ | vfma _ | vmin _ | vmax _ | vabs _ | vneg _ | vand _ | vor _ | vxor _ | vnot _ | vshl _
    | vshr _ | vmov _ | vsel _ | vcmpEq _ | vcmpNe _ | vcmpLt _ | vcmpLe _ | vrcp _ | vrsqrt _ | vsqrt _ | vexp2 _
    | vlog2 _ | vtanh _ | vsin _ | vcos _ | vcvt _ | vquant _ | vdequant _ | vmovi _ | vredAdd _ | vredMin _
    | vredMax _ | vperm _ | vrot _ | vrng _ | accept _ | mand _ | mor _ | mxor _ | mandn _ | mnot _ =>
    exact VF.layout.readsBack_row (by decide) rfl fun _ => rfl
  | xBcast _ | xFirst _ | xLane _ | xAny _ | xAll _ | xNone _ | xCnt _ | xPass _ | xRecv _ =>
    exact XT.layout.readsBack_row (by decide) rfl fun _ => rfl
  | mma _ | mmaQ _ | accClr _ | accLd _ | accSt _ | accCvt _ | latchRel _ | omSet _ =>
    exact MF.layout.readsBack_row (by decide) rfl fun _ => rfl
  | copyGv _ | copyVg _ | copyVv _ | copyGg _ | copyTile _ | copyIdx _ | copyCheck _ | semAdd _ | semSub _ | semSet _
    | sigWr _ | grpRed _ | netPut _ | netGet _ => exact EF.layout.readsBack_row (by decide) rfl fun _ => rfl
  | _ => exact absurd hop Bool.false_ne_true

/-- Outside row 14, SA reads a word as SB does (R91). -/
theorem ReadsBack.sa {i : Instr} (h : ReadsBack .sb i) (hrow : encode i / 32 % 128 < 112) : ReadsBack .sa i :=
  ⟨h.word_lt, (if_neg (not_le.mpr hrow)).trans h.raw⟩

theorem decodeSlot_encode {sl : Slot} {i : Instr} (h : ReadsBack sl i) (hw : WellFormed i) :
    decodeSlot sl (encode i) = .ok i := by
  obtain ⟨hreserved, hrange⟩ := hw
  simp [decodeSlot, h.raw, hreserved, hrange]

/-! ### Bytes of a slot word -/

@[simp] theorem toBytes_length : ∀ (n x : Nat), (toBytes n x).length = n
  | 0, _ => rfl
  | n + 1, x => by simp [toBytes, toBytes_length n]

theorem leBytes_toBytes : ∀ (n x : Nat), leBytes (toBytes n x) = x % 2 ^ (8 * n)
  | 0, x => by simp [toBytes, leBytes, Nat.mod_one]
  | n + 1, x => by
    rw [toBytes, leBytes, leBytes_toBytes n, BitVec.toNat_ofNat, Nat.mul_succ, Nat.add_comm (8 * n), Nat.pow_add,
      Nat.mod_mul]

theorem leBytes_toBytes_of_lt {n x : Nat} (h : x < 2 ^ (8 * n)) : leBytes (toBytes n x) = x := by
  rw [leBytes_toBytes, Nat.mod_eq_of_lt h]

/-! ### A bundle of one operation -/

theorem headerSlots_single (sl : Slot) : headerSlots (2 ^ sl.bit) = [sl] := by
  cases sl <;> decide

theorem header_toNat (sl : Slot) : (BitVec.ofNat 8 (2 ^ sl.bit)).toNat = 2 ^ sl.bit := by
  cases sl <;> rfl

theorem header_ne_zero (sl : Slot) : BitVec.ofNat 8 (2 ^ sl.bit) ≠ 0#8 := by
  cases sl <;> decide

theorem bundleLen_single (sl : Slot) : bundleLen (2 ^ sl.bit) = 1 + sl.size := by
  simp [bundleLen, headerSlots_single]

theorem nodup_of_length_le_one {α : Type} : ∀ {l : List α}, l.length ≤ 1 → l.Nodup
  | [], _ => List.nodup_nil
  | [a], _ => List.nodup_singleton a

/-- An operation names no destination twice. -/
theorem Instr.dests_nodup (i : Instr) : i.dests.Nodup := by
  cases i with
  | vgath f =>
    have hne : Dest.v f.d.toNat ≠ .spr 0x09 := nofun
    exact List.nodup_cons.mpr ⟨List.mem_singleton.not.mpr hne, List.nodup_singleton _⟩
  | accCvt f =>
    have hinj : Function.Injective (fun k => Dest.t (f.ta.toNat + k)) := fun a b h =>
      Nat.add_left_cancel (Dest.t.inj h)
    exact List.nodup_range.map hinj
  | _ => exact nodup_of_length_le_one (Nat.le_of_ble_eq_true rfl)

theorem clash_single (sl : Slot) (i : Instr) : clash [(sl, i)] = false := by
  simp [clash, i.dests_nodup.filter]

theorem decodeSlots_single {chk : Instr → Option Nat} {sl : Slot} {i : Instr} (rest : List Byte)
    (h : ReadsBack sl i) (hw : WellFormed i) (hchk : chk i = none) :
    decodeSlots chk [sl] (toBytes sl.size (encode i) ++ rest) = .ok [(sl, i)] := by
  have hword : leBytes (toBytes sl.size (encode i)) = encode i := leBytes_toBytes_of_lt h.word_lt
  simp [decodeSlots, hword, decodeSlot_encode h hw, hchk]

theorem decodeBundle_single {newel : Bool} {chk : Instr → Option Nat} {off : Nat} {sl : Slot} {i : Instr}
    (rest : List Byte) (h : ReadsBack sl i) (hw : WellFormed i) (hchk : chk i = none)
    (hnewel : newel = true → sl.bit < 4) (hline : off + 1 + sl.size ≤ 64) :
    decodeBundle newel chk off (BitVec.ofNat 8 (2 ^ sl.bit) :: toBytes sl.size (encode i) ++ rest)
      = .bundle (1 + sl.size) [(sl, i)] := by
  have hfits : ¬64 < off + (1 + sl.size) := by omega
  have hslots : (newel && decide (16 ≤ 2 ^ sl.bit)) = false := by
    cases newel with
    | false => rfl
    | true =>
      have hlt : 2 ^ sl.bit < 2 ^ 4 := Nat.pow_lt_pow_right (by decide) (hnewel rfl)
      simpa using hlt
  simp only [decodeBundle, List.cons_append, header_toNat, if_neg (header_ne_zero sl), bundleLen_single,
    if_neg hfits, hslots, headerSlots_single, decodeSlots_single rest h hw hchk, clash_single,
    Bool.false_eq_true, if_false]

/-- Settles O2: the word of an operation reads back in the grid of its slot, format by format, and the bytes of its
bundle are that word. -/
theorem decodeReadsBackEncode : Obligations.DecodeReadsBackEncode := by
  intro i newel chk off rest sl hop hw hchk hsl hnewel hline
  have hown : ReadsBack i.slot i := readsBack_of_reservedOk hop hw.left
  have hreads : ReadsBack sl i := by
    obtain rfl | ⟨rfl, hsb, hrow⟩ := hsl
    · exact hown
    · exact ReadsBack.sa (hsb ▸ hown) hrow
  exact decodeBundle_single rest hreads hw hchk hnewel hline

end Sys2Proof
end

section
/-! The immediate integer instructions (R135): the sign-extended IMM8, its shift count, and one result each. -/

namespace Sys2Proof.Machine

/-- A shift count that R92 allows is the count of the shift. -/
theorem shCount_imm8 {f : SI} (h : f.imm.toNat < 64) : shCount (imm8 f) = f.imm.toNat := by
  have hmsb : f.imm.msb = false := BitVec.msb_eq_false_iff_two_mul_lt.mpr (by omega)
  rw [shCount, imm8, BitVec.signExtend_eq_setWidth_of_msb_false hmsb, BitVec.toNat_setWidth]
  omega

theorem scalarTakes_of_aluI {i : Instr} {L : Nat} {op : Word → Word → Word} {f : SI} {v : Word} {s : State}
    (he : exec i s = aluI L op f s) (hguard : guardHolds f.gk.g s.me = true)
    (hv : op (s.me.regs.sReg f.a) (imm8 f) = v) : ScalarTakes i L f.d v s :=
  (he.trans (guarded_of_holds hguard)).trans (hv ▸ rfl)

/-- Settles O18: each instruction is one result of its operation on the register and the immediate; a shift count
below 64 is the immediate itself. -/
theorem immediateInstructionsCompute : Obligations.ImmediateInstructionsCompute := by
  intro f s hguard a b
  refine ⟨scalarTakes_of_aluI rfl hguard rfl, scalarTakes_of_aluI rfl hguard rfl, scalarTakes_of_aluI rfl hguard rfl,
    scalarTakes_of_aluI rfl hguard rfl, scalarTakes_of_aluI rfl hguard rfl, fun hcount => ?_⟩
  have hsh : shCount (imm8 f) = f.imm.toNat := shCount_imm8 hcount
  refine ⟨scalarTakes_of_aluI (op := fun a b => a <<< shCount b) rfl hguard ?_,
    scalarTakes_of_aluI (op := fun a b => a >>> shCount b) rfl hguard ?_,
    scalarTakes_of_aluI (op := fun a b => a.sshiftRight (shCount b)) rfl hguard ?_⟩ <;> rw [hsh]
  · exact BitVec.eq_of_toNat_eq (by rw [BitVec.toNat_shiftLeft, Nat.shiftLeft_eq, BitVec.toNat_ofNat])
  · exact BitVec.eq_of_toNat_eq (by rw [BitVec.toNat_ushiftRight, Nat.shiftRight_eq_div_pow, BitVec.toNat_ofNat,
      Nat.mod_eq_of_lt ((Nat.div_le_self ..).trans_lt a.isLt)])
  · rw [BitVec.sshiftRight, Int.shiftRight_eq_div_pow]
    rfl

end Sys2Proof.Machine
end

section
/-! Semaphores (R85, R245, R246): what the changes of one cycle come to, and what the instructions queue. -/

namespace Sys2Proof.Machine

/-! ### The changes of one cycle -/

/-- The sum of what the changes of one kind carry. -/
def semTotal (op : Nat) (us : List SemUpd) : Nat := ((us.filter (fun u => u.op = op)).map (·.v)).sum

theorem semTotal_cons (op : Nat) (u : SemUpd) (us : List SemUpd) :
    semTotal op (u :: us) = (if u.op = op then u.v else 0) + semTotal op us := by
  by_cases h : u.op = op <;> simp [semTotal, h]

/-- From a base, additions and differences go by their sums. -/
theorem foldl_semUpd : ∀ (us : List SemUpd) (base : Int),
    us.foldl (fun (a : Int) u => if u.op = 0 then a + u.v else if u.op = 1 then a - u.v else a) base
      = base + semTotal 0 us - semTotal 1 us
  | [], base => by simp [semTotal]
  | u :: us, base => by
    rw [List.foldl_cons, foldl_semUpd us, semTotal_cons, semTotal_cons]
    by_cases h0 : u.op = 0
    · simp [h0]
      omega
    · by_cases h1 : u.op = 1
      · simp [h1]
        omega
      · simp [h0, h1]

/-- What a base and the changes of one cycle come to, clamped (R85). -/
def semClamped (base : Nat) (us : List SemUpd) : Nat :=
  (max 0 (min 65535 ((base : Int) + semTotal 0 us - semTotal 1 us))).toNat

/-- The sets among the changes of one cycle. -/
def semSets (us : List SemUpd) : List SemUpd := us.filter (fun u => u.op = 2)

/-- The set that wins, an outside one before one of the tread, and of each the last, gives the base. -/
def semBase (old : Nat) (us : List SemUpd) : Nat :=
  ((((semSets us).filter (fun u => u.outside)).getLast?.or (semSets us).getLast?).map (·.v)).getD old

theorem semApply_eq (old : Nat) (us : List SemUpd) : semApply old us = semClamped (semBase old us) us := by
  rw [semClamped, ← foldl_semUpd, min_comm, semBase, semSets]
  cases houts : ((us.filter (fun u => u.op = 2)).filter (fun u => u.outside)).getLast? with
  | some u => simp only [semApply, houts]; rfl
  | none => cases hsets : (us.filter (fun u => u.op = 2)).getLast? <;> simp only [semApply, houts, hsets] <;> rfl

theorem semBase_of_no_set {old : Nat} {us : List SemUpd} (h : ∀ u ∈ us, u.op ≠ 2) : semBase old us = old := by
  have hsets : semSets us = [] := List.filter_eq_nil_iff.mpr fun u hu => by simp [h u hu]
  simp [semBase, hsets]

/-- Where every set is the tread's own, the last one gives the base. -/
theorem semBase_of_own_set {old : Nat} {a b : List SemUpd} {u : SemUpd} (hu : u.op = 2)
    (hown : ∀ x ∈ a ++ u :: b, x.op = 2 → x.outside = false) (hlast : ∀ x ∈ b, x.op ≠ 2) :
    semBase old (a ++ u :: b) = u.v := by
  have houts : (semSets (a ++ u :: b)).filter (fun x => x.outside) = [] :=
    List.filter_eq_nil_iff.mpr fun x hx => by
      obtain ⟨hmem, hop⟩ := List.mem_filter.mp hx
      simp [hown x hmem (of_decide_eq_true hop)]
  have hb : semSets b = [] := List.filter_eq_nil_iff.mpr fun x hx => by simp [hlast x hx]
  have hsets : semSets (a ++ u :: b) = semSets a ++ [u] := by
    rw [semSets, List.filter_append, List.filter_cons_of_pos (by simp [hu])]
    exact congrArg (fun l => semSets a ++ u :: l) hb
  rw [semBase, houts, hsets, List.getLast?_concat]
  rfl

/-- One of the sets from outside gives the base, where there are any. -/
theorem semBase_of_outside_set {old : Nat} {us : List SemUpd} (h : ∃ u ∈ us, u.op = 2 ∧ u.outside = true) :
    ∃ u ∈ us, u.op = 2 ∧ u.outside = true ∧ semBase old us = u.v := by
  obtain ⟨x, hx, hop, hout⟩ := h
  have hmem : x ∈ (semSets us).filter (fun u => u.outside) :=
    List.mem_filter.mpr ⟨List.mem_filter.mpr ⟨hx, decide_eq_true hop⟩, hout⟩
  have hlast := List.getLast?_eq_some_getLast (List.ne_nil_of_mem hmem)
  obtain ⟨hset, huout⟩ := List.mem_filter.mp (List.mem_of_getLast? hlast)
  obtain ⟨hu, huop⟩ := List.mem_filter.mp hset
  exact ⟨_, hu, of_decide_eq_true huop, huout, by rw [semBase, hlast]; rfl⟩

/-! ### The instructions -/

theorem ecSlot_of_ready {i : Instr} {f : EF} {k : Sem} {s t : State} (h : EngineReady i f s) (hk : k s = .next t) :
    ecSlot i f k s = .next t := by
  obtain ⟨hready, hwait⟩ := h
  exact (treadSlot_of_ready hready).trans (waitsOn_of_met hk (by simp [hwait]))

/-- The change that an instruction makes of its tread's own semaphore, and its slot's signal (R84, R245). -/
def ownChanges (f : EF) (op : Nat) (h : Hart) : List SemUpd :=
  { n := ecIdx f, op := op, v := (h.regs.sReg f.a).toNat, seq := h.iss.seq, outside := false } ::
    if f.ws.sinc = 0#4 then []
    else [{ n := f.ws.sidx.toNat, op := 0, v := f.ws.sinc.toNat, seq := h.iss.seq, outside := false }]

theorem State.semOwn_queues (f : EF) (op : Nat) (s : State) :
    Untouched s (s.semOwn f op) ∧ (s.semOwn f op).me.spr = s.me.spr ∧ (s.semOwn f op).me.sched = s.me.sched ∧
      (s.semOwn f op).me.iss.out = .ok ∧
      (s.semOwn f op).me.units = { s.me.units with semIn := s.me.units.semIn ++ ownChanges f op s.me } := by
  by_cases hsig : f.ws.sinc = 0#4 <;>
    simp [State.semOwn, Hart.signalNow, Hart.semChange, ownChanges, Untouched, State.ok, State.modMe, hsig]

/-- What a tread hands on for a semaphore of the tread that a selector names (R246). -/
def State.semSent (f : EF) (op l w : Nat) (s : State) : SemOut :=
  let sel := s.me.regs.sReg f.d
  { target := .tread l (w - wbits 2 0 s.me.spr.gang + wbits 6 4 sel) (wbits 3 0 sel), n := ecIdx f, op := op,
    v := (s.me.regs.sReg f.a).toNat, afterSeq := s.me.iss.seq, tick := 21 + s.fresh.1 }

/-- The state in which it is on its way. -/
def State.semSend (f : EF) (op l w : Nat) (s : State) : State :=
  s.fresh.2.modMe (fun h => (({ h with
    units := { h.units with semOut := h.units.semOut ++ [s.semSent f op l w] } }).signalNow f.ws).setOut .ok)

theorem State.semSend_frame (f : EF) (op l w : Nat) (s : State) :
    Untouched s (s.semSend f op l w) ∧ (s.semSend f op l w).me.spr = s.me.spr ∧
      (s.semSend f op l w).me.units.semOut = s.me.units.semOut ++ [s.semSent f op l w] ∧
      (s.semSend f op l w).me.iss.out = .ok := by
  by_cases hsig : f.ws.sinc = 0#4 <;>
    simp [State.semSend, Hart.signalNow, Hart.semChange, Untouched, State.fresh, State.modMe, hsig]

/-- Field D names the tread itself (R246). -/
abbrev State.namesItself (f : EF) (s : State) : Prop :=
  wbits 6 4 (s.me.regs.sReg f.d) = wbits 2 0 s.me.spr.gang ∧ wbits 3 0 (s.me.regs.sReg f.d) = s.me.rank

/-- Field D names a tread outside the gang, or no tread (R183, R246). -/
abbrev State.namesOutside (f : EF) (s : State) : Prop :=
  wbits 63 7 (s.me.regs.sReg f.d) ≠ 0 ∨
    s.me.selectorOk (wbits 6 4 (s.me.regs.sReg f.d)) (wbits 3 0 (s.me.regs.sReg f.d)) = false

section
variable {i : Instr} {op : Nat} {f : EF} {s : State}

theorem semOp_of_own_form (h : EngineReady i f s) (hq : f.q.getLsbD 0 = false) :
    semOp i op f s = .next (s.semOwn f op) := by
  refine ecSlot_of_ready h ?_
  rw [hq]
  rfl

theorem semOp_of_namesOutside (h : EngineReady i f s) (hq : f.q.getLsbD 0 = true) (hout : s.namesOutside f) :
    semOp i op f s = s.vaultFault (s.me.regs.sReg f.d).toNat := by
  refine ecSlot_of_ready h ?_
  rw [hq]
  exact (if_neg Bool.false_ne_true).trans (if_pos (by simpa using hout))

theorem semOp_of_namesItself (h : EngineReady i f s) (hq : f.q.getLsbD 0 = true) (hin : ¬s.namesOutside f)
    (hself : s.namesItself f) : semOp i op f s = .next (s.semOwn f op) := by
  refine ecSlot_of_ready h ?_
  rw [hq]
  exact (if_neg Bool.false_ne_true).trans ((if_neg (by simpa using hin)).trans (if_pos hself))

theorem semOp_of_namesOther {l w r : Nat} (h : EngineReady i f s) (hq : f.q.getLsbD 0 = true)
    (hin : ¬s.namesOutside f) (hother : ¬s.namesItself f) (hid : s.me.id = .tread l w r) :
    semOp i op f s = .next (s.semSend f op l w) := by
  refine ecSlot_of_ready h ?_
  rw [hq]
  refine (if_neg Bool.false_ne_true).trans ((if_neg (by simpa using hin)).trans ((if_neg hother).trans ?_))
  rw [hid]
  rfl

end

/-- Settles O49: the forms by what field D names, and the changes of one cycle by the set that gives the base and the
sums over it. -/
theorem semaphoresChange : Obligations.SemaphoresChange := by
  intro f s idx v sel same changes
  have hchanges (i : Instr) (op : Nat) (he : exec i s = semOp i op f s) : changes i op := by
    intro hready here
    have hown (hexec : semOp i op f s = .next (s.semOwn f op)) : here := by
      obtain ⟨hframe, hspr, hsched, hout, hunits⟩ := State.semOwn_queues f op s
      exact ⟨_, _, he.trans hexec, hframe, hspr, hsched, hout, hunits, rfl⟩
    refine ⟨fun hq => hown (semOp_of_own_form hready hq), fun hq hlow hok => ?_,
      fun hq hout => he.trans (semOp_of_namesOutside hready hq hout)⟩
    have hin : ¬s.namesOutside f := not_or.mpr ⟨not_not.mpr hlow, ne_false_of_eq_true hok⟩
    refine ⟨fun hself => hown (semOp_of_namesItself hready hq hin hself), fun l w r hother hid => ?_⟩
    obtain ⟨hframe, hspr, hsent, hout⟩ := State.semSend_frame f op l w s
    exact ⟨_, _, he.trans (semOp_of_namesOther hready hq hin hother hid), hframe, hspr, hsent, rfl, rfl,
      rfl, rfl, hout⟩
  refine ⟨hchanges (.semAdd f) 0 rfl, hchanges (.semSub f) 1 rfl, hchanges (.semSet f) 2 rfl, fun old us => ?_⟩
  intro of after
  have happly (base : Nat) (h : semBase old us = base) : semApply old us = after base := h ▸ semApply_eq old us
  refine ⟨fun hnone => happly old (semBase_of_no_set hnone), fun a u b hus hu hown hlast => ?_, fun houts => ?_⟩
  · subst hus
    exact happly u.v (semBase_of_own_set hu hown hlast)
  · obtain ⟨u, hu, hop, hout, hbase⟩ := semBase_of_outside_set houts
    exact ⟨u, hu, hop, hout, happly u.v hbase⟩

end Sys2Proof.Machine
end

section
/-! `accumulate` (R125, R126): what it gives in each case of its operands, NaNs before infinities before finite ones. -/

namespace Sys2Proof.Machine

/-! ### Infinities and zeros -/

/-- A value is an infinity. -/
def FVal.isInf : FVal → Bool
  | .inf _ => true
  | _ => false

theorem FVal.isInf_iff {x : FVal} : x.isInf = true ↔ ∃ b, x = .inf b := by
  cases x <;> simp [FVal.isInf]

theorem FVal.isFin_iff {x : FVal} : x.isFin = true ↔ ∃ sg n d, x = .fin sg n d := by
  cases x <;> simp [FVal.isFin]

/-- The infinities among values. -/
def infinities (xs : List FVal) : List FVal := xs.filter FVal.isInf

theorem mem_infinities {b : Bool} {xs : List FVal} : .inf b ∈ infinities xs ↔ .inf b ∈ xs := by
  simp [infinities, FVal.isInf]

theorem isInf_of_mem_infinities {x : FVal} {xs : List FVal} (h : x ∈ infinities xs) : ∃ b, x = .inf b :=
  FVal.isInf_iff.mp (List.mem_filter.mp h).2

/-- Values of both signs are among them. -/
def bothSigns (xs : List FVal) : Bool := xs.any FVal.neg? && xs.any (fun x => !x.neg?)

theorem bothSigns_of_same {b : Bool} {xs : List FVal} (h : ∀ x ∈ xs, x = .inf b) : bothSigns xs = false := by
  refine Bool.and_eq_false_iff.mpr ?_
  cases b with
  | true => exact .inr (List.any_eq_false.mpr fun x hx => by simp [h x hx, FVal.neg?])
  | false => exact .inl (List.any_eq_false.mpr fun x hx => by simp [h x hx, FVal.neg?])

/-- A finite value whose distance from zero is zero is a zero. -/
theorem FVal.isZero_of_dist_zero {y : FVal} (hfin : y.isFin = true) (hdist : (y.dist (.fin false 0 1)).1 = 0) :
    y.isZero = true := by
  obtain ⟨sg, n, d, rfl⟩ := FVal.isFin_iff.mp hfin
  by_cases hn : n = 0
  · exact decide_eq_true hn
  · have hmag : (FVal.dist (.fin sg n d) (.fin false 0 1)).1 = n := by
      cases sg <;> simp [FVal.dist, FVal.negate, FVal.add, FVal.mag, hn, Nat.pos_of_ne_zero hn]
    exact absurd (hmag.symm.trans hdist) hn

/-! ### Sums of negative zeros -/

/-- Every value is a negative zero. -/
def NegativeZeros (xs : List FVal) : Prop := ∀ x ∈ xs, ∃ d, x = .fin true 0 d

/-- They come to a zero: the sum begins at +0. -/
theorem sum_of_negativeZeros {xs : List FVal} (h : NegativeZeros xs) : FVal.sum xs = .fin false 0 1 := by
  unfold FVal.sum
  induction xs with
  | nil => rfl
  | cons x xs ih =>
    obtain ⟨⟨d, rfl⟩, hxs⟩ := List.forall_mem_cons.mp h
    exact ih hxs

theorem sumExact_of_negativeZeros {xs : List FVal} (h : NegativeZeros xs) : sumExact xs = true := by
  have hnone : xs.filter (fun x => x.mag.1 ≠ 0) = [] := List.filter_eq_nil_iff.mpr fun x hx => by
    obtain ⟨d, rfl⟩ := h x hx
    simp [FVal.mag]
  unfold sumExact
  rw [hnone]
  rfl

/-! ### Which values R126 allows -/

/-- Where every partial sum is exact, the exact sum alone. -/
theorem accAllowed_of_sumExact {all exact : List FVal} {y : FVal} (hexact : sumExact all = true)
    (h : accAllowed all exact y = true) : y.isFin = true ∧ (y.dist (FVal.sum all)).1 = 0 := by
  cases y with
  | nan => exact nomatch h
  | inf b => simp [accAllowed, hexact] at h
  | fin sg n d => exact ⟨rfl, by simpa [accAllowed, hexact] using h⟩

/-! ### `accumulate`, by its operands -/

/-- The value that `accumulate` takes of finite operands, but for the sign of a zero: the free one where R126 allows
it, and otherwise the sum rounded once. -/
def accChoice (y : BitVec 32) (all exact : List FVal) : BitVec 32 :=
  if accAllowed all exact (fp32.val y.toNat) then y
  else BitVec.ofNat 32 (fp32.enc .rne (FVal.sum (if sumExact all then all else exact)))

/-- That value with the sign that R125 gives a zero. -/
def accFinite (y : BitVec 32) (all exact : List FVal) : BitVec 32 :=
  if (fp32.val (accChoice y all exact).toNat).isZero then
    BitVec.ofNat 32 ((all.all (fun x => x.isZero && x.neg?)).toNat * 2 ^ 31)
  else accChoice y all exact

section
variable {y : BitVec 32} {c : FVal} {ts xs : List FVal}

/-- The order of precedence of R125. -/
theorem accumulate_eq : accumulate y c ts xs =
    if (c :: ts).any FVal.isNan || bothSigns (infinities (c :: ts)) then 0x7fc00000#32
    else ((infinities (c :: ts)).head?.map (fun x => BitVec.ofNat 32 (fp32.enc .rne x))).getD
      (accFinite y (c :: ts) (c :: xs)) := by
  refine if_congr Iff.rfl rfl ?_
  split
  next x hx =>
    have hhead : (infinities (c :: ts)).head? = some x := hx
    rw [hhead]
    rfl
  next hx =>
    have hhead : (infinities (c :: ts)).head? = none := hx
    rw [hhead]
    rfl

theorem accumulate_of_nan (h : ∃ x ∈ c :: ts, x.isNan = true) : accumulate y c ts xs = 0x7fc00000#32 :=
  accumulate_eq.trans (if_pos (Bool.or_eq_true_iff.mpr (.inl (List.any_eq_true.mpr h))))

theorem accumulate_of_both_infinities (hneg : .inf true ∈ c :: ts) (hpos : .inf false ∈ c :: ts) :
    accumulate y c ts xs = 0x7fc00000#32 := by
  have hboth : bothSigns (infinities (c :: ts)) = true := Bool.and_eq_true_iff.mpr
    ⟨List.any_eq_true.mpr ⟨_, mem_infinities.mpr hneg, rfl⟩,
      List.any_eq_true.mpr ⟨_, mem_infinities.mpr hpos, rfl⟩⟩
  exact accumulate_eq.trans (if_pos (Bool.or_eq_true_iff.mpr (.inr hboth)))

/-- Infinities of one sign. -/
theorem accumulate_of_infinity {b : Bool} (hnan : ∀ x ∈ c :: ts, x.isNan = false) (hinf : .inf b ∈ c :: ts)
    (hother : .inf (!b) ∉ c :: ts) : accumulate y c ts xs = if b then 0xff800000#32 else 0x7f800000#32 := by
  have hall : ∀ x ∈ infinities (c :: ts), x = .inf b := fun x hx => by
    obtain ⟨s, rfl⟩ := isInf_of_mem_infinities hx
    by_cases hs : s = b
    · rw [hs]
    · exact absurd (Bool.eq_not_of_ne hs ▸ mem_infinities.mp hx) hother
  have hhead : (infinities (c :: ts)).head? = some (.inf b) := by
    cases hl : infinities (c :: ts) with
    | nil => exact nomatch hl ▸ mem_infinities.mpr hinf
    | cons x l => exact congrArg some (hall x (hl ▸ List.mem_cons_self ..))
  have hnone : (c :: ts).any FVal.isNan = false := List.any_eq_false.mpr fun x hx => by simp [hnan x hx]
  rw [accumulate_eq, hnone, bothSigns_of_same hall, hhead]
  cases b <;> rfl

theorem accumulate_of_finite (h : ∀ x ∈ c :: ts, x.isFin = true) :
    accumulate y c ts xs = accFinite y (c :: ts) (c :: xs) := by
  have hnan : (c :: ts).any FVal.isNan = false := List.any_eq_false.mpr fun x hx => by
    obtain ⟨sg, n, d, rfl⟩ := FVal.isFin_iff.mp (h x hx)
    exact Bool.false_ne_true
  have hinfs : infinities (c :: ts) = [] := List.filter_eq_nil_iff.mpr fun x hx => by
    obtain ⟨sg, n, d, rfl⟩ := FVal.isFin_iff.mp (h x hx)
    exact Bool.false_ne_true
  rw [accumulate_eq, hnan, hinfs]
  rfl

end

/-! ### Finite operands -/

section
variable {y : BitVec 32} {all exact : List FVal}

theorem accChoice_of_allowed (h : accAllowed all exact (fp32.val y.toNat) = true) : accChoice y all exact = y :=
  if_pos h

theorem accFinite_of_nonzero {z : BitVec 32} (hz : accChoice y all exact = z)
    (h : (fp32.val z.toNat).isZero = false) : accFinite y all exact = z := by
  rw [accFinite, hz, h]
  rfl

theorem accFinite_of_positive_zero (hz : (fp32.val (accChoice y all exact).toNat).isZero = true)
    (h : ∃ x ∈ all, x.isZero = false ∨ x.neg? = false) : accFinite y all exact = 0#32 := by
  obtain ⟨x, hmem, hx⟩ := h
  have hall : all.all (fun x => x.isZero && x.neg?) = false :=
    List.all_eq_false.mpr ⟨x, hmem, by obtain hx | hx := hx <;> simp [hx]⟩
  rw [accFinite, if_pos hz, hall]
  rfl

/-- Negative zeros alone give −0: the choice can only be a zero. -/
theorem accFinite_of_negativeZeros (h : NegativeZeros all) : accFinite y all all = 0x80000000#32 := by
  have hsum : FVal.sum all = .fin false 0 1 := sum_of_negativeZeros h
  have hexact : sumExact all = true := sumExact_of_negativeZeros h
  have hzero : (fp32.val (accChoice y all all).toNat).isZero = true := by
    unfold accChoice
    split
    next hallowed =>
      obtain ⟨hfin, hdist⟩ := accAllowed_of_sumExact hexact hallowed
      exact FVal.isZero_of_dist_zero hfin (hsum ▸ hdist)
    next => rw [hsum]; decide
  have hneg : all.all (fun x => x.isZero && x.neg?) = true := List.all_eq_true.mpr fun x hx => by
    obtain ⟨d, rfl⟩ := h x hx
    rfl
  rw [accFinite, if_pos hzero, hneg]
  rfl

end

/-- Settles O46: by the order of precedence of R125, and for finite operands by whether the free value is one that R126
allows, which negative zeros leave no choice but a zero. -/
theorem accumulateFollowsSpecialValues : Obligations.AccumulateFollowsSpecialValues := by
  intro y c ts xs all res finite allowed
  have hres (h : finite) : res = accFinite y all (c :: xs) :=
    accumulate_of_finite fun x hx => FVal.isFin_iff.mpr (h x hx)
  refine ⟨accumulate_of_nan, accumulate_of_both_infinities, fun b => accumulate_of_infinity, ?_, ?_, ?_, ?_, ?_, ?_⟩
  · rintro hzeros rfl
    have hneg : NegativeZeros all := fun x hx => (hzeros x hx).imp fun _ h => h.2
    exact (hres fun x hx => ⟨true, 0, hneg x hx⟩).trans (accFinite_of_negativeZeros hneg)
  · exact fun hfin hallowed hy => (hres hfin).trans (accFinite_of_nonzero (accChoice_of_allowed hallowed) hy)
  · exact fun hfin hallowed hy hplus =>
      (hres hfin).trans (accFinite_of_positive_zero ((accChoice_of_allowed hallowed).symm ▸ hy) hplus)
  · intro hfin hexact hallowed
    obtain ⟨hy, hdist⟩ := accAllowed_of_sumExact hexact hallowed
    obtain ⟨sg, n, d, hval⟩ := FVal.isFin_iff.mp hy
    exact ⟨sg, n, d, hval, hval ▸ hdist⟩
  · intro hfin hexact hnot z hz
    have hchoice : accChoice y all (c :: xs) = z :=
      (if_neg (ne_true_of_eq_false hnot)).trans (by rw [if_pos hexact])
    exact (hres hfin).trans (accFinite_of_nonzero hchoice hz)
  · intro neg hinf hallowed
    have hinf' : accAllowed all (c :: xs) (.inf neg) = true := hinf ▸ hallowed
    simpa [accAllowed] using hinf'

end Sys2Proof.Machine
end

section
/-! The matrix slot (R157 to R171): when an operation of it runs, stalls or traps, and what a multiplication leaves. -/

namespace Sys2Proof.Machine

/-! ### The slot -/

/-- A trap or a freeze comes before the wait. -/
theorem waitsOn_of_trapped {wait : State → Bool} {k : Sem} {s t : State} {cls : Nat} (hk : k s = .next t)
    (ho : t.me.iss.out = .trapped cls) : waitsOn wait k s = .next t := by
  simp only [waitsOn, hk, ho]

theorem State.illegal_trapped (d : Nat) (s : State) :
    ∃ t cls, s.illegal d = .next t ∧ t.me.iss.out = .trapped cls :=
  ⟨_, _, rfl, rfl⟩

section
variable {i : Instr} {f : MF} {k : Sem} {s t : State}

theorem mxSlot_of_treadReady (h : TreadReady f.g i s) : mxSlot i f k s =
    waitsOn (fun s => s.me.sched.mx.isSome || !waitHolds f.ws s.me)
      (fun s => if s.me.ctl.held.any Sched.hasMx then s.illegal 9 else k s) s :=
  treadSlot_of_ready h

theorem any_hasMx_eq_false (h : ∀ sc, s.me.ctl.held = some sc → sc.hasMx = false) :
    s.me.ctl.held.any Sched.hasMx = false := by
  cases hheld : s.me.ctl.held with
  | none => rfl
  | some sc => exact h sc hheld

/-- An operation whose premises hold does what it means. -/
theorem mxSlot_of_ready (h : MatrixReady i f s) (hk : k s = .next t) : mxSlot i f k s = .next t := by
  obtain ⟨hready, hunit, hwait, hheld⟩ := h
  refine (mxSlot_of_treadReady hready).trans (waitsOn_of_met ?_ (by simp [hunit, hwait]))
  simpa [any_hasMx_eq_false hheld] using hk

/-- One that would issue stalls while the unit is occupied or its wait is not met. -/
theorem mxSlot_of_waiting (h : TreadReady f.g i s) (hheld : ∀ sc, s.me.ctl.held = some sc → sc.hasMx = false)
    (hk : k s = .next t) (ho : t.me.iss.out = .ok) (hw : s.me.sched.mx.isSome = true ∨ waitHolds f.ws s.me = false) :
    mxSlot i f k s = .next (s.stall false) := by
  refine (mxSlot_of_treadReady h).trans (waitsOn_of_unmet (t := t) ?_ (.inl ho) (by simpa using hw))
  simpa [any_hasMx_eq_false hheld] using hk

/-- State violations, and operations unfinished under a handler, trap whatever is waited for. -/
theorem mxSlot_of_illegal (h : TreadReady f.g i s)
    (hbad : k s = s.illegal 9 ∨ ∃ sc, s.me.ctl.held = some sc ∧ sc.hasMx = true) :
    mxSlot i f k s = s.illegal 9 := by
  obtain ⟨t, cls, hnext, ho⟩ := s.illegal_trapped 9
  rw [hnext]
  refine (mxSlot_of_treadReady h).trans (waitsOn_of_trapped ?_ ho)
  rw [← hnext]
  obtain hbad | ⟨sc, hheld, hmx⟩ := hbad
  · rw [hbad]
    exact ite_self _
  · simp [hheld, hmx]

end

/-! ### Descriptors and ranges of a vault -/

/-- A descriptor that can be read, whose line no peer holds, is read as a load reads (R121). -/
theorem withTdt_of_ok {id : Word} {k : Tdt → Sem} {t : Tdt} {seen line : Nat} {s : State}
    (hread : s.readTdt id = .ok t seen line) (hrecall : s.recallOf line = none) :
    withTdt id k s = k t (s.sawTdt seen line) := by
  simp only [withTdt, hread, hrecall]

/-- Ranges inside the vault that a base names. -/
theorem inVaultRanges_of_held {base d : Nat} {rs : List (Nat × Nat)} {k : Nat → Sem} {s : State} {t : Hart}
    (ht : s.vaultTarget base = some (t, d))
    (hr : ∀ r ∈ rs, s.hub.firstBad t.place ((base % 2 ^ 23 + r.1) % 2 ^ 57) r.2 = none) :
    inVaultRanges base rs k s = k (apertureBase t.place.chip t.place.pos + base % 2 ^ 23) s := by
  simp only [inVaultRanges, ht, List.findSome?_eq_none_iff.mpr hr]

/-! ### Logical time -/

/-- The hart at another logical time. -/
def Hart.atLt (x : Nat) (h : Hart) : Hart := { h with spr := { h.spr with lt := x } }

/-- Two states with the same harts, but for the acting hart's logical time. -/
def SameButLt (s t : State) : Prop := t.ring = s.ring ∧ ∃ x, t.me = s.me.atLt x

theorem SameButLt.refl (s : State) : SameButLt s s := ⟨rfl, s.me.spr.lt, rfl⟩

theorem SameButLt.sawTdt {s t : State} (h : SameButLt s t) (seen line : Nat) : SameButLt s (t.sawTdt seen line) := by
  obtain ⟨hring, x, hme⟩ := h
  exact ⟨hring, Nat.max x seen, congrArg (Hart.raiseLt seen) hme⟩

theorem SameButLt.hart?_place {s t : State} (h : SameButLt s t) (n : HartId) :
    (t.hart? n).map (·.place) = (s.hart? n).map (·.place) := by
  obtain ⟨hring, x, hme⟩ := h
  have hid : (s.me.atLt x).id = s.me.id := rfl
  simp only [State.hart?, State.harts, hring, hme, List.find?_cons, hid]
  split <;> rfl

theorem State.vaultTarget_map_place (va : Nat) (s : State) : (s.vaultTarget va).map (·.1.place) =
    if s.me.isCore then none
    else if va / 2 ^ 23 % 2 = 1 then none
    else if va / 2 ^ 31 % 2 = 0 then if va / 2 ^ 24 % 2 ^ 7 = 0 then some s.me.place else none
    else if s.me.selectorOk (va / 2 ^ 28 % 8) (va / 2 ^ 24 % 16) then
      (s.gangTread (va / 2 ^ 28 % 8) (va / 2 ^ 24 % 16)).map (·.place)
    else none := by
  simp only [State.vaultTarget, apply_ite (Option.map _), Option.map_none, Option.map_some, Option.map_map]
  rfl

/-- A vault-window address names a tread at the same place. -/
theorem SameButLt.vaultTarget_place {s t : State} (h : SameButLt s t) (va : Nat) :
    (t.vaultTarget va).map (·.1.place) = (s.vaultTarget va).map (·.1.place) := by
  have hgang (gpos rnk : Nat) : (t.gangTread gpos rnk).map (·.place) = (s.gangTread gpos rnk).map (·.place) := by
    have ⟨_, x, hme⟩ := h
    have hid : t.me.id = s.me.id := by rw [hme]; rfl
    have hspr : t.me.spr.gang = s.me.spr.gang := by rw [hme]; rfl
    simp only [State.gangTread, hid, hspr]
    cases s.me.id with
    | core n => rfl
    | tread l w r => exact h.hart?_place _
  obtain ⟨-, x, hme⟩ := h
  rw [State.vaultTarget_map_place, State.vaultTarget_map_place, hgang, hme]
  rfl

/-! ### Multiplications -/

/-- The job of a multiplication (R161): its operand map's base at `at_` in the vault apertures, its A operand `a`. -/
def State.mmaJob (quant : Bool) (g : Nat) (f : MF) (at_ : Nat) (a : List (BitVec 32)) (s : State) : MxJob :=
  let (m, n, k) := s.me.shape
  let om := s.me.omap f.om.toNat
  let stride := wbits 15 0 om.desc
  let asOff := 128 * wbits 47 32 om.desc
  let bsOff := 128 * wbits 31 16 om.desc
  { seq := s.me.iss.seq, loads := false, ac := f.ac.toNat, fmt := f.fmt.toNat, mm := m, nn := n, kk := k, grp := g,
    quant := quant, base := at_, stride := stride, asAt := at_ + asOff, bsAt := at_ + bsOff,
    units := s.snapshot at_ (mmaRanges f.fmt.toNat quant g m n k stride asOff bsOff), sig := sigOpt f.ws, a := a,
    c := (s.me.accKeys f.ac.toNat m n).map s.me.chainVal }

/-- The state after a multiplication has issued. -/
def State.multiplied (f : MF) (job : MxJob) (s : State) : State :=
  (s.mxIssue (mxTime (32, 40) (256, 264) s.me) 8 f.ac.toNat (f.ta = 8#4 && !f.keep)
    (if f.ta = 8#4 then none else some (s.me.tBase + 1024 * f.ta.toNat)) (some job) none).modMe (fun h =>
      { h with units := { h.units with latch := if f.keep then some job.a else h.units.latch } })

theorem State.multiplied_issued (f : MF) (job : MxJob) (s : State) :
    MatrixIssued (if s.me.isVat then (256, 264) else (32, 40)).1 (if s.me.isVat then (256, 264) else (32, 40)).2 8
      f.ac.toNat none s (s.multiplied f job) :=
  ⟨⟨rfl, rfl, rfl, rfl, rfl, rfl, rfl, rfl⟩, rfl, rfl, ⟨_, rfl, rfl, rfl⟩, [], rfl, nofun⟩

section
variable {quant : Bool} {g : Nat} {f : MF} {s : State}

theorem operandA_of_ready (h : MultiplyReady quant g f s) : ∃ a, s.me.operandA f = some a := by
  obtain ⟨-, -, -, -, -, hlatch, -, -, -⟩ := h
  unfold Hart.operandA
  split
  next hta => exact Option.isSome_iff_exists.mp (hlatch hta)
  next => exact ⟨_, rfl⟩

/-- Operands in order are no state violation. -/
theorem mmaBad_of_ready (h : MultiplyReady quant g f s) : mmaBad f s.me = false := by
  obtain ⟨a, ha⟩ := operandA_of_ready h
  obtain ⟨hm, hn, hk, hblock, -, -, hmap, hshadow, -⟩ := h
  have hkeys : (s.me.accKeys f.ac.toNat s.me.shape.1 s.me.shape.2.1).any s.me.shadowKey = false :=
    List.any_eq_false.mpr fun k hk => by simp [hshadow k hk]
  have hfmt : (decide (f.fmt.toNat = 4) && decide (s.me.shape.2.2 % 32 ≠ 0)) = false := by
    simpa using hblock
  simp only [mmaBad, ha, hmap, hkeys, hfmt]
  simp [hm, hn, hk]

theorem groupBad_of_ready (h : MultiplyReady quant g f s) :
    (quant && groupBad f.fmt.toNat g s.me.shape.2.2) = false := by
  obtain ⟨-, -, -, -, hgroup, -⟩ := h
  cases quant with
  | false => rfl
  | true =>
    obtain ⟨hwhole, hfull⟩ := hgroup rfl
    simp only [groupBad, hwhole]
    simpa using hfull

/-- What a multiplication whose operands are in order leaves. -/
theorem mmaCore_of_ready (h : MultiplyReady quant g f s) : ∃ t d a,
    s.vaultTarget ((s.me.omap f.om.toNat).base.toNat % 2 ^ 57) = some (t, d) ∧ s.me.operandA f = some a ∧
    mmaCore quant g f s = .next (s.multiplied f (s.mmaJob quant g f
      (apertureBase t.place.chip t.place.pos + (s.me.omap f.om.toNat).base.toNat % 2 ^ 57 % 2 ^ 23) a)) := by
  obtain ⟨a, ha⟩ := operandA_of_ready h
  have hbad := mmaBad_of_ready h
  have hgroup := groupBad_of_ready h
  obtain ⟨-, -, -, -, -, -, -, -, t, d, ht, hr⟩ := h
  refine ⟨t, d, a, ht, ha, ?_⟩
  simp only [mmaCore, ha, hbad]
  exact (if_neg (by simpa using hgroup)).trans (inVaultRanges_of_held ht hr)

/-- State violations that no descriptor decides. -/
theorem mmaCore_of_bad (h : mmaBad f s.me = true) : mmaCore quant g f s = s.illegal 9 := by
  cases ha : s.me.operandA f with
  | none => simp only [mmaCore, ha]
  | some a => simp only [mmaCore, ha, h, Bool.true_or, if_true]

end

/-- Settles O45: an operation in order is `mmaCore` in the state of its issue, which the reads of the descriptors of an
`mma.q` have changed in its logical time alone, and what `mmaCore` leaves is one job. -/
theorem multiplicationsIssue : Obligations.MultiplicationsIssue := by
  intro f s t0 runs
  have hruns {i : Instr} {quant : Bool} {g : Nat} {s0 : State} (hlt : SameButLt s s0)
      (hready : MultiplyReady quant g f s0) (hexec : ∀ t, mmaCore quant g f s0 = .next t → exec i s = .next t) :
      runs i quant g s0 := by
    obtain ⟨v, d, a, hv, ha, hcore⟩ := mmaCore_of_ready hready
    have hplace := hlt.vaultTarget_place ((s0.me.omap f.om.toNat).base.toNat % 2 ^ 57)
    obtain ⟨me0, ring, todo, opened, hub, inbox, free⟩ := s0
    obtain ⟨-, x, rfl : me0 = s.me.atLt x⟩ := hlt
    refine ⟨_, _, _, hexec _ hcore, State.multiplied_issued .., rfl, rfl, rfl, rfl, rfl, rfl, rfl, rfl,
      fun hta => ?_, fun hta => ?_, fun tg e htg => ?_, rfl, rfl⟩
    · exact (Option.some.inj ((if_neg hta).symm.trans ha)).symm
    · exact (if_pos hta).symm.trans ha
    · have hsame : v.place = tg.place := by
        rw [hv] at hplace
        exact Option.some.inj (hplace.trans (congrArg _ htg))
      exact ⟨rfl, hsame ▸ rfl, rfl, rfl, rfl, rfl⟩
  refine ⟨fun hr hready => hruns (.refl s) hready fun t hcore => mxSlot_of_ready hr hcore, ?_, ?_, ?_, ?_⟩
  · intro ta na la tb nb lb hr hreadA s1 s2 hrecallA hreadB hrecallB hwant hfmt hgroup hready
    have hlt : SameButLt s s2 := ((SameButLt.refl s).sawTdt na la).sawTdt nb lb
    have hgood : mmaBad f s2.me = false := mmaBad_of_ready hready
    refine hruns hlt hready fun t hcore => mxSlot_of_ready hr ?_
    refine (if_neg (ne_true_of_eq_false hgood)).trans ((withTdt_of_ok hreadA hrecallA).trans ?_)
    refine (if_neg (not_not.mpr hwant)).trans ((withTdt_of_ok hreadB hrecallB).trans ?_)
    exact (if_neg (not_or.mpr ⟨not_not.mpr (hfmt.trans hwant), not_not.mpr hgroup⟩)).trans hcore
  · intro ta na la hr hgood hreadA hrecallA hwant
    refine mxSlot_of_ready hr ?_
    refine (if_neg (ne_true_of_eq_false hgood)).trans ((withTdt_of_ok hreadA hrecallA).trans ?_)
    exact if_pos hwant
  · intro hbad
    exact ⟨fun hr => mxSlot_of_illegal hr (hbad.imp_left mmaCore_of_bad),
      fun hr => mxSlot_of_illegal hr (hbad.imp_left fun h => if_pos h)⟩
  · intro hr hready hheld hw
    obtain ⟨v, d, a, -, -, hcore⟩ := mmaCore_of_ready hready
    exact mxSlot_of_waiting hr hheld hcore rfl hw

end Sys2Proof.Machine
end

section
/-! The integer instructions of the scalar slots (R133 to R136): what a register form writes, and the words that
arithmetic, shifts and division come to. -/

namespace Sys2Proof.Machine

/-! ### The register form -/

theorem destTakes_of_alu {i : Instr} {L : Nat} {op : Word → Word → Word} {f : SR} {v : Word} {s : State}
    (he : exec i s = alu L op f s) (hguard : guardHolds f.gk.g s.me = true)
    (hv : op (s.me.srcA f.ua f.a) (s.me.regs.sReg f.b) = v) : DestTakes i L f.ud f.d v s :=
  hv ▸ destTakes_of_writeD (he.trans (guarded_of_holds hguard))

/-! ### Sums, products and shifts of words -/

theorem add_eq_ofInt (a b : Word) : a + b = BitVec.ofInt 64 (a.toInt + b.toInt) := by
  rw [BitVec.ofInt_add, BitVec.ofInt_toInt, BitVec.ofInt_toInt]

theorem mul_eq_ofInt (a b : Word) : a * b = BitVec.ofInt 64 (a.toInt * b.toInt) := by
  rw [BitVec.ofInt_mul, BitVec.ofInt_toInt, BitVec.ofInt_toInt]

theorem sub_eq_ofInt (a b : Word) : a - b = BitVec.ofInt 64 (a.toInt - b.toInt) := by
  rw [Int.sub_eq_add_neg, BitVec.ofInt_add, BitVec.ofInt_neg, BitVec.ofInt_toInt, BitVec.ofInt_toInt,
    BitVec.sub_eq_add_neg]

theorem shiftLeft_eq_ofNat (a : Word) (n : Nat) : a <<< n = BitVec.ofNat 64 (a.toNat * 2 ^ n) :=
  BitVec.eq_of_toNat_eq (by rw [BitVec.toNat_shiftLeft, Nat.shiftLeft_eq, BitVec.toNat_ofNat])

theorem ushiftRight_eq_ofNat (a : Word) (n : Nat) : a >>> n = BitVec.ofNat 64 (a.toNat / 2 ^ n) := by
  rw [← Nat.shiftRight_eq_div_pow, ← BitVec.toNat_ushiftRight, BitVec.ofNat_toNat, BitVec.setWidth_eq]

theorem sshiftRight_eq_ofInt (a : Word) (n : Nat) : a.sshiftRight n = BitVec.ofInt 64 (a.toInt / 2 ^ n) := by
  rw [BitVec.sshiftRight, Int.shiftRight_eq_div_pow]
  rfl

/-! ### The lesser and the greater of two words -/

/-- Where the keys are equal, so are the values, and it makes no difference which is chosen. -/
theorem ite_lt_eq_ite_le {α β : Type} [LinearOrder β] {p q : β} {x y : α} (h : p = q → x = y) :
    (if p < q then x else y) = if p ≤ q then x else y := by
  obtain hlt | heq | hgt := lt_trichotomy p q
  · rw [if_pos hlt, if_pos hlt.le]
  · rw [if_neg heq.not_lt, if_pos heq.le, h heq]
  · rw [if_neg hgt.not_gt, if_neg hgt.not_ge]

theorem ite_slt_eq {a b x y : Word} (h : a = b → x = y) :
    (if a.slt b then x else y) = if a.toInt ≤ b.toInt then x else y := by
  simp only [BitVec.slt_iff_toInt_lt]
  exact ite_lt_eq_ite_le fun heq => h (BitVec.eq_of_toInt_eq heq)

theorem ite_ult_eq {a b x y : Word} (h : a = b → x = y) :
    (if a.ult b then x else y) = if a.toNat ≤ b.toNat then x else y := by
  simp only [BitVec.ult_iff_toNat_lt]
  exact ite_lt_eq_ite_le fun heq => h (BitVec.eq_of_toNat_eq heq)

/-- Settles O14: each instruction is one result of its operation on the two registers, and the word that the operation
gives is the wrapped integer of the statement. -/
theorem integerInstructionsCompute : Obligations.IntegerInstructionsCompute := by
  intro f s hguard a b c
  exact ⟨destTakes_of_alu rfl hguard (add_eq_ofInt a b), destTakes_of_alu rfl hguard (sub_eq_ofInt a b),
    destTakes_of_alu rfl hguard rfl, destTakes_of_alu rfl hguard rfl, destTakes_of_alu rfl hguard rfl,
    destTakes_of_alu (op := fun a b => a <<< shCount b) rfl hguard (shiftLeft_eq_ofNat a c),
    destTakes_of_alu (op := fun a b => a >>> shCount b) rfl hguard (ushiftRight_eq_ofNat a c),
    destTakes_of_alu (op := fun a b => a.sshiftRight (shCount b)) rfl hguard (sshiftRight_eq_ofInt a c),
    destTakes_of_alu rfl hguard (mul_eq_ofInt a b),
    destTakes_of_alu (op := fun a b => BitVec.ofInt 64 (a.toInt * b.toInt / 2 ^ 64)) rfl hguard rfl,
    destTakes_of_alu (op := fun a b => BitVec.ofNat 64 (a.toNat * b.toNat / 2 ^ 64)) rfl hguard rfl,
    destTakes_of_alu (op := fun a b => if a.slt b then a else b) rfl hguard (ite_slt_eq id),
    destTakes_of_alu (op := fun a b => if a.slt b then b else a) rfl hguard (ite_slt_eq Eq.symm),
    destTakes_of_alu (op := fun a b => if a.ult b then a else b) rfl hguard (ite_ult_eq id),
    destTakes_of_alu (op := fun a b => if a.ult b then b else a) rfl hguard (ite_ult_eq Eq.symm)⟩

/-! ### Division -/

theorem divS_of_ne {a b : Word} (hb : b ≠ 0) : divS a b = a.sdiv b := by
  rw [divS, if_neg hb]
  exact BitVec.eq_of_toInt_eq (by rw [BitVec.toInt_ofInt, BitVec.toInt_sdiv])

theorem remS_of_ne {a b : Word} (hb : b ≠ 0) : remS a b = a.srem b := by
  rw [remS, if_neg hb, ← BitVec.toInt_srem, BitVec.ofInt_toInt]

/-- The quotient of words truncates toward zero; only −2⁶³ by −1 goes beyond the range (R136). -/
theorem toInt_sdiv_of_not_overflow {a b : Word} (h : ¬(a.toInt = -2 ^ 63 ∧ b.toInt = -1)) :
    (a.sdiv b).toInt = a.toInt.tdiv b.toInt := by
  refine BitVec.toInt_sdiv_of_ne_or_ne a b (not_and_or.mp fun hab => h ?_)
  obtain ⟨rfl, rfl⟩ := hab
  exact ⟨rfl, rfl⟩

/-- A remainder that is not 0 has the sign of the dividend. -/
theorem tmod_neg_iff {a b : Int} (h : a.tmod b ≠ 0) : a.tmod b < 0 ↔ a < 0 := by
  have hsign := Int.sign_tmod a b
  rw [if_neg (mt Int.tmod_eq_zero_of_dvd h)] at hsign
  rw [← Int.sign_neg_iff, hsign, Int.sign_neg_iff]

theorem divU_eq_ofNat {a b : Word} (hb : b ≠ 0) : divU a b = BitVec.ofNat 64 (a.toNat / b.toNat) := by
  rw [divU, if_neg hb, ← BitVec.toNat_udiv, BitVec.ofNat_toNat, BitVec.setWidth_eq]

theorem remU_eq_ofNat {a b : Word} (hb : b ≠ 0) : remU a b = BitVec.ofNat 64 (a.toNat % b.toNat) := by
  rw [remU, if_neg hb, ← BitVec.toNat_umod, BitVec.ofNat_toNat, BitVec.setWidth_eq]

/-- Settles O15: the quotient and the remainder are those of signed division of words, but for a zero divisor, which has
a result of its own. -/
theorem divisionTruncatesAndNeverTraps : Obligations.DivisionTruncatesAndNeverTraps := by
  intro f s hguard a b ovf
  have hne (h : b.toNat ≠ 0) : b ≠ 0 := fun hb => h (congrArg BitVec.toNat hb)
  refine ⟨fun hb hovf => ⟨a.sdiv b, a.srem b, ?_, ?_, ?_, destTakes_of_alu rfl hguard (divS_of_ne (hne hb)),
      destTakes_of_alu rfl hguard (remS_of_ne (hne hb))⟩,
    fun hb => ⟨destTakes_of_alu rfl hguard (divU_eq_ofNat (hne hb)),
      destTakes_of_alu rfl hguard (remU_eq_ofNat (hne hb))⟩,
    fun hb => ?_, fun h => ?_⟩
  · exact toInt_sdiv_of_not_overflow hovf
  · rw [toInt_sdiv_of_not_overflow hovf, BitVec.toInt_srem, Int.tmod_def]
  · rw [BitVec.toInt_srem]
    exact or_iff_not_imp_left.mpr tmod_neg_iff
  · have hzero : b = 0 := BitVec.eq_of_toNat_eq hb
    exact ⟨destTakes_of_alu rfl hguard (if_pos hzero), destTakes_of_alu rfl hguard (if_pos hzero),
      destTakes_of_alu rfl hguard (if_pos hzero), destTakes_of_alu rfl hguard (if_pos hzero)⟩
  · obtain ⟨ha, hb⟩ := h
    have hnz : b ≠ 0 := fun h => by simp [h] at hb
    exact ⟨destTakes_of_alu rfl hguard (by rw [divS, if_neg hnz, ha, hb]; rfl),
      destTakes_of_alu rfl hguard (by rw [remS, if_neg hnz, ha, hb]; rfl)⟩

end Sys2Proof.Machine
end

section
/-! Bit fields, moves, counts and constants of the scalar slots (R137, R138). -/

namespace Sys2Proof.Machine

/-! ### Bit fields -/

theorem bfWidth_eq (b : Word) : bfWidth b = b.toNat / 2 ^ 8 % 64 + 1 := by
  rw [bfWidth, wbits, bitsOf, Nat.shiftRight_eq_div_pow]
  rfl

theorem bfWidth_pos (b : Word) : 0 < bfWidth b := Nat.succ_pos _

theorem bfWidth_le (b : Word) : bfWidth b ≤ 64 := by
  rw [bfWidth_eq]
  omega

/-- The low bits of a word are those of its signed reading. -/
theorem toInt_emod_two_pow (x : Word) {w : Nat} (hw : w ≤ 64) : x.toInt % 2 ^ w = (x.toNat % 2 ^ w : Nat) := by
  have hdvd : (2 : Int) ^ w ∣ (2 ^ 64 : Nat) := by
    push_cast
    exact pow_dvd_pow 2 hw
  rw [BitVec.toInt_eq_toNat_bmod, ← Int.emod_emod_of_dvd _ hdvd, Int.bmod_emod, Int.emod_emod_of_dvd _ hdvd]
  push_cast
  rfl

/-- Two's complement of the low bits of a word, in terms of its signed reading. -/
theorem signedOf_toNat (x : Word) {w : Nat} (hpos : 0 < w) (hw : w ≤ 64) :
    signedOf w x.toNat = if 2 ^ (w - 1) ≤ x.toInt % 2 ^ w then x.toInt % 2 ^ w - 2 ^ w else x.toInt % 2 ^ w := by
  obtain ⟨n, rfl⟩ : ∃ n, w = n + 1 := ⟨w - 1, by omega⟩
  have hhalf : 2 ^ (n + 1) ≤ 2 * (x.toNat % 2 ^ (n + 1)) ↔ (2 : Int) ^ n ≤ (x.toNat % 2 ^ (n + 1) : Nat) := by
    rw [pow_succ', Nat.mul_le_mul_left_iff two_pos]
    exact_mod_cast Iff.rfl
  rw [toInt_emod_two_pow x hw, signedOf, Nat.add_sub_cancel]
  simp only [hhalf]

theorem bfxVal_eq (a b : Word) :
    bfxVal a b = BitVec.ofInt 64 (if 2 ^ (bfWidth b - 1) ≤ a.toInt / 2 ^ bfPos b % 2 ^ bfWidth b
      then a.toInt / 2 ^ bfPos b % 2 ^ bfWidth b - 2 ^ bfWidth b else a.toInt / 2 ^ bfPos b % 2 ^ bfWidth b) := by
  rw [bfxVal, signedOf_toNat _ (bfWidth_pos b) (bfWidth_le b), BitVec.toInt_sshiftRight, Int.shiftRight_eq_div_pow]
  push_cast
  rfl

theorem getLsbD_bfiVal (a b d : Word) {k : Nat} (hk : k < 64) : (bfiVal a b d).getLsbD k =
    if bfPos b ≤ k ∧ k < min (bfPos b + bfWidth b) 64 then a.getLsbD (k - bfPos b) else d.getLsbD k := by
  have hp : bfPos b < 64 := Nat.mod_lt _ (by decide)
  have hw := bfWidth_pos b
  have htop : bfPos b < min (bfPos b + bfWidth b) 64 := lt_min (by omega) hp
  rw [bfiVal, getLsbD_setBits (h := min (bfPos b + bfWidth b) 64 - 1) (Nat.le_sub_one_of_lt htop) hk]
  simp only [Nat.le_sub_one_iff_lt (Nat.zero_lt_of_lt htop)]
  rfl

/-- Settles O16: the position and the width are the fields of sb, and each instruction is one result of its value. -/
theorem bitFieldsExtractAndInsert : Obligations.BitFieldsExtractAndInsert := by
  intro f s hguard a b p w x
  refine ⟨destTakes_of_alu (op := bfxuVal) rfl hguard ?_, destTakes_of_alu (op := bfxVal) rfl hguard ?_,
    bfiVal a b (s.me.srcD f), fun k hk => ?_, destTakes_of_writeD (guarded_of_holds hguard)⟩
  · exact congrArg (fun n => BitVec.ofNat 64 (a.toNat / 2 ^ p % 2 ^ n)) (bfWidth_eq b)
  · rw [bfxVal_eq, bfWidth_eq]
    rfl
  · rw [getLsbD_bfiVal a b _ hk, bfWidth_eq]
    rfl

/-! ### Counts of bits -/

/-- The count of leading zeros of a word: it lies below the power of two that the count names, and at or above half of
it (R138). -/
theorem clzVal_spec (a : Word) : (clzVal a).toNat ≤ 64 ∧ a.toNat < 2 ^ (64 - (clzVal a).toNat) ∧
    ((clzVal a).toNat < 64 → 2 ^ (63 - (clzVal a).toNat) ≤ a.toNat) := by
  by_cases ha : a = 0
  · subst ha
    decide
  · have hne : a.toNat ≠ 0 := fun h => ha (BitVec.eq_of_toNat_eq h)
    have hlog : a.toNat.log2 < 64 := (Nat.log2_lt hne).mpr a.isLt
    have hval : (clzVal a).toNat = 63 - a.toNat.log2 := by
      rw [clzVal, if_neg ha, BitVec.toNat_ofNat]
      omega
    rw [hval, show 64 - (63 - a.toNat.log2) = a.toNat.log2 + 1 by omega,
      show 63 - (63 - a.toNat.log2) = a.toNat.log2 by omega]
    exact ⟨by omega, Nat.lt_log2_self, fun _ => Nat.log2_self_le hne⟩

/-- The lowest set bit of a word is the first of its bits that reads true. -/
theorem lowestBit_toNat (m : Word) : lowestBit m.toNat 64 = (List.range 64).find? (fun k => m.getLsbD k) := by
  simp only [lowestBit, BitVec.getLsbD, Nat.testBit_eq_decide_div_mod_eq]

/-- The count of trailing zeros of a word is the place of its lowest set bit (R138). -/
theorem ctzVal_spec (a : Word) : (ctzVal a).toNat ≤ 64 ∧ (∀ k, k < (ctzVal a).toNat → a.getLsbD k = false) ∧
    ((ctzVal a).toNat < 64 → a.getLsbD (ctzVal a).toNat = true) := by
  have hval : ctzVal a = BitVec.ofNat 64 (((List.range 64).find? (fun k => a.getLsbD k)).getD 64) :=
    congrArg (fun o : Option Nat => BitVec.ofNat 64 (o.getD 64)) (lowestBit_toNat a)
  cases hfind : (List.range 64).find? (fun k => a.getLsbD k) with
  | none =>
    rw [hfind] at hval
    rw [hval]
    exact ⟨le_rfl, fun k hk => by simpa using List.find?_range_eq_none.mp hfind k hk, fun h => absurd h (lt_irrefl _)⟩
  | some j =>
    obtain ⟨hj, hmem, hlow⟩ := List.find?_range_eq_some.mp hfind
    have hlt : j < 64 := List.mem_range.mp hmem
    have htoNat : (ctzVal a).toNat = j := by
      rw [hval, hfind, BitVec.toNat_ofNat]
      exact Nat.mod_eq_of_lt (hlt.trans (by decide))
    rw [htoNat]
    exact ⟨hlt.le, fun k hk => by simpa using hlow k hk, fun _ => hj⟩

theorem popCount_eq (m : Word) : popCount m = ((List.range 64).filter (fun k => m.getLsbD k)).length :=
  List.countP_eq_length_filter

/-! ### Bytes reversed -/

/-- A byte of the number that a list of bytes holds. -/
theorem leBytes_byte : ∀ (bs : List Byte) (k : Nat), leBytes bs / 256 ^ k % 256 = (bs.getD k 0#8).toNat
  | [], k => by simp [leBytes]
  | b :: bs, 0 => by simpa [leBytes] using b.isLt
  | b :: bs, k + 1 => by
    rw [leBytes, pow_succ', ← Nat.div_div_eq_div_mul, List.getD_cons_succ, ← leBytes_byte bs k]
    congr 2
    have hb : b.toNat < 256 := b.isLt
    omega

theorem getD_toBytes : ∀ (n x k : Nat), k < n → ((toBytes n x).getD k 0#8).toNat = x / 256 ^ k % 256
  | n + 1, x, 0, _ => by simp [toBytes]
  | n + 1, x, k + 1, h => by
    rw [toBytes, List.getD_cons_succ, getD_toBytes n _ k (by omega), Nat.div_div_eq_div_mul, pow_succ']

theorem leBytes_lt : ∀ bs : List Byte, leBytes bs < 256 ^ bs.length
  | [] => by simp [leBytes]
  | b :: bs => by
    rw [leBytes, List.length_cons, pow_succ']
    have hb := b.isLt
    have ih := leBytes_lt bs
    omega

/-- Byte `k` of the reversed word is byte `7 - k` of the word (R138). -/
theorem bswapVal_byte (a : Word) {k : Nat} (hk : k < 8) :
    (bswapVal a).toNat / 256 ^ k % 256 = a.toNat / 256 ^ (7 - k) % 256 := by
  have hlt : leBytes (toBytes 8 a.toNat).reverse < 2 ^ 64 := by simpa using leBytes_lt (toBytes 8 a.toNat).reverse
  rw [bswapVal, BitVec.toNat_ofNat, Nat.mod_eq_of_lt hlt, leBytes_byte, ← getD_toBytes 8 a.toNat (7 - k) (by omega)]
  congr 1
  rw [List.getD_reverse _ (by simpa using hk), toBytes_length]

/-! ### Scalar results and constants -/

theorem scalarTakes_of_writeS {i : Instr} {L : Nat} {d : BitVec 6} {v w : Word} {s : State}
    (h : exec i s = .next (s.writeS L d v)) (hv : v = w) : ScalarTakes i L d w s := hv ▸ h

theorem execMovi_of_holds {u : SU} {s : State} (h : guardHolds u.gk.g s.me = true) :
    exec (.movi u) s = .next (s.writeS 1 u.d (u.imm.signExtend 64)) :=
  show execMovi u s = _ from guarded_of_holds h

theorem execMovsh_of_holds {u : SU} {s : State} (h : guardHolds u.gk.g s.me = true) :
    exec (.movsh u) s = .next (s.writeS 1 u.d (s.me.regs.sReg u.d <<< 14 + u.imm.zeroExtend 64)) :=
  show execMovsh u s = _ from guarded_of_holds h

theorem shiftLeft_add_zeroExtend (x : Word) (n : BitVec 14) :
    x <<< 14 + n.zeroExtend 64 = BitVec.ofNat 64 (x.toNat * 2 ^ 14 + n.toNat) := by
  rw [BitVec.ofNat_add, BitVec.ofNat_toNat, shiftLeft_eq_ofNat]

/-- Settles O17: each instruction is one result of its value, and the counts and the reversed word have the bits and
bytes of the statement. -/
theorem movesSelectsAndCounts : Obligations.MovesSelectsAndCounts := by
  intro f pn u s
  refine ⟨?_, fun hguard => ⟨scalarTakes_of_writeS (execMovi_of_holds hguard) rfl,
    scalarTakes_of_writeS (execMovsh_of_holds hguard) (shiftLeft_add_zeroExtend _ _)⟩⟩
  intro hguard a
  obtain ⟨hclz, hclzLt, hclzLe⟩ := clzVal_spec a
  obtain ⟨hctz, hctzLow, hctzBit⟩ := ctzVal_spec a
  exact ⟨destTakes_of_alu (op := fun a _ => a) rfl hguard rfl, destTakes_of_writeD (guarded_of_holds hguard),
    ⟨_, hclz, hclzLt, hclzLe, destTakes_of_alu (op := fun a _ => clzVal a) rfl hguard rfl⟩,
    ⟨_, hctz, hctzLow, hctzBit, destTakes_of_alu (op := fun a _ => ctzVal a) rfl hguard rfl⟩,
    destTakes_of_alu (op := fun a _ => BitVec.ofNat 64 (popCount a)) rfl hguard (congrArg _ (popCount_eq a)),
    ⟨_, fun _ => bswapVal_byte a, destTakes_of_alu (op := fun a _ => bswapVal a) rfl hguard rfl⟩⟩

end Sys2Proof.Machine
end

section
/-! Compares, predicate operations and floating instructions of the scalar slots (R139 to R141). -/

namespace Sys2Proof.Machine

/-! ### Compares and predicate operations -/

theorem predicateTakes_of_cmpR {i : Instr} {p : Word → Word → Bool} {f : SR} {v : Bool} {s : State}
    (he : exec i s = cmpR p f s) (hguard : guardHolds f.gk.g s.me = true)
    (hv : p (s.me.srcA f.ua f.a) (s.me.regs.sReg f.b) = v) : PredicateTakes i 1 f.d v s :=
  predicateTakes_of_writeP (he.trans (guarded_of_holds hguard)) hv

theorem predicateTakes_of_cmpI {i : Instr} {p : Word → Word → Bool} {f : SI} {v : Bool} {s : State}
    (he : exec i s = cmpI p f s) (hguard : guardHolds f.gk.g s.me = true)
    (hv : p (s.me.regs.sReg f.a) (imm8 f) = v) : PredicateTakes i 1 f.d v s :=
  predicateTakes_of_writeP (he.trans (guarded_of_holds hguard)) hv

theorem predicateTakes_of_predOp {i : Instr} {p : Bool → Bool → Bool} {f : SR} {s : State}
    (he : exec i s = predOp p f s) (hguard : guardHolds f.gk.g s.me = true) :
    PredicateTakes i 1 f.d
      (p (s.me.regs.pReg (BitVec.ofNat 3 f.a.toNat)) (s.me.regs.pReg (BitVec.ofNat 3 f.b.toNat))) s :=
  predicateTakes_of_writeP (he.trans (guarded_of_holds hguard)) rfl

theorem not_cmpEq (a b : Word) : (!cmpEq a b) = decide (a ≠ b) := decide_not.symm

theorem cmpLt_eq (a b : Word) : cmpLt a b = decide (a.toInt < b.toInt) := BitVec.slt_eq_decide

theorem cmpLe_eq (a b : Word) : cmpLe a b = decide (a.toInt ≤ b.toInt) := BitVec.sle_eq_decide

theorem cmpLtu_eq (a b : Word) : cmpLtu a b = decide (a.toNat < b.toNat) := BitVec.ult_eq_decide

theorem cmpLeu_eq (a b : Word) : cmpLeu a b = decide (a.toNat ≤ b.toNat) := BitVec.ule_eq_decide

/-- Settles O19: each compare and each predicate operation is one result of its relation for one predicate. -/
theorem comparesWritePredicates : Obligations.ComparesWritePredicates := by
  intro f i s
  refine ⟨?_, ?_⟩
  · intro hguard a b pa pb
    exact ⟨predicateTakes_of_cmpR (p := cmpEq) rfl hguard rfl,
      predicateTakes_of_cmpR (p := fun a b => !cmpEq a b) rfl hguard (not_cmpEq a b),
      predicateTakes_of_cmpR rfl hguard (cmpLt_eq a b), predicateTakes_of_cmpR rfl hguard (cmpLe_eq a b),
      predicateTakes_of_cmpR rfl hguard (cmpLtu_eq a b), predicateTakes_of_cmpR rfl hguard (cmpLeu_eq a b),
      predicateTakes_of_predOp (p := fun a b => a && b) rfl hguard,
      predicateTakes_of_predOp (p := fun a b => a || b) rfl hguard,
      predicateTakes_of_predOp (p := fun a b => a ^^ b) rfl hguard,
      predicateTakes_of_predOp (p := fun a _ => !a) rfl hguard⟩
  · intro hguard a b
    exact ⟨predicateTakes_of_cmpI (p := cmpEq) rfl hguard rfl,
      predicateTakes_of_cmpI (p := fun a b => !cmpEq a b) rfl hguard (not_cmpEq a b),
      predicateTakes_of_cmpI rfl hguard (cmpLt_eq a b), predicateTakes_of_cmpI rfl hguard (cmpLe_eq a b),
      predicateTakes_of_cmpI rfl hguard (cmpLtu_eq a b), predicateTakes_of_cmpI rfl hguard (cmpLeu_eq a b)⟩

/-! ### Floating instructions -/

theorem scalarTakes_of_fpOp {i : Instr} {F : Fmt} {L : Nat} {op : FVal → FVal → FVal} {f : SR} {s : State}
    (he : exec i s = fpOp F L op f s) (hguard : guardHolds f.gk.g s.me = true) :
    ScalarTakes i L f.d (BitVec.ofNat 64 (F.enc .rne
      (op (F.val (s.me.regs.sReg f.a).toNat) (F.val (s.me.regs.sReg f.b).toNat)))) s :=
  he.trans (guarded_of_holds hguard)

theorem scalarTakes_of_ffmaOp {i : Instr} {F : Fmt} {L : Nat} {f : SR} {s : State}
    (he : exec i s = ffmaOp F L f s) (hguard : guardHolds f.gk.g s.me = true) :
    ScalarTakes i L f.d (BitVec.ofNat 64 (F.enc .rne (FVal.fma .rne (F.val (s.me.regs.sReg f.a).toNat)
      (F.val (s.me.regs.sReg f.b).toNat) (F.val (s.me.regs.sReg f.d).toNat)))) s :=
  he.trans (guarded_of_holds hguard)

/-- Settles O20: in both formats each instruction rounds the exact result of its operation once; `ffma` has an addend of
its own. -/
theorem floatingInstructionsRoundOnce : Obligations.FloatingInstructionsRoundOnce := by
  intro f s hguard rd wr both
  have hop {i : Instr} {F : Fmt} {L : Nat} (op : FVal → FVal → FVal) (he : exec i s = fpOp F L op f s) :=
    scalarTakes_of_fpOp he hguard
  exact ⟨⟨hop (FVal.add .rne) rfl, hop (fun a b => FVal.add .rne a b.negate) rfl, hop FVal.mul rfl,
      scalarTakes_of_ffmaOp rfl hguard, hop FVal.div rfl, hop (fun a _ => a.sqrt) rfl, hop FVal.minimum rfl,
      hop FVal.maximum rfl⟩,
    ⟨hop (FVal.add .rne) rfl, hop (fun a b => FVal.add .rne a b.negate) rfl, hop FVal.mul rfl,
      scalarTakes_of_ffmaOp rfl hguard, hop FVal.div rfl, hop (fun a _ => a.sqrt) rfl, hop FVal.minimum rfl,
      hop FVal.maximum rfl⟩⟩

/-! ### Floating compares -/

theorem predicateTakes_of_fcmpOp {i : Instr} {F : Fmt} {p : FVal → FVal → Bool} {f : SR} {v : Bool} {s : State}
    (he : exec i s = fcmpOp F p f s) (hguard : guardHolds f.gk.g s.me = true)
    (hv : p (F.val (s.me.regs.sReg f.a).toNat) (F.val (s.me.regs.sReg f.b).toNat) = v) :
    PredicateTakes i 2 f.d v s :=
  predicateTakes_of_writeP (he.trans (guarded_of_holds hguard)) hv

theorem fLe_eq (a b : FVal) : fLe a b = decide (FVal.cmp a b = some .lt ∨ FVal.cmp a b = some .eq) :=
  (Bool.decide_or _ _).symm

theorem FVal.eq_nan_of_isNan {y : FVal} (h : y.isNan = true) : y = .nan := by
  cases y with
  | nan => rfl
  | inf _ | fin _ _ _ => exact absurd h Bool.false_ne_true

theorem FVal.cmp_of_isNan {a b : FVal} (h : a.isNan = true ∨ b.isNan = true) : FVal.cmp a b = none := by
  obtain h | h := h <;> rw [FVal.eq_nan_of_isNan h]
  · rfl
  · cases a <;> rfl

/-! ### Conversions -/

theorem execFcvt_of_holds {f : SR} {s : State} (h : guardHolds f.gk.g s.me = true) :
    exec (.fcvt f) s = .next (s.writeS 4 f.d (fcvtVal f.b.toNat (s.me.regs.sReg f.a))) :=
  show execFcvt f s = _ from guarded_of_holds h

theorem toI64_signed (rm : RM) (y : FVal) : toI64 true rm y = BitVec.ofInt 64 (y.toInt rm (-2 ^ 63) (2 ^ 63 - 1)) := rfl

theorem toI64_unsigned (rm : RM) (y : FVal) : toI64 false rm y = BitVec.ofInt 64 (y.toInt rm 0 (2 ^ 64 - 1)) := rfl

theorem FVal.toInt_of_isNan {y : FVal} (h : y.isNan = true) (rm : RM) (lo hi : Int) : y.toInt rm lo hi = 0 := by
  rw [FVal.eq_nan_of_isNan h]
  rfl

/-- The denominator of a finite value of a format is not 0. -/
theorem Fmt.val_den_pos {F : Fmt} {x : Nat} {sg : Bool} {n d : Nat} (h : F.val x = .fin sg n d) : 0 < d := by
  simp only [Fmt.val] at h
  split_ifs at h <;> cases h <;> positivity

/-- Rounding to nearest even goes up from the quotient past the half, and at the half from an odd quotient (R113). -/
theorem roundMag_rne_eq (sg : Bool) (n d : Nat) :
    roundMag .rne sg n d = if d < 2 * (n % d) ∨ (2 * (n % d) = d ∧ n / d % 2 = 1) then n / d + 1 else n / d := by
  simp only [roundMag, Bool.or_eq_true, Bool.and_eq_true, decide_eq_true_eq, Bool.toNat, Bool.cond_eq_ite]
  split <;> rfl

/-- No integer is nearer than the one it gives, and at a tie that one is even (R113). -/
theorem roundMag_rne_spec (sg : Bool) (n : Nat) {d : Nat} (hd : 0 < d) :
    2 * ((n : Int) - roundMag .rne sg n d * d).natAbs ≤ d ∧
    (2 * ((n : Int) - roundMag .rne sg n d * d).natAbs = d → roundMag .rne sg n d % 2 = 0) := by
  have hcut : (n : Int) = (n / d : Nat) * d + (n % d : Nat) := by exact_mod_cast (Nat.div_add_mod' n d).symm
  have hmod := Nat.mod_lt n hd
  rw [roundMag_rne_eq]
  split
  · have hdist : (n : Int) - (n / d + 1 : Nat) * d = -(d - (n % d : Nat)) := by
      rw [Nat.cast_succ]
      linear_combination hcut
    rw [hdist]
    omega
  · have hdist : (n : Int) - (n / d : Nat) * d = (n % d : Nat) := sub_eq_of_eq_add' hcut
    rw [hdist]
    omega

/-- Settles O21: a compare is one result of its relation, and `fcvt` one result of the conversion that its code names; a
conversion to an integer is taken apart by the value that is converted. -/
theorem floatingComparesAndConversions : Obligations.FloatingComparesAndConversions := by
  intro f s hguard rd all
  have hall (F : Fmt) {eq lt le un : Instr} (heq : exec eq s = fcmpOp F fEq f s) (hlt : exec lt s = fcmpOp F fLt f s)
      (hle : exec le s = fcmpOp F fLe f s) (hun : exec un s = fcmpOp F fUn f s) : all F eq lt le un :=
    ⟨predicateTakes_of_fcmpOp heq hguard rfl, predicateTakes_of_fcmpOp hlt hguard rfl,
      predicateTakes_of_fcmpOp hle hguard (fLe_eq _ _), predicateTakes_of_fcmpOp hun hguard rfl, FVal.cmp_of_isNan⟩
  refine ⟨hall fp32 rfl rfl rfl rfl, hall fp64 rfl rfl rfl rfl, ?_⟩
  intro x takes flt ofI toI
  have hcvt {c : Nat} {v : Word} (hv : fcvtVal c x = v) : takes c v := fun hc =>
    scalarTakes_of_writeS (execFcvt_of_holds hguard) (hc ▸ hv)
  have htoI {c : Nat} {F : Fmt} {rne : Bool} {lo hi : Int}
      (hv : fcvtVal c x = BitVec.ofInt 64 ((F.val x.toNat).toInt (if rne then .rne else .rz) lo hi)) :
      toI c F rne lo hi := by
    refine fun hc => ⟨_, hcvt hv hc, fun hnan => ?_, fun neg hinf => ?_, fun sg n d hfin => ?_⟩
    · exact FVal.toInt_of_isNan hnan _ _ _
    · rw [hinf]
      rfl
    · refine ⟨roundMag (if rne then .rne else .rz) sg n d, by rw [hfin]; rfl, ?_, ?_⟩
      · rintro rfl
        rfl
      · rintro rfl
        exact roundMag_rne_spec sg n (Fmt.val_den_pos hfin)
  exact ⟨hcvt rfl, hcvt rfl, hcvt rfl, hcvt rfl, hcvt rfl, hcvt rfl, htoI (toI64_signed _ _), htoI (toI64_unsigned _ _),
    htoI (toI64_signed _ _), htoI (toI64_unsigned _ _), htoI (toI64_signed _ _), htoI (toI64_signed _ _),
    hcvt rfl, hcvt rfl, hcvt rfl, hcvt rfl⟩

end Sys2Proof.Machine
end

section
/-! `nop`, `hold`, branches and calls (R129 to R131): the decision of a branch, and where control goes. -/

namespace Sys2Proof.Machine

theorem branchTo_of_taken {g : Guard} {call : Bool} {target : State → VAddr} {a : VAddr} {s : State}
    (h : s.decides g (target s) = (true, a)) : branchTo g call target s =
      .next (if call then (s.modMe (Hart.goTo a)).writeS 1 63#6 s.me.returnAddr else (s.modMe (Hart.goTo a)).ok) := by
  unfold branchTo
  rw [h]
  cases call <;> rfl

theorem branchTo_of_not_taken {g : Guard} {call : Bool} {target : State → VAddr} {a : VAddr} {s : State}
    (h : s.decides g (target s) = (false, a)) : branchTo g call target s = .next s.issuedBare := by
  unfold branchTo
  rw [h]
  rfl

/-- Outside a broadcast decision a branch goes by its own guard and target (R131). -/
theorem State.decides_of_own {g : Guard} {a : VAddr} {s : State} (hdec : s.me.ctl.dec = none) :
    s.decides g a = (guardHolds g s.me, a) := by
  rw [State.decides, hdec]

/-- In broadcast the decision and the target of the leading rank hold (R131). -/
theorem State.decides_of_leading {g : Guard} {a : VAddr} {it : Item} {s : State} (hdec : s.me.ctl.dec = some it) :
    s.decides g a = (it.taken, it.target) := by
  rw [State.decides, hdec]

theorem execHold_of_holds {f : CI} {s : State} (h : guardHolds f.gk.g s.me = true) :
    exec (.hold f) s = .next (s.modMe (fun h =>
      { h with sched := { h.sched with hold := f.imm.toNat, holdAt := h.ctl.pc } })).ok :=
  show execHold f s = _ from guarded_of_holds h

/-- Settles O24: a branch and the call beside it go by one decision, which is the hart's own or that of the leading
rank. -/
theorem branchesMoveControl : Obligations.BranchesMoveControl := by
  intro n h f r s rel reg back jump link stay
  have hmoves {g : Guard} {target : State → VAddr} {br call : Instr} (hbr : exec br s = branchTo g false target s)
      (hcall : exec call s = branchTo g true target s) {taken : Bool} {a : VAddr}
      (hd : s.decides g (target s) = (taken, a)) :
      (taken = true → jump br a ∧ link call a) ∧ (taken = false → stay br ∧ stay call) := by
    refine ⟨?_, ?_⟩
    · rintro rfl
      exact ⟨hbr.trans (branchTo_of_taken hd), hcall.trans (branchTo_of_taken hd)⟩
    · rintro rfl
      exact ⟨hbr.trans (branchTo_of_not_taken hd), hcall.trans (branchTo_of_not_taken hd)⟩
  have hrel {taken : Bool} {a : VAddr} (hd : s.decides f.gk.g rel = (taken, a)) :=
    hmoves (br := .br f) (call := .call f) (target := fun s => s.me.relTarget f.disp) rfl rfl hd
  have hreg {taken : Bool} {a : VAddr} (hd : s.decides r.gk.g reg = (taken, a)) :=
    hmoves (br := .brR r) (call := .callR r) (target := fun s => (s.me.regs.sReg r.a).truncate 57) rfl rfl hd
  refine ⟨rfl, fun hguard => ⟨_, execHold_of_holds hguard, rfl⟩, fun hdec => ?_, fun it hdec => ?_⟩
  · obtain ⟨hgo, hon⟩ := hrel (State.decides_of_own hdec)
    obtain ⟨hgoR, honR⟩ := hreg (State.decides_of_own hdec)
    exact ⟨hgo, hgoR, hon, honR⟩
  · obtain ⟨hgo, hon⟩ := hrel (State.decides_of_leading hdec)
    obtain ⟨hgoR, honR⟩ := hreg (State.decides_of_leading hdec)
    refine ⟨fun ht => ?_, fun ht => ?_⟩
    · obtain ⟨hbr, hcall⟩ := hgo ht
      exact ⟨hbr, hcall, hgoR ht⟩
    · obtain ⟨hbr, hcall⟩ := hon ht
      exact ⟨hbr, hcall, honR ht⟩

end Sys2Proof.Machine
end

section
/-! The vector slot: logic, selection and shifts (R145), functions (R147), conversions (R148), quantisation (R149) and
constants (R150). -/

namespace Sys2Proof.Machine

/-! ### Logic, selection and shifts -/

theorem vectorTakes_of_bitwise {i : Instr} {f : VF} {op : BitVec 32 → BitVec 32 → BitVec 32} {s : State}
    (he : exec i s = bitwise i f op s) (h : TreadReady f.g i s) :
    VectorTakes i 2 f.d (vecWords (s.me.vBase + 64 * f.d.toNat) (s.me.regs.mReg f.m) f.z
      (fun l => op (s.me.vLane f.a.toNat l) (s.me.vLane f.b.toNat l))) s :=
  vectorTakes_of_writeV (he.trans (vaSlot_of_ready h))

theorem elementsTake_of_writeElems {i : Instr} {L : Nat} {f : VF} {w : Nat} {g : Nat → Nat} {s : State}
    (h : exec i s = s.writeElems L f w g) : ElementsTake i L f w g s :=
  vectorTakes_of_writeV h

/-- Settles O40: each bitwise instruction is one operation on whole lanes, and the selection and the shifts write what
the statement gives for each lane and element. -/
theorem vectorLogicAndShiftsCompute : Obligations.VectorLogicAndShiftsCompute := by
  intro f s la lb ea eb bits
  have hbits {i : Instr} (op : BitVec 32 → BitVec 32 → BitVec 32) (he : exec i s = bitwise i f op s) :
      bits i (fun l => op (la l) (lb l)) := vectorTakes_of_bitwise he
  exact ⟨hbits (fun a b => a &&& b) rfl, hbits (fun a b => a ||| b) rfl, hbits (fun a b => a ^^^ b) rfl,
    hbits (fun a _ => ~~~a) rfl, hbits (fun a _ => a) rfl, fun h => vectorTakes_of_writeV (vaSlot_of_ready h),
    fun h => elementsTake_of_writeElems (vaSlot_of_ready h), fun h => elementsTake_of_writeElems (vaSlot_of_ready h)⟩

/-! ### Functions -/

theorem elementsTake_of_transcendental {i : Instr} {f : VF} {g : FVal → FVal} {s : State}
    (he : exec i s = transcendental i f g s) (h : TreadReady f.g i s) :
    ElementsTake i 12 f f.width (fun l => f.fmt.enc f.mode (g (f.fmt.val (s.me.vElem f.a.toNat f.width l)))) s :=
  elementsTake_of_writeElems (he.trans (vaSlot_of_ready h))

/-! ### Quantisation -/

/-- An element of 32 bits is a lane. -/
theorem Hart.vElem_lane (h : Hart) (n l : Nat) : h.vElem n 32 l = (h.vLane n l).toNat := by
  simp [Hart.vElem, Nat.mod_eq_of_lt (h.vLane n l).isLt]

/-- The scale of a group record is no number that can divide: it is zero, infinite or NaN (R149). -/
def scaleUnusable : FVal → Bool
  | .fin _ n _ => n = 0
  | _ => true

/-- The element of format code `q` that a value becomes under a group record (R149). -/
def quantElem (q : Nat) (rm : RM) (gr : FVal × Int) (x : FVal) : Nat :=
  if scaleUnusable gr.1 then (if (codeFmt q).isNone then wrapBits (codeWidth q) gr.2 else 0)
  else if (codeFmt q).isNone then codeEnc q rm (FVal.add rm (FVal.div x gr.1) (.ofInt gr.2))
  else codeEnc q rm (FVal.div x gr.1)

/-- The value of an element of format code `q` under a group record (R149; log entry 108). -/
def dequantVal (q : Nat) (gr : FVal × Int) (e : Nat) : FVal :=
  match codeFmt q with
  | some F => FVal.mul gr.1 (F.val e)
  | none => match gr.1 with
    | .fin .. => FVal.mul gr.1 (.ofInt (signedOf (codeWidth q) e - gr.2))
    | _ => .nan

theorem execVquant_of_ready {f : VF} {s : State} (h : TreadReady f.g (.vquant f) s) :
    exec (.vquant f) s = s.writeElems 4 f (codeWidth f.b.toNat) (fun l => if 64 ≤ l then 0 else
      quantElem f.b.toNat f.mode (groupRec f.b.toNat (s.me.vLane f.c.toNat l).toNat)
        (fp32.val (s.me.vLane f.a.toNat l).toNat)) :=
  (vaSlot_of_ready h).trans rfl

theorem execVdequant_of_ready {f : VF} {s : State} (h : TreadReady f.g (.vdequant f) s) :
    exec (.vdequant f) s = s.writeElems 4 f 32 (fun l => fp32.enc f.mode
      (dequantVal f.b.toNat (groupRec f.b.toNat (s.me.vLane f.c.toNat l).toNat)
        (s.me.vElem f.a.toNat (codeWidth f.b.toNat) l))) :=
  (vaSlot_of_ready h).trans rfl

section
variable {q : Nat} {rm : RM} {gr : FVal × Int} {x : FVal} {sg : Bool} {n d e : Nat}

theorem quantElem_of_integer (h : gr.1 = .fin sg n d) (hn : n ≠ 0) (hq : (codeFmt q).isNone = true) :
    quantElem q rm gr x = codeEnc q rm (FVal.add rm (FVal.div x gr.1) (.ofInt gr.2)) := by
  simp [quantElem, scaleUnusable, h, hn, hq]

theorem quantElem_of_float (h : gr.1 = .fin sg n d) (hn : n ≠ 0) (hq : (codeFmt q).isNone = false) :
    quantElem q rm gr x = codeEnc q rm (FVal.div x gr.1) := by
  simp [quantElem, scaleUnusable, h, hn, hq]

/-- Under a scale that is no positive or negative finite number, the zero point, or 0 in a floating format. -/
theorem quantElem_of_unusable (h : scaleUnusable gr.1 = true) :
    quantElem q rm gr x = if (codeFmt q).isNone then wrapBits (codeWidth q) gr.2 else 0 :=
  if_pos h

theorem scaleUnusable_of_zero {y : FVal} (h : y = .fin sg 0 d) : scaleUnusable y = true := by
  rw [h]
  rfl

theorem scaleUnusable_of_not_fin {y : FVal} (h : ∀ sg n d, y ≠ .fin sg n d) : scaleUnusable y = true := by
  cases y with
  | fin sg n d => exact absurd rfl (h sg n d)
  | nan | inf _ => rfl

theorem dequantVal_of_float {F : Fmt} (h : codeFmt q = some F) : dequantVal q gr e = FVal.mul gr.1 (F.val e) := by
  rw [dequantVal, h]

theorem dequantVal_of_integer (hq : codeFmt q = none) (h : gr.1 = .fin sg n d) :
    dequantVal q gr e = FVal.mul gr.1 (.ofInt (signedOf (codeWidth q) e - gr.2)) := by
  rw [dequantVal, hq, h]

theorem dequantVal_of_not_fin (hq : codeFmt q = none) (h : ∀ sg n d, gr.1 ≠ .fin sg n d) :
    dequantVal q gr e = .nan := by
  rw [dequantVal, hq]
  cases hy : gr.1 with
  | fin sg n d => exact absurd hy (h sg n d)
  | nan | inf _ => rfl

end

/-- Settles O42: a function is one correctly rounded value for each element, and the elements of the quantisations go by
the format code and by the scale of their group. -/
theorem vectorFunctionsAndConversions : Obligations.VectorFunctionsAndConversions := by
  intro f s el fn group
  have hfn {i : Instr} {g : FVal → FVal} (he : exec i s = transcendental i f g s) : fn i g :=
    elementsTake_of_transcendental he
  have hlane (l : Nat) : el 32 l = (s.me.vLane f.a.toNat l).toNat := Hart.vElem_lane ..
  refine ⟨hfn rfl, hfn rfl, hfn rfl, hfn rfl, hfn rfl, hfn rfl, hfn rfl, hfn rfl,
    fun h => elementsTake_of_writeElems (vaSlot_of_ready h),
    fun h => ⟨_, elementsTake_of_writeElems (execVquant_of_ready h), fun l hl => if_pos hl, ?_, ?_, ?_, ?_⟩,
    fun h => ⟨_, elementsTake_of_writeElems (execVdequant_of_ready h), ?_, ?_, ?_⟩,
    fun h => elementsTake_of_writeElems (vaSlot_of_ready h)⟩
  · intro l sg n d hl hscale hn hq
    rw [hlane]
    exact (if_neg (not_le.mpr hl)).trans (quantElem_of_integer hscale hn hq)
  · intro l sg n d hl hscale hn hq
    rw [hlane]
    exact (if_neg (not_le.mpr hl)).trans (quantElem_of_float hscale hn hq)
  · intro l sg d hl hscale
    exact (if_neg (not_le.mpr hl)).trans (quantElem_of_unusable (scaleUnusable_of_zero hscale))
  · intro l hl hscale
    exact (if_neg (not_le.mpr hl)).trans (quantElem_of_unusable (scaleUnusable_of_not_fin hscale))
  · intro l F hF
    exact congrArg _ (dequantVal_of_float hF)
  · intro l sg n d hq hscale
    exact congrArg _ (dequantVal_of_integer hq hscale)
  · intro l hq hscale
    exact congrArg _ (dequantVal_of_not_fin hq hscale)

end Sys2Proof.Machine
end

section
/-! The mould (R173 to R179): its opening and cancelling, the draws, and the decision of `accept`. -/

namespace Sys2Proof.Machine

/-! ### The shadow -/

/-- Units copied into an empty map read as they do in the map they come from. -/
theorem get_putAll_copies {base n k : Nat} {m : NMap (BitVec 32)} (hk : k < n) :
    NMap.get 0#32 (base + k) (NMap.putAll 0#32
      ((List.range n).map (fun j => (base + j, NMap.get 0#32 (base + j) m))) []) = NMap.get 0#32 (base + k) m := by
  have hcopies : ∀ e ∈ (List.range n).map (fun j => (base + j, NMap.get 0#32 (base + j) m)),
      e.2 = NMap.get 0#32 e.1 m := by
    intro e he
    obtain ⟨j, -, rfl⟩ := List.mem_map.mp he
    rfl
  have hnamed : ∃ e ∈ (List.range n).map (fun j => (base + j, NMap.get 0#32 (base + j) m)), e.1 = base + k :=
    ⟨_, List.mem_map.mpr ⟨k, List.mem_range.mpr hk, rfl⟩, rfl⟩
  rw [NMap.get_putAll_of_function (g := fun u => NMap.get 0#32 u m) hcopies rfl, if_pos hnamed]

/-- The state after the mould over `count` vector registers from `first` on has opened. -/
def State.mouldOpened (first count : Nat) (s : State) : State :=
  let base := s.me.vBase + 64 * first
  let shadow := NMap.putAll 0#32 ((List.range (64 * count)).map (fun k =>
    (base + k, NMap.get 0#32 (base + k) s.me.regs.space))) []
  s.modMe (fun h => { h.setOut .ok with units := { h.units with
    mould := { h.units.mould with mode := .opened, first := first, count := count, shadow := shadow } } })

theorem execMouldOpen_of_closed {f : CR} {s : State} (h : Ready f.gk.g (.mouldOpen f) s)
    (hclosed : s.me.units.mould.mode = .closed)
    (hflight : s.me.inFlight (s.me.runKey f.a.toNat (f.imm.toNat + 1)) = false) :
    exec (.mouldOpen f) s = .next (s.mouldOpened f.a.toNat (f.imm.toNat + 1)) :=
  (ctSlot_of_ready h).trans (if_neg (not_or.mpr ⟨not_not.mpr hclosed, ne_true_of_eq_false hflight⟩))

/-! ### Draws -/

theorem State.writeV_of_allowed {L : Nat} {d : BitVec 6} {ws : List (Nat × BitVec 32)} {s : State}
    (h : s.me.vecWriteBad d.toNat (ws.map (·.1)) = false) :
    s.writeV L d ws = .next (s.withResult L 5 d.toNat [.space (s.me.shadowed d.toNat) ws]) :=
  if_neg (ne_true_of_eq_false h)

/-- The bits that `accept` decides: a lane is accepted when it is active and its proposal is (R178). -/
theorem getLsbD_foldl_lanes {m : Word} {p : Nat → Bool} {l : Nat} (hl : l < 64) :
    (BitVec.ofNat 64 ((lanes m).foldl (fun a l => a + (p l).toNat * 2 ^ l) 0)).getLsbD l = (m.getLsbD l && p l) := by
  have hbits : (lanes m).foldl (fun a l => a + (p l).toNat * 2 ^ l) 0
      = (List.range 64).foldl (fun a l => a + (m.getLsbD l && p l).toNat * 2 ^ l) 0 := by
    rw [lanes, List.foldl_filter]
    congr 1
    funext a l
    cases m.getLsbD l <;> simp
  rw [hbits, BitVec.getLsbD_ofNat, (testBit_foldl_bits (fun l => m.getLsbD l && p l) 64).2 l]
  simp [hl]

/-- Settles O30: each instruction goes on under its premises; the shadow is a copy, and a bit that `accept` writes is
that of an active lane whose proposal is accepted. -/
theorem mouldOpensDrawsAndCloses : Obligations.MouldOpensDrawsAndCloses := by
  intro r n f s
  refine ⟨fun h hclosed hflight => ?_, fun h => ?_, fun h => ?_, fun h hmode hflight hbusy => ?_⟩
  · exact ⟨_, execMouldOpen_of_closed h hclosed hflight, rfl, rfl, rfl, fun k hk => get_putAll_copies hk,
      rfl, rfl, rfl, rfl, rfl, rfl, rfl, rfl, rfl⟩
  · have hexec : exec (.mouldCancel n) s = execMouldCancel n s := rfl
    rw [execMouldCancel, ctSlot_of_ready h] at hexec
    refine ⟨fun hmode => ?_, fun hmode => ?_, fun hmode hflight => ?_⟩
    · rw [hexec, hmode]
      rfl
    · rw [hexec, hmode]
    · rw [hexec, hmode, hflight]
      rfl
  · intro m draws v ws hbad
    have hexec : exec (.vrng f) s = (if draws then s.modMe (Hart.advanceDraws m) else s).writeV
        (if draws then 8 else 2) f.d ws := (vaSlot_of_ready h).trans (if_neg (ne_true_of_eq_false hbad))
    refine ⟨fun hd => ?_, fun hd => ?_⟩
    · rw [hexec, if_pos hd, if_pos hd]
      exact State.writeV_of_allowed hbad
    · rw [hexec, if_neg hd, if_neg hd]
      exact State.writeV_of_allowed hbad
  · have hidle : (List.range (64 * s.me.units.mould.count)).any (fun k =>
        s.me.tileBusy (s.me.vBase + 64 * s.me.units.mould.first + k)) = false :=
      List.any_eq_false.mpr fun k hk => ne_true_of_eq_false (hbusy k (List.mem_range.mp hk))
    refine ⟨_, fun l hl => getLsbD_foldl_lanes hl, (vaSlot_of_ready h).trans (if_neg ?_)⟩
    simp [hmode, hflight, hidle]

end Sys2Proof.Machine
end

section
/-! The matrix slot: clears, moves and conversion of accumulators, the latch and the operand maps (R159, R165, R166,
R169, R170). -/

namespace Sys2Proof.Machine

/-! ### Issue -/

theorem State.mxIssue_issued (t : Nat × Nat) (kind reg : Nat) (release : Bool) (tile : Option Nat) (job : Option MxJob)
    (effs : Option (List Eff)) (s : State) :
    MatrixIssued t.1 t.2 kind reg effs s (s.mxIssue t kind reg release tile job effs) :=
  ⟨⟨rfl, rfl, rfl, rfl, rfl, rfl, rfl, rfl⟩, rfl, rfl, ⟨_, rfl, rfl, rfl⟩, [], rfl, nofun⟩

/-- A change of the units changes nothing of what says that an operation has issued. -/
theorem MatrixIssued.withUnits {occ lat kind reg : Nat} {effs : Option (List Eff)} {s t : State}
    (h : MatrixIssued occ lat kind reg effs s t) (u : Hart → Units) :
    MatrixIssued occ lat kind reg effs s (t.modMe fun h => { h with units := u h }) := h

theorem any_shadowKey_eq_false {h : Hart} {ks : List Nat} (hk : ∀ k ∈ ks, h.shadowKey k = false) :
    ks.any h.shadowKey = false :=
  List.any_eq_false.mpr fun k hmem => ne_true_of_eq_false (hk k hmem)

/-- The address, the stride and the rows are in order, so that the meaning goes on in the vault that the address
names. -/
theorem inVaultRanges_of_rowsReady {f : MF} {k : Nat → Sem} {s : State} (h : AccumulatorRowsReady f s) :
    accAddrBad ((s.me.regs.sReg f.a).toNat % 2 ^ 57) (s.me.regs.sReg f.b).toNat s.me = false ∧
    ∃ t d, s.vaultTarget ((s.me.regs.sReg f.a).toNat % 2 ^ 57) = some (t, d) ∧
      inVaultRanges ((s.me.regs.sReg f.a).toNat % 2 ^ 57)
        (accRows (s.me.regs.sReg f.b).toNat s.me.shape.1 s.me.shape.2.1) k s
        = k (apertureBase t.place.chip t.place.pos + (s.me.regs.sReg f.a).toNat % 2 ^ 57 % 2 ^ 23) s := by
  obtain ⟨haddr, t, d, ht, hr⟩ := h
  exact ⟨haddr, t, d, ht, inVaultRanges_of_held ht hr⟩

/-! ### Rows on their way to a vault -/

/-- The result in flight that is row `i` of an `acc.st`, by the state before its rows; when it lands is free (log entry
22). -/
def State.rowPend (L : Nat) (pa : Nat → Nat) (row : Nat → List Byte) (s : State) (i : Nat) : Pend :=
  { seq := s.me.iss.seq + i, left := 1 + Config.freeNat (s.free + i) % L, origin := s.me.ctl.pc, kind := 0, reg := 0,
    effs := some [.vault (s.me.iss.seq + i) (pa i) (row i)] }

/-- A state with the first `n` rows of an `acc.st` in flight. -/
def State.withRows (L : Nat) (pa : Nat → Nat) (row : Nat → List Byte) (n : Nat) (s : State) : State :=
  { s with
    me := { s.me with
      sched := { s.me.sched with pipe := s.me.sched.pipe ++ (List.range n).map (s.rowPend L pa row) },
      iss := { s.me.iss with seq := s.me.iss.seq + n } },
    free := s.free + n }

/-- Rows that are sent one after the other. -/
theorem State.foldl_push_rows (L : Nat) (pa : Nat → Nat) (row : Nat → List Byte) (n : Nat) (s : State) :
    (List.range n).foldl (fun s i =>
      let (x, s) := s.fresh
      s.modMe (fun h => h.push (1 + x % L) 0 0 (some [.vault h.iss.seq (pa i) (row i)]))) s
      = s.withRows L pa row n := by
  induction n with
  | zero => simp [State.withRows]
  | succ n ih =>
    rw [List.range_succ, List.foldl_append, ih]
    simp [State.withRows, State.fresh, State.modMe, Hart.push, State.rowPend, List.range_succ, Nat.add_assoc]

/-- Nor do rows that follow it. -/
theorem MatrixIssued.withRows {occ lat kind reg : Nat} {effs : Option (List Eff)} {s t : State}
    (h : MatrixIssued occ lat kind reg effs s t) (L : Nat) (pa : Nat → Nat) (row : Nat → List Byte) (n : Nat) :
    MatrixIssued occ lat kind reg effs s (t.withRows L pa row n) := by
  obtain ⟨hsame, hspr, hout, hunit, l, hpipe, hl⟩ := h
  refine ⟨hsame, hspr, hout, hunit, l ++ (List.range n).map (t.rowPend L pa row), ?_, ?_⟩
  · simp [State.withRows, hpipe]
  · intro e he
    obtain he | he := List.mem_append.mp he
    · exact hl e he
    · obtain ⟨i, -, rfl⟩ := List.mem_map.mp he
      rfl

theorem State.rowPend_left_pos (L : Nat) (pa : Nat → Nat) (row : Nat → List Byte) (s : State) (i : Nat) :
    0 < (s.rowPend L pa row i).left :=
  Nat.lt_add_right _ Nat.one_pos

/-- A row lands within the latency. -/
theorem State.rowPend_left_le {L : Nat} (hL : 0 < L) (pa : Nat → Nat) (row : Nat → List Byte) (s : State) (i : Nat) :
    (s.rowPend L pa row i).left ≤ L := by
  have hlt : Config.freeNat (s.free + i) % L < L := Nat.mod_lt _ hL
  dsimp only [State.rowPend]
  omega

/-- The bytes of row `i` of an accumulator, of `n` columns. -/
def Hart.accRow (ac n : Nat) (h : Hart) (i : Nat) : List Byte :=
  (List.range n).flatMap (fun j => toBytes 4 (NMap.get 0#32 (h.aKey ac i j) h.regs.space).toNat)

theorem execAccSt_of_ready {f : MF} {s : State} (h : MatrixReady (.accSt f) f s) (hrows : AccumulatorRowsReady f s) :
    let sa := (s.me.regs.sReg f.a).toNat % 2 ^ 57
    let time := mxTime (32, 40) (64, 72) s.me
    ∃ t d, s.vaultTarget sa = some (t, d) ∧ exec (.accSt f) s = .next
      ((s.mxIssue time 8 f.ac.toNat false none none (some (sigEffs f.ws))).withRows time.2
        (rowAt (apertureBase t.place.chip t.place.pos + sa % 2 ^ 23) (s.me.regs.sReg f.b).toNat)
        (s.me.accRow f.ac.toNat s.me.shape.2.1) s.me.shape.1) := by
  obtain ⟨haddr, t, d, ht, hk⟩ := inVaultRanges_of_rowsReady hrows
  exact ⟨t, d, ht, mxSlot_of_ready h ((if_neg (ne_true_of_eq_false haddr)).trans (hk.trans
    (congrArg _ (State.foldl_push_rows ..))))⟩

/-! ### The operand maps -/

/-- The state after an `om.set`. -/
def State.omapSet (f : MF) (s : State) : State :=
  (s.mxIssue (1, 1) 8 0 false none none (some (sigEffs f.ws))).modMe (fun h => { h with units := { h.units with
    om := NMap.put { base := 0, desc := 0 } f.om.toNat { base := s.me.regs.sReg f.a, desc := s.me.regs.sReg f.b }
      h.units.om } })

/-- The operands of an `om.set` clear the map, or the fields of the new one are in order (R159). -/
def OperandMapReady (f : MF) (s : State) : Prop :=
  let base := (s.me.regs.sReg f.a).toNat % 2 ^ 57
  let desc := s.me.regs.sReg f.b
  desc.getLsbD 63 = false ∨
    wbits 62 48 desc = 0 ∧ wbits 15 0 desc % 64 = 0 ∧ inVault base = true ∧ base % 64 = 0 ∧
      ∃ t d, s.vaultTarget base = some (t, d) ∧ base % 2 ^ 23 < vaultSize t.place.chip

theorem execOmSet_of_ready {f : MF} {s : State} (h : MatrixReady (.omSet f) f s) (hfields : OperandMapReady f s) :
    exec (.omSet f) s = .next (s.omapSet f) := by
  cases hset : (s.me.regs.sReg f.b).getLsbD 63 with
  | false =>
    refine mxSlot_of_ready h (if_pos ?_)
    rw [hset]
    rfl
  | true =>
    obtain hclear | ⟨hzero, hstride, hin, halign, tg, d, ht, hsize⟩ := hfields
    · exact nomatch hset.symm.trans hclear
    refine mxSlot_of_ready h ((if_neg ?_).trans ((if_neg ?_).trans ?_))
    · rw [hset]
      decide
    · rw [hin]
      simp only [hzero, hstride, halign]
      decide
    · simp only [ht]
      exact if_neg (not_le.mpr hsize)

/-- Settles O47: the checks of each form pass under its premises, and what it leaves is its issue, with the rows of an
`acc.st` behind it. -/
theorem accumulatorAndMapOperations : Obligations.AccumulatorAndMapOperations := by
  intro f s time ac moved conv m n sa sb w elem tiles at_ row
  refine ⟨?_, fun h hrows hshadow => ?_, fun h hrows => ?_, fun h hm hn hshadow => ?_, fun h => ?_,
    fun h hfields => ⟨_, execOmSet_of_ready h hfields, .withUnits (State.mxIssue_issued ..) _, rfl⟩⟩
  · intro h hshadow u
    have hkeys : ¬(s.me.accKeys ac 64 128).any s.me.shadowKey = true :=
      ne_true_of_eq_false (any_shadowKey_eq_false hshadow)
    exact ⟨_, mxSlot_of_ready h (if_neg hkeys), rfl, State.mxIssue_issued ..⟩
  · obtain ⟨haddr, tg, d, ht, hk⟩ := inVaultRanges_of_rowsReady hrows
    refine ⟨_, _, _, mxSlot_of_ready h ((if_neg ?_).trans hk), rfl, State.mxIssue_issued .., rfl, rfl, rfl, rfl, rfl,
      rfl, rfl, rfl, fun tg' d' ht' => ?_⟩
    · exact ne_true_of_eq_false (Bool.or_eq_false_iff.mpr ⟨haddr, any_shadowKey_eq_false hshadow⟩)
    · obtain ⟨rfl, -⟩ : tg = tg' ∧ d = d' := by simpa using ht.symm.trans ht'
      exact ⟨rfl, rfl⟩
  · obtain ⟨tg, d, ht, hexec⟩ := execAccSt_of_ready h hrows
    refine ⟨_, _, (List.range m).map _, hexec, rfl, .withRows (State.mxIssue_issued ..) .., List.append_assoc .., by simp,
      fun tg' d' ht' i hi => ?_⟩
    obtain ⟨rfl, -⟩ : tg = tg' ∧ d = d' := by simpa using ht.symm.trans ht'
    have hpos : 0 < moved.2 := by
      cases hvat : s.me.isVat <;> simp [moved, time, hvat]
    refine ⟨_, _, by rw [List.getElem?_map, List.getElem?_range hi]; rfl, State.rowPend_left_pos ..,
      State.rowPend_left_le hpos .., ?_, rfl⟩
    exact Nat.lt_add_right i (Nat.lt_succ_self _)
  · have hkeys : (tiles.map (·.1)).any s.me.shadowKey = false :=
      any_shadowKey_eq_false (List.forall_mem_map.mpr hshadow)
    refine ⟨_, mxSlot_of_ready h (if_neg ?_), rfl, State.mxIssue_issued ..⟩
    exact not_or.mpr ⟨not_lt.mpr hm, not_or.mpr ⟨not_lt.mpr hn, ne_true_of_eq_false hkeys⟩⟩
  · exact ⟨_, mxSlot_of_ready h rfl, rfl, .withUnits (State.mxIssue_issued ..) _⟩

end Sys2Proof.Machine
end

section
/-! The load-store slot: when an access goes on, what a load that has been sent leaves, and the vector and tile loads
and gathers (R222 to R231, R386). -/

namespace Sys2Proof.Machine

/-! ### The slot -/

/-- An access whose premises hold does what it means, traps and freezes among that. -/
theorem lsSlot_of_ready {i : Instr} {g : Guard} {k : Sem} {s t : State} (h : AccessReady g i s) (hk : k s = .next t) :
    lsSlot i g k s = .next t := by
  obtain ⟨⟨hguard, hcheck⟩, hfree⟩ := h
  rw [lsSlot, kernelOk_of_none hcheck, guarded_of_holds hguard]
  exact waitsOn_of_met hk (by simp [hfree])

section
variable {acc : Acc} {ranges : State → List (Nat × Nat)} {mis : State → Option Nat} {k : List Piece → Sem} {s : State}
  {ps : List Piece} {va : Nat}

theorem accessing_of_aligned (hps : s.pieces acc s.me.level (ranges s) = .ok ps) (hmis : mis s = none) :
    accessing acc ranges mis k s = k ps s := by
  simp only [accessing, hps, hmis]

theorem accessing_of_misaligned (hps : s.pieces acc s.me.level (ranges s) = .ok ps) (hmis : mis s = some va) :
    accessing acc ranges mis k s = s.misaligned va := by
  simp only [accessing, hps, hmis]

end

/-! ### Alignment -/

/-- The lowest of the addresses that are not aligned. -/
theorem min?_filter_eq_some {l : List Nat} {p : Nat → Bool} {a : Nat} (ha : a ∈ l) (hp : p a = true)
    (hle : ∀ b ∈ l, p b = true → a ≤ b) : (l.filter p).min? = some a := by
  rw [List.min?_eq_some_iff]
  refine ⟨List.mem_filter.mpr ⟨ha, hp⟩, fun b hb => ?_⟩
  obtain ⟨hmem, hodd⟩ := List.mem_filter.mp hb
  exact hle b hmem hodd

theorem lowestOdd_eq_some {l : List Nat} {a : Nat} (ha : a ∈ l) (hodd : a % 4 ≠ 0)
    (hle : ∀ b ∈ l, b % 4 ≠ 0 → a ≤ b) : lowestOdd l = some a :=
  min?_filter_eq_some ha (decide_eq_true hodd) fun b hb hp => hle b hb (of_decide_eq_true hp)

theorem lowestOdd_eq_none {l : List Nat} (h : ∀ a ∈ l, a % 4 = 0) : lowestOdd l = none := by
  simpa [lowestOdd, List.min?_eq_none_iff] using h

theorem tileAligned_of_lowestOddRow {va stride a : Nat} (h : LowestOddRow va stride a) :
    tileAligned va stride = some a := by
  obtain ⟨hodd, ⟨i, hi, rfl⟩, hle⟩ := h
  refine min?_filter_eq_some (List.mem_map.mpr ⟨i, List.mem_range.mpr hi, rfl⟩) (decide_eq_true hodd) fun b hb hp => ?_
  obtain ⟨j, hj, rfl⟩ := List.mem_map.mp hb
  exact hle j (List.mem_range.mp hj) (of_decide_eq_true hp)

theorem tileAligned_of_multiples {va stride : Nat} (hva : va % 64 = 0) (hstride : stride % 64 = 0) :
    tileAligned va stride = none := by
  have hrow (i : Nat) : (va + i * stride) % 2 ^ 57 % 64 = 0 := by
    have hdvd : 64 ∣ va + i * stride :=
      dvd_add (Nat.dvd_of_mod_eq_zero hva) (dvd_mul_of_dvd_right (Nat.dvd_of_mod_eq_zero hstride) i)
    rw [Nat.mod_mod_of_dvd _ (by decide)]
    exact Nat.mod_eq_zero_of_dvd hdvd
  rw [tileAligned, List.min?_eq_none_iff, List.filter_eq_nil_iff]
  intro a ha
  obtain ⟨i, -, rfl⟩ := List.mem_map.mp ha
  simp only [hrow]
  decide

/-! ### Loads -/

/-- Requests that leave the package change its links and what it awaits from outside, and nothing else. -/
theorem State.sendPieces_frame (ps : List Piece) (s : State) : ∃ free links exts,
    (State.sendPieces ps s).2 = { s with free := free, hub := { s.hub with links := links, exts := exts } } := by
  induction ps generalizing s with
  | nil => exact ⟨_, _, _, rfl⟩
  | cons p ps ih =>
    simp only [State.sendPieces]
    split
    next far _ =>
      obtain ⟨free, links, exts, h⟩ := ih (s.sendOut far p.pa p.len false).2
      exact ⟨free, links, exts, h⟩
    next => exact ih s

/-- What R222 and R227 say of a load that has been sent is what `sendLoad` leaves. -/
theorem State.sendLoad_sent (L kind reg occ : Nat) (dest : LoadDest) (ps : List Piece) (s : State) :
    LoadSent L kind reg occ dest ps s (s.sendLoad L kind reg occ dest ps) := by
  obtain ⟨free, links, exts, hsent⟩ := State.sendPieces_frame ps s.fresh.2
  obtain ⟨⟨tags, u⟩, hu⟩ : ∃ r, State.sendPieces ps s.fresh.2 = r := ⟨_, rfl⟩
  obtain rfl : u = _ := (congrArg Prod.snd hu).symm.trans hsent
  simp only [State.sendLoad, hu]
  exact ⟨⟨rfl, rfl, rfl, rfl, rfl, rfl, rfl, rfl⟩, rfl, rfl, rfl, rfl, rfl, rfl, rfl, _, rfl, rfl, rfl, rfl, rfl, rfl,
    rfl⟩

/-! ### Accesses that stop between lanes -/

/-- The hart freezes and awaits the translation; nothing that software sees changes. -/
theorem State.awaitXlat_frozen (w : Want) (s : State) :
    (s.awaitXlat w).me.iss.out = .frozen ∧
    (s.awaitXlat w).me.lsu.want.any (fun v => v.va = w.va && v.acc = w.acc) = true ∧
    (s.awaitXlat w).me.spr = s.me.spr ∧ (s.awaitXlat w).me.regs = s.me.regs ∧ (s.awaitXlat w).ring = s.ring := by
  unfold State.awaitXlat
  extract_lets same
  split
  next hsame =>
    refine ⟨rfl, ?_, rfl, rfl, rfl⟩
    cases hw : s.me.lsu.want <;> simp_all [same]
  next => exact ⟨rfl, by simp [State.freezeFor], rfl, rfl, rfl⟩

/-- The fields of a word of `PIX` (R386). -/
theorem wbits_pixWord {kind count : Nat} (hkind : kind < 8) (hcount : count < 2 ^ 32) :
    wbits 54 52 (BitVec.ofNat 64 (kind * 2 ^ 52 + count)) = kind ∧
    wbits 31 0 (BitVec.ofNat 64 (kind * 2 ^ 52 + count)) = count := by
  have hword : (BitVec.ofNat 64 (kind * 2 ^ 52 + count)).toNat = kind * 2 ^ 52 + count := by
    rw [BitVec.toNat_ofNat]
    exact Nat.mod_eq_of_lt (by omega)
  rw [wbits, wbits, bitsOf, bitsOf, hword, Nat.shiftRight_eq_div_pow, Nat.shiftRight_eq_div_pow]
  omega

/-- The hart with another word in `PIX`. -/
def Hart.withPix (x : Word) (h : Hart) : Hart := { h with spr := { h.spr with pix := x } }

/-- The lanes that `PIX` counts of a gather or a scatter (R386). -/
def Hart.lanesDone (kind : Nat) (h : Hart) : Nat :=
  if wbits 54 52 h.spr.pix = kind then wbits 31 0 h.spr.pix else 0

/-- A stop writes one word to `PIX` and awaits the translation. -/
theorem State.stopLanes_eq_awaitXlat (kind n : Nat) (w : Want) (s : State) :
    s.stopLanes kind n w = ({ s with free := s.free + 1 }.modMe (Hart.withPix
      (BitVec.ofNat 64 (kind * 2 ^ 52 + (s.me.lanesDone kind + n) % 2 ^ 32)))).awaitXlat w := rfl

/-- Whatever word counts the lanes, that is all that software sees change. -/
theorem State.stopped_of_pix {kind : Nat} {ps : List Piece} {w : Want} {s t : State} {x : Word}
    (hkind : wbits 54 52 x = kind) (hcount : wbits 31 0 x = (s.me.lanesDone kind + ps.length) % 2 ^ 32)
    (hregs : t.me.regs = s.me.regs) (hmem : t.hub.mem = s.hub.mem) (hring : t.ring = s.ring) :
    Stopped kind ps w s (({ t with free := t.free + 1 }.modMe (Hart.withPix x)).awaitXlat w) := by
  obtain ⟨hout, hwant, hspr, hkept, hothers⟩ :=
    State.awaitXlat_frozen w ({ t with free := t.free + 1 }.modMe (Hart.withPix x))
  have hpix := congrArg Sprs.pix hspr
  exact ⟨(congrArg _ hpix).trans hkind, (congrArg _ hpix).trans hcount, hout, hwant, hkept.trans hregs,
    (State.awaitXlat_hub_mem ..).trans hmem, hothers.trans hring⟩

/-- A gather or scatter that has stopped, after what the lanes before have done: `PIX` counts them (R386). -/
theorem State.stopLanes_stopped {kind : Nat} {ps : List Piece} {w : Want} {s t : State} (hkind : kind < 8)
    (hspr : t.me.spr = s.me.spr) (hregs : t.me.regs = s.me.regs) (hmem : t.hub.mem = s.hub.mem)
    (hring : t.ring = s.ring) : Stopped kind ps w s (t.stopLanes kind ps.length w) := by
  have hdone : t.me.lanesDone kind = s.me.lanesDone kind := by rw [Hart.lanesDone, hspr, Hart.lanesDone]
  have hlt : (s.me.lanesDone kind + ps.length) % 2 ^ 32 < 2 ^ 32 := Nat.mod_lt _ (by positivity)
  obtain ⟨hk, hcount⟩ := wbits_pixWord hkind hlt
  rw [State.stopLanes_eq_awaitXlat, hdone]
  exact State.stopped_of_pix hk hcount hregs hmem hring

/-- So it is where the lanes before were sent as a load. -/
theorem LoadSent.stopLanes_stopped {L kind reg occ pix : Nat} {dest : LoadDest} {qs ps : List Piece} {w : Want}
    {s t : State} (h : LoadSent L kind reg occ dest qs s t) (hpix : pix < 8) :
    Stopped pix ps w s (t.stopLanes pix ps.length w) := by
  obtain ⟨⟨hregs, hring, hmem, -⟩, hspr, -⟩ := h
  exact State.stopLanes_stopped hpix hspr hregs hmem hring

/-- An access whose lanes all translate stops at none. -/
theorem State.stopsAfter_of_ok {acc : Acc} {ls : List Nat} {ps : List Piece} {at_ : Nat → Nat} {s : State}
    (h : s.pieces acc s.me.level (ls.map (fun l => (at_ l, 4))) = .ok ps) : s.stopsAfter acc (ls.map at_) = none := by
  have hranges : (ls.map at_).map (fun a => (a, 4)) = ls.map (fun l => (at_ l, 4)) := List.map_map ..
  simp only [State.stopsAfter, hranges, h]

/-- Settles O34: a write that may not issue traps before the address is resolved; then an address that is not aligned
traps, or the load is sent; and a gather that stops has sent the lanes before. -/
theorem vectorAndTileLoadsAreSent : Obligations.VectorAndTileLoadsAreSent := by
  intro f g s
  refine ⟨fun h => ?_, fun h => ?_, fun h => ?_, fun h hbad => lsSlot_of_ready h (if_pos hbad), fun h => ?_⟩
  · intro va act base keys zeros ps hps hbad
    have hgo := ne_true_of_eq_false hbad
    refine ⟨fun hodd => ?_, fun heven => ⟨_, ?_, State.sendLoad_sent ..⟩⟩
    · exact lsSlot_of_ready h ((if_neg hgo).trans (accessing_of_misaligned hps (if_neg hodd)))
    · exact lsSlot_of_ready h ((if_neg hgo).trans (accessing_of_aligned hps (if_pos heven)))
  · intro act base hbad
    exact lsSlot_of_ready h (if_pos hbad)
  · intro va st keys ps hps hbad
    have hgo := ne_true_of_eq_false hbad
    refine ⟨fun hva hst => ⟨_, ?_, State.sendLoad_sent ..⟩, fun a ha => ?_⟩
    · exact lsSlot_of_ready h ((if_neg hgo).trans (accessing_of_aligned hps (tileAligned_of_multiples hva hst)))
    · exact lsSlot_of_ready h ((if_neg hgo).trans (accessing_of_misaligned hps (tileAligned_of_lowestOddRow ha)))
  · dsimp only
    refine ⟨fun hbad => lsSlot_of_ready h (if_pos hbad), fun ps w hstop hbad => ?_, fun ps hps hbad => ?_⟩
    · refine ⟨_, lsSlot_of_ready h ((if_neg (ne_true_of_eq_false hbad)).trans (by simp only [hstop]; rfl)), ?_⟩
      exact (State.sendLoad_sent ..).stopLanes_stopped (by decide)
    · have hgo := ne_true_of_eq_false hbad
      have hnone := State.stopsAfter_of_ok hps
      refine ⟨fun l hl hodd hle => ?_, fun heven => ?_⟩
      · refine lsSlot_of_ready h ((if_neg hgo).trans ?_)
        simp only [hnone]
        exact accessing_of_misaligned hps
          (lowestOdd_eq_some (List.mem_map_of_mem hl) hodd (List.forall_mem_map.mpr hle))
      · refine ⟨_, lsSlot_of_ready h ((if_neg hgo).trans ?_), rfl, _, rfl, State.sendLoad_sent ..⟩
        simp only [hnone]
        exact accessing_of_aligned hps (lowestOdd_eq_none (List.forall_mem_map.mpr heven))

end Sys2Proof.Machine
end
section
/-! Scalar loads (R222 to R225, R227): what the slot does with an address that translates, faults or is forbidden. -/

namespace Sys2Proof.Machine

section
variable {acc : Acc} {ranges : State → List (Nat × Nat)} {mis : State → Option Nat} {k : List Piece → Sem} {s : State}
  {a va : Nat} {x : XFault}

theorem accessing_of_fault (h : s.pieces acc s.me.level (ranges s) = .fault x va) :
    accessing acc ranges mis k s = s.xlatFault x acc va := by
  simp only [accessing, h]

theorem accessing_of_vault (h : s.pieces acc s.me.level (ranges s) = .vault va) (hmis : mis s = none) :
    accessing acc ranges mis k s = s.vaultFault va := by
  simp only [accessing, h, hmis]

theorem accessing_of_vault_misaligned (h : s.pieces acc s.me.level (ranges s) = .vault va) (hmis : mis s = some a) :
    accessing acc ranges mis k s = s.misaligned a := by
  simp only [accessing, h, hmis]

end

/-- What the slot does with a scalar load of `w` bytes, whichever instruction it is. -/
def ScalarLoadSent (f : LO) (s : State) (i : Instr) (w : Nat) (signed : Bool) : Prop :=
  AccessReady f.g i s →
  let va := loEa f s.me
  let r := s.pieces .load s.me.level (splitLines va w)
  (∀ ps, r = .ok ps → va % w = 0 → ∃ t, exec i s = .next t ∧
    LoadSent (lsLat 8 20 14 (s.lsClass va)) 1 f.d.toNat 1 (.scalar f.d w signed) ps s t) ∧
  (∀ ps, r = .ok ps → va % w ≠ 0 → exec i s = s.misaligned va) ∧
  (∀ x a, r = .fault x a → exec i s = s.xlatFault x .load a) ∧
  (∀ a, r = .vault a → va % w = 0 → exec i s = s.vaultFault a) ∧
  (∀ a, r = .vault a → va % w ≠ 0 → exec i s = s.misaligned va)

theorem scalarLoadSent_of_exec {f : LO} {s : State} {i : Instr} {w : Nat} {signed : Bool}
    (hexec : exec i s = scalarLoad i w signed f s) : ScalarLoadSent f s i w signed := by
  intro h
  rw [hexec]
  refine ⟨fun ps hps heven => ⟨_, ?_, State.sendLoad_sent ..⟩, fun ps hps hodd => ?_, fun x a hx => ?_,
    fun a ha heven => ?_, fun a ha hodd => ?_⟩
  · exact lsSlot_of_ready h (accessing_of_aligned hps (if_pos heven))
  · exact lsSlot_of_ready h (accessing_of_misaligned hps (if_neg hodd))
  · exact lsSlot_of_ready h (accessing_of_fault hx)
  · exact lsSlot_of_ready h (accessing_of_vault ha (if_pos heven))
  · exact lsSlot_of_ready h (accessing_of_vault_misaligned ha (if_neg hodd))

/-- Settles O32: the seven loads are one load with a width and a sign. -/
theorem scalarLoadsAreSent : Obligations.ScalarLoadsAreSent := by
  intro f s
  exact ⟨scalarLoadSent_of_exec rfl, scalarLoadSent_of_exec rfl, scalarLoadSent_of_exec rfl,
    scalarLoadSent_of_exec rfl, scalarLoadSent_of_exec rfl, scalarLoadSent_of_exec rfl, scalarLoadSent_of_exec rfl⟩

end Sys2Proof.Machine
end
section
/-! `copy.check` and `sig.wr` (R207, R242, R247): the answer by the promised operations, and the signal write that is
queued, refused or faulted. -/

namespace Sys2Proof.Machine

/-! ### `copy.check` -/

/-- The operations that a time promises. -/
def Hart.promisedBy (p : Nat) (h : Hart) : List EngOp := h.units.eng.filter (fun o => o.promise ≤ p)

theorem any_unfinished_eq_false {ops : List EngOp} (h : ∀ o ∈ ops, o.stat = .done ∨ o.stat = .failed) :
    ops.any EngOp.unfinished = false := by
  rw [List.any_eq_false]
  intro o ho
  rcases h o ho with hs | hs <;> simp [EngOp.unfinished, hs]

section
variable {f : EF} {s : State} (h : EngineReady (.copyCheck f) f s)
include h

theorem execCopyCheck_of_ended (hended : (s.me.promisedBy (s.me.regs.sReg f.a).toNat).any EngOp.unfinished = false)
    {bad : Bool} (hbad : (s.me.promisedBy (s.me.regs.sReg f.a).toNat).any (fun o => o.stat = .failed) = bad) :
    exec (.copyCheck f) s = .next (s.withResult 3 1 f.d.toNat (.s f.d (if bad then 1 else 0) ::
      ((if bad then [] else [.seen (s.me.regs.sReg f.a).toNat]) ++ sigEffs f.ws))) := by
  refine ecSlot_of_ready h ?_
  rw [Hart.promisedBy] at hended hbad
  simp only [hended, hbad]
  rfl

theorem execCopyCheck_of_unfinished
    (hrun : (s.me.promisedBy (s.me.regs.sReg f.a).toNat).any EngOp.unfinished = true) :
    exec (.copyCheck f) s = .next (State.withResult 3 1 f.d.toNat
      (.s f.d (BitVec.ofNat 64 (s.hub.clk + 2 + Config.freeNat s.free)) :: sigEffs f.ws)
      { s with free := s.free + 1 }) :=
  ecSlot_of_ready h (if_pos hrun)

end

/-! ### `sig.wr` -/

/-- The signal word's write, on its way to its home. -/
def State.sigWrite (f : EF) (p : Piece) (s : State) : State :=
  (s.queueWrite p.device (s.me.addrReg f.a) p.pa
    (.signal (f.q.getLsbD 0) (s.me.regs.sReg f.b) (sigOpt f.ws)) false).ok

/-- A signal write waits in the package for its turn (R247), so that none of it leaves at issue. -/
theorem State.sigWrite_sent (f : EF) (p : Piece) (s : State) : Untouched s (s.sigWrite f p) ∧
    (s.sigWrite f p).me.iss.out = .ok ∧ ∃ x, (s.sigWrite f p).me.lsu.writes = s.me.lsu.writes ++ [x] ∧ x.pa = p.pa ∧
      x.va = s.me.addrReg f.a ∧ x.kind = .signal (f.q.getLsbD 0) (s.me.regs.sReg f.b) (sigOpt f.ws) :=
  ⟨⟨rfl, rfl, rfl, rfl, rfl, rfl, rfl, rfl⟩, rfl, _, rfl, rfl, rfl, rfl⟩

section
variable {f : EF} {s : State} (h : EngineReady (.sigWr f) f s)
include h

theorem execSigWr_of_vault (hva : inVault (s.me.addrReg f.a) = true) (heven : s.me.addrReg f.a % 8 = 0) :
    exec (.sigWr f) s = s.vaultFault (s.me.addrReg f.a) :=
  ecSlot_of_ready h (by simp only [hva, heven]; rfl)

theorem execSigWr_of_piece {p : Piece} (hva : inVault (s.me.addrReg f.a) = false)
    (hp : s.pieces .atomic s.me.level [(s.me.addrReg f.a, 8)] = .ok [p]) (heven : s.me.addrReg f.a % 8 = 0) :
    exec (.sigWr f) s = .next (if s.me.spr.hyp ≠ 0 then (s.modMe (Hart.setPending 1)).ok else s.sigWrite f p) := by
  refine ecSlot_of_ready h ?_
  rw [if_neg (ne_true_of_eq_false hva), accessing_of_aligned hp (if_pos heven)]
  exact (apply_ite Host.Outcome.next _ _ _).symm

end

/-- Settles O50: an ended check answers by whether one has failed, another with a later promise; a signal write is
queued under the root and refused under a hypothesis. -/
theorem copyChecksAndSignalWrites : Obligations.CopyChecksAndSignalWrites := by
  intro f s
  dsimp only
  refine ⟨fun h => ⟨fun hdone => ?_, fun hended ⟨o, ho, hfailed⟩ => ?_, fun hrun => ?_⟩,
    fun h => ⟨fun p hva hp heven => ?_, execSigWr_of_vault h⟩⟩
  · exact execCopyCheck_of_ended h (any_unfinished_eq_false fun o ho => .inl (hdone o ho)) (bad := false)
      (List.any_eq_false.mpr fun o ho => by simp [hdone o ho])
  · exact execCopyCheck_of_ended h (any_unfinished_eq_false hended) (bad := true)
      (List.any_eq_true.mpr ⟨o, ho, decide_eq_true hfailed⟩)
  · refine ⟨_, ?_, execCopyCheck_of_unfinished h (List.any_eq_true.mpr hrun)⟩
    omega
  · have hexec := execSigWr_of_piece h hva hp heven
    refine ⟨fun hhyp => ⟨_, hexec.trans (by rw [if_pos hhyp]), ?_⟩, fun hhyp => ?_⟩
    · refine ⟨⟨rfl, rfl, rfl, rfl, rfl, rfl, rfl, rfl⟩, rfl, ?_, rfl⟩
      simp
    · obtain ⟨hun, hout, x, hx⟩ := State.sigWrite_sent f p s
      exact ⟨_, x, hexec.trans (by rw [if_neg (not_not.mpr hhyp)]), hun, hout, hx⟩

end Sys2Proof.Machine
end
section
/-! Fences (R203, R204, R206), `mon.wait` (R235) and `flush.region` (R238): how each waits, and what it leaves as it
issues. -/

namespace Sys2Proof.Machine

/-! ### What a read at the home changes -/

/-- A version with another lease. -/
def Version.withRts (r : Version → Nat) (v : Version) : Version := { v with rts := (r v) }

/-- What a read at the home can leave: other states of lines, side caches and leases of versions. -/
def Hub.withReads (ls : NMap LineMeta) (ds : Vector Stack 12) (r : Version → Nat) (hb : Hub) : Hub :=
  { hb with lines := ls, dram := ds, versions := hb.versions.map (Version.withRts r) }

/-- A read at the home changes the state of lines, the side caches and the leases of versions, and nothing else. -/
theorem Hub.readAt_frame (part node a n t : Nat) (hb : Hub) : ∃ ls ds r,
    hb.readAt part node a n t = hb.withReads ls ds r := by
  obtain ⟨ls, ds, e⟩ := hb.readLine_frame (a / 128)
  rw [Hub.readAt, e]
  obtain ⟨ns, hns⟩ : ∃ ns, Hub.reads { hb with lines := ls, dram := ds } part node a n = ns := ⟨_, rfl⟩
  have hmap : (fun v : Version => if v.part = part ∧ v.line = a / 128 ∧ (ns.contains v.node = true) then
      { v with rts := Nat.max v.rts t } else v) = Version.withRts (fun v =>
        if v.part = part ∧ v.line = a / 128 ∧ (ns.contains v.node = true) then Nat.max v.rts t else v.rts) := by
    funext v
    simp only [Version.withRts]
    split <;> rfl
  simp only [Hub.protect, hns, hmap]
  split
  · exact ⟨_, ds, _, rfl⟩
  · exact ⟨ls, ds, _, rfl⟩

/-- The bytes of versions do not depend on their leases. -/
theorem Hub.visByte_withReads (ls : NMap LineMeta) (ds : Vector Stack 12) (r : Version → Nat) (part node a : Nat)
    (hb : Hub) : (hb.withReads ls ds r).visByte part node a = hb.visByte part node a := by
  have hbyte (n : Nat) : ((hb.withReads ls ds r).version part n (a / 128)).bind
      (fun v => NMap.get none (a % 128) v.bytes) =
        (hb.version part n (a / 128)).bind (fun v => NMap.get none (a % 128) v.bytes) := by
    simp only [Hub.version, Hub.withReads, List.find?_map, Option.bind_map]
    rfl
  simp only [Hub.visByte, hbyte]
  rfl

theorem Hub.visBytes_readAt (part node a n t p m b k : Nat) (hb : Hub) :
    (hb.readAt part node a n t).visBytes p m b k = hb.visBytes p m b k := by
  obtain ⟨ls, ds, r, e⟩ := hb.readAt_frame part node a n t
  simp only [Hub.visBytes, e, Hub.visByte_withReads]

theorem Hub.watchHolds_readAt (part node a n t : Nat) (w : Watch) (hb : Hub) :
    (hb.readAt part node a n t).watchHolds w = hb.watchHolds w := by
  simp only [Hub.watchHolds, Hub.watchWord, Hub.visBytes_readAt]

/-! ### Fences -/

/-- The status of a fence is the pending status; a fence that has run into its limit has TIMEOUT pending
(R204, R206). -/
theorem fenceStatus_pending : ∀ p : BitVec 5, fenceStatus p (p.getLsbD 4) = BitVec.ofNat 64 (p.toNat % 32) := by
  decide

section
variable {f : LB} {s : State} (h : AccessReady f.g (.fenceScope f) s)
include h

/-- What a fence leaves as it issues. -/
def State.fenced (f : LB) (s : State) : State :=
  (s.modMe (fun h => (h.occupyLs 1).raiseLt h.lsu.maxStamp)).modMe (fun h =>
    { (h.push 1 1 f.d.toNat (some [.s f.d (BitVec.ofNat 64 (s.me.units.pending.toNat % 32))])).setOut .ok with
      units := { h.units with pending := 0 },
      lsu := { h.lsu with fenceSince := none } })

theorem execFenceScope_of_done (hdone : s.hub.fenceDone f.sc.toNat s.me = true ∨ s.me.units.pending.getLsbD 4 = true) :
    exec (.fenceScope f) s = .next (s.fenced f) := by
  refine lsSlot_of_ready h ((if_pos (by simpa using hdone)).trans ?_)
  rw [fenceStatus_pending]
  rfl

theorem execFenceScope_of_waiting (hwait : s.hub.fenceDone f.sc.toNat s.me = false)
    (htimeout : s.me.units.pending.getLsbD 4 = false) : exec (.fenceScope f) s = .next ((s.stall false).modMe (fun h =>
      { h with lsu := { h.lsu with fenceSince := some (h.lsu.fenceSince.getD s.hub.clk) } })) :=
  lsSlot_of_ready h (if_neg (by rw [hwait, htimeout]; decide))

end

/-! ### `mon.wait` -/

/-- A check at the home that finds the condition (R235). -/
theorem State.monCheck_of_holds {lt : Nat} {w : Watch} {s : State} (hread : s.hub.readFailure w.pa = 0)
    (hhere : (s.hub.loc w.pa).outside = none) (hexcl : s.hub.exclusive (lineOf w.pa) = none)
    (hholds : s.hub.watchHolds w = true) :
    let n := if w.d64 then 8 else 4
    let t := s.hub.seenAt w.part w.node (locOf w.pa) n
    s.monCheck lt w = (.satisfied t,
      { s with hub := s.hub.readAt w.part w.node (locOf w.pa) n (Nat.max lt t) }) := by
  have hrecall : s.recallOf (lineOf w.pa) = none := by simp only [State.recallOf, hexcl]
  simp only [State.monCheck, hread, hhere, hrecall, Hub.watchHolds_readAt, hholds]
  rfl

/-- A `mon.wait` that is satisfied issues (R235). -/
def State.monDone (t : Nat) (s : State) : State := s.modMe (fun h =>
  { ((h.raiseLt t).occupyLs 1).setOut .ok with lsu := { h.lsu with mon := .none } })

section
variable {f : LB} {s : State} (h : AccessReady f.g (.monWait f) s) (hva : inVault (lbEa f s.me) = false)
include h hva

theorem execMonWait_of_stand {m : Mon} {t : State} (hm : s.me.lsu.mon = m) (hne : m ≠ .none)
    (ht : s.monStand m = .next t) : exec (.monWait f) s = .next t := by
  refine lsSlot_of_ready h ((if_neg (ne_true_of_eq_false hva)).trans ?_)
  rw [hm]
  cases m with
  | none => exact absurd rfl hne
  | _ => exact ht

theorem execMonWait_of_first_check {p : Piece} (hm : s.me.lsu.mon = .none)
    (hp : s.pieces .monWait s.me.level (splitLines (lbEa f s.me) (amoWidth f)) = .ok [p])
    (heven : lbEa f s.me % amoWidth f = 0) {t : Nat} {u : State}
    (hcheck : s.monCheck s.me.spr.lt (monEntry f (lbEa f s.me) p.pa s.me) = (.satisfied t, u)) :
    exec (.monWait f) s = .next (u.monDone t) := by
  refine lsSlot_of_ready h ((if_neg (ne_true_of_eq_false hva)).trans ?_)
  simp only [hm]
  rw [accessing_of_aligned hp (if_pos heven)]
  simp only [hcheck]
  rfl

end

/-! ### `flush.region` -/

section
variable {f : LB} {s : State} (h : AccessReady f.g (.flushRegion f) s)
include h

theorem execFlushRegion_of_empty (hflush : s.me.lsu.flush = none) (hlen : s.me.regs.sReg f.b = 0)
    (hbacks : s.backs f.sc.toNat = []) :
    exec (.flushRegion f) s = .next (s.modMe (fun h => (h.occupyLs 1).clearPix)).issuedBare := by
  refine lsSlot_of_ready h ?_
  simp [hflush, hlen, State.flushLines, hbacks]
  rfl

theorem execFlushRegion_of_stamped {ws : List (HartId × Nat)} (hflush : s.me.lsu.flush = some ws)
    (hdone : ∀ e ∈ ws, s.unstamped e = false) : exec (.flushRegion f) s = .next
      (s.modMe (fun h => { (h.occupyLs 1).clearPix with lsu := { h.lsu with flush := none } })).issuedBare := by
  have hany : ws.any (fun e => s.unstamped e) = false := List.any_eq_false.mpr fun e he => by simp [hdone e he]
  refine lsSlot_of_ready h ?_
  simp only [hflush, hany]
  rfl

theorem execFlushRegion_of_unstamped {ws : List (HartId × Nat)} (hflush : s.me.lsu.flush = some ws)
    (hwait : ∃ e ∈ ws, s.unstamped e = true) : exec (.flushRegion f) s = .next (s.stall false) := by
  have hany : ws.any (fun e => s.unstamped e) = true := List.any_eq_true.mpr hwait
  refine lsSlot_of_ready h ?_
  simp only [hflush, hany]
  rfl

end

/-- Settles O38: each of the three by what it finds, the waits of a scope, a monitor that stands somewhere, or
write-backs on their way. -/
theorem fencesMonitorsAndFlushes : Obligations.FencesMonitorsAndFlushes := by
  intro f s
  refine ⟨fun h => ⟨fun hdone => ?_, fun hwait htimeout => ?_⟩, fun h hva => ?_,
    fun h => ⟨execFlushRegion_of_empty h, fun ws => execFlushRegion_of_stamped h, fun ws =>
      execFlushRegion_of_unstamped h⟩⟩
  · exact ⟨_, execFenceScope_of_done h hdone, rfl, rfl, rfl, rfl, rfl, rfl, rfl⟩
  · exact ⟨_, execFenceScope_of_waiting h hwait htimeout, rfl, ⟨rfl, rfl, rfl, rfl, rfl, rfl, rfl, rfl⟩, rfl⟩
  · refine ⟨fun p hm hp heven => ?_, fun w hm => ?_, fun hm => ?_⟩
    · intro e hread hhere hexcl hholds
      have hcheck := State.monCheck_of_holds (lt := s.me.spr.lt) hread hhere hexcl hholds
      refine ⟨_, execMonWait_of_first_check h hva hm hp heven hcheck, rfl, rfl, rfl, rfl, ?_, rfl, rfl⟩
      exact Hub.readAt_mem ..
    · exact ⟨_, execMonWait_of_stand h hva hm Mon.noConfusion rfl, rfl, rfl, rfl, rfl, rfl, rfl, rfl⟩
    · exact ⟨_, execMonWait_of_stand h hva hm Mon.noConfusion rfl, rfl,
        ⟨rfl, rfl, rfl, rfl, rfl, rfl, rfl, rfl⟩⟩

end Sys2Proof.Machine
end
section
/-! Two entries for one line in the table of lines. A line without an entry has the times of `LineMeta.zero`, and so has
one whose first entry is `LineMeta.zero`. A read at the home writes that value back, which removes the first entry
(`NMap.put`), and the second one shows: the times that a fill caches are not those that the line had before. -/

namespace Sys2Proof.Machine

namespace SecondEntry

/-- An attached tread of the first Vat at level M, with the address of line 2 in `s1`. -/
def tread : Hart :=
  let h := Hart.zero (.tread 1 0 0) { chip := 8, flight := 0, pos := 0 } .attached 0x1000
  { h with
    spr := { h.spr with plv := 2, flw := 1, gang := 0x100, prof := 1, vwv := 0x40, vwt := 0x408, vwa := 0x204 }
    regs := h.regs.setS 1 0x100 }

/-- The tread acts, its Vat holds the first region, and line 2 has two entries. -/
def start : State :=
  { State.reset with
    me := tread
    hub := { Hub.zero with
      mon := { MonRegs.zero with hbmcap := 64 }, regions := [(0, 0)]
      lines := [(2, LineMeta.zero), (2, { LineMeta.zero with wts := 5 })] } }

/-- The operands of an access of the address in `s1`. -/
def operands : LO := ⟨⟨false, 0⟩, 0, false, false, 0, 0, 1, 3⟩

/-- Line 2 as the acting hart caches it after an outcome. -/
def cached : Host.Outcome State Fault Refusal → Option LeaseLine
  | .next t => t.me.leaseLine 0 0 2
  | _ => none

theorem seenWts_start : start.hub.seenWts 0 0 2 = 0 := by decide +kernel

theorem leaseLine_start : start.me.leaseLine 0 0 2 = none := rfl

theorem exclusive_start : start.hub.exclusive 2 = none := rfl

/-- The line that a store fills first shows the time of the second entry. -/
theorem cached_store : (cached (exec (.stB operands) start)).map LeaseLine.wts = some 5 := by decide +kernel

/-- So does the line that a prefetch fills. -/
theorem cached_prefetch : (cached (exec (.pf operands) start)).map LeaseLine.wts = some 5 := by decide +kernel

/-- An outcome whose cached line has the time of line 2 before does not have the time of the second entry. -/
theorem absurd_of_cached {o : Host.Outcome State Fault Refusal} {t : State} {l : LeaseLine}
    (hsecond : (cached o).map LeaseLine.wts = some 5) (ho : o = .next t) (hl : t.me.leaseLine 0 0 2 = some l)
    (hwts : l.wts = start.hub.seenWts 0 0 2) : False := by
  have hcached : (cached o).map LeaseLine.wts = some l.wts := by rw [ho, cached, hl]; rfl
  rw [hsecond, hwts, seenWts_start] at hcached
  exact absurd hcached (by decide)

end SecondEntry

open SecondEntry

/-- Refutes O33 by its clause for a line that is made non-coherent: `l.wts = seen` where the line is filled first. In
`SecondEntry.start` the fill shows the time 5 where the line showed 0 before. The table of lines there is not the
canonical map that a run keeps, but no premise of the clause excludes it. -/
theorem not_scalarStoresAreSent : ¬ Obligations.ScalarStoresAreSent := by
  unfold Obligations.ScalarStoresAreSent
  intro h
  obtain ⟨hstB, -⟩ := h operands start ⟨0x100, 0x100, 1, .mem false⟩
  obtain ⟨-, -, hfill, -⟩ := hstB ⟨⟨rfl, rfl⟩, rfl⟩ (by decide +kernel) (by decide +kernel) rfl
    (by decide +kernel) (by decide +kernel)
  obtain ⟨t, l, hexec, hl, -, -, -, hwts, -⟩ := hfill rfl (by decide +kernel) (by decide +kernel)
    (fun _ => exclusive_start) (by decide +kernel) (by decide)
      (fun l hl => absurd (leaseLine_start.symm.trans hl) nofun)
  exact absurd_of_cached cached_store hexec hl (hwts leaseLine_start).2

/-- Refutes O36 by its last clause: `l.wts` there is the time that the line had before the prefetch, and in
`SecondEntry.start` the fill shows the time 5 where the line showed 0. The table of lines there is not the canonical map
that a run keeps, but no premise of the clause excludes it. -/
theorem not_prefetchNeverTraps : ¬ Obligations.PrefetchNeverTraps := by
  unfold Obligations.PrefetchNeverTraps
  intro h
  obtain ⟨-, -, hfill⟩ := h operands start ⟨⟨rfl, rfl⟩, rfl⟩
  obtain ⟨t, l, hexec, hl, hwts, -⟩ := hfill 0x100 (by decide +kernel) (by decide +kernel) (by decide +kernel) rfl
    (by decide +kernel) (by decide +kernel) exclusive_start (fun l hl => absurd (leaseLine_start.symm.trans hl) nofun)
  exact absurd_of_cached cached_prefetch hexec hl hwts

end Sys2Proof.Machine
end
section
/-! What a store sends (R185, R190, R210, R215): the write that a hart queues for the home of a line, the write-back of
dirty bytes of its own before an atomic, and the atomics and reductions themselves (R232, R233, R234). -/

namespace Sys2Proof.Machine

/-! ### Requests over links -/

/-- A link that may have more to send, and is otherwise the same. -/
def Link.SameRoute (l m : Link) : Prop := m.trained = l.trained ∧ m.dead = l.dead ∧ m.far = l.far

/-- The route to a package does not depend on what waits on the links (R40). -/
theorem Hub.linkTo_withLinks {hb : Hub} {ls : Vector Link 8} (h : ∀ k : Fin 8, (hb.links[k]).SameRoute ls[k])
    (exts : List Ext) (n : Nat) : Hub.linkTo { hb with links := ls, exts := exts } n = hb.linkTo n := by
  simp only [Hub.linkTo]
  congr 1
  funext k
  obtain ⟨htrained, hdead, hfar⟩ := h k
  simp only [htrained, hdead, hfar]

theorem Hub.loc_withRoutes {hb : Hub} {ls : Vector Link 8} (h : ∀ k : Fin 8, (hb.links[k]).SameRoute ls[k])
    (exts : List Ext) (pa : Nat) : Hub.loc { hb with links := ls, exts := exts } pa = hb.loc pa := by
  simp only [Hub.loc, Hub.linkTo_withLinks h]
  rfl

/-- A request that leaves the package waits on a link and is awaited; nothing else changes. -/
theorem State.sendOut_frame (far : Far) (pa len : Nat) (write : Bool) (s : State) : ∃ links exts,
    (∀ k : Fin 8, (s.hub.links[k]).SameRoute links[k]) ∧
    (s.sendOut far pa len write).2 =
      { s with free := s.free + 1, hub := { s.hub with links := links, exts := exts } } := by
  refine ⟨_, _, fun k => ?_, rfl⟩
  cases far with
  | link j =>
    dsimp only
    split
    next hj =>
      by_cases hjk : j = k
      · subst hjk
        simp [Link.SameRoute]
      · simp [Link.SameRoute, Vector.getElem_set_ne _ _ hjk]
    next => exact ⟨rfl, rfl, rfl⟩
  | _ => exact ⟨rfl, rfl, rfl⟩

/-! ### A queued write -/

/-- The state after one more write has been queued: the hart has numbered and queued it, and what waits on the links may
have changed. -/
def State.withWrite (free : Nat) (links : Vector Link 8) (exts : List Ext) (w : Write) (s : State) : State :=
  { s with
    free := free
    hub := { s.hub with links := links, exts := exts }
    me := { s.me with
      iss := { s.me.iss with seq := s.me.iss.seq + 1 }
      lsu := { s.me.lsu with writes := s.me.lsu.writes ++ [w] } } }

/-- One write is queued, under the node and with the address and the bytes that are given (R190, R215). -/
theorem State.queueUnder_eq (dev : Bool) (node va pa : Nat) (kind : WKind) (wide : Bool) (s : State) :
    ∃ free links exts w, (∀ k : Fin 8, (s.hub.links[k]).SameRoute links[k]) ∧
      s.queueUnder dev node va pa kind wide = s.withWrite free links exts w ∧
      w.pa = pa ∧ w.va = va ∧ w.kind = kind ∧ w.hyp = node ∧ w.dev = dev ∧ w.seq = s.me.iss.seq ∧
      w.part = s.me.partNo ∧ w.lvl = s.me.level := by
  unfold State.queueUnder
  extract_lets later
  dsimp only [State.fresh]
  split
  next f _ _ =>
    obtain ⟨links, exts, hroutes, hsent⟩ := State.sendOut_frame f pa 8 true { s with free := s.free + 1 }
    obtain ⟨⟨t, u⟩, hu⟩ : ∃ r, State.sendOut f pa 8 true { s with free := s.free + 1 } = r := ⟨_, rfl⟩
    obtain rfl : u = _ := (congrArg Prod.snd hu).symm.trans hsent
    simp only [hu]
    exact ⟨_, links, exts, _, hroutes, rfl, rfl, rfl, rfl, rfl, rfl, rfl, rfl, rfl⟩
  next =>
    exact ⟨_, s.hub.links, s.hub.exts, _, fun _ => ⟨rfl, rfl, rfl⟩, rfl, rfl, rfl, rfl, rfl, rfl, rfl, rfl, rfl⟩

/-! ### Dirty bytes before an atomic -/

/-- Dirty bytes of its own that a non-coherent line has are written back first (R210): of the hart, only the numbering
and the load-store unit change. -/
theorem State.backOwn_frame (va pa : Nat) (s : State) : ∃ free links exts seq lsu ws,
    (∀ k : Fin 8, (s.hub.links[k]).SameRoute links[k]) ∧
    s.backOwn va pa = { s with
      free := free, hub := { s.hub with links := links, exts := exts }
      me := { s.me with iss := { s.me.iss with seq := seq }, lsu := lsu } } ∧
    lsu.writes = s.me.lsu.writes ++ ws ∧ ∀ x ∈ ws, x.isBack = true ∧ x.hyp = 0 ∧ x.pa = pa / 128 * 128 := by
  have hsame : ∀ k : Fin 8, (s.hub.links[k]).SameRoute s.hub.links[k] := fun _ => ⟨rfl, rfl, rfl⟩
  simp only [State.backOwn]
  split
  next l _ =>
    split
    · obtain ⟨free, links, exts, w, hroutes, e, hpa, -, hkind, hhyp, -⟩ := State.queueUnder_eq false 0 (va / 128 * 128)
        (pa / 128 * 128) (.back (l.dirty.map (fun o => (o, l.bytes.getD o 0#8)))) false s
      rw [e]
      exact ⟨free, links, exts, _, _, [w], hroutes, rfl, rfl, by simp [Write.isBack, hkind, hhyp, hpa]⟩
    · exact ⟨_, s.hub.links, _, _, _, [], hsame, rfl, (List.append_nil _).symm, nofun⟩
  next => exact ⟨_, s.hub.links, _, _, _, [], hsame, rfl, (List.append_nil _).symm, nofun⟩

theorem State.backOwn_of_coherent {va pa : Nat} {s : State} (h : s.hub.nonCoherent s.me pa = false) :
    s.backOwn va pa = s := by
  simp only [State.backOwn, h]
  split <;> rfl

/-! ### Atomics and reductions -/

section
variable {i : Instr} {f : LB} {s : State} {p : Piece} {k : Piece → Sem}

/-- An atomic or a reduction whose address translates to one aligned piece of memory, with a version for it. -/
def AtomicMay (i : Instr) (f : LB) (p : Piece) (s : State) : Prop :=
  AccessReady f.g i s ∧ inVault (lbEa f s.me) = false ∧
    s.pieces .atomic s.me.level (splitLines (lbEa f s.me) (if f.q then 8 else 4)) = .ok [p] ∧
    lbEa f s.me % (if f.q then 8 else 4) = 0 ∧ s.versionWanted [p] = none

/-- The state in which an atomic or a reduction sends its request. -/
def State.atomicTurn (va pa : Nat) (s : State) : State :=
  (s.backOwn va pa).modMe (fun h => { h.occupyLs 1 with lsu := { h.lsu with verWait := none } })

theorem atomically_of_may (h : AtomicMay i f p s) (hwait : f.sc = 0 ∨ s.hub.fenceDone f.sc.toNat s.me = true)
    {t : State}
    (hk : k p (s.atomicTurn (lbEa f s.me) p.pa) = .next t) : atomically i f k s = .next t := by
  obtain ⟨hready, hva, hps, heven, hver⟩ := h
  have hgo : ¬(f.sc.toNat ≠ 0 ∧ (!s.hub.fenceDone f.sc.toNat s.me) = true) := by
    rintro ⟨hsc, hdone⟩
    obtain hzero | hover := hwait
    · exact hsc (by rw [hzero]; rfl)
    · simp [hover] at hdone
  refine lsSlot_of_ready hready ((if_neg (ne_true_of_eq_false hva)).trans ?_)
  rw [accessing_of_aligned hps (if_pos heven)]
  simp only [if_neg hgo, hver]
  exact hk

theorem atomically_of_waiting (h : AtomicMay i f p s) (hsc : f.sc ≠ 0)
    (hwait : s.hub.fenceDone f.sc.toNat s.me = false) : atomically i f k s = .next (s.stall false) := by
  obtain ⟨hready, hva, hps, heven, -⟩ := h
  have hstay : f.sc.toNat ≠ 0 ∧ (!s.hub.fenceDone f.sc.toNat s.me) = true :=
    ⟨fun hzero => hsc (BitVec.eq_of_toNat_eq hzero), by rw [hwait]; rfl⟩
  refine lsSlot_of_ready hready ((if_neg (ne_true_of_eq_false hva)).trans ?_)
  rw [accessing_of_aligned hps (if_pos heven)]
  exact if_pos hstay

theorem atomically_of_vault (h : AccessReady f.g i s) (hva : inVault (lbEa f s.me) = true)
    (heven : lbEa f s.me % (if f.q then 8 else 4) = 0) : atomically i f k s = s.vaultFault (lbEa f s.me) := by
  refine lsSlot_of_ready h ((if_pos hva).trans ?_)
  have haligned : notAligned (amoWidth f) (lbEa f s.me) = none := if_pos heven
  rw [haligned]
  rfl

end

/-- A status that a hart has pending (R204). -/
theorem Hart.pending_setPending {b : Nat} (h : Hart) (hb : b < 5) :
    (h.setPending b).units.pending.getLsbD b = true := by
  have hbit : ∀ c < 5, (BitVec.ofNat 5 (2 ^ c)).getLsbD c = true := by decide
  rw [Hart.setPending_pending, BitVec.getLsbD_or, hbit b hb, Bool.or_true]

/-- A tagged access is refused or not by its hypothesis and by what its address names (R215). -/
theorem State.tagRefused_congr {s t : State} {pa : Nat} (hhyp : t.me.spr.hyp = s.me.spr.hyp)
    (hloc : t.hub.loc pa = s.hub.loc pa) (hregion : t.hub.ncRegion pa = s.hub.ncRegion pa) :
    t.tagRefused pa = s.tagRefused pa := by
  simp only [State.tagRefused, hhyp, hloc, hregion]

theorem State.tagRefused_atomicTurn (va pa : Nat) (s : State) :
    (s.atomicTurn va pa).tagRefused pa = s.tagRefused pa := by
  obtain ⟨_, _, _, _, _, _, hroutes, hback, -⟩ := s.backOwn_frame va pa
  rw [State.atomicTurn, hback]
  exact State.tagRefused_congr rfl (Hub.loc_withRoutes hroutes ..) rfl

/-- What an atomic or a reduction waits for, and its vault fault (R183, R203). -/
def AtomicTurned (f : LB) (s : State) (p : Piece) (i : Instr) : Prop :=
  (AtomicMay i f p s → f.sc ≠ 0 → s.hub.fenceDone f.sc.toNat s.me = false → exec i s = .next (s.stall false)) ∧
  (AccessReady f.g i s → inVault (lbEa f s.me) = true → lbEa f s.me % (if f.q then 8 else 4) = 0 →
    exec i s = s.vaultFault (lbEa f s.me))

/-- What a returning atomic sends (R232, R234). -/
def AtomicSent (f : LB) (s : State) (p : Piece) (i : Instr) (op : AmoOp) : Prop :=
  let u := s.backOwn (lbEa f s.me) p.pa
  let waited : Prop := f.sc = 0 ∨ s.hub.fenceDone f.sc.toNat s.me = true
  (AtomicMay i f p s → waited → s.tagRefused p.pa = false → ∃ t x, exec i s = .next t ∧ Untouched s t ∧
    t.me.spr = s.me.spr ∧ t.me.lsu.writes = u.me.lsu.writes ++ [x] ∧ x.pa = p.pa ∧
    x.kind = .amo op f.q (amoWord f (s.me.regs.sReg f.b)) (amoWord f (s.me.regs.sReg f.d)) u.me.iss.seq f.d ∧
    x.hyp = s.me.spr.hyp.toNat ∧
    t.me.sched.pipe = s.me.sched.pipe ++ [⟨u.me.iss.seq, 128, s.me.ctl.pc, 1, f.d.toNat, none⟩] ∧
    t.me.iss.out = .ok) ∧
  (AtomicMay i f p s → waited → s.tagRefused p.pa = true →
    exec i s = .next ((s.atomicTurn (lbEa f s.me) p.pa).withResult 128 1 f.d.toNat [.memErr p.va 2])) ∧
  AtomicTurned f s p i

/-- What a reduction sends (R232, R233). -/
def ReductionSent (f : LB) (s : State) (p : Piece) (i : Instr) (op : AmoOp) : Prop :=
  let u := s.backOwn (lbEa f s.me) p.pa
  let waited : Prop := f.sc = 0 ∨ s.hub.fenceDone f.sc.toNat s.me = true
  (AtomicMay i f p s → waited → s.tagRefused p.pa = false → ∃ t x, exec i s = .next t ∧ Untouched s t ∧
    t.me.spr = s.me.spr ∧ t.me.lsu.writes = u.me.lsu.writes ++ [x] ∧ x.pa = p.pa ∧
    x.kind = .red op f.q (amoWord f (s.me.regs.sReg f.b)) ∧ x.hyp = s.me.spr.hyp.toNat ∧ t.me.sched = s.me.sched ∧
    t.me.iss.out = .ok) ∧
  (AtomicMay i f p s → waited → s.tagRefused p.pa = true →
    ∃ t, exec i s = .next t ∧ t.me.units.pending.getLsbD 1 = true ∧ t.me.iss.out = .ok ∧
      t.me.lsu.writes = u.me.lsu.writes ∧ t.me.sched = s.me.sched ∧ Untouched s t) ∧
  AtomicTurned f s p i

section
variable {f : LB} {s : State} {p : Piece} {i : Instr} {op : AmoOp}

theorem atomicTurned_of_exec {k : Piece → Sem} (hexec : exec i s = atomically i f k s) : AtomicTurned f s p i := by
  rw [AtomicTurned, hexec]
  exact ⟨atomically_of_waiting, atomically_of_vault⟩

theorem atomicSent_of_exec (hexec : exec i s = amo i op f s) : AtomicSent f s p i op := by
  obtain ⟨free, links, exts, seq, lsu, ws, -, hback, -⟩ := s.backOwn_frame (lbEa f s.me) p.pa
  have hrefused := s.tagRefused_atomicTurn (lbEa f s.me) p.pa
  refine ⟨fun hmay hwait hgo => ?_, fun hmay hwait hno => ?_, atomicTurned_of_exec hexec⟩
  · obtain ⟨free', links', exts', w, -, hqueue, hpa, -, hkind, hhyp, -⟩ :=
      ((s.atomicTurn (lbEa f s.me) p.pa).modMe (fun h => h.push 128 1 f.d.toNat none)).queueUnder_eq p.device
        (s.atomicTurn (lbEa f s.me) p.pa).me.spr.hyp.toNat p.va p.pa
        (.amo op f.q (amoWord f ((s.atomicTurn (lbEa f s.me) p.pa).me.regs.sReg f.b))
          (amoWord f ((s.atomicTurn (lbEa f s.me) p.pa).me.regs.sReg f.d))
          (s.atomicTurn (lbEa f s.me) p.pa).me.iss.seq f.d) false
    refine ⟨_, w, hexec.trans (atomically_of_may hmay hwait
      ((if_neg (by rw [hrefused, hgo]; decide)).trans (congrArg (fun u : State => Host.Outcome.next u.ok) hqueue))), ?_⟩
    simp only [State.atomicTurn, hback] at hkind hhyp ⊢
    exact ⟨⟨rfl, rfl, rfl, rfl, rfl, rfl, rfl, rfl⟩, rfl, rfl, hpa, hkind, hhyp, rfl, rfl⟩
  · exact hexec.trans (atomically_of_may hmay hwait ((if_pos (hrefused.trans hno)).trans rfl))

theorem reductionSent_of_exec (hexec : exec i s = red i op f s) : ReductionSent f s p i op := by
  obtain ⟨free, links, exts, seq, lsu, ws, -, hback, -⟩ := s.backOwn_frame (lbEa f s.me) p.pa
  have hrefused := s.tagRefused_atomicTurn (lbEa f s.me) p.pa
  refine ⟨fun hmay hwait hgo => ?_, fun hmay hwait hno => ?_, atomicTurned_of_exec hexec⟩
  · obtain ⟨free', links', exts', w, -, hqueue, hpa, -, hkind, hhyp, -⟩ :=
      (s.atomicTurn (lbEa f s.me) p.pa).queueUnder_eq p.device
        (s.atomicTurn (lbEa f s.me) p.pa).me.spr.hyp.toNat p.va p.pa
        (.red op f.q (amoWord f ((s.atomicTurn (lbEa f s.me) p.pa).me.regs.sReg f.b))) false
    refine ⟨_, w, hexec.trans (atomically_of_may hmay hwait
      ((if_neg (by rw [hrefused, hgo]; decide)).trans (congrArg (fun u : State => Host.Outcome.next u.ok) hqueue))), ?_⟩
    simp only [State.atomicTurn, hback] at hkind hhyp ⊢
    exact ⟨⟨rfl, rfl, rfl, rfl, rfl, rfl, rfl, rfl⟩, rfl, rfl, hpa, hkind, hhyp, rfl, rfl⟩
  · refine ⟨_, hexec.trans (atomically_of_may hmay hwait ((if_pos (hrefused.trans hno)).trans rfl)), ?_⟩
    simp only [State.atomicTurn, hback]
    exact ⟨Hart.pending_setPending _ (by decide), rfl, rfl, rfl, rfl, rfl, rfl, rfl, rfl, rfl, rfl, rfl⟩

end

/-- Settles O37: the ten atomics are one and the six reductions are one, each with its operation. -/
theorem atomicsAndReductionsAreSent : Obligations.AtomicsAndReductionsAreSent := by
  intro f s p
  obtain ⟨_, _, _, _, _, ws, -, hback, hwrites, hws⟩ := s.backOwn_frame (lbEa f s.me) p.pa
  refine ⟨State.backOwn_of_coherent, ⟨ws, by rw [hback]; exact hwrites, hws⟩,
    atomicSent_of_exec rfl, atomicSent_of_exec rfl, atomicSent_of_exec rfl, atomicSent_of_exec rfl,
    atomicSent_of_exec rfl, atomicSent_of_exec rfl, atomicSent_of_exec rfl, atomicSent_of_exec rfl,
    atomicSent_of_exec rfl, atomicSent_of_exec rfl, reductionSent_of_exec rfl, reductionSent_of_exec rfl,
    reductionSent_of_exec rfl, reductionSent_of_exec rfl, reductionSent_of_exec rfl, reductionSent_of_exec rfl⟩

end Sys2Proof.Machine
end
section
/-! Vector stores, tile stores and scatters (R187, R228, R229, R231): what sending a store leaves as it is, and that it
leaves the lease cache and the lines alone where no region is made non-coherent (R210). -/

namespace Sys2Proof.Machine

/-! ### The lease cache -/

/-- Room in the lease cache is made by the hart alone, which may write a line back (R25, R210). -/
theorem State.leaseRoom_frame (s : State) : ∃ free seq ws ls, s.leaseRoom = { s with
    free := free
    me := { s.me with iss := { s.me.iss with seq := seq }, lsu := { s.me.lsu with writes := ws, lease := ls } } } := by
  simp only [State.leaseRoom]
  split
  · exact ⟨_, _, _, _, rfl⟩
  · split
    · simp only [Hart.backLine]
      split <;> exact ⟨_, _, _, _, rfl⟩
    · exact ⟨_, _, _, _, rfl⟩

/-- A line is filled by a read at its home, and by the hart (R191). -/
theorem State.fillLine_frame (part node t pa n : Nat) (s : State) : ∃ lines ds r free seq ws ls,
    s.fillLine part node t pa n = { s with
      hub := s.hub.withReads lines ds r, free := free
      me := { s.me with
        iss := { s.me.iss with seq := seq }, lsu := { s.me.lsu with writes := ws, lease := ls } } } := by
  obtain ⟨lines, ds, r, hread⟩ := s.hub.readAt_frame part node (locOf pa) n (t + wbits 7 0 (s.hub.part part).ordc)
  simp only [State.fillLine, hread]
  obtain ⟨free, seq, ws, ls, hroom⟩ := State.leaseRoom_frame (State.modMe (fun h => { h with lsu := { h.lsu with
    lease := { line := lineOf pa, node := node, part := part
               bytes := (s.hub.withReads lines ds r).visBytes part node (lineOf pa * 128) 128
               wts := (s.hub.withReads lines ds r).seenWts part node (lineOf pa)
               rts := (s.hub.withReads lines ds r).leaseEnd part node (lineOf pa)
               dirty := [], nc := (s.hub.withReads lines ds r).nonCoherent s.me pa } ::
      h.lsu.lease.filter (fun x => !(x.line = lineOf pa && x.node = node && x.part = part)) } })
    { s with hub := s.hub.withReads lines ds r })
  exact ⟨lines, ds, r, free, seq, ws, ls, hroom⟩

/-! ### What sending a store leaves -/

/-- A store changes no register and no byte of memory as it is sent, and no schedule; `LT` may rise (R191). -/
structure SendsStores (s t : State) : Prop where
  regs : t.me.regs = s.me.regs
  pix : t.me.spr.pix = s.me.spr.pix
  sched : t.me.sched = s.me.sched
  id : t.me.id = s.me.id
  place : t.me.place = s.me.place
  mem : t.hub.mem = s.hub.mem
  regions : t.hub.regions = s.hub.regions
  ring : t.ring = s.ring

/-- The lines and the lease cache are as they were. -/
def LeavesLines (s t : State) : Prop := t.hub.lines = s.hub.lines ∧ t.me.lsu.lease = s.me.lsu.lease

namespace SendsStores

theorem refl (s : State) : SendsStores s s := ⟨rfl, rfl, rfl, rfl, rfl, rfl, rfl, rfl⟩

theorem trans {s t u : State} (h : SendsStores s t) (g : SendsStores t u) : SendsStores s u :=
  ⟨g.regs.trans h.regs, g.pix.trans h.pix, g.sched.trans h.sched, g.id.trans h.id, g.place.trans h.place,
    g.mem.trans h.mem, g.regions.trans h.regions, g.ring.trans h.ring⟩

/-- Which lines are made non-coherent for the hart is as before. -/
theorem nonCoherent {s t : State} (h : SendsStores s t) (pa : Nat) :
    t.hub.nonCoherent t.me pa = s.hub.nonCoherent s.me pa := by
  simp only [Hub.nonCoherent, Hart.isCore, h.id, h.place, h.regions]

end SendsStores

theorem State.queueUnder_sends (dev : Bool) (node va pa : Nat) (kind : WKind) (wide : Bool) (s : State) :
    SendsStores s (s.queueUnder dev node va pa kind wide) ∧ LeavesLines s (s.queueUnder dev node va pa kind wide) := by
  obtain ⟨_, _, _, _, -, e, -⟩ := s.queueUnder_eq dev node va pa kind wide
  rw [e]
  exact ⟨⟨rfl, rfl, rfl, rfl, rfl, rfl, rfl, rfl⟩, rfl, rfl⟩

theorem State.ncWrite_sends (pa : Nat) (bs : List (Nat × Byte)) (s : State) : SendsStores s (s.ncWrite pa bs) := by
  simp only [State.ncWrite]
  split
  · obtain ⟨_, _, _, _, e⟩ := (s.modMe (Hart.ncStore s.hub pa bs)).leaseRoom_frame
    rw [e]
    exact ⟨rfl, rfl, rfl, rfl, rfl, rfl, rfl, rfl⟩
  · obtain ⟨_, _, _, _, _, _, _, efill⟩ := s.fillLine_frame s.me.partNo 0
      (Nat.max s.me.spr.lt (s.hub.seenWts s.me.partNo 0 (lineOf pa))) pa 128
    rw [efill]
    obtain ⟨_, _, _, _, e⟩ := State.leaseRoom_frame (State.modMe _ (State.modMe _ _))
    rw [e]
    exact ⟨rfl, rfl, rfl, rfl, rfl, rfl, rfl, rfl⟩

theorem State.storeMem_sends (p : Piece) (bs : List (Nat × Byte)) (wide : Bool) (s : State) :
    SendsStores s (s.storeMem p bs wide) := by
  unfold State.storeMem
  split
  · exact ⟨rfl, rfl, rfl, rfl, rfl, rfl, rfl, rfl⟩
  · split
    · exact State.ncWrite_sends ..
    · exact (State.queueUnder_sends ..).1

/-- A store to a line that is not made non-coherent reaches no lease cache (R210). -/
theorem State.storeMem_leavesLines {p : Piece} {s : State} (h : s.hub.nonCoherent s.me p.pa = false)
    (bs : List (Nat × Byte)) (wide : Bool) : LeavesLines s (s.storeMem p bs wide) := by
  unfold State.storeMem
  split
  · exact ⟨rfl, rfl⟩
  · rw [if_neg (by rw [h, Bool.false_and]; decide)]
    exact (State.queueUnder_sends ..).2

/-- A fold whose steps send stores sends stores. -/
theorem sendsStores_foldl {α : Type} {f : State → α → State} (h : ∀ s e, SendsStores s (f s e)) (l : List α)
    (s : State) : SendsStores s (l.foldl f s) := by
  induction l generalizing s with
  | nil => exact SendsStores.refl s
  | cons e l ih => exact (h s e).trans (ih _)

/-- So does the fold leave the lines alone, where each of its steps does as long as no address is made non-coherent. -/
theorem leavesLines_foldl {α : Type} {f : State → α → State} {pa : α → Nat} (h : ∀ s e, SendsStores s (f s e))
    (hlines : ∀ s e, s.hub.nonCoherent s.me (pa e) = false → LeavesLines s (f s e)) {l : List α} {s : State}
    (hl : ∀ e ∈ l, s.hub.nonCoherent s.me (pa e) = false) : LeavesLines s (l.foldl f s) := by
  induction l generalizing s with
  | nil => exact ⟨rfl, rfl⟩
  | cons e l ih =>
    obtain ⟨hhead, htail⟩ := List.forall_mem_cons.mp hl
    obtain ⟨hls, hlease⟩ := hlines s e hhead
    obtain ⟨ils, ilease⟩ := ih fun x hx => ((h s e).nonCoherent (pa x)).trans (htail x hx)
    exact ⟨ils.trans hls, ilease.trans hlease⟩

theorem State.queueVault_sends (whole : Bool) (pa dist : Nat) (bytes : List Byte) (s : State) :
    SendsStores s (s.queueVault whole pa dist bytes) := ⟨rfl, rfl, rfl, rfl, rfl, rfl, rfl, rfl⟩

theorem State.storeVault_sends (pa dist : Nat) (bytes : List Byte) (s : State) :
    SendsStores s (s.storeVault pa dist bytes) := by
  unfold State.storeVault
  split
  · exact State.queueVault_sends ..
  · exact sendsStores_foldl (fun s e => State.queueVault_sends ..) _ s

theorem State.storeVault_leavesLines (pa dist : Nat) (bytes : List Byte) (s : State) :
    LeavesLines s (s.storeVault pa dist bytes) := by
  unfold State.storeVault
  split
  · exact ⟨rfl, rfl⟩
  · generalize units4 bytes = us
    induction us generalizing s with
    | nil => exact ⟨rfl, rfl⟩
    | cons u us ih => exact ih _

theorem State.storePiece_sends (p : Piece) (bytes : List Byte) (wide : Bool) (s : State) :
    SendsStores s (s.storePiece p bytes wide) := by
  unfold State.storePiece
  split
  · exact State.storeVault_sends ..
  · exact State.storeMem_sends ..

theorem State.storePiece_leavesLines {p : Piece} {s : State} (h : s.hub.nonCoherent s.me p.pa = false)
    (bytes : List Byte) (wide : Bool) : LeavesLines s (s.storePiece p bytes wide) := by
  unfold State.storePiece
  split
  · exact State.storeVault_leavesLines ..
  · exact State.storeMem_leavesLines h ..

/-! ### Stores of several pieces -/

/-- Merging keeps the addresses among those that it merges (R187). -/
theorem exists_mem_of_mem_mergeLines {l : List (Piece × List (Nat × Byte))} {e : Piece × List (Nat × Byte)}
    (he : e ∈ mergeLines l) : ∃ d ∈ l, d.1.pa = e.1.pa := by
  induction l generalizing e with
  | nil => cases he
  | cons d l ih =>
    obtain ⟨p, bs⟩ := d
    have hhead : ∃ d ∈ (p, bs) :: l, d.1.pa = p.pa := ⟨_, List.mem_cons_self, rfl⟩
    have hrest {x : Piece × List (Nat × Byte)} (hx : x ∈ mergeLines l) : ∃ d ∈ (p, bs) :: l, d.1.pa = x.1.pa := by
      obtain ⟨d, hd, hpa⟩ := ih hx
      exact ⟨d, List.mem_cons_of_mem _ hd, hpa⟩
    simp only [mergeLines] at he
    split at he
    next =>
      rw [List.mem_singleton.mp he]
      exact hhead
    next q cs more hmore =>
      have hq := hrest (hmore ▸ List.mem_cons_self)
      split_ifs at he
      · obtain rfl | hin := List.mem_cons.mp he
        · obtain hmin | hmin : Nat.min p.pa q.pa = p.pa ∨ Nat.min p.pa q.pa = q.pa := min_choice ..
          · exact hmin.symm ▸ hhead
          · exact hmin.symm ▸ hq
        · exact hrest (hmore ▸ List.mem_cons_of_mem _ hin)
      · obtain rfl | hin := List.mem_cons.mp he
        · exact hhead
        · exact hrest (hmore ▸ hin)

/-- What O35 says of stores that have been sent. -/
def StoresLeft (ps : List Piece) (s t : State) (occ : Nat) : Prop :=
  t.me.regs = s.me.regs ∧ t.hub.mem = s.hub.mem ∧ t.ring = s.ring ∧
  ((∀ p ∈ ps, s.hub.nonCoherent s.me p.pa = false) → t.hub.lines = s.hub.lines ∧ t.me.lsu.lease = s.me.lsu.lease) ∧
  t.me.sched = s.me.sched ∧ t.me.ctl.lsLeft = occ ∧ t.me.iss.out = .ok

/-- What stores leave when the slot has sent them (R223). -/
def Hart.storesDone (occ : Nat) (h : Hart) : Hart :=
  { (h.occupyLs occ).setOut .ok with lsu := { h.lsu with verWait := none } }

/-- Stores that wait for no version and no recall are sent piece by piece, those to vaults first. -/
theorem State.sendStores_eq {occ : Nat} {wide merge : Bool} {ps : List (Piece × List Byte)} {s : State}
    (hver : s.versionWanted (ps.map (·.1)) = none) (hrecall : s.ncRecall (ps.map (·.1)) = none) :
    ∃ (vs : List (Piece × List Byte)) (ms : List (Piece × List (Nat × Byte))),
      (∀ e ∈ vs, ∃ d ∈ ps, d.1.pa = e.1.pa) ∧ (∀ e ∈ ms, ∃ d ∈ ps, d.1.pa = e.1.pa) ∧
      s.sendStores occ wide merge ps = (ms.foldl (fun s e => s.storeMem e.1 e.2 wide)
        (vs.foldl (fun s e => s.storePiece e.1 e.2 wide) s)).modMe (Hart.storesDone occ) := by
  simp only [State.sendStores, hver, hrecall]
  refine ⟨_, _, fun e he => ⟨e, mem_sortBy.mp (List.mem_of_mem_filter he), rfl⟩, ?_, rfl⟩
  have hplain {ds : List (Piece × List Byte)} {e : Piece × List (Nat × Byte)} (hds : ∀ d ∈ ds, d ∈ ps)
      (he : e ∈ ds.map (fun e => (e.1, e.2.mapIdx (fun k b => (k, b))))) : ∃ d ∈ ps, d.1.pa = e.1.pa := by
    obtain ⟨d, hd, rfl⟩ := List.mem_map.mp he
    exact ⟨d, hds d hd, rfl⟩
  intro e he
  cases merge with
  | false => exact hplain (fun d hd => mem_sortBy.mp (List.mem_of_mem_filter hd)) he
  | true =>
    obtain ⟨d, hd, hpa⟩ := exists_mem_of_mem_mergeLines he
    obtain ⟨c, hc, hpc⟩ := hplain (fun d hd => mem_sortBy.mp (List.mem_of_mem_filter hd)) hd
    exact ⟨c, hc, hpc.trans hpa⟩

theorem State.sendStores_left {occ : Nat} {wide merge : Bool} {ps : List (Piece × List Byte)} {qs : List Piece}
    {s : State} (hqs : ps.map (·.1) = qs) (hver : s.versionWanted qs = none) (hrecall : s.ncRecall qs = none) :
    StoresLeft qs s (s.sendStores occ wide merge ps) occ := by
  subst hqs
  obtain ⟨vs, ms, hvs, hms, e⟩ := State.sendStores_eq (occ := occ) (wide := wide) (merge := merge) hver hrecall
  have hvault := sendsStores_foldl (fun s (e : Piece × List Byte) => s.storePiece_sends e.1 e.2 wide) vs s
  have hmemory := sendsStores_foldl (fun s (e : Piece × List (Nat × Byte)) => s.storeMem_sends e.1 e.2 wide) ms
    (vs.foldl (fun s e => s.storePiece e.1 e.2 wide) s)
  obtain ⟨hregs, -, hsched, -, -, hmem, -, hring⟩ := hvault.trans hmemory
  rw [e]
  refine ⟨hregs, hmem, hring, fun hnc => ?_, hsched, rfl, rfl⟩
  have hpa {pa : Nat} (h : ∃ d ∈ ps, d.1.pa = pa) : s.hub.nonCoherent s.me pa = false := by
    obtain ⟨d, hd, rfl⟩ := h
    exact hnc _ (List.mem_map_of_mem hd)
  obtain ⟨hls, hlease⟩ := leavesLines_foldl (pa := fun e : Piece × List Byte => e.1.pa)
    (fun s e => s.storePiece_sends e.1 e.2 wide) (fun s e h => State.storePiece_leavesLines h e.2 wide)
    fun e he => hpa (hvs e he)
  obtain ⟨hls', hlease'⟩ := leavesLines_foldl (pa := fun e : Piece × List (Nat × Byte) => e.1.pa)
    (fun s e => s.storeMem_sends e.1 e.2 wide) (fun s e h => State.storeMem_leavesLines h e.2 wide)
    fun e he => (hvault.nonCoherent _).trans (hpa (hms e he))
  exact ⟨hls'.trans hls, hlease'.trans hlease⟩

/-! ### Scatters -/

/-- Pieces that are stored in the order of the list, as those of a scatter (R231). -/
def State.scatter (es : List (Piece × List Byte)) (s : State) : State :=
  es.foldl (fun s e => s.storePiece e.1 e.2 false) s

theorem State.scatter_sends (es : List (Piece × List Byte)) (s : State) : SendsStores s (s.scatter es) :=
  sendsStores_foldl (fun s (e : Piece × List Byte) => s.storePiece_sends e.1 e.2 false) es s

theorem State.scatter_leavesLines {es : List (Piece × List Byte)} {s : State}
    (h : ∀ e ∈ es, s.hub.nonCoherent s.me e.1.pa = false) : LeavesLines s (s.scatter es) :=
  leavesLines_foldl (pa := fun e : Piece × List Byte => e.1.pa) (fun s e => s.storePiece_sends e.1 e.2 false)
    (fun _ e h => State.storePiece_leavesLines h e.2 false) h

/-- The pieces of a scatter with the units of its lanes (R231, R386). -/
def State.scatterOf (f : LB) (ps : List Piece) (s : State) : List (Piece × List Byte) :=
  List.zipWith (fun p l => (p, toBytes 4 (s.me.vLane f.d.toNat l).toNat)) ps
    (pixLanes 2 s.me (lanes (s.me.regs.mReg f.m)))

/-- Every one of them is a piece of the scatter. -/
theorem State.mem_of_mem_scatterOf {f : LB} {ps : List Piece} {s : State} {e : Piece × List Byte}
    (h : e ∈ s.scatterOf f ps) : e.1 ∈ ps := by
  obtain ⟨i, hi, rfl⟩ := List.getElem_of_mem h
  simp only [State.scatterOf, List.getElem_zipWith]
  exact List.getElem_mem _

/-- What a stop means depends on `PIX`, on the registers and on memory alone. -/
theorem Stopped.congr {kind : Nat} {ps : List Piece} {w : Want} {s t u : State} (h : Stopped kind ps w t u)
    (hpix : t.me.spr.pix = s.me.spr.pix) (hregs : t.me.regs = s.me.regs) (hmem : t.hub.mem = s.hub.mem)
    (hring : t.ring = s.ring) : Stopped kind ps w s u := by
  unfold Stopped at h ⊢
  rwa [hpix, hregs, hmem, hring] at h

/-- A scatter that stops has sent the lanes before. -/
theorem SendsStores.stopLanes_stopped {kind : Nat} {ps : List Piece} {w : Want} {s t : State} (h : SendsStores s t)
    (hkind : kind < 8) : Stopped kind ps w s (t.stopLanes kind ps.length w) :=
  (State.stopLanes_stopped hkind rfl rfl rfl rfl).congr h.pix h.regs h.mem h.ring

/-- The pieces of an access with what is to be stored there, one after another. -/
theorem map_fst_zipWith {α β γ : Type} (g : α → β → γ) (as : List α) (bs : List β) :
    (List.zipWith (fun a b => (a, g a b)) as bs).map (·.1) = List.zipWith (fun a _ => a) as bs := by
  rw [List.map_zipWith]

theorem map_fst_mapIdx {α β : Type} (g : Nat → β) (as : List α) : (as.mapIdx (fun i a => (a, g i))).map (·.1) = as :=
  List.ext_getElem (by simp) fun i _ _ => by simp

/-- Settles O35: vector and tile stores by what their pieces leave, scatters piece by piece. -/
theorem vectorAndTileStoresAreSent : Obligations.VectorAndTileStoresAreSent := by
  intro f g s
  dsimp only
  refine ⟨fun h ps hps => ⟨fun hodd => ?_, fun heven hver hrecall => ?_⟩,
    fun h ps hps => ⟨fun hva hst hver hrecall => ?_, fun a ha => ?_⟩,
    fun h => ⟨fun ps w hstop hver hrecall => ?_, fun ps hps => ?_⟩⟩
  · exact lsSlot_of_ready h (accessing_of_misaligned hps (if_neg hodd))
  · exact ⟨_, lsSlot_of_ready h (accessing_of_aligned hps (if_pos heven)),
      State.sendStores_left (map_fst_zipWith ..) hver hrecall, rfl⟩
  · exact ⟨_, lsSlot_of_ready h (accessing_of_aligned hps (tileAligned_of_multiples hva hst)),
      State.sendStores_left (map_fst_mapIdx ..) hver hrecall, rfl⟩
  · exact lsSlot_of_ready h (accessing_of_misaligned hps (tileAligned_of_lowestOddRow ha))
  · refine ⟨_, lsSlot_of_ready h ?_, (State.scatter_sends (s.scatterOf g ps) s).stopLanes_stopped (by decide)⟩
    simp only [hstop, Option.filter, hver, hrecall]
    rfl
  · have hnone := State.stopsAfter_of_ok hps
    refine ⟨fun l hl hodd hle => lsSlot_of_ready h ?_,
      fun heven hver hrecall => ⟨(s.scatter (s.scatterOf g ps)).modMe (fun h => (h.storesDone 4).clearPix),
        lsSlot_of_ready h ?_, ?_, rfl, rfl, rfl⟩⟩
    · simp only [hnone]
      exact accessing_of_misaligned hps
        (lowestOdd_eq_some (List.mem_map_of_mem hl) hodd (List.forall_mem_map.mpr hle))
    · simp only [hnone]
      refine (accessing_of_aligned hps (lowestOdd_eq_none (List.forall_mem_map.mpr heven))).trans ?_
      simp only [hver, hrecall]
      rfl
    · obtain ⟨hregs, -, hsched, -, -, hmem, -, hring⟩ := State.scatter_sends (s.scatterOf g ps) s
      exact ⟨hregs, hmem, hring, fun hnc => State.scatter_leavesLines fun e he => hnc _ (State.mem_of_mem_scatterOf he),
        hsched, rfl, rfl⟩

end Sys2Proof.Machine
end
section
/-! The commands on chiplets and ports, on cores and on regions (R343 to R345, R357 to R362), and the registers that
take their values by rules of their own. -/

namespace Sys2Proof.Machine

/-! ### Fields of words -/

theorem wbits_setBits_same {h l : Nat} (hl : l ≤ h) (hh : h < 64) (v : Nat) (w : Word) :
    wbits h l (setBits h l v w) = v % 2 ^ (h + 1 - l) := by
  refine Nat.eq_of_testBit_eq fun i => ?_
  rw [testBit_wbits, Nat.testBit_mod_two_pow]
  by_cases hi : i < h + 1 - l
  · rw [getLsbD_setBits hl (by omega), if_pos (by omega), Nat.add_sub_cancel_left]
  · simp [hi]

/-- A field is as before where another one takes a value. -/
theorem wbits_setBits_apart {h l h' l' : Nat} (hl : l' ≤ h') (hh : h < 64) (hapart : h < l' ∨ h' < l) (v : Nat)
    (w : Word) :
    wbits h l (setBits h' l' v w) = wbits h l w := by
  refine Nat.eq_of_testBit_eq fun i => ?_
  rw [testBit_wbits, testBit_wbits]
  by_cases hi : i < h + 1 - l
  · rw [getLsbD_setBits hl (by omega), if_neg (by omega)]
  · simp [hi]

theorem wbits_endCmd {st : Nat} (hst : st < 4) (w : Word) : wbits 63 62 (endCmd st w) = st :=
  (wbits_setBits_same (by decide) (by decide) st w).trans (Nat.mod_eq_of_lt hst)

/-! ### Chiplet commands -/

/-- The command on chiplets and ports has ended with a status and a cause (R359). -/
def CommandEnded (t : State) (st cause : Nat) : Prop :=
  wbits 63 62 t.hub.mon.chctl = st ∧ wbits 55 52 t.hub.mon.chctl = cause

theorem State.endChctl_ended {st cause : Nat} (hst : st < 4) (hcause : cause < 16) (s : State) :
    CommandEnded (s.endChctl st cause) st cause := by
  refine ⟨(wbits_setBits_apart (by decide) (by decide) (by decide) ..).trans (wbits_endCmd hst _), ?_⟩
  exact (wbits_setBits_same (by decide) (by decide) ..).trans (Nat.mod_eq_of_lt hcause)

/-- A command for a chiplet is given and waits (R359). -/
def CommandFor (chip n : Nat) (s : State) : Prop :=
  chip < 12 ∧ wbits 63 62 s.hub.mon.chctl = 1 ∧ wbits 11 8 s.hub.mon.chctl = n ∧ wbits 3 0 s.hub.mon.chctl = chip

theorem onChiplet_of_command {n chip : Nat} {k : Sem} {s : State} (h : CommandFor chip n s) :
    onChiplet n chip k s = k s := by
  obtain ⟨hchip, hgo, hcmd, hfor⟩ := h
  have his : s.hub.chctlIs n chip = true := by simp [Hub.chctlIs, hgo, hcmd, hfor]
  rw [onChiplet, if_neg (by rw [his]; decide), if_neg (by omega)]

/-- The word of a chiplet in `CHST` (R358). -/
def chstWord (st part : Nat) (failed : Bool) : Word := BitVec.ofNat 64 (st + part * 2 ^ 4 + failed.toNat * 2 ^ 8)

theorem wbits_chstWord {st part : Nat} {failed : Bool} (hst : st < 8) (hpart : part < 16) :
    wbits 2 0 (chstWord st part failed) = st ∧ wbits 7 4 (chstWord st part failed) = part := by
  have hfailed := Bool.toNat_le failed
  have hword : (chstWord st part failed).toNat = st + part * 2 ^ 4 + failed.toNat * 2 ^ 8 := by
    rw [chstWord, BitVec.toNat_ofNat]
    exact Nat.mod_eq_of_lt (by omega)
  rw [wbits, wbits, bitsOf, bitsOf, hword, Nat.shiftRight_eq_div_pow, Nat.shiftRight_eq_div_pow]
  omega

section
variable {chip st part : Nat} {failed : Bool} {s : State}

theorem State.setChst_hub (g : chip < 15) : (s.setChst chip st part failed).hub =
    { s.hub with mon := { s.hub.mon with chst := s.hub.mon.chst.set chip (chstWord st part failed) g } } := by
  simp only [State.setChst, dif_pos g]
  split
  · rfl
  · exact State.raiseBy_hub ..

theorem State.chipState_setChst (g : chip < 15) (hst : st < 8) (hpart : part < 16) :
    (s.setChst chip st part failed).hub.chipState chip = st := by
  rw [State.setChst_hub g, Hub.chipState, dif_pos g]
  simp only [Vector.getElem_set_self]
  exact (wbits_chstWord hst hpart).1

theorem State.holder_setChst (g : chip < 15) (hst : st < 8) (hpart : part < 16) :
    (s.setChst chip st part failed).hub.holder chip = part := by
  rw [State.setChst_hub g, Hub.holder, dif_pos g]
  simp only [Vector.getElem_set_self]
  exact (wbits_chstWord hst hpart).2

end

/-- An event raises a bit of `EVPEND` of a core; what else a hart has stays (R357). -/
theorem State.raiseBy_harts_map {α : Type} {g : Hart → α} (hg : ∀ (h : Hart) (x : Word),
    g { h with spr := { h.spr with evpend := x } } = g h) (r : Word) (bit : Nat) (s : State) :
    (s.raiseBy r bit).harts.map g = s.harts.map g := by
  unfold State.raiseBy
  split
  · exact State.mapWhere_harts_map (fun h => hg h _) s
  · rfl

theorem State.setChst_harts_map {α : Type} {g : Hart → α} (hg : ∀ (h : Hart) (x : Word),
    g { h with spr := { h.spr with evpend := x } } = g h) (chip st part : Nat) (failed : Bool) (s : State) :
    (s.setChst chip st part failed).harts.map g = s.harts.map g := by
  unfold State.setChst
  split
  · dsimp only
    split
    · rfl
    · exact State.raiseBy_harts_map hg ..
  · rfl

theorem State.exists_of_mem_setChst_harts {chip st part : Nat} {failed : Bool} {s : State} {h : Hart}
    (hh : h ∈ (s.setChst chip st part failed).harts) : ∃ g ∈ s.harts, g.place = h.place ∧ g.regs = h.regs := by
  have hmap := State.setChst_harts_map (g := fun h => (h.place, h.regs)) (fun _ _ => rfl) chip st part failed s
  have hmem : (h.place, h.regs) ∈ s.harts.map (fun h => (h.place, h.regs)) :=
    hmap ▸ List.mem_map_of_mem (f := fun h : Hart => (h.place, h.regs)) hh
  obtain ⟨g, hg, he⟩ := List.mem_map.mp hmem
  exact ⟨g, hg, congrArg Prod.fst he, congrArg Prod.snd he⟩

/-- The bit of `PCHIP` that tells whether a partition has a chiplet or a port (R344). -/
theorem State.pchip_setPchip {bit : Nat} (hbit : bit < 64) (part : Nat) (on : Bool) (s : State) :
    ((s.setPchip part bit on).hub.part part).pchip.getLsbD bit = on := by
  simp only [State.setPchip, State.setPart, Hub.part_setPart, if_pos]
  rw [getLsbD_setBits le_rfl hbit, if_pos ⟨le_rfl, le_rfl⟩, Nat.sub_self]
  cases on <;> rfl

/-- The hub with other commands in `CHCTL`. -/
def Hub.withChctl (x : Word) (hb : Hub) : Hub := { hb with mon := { hb.mon with chctl := x } }

theorem State.endChctl_hub (st cause : Nat) (s : State) :
    (s.endChctl st cause).hub = s.hub.withChctl (setBits 55 52 cause (endCmd st s.hub.mon.chctl)) := rfl

theorem Hub.chipState_withChctl (x : Word) (hb : Hub) (c : Nat) : (hb.withChctl x).chipState c = hb.chipState c := rfl

theorem Hub.holder_withChctl (x : Word) (hb : Hub) (c : Nat) : (hb.withChctl x).holder c = hb.holder c := rfl

theorem Hub.part_withChctl (x : Word) (hb : Hub) (p : Nat) : (hb.withChctl x).part p = hb.part p := rfl

theorem State.harts_setMon (f : MonRegs → MonRegs) (s : State) : (s.setMon f).harts = s.harts := rfl

section
variable (st cause part bit : Nat) (on : Bool) (s : State)

@[simp] theorem State.harts_endChctl : (s.endChctl st cause).harts = s.harts := by
  rw [State.endChctl, State.harts_setMon]

@[simp] theorem State.chipState_endChctl (c : Nat) : (s.endChctl st cause).hub.chipState c = s.hub.chipState c := by
  rw [State.endChctl_hub, Hub.chipState_withChctl]

@[simp] theorem State.holder_endChctl (c : Nat) : (s.endChctl st cause).hub.holder c = s.hub.holder c := by
  rw [State.endChctl_hub, Hub.holder_withChctl]

@[simp] theorem State.part_endChctl (p : Nat) : (s.endChctl st cause).hub.part p = s.hub.part p := by
  rw [State.endChctl_hub, Hub.part_withChctl]

@[simp] theorem State.chipState_setPchip (c : Nat) : (s.setPchip part bit on).hub.chipState c = s.hub.chipState c :=
  rfl

@[simp] theorem State.holder_setPchip (c : Nat) : (s.setPchip part bit on).hub.holder c = s.hub.holder c :=
  rfl

end

theorem State.part_setChst (chip st part : Nat) (failed : Bool) (p : Nat) (s : State) :
    (s.setChst chip st part failed).hub.part p = s.hub.part p := by
  by_cases g : chip < 15
  · rw [State.setChst_hub g]
    rfl
  · rw [State.setChst, dif_neg g]

section
variable {s : State} {chip part : Nat}

theorem execChctlAssign_of_free (h : CommandFor chip 0 s) (hfree : s.hub.chipState chip = 1)
    (hto : wbits 19 16 s.hub.mon.chctl = part) : exec (.chctlAssign chip part) s =
      .next (((s.setChst chip 2 part false).setPchip part chip true).endChctl 2 0) := by
  change execChctlAssign chip part s = _
  rw [execChctlAssign, onChiplet_of_command h]
  simp [hto, hfree]

theorem chctlAssign_done (h : CommandFor chip 0 s) (hfree : s.hub.chipState chip = 1)
    (hto : wbits 19 16 s.hub.mon.chctl = part) (hpart : part < 16) :
    ∃ t, exec (.chctlAssign chip part) s = .next t ∧ CommandEnded t 2 0 ∧ t.hub.chipState chip = 2 ∧
      t.hub.holder chip = part ∧ (t.hub.part part).pchip.getLsbD chip = true := by
  have hchip : chip < 12 := h.1
  have hlt : chip < 15 := by omega
  refine ⟨_, execChctlAssign_of_free h hfree hto, State.endChctl_ended (by decide) (by decide) _, ?_, ?_, ?_⟩
  · simp [State.chipState_setChst hlt, hpart]
  · simp [State.holder_setChst hlt, hpart]
  · simp [State.pchip_setPchip (show chip < 64 by omega)]

theorem execChctlUnassign_of_held (h : CommandFor chip 1 s) (hheld : s.hub.chipState chip = 2) :
    exec (.chctlUnassign chip) s = .next
      ((((s.vacate chip).setPchip (s.hub.holder chip) chip false).setChst chip 1 0 false).endChctl 2 0) := by
  have hcmd : wbits 11 8 s.hub.mon.chctl = 1 := h.2.2.1
  have hodd : s.hub.chctlOdd chip = false := by simp [Hub.chctlOdd, hcmd]
  change execChctlUnassign chip s = _
  rw [execChctlUnassign, hodd, onChiplet_of_command h]
  simp [hheld]

theorem chctlUnassign_done (h : CommandFor chip 1 s) (hheld : s.hub.chipState chip = 2) :
    ∃ t, exec (.chctlUnassign chip) s = .next t ∧ CommandEnded t 2 0 ∧ t.hub.chipState chip = 1 ∧
      (t.hub.part (s.hub.holder chip)).pchip.getLsbD chip = false := by
  have hchip : chip < 12 := h.1
  refine ⟨_, execChctlUnassign_of_held h hheld, State.endChctl_ended (by decide) (by decide) _, ?_, ?_⟩
  · simp [State.chipState_setChst (show chip < 15 by omega)]
  · simp [State.part_setChst, State.pchip_setPchip (show chip < 64 by omega)]

theorem chctlEnumerate_done (h : CommandFor chip 4 s) (hoff : s.hub.chipState chip = 0) :
    ∃ t, exec (.chctlEnumerate chip) s = .next t ∧
      ((Config.presented chip).toNat = s.hub.capRecord chip → CommandEnded t 2 0 ∧ t.hub.chipState chip = 1) ∧
      ((Config.presented chip).toNat ≠ s.hub.capRecord chip → CommandEnded t 3 4 ∧ t.hub.chipState chip = 0) := by
  have hchip : chip < 12 := h.1
  have hlt : chip < 15 := by omega
  change ∃ t, execChctlEnumerate chip s = _ ∧ _
  rw [execChctlEnumerate, onChiplet_of_command h, if_neg (by rw [hoff]; decide)]
  by_cases hagrees : (Config.presented chip).toNat = s.hub.capRecord chip
  · refine ⟨_, if_neg (by simp [Hub.recordAgrees, hagrees]), fun _ => ⟨?_, ?_⟩, fun hno => absurd hagrees hno⟩
    · exact State.endChctl_ended (by decide) (by decide) _
    · simp [State.chipState_setChst hlt]
  · refine ⟨_, if_pos (by simp [Hub.recordAgrees, hagrees]), fun hyes => absurd hyes hagrees, fun _ => ⟨?_, ?_⟩⟩
    · exact State.endChctl_ended (by decide) (by decide) _
    · simp [State.chipState_setChst hlt]

/-! ### Isolation and the reset of a chiplet -/

theorem chctlIsolate_begins (h : CommandFor chip 2 s) (hfree : s.hub.chipState chip = 1)
    (hnone : s.hub.isolations = []) :
    ∃ t, exec (.chctlIsolate chip) s = .next t ∧ t.hub.chipState chip = 3 ∧
      t.hub.isolations = [{ chip := chip, since := s.hub.clk, killed := false, drain := none }] := by
  have hchip : chip < 12 := h.1
  have hlt : chip < 15 := by omega
  change ∃ t, execChctlIsolate chip s = _ ∧ _
  rw [execChctlIsolate, onChiplet_of_command h]
  simp only [Hub.isolation, hnone, List.find?_nil, hfree]
  refine ⟨_, rfl, ?_, ?_⟩
  · exact State.chipState_setChst (s := s.vacate chip) hlt (by decide) (by decide)
  · have hvacate : (s.vacate chip).hub.isolations = [] := hnone
    simp [State.setChst_hub hlt, hvacate]

theorem chctlIsolate_ends {i : Isolation} (h : CommandFor chip 2 s) (hone : s.hub.isolations = [i]) (hi : i.chip = chip)
    (hempty : s.hub.occupied chip = false) (hdrain : i.drain.isSome = true)
    (hdone : ∀ h ∈ s.harts, h.draining chip = false) : ∃ t, exec (.chctlIsolate chip) s = .next t ∧
      CommandEnded t 2 (if i.killed then 5 else 0) ∧ t.hub.chipState chip = 4 ∧ t.hub.isolations = [] := by
  have hchip : chip < 12 := h.1
  have hlt : chip < 15 := by omega
  have hfind : s.hub.isolation chip = some i := by simp [Hub.isolation, hone, hi]
  have hdrained : i.drain.isNone = false := by rw [← Option.not_isSome, hdrain]; rfl
  have hany : s.harts.any (Hart.draining chip) = false := List.any_eq_false.mpr fun x hx => by simp [hdone x hx]
  change ∃ t, execChctlIsolate chip s = _ ∧ _
  rw [execChctlIsolate, onChiplet_of_command h]
  simp only [hfind, hempty, hdrained, hany]
  refine ⟨_, rfl, State.endChctl_ended (by decide) (by split <;> decide) _, ?_, ?_⟩
  · simp [State.chipState_setChst hlt]
  · simp [State.endChctl, State.setMon, State.setChst_hub hlt, hone, hi]

theorem chctlReset_begins (h : CommandFor chip 3 s) (hoff : s.hub.chipState chip = 4) :
    ∃ t, exec (.chctlReset chip) s = .next t ∧ t.hub.chipState chip = 5 := by
  have hchip : chip < 12 := h.1
  change ∃ t, execChctlReset chip s = _ ∧ _
  rw [execChctlReset, onChiplet_of_command h]
  refine ⟨_, if_pos hoff, State.chipState_setChst (by omega) (by decide) (by decide)⟩

theorem chctlReset_ends (h : CommandFor chip 3 s) (hreset : s.hub.chipState chip = 5) :
    ∃ t, exec (.chctlReset chip) s = .next t ∧ CommandEnded t 2 0 ∧ t.hub.chipState chip = 0 ∧
      ∀ h ∈ t.harts, h.place.chip = chip → h.regs = Regs.zero := by
  have hchip : chip < 12 := h.1
  change ∃ t, execChctlReset chip s = _ ∧ _
  rw [execChctlReset, onChiplet_of_command h, if_neg (by rw [hreset]; decide), if_neg (by rw [hreset]; decide)]
  refine ⟨_, rfl, State.endChctl_ended (by decide) (by decide) _, ?_, ?_⟩
  · simp [State.chipState_setChst (show chip < 15 by omega)]
  · intro x hx hat
    rw [State.harts_endChctl] at hx
    obtain ⟨y, hy, hplace, hregs⟩ := State.exists_of_mem_setChst_harts hx
    rw [State.mapWhere_harts] at hy
    obtain ⟨z, -, rfl⟩ := List.mem_map.mp hy
    rw [← hregs]
    by_cases hz : z.place.chip = chip
    · simp [hz]
    · simp only [hz, decide_false, Bool.false_eq_true, if_false] at hplace
      exact absurd (hplace ▸ hat) hz

end

/-! ### Ports -/

/-- A command for a port is given and waits (R360). -/
def CommandForPort (k n : Nat) (s : State) : Prop :=
  wbits 63 62 s.hub.mon.chctl = 1 ∧ wbits 11 8 s.hub.mon.chctl = n ∧ wbits 31 24 s.hub.mon.chctl = k ∧
    wbits 3 0 s.hub.mon.chctl = 13 + k / 12 ∧ 12 ≤ wbits 3 0 s.hub.mon.chctl

section
variable {s : State} {k part : Nat}

theorem onPort_of_command {n : Nat} {c : Sem} (h : CommandForPort k n s) : onPort n k c s = c s := by
  obtain ⟨hgo, hcmd, hport, hchip, hle⟩ := h
  simp [onPort, hgo, hcmd, hport, hchip, show ¬ 13 + k / 12 < 12 by omega]

theorem chctlAssignPort_done (h : CommandForPort k 5 s) (hto : wbits 19 16 s.hub.mon.chctl = part)
    (hfree : s.hub.portHolder k = none) (hbuilt : s.hub.recBit (1440 + k) = true) (hk : k < 24) :
    ∃ t, exec (.chctlAssignPort k part) s = .next t ∧ CommandEnded t 2 0 ∧
      (t.hub.part part).pchip.getLsbD (12 + k) = true := by
  change ∃ t, execChctlAssignPort k part s = _ ∧ _
  rw [execChctlAssignPort, onPort_of_command h]
  simp only [hto, hfree, hbuilt, ne_eq, not_true_eq_false, if_false, if_true]
  refine ⟨_, rfl, State.endChctl_ended (by decide) (by decide) _, ?_⟩
  simp [State.pchip_setPchip (show 12 + k < 64 by omega)]

/-- The connections of a port that a partition loses are broken (R346, R360). -/
def Conn.lostBy (p k : Nat) (c : Conn) : Conn := if c.part = p ∧ c.port = k then { c with err := true } else c

theorem chctlUnassignPort_done {p : Nat} (h : CommandForPort k 6 s) (hheld : s.hub.portHolder k = some p)
    (hk : k < 24) :
    ∃ t, exec (.chctlUnassignPort k) s = .next t ∧ CommandEnded t 2 0 ∧
      (t.hub.part p).pchip.getLsbD (12 + k) = false ∧ ∀ c ∈ t.hub.conns, c.part = p → c.port = k → c.err = true := by
  change ∃ t, execChctlUnassignPort k s = _ ∧ _
  rw [execChctlUnassignPort, onPort_of_command h]
  simp only [hheld]
  refine ⟨_, rfl, State.endChctl_ended (by decide) (by decide) _, ?_, ?_⟩
  · rw [State.part_endChctl]
    exact State.pchip_setPchip (show 12 + k < 64 by omega) p false s
  · intro c hc hp hport
    obtain ⟨d, -, rfl⟩ : ∃ d ∈ s.hub.conns, d.lostBy p k = c := List.mem_map.mp hc
    unfold Conn.lostBy at hp hport ⊢
    split_ifs at hp hport ⊢ with hmine
    · rfl
    · exact absurd ⟨hp, hport⟩ hmine

end

/-! ### The time limits of an isolation (R361) -/

section
variable {s : State} {chip : Nat} {i : Isolation}

theorem Hub.isolation_of_one (hone : s.hub.isolations = [i]) (hi : i.chip = chip) : s.hub.isolation chip = some i := by
  simp [Hub.isolation, hone, hi]

theorem isolationSaveTimeout_of_none_late (hone : s.hub.isolations = [i]) (hi : i.chip = chip)
    (hnone : ∀ l ∈ s.hub.launches, ∀ g ∈ l.gangs, g.chip = chip →
      (∀ why, g.st ≠ .saving why) ∨ s.hub.clk < g.since + 1048576) :
    exec (.isolationSaveTimeout chip) s = .next s := by
  have hlate : ∀ l ∈ s.hub.launches, l.gangs.filter (fun g => g.chip = chip && g.lateSave s.hub.clk) = [] := by
    refine fun l hl => List.filter_eq_nil_iff.mpr fun g hg => ?_
    by_cases hchip : g.chip = chip
    · obtain hst | hearly := hnone l hl g hg hchip
      · simp only [Gang.lateSave]
        cases hg : g.st with
        | saving why => exact absurd hg (hst why)
        | _ => simp
      · simp only [Gang.lateSave]
        cases g.st <;> simp [hearly]
    · simp [hchip]
  have hflat : s.hub.launches.flatMap (fun l => (l.gangs.filter (fun g =>
      g.chip = chip && g.lateSave s.hub.clk)).map (fun g => (l, g))) = [] :=
    List.flatMap_eq_nil_iff.mpr fun l hl => by rw [hlate l hl]; rfl
  change execIsolationSaveTimeout chip s = _
  rw [execIsolationSaveTimeout, Hub.isolation_of_one hone hi]
  simp only [hflat]
  rfl

theorem isolationSaveTimeout_of_late {l : Launch} {g : Gang} {why : Why} (hone : s.hub.isolations = [i])
    (hi : i.chip = chip) (hl : s.hub.launches = [l]) (hg : l.gangs = [g]) (hchip : g.chip = chip)
    (hst : g.st = .saving why) (hlate : g.since + 1048576 ≤ s.hub.clk) :
    exec (.isolationSaveTimeout chip) s = .next ((s.killGang l.id g.idx).preqDone l.part why 3 1) := by
  change execIsolationSaveTimeout chip s = _
  rw [execIsolationSaveTimeout, Hub.isolation_of_one hone hi]
  simp [hl, hg, Gang.lateSave, hst, hchip, hlate]

theorem State.settleBanks_frame (s : State) : ∃ bs, s.settleBanks = { s with hub := { s.hub with banks := bs } } := by
  unfold State.settleBanks
  split
  · exact ⟨s.hub.banks, rfl⟩
  · exact ⟨_, rfl⟩

/-- What a hart of an isolated chiplet keeps when the time for its operations is over: the write-backs. -/
def Hart.drainFailed (h : Hart) : Hart :=
  { h.setFailure 2 with
    units := { h.units with
      semOut := [], pending := (h.setFailure 2).units.pending
      eng := h.units.eng.map (fun o => if o.unfinished then { o with stat := .failed, tags := [] } else o) }
    lsu := { h.lsu with writes := h.lsu.writes.filter Write.isBack, vstores := [] } }

/-- The hart has nothing left that its isolation waits for but write-backs. -/
def Hart.Drained (h : Hart) : Prop :=
  h.units.eng.any EngOp.unfinished = false ∧ h.units.semOut = [] ∧ h.lsu.vstores = [] ∧
    ∀ w ∈ h.lsu.writes, w.isBack = true

theorem Hart.drainFailed_drained (h : Hart) : h.drainFailed.Drained := by
  refine ⟨List.any_eq_false.mpr fun o ho => ?_, rfl, rfl, fun w hw => (List.mem_filter.mp hw).2⟩
  obtain ⟨p, -, rfl⟩ := List.mem_map.mp ho
  split
  · simp [EngOp.unfinished]
  next h => exact h

theorem Hart.drained_of_not_draining {h : Hart} (hchip : h.place.chip = chip) (hcore : h.isCore = false)
    (hdone : h.draining chip = false) : h.Drained := by
  have hparts : h.units.eng.any EngOp.unfinished = false ∧ h.units.semOut.isEmpty = true ∧
      h.lsu.writes.isEmpty = true ∧ h.lsu.vstores.isEmpty = true := by
    simpa [Hart.draining, hchip, hcore, and_assoc] using hdone
  obtain ⟨heng, hsem, hwrites, hstores⟩ := hparts
  exact ⟨heng, List.isEmpty_iff.mp hsem, List.isEmpty_iff.mp hstores, by simp [List.isEmpty_iff.mp hwrites]⟩

theorem isolationDrainTimeout_done {t0 : Nat} (hone : s.hub.isolations = [i]) (hi : i.chip = chip)
    (hdrain : i.drain = some t0) (hlate : t0 + 4194304 ≤ s.hub.clk) :
    ∃ t, exec (.isolationDrainTimeout chip) s = .next t ∧ t.hub.mem = s.hub.mem ∧
      (∀ h ∈ t.harts, h.place.chip = chip → h.isCore = false → h.Drained) ∧
      t.harts.map (fun h => h.lsu.writes.filter Write.isBack) =
        s.harts.map (fun h => h.lsu.writes.filter Write.isBack) ∧
      t.harts.map (·.regs) = s.harts.map (·.regs) := by
  obtain ⟨bs, hbanks⟩ := State.settleBanks_frame
    (State.mapWhere (Hart.draining chip) Hart.drainFailed { s with hub := s.hub.restartInvs })
  have hexec : exec (.isolationDrainTimeout chip) s = .next
      (State.settleBanks (State.mapWhere (Hart.draining chip) Hart.drainFailed
        { s with hub := s.hub.restartInvs })) := by
    change execIsolationDrainTimeout chip s = _
    rw [execIsolationDrainTimeout, Hub.isolation_of_one hone hi]
    simp only [hdrain]
    exact if_neg (by omega)
  rw [hbanks] at hexec
  refine ⟨_, hexec, rfl, fun h hh hat hcore => ?_, ?_, ?_⟩
  · obtain ⟨x, -, rfl⟩ : ∃ x ∈ s.harts, (if x.draining chip then x.drainFailed else x) = h := List.mem_map.mp hh
    split_ifs at hat hcore ⊢ with hdraining
    · exact x.drainFailed_drained
    · exact Hart.drained_of_not_draining hat hcore (eq_false_of_ne_true hdraining)
  · refine State.mapWhere_harts_map (p := Hart.draining chip) (f := Hart.drainFailed)
      (g := fun h => h.lsu.writes.filter Write.isBack) (fun h => ?_) s
    exact (List.filter_filter (l := h.lsu.writes)).trans (by simp only [Bool.and_self])
  · exact State.mapWhere_harts_map (p := Hart.draining chip) (f := Hart.drainFailed) (g := Hart.regs) (fun h => rfl) s

end

/-! ### Cores (R362) -/

section
variable {s : State} {core : Nat}

/-- A command for a core is given and waits (R362). -/
def CommandForCore (core n : Nat) (s : State) : Prop :=
  wbits 63 62 s.hub.mon.ncore = 1 ∧ wbits 8 8 s.hub.mon.ncore = n ∧ wbits 4 0 s.hub.mon.ncore = core

theorem ncoreIs_of_command {n : Nat} (h : CommandForCore core n s) : s.hub.ncoreIs n core = true := by
  obtain ⟨hgo, hcmd, hcore⟩ := h
  simp [Hub.ncoreIs, hgo, hcmd, hcore]

/-- A core starts detached at level M, at the address and with the vectors that the monitor gives it. -/
theorem ncoreStart_done (h : CommandForCore core 1 s) (hnew : s.hart? (.core core) = none)
    (hbuilt : s.hub.recBit (1408 + core) = true) :
    ∃ t h, exec (.ncoreStart core) s = .next t ∧ t.ring = s.ring ++ [h] ∧ h.id = .core core ∧ h.level = 2 ∧
      h.ctl.run = .detached ∧ h.ctl.pc.toNat = s.hub.mon.ncaddr.toNat % 2 ^ 57 ∧ h.spr.mvec = s.hub.mon.mvecg ∧
      h.regs = Regs.zero ∧ wbits 63 62 t.hub.mon.ncore = 2 := by
  change ∃ t h, execNcoreStart core s = _ ∧ _
  rw [execNcoreStart, ncoreIs_of_command h]
  simp only [hnew, hbuilt]
  exact ⟨_, Hart.coreStart core .detached (s.hub.mon.ncaddr.truncate 57) s.hub.mon.mvecg (s.hub.part 0).svecp, rfl, rfl,
    rfl, rfl, rfl, BitVec.toNat_setWidth .., rfl, rfl, wbits_endCmd (by decide) _⟩

theorem ncoreHalt_done (h : CommandForCore core 0 s) (hid : s.me.id = .core core) (hlive : s.me.live = true) :
    ∃ t, exec (.ncoreHalt core) s = .next t ∧ t.me.ctl.run = .halted ∧ t.me.lsu.writes = s.me.lsu.writes ∧
      wbits 63 62 t.hub.mon.ncore = 2 := by
  have hme : s.hart? (.core core) = some s.me := List.find?_cons_of_pos (by simp [hid])
  have hhalt : (s.haltCore core).me = s.me.haltState := by simp [State.haltCore, State.mapHart, hid]
  refine ⟨(s.haltCore core).endNcore 2, ?_, ?_, ?_, wbits_endCmd (by decide) _⟩
  · change execNcoreHalt core s = _
    rw [execNcoreHalt, ncoreIs_of_command h, hme]
    simp [hlive]
  · exact (congrArg (·.ctl.run) hhalt).trans rfl
  · exact (congrArg (·.lsu.writes) hhalt).trans rfl

end

/-! ### Non-coherent regions (R343, R345) -/

section
variable {s : State} {part v region : Nat}

theorem wbits_ncrq_endNcrq {st : Nat} (hst : st < 4) (part : Nat) (s : State) :
    wbits 63 62 ((s.endNcrq part st).hub.part part).ncrq = st := by
  rw [State.endNcrq, State.setPart, Hub.part_setPart, if_pos rfl]
  exact wbits_endCmd hst _

theorem ncrqMakeNoncoherent_done (h : s.hub.ncrq part 1 = some (v, region)) (hchip : (8 + v) ∈ s.hub.partChips part)
    (hleasable : (s.hub.loc (region * 2 ^ 21)).leasable = true)
    (hown : s.hub.ofPart s.free part (region * 2 ^ 21) 512 = true) (hregions : s.hub.regions = [])
    (hversions : s.hub.versions = []) : ∃ t, exec (.ncrqMakeNoncoherent part) s = .next t ∧
      t.hub.regions = [(v, region)] ∧ wbits 63 62 (t.hub.part part).ncrq = 2 ∧ t.hub.mem = s.hub.mem := by
  have hchips : (s.hub.partChips part).contains (8 + v) = true := List.contains_iff_mem.mpr hchip
  change ∃ t, execNcrqMakeNoncoherent part s = _ ∧ _
  rw [execNcrqMakeNoncoherent, h]
  simp only [hchips, hleasable, hown, hregions, hversions]
  exact ⟨_, rfl, rfl, wbits_ncrq_endNcrq (by decide) .., rfl⟩

theorem ncrqMakeCoherent_done (h : s.hub.ncrq part 0 = some (v, region)) (hchip : (8 + v) ∈ s.hub.partChips part)
    (hempty : ∀ h ∈ s.harts, h.lsu.lease = []) : ∃ t, exec (.ncrqMakeCoherent part) s = .next t ∧
      t.hub.regions = s.hub.regions.filter (fun r => r ≠ (v, region)) ∧ wbits 63 62 (t.hub.part part).ncrq = 2 ∧
      t.hub.mem = s.hub.mem := by
  have hchips : (s.hub.partChips part).contains (8 + v) = true := List.contains_iff_mem.mpr hchip
  have hclean : s.harts.any (fun h => h.place.chip = 8 + v &&
      h.lsu.lease.any (fun l => inRegion region l.line && !l.dirty.isEmpty)) = false :=
    List.any_eq_false.mpr fun x hx => by simp [hempty x hx]
  change ∃ t, execNcrqMakeCoherent part s = _ ∧ _
  rw [execNcrqMakeCoherent, h]
  simp only [hclean, hchips]
  exact ⟨_, rfl, rfl, wbits_ncrq_endNcrq (by decide) .., rfl⟩

end

/-! ### Registers with rules of their own -/

section
variable {s : State} {part : Nat} {v : Word}

/-- The doorbell of a core (R357). -/
def State.bell (v : Word) (s : State) : State :=
  s.mapHart (.core (wbits 4 0 v)) (fun h => { h with spr := { h.spr with evpend := setBits 1 1 1 h.spr.evpend } })

theorem execNdoorWrite_of_core {h : Hart} (hcore : s.hart? (.core (wbits 4 0 v)) = some h) :
    exec (.ndoorWrite part v) s = .next (if h.partNo = part then s.bell v else s) := by
  change execNdoorWrite part v s = _
  simp only [execNdoorWrite, State.ndoor, hcore]
  by_cases hpart : h.partNo = part
  · rw [if_pos (.inr (decide_eq_true hpart)), if_pos hpart]
    rfl
  · rw [if_neg (by simp [hpart]), if_neg hpart]
    rfl

/-- After a flush, the spaces of the partition are those that are pinned, and they are stale (R321). -/
theorem execCalctlFlush_quires {t : State} (h : exec (.calctlFlush part) s = .next t) :
    ∀ e ∈ t.hub.quires, e.part = part → e.pins ≠ [] ∧ e.stale = true := by
  obtain rfl : s.calFlush part = t := Host.Outcome.next.inj h
  intro e he hpart
  obtain ⟨q, hq, rfl⟩ := List.mem_map.mp he
  obtain ⟨-, hkept⟩ := List.mem_filter.mp hq
  split_ifs at hpart ⊢ with hmine
  · exact ⟨by simpa [hmine] using hkept, rfl⟩
  · exact absurd hpart hmine

theorem getLsbD_connb_of_clear (h : v.getLsbD 0 = false) (r : Word) : (maskWrite tableMask r v).getLsbD 0 = false := by
  rw [masked_maskWrite _ _ _ 0 (by decide), h]
  exact if_pos (by decide)

theorem State.readConns_of_clear (h : (s.hub.part part).connb.getLsbD 0 = false) :
    (s.readConns part).hub.conns = s.hub.conns.filter (fun c => c.part ≠ part) := by
  simp only [State.readConns, h]
  exact List.append_right_eq_self.mpr (List.filterMap_eq_nil_iff.mpr fun q _ => if_pos rfl)

/-- A table of connections that is taken away leaves the partition none (R346). -/
theorem execConnbWrite_of_clear (h : v.getLsbD 0 = false) : ∃ t, exec (.connbWrite part v) s = .next t ∧
    (t.hub.part part).connb.getLsbD 0 = false ∧ t.hub.conns = s.hub.conns.filter (fun c => c.part ≠ part) := by
  have hset : (s.hub.setPart part (fun r => { r with connb := maskWrite tableMask r.connb v })).part part =
      { s.hub.part part with connb := maskWrite tableMask (s.hub.part part).connb v } :=
    (Hub.part_setPart ..).trans (if_pos rfl)
  have htable : ((s.hub.setPart part (fun r =>
      { r with connb := maskWrite tableMask r.connb v })).part part).connb.getLsbD 0 = false := by
    rw [hset]
    exact getLsbD_connb_of_clear h _
  have hpart : ((s.connb part v).hub.part part).connb.getLsbD 0 = false := htable
  have hclear (l : List Nat) :
    l.foldl (fun s q => State.markConn part q false s) (s.connb part v) = s.connb part v := by
    induction l with
    | nil => rfl
    | cons q l ih =>
      rw [List.foldl_cons, State.markConn_of_noTable hpart, ih]
  refine ⟨s.connb part v, congrArg Host.Outcome.next (hclear _), hpart, ?_⟩
  exact State.readConns_of_clear (s := s.setPart part _) htable

theorem execCalctlQuotaWrite_of_room (h : s.hub.sumWith part (wbits 40 32 v) (fun r => wbits 40 32 r.calctl) ≤ 256) :
    exec (.calctlQuotaWrite part v) s =
      .next (s.setPart part (fun r => { r with calctl := setBits 40 32 (wbits 40 32 v) 0 })) :=
  congrArg Host.Outcome.next (if_neg (Nat.not_lt.mpr h))

theorem execPquotaWrite_of_room (hlines : s.hub.sumWith part (wbits 47 32 v) (fun r => wbits 47 32 r.pquota) ≤ 65536)
    (hversions : s.hub.sumWith part (wbits 20 0 v) (fun r => wbits 20 0 r.pquota) ≤ 1048576) :
    exec (.pquotaWrite part v) s =
      .next (s.setPart part (fun r => { r with pquota := maskWrite 0xffff001fffff r.pquota v })) :=
  congrArg Host.Outcome.next (if_neg (by omega))

theorem execPknumWrite_of_none (h : wbits 7 0 s.hub.mon.trlen = 0) :
    exec (.pknumWrite v) s = .next (s.setMon (fun m => { m with pknum := maskWrite 0x3f 0 v })) := by
  have hset : s.pknum v = s.setMon (fun m => { m with pknum := maskWrite 0x3f 0 v }) := by
    simp only [State.pknum, State.setMon, h, if_true]
  exact congrArg Host.Outcome.next hset

theorem execCtxresWrite_of_none (h : s.hub.launches = []) (hv : wbits 6 0 v ≤ 85) :
    exec (.ctxresWrite v) s = .next (s.setMon (fun m => { m with ctxres := maskWrite 0x7f 0 v })) :=
  congrArg Host.Outcome.next (if_neg (by simp [h, hv]))

end

/-- Settles O59: the commands one by one, then the registers. -/
theorem commandsAndRegisters : Obligations.CommandsAndRegisters := by
  intro s chip part core
  refine ⟨fun h hfree hto => chctlAssign_done h hfree hto, fun h => chctlUnassign_done h,
    fun h => chctlEnumerate_done h,
    fun h => chctlIsolate_begins h, fun i h => chctlIsolate_ends h, fun h => chctlReset_begins h,
    fun h => chctlReset_ends h, fun k h hto _ => chctlAssignPort_done h hto, fun k p h => chctlUnassignPort_done h,
    fun i => isolationSaveTimeout_of_none_late, fun i l g why => isolationSaveTimeout_of_late,
    fun i t0 => isolationDrainTimeout_done, fun h => ncoreStart_done h, fun h => ncoreHalt_done h,
    fun v region h _ => ncrqMakeNoncoherent_done h, fun v region h _ => ncrqMakeCoherent_done h, fun v => ?_⟩
  refine ⟨fun h => execNdoorWrite_of_core, rfl, rfl, execCalctlQuotaWrite_of_room,
    fun h => congrArg Host.Outcome.next (if_pos h), rfl, fun t => execCalctlFlush_quires, ⟨_, rfl, rfl, rfl⟩,
    fun h _ => execConnbWrite_of_clear h, execPquotaWrite_of_room, fun h => congrArg Host.Outcome.next (if_neg h),
    fun h => congrArg Host.Outcome.next (if_pos h), rfl, execPknumWrite_of_none, execCtxresWrite_of_none, rfl, rfl, rfl,
    fun i hi => congrArg Host.Outcome.next (if_pos hi), rfl, rfl, rfl, rfl⟩

end Sys2Proof.Machine
end
section
/-! Accesses at their home (R185, R187, R190, R191, R201, R232, R235, R355): how a store and an atomic are stamped and
performed, how a load is answered, and how direct stores, watch entries and `tlbinv` end. -/

namespace Sys2Proof.Machine

/-! ### A write at the home -/

theorem Hub.lineMeta_setLine {hb : Hub} (h : NMap.wf LineMeta.zero hb.lines = true) (line : Nat)
    (f : LineMeta → LineMeta) (j : Nat) :
    (hb.setLine line f).lineMeta j = if j = line then f (hb.lineMeta line) else hb.lineMeta j := by
  split
  next hj => exact hj ▸ NMap.get_put_self h
  next hj => exact NMap.get_put_of_ne hj h

/-- What the home keeps of a line after a committed write (R190, R396). -/
def LineMeta.committed (whole : Bool) (t : Nat) (m : LineMeta) : LineMeta :=
  { m.rewrite whole with wts := t, rts := t, dir := 0, tenure := none }

/-- The hub after a committed write to a line of memory: its bytes, its line, and what a write lets go of or awakes. -/
theorem Hub.commit_root {hb : Hub} {line : Nat} (hvault : hb.vaultLine line = false) (who : HartId) (tick part : Nat)
    (bs : List (Nat × Byte)) (t : Nat) (quiet : Bool) : ∃ whole invs ds qs ws stamp base,
    hb.commit who tick part 0 line bs t quiet = { hb.setLine line (LineMeta.committed whole t) with
      mem := NMap.putAll 0#8 (bs.map (fun e => (line * 128 + e.1, e.2))) hb.mem
      invs := invs, dram := ds, queues := qs, watches := ws, stamp := stamp, base := base } := by
  simp only [Hub.commit, if_true, hvault, Bool.false_eq_true, if_false, Hub.mscWrite]
  obtain ⟨ds, e⟩ := Hub.mscTouch_frame line true { Hub.setLine line (LineMeta.committed
      ((List.range 128).all (fun k => bs.any (fun e => e.1 = k))) t)
      { hb with mem := NMap.putAll 0#8 (bs.map (fun e => (line * 128 + e.1, e.2))) hb.mem } with
    invs := hb.invs.filter (fun i => i.line ≠ line) }
  cases quiet
  · exact ⟨_, _, ds, _, _, _, _, congrArg (fun h => ((Hub.ringBells line bs h).raise t).testWatches part 0 line t) e⟩
  · exact ⟨_, _, ds, _, _, _, _, congrArg (fun h => (Hub.ringBells line bs h).raise t) e⟩

/-- A write of the acting hart has been committed at `time` (R190). -/
structure Committed (line : Nat) (bs : List (Nat × Byte)) (time : Nat) (u t : State) : Prop where
  storeTime : t.me.spr.storeTime = time
  maxStamp : time ≤ t.me.lsu.maxStamp
  lines : ∃ m, (∀ j, t.hub.lineMeta j = if j = line then m else u.hub.lineMeta j) ∧ m.wts = time ∧ m.rts = time ∧
    m.dir = 0
  mem : t.hub.mem = NMap.putAll 0#8 (bs.map (fun e => (line * 128 + e.1, e.2))) u.hub.mem
  writes : t.me.lsu.writes = u.me.lsu.writes
  regs : t.me.regs = u.me.regs
  sched : t.me.sched = u.me.sched
  ring : t.ring = u.ring

theorem State.commitOwn_committed {u : State} {line : Nat} (hcore : u.me.isCore = false)
    (hvault : u.hub.vaultLine line = false) (hwf : NMap.wf LineMeta.zero u.hub.lines = true) (part : Nat)
    (bs : List (Nat × Byte)) (t : Nat) (quiet : Bool) :
    Committed line bs t u (u.commitOwn part 0 line bs t quiet) := by
  have hno : u.me.coreNo = none := by
    cases hid : u.me.id <;> simp_all [Hart.coreNo, Hart.isCore]
  obtain ⟨whole, invs, ds, qs, ws, stamp, base, e⟩ := Hub.commit_root hvault u.me.id
    (u.hub.clk + Config.freeNat u.free) part bs t quiet
  simp only [State.commitOwn, hno, e]
  cases u.hub.poisonHit part 0 line bs.length
  all_goals exact ⟨rfl, Nat.le_max_right ..,
    ⟨_, Hub.lineMeta_setLine hwf line (LineMeta.committed whole t), rfl, rfl, rfl⟩,
    rfl, rfl, rfl, rfl, rfl⟩

/-- The time of a write lies above every time of its line and is not below the floor (R190). -/
theorem Hub.stampTime_root (hb : Hub) (part line floor : Nat) : floor ≤ hb.stampTime part 0 line floor ∧
    (hb.lineMeta line).wts < hb.stampTime part 0 line floor ∧
      (hb.lineMeta line).rts < hb.stampTime part 0 line floor := by
  change floor ≤ max floor (max ((hb.lineMeta line).wts + 1) (max ((hb.lineMeta line).rts + 1) (hb.ackTime line))) ∧
    (hb.lineMeta line).wts < max floor
      (max ((hb.lineMeta line).wts + 1) (max ((hb.lineMeta line).rts + 1) (hb.ackTime line))) ∧
    (hb.lineMeta line).rts < max floor
      (max ((hb.lineMeta line).wts + 1) (max ((hb.lineMeta line).rts + 1) (hb.ackTime line)))
  omega

/-! ### A store -/

/-- A write of a tread to a line of memory that no peer holds, with nothing of an engine under way. -/
def StampsAlone (w : Write) (u : State) : Prop :=
  w.tick ≤ u.hub.clk ∧ w.hyp = 0 ∧ u.hub.loc w.pa = .hbm ∧ u.me.isCore = false ∧
    u.hub.vaultLine (lineOf w.pa) = false ∧ u.hub.exclusive (lineOf w.pa) = none ∧
    (u.hub.lineMeta (lineOf w.pa)).dir = 0 ∧ u.me.units.eng = [] ∧ NMap.wf LineMeta.zero u.hub.lines = true

/-- What a stamped write leaves: its time lies above the floor of the hart and the times of its line. -/
def Stamped (w : Write) (bs : List (Nat × Byte)) (u t : State) : Prop := ∃ time,
  u.me.floor ≤ time ∧ (u.hub.lineMeta (lineOf w.pa)).wts < time ∧ (u.hub.lineMeta (lineOf w.pa)).rts < time ∧
  t.me.spr.storeTime = time ∧ time ≤ t.me.lsu.maxStamp ∧
  (∃ m, (∀ j, t.hub.lineMeta j = if j = lineOf w.pa then m else u.hub.lineMeta j) ∧ m.wts = time ∧ m.rts = time ∧
    m.dir = 0) ∧
  t.hub.mem = NMap.putAll 0#8 (bs.map (fun e => (lineOf w.pa * 128 + e.1, e.2))) u.hub.mem ∧
  t.me.lsu.writes = u.me.lsu.writes.filter (fun x => x.seq ≠ w.seq) ∧ t.me.regs = u.me.regs ∧ t.ring = u.ring

theorem Committed.stamped {w : Write} {bs : List (Nat × Byte)} {time : Nat} {u c t : State}
    (h : Committed (lineOf w.pa) bs time u c)
    (htime : u.me.floor ≤ time ∧ (u.hub.lineMeta (lineOf w.pa)).wts < time ∧ (u.hub.lineMeta (lineOf w.pa)).rts < time)
    (hspr : t.me.spr = c.me.spr) (hlsu : t.me.lsu = (c.me.dropWrite w.seq).lsu) (hlines : t.hub.lines = c.hub.lines)
    (hmem : t.hub.mem = c.hub.mem) (hregs : t.me.regs = c.me.regs) (hring : t.ring = c.ring) : Stamped w bs u t := by
  obtain ⟨hstore, hmax, ⟨m, hm, hfields⟩, hcmem, hwrites, hcregs, -, hcring⟩ := h
  obtain ⟨hfloor, hwts, hrts⟩ := htime
  refine ⟨time, hfloor, hwts, hrts, (congrArg _ hspr).trans hstore, ?_, ⟨m, fun j => ?_, hfields⟩, hmem.trans hcmem, ?_,
    hregs.trans hcregs, hring.trans hcring⟩
  · rw [hlsu]
    exact hmax
  · rw [← hm j, Hub.lineMeta, Hub.lineMeta, hlines]
  · rw [hlsu, ← hwrites]
    rfl

theorem State.clearPeers_of_none {u : State} {line : Nat} (h : (u.hub.lineMeta line).dir = 0) (except : Option Nat) :
    u.clearPeers line except = none := by
  have hcovered : covered 0#32 = [] := by decide
  simp [State.clearPeers, h, hcovered]

theorem Hub.mscClean_frame (line : Nat) (hb : Hub) : ∃ ds, hb.mscClean line = { hb with dram := ds } := by
  unfold Hub.mscClean Hub.onStack
  split
  · exact ⟨_, rfl⟩
  · exact ⟨hb.dram, rfl⟩

/-- A store whose line nobody else has is stamped at once, with a time above that of the line. -/
theorem State.stampStore_alone {w : Write} {u : State} (h : StampsAlone w u) :
    Stamped w w.cells u (u.stampStore w) := by
  obtain ⟨-, hhyp, hloc, hcore, hvault, -, hdir, -, hwf⟩ := h
  have hcached : u.coreCached w = false := by simp [State.coreCached, hcore]
  obtain ⟨floor, hfloor⟩ : ∃ f, (if w.isBack ∧ u.me.ctl.run = .retired then Nat.max u.hub.base u.me.floor
      else u.me.floor) = f := ⟨_, rfl⟩
  have hle : u.me.floor ≤ floor := by
    rw [← hfloor]
    split
    · exact Nat.le_max_right ..
    · exact le_rfl
  obtain ⟨htime, hwts, hrts⟩ := u.hub.stampTime_root w.part (lineOf w.pa) floor
  have hcommit := State.commitOwn_committed hcore hvault hwf w.part w.cells
    (u.hub.stampTime w.part 0 (lineOf w.pa) floor) false
  have hout : Loc.hbm.outside = none := rfl
  simp only [State.stampStore, hloc, hcached, Bool.false_eq_true, if_false, hout, State.clearPeers_of_none hdir, hfloor,
    hhyp]
  split
  · obtain ⟨ds, e⟩ := Hub.mscClean_frame (lineOf w.pa)
      (u.commitOwn w.part 0 (lineOf w.pa) w.cells (u.hub.stampTime w.part 0 (lineOf w.pa) floor) false).hub
    rw [e]
    exact hcommit.stamped ⟨hle.trans htime, hwts, hrts⟩ rfl rfl rfl rfl rfl rfl
  · exact hcommit.stamped ⟨hle.trans htime, hwts, hrts⟩ rfl rfl rfl rfl rfl rfl

section
variable {s u : State} {h : HartId}

theorem writeStamp_stamped (e : s.focus h = some u) {w : Write} (hw : u.me.headWrite = some w)
    (hstore : w.isStore = true)
    (halone : StampsAlone w u) : ∃ t, exec (.writeStamp h) s = .next t ∧ Stamped w w.cells u t := by
  have htick : w.tick ≤ u.hub.clk := halone.1
  refine ⟨_, next_onHart_of_focus e ?_, State.stampStore_alone halone⟩
  simp only [hw]
  exact if_pos ⟨hstore, htick⟩

/-! ### An atomic -/

/-- The bytes that an atomic finds do not depend on the state of lines. -/
theorem Hub.valueAt_readLine (line part node pa n : Nat) (hb : Hub) :
    (hb.readLine line).valueAt part node pa n = hb.valueAt part node pa n := by
  obtain ⟨ls, ds, e⟩ := hb.readLine_frame line
  rw [e]
  rfl

theorem Hub.vaultLine_readLine (line l : Nat) (hb : Hub) : (hb.readLine line).vaultLine l = hb.vaultLine l := by
  obtain ⟨ls, ds, e⟩ := hb.readLine_frame line
  rw [e]
  rfl

theorem Hub.readLine_lineMeta {hb : Hub} (h : NMap.wf LineMeta.zero hb.lines = true) (line j : Nat) :
    (hb.readLine line).lineMeta j = if j = line then (hb.lineMeta line).verify else hb.lineMeta j := by
  obtain ⟨ds, e⟩ := hb.mscTouch_frame line false
  rw [Hub.readLine, e]
  exact Hub.lineMeta_setLine (hb := { hb with dram := ds }) h line LineMeta.verify j

theorem Hub.readLine_wf {hb : Hub} (h : NMap.wf LineMeta.zero hb.lines = true) (line : Nat) :
    NMap.wf LineMeta.zero (hb.readLine line).lines = true := by
  obtain ⟨ds, e⟩ := hb.mscTouch_frame line false
  rw [Hub.readLine, e]
  exact NMap.wf_put h

/-- The bytes that an atomic leaves in its line (R232). -/
def amoCells (op : AmoOp) (d : Bool) (v c : Word) (old pa : Nat) : List (Nat × Byte) :=
  let n := if d then 8 else 4
  let cells := (toBytes n (amoApply op (8 * n) old (v.toNat % 2 ^ (8 * n)) (c.toNat % 2 ^ (8 * n)))).mapIdx
    (fun k b => (pa % 128 + k, b))
  if op = .cas ∧ old ≠ c.toNat % 2 ^ (8 * n) then [] else cells

theorem Hub.poisonRead_root (hb : Hub) (part pa n : Nat) : hb.poisonRead part 0 pa n = hb.poisoned pa :=
  Bool.or_false _

/-- What a write has left after the home read its line: the times are those of the line before. -/
theorem Committed.of_readLine {line time : Nat} {bs : List (Nat × Byte)} {u c : State}
    (hwf : NMap.wf LineMeta.zero u.hub.lines = true)
    (h : Committed line bs time { u with hub := u.hub.readLine line } c) : Committed line bs time u c := by
  obtain ⟨hstore, hmax, ⟨m, hm, hfields⟩, hmem, hwrites, hregs, hsched, hring⟩ := h
  refine ⟨hstore, hmax, ⟨m, fun j => ?_, hfields⟩, ?_, hwrites, hregs, hsched, hring⟩
  · rw [hm j]
    split
    · rfl
    next hj => exact (Hub.readLine_lineMeta hwf line j).trans (if_neg hj)
  · rw [hmem, Hub.readLine_mem]

/-- An atomic whose line nobody else has is performed on the bytes that it finds, and stamped. -/
theorem State.atomicHere_eq {w : Write} {op : AmoOp} {d : Bool} {v c : Word} {q : Nat} {r : BitVec 6} {u : State}
    (hkind : w.kind = .amo op d v c q r) (h : StampsAlone w u) (hgood : u.hub.poisoned w.pa = false) :
    ∃ quiet, u.atomicHere w .hbm = (State.commitOwn w.part 0 (lineOf w.pa)
      (amoCells op d v c (u.hub.valueAt w.part 0 w.pa (if d then 8 else 4)) w.pa)
      ((u.hub.readLine (lineOf w.pa)).stampTime w.part 0 (lineOf w.pa) u.me.floor) quiet
      { u with hub := u.hub.readLine (lineOf w.pa) }).atomicDone w (u.hub.valueAt w.part 0 w.pa (if d then 8 else 4))
        ((u.hub.readLine (lineOf w.pa)).stampTime w.part 0 (lineOf w.pa) u.me.floor) := by
  obtain ⟨-, hhyp, -, -, -, hexcl, hdir, -, -⟩ := h
  have hrecall : u.recallOf (lineOf w.pa) = none := by simp only [State.recallOf, hexcl]
  have hfloor : Nat.max u.me.floor (u.me.engineFloor w) = u.me.floor := by
    rw [Hart.engineFloor, hkind]
    exact Nat.max_eq_left (Nat.zero_le _)
  simp only [State.atomicHere, hkind, WKind.atom, hhyp, Hub.poisonRead_root, hgood, Bool.false_eq_true, and_false,
    if_false, hrecall, State.clearPeers_of_none hdir, Hub.valueAt_readLine, hfloor]
  refine ⟨op = .cas && u.hub.valueAt w.part 0 w.pa (if d then 8 else 4) ≠ c.toNat % 2 ^ (8 * if d then 8 else 4), ?_⟩
  simp only [amoCells, Bool.and_eq_true, decide_eq_true_eq]
  rfl

/-- A result reaches the entry that awaits it (R232). -/
def Sched.delivered (seq : Nat) (effs : List Eff) (sc : Sched) : Sched :=
  { sc with pipe := sc.pipe.map (fun p => if p.seq = seq ∧ p.effs.isNone then { p with effs := some effs } else p) }

theorem Hart.sched_deliver (seq : Nat) (effs : List Eff) (h : Hart) :
    (h.deliver seq effs).sched = h.sched.delivered seq effs := rfl

theorem State.atomicHere_alone {w : Write} {op : AmoOp} {d : Bool} {v c : Word} {q : Nat} {r : BitVec 6} {u : State}
    (hkind : w.kind = .amo op d v c q r) (h : StampsAlone w u) (hgood : u.hub.poisoned w.pa = false) :
    let old := u.hub.valueAt w.part 0 w.pa (if d then 8 else 4)
    Stamped w (amoCells op d v c old w.pa) u (u.atomicHere w .hbm) ∧
    (u.atomicHere w .hbm).me.sched = u.me.sched.delivered q [.s r (amoResult op (8 * if d then 8 else 4) old),
      .lt (u.atomicHere w .hbm).me.spr.storeTime] := by
  obtain ⟨quiet, e⟩ := State.atomicHere_eq hkind h hgood
  obtain ⟨-, -, -, hcore, hvault, -, -, -, hwf⟩ := h
  have hcommit := (State.commitOwn_committed (u := { u with hub := u.hub.readLine (lineOf w.pa) }) (line := lineOf w.pa)
    hcore ((Hub.vaultLine_readLine ..).trans hvault) (Hub.readLine_wf hwf _) w.part
    (amoCells op d v c (u.hub.valueAt w.part 0 w.pa (if d then 8 else 4)) w.pa)
    ((u.hub.readLine (lineOf w.pa)).stampTime w.part 0 (lineOf w.pa) u.me.floor) quiet).of_readLine hwf
  have htime := (u.hub.readLine (lineOf w.pa)).stampTime_root w.part (lineOf w.pa) u.me.floor
  rw [Hub.readLine_lineMeta hwf, if_pos rfl] at htime
  rw [e]
  simp only [State.atomicDone, hkind]
  refine ⟨hcommit.stamped htime rfl rfl rfl rfl rfl rfl, ?_⟩
  have hwidth : (if d then 64 else 32) = 8 * if d then 8 else 4 := by cases d <;> rfl
  have htime' := hcommit.storeTime
  refine (Hart.sched_deliver ..).trans ?_
  rw [hwidth]
  exact congrArg₂ (fun x sc => Sched.delivered q [.s r (amoResult op (8 * if d then 8 else 4)
    (u.hub.valueAt w.part 0 w.pa (if d then 8 else 4))), .lt x] sc) htime'.symm hcommit.sched

theorem execAtomicAtHome_alone (e : s.focus h = some u) {w : Write} {op : AmoOp} {d : Bool} {v c : Word} {q : Nat}
    {r : BitVec 6} (hsignal : u.me.readySignal = none) (hw : u.me.headWrite = some w)
    (hkind : w.kind = .amo op d v c q r) (halone : StampsAlone w u) :
    exec (.atomicAtHome h) s = .next (u.atomicHere w .hbm) := by
  have htick : w.tick ≤ u.hub.clk := halone.1
  have hloc : u.hub.loc w.pa = .hbm := halone.2.2.1
  have hno : w.isStore = false := by rw [Write.isStore, hkind]
  refine next_onHart_of_focus e ?_
  simp only [hsignal, hw, hno, htick, State.stampAtomic, hloc]
  rfl

end

/-! ### A load -/

/-- Reads at the home for a load change nothing that the load, its hart and the others see of memory and registers. -/
structure ReadsOnly (s t : State) : Prop where
  spr : t.me.spr = s.me.spr
  asks : t.me.lsu.asks = s.me.lsu.asks
  sched : t.me.sched = s.me.sched
  regs : t.me.regs = s.me.regs
  mem : t.hub.mem = s.hub.mem
  ring : t.ring = s.ring

theorem ReadsOnly.trans {s t u : State} (h : ReadsOnly s t) (g : ReadsOnly t u) : ReadsOnly s u :=
  ⟨g.spr.trans h.spr, g.asks.trans h.asks, g.sched.trans h.sched, g.regs.trans h.regs, g.mem.trans h.mem,
    g.ring.trans h.ring⟩

/-- A piece that misses is filled or read at its home (R191). -/
def State.readPiece (a : Ask) (t : Nat) (s : State) (p : Piece) : State :=
  if s.leased p then s.fillLine a.part a.hyp t p.pa p.len
  else { s with hub := s.hub.readAt a.part a.hyp (locOf p.pa) p.len t }

theorem State.readPiece_reads (a : Ask) (t : Nat) (s : State) (p : Piece) : ReadsOnly s (s.readPiece a t p) := by
  unfold State.readPiece
  split
  · obtain ⟨_, _, _, _, _, _, _, e⟩ := s.fillLine_frame a.part a.hyp t p.pa p.len
    rw [e]
    exact ⟨rfl, rfl, rfl, rfl, rfl, rfl⟩
  · exact ⟨rfl, rfl, rfl, rfl, Hub.readAt_mem .., rfl⟩

theorem State.readPieces_reads (a : Ask) (t : Nat) (ps : List Piece) (s : State) :
    ReadsOnly s (ps.foldl (State.readPiece a t) s) := by
  induction ps generalizing s with
  | nil => exact ⟨rfl, rfl, rfl, rfl, rfl, rfl⟩
  | cons p ps ih => exact (s.readPiece_reads a t p).trans (ih _)

/-- The time of a load: the greatest that its pieces show, and no lower than `LT` (R191). -/
def State.askTime (a : Ask) (s : State) : Nat := a.pieces.foldl (fun t p => Nat.max t (s.pieceTime a p)) s.me.spr.lt

section
variable {a : Ask} {s v : State}

/-- A load that does not fail, whose lines nobody has exclusively and that nothing earlier holds up is answered. -/
theorem State.answerAsk_of_free (hv : s.modMe (fun h => h.raiseLt (h.amoTime a.seq)) = v)
    (hgood : v.askFailure a = none)
    (hfree : ∀ p ∈ v.misses a, v.hub.exclusive (lineOf p.pa) = none)
    (hgo : ∀ p ∈ a.pieces, p.direct = false → v.me.blocked a.seq (lineOf p.pa) = false ∧ v.regPending a p = false) :
    s.answerAsk a = ((v.misses a).foldl (State.readPiece a (v.askTime a)) v).modMe (fun h =>
      (h.raiseLt (v.askTime a)).finishAsk a.seq (loadEffs a.dest (v.allBytes a a.pieces a.tags))) := by
  have hrecall : (v.misses a).findSome? (fun p => v.recallOf (lineOf p.pa)) = none :=
    List.findSome?_eq_none_iff.mpr fun p hp => by simp only [State.recallOf, hfree p hp]
  have hblocked : a.pieces.any (fun p => !p.direct && (v.me.blocked a.seq (lineOf p.pa) || v.regPending a p)) = false :=
    List.any_eq_false.mpr fun p hp => by
      cases hd : p.direct
      · obtain ⟨hb, hr⟩ := hgo p hp hd
        simp [hb, hr]
      · simp
  simp only [State.answerAsk, hv, hgood, hrecall, hblocked]
  rfl

end

theorem le_foldl_max_start {α : Type} (g : α → Nat) (b : Nat) (l : List α) :
    b ≤ l.foldl (fun t x => Nat.max t (g x)) b := by
  induction l generalizing b with
  | nil => exact le_rfl
  | cons x l ih => exact (Nat.le_max_left b (g x)).trans (ih _)

theorem State.raiseLt_askTime (a : Ask) (s : State) : Nat.max s.me.spr.lt (s.askTime a) = s.askTime a :=
  Nat.max_eq_right (le_foldl_max_start ..)

/-- Lines of the lease cache may be gone, and a free value is taken (R25). -/
theorem State.maybeEvict_frame (a : Ask) (u : State) : ∃ ls, u.maybeEvict a =
    { u with free := u.free + 1, me := { u.me with lsu := { u.me.lsu with lease := ls } } } := by
  unfold State.maybeEvict
  cases Config.freeBool u.free
  · exact ⟨u.me.lsu.lease, rfl⟩
  · exact ⟨_, rfl⟩

/-- The system registers after `LT` has risen to a time. -/
def Sprs.raised (t : Nat) (r : Sprs) : Sprs := { r with lt := Nat.max r.lt t }

/-- A load has its value: `LT` is its time, and its result awaits its turn (R191). -/
theorem leaseFill_answered {s u v : State} {h : HartId} (e : s.focus h = some u) {a : Ask} {l : Nat}
    (ha : u.me.headAsk = some a) (htick : a.tick ≤ u.hub.clk) (hanswered : a.answered = true)
    (hfills : u.coreFills a = none) (hv : (u.maybeEvict a).modMe (Hart.raiseLt (u.me.amoTime a.seq)) = v)
    (hgood : v.askFailure a = none) (hfree : ∀ p ∈ v.misses a, v.hub.exclusive (lineOf p.pa) = none)
    (hgo : ∀ p ∈ a.pieces, p.direct = false → u.me.blocked a.seq (lineOf p.pa) = false ∧ v.regPending a p = false)
    (hl : ∃ p ∈ a.pieces, lineOf p.pa = l) : ∃ t, exec (.leaseFill h l) s = .next t ∧
      t.me.spr = { u.me.spr with lt := v.askTime a } ∧
      t.me.lsu.asks = u.me.lsu.asks.filter (fun x => x.seq ≠ a.seq) ∧
      t.me.sched = u.me.sched.delivered a.seq (loadEffs a.dest (v.allBytes a a.pieces a.tags)) ∧
      t.me.regs = u.me.regs ∧ t.hub.mem = u.hub.mem ∧ t.ring = u.ring := by
  obtain ⟨ls, hevict⟩ := u.maybeEvict_frame a
  have hv' : (u.maybeEvict a).modMe (fun h => h.raiseLt (h.amoTime a.seq)) = v := by
    rw [← hv, hevict]
    rfl
  have hblocked (line : Nat) : v.me.blocked a.seq line = u.me.blocked a.seq line := by
    rw [← hv, hevict]
    rfl
  have hat : a.pieces.any (fun p => lineOf p.pa = l) = true := by
    obtain ⟨p, hp, hpl⟩ := hl
    exact List.any_eq_true.mpr ⟨p, hp, decide_eq_true hpl⟩
  have hanswer := State.answerAsk_of_free hv' hgood hfree fun p hp hd => by rw [hblocked]; exact hgo p hp hd
  obtain ⟨x, hvspr, hvasks, hvsched, hvregs, hvmem, hvring⟩ : ∃ x, v.me.spr = { u.me.spr with lt := x } ∧
      v.me.lsu.asks = u.me.lsu.asks ∧ v.me.sched = u.me.sched ∧ v.me.regs = u.me.regs ∧ v.hub.mem = u.hub.mem ∧
      v.ring = u.ring := by
    rw [← hv, hevict]
    exact ⟨_, rfl, rfl, rfl, rfl, rfl, rfl⟩
  obtain ⟨hspr, hasks, hsched, hregs, hmem, hring⟩ := v.readPieces_reads a (v.askTime a) (v.misses a)
  have hmax := v.raiseLt_askTime a
  refine ⟨_, next_onHart_of_focus e ((by simp only [ha]; exact if_pos ⟨htick, hanswered, by rw [hfills]; rfl, hat⟩)),
    ?_⟩
  rw [hanswer]
  refine ⟨?_, congrArg (List.filter (fun y : Ask => y.seq ≠ a.seq)) (hasks.trans hvasks), ?_, hregs.trans hvregs,
    hmem.trans hvmem, hring.trans hvring⟩
  · calc Sprs.raised (v.askTime a) ((v.misses a).foldl (State.readPiece a (v.askTime a)) v).me.spr
        = Sprs.raised (v.askTime a) v.me.spr := congrArg _ hspr
      _ = { v.me.spr with lt := v.askTime a } := by rw [Sprs.raised, hmax]
      _ = { u.me.spr with lt := v.askTime a } := by rw [hvspr]
  · exact congrArg (Sched.delivered a.seq _) (hsched.trans hvsched)

/-! ### Direct stores and deliveries -/

theorem foldl_setLine_wf {α : Type} (g : α → Nat) (f : α → LineMeta → LineMeta) (l : List α) {hb : Hub}
    (h : NMap.wf LineMeta.zero hb.lines = true) :
    NMap.wf LineMeta.zero (l.foldl (fun h x => h.setLine (g x) (f x)) hb).lines = true := by
  induction l generalizing hb with
  | nil => exact h
  | cons x l ih => exact ih (NMap.wf_put h)

/-- A direct store of a whole unit leaves it without poison (R396). -/
theorem Hub.landStore_poison {v : VStore} {hb : Hub} (hwf : NMap.wf LineMeta.zero hb.lines = true)
    (hwhole : v.whole = true) (hend : (v.pa + v.bytes.length) % 128 = 0) :
    ((hb.landStore v).lineMeta (v.pa / 128)).poison = false := by
  have hput : NMap.wf LineMeta.zero (hb.putVault v.pa v.bytes).lines = true :=
    foldl_setLine_wf (fun t : Nat × Bool => t.1) (fun t => LineMeta.rewrite t.2) (touched v.pa v.bytes.length)
      (hb := { hb with mem := putBytes v.pa v.bytes hb.mem }) hwf
  rw [Hub.landStore, if_pos ⟨hwhole, hend⟩, Hub.lineMeta_setLine hput, if_pos rfl]

theorem Hub.landStore_mem (v : VStore) (hb : Hub) : (hb.landStore v).mem = putBytes v.pa v.bytes hb.mem := by
  unfold Hub.landStore
  split
  · exact Hub.putVault_mem ..
  · exact Hub.putVault_mem ..

section
variable {s u : State} {h : HartId}

/-- A hart whose first direct store has landed. -/
def Hart.storeLanded (hit : Bool) (rest : List VStore) (h : Hart) : Hart :=
  let h := if hit then h.setPending 2 else h
  { h with lsu := { h.lsu with vstores := rest } }

theorem vaultStoreLands_done (e : s.focus h = some u) {v : VStore} {r : List VStore} (hv : u.me.lsu.vstores = v :: r)
    (htick : v.tick ≤ u.hub.clk) : ∃ t, exec (.vaultStoreLands h) s = .next t ∧
      t.hub.mem = putBytes v.pa v.bytes u.hub.mem ∧ t.ring = u.ring ∧
      t.me = { (if v.whole = false ∧ u.hub.vaultHit v.pa v.bytes.length = true then u.me.setPending 2 else u.me) with
        lsu := { u.me.lsu with vstores := r } } ∧
      (NMap.wf LineMeta.zero u.hub.lines = true → v.whole = true → (v.pa + v.bytes.length) % 128 = 0 →
        (t.hub.lineMeta (v.pa / 128)).poison = false) := by
  obtain ⟨bs, hbanks⟩ := State.settleBanks_frame ({ u with hub := u.hub.landStore v }.modMe
    (Hart.storeLanded (!v.whole && u.hub.vaultHit v.pa v.bytes.length) r))
  have hexec : exec (.vaultStoreLands h) s = .next (State.settleBanks ({ u with hub := u.hub.landStore v }.modMe
      (Hart.storeLanded (!v.whole && u.hub.vaultHit v.pa v.bytes.length) r))) := by
    refine next_onHart_of_focus e ?_
    simp only [hv]
    exact if_pos htick
  rw [hbanks] at hexec
  refine ⟨_, hexec, Hub.landStore_mem .., rfl, ?_, fun hwf hwhole hend => ?_⟩
  · cases v.whole <;> cases u.hub.vaultHit v.pa v.bytes.length <;> rfl
  · exact Hub.landStore_poison hwf hwhole hend

theorem vaultStoreLands_delivery (e : s.focus h = some u) {d : Delivery} (hv : u.me.lsu.vstores = [])
    (hd : u.hub.headDelivery h = some d) (htick : d.tick ≤ u.hub.clk) :
    ∃ t, exec (.vaultStoreLands h) s = .next t ∧ t.hub.mem = NMap.putAll 0#8 d.cells u.hub.mem ∧
      t.hub.deliveries = u.hub.deliveries.erase d ∧ t.me = u.me ∧ t.ring = u.ring := by
  have hexec : exec (.vaultStoreLands h) s =
      .next { u with hub := { u.hub.putCells d.cells with deliveries := u.hub.deliveries.erase d } } := by
    refine next_onHart_of_focus e ?_
    simp only [hv, hd]
    exact if_pos htick
  exact ⟨_, hexec, Hub.putCells_mem .., rfl, rfl, rfl⟩

end

/-! ### Watch entries, rechecks and `tlbinv` -/

theorem watchTrigger_done {s : State} {h : HartId} {w : Watch} {t0 : Nat} (hone : s.hub.watches = [w])
    (hwho : w.who = Waiter.hart h) (hhit : w.hit = some t0) : exec (.watchTrigger h) s =
      .next (State.mapId h (fun x => { x with lsu := { x.lsu with mon := .satisfied t0 } })
        { s with hub := { s.hub with watches := [] } }) := by
  change execWatchTrigger h s = _
  simp [execWatchTrigger, hone, hwho, hhit]

theorem monWaitRecheck_done {u : State} {t0 : Nat} {w : Watch} (hm : u.me.lsu.mon = .recheck t0 w)
    (htick : t0 ≤ u.hub.clk) : exec (.monWaitRecheck u.me.id) u = .next ((u.monCheck u.me.spr.lt w).2.mapId u.me.id
      (fun x => { x with lsu := { x.lsu with mon := (u.monCheck u.me.spr.lt w).1 } })) := by
  have hme : u.anyHart? u.me.id = some u.me := List.find?_cons_of_pos (decide_eq_true rfl)
  change execMonWaitRecheck u.me.id u = _
  rw [execMonWaitRecheck, hme]
  simp only [hm]
  exact if_pos htick

/-- A hart without the translations that a `tlbinv` covers, and without its fetched line (R355). -/
def Hart.withoutXlats (v : TlbInv) (h : Hart) : Hart :=
  { h with lsu := { h.lsu with tlb := h.lsu.tlb.filter (fun x => !v.covers x) }, ctl := { h.ctl with line := none } }

theorem State.mapAll_harts (f : Hart → Hart) (s : State) : (s.mapAll f).harts = s.harts.map f := rfl

theorem not_covers_of_mem_filter {v : TlbInv} {l : List Xlat} {x : Xlat} (h : x ∈ l.filter (fun x => !v.covers x)) :
    v.covers x = false := by
  simpa using (List.mem_filter.mp h).2

section
variable {s : State} {v : TlbInv}

theorem tlbinvComplete_empties (hone : s.hub.tlbinvs = [v]) (htick : v.tick ≤ s.hub.clk) (hmarks : v.marks = none) :
    ∃ t, exec (.tlbinvComplete v.id) s = .next t ∧ t.me.regs = s.me.regs ∧
      (∀ x ∈ t.harts, ∀ e ∈ x.lsu.tlb, v.covers e = false) ∧ (∀ x ∈ t.harts, x.ctl.line = none) ∧
      ∀ l ∈ t.hub.caches, ∀ e ∈ l, v.covers e = false := by
  have hfind : s.hub.tlbinvs.find? (fun t => t.id = v.id) = some v := by simp [hone]
  have hexec : ∃ is, exec (.tlbinvComplete v.id) s = .next { s.mapAll (Hart.withoutXlats v) with
      hub := { (s.mapAll (Hart.withoutXlats v)).hub with
        caches := s.hub.caches.map (List.filter (fun x => !v.covers x)), tlbinvs := is } } := by
    change ∃ is, execTlbinvComplete v.id s = _
    simp only [execTlbinvComplete, hfind, if_neg (Nat.not_lt.mpr htick), hmarks]
    exact ⟨_, rfl⟩
  obtain ⟨is, hexec⟩ := hexec
  have hharts {x : Hart} (hx : x ∈ (s.mapAll (Hart.withoutXlats v)).harts) : ∃ y : Hart, y.withoutXlats v = x := by
    rw [State.mapAll_harts] at hx
    obtain ⟨y, -, hy⟩ := List.mem_map.mp hx
    exact ⟨y, hy⟩
  refine ⟨_, hexec, rfl, fun x hx e he => ?_, fun x hx => ?_, fun l hl e he => ?_⟩
  · obtain ⟨y, rfl⟩ := hharts hx
    exact not_covers_of_mem_filter he
  · obtain ⟨y, rfl⟩ := hharts hx
    rfl
  · obtain ⟨l', -, rfl⟩ := Vector.mem_map.mp hl
    exact not_covers_of_mem_filter he

theorem tlbinvComplete_ends (hone : s.hub.tlbinvs = [v]) (htick : v.tick ≤ s.hub.clk) (hmarks : v.marks = some []) :
    ∃ t, exec (.tlbinvComplete v.id) s = .next t ∧ t.hub.tlbinvs = [] ∧ t.me.regs = s.me.regs ∧
      t.me.lsu.tlbinvs =
        (if s.me.id = v.by_ then s.me.lsu.tlbinvs.filter (fun i => i ≠ v.id) else s.me.lsu.tlbinvs) := by
  have hfind : s.hub.tlbinvs.find? (fun t => t.id = v.id) = some v := by simp [hone]
  have hexec : exec (.tlbinvComplete v.id) s = .next ({ s with hub := { s.hub with tlbinvs := [] } }.mapId v.by_
      (fun h => { h with lsu := { h.lsu with tlbinvs := h.lsu.tlbinvs.filter (fun i => i ≠ v.id) } })) := by
    change execTlbinvComplete v.id s = _
    simp only [execTlbinvComplete, hfind, if_neg (Nat.not_lt.mpr htick), hmarks]
    simp [hone]
  refine ⟨_, hexec, rfl, ?_⟩
  by_cases hby : s.me.id = v.by_ <;> simp [State.mapId, State.mapAll, hby]

end

/-- Settles O53: each access at its home acts in the state in which its hart acts, and there it leaves what the lemma
about it says. -/
theorem accessesReachHome : Obligations.AccessesReachHome := by
  intro s u h e
  obtain ⟨-, -, hhub, -⟩ := State.focus_spec e
  refine ⟨fun w hw hstore halone => writeStamp_stamped e hw hstore halone, ?_, ?_, fun v r => vaultStoreLands_done e,
    fun d => vaultStoreLands_delivery e, fun w t0 => watchTrigger_done,
      fun t0 w hm htick => monWaitRecheck_done hm (hhub ▸ htick),
    fun v hone htick => ⟨tlbinvComplete_empties hone htick, tlbinvComplete_ends hone htick⟩⟩
  · intro w op d v c q r hsignal hw hkind halone hgood n old cells
    obtain ⟨hstamped, hsched⟩ := State.atomicHere_alone hkind halone hgood
    exact ⟨_, _, execAtomicAtHome_alone e hsignal hw hkind halone, rfl, hstamped, hsched⟩
  · intro a ha htick hanswered hfills v hgood hfree hgo l hl
    exact leaseFill_answered e ha htick hanswered hfills rfl hgood hfree hgo hl

end Sys2Proof.Machine
end
section
/-! Engine operations and the hub (R189, R190, R195, R207, R215 to R221, R240, R248, R251, R253): how an operation
moves a unit, completes or fails, what the hub does with hypotheses, and how the base time rises and is reset. -/

namespace Sys2Proof.Machine

/-! ### Operations of the engine -/

/-- Operations that are the same by name and by the time of their writes. -/
def SameStamps (l m : List EngOp) : Prop := ∀ x ∈ m, ∃ y ∈ l, y.id = x.id ∧ y.stamp = x.stamp

theorem SameStamps.trans {l m n : List EngOp} (h : SameStamps l m) (g : SameStamps m n) : SameStamps l n := by
  intro x hx
  obtain ⟨y, hy, hid, hstamp⟩ := g x hx
  obtain ⟨z, hz, hid', hstamp'⟩ := h y hy
  exact ⟨z, hz, hid'.trans hid, hstamp'.trans hstamp⟩

theorem sameStamps_modEng {f : EngOp → EngOp} {id : Nat} {h : Hart} (hid : ∀ o, (f o).id = o.id)
    (hstamp : ∀ o, (f o).stamp = o.stamp) : SameStamps h.units.eng (h.modEng id f).units.eng := by
  intro x hx
  obtain ⟨y, hy, rfl⟩ := List.mem_map.mp hx
  refine ⟨y, hy, ?_⟩
  split
  · exact ⟨(hid y).symm, (hstamp y).symm⟩
  · exact ⟨rfl, rfl⟩

theorem Hart.signal_frame (sig : Option (Nat × Nat)) (h : Hart) : h.signal sig =
    { h with units := { h.units with semIn := h.units.semIn ++ (match sig with
      | some (n, k) => [{ n := n, op := 0, v := k, seq := h.iss.seq, outside := false }]
      | none => []) } } := by
  cases sig with
  | none => simp [Hart.signal]
  | some x => rfl

/-- An operation that has nothing left and awaits nothing is done and signals (R240). -/
theorem State.engFinish_of_done {id : Nat} {o : EngOp} {s : State} (hrun : s.me.running id = some o)
    (hleft : o.left = [])
    (hpending : s.engPending o = false) : ∃ bs, s.engFinish id = { s with
      me := (s.me.modEng id (fun o => { o with stat := .done })).signal o.sig
      hub := { s.hub with banks := bs } } := by
  simp only [State.engFinish, hrun]
  rw [if_pos ⟨by rw [hleft]; rfl, by rw [hpending]; rfl⟩]
  exact State.settleBanks_frame _

/-- What a hart has of an engine and of semaphore changes, and the states of banks, are all that an engine operation
changes as it ends (R240). -/
theorem State.engFinish_frame (id : Nat) (s : State) : ∃ eng semIn bs, s.engFinish id = { s with
      me := { s.me with units := { s.me.units with eng := eng, semIn := semIn } }
      hub := { s.hub with banks := bs } } ∧ SameStamps s.me.units.eng eng := by
  have hsame : SameStamps s.me.units.eng s.me.units.eng := fun x hx => ⟨x, hx, rfl, rfl⟩
  unfold State.engFinish
  split
  next o _ =>
    split
    · obtain ⟨bs, e⟩ := State.settleBanks_frame
        (s.modMe (fun h => (h.modEng id (fun o => { o with stat := .done })).signal o.sig))
      rw [e]
      simp only [State.modMe, Hart.signal_frame]
      exact ⟨_, _, bs, rfl, sameStamps_modEng (fun _ => rfl) (fun _ => rfl)⟩
    · exact ⟨_, _, s.hub.banks, rfl, hsame⟩
  next => exact ⟨_, _, s.hub.banks, rfl, hsame⟩

/-- What moving a unit leaves of the state in which it has been written. -/
structure MovedFrom (s t : State) : Prop where
  regs : t.me.regs = s.me.regs
  ring : t.ring = s.ring
  mem : t.hub.mem = s.hub.mem
  lines : t.hub.lines = s.hub.lines
  stamps : SameStamps s.me.units.eng t.me.units.eng

theorem State.engMoved_from (id line : Nat) (os : List Nat) (s : State) : MovedFrom s (s.engMoved id line os) := by
  simp only [State.engMoved]
  obtain ⟨eng, semIn, bs, e, hsame⟩ :=
    State.engFinish_frame id ({ s with free := s.free + 1 }.modMe (Hart.modEng id (fun o =>
      { o with left := os.foldl (fun l k => leftDrop k l) o.left, verWait := o.verWait.filter (fun e => e.1 ≠ line)
               tick := s.hub.clk + Config.freeNat s.free })))
  rw [e]
  refine ⟨rfl, rfl, rfl, rfl, SameStamps.trans ?_ hsame⟩
  exact sameStamps_modEng (fun _ => rfl) (fun _ => rfl)

/-- An operation that fails gives no signal, and sets bits of the pending status (R226, R240). -/
theorem State.engFail_frame (id bits : Nat) (s : State) : ∃ invs bs, s.engFail id bits = { s with
    me := (s.me.modEng id (fun o => { o with stat := .failed, tags := [] })).setFailure bits
    hub := { s.hub with invs := invs, banks := bs } } := by
  obtain ⟨bs, e⟩ := State.settleBanks_frame ({ s with hub := s.hub.restartInvs }.modMe
    (fun h => (h.modEng id (fun o => { o with stat := .failed, tags := [] })).setFailure bits))
  exact ⟨_, bs, e⟩

section
variable {s u : State} {h : HartId} {o : EngOp}

/-- An operation that still runs, whose next unit may move. -/
def Moves (o : EngOp) (u : State) : Prop :=
  u.me.running o.id = some o ∧ o.tick ≤ u.hub.clk ∧ ∀ q, o.kind = .netGet q → o.got.isSome = true

theorem execCopyComplete_of_moves (e : s.focus h = some u) (hm : Moves o u) {t : State} (ht : u.engMove o = t) :
    exec (.copyComplete h o.id) s = .next t := by
  obtain ⟨hrun, htick, hgot⟩ := hm
  refine next_onHart_of_focus e ?_
  simp only [hrun]
  refine (if_neg ?_).trans ht
  rintro (hwait | hlt)
  · cases hk : o.kind with
    | netGet q =>
      simp only [hk] at hwait
      have := hgot q hk
      simp [Option.isNone_iff_eq_none.mp hwait] at this
    | _ => simp [hk] at hwait
  · omega

theorem copyComplete_done (e : s.focus h = some u) (hm : Moves o u) (hleft : o.left = [])
    (hpending : u.engPending o = false) :
    ∃ t, exec (.copyComplete h o.id) s = .next t ∧
      t.me.units.eng = u.me.units.eng.map (fun x => if x.id = o.id then { x with stat := .done } else x) ∧
      t.me.regs = u.me.regs ∧ t.hub.mem = u.hub.mem ∧ t.ring = u.ring ∧ t.me.units.semIn = u.me.units.semIn ++
        (match o.sig with
          | some (n, k) => [{ n := n, op := 0, v := k, seq := u.me.iss.seq, outside := false }]
          | none => []) := by
  have hrun : u.me.running o.id = some o := hm.1
  obtain ⟨bs, hfinish⟩ := State.engFinish_of_done hrun hleft hpending
  have hmove : u.engMove o = u.engFinish o.id := by
    have hnone : o.pick u.free = none := by rw [EngOp.pick, hleft]; rfl
    simp only [State.engMove, hnone]
  refine ⟨_, execCopyComplete_of_moves e hm (hmove.trans hfinish), ?_⟩
  rw [Hart.signal_frame]
  exact ⟨rfl, rfl, rfl, rfl, rfl⟩

/-- A copy whose unit has been fetched, with nothing that must be recalled, is put at its destination (R240). -/
theorem State.engMove_of_fetched {off : Nat} {vs : List (Byte × Bool)} (hkind : o.kind = .copy)
    (hpick : o.pick u.free = some off)
    (hfetch : State.engFetch o { u with free := u.free + 2 } (o.unitOf off) = .ok (vs, [])) :
    u.engMove o = State.engPut o (o.unitOf off) vs { u with free := u.free + 2 } := by
  simp only [State.engMove, hpick, hfetch, hkind]
  rfl

/-- A unit put into a vault (R189, R396). -/
def State.vaultPut (o : EngOp) (os : List Nat) (pa : Nat) (vs : List (Byte × Bool)) (s : State) : State :=
  let x := o.taint os (lineOf pa) (s.hub.vaultHit pa vs.length) (vs.any (·.2))
  State.modMe (fun h => (if x.hit then h.setPending 2 else h).modEng o.id (EngOp.poisons (lineOf pa) (vs.any (·.2))))
    { s with hub := (s.hub.putVault pa (vs.map (·.1))).setPoison 0 0 (lineOf pa) (vs.any (·.2)) x.clears }

theorem State.engPut_vault {os : List Nat} {va pa : Nat} {vs : List (Byte × Bool)}
    (hdst : (os.head?).bind o.dstAt = some va) (hat : s.engAt o .engWrite va = .ok (.vault pa)) :
    s.engPut o os vs = (s.vaultPut o os pa vs).engMoved o.id (lineOf pa) os := by
  simp only [State.engPut, hdst, hat]
  rfl

theorem State.vaultPut_me_regs (o : EngOp) (os : List Nat) (pa : Nat) (vs : List (Byte × Bool)) (s : State) :
    (s.vaultPut o os pa vs).me.regs = s.me.regs := by
  simp only [State.vaultPut, State.modMe, Hart.modEng]
  split <;> rfl

theorem State.engPut_memory {os : List Nat} {va pa : Nat} {vs : List (Byte × Bool)}
    (hdst : (os.head?).bind o.dstAt = some va) (hat : s.engAt o .engWrite va = .ok (.mem pa)) :
    s.engPut o os vs = s.engStore o os pa vs := by
  simp only [State.engPut, hdst, hat]

/-- A unit written to a line of memory that no peer holds (R190, R207). -/
def State.rootPut (o : EngOp) (os : List Nat) (pa : Nat) (vs : List (Byte × Bool)) (s : State) : State :=
  let line := lineOf pa
  let t := s.hub.stampTime s.me.partNo 0 line o.lt
  let bs := vs.mapIdx (fun k v => (pa % 128 + k, v.1))
  let x := o.taint os line (s.hub.poisonHit s.me.partNo 0 line vs.length) (vs.any (·.2))
  State.modMe (fun h => ((if x.hit then h.setPending 2 else h).engLease s.me.partNo 0 line bs t).modEng o.id (fun o =>
      { o.poisons line (vs.any (·.2)) with stamp := Nat.max o.stamp t }))
    { s with
      free := s.free + 1
      hub := (s.hub.commit s.me.id (s.hub.clk + Config.freeNat s.free) s.me.partNo 0 line bs t false).setPoison
        s.me.partNo 0
        line (vs.any (·.2)) x.clears }

theorem State.engStore_root {os : List Nat} {pa : Nat} {vs : List (Byte × Bool)} (hhyp : o.hyp = 0)
    (hloc : s.hub.loc pa = .hbm) (hdir : (s.hub.lineMeta (lineOf pa)).dir = 0) :
    s.engStore o os pa vs = (s.rootPut o os pa vs).engMoved o.id (lineOf pa) os := by
  have hrefused : s.engRefused o pa = false := by simp [State.engRefused, hhyp]
  have hout : Loc.hbm.outside = none := rfl
  have hversion : s.versionFree s.me.partNo 0 (lineOf pa) = true := rfl
  simp only [State.engStore, hloc, hrefused, hhyp, hversion, State.clearPeers_of_none hdir, hout]
  rfl

/-- A line that takes the poison of bytes moved to it, or loses its own (R396). -/
def LineMeta.withPoison (bad clears : Bool) (m : LineMeta) : LineMeta :=
  { m with poison := (m.poison || bad) && !clears }

theorem Hub.lineMeta_setPoison_root {hb : Hub} (h : NMap.wf LineMeta.zero hb.lines = true) (part line : Nat)
    (bad clears : Bool) :
      (hb.setPoison part 0 line bad clears).lineMeta line = (hb.lineMeta line).withPoison bad clears :=
  (Hub.lineMeta_setLine h line (LineMeta.withPoison bad clears) line).trans (if_pos rfl)

theorem State.rootPut_stored {pa : Nat} (hvault : s.hub.vaultLine (lineOf pa) = false)
    (hwf : NMap.wf LineMeta.zero s.hub.lines = true) (os : List Nat) (vs : List (Byte × Bool)) :
    let t := s.rootPut o os pa vs
    let time := s.hub.stampTime s.me.partNo 0 (lineOf pa) o.lt
    t.me.regs = s.me.regs ∧ t.ring = s.ring ∧
    t.hub.mem = NMap.putAll 0#8 (vs.mapIdx (fun k x => (lineOf pa * 128 + (pa % 128 + k), x.1))) s.hub.mem ∧
    (t.hub.lineMeta (lineOf pa)).wts = time ∧ (t.hub.lineMeta (lineOf pa)).rts = time ∧
    ∀ x ∈ t.me.units.eng, x.id = o.id → time ≤ x.stamp := by
  intro t time
  have hcells : (vs.mapIdx (fun k v => (pa % 128 + k, v.1))).map (fun e => (lineOf pa * 128 + e.1, e.2)) =
      vs.mapIdx (fun k x => (lineOf pa * 128 + (pa % 128 + k), x.1)) := List.ext_getElem (by simp) fun i _ _ => by simp
  obtain ⟨whole, invs, ds, qs, ws, stamp, base, hcommit⟩ := Hub.commit_root hvault s.me.id
    (s.hub.clk + Config.freeNat s.free) s.me.partNo (vs.mapIdx (fun k v => (pa % 128 + k, v.1))) time false
  rw [hcells] at hcommit
  have hhub : t.hub = (s.hub.commit s.me.id (s.hub.clk + Config.freeNat s.free) s.me.partNo 0 (lineOf pa)
      (vs.mapIdx (fun k v => (pa % 128 + k, v.1))) time false).setPoison s.me.partNo 0 (lineOf pa) (vs.any (·.2))
        (o.taint os (lineOf pa) (s.hub.poisonHit s.me.partNo 0 (lineOf pa) vs.length) (vs.any (·.2))).clears := rfl
  have hline : t.hub.lineMeta (lineOf pa) = (LineMeta.committed whole time (s.hub.lineMeta (lineOf pa))).withPoison
      (vs.any (·.2)) (o.taint os (lineOf pa) (s.hub.poisonHit s.me.partNo 0 (lineOf pa) vs.length)
        (vs.any (·.2))).clears := by
    rw [hhub, hcommit]
    refine (Hub.lineMeta_setPoison_root ?_ ..).trans (congrArg (LineMeta.withPoison _ _) ?_)
    · exact NMap.wf_put hwf
    · exact (Hub.lineMeta_setLine hwf ..).trans (if_pos rfl)
  refine ⟨?_, rfl, ?_, by rw [hline]; rfl, by rw [hline]; rfl, fun x hx hid => ?_⟩
  · simp only [t, State.rootPut, State.modMe]
    split <;> rfl
  · rw [hhub, hcommit]
    rfl
  · obtain ⟨y, -, rfl⟩ := List.mem_map.mp hx
    split_ifs at hid ⊢ with hmine
    · exact Nat.le_max_right ..
    · exact absurd hid hmine

theorem copyComplete_vault (e : s.focus h = some u) (hm : Moves o u) {off va pa : Nat} {vs : List (Byte × Bool)}
    (hkind : o.kind = .copy) (hpick : o.pick u.free = some off)
    (hfetch : State.engFetch o { u with free := u.free + 2 } (o.unitOf off) = .ok (vs, []))
    (hdst : ((o.unitOf off).head?).bind o.dstAt = some va)
    (hat : State.engAt o .engWrite va { u with free := u.free + 2 } = .ok (.vault pa)) :
    ∃ t, exec (.copyComplete h o.id) s = .next t ∧ t.me.regs = u.me.regs ∧ t.ring = u.ring ∧
      t.hub.mem = putBytes pa (vs.map (·.1)) u.hub.mem := by
  have hmove := (State.engMove_of_fetched hkind hpick hfetch).trans (State.engPut_vault hdst hat)
  obtain ⟨hregs, hring, hmem, -, -⟩ := State.engMoved_from o.id (lineOf pa) (o.unitOf off)
    (State.vaultPut o (o.unitOf off) pa vs { u with free := u.free + 2 })
  refine ⟨_, execCopyComplete_of_moves e hm hmove, hregs.trans (State.vaultPut_me_regs ..), hring, hmem.trans ?_⟩
  exact Hub.putVault_mem ..

theorem copyComplete_memory (e : s.focus h = some u) (hm : Moves o u) {off va pa : Nat} {vs : List (Byte × Bool)}
    (hkind : o.kind = .copy) (hhyp : o.hyp = 0) (hpick : o.pick u.free = some off)
    (hfetch : State.engFetch o { u with free := u.free + 2 } (o.unitOf off) = .ok (vs, []))
    (hdst : ((o.unitOf off).head?).bind o.dstAt = some va)
    (hat : State.engAt o .engWrite va { u with free := u.free + 2 } = .ok (.mem pa)) (hloc : u.hub.loc pa = .hbm)
    (hvault : u.hub.vaultLine (lineOf pa) = false) (hdir : (u.hub.lineMeta (lineOf pa)).dir = 0)
    (hwf : NMap.wf LineMeta.zero u.hub.lines = true) :
    ∃ t time, exec (.copyComplete h o.id) s = .next t ∧ t.me.regs = u.me.regs ∧ t.ring = u.ring ∧
      t.hub.mem = NMap.putAll 0#8 (vs.mapIdx (fun k x => (lineOf pa * 128 + (pa % 128 + k), x.1))) u.hub.mem ∧
      o.lt ≤ time ∧ (u.hub.lineMeta (lineOf pa)).wts < time ∧ (u.hub.lineMeta (lineOf pa)).rts < time ∧
      (t.hub.lineMeta (lineOf pa)).wts = time ∧ (t.hub.lineMeta (lineOf pa)).rts = time ∧
      ∀ x ∈ t.me.units.eng, x.id = o.id → time ≤ x.stamp := by
  have hmove : u.engMove o = (State.rootPut o (o.unitOf off) pa vs { u with free := u.free + 2 }).engMoved o.id
      (lineOf pa) (o.unitOf off) :=
    (State.engMove_of_fetched hkind hpick hfetch).trans ((State.engPut_memory hdst hat).trans
      (State.engStore_root (s := { u with free := u.free + 2 }) hhyp hloc hdir))
  obtain ⟨hregs, hring, hmem, hlines, hstamps⟩ := State.engMoved_from o.id (lineOf pa) (o.unitOf off)
    (State.rootPut o (o.unitOf off) pa vs { u with free := u.free + 2 })
  obtain ⟨hpregs, hpring, hpmem, hpwts, hprts, hpstamps⟩ :=
    State.rootPut_stored (s := { u with free := u.free + 2 }) (o := o) hvault hwf (o.unitOf off) vs
  obtain ⟨htime, hwts, hrts⟩ := u.hub.stampTime_root u.me.partNo (lineOf pa) o.lt
  refine ⟨_, u.hub.stampTime u.me.partNo 0 (lineOf pa) o.lt, execCopyComplete_of_moves e hm hmove, hregs.trans hpregs,
    hring.trans hpring, hmem.trans hpmem, htime, hwts, hrts, ?_, ?_, fun x hx hid => ?_⟩
  · rw [Hub.lineMeta, hlines]
    exact hpwts
  · rw [Hub.lineMeta, hlines]
    exact hprts
  · obtain ⟨y, hy, hyid, hystamp⟩ := hstamps x hx
    exact hystamp ▸ hpstamps y hy (hyid.trans hid)

end

/-! ### Operations that fail, and operations of the network (R221, R240, R248) -/

/-- The operations of a hart after one of them has failed. -/
def failedEng (id : Nat) (l : List EngOp) : List EngOp :=
  l.map (fun x => if x.id = id then { x with stat := .failed, tags := [] } else x)

/-- A failure of an engine operation that sets REFUSED (R205). -/
theorem State.engFail_refused (id : Nat) (s : State) : (s.engFail id 2).me.units.eng = failedEng id s.me.units.eng ∧
    (s.engFail id 2).me.units.pending.getLsbD 1 = true ∧ (s.engFail id 2).me.regs = s.me.regs ∧
    (s.engFail id 2).hub.mem = s.hub.mem := by
  obtain ⟨invs, bs, e⟩ := s.engFail_frame id 2
  have hbit : (BitVec.ofNat 5 (2 % 8)).getLsbD 1 = true := by decide
  rw [e]
  refine ⟨rfl, ?_, rfl, rfl⟩
  simp only [Hart.setFailure, BitVec.getLsbD_or, hbit, Bool.or_true]

theorem Hart.running_id {id : Nat} {h : Hart} {o : EngOp} (hrun : h.running id = some o) : o.id = id := by
  have hp := List.find?_some hrun
  simp only [Bool.and_eq_true, decide_eq_true_eq] at hp
  exact hp.1

/-- The operation of a name that still runs, after it has been changed. -/
theorem Hart.running_modEng {id : Nat} {h : Hart} {o : EngOp} {f : EngOp → EngOp} (hrun : h.running id = some o)
    (hid : ∀ x, (f x).id = x.id) (hstat : ∀ x, (f x).stat = x.stat) : (h.modEng id f).running id = some (f o) := by
  have hsame : ((fun x : EngOp => decide (x.id = id) && decide (x.stat = .running)) ∘
      fun x => if x.id = id then f x else x) =
      fun x => decide (x.id = id) && decide (x.stat = .running) := by
    funext x
    by_cases hx : x.id = id <;> simp [hx, hid, hstat]
  have hrun' : h.units.eng.find? (fun x => decide (x.id = id) && decide (x.stat = .running)) = some o := hrun
  simp only [Hart.running, Hart.modEng, List.find?_map, hsame, hrun', Option.map_some, if_pos (Hart.running_id hrun)]

/-- What the operations of a connection wait for does not depend on what else is known of them (R248). -/
theorem State.netWaits_modEng {f : EngOp → EngOp} (hturn : ∀ x, (f x).turn = x.turn) (hkind : ∀ x, (f x).kind = x.kind)
    (hstat : ∀ x, (f x).unfinished = x.unfinished) (id : Nat) (conn : Option Nat) (turn : Nat) (s : State) :
    (s.modMe (Hart.modEng id f)).netWaits conn turn = s.netWaits conn turn := by
  have hany : (s.me.modEng id f).units.eng.any (fun x => x.turn < turn && x.unfinished && x.kind.conn = conn) =
      s.me.units.eng.any (fun x => x.turn < turn && x.unfinished && x.kind.conn = conn) := by
    simp only [Hart.modEng, List.any_map]
    congr 1
    funext x
    simp only [Function.comp_apply]
    split
    · rw [hturn, hkind, hstat]
    · rfl
  exact congrArg (fun b => conn.isSome && ((decide (s.me.partNo = s.me.partNo) && b) || s.ring.any (fun h =>
    h.partNo = s.me.partNo && h.units.eng.any (fun x => x.turn < turn && x.unfinished && x.kind.conn = conn)))) hany

section
variable {s u : State} {h : HartId} {o : EngOp} {q : Nat}

/-- The bytes of a `net.get` arrive (R248). -/
theorem netComplete_got (e : s.focus h = some u) (hrun : u.me.running o.id = some o) (hturn : u.netBefore o = false)
    (hok : u.hub.connOk u.me.partNo q = true) {data : List Byte} (hkind : o.kind = .netGet q) (hgot : o.got = none) :
    exec (.netComplete h o.id true data) s = .next ((u.modConn u.me.partNo q (Conn.sent o.len)).modMe
      (Hart.modEng o.id (fun x => { x with got := some (data.take x.len) }))) := by
  refine next_onHart_of_focus e ?_
  simp only [hrun, hturn, hkind, hok, hgot]
  rfl

/-- A bad acknowledgement fails the operation (R248). -/
theorem netComplete_failed (e : s.focus h = some u) (hrun : u.me.running o.id = some o) (hturn : u.netBefore o = false)
    {data : List Byte} (hkind : o.kind = .netPut q ∨ o.kind = .netGet q) :
    exec (.netComplete h o.id false data) s = .next (u.engFail o.id 2) := by
  refine next_onHart_of_focus e ?_
  obtain hkind | hkind := hkind
  · simp only [hrun, hturn, hkind]
    exact (if_neg Bool.false_ne_true).trans (if_pos (Or.inl rfl))
  · simp only [hrun, hturn, hkind]
    exact (if_neg Bool.false_ne_true).trans (if_pos (Or.inl rfl))

/-- The far side has acknowledged a `net.put` (R248). -/
def EngOp.acked (o : EngOp) : EngOp := { o with got := some [] }

theorem netComplete_put (e : s.focus h = some u) (hrun : u.me.running o.id = some o) (hturn : u.netBefore o = false)
    (hok : u.hub.connOk u.me.partNo q = true) (hkind : o.kind = .netPut q) (hleft : o.left = []) (htags : o.tags = [])
    (hdeliv : ∀ d ∈ u.hub.deliveries, d.by_ ≠ u.me.id) : ∃ t, exec (.netComplete h o.id true []) s = .next t ∧
      t.me.units.eng = u.me.units.eng.map
        (fun x => if x.id = o.id then { x with got := some [], stat := .done } else x) ∧
      t.me.regs = u.me.regs ∧ t.hub.mem = u.hub.mem ∧ t.ring = u.ring := by
  obtain ⟨v, hv⟩ : ∃ v, (u.modConn u.me.partNo q (Conn.sent o.len)).modMe (Hart.modEng o.id EngOp.acked) = v := ⟨_, rfl⟩
  have hvrun : v.me.running o.id = some o.acked := hv ▸ Hart.running_modEng hrun (fun _ => rfl) (fun _ => rfl)
  have hwaits : v.netBefore o.acked = false := by
    rw [← hv]
    exact (State.netWaits_modEng (f := EngOp.acked) (fun _ => rfl) (fun _ => rfl) (fun _ => rfl) o.id _ _ _).trans hturn
  have hdeliveries : v.hub.deliveries.any (fun d => d.by_ = v.me.id) = false := by
    rw [← hv]
    exact List.any_eq_false.mpr fun d hd hby => hdeliv d hd (of_decide_eq_true hby)
  have hpending : v.engPending o.acked = false := by
    have hunacked : o.acked.unacked = false := by simp [EngOp.unacked, EngOp.acked, hkind]
    have hnotags : o.acked.tags = [] := htags
    rw [State.engPending, hwaits, hdeliveries, hunacked, hnotags]
    rfl
  obtain ⟨bs, hfinish⟩ := State.engFinish_of_done hvrun (show o.acked.left = [] from hleft) hpending
  have hexec : exec (.netComplete h o.id true []) s = .next (v.engFinish o.id) := by
    refine next_onHart_of_focus e ?_
    simp only [hrun, hturn, hkind, hok, hleft]
    rw [← hv]
    rfl
  rw [hfinish, Hart.signal_frame] at hexec
  subst hv
  refine ⟨_, hexec, ?_, rfl, rfl, rfl⟩
  refine (List.map_map ..).trans (List.map_congr_left fun x _ => ?_)
  simp only [Function.comp_apply]
  by_cases hx : x.id = o.id <;> simp [hx, EngOp.acked]

/-! ### Waiting for a version (R221) -/

theorem engineVersionTimeout_failed (e : s.focus h = some u) (hrun : u.me.running o.id = some o) {x : Nat × Nat}
    (hx : x ∈ o.verWait) (hlate : 4096 ≤ x.2) (hnone : u.versionFree u.me.partNo o.hyp x.1 = false)
    (hturn : u.netBefore o = false) : exec (.engineVersionTimeout h o.id) s = .next (u.engFail o.id 2) := by
  have hany : o.verWait.any (fun e => decide (4096 ≤ e.2) && !u.versionFree u.me.partNo o.hyp e.1) = true :=
    List.any_eq_true.mpr ⟨x, hx, by simp [hlate, hnone]⟩
  refine next_onHart_of_focus e ?_
  simp only [hrun, hany, if_true, State.engFailTurn, hturn]
  rfl

theorem engineVersionTimeout_waits (e : s.focus h = some u) (hrun : u.me.running o.id = some o)
    (hall : ∀ x ∈ o.verWait, x.2 < 4096 ∨ u.versionFree u.me.partNo o.hyp x.1 = true) :
    exec (.engineVersionTimeout h o.id) s = .next u := by
  have hany : o.verWait.any (fun e => decide (4096 ≤ e.2) && !u.versionFree u.me.partNo o.hyp e.1) = false :=
    List.any_eq_false.mpr fun x hx => by
      obtain hearly | hfree := hall x hx
      · simp [hearly]
      · simp [hfree]
  refine next_onHart_of_focus e ?_
  simp only [hrun, hany]
  rfl

end

/-! ### The hub and its hypotheses (R215 to R221, R251, R253) -/

/-- The answer of the hub to the request of a hart. -/
def Hart.hubAnswer (r : HubReq) (v : Word) (t : Nat) (h : Hart) : Hart :=
  { h with lsu := { h.lsu with hubReq := some { r with answer := some (v, t) } } }

/-- What an answer of the hub is: the value, at no time, with registers and memory as before. -/
def HubAnswered (r : HubReq) (v : Word) (u t : State) : Prop :=
  t.me.lsu.hubReq = some { r with answer := some (v, 0) } ∧ t.me.regs = u.me.regs ∧ t.hub.mem = u.hub.mem

section
variable {s u : State} {h : HartId} {r : HubReq}

theorem execResolveComplete_open (e : s.focus h = some u) (hreq : u.me.lsu.hubReq = some r) (hnone : r.answer = none)
    (hkind : r.kind = 0) : exec (.resolveComplete h) s = .next ((u.openNode u.me.partNo r.node).2.modMe
      (Hart.hubAnswer r (u.openNode u.me.partNo r.node).1 0)) := by
  refine next_onHart_of_focus e ?_
  simp only [hreq]
  exact (if_neg (Option.not_isSome_iff_eq_none.mpr hnone)).trans (if_pos hkind)

theorem execResolveComplete_root (e : s.focus h = some u) (hreq : u.me.lsu.hubReq = some r) (hnone : r.answer = none)
    (hkind : r.kind ≠ 0) (hroot : r.node = 0) :
      exec (.resolveComplete h) s = .next (u.modMe (Hart.hubAnswer r 2 0)) := by
  refine next_onHart_of_focus e ?_
  simp only [hreq]
  exact (if_neg (Option.not_isSome_iff_eq_none.mpr hnone)).trans ((if_neg hkind).trans (if_pos hroot))

theorem execResolveComplete_absent (e : s.focus h = some u) (hreq : u.me.lsu.hubReq = some r) (hnone : r.answer = none)
    (hkind : r.kind ≠ 0) (hnode : r.node ≠ 0) (hgone : u.hub.node u.me.partNo r.node.toNat = none) :
    exec (.resolveComplete h) s = .next (u.modMe (Hart.hubAnswer r 1 0)) := by
  refine next_onHart_of_focus e ?_
  simp only [hreq, hgone]
  exact (if_neg (Option.not_isSome_iff_eq_none.mpr hnone)).trans ((if_neg hkind).trans (if_neg hnode))

theorem execResolveComplete_refute {x : Node} (e : s.focus h = some u) (hreq : u.me.lsu.hubReq = some r)
    (hnone : r.answer = none) (hkind : r.kind = 2) (hnode : r.node ≠ 0)
    (hlive : u.hub.node u.me.partNo r.node.toNat = some x) : exec (.resolveComplete h) s =
      .next ((u.refuteNode u.me.partNo x.id x.parent).modMe (Hart.hubAnswer r 0 0)) := by
  refine next_onHart_of_focus e ?_
  simp only [hreq, hlive]
  exact (if_neg (Option.not_isSome_iff_eq_none.mpr hnone)).trans
    ((if_neg (by omega)).trans ((if_neg hnode).trans (if_neg (by omega))))

theorem execResolveComplete_confirm {x : Node} (e : s.focus h = some u) (hreq : u.me.lsu.hubReq = some r)
    (hnone : r.answer = none) (hkind : r.kind = 1) (hnode : r.node ≠ 0)
    (hlive : u.hub.node u.me.partNo r.node.toNat = some x) : exec (.resolveComplete h) s =
      .next ((u.confirmNode u.me.partNo x.id x.parent).2.modMe
        (Hart.hubAnswer r 0 (u.confirmNode u.me.partNo x.id x.parent).1)) := by
  refine next_onHart_of_focus e ?_
  simp only [hreq, hlive]
  exact (if_neg (Option.not_isSome_iff_eq_none.mpr hnone)).trans
    ((if_neg (by omega)).trans ((if_neg hnode).trans (if_pos hkind)))

/-- A node opened below the root takes the lowest number that is free (R216). -/
theorem State.openNode_root {part n : Nat} (hpos : 0 < n) (hlt : n < 256) (hfree : u.hub.node part n = none)
    (hlow : ∀ k, 0 < k → k < n → (u.hub.node part k).isSome = true) : u.openNode part 0 = (BitVec.ofNat 64 n,
      { u with hub := { u.hub with nodes := u.hub.nodes ++ [{ part := part, id := n, parent := 0 }] } }) := by
  have hdepth : ¬ 8 ≤ u.hub.depth part 0 := by
    have hpath : u.hub.path part 0 = [0] := rfl
    rw [Hub.depth, hpath]
    decide
  have hfind : (List.range 256).find? (fun n => n ≠ 0 && (u.hub.node part n).isNone) = some n := by
    rw [List.find?_range_eq_some]
    refine ⟨by simp [hfree]; omega, List.mem_range.mpr hlt, fun k hk => ?_⟩
    obtain rfl | hk0 := Nat.eq_zero_or_pos k
    · rfl
    · have hlive := hlow k hk0 hk
      simp [hlive]
  have hzero : (0 : Word).toNat = 0 := rfl
  simp only [State.openNode, hzero]
  refine (if_neg fun h0 => h0.1 rfl).trans ((if_neg hdepth).trans ?_)
  rw [hfind]

end

/-! ### Nodes that are refuted (R218) -/

theorem Hart.foldl_regs {β : Type} {f : Hart → β → Hart} {l : List β} {h : Hart} (hf : ∀ h b, (f h b).regs = h.regs) :
    (l.foldl f h).regs = h.regs := by
  induction l generalizing h with
  | nil => rfl
  | cons b l ih => exact ih.trans (hf h b)

theorem Hart.afterRefute_regs (part n p : Nat) (dead : List Nat) (fr : Nat) (h : Hart) :
    (h.afterRefute part n p dead fr).regs = h.regs := by
  simp only [Hart.afterRefute]
  split
  · rfl
  · split <;> exact Hart.foldl_regs fun h w => by split <;> rfl

section
variable {u : State} (part n p : Nat)

theorem State.refuteNode_me_regs : (u.refuteNode part n p).me.regs = u.me.regs := by
  simp only [State.refuteNode]
  obtain ⟨bs, e⟩ := State.settleBanks_frame _
  rw [e]
  exact Hart.afterRefute_regs ..

theorem State.refuteNode_nodes {x : Node} (hx : x ∈ (u.refuteNode part n p).hub.nodes) :
    x ∈ u.hub.nodes ∧ ¬ (x.part = part ∧ x.id ∈ u.hub.subtree part n) := by
  simp only [State.refuteNode] at hx
  obtain ⟨bs, e⟩ := State.settleBanks_frame _
  rw [e] at hx
  obtain ⟨hmem, hlive⟩ := List.mem_filter.mp hx
  exact ⟨hmem, not_and_or.mpr (by simpa using hlive)⟩

theorem State.refuteNode_versions {v : Version} (hv : v ∈ (u.refuteNode part n p).hub.versions) :
    v ∈ u.hub.versions ∧ ¬ (v.part = part ∧ v.node ∈ u.hub.subtree part n) := by
  simp only [State.refuteNode] at hv
  obtain ⟨bs, e⟩ := State.settleBanks_frame _
  rw [e] at hv
  obtain ⟨hmem, hlive⟩ := List.mem_filter.mp hv
  exact ⟨hmem, not_and_or.mpr (by simpa using hlive)⟩

end

/-! ### Nodes that are confirmed (R217) -/

/-- What the hub does to a peer leaves the registers of the hart that is looked at. -/
theorem State.peerSee_me_regs (p t : Nat) (s : State) : (s.peerSee p t).me.regs = s.me.regs := by
  simp only [State.peerSee]
  split
  · simp only [State.mapHart, State.mapWhere, State.mapHarts]
    split <;> rfl
  · rfl

theorem State.clearPeers_me {line : Nat} {except : Option Nat} {s t : State} (e : s.clearPeers line except = some t) :
    t.me = s.me := by
  simp only [State.clearPeers] at e
  split at e
  · cases e
  · exact congrArg (·.me) (Option.some.inj e).symm

theorem State.grantOwn_me_regs (st : Moesi) (peer line : Nat) (s : State) :
    ((s.grantOwn st peer line).getD s).me.regs = s.me.regs := by
  simp only [State.grantOwn]
  split
  next t ht => exact congrArg Hart.regs (State.clearPeers_me ht)
  next => exact State.peerSee_me_regs ..

theorem State.heldWrite_me_regs (peer line : Nat) (bs : List (Nat × Byte)) (s : State) :
    (s.heldWrite peer line bs).me.regs = s.me.regs := by
  have hgrant (c : Prop) [Decidable c] : (if c then s else (s.grantOwn .M peer line).getD s).me.regs = s.me.regs := by
    split
    · rfl
    · exact State.grantOwn_me_regs ..
  simp only [State.heldWrite]
  split
  · exact (State.peerSee_me_regs ..).trans (hgrant _)
  · exact hgrant _

theorem State.foldl_me_regs {β : Type} {f : State → β → State} {l : List β} {s : State}
    (hf : ∀ s b, (f s b).me.regs = s.me.regs) : (l.foldl f s).me.regs = s.me.regs := by
  induction l generalizing s with
  | nil => rfl
  | cons b l ih => exact ih.trans (hf s b)

theorem State.hubClear_me_regs (writer : Option Nat) (line : Nat) (s : State) :
    (s.hubClear writer line).me.regs = s.me.regs :=
  State.foldl_me_regs fun s _ => State.heldWrite_me_regs _ _ _ s

theorem Hart.afterConfirm_regs (part n p t : Nat) (h : Hart) : (h.afterConfirm part n p t).regs = h.regs := by
  have hraise (c : Prop) [Decidable c] (g : Hart) (hg : g.regs = h.regs) : (if c then g else h).regs = h.regs := by
    split
    · exact hg
    · rfl
  simp only [Hart.afterConfirm]
  split <;> exact hraise _ _ rfl

section
variable {u : State} (part n p : Nat)

theorem State.confirmNode_me_regs : (u.confirmNode part n p).2.me.regs = u.me.regs := by
  have hpending (c : Prop) [Decidable c] (g : Hart) : (if c then g.setPending 2 else g).regs = g.regs := by
    split <;> rfl
  refine (hpending ..).trans ((Hart.afterConfirm_regs ..).trans ?_)
  refine (State.foldl_me_regs ?_).trans (State.foldl_me_regs ?_)
  · exact fun _ _ => rfl
  · exact fun s (v : Version) => State.hubClear_me_regs none v.line s

/-- The time of a node's confirmation is not before what its hart has seen and written (R217). -/
theorem State.floor_le_confirmNode : u.me.floor ≤ (u.confirmNode part n p).1 :=
  (Nat.le_max_left ..).trans (le_foldl_max_start ..)

theorem State.confirmNode_nodes {x : Node} (hx : x ∈ (u.confirmNode part n p).2.hub.nodes) :
    ¬ (x.part = part ∧ x.id = n) := by
  obtain ⟨y, hy, rfl⟩ := List.mem_map.mp hx
  have hkept : ¬ (y.part = part ∧ y.id = n) := not_and_or.mpr (by simpa using (List.mem_filter.mp hy).2)
  split <;> exact hkept

end

/-! ### What the hub answers (R251, R253) -/

section
variable {s u : State} {h : HartId} {r : HubReq}

theorem resolveComplete_open (e : s.focus h = some u) (hreq : u.me.lsu.hubReq = some r) (hnone : r.answer = none)
    {n : Nat}
    (hkind : r.kind = 0) (hroot : r.node = 0) (hpos : 0 < n) (hlt : n < 256) (hfree : u.hub.node u.me.partNo n = none)
    (hlow : ∀ k, 0 < k → k < n → (u.hub.node u.me.partNo k).isSome = true) :
    ∃ t, exec (.resolveComplete h) s = .next t ∧ HubAnswered r (BitVec.ofNat 64 n) u t ∧
      t.hub.nodes = u.hub.nodes ++ [{ part := u.me.partNo, id := n, parent := 0 }] := by
  have hexec := execResolveComplete_open e hreq hnone hkind
  rw [hroot, State.openNode_root hpos hlt hfree hlow] at hexec
  exact ⟨_, hexec, ⟨rfl, rfl, rfl⟩, rfl⟩

theorem resolveComplete_refute (e : s.focus h = some u) (hreq : u.me.lsu.hubReq = some r) (hnone : r.answer = none)
    {x : Node}
    (hkind : r.kind = 2) (hnode : r.node ≠ 0) (hlive : u.hub.node u.me.partNo r.node.toNat = some x) :
    ∃ t, exec (.resolveComplete h) s = .next t ∧ HubAnswered r 0 u t ∧
      (∀ n ∈ t.hub.nodes, n ∈ u.hub.nodes ∧ ¬(n.part = u.me.partNo ∧ n.id ∈ u.hub.subtree u.me.partNo x.id)) ∧
      ∀ v ∈ t.hub.versions, v ∈ u.hub.versions ∧
        ¬(v.part = u.me.partNo ∧ v.node ∈ u.hub.subtree u.me.partNo x.id) := by
  refine ⟨_, execResolveComplete_refute e hreq hnone hkind hnode hlive,
    ⟨rfl, State.refuteNode_me_regs .., State.refuteNode_hub_mem ..⟩, fun _ hx => State.refuteNode_nodes _ _ _ hx,
      fun _ hx => State.refuteNode_versions _ _ _ hx⟩

theorem resolveComplete_confirm (e : s.focus h = some u) (hreq : u.me.lsu.hubReq = some r) (hnone : r.answer = none)
    {x : Node} (hkind : r.kind = 1) (hnode : r.node ≠ 0) (hlive : u.hub.node u.me.partNo r.node.toNat = some x) :
    ∃ t v, exec (.resolveComplete h) s = .next t ∧ t.me.lsu.hubReq = some { r with answer := some (0, v) } ∧
      u.me.floor ≤ v ∧ t.me.regs = u.me.regs ∧ ∀ n ∈ t.hub.nodes, ¬(n.part = u.me.partNo ∧ n.id = x.id) :=
  ⟨_, _, execResolveComplete_confirm e hreq hnone hkind hnode hlive, rfl, State.floor_le_confirmNode ..,
    State.confirmNode_me_regs .., fun _ hx => State.confirmNode_nodes _ _ _ hx⟩

end

/-! ### Logical time (R189, R195) -/

/-- The base time and the stamp are at the limit of logical times (R195). -/
theorem logicalTimePause_done {s : State} (hlimit : 2 ^ 40 - 2 ^ 32 ≤ s.hub.base ∨ 2 ^ 40 - 2 ^ 32 ≤ s.hub.stamp) :
    ∃ t, exec .logicalTimePause s = .next t ∧ t.hub.base = 0 ∧ t.hub.stamp = 0 ∧
      (∀ x ∈ t.harts, x.spr.lt = 0 ∧ x.spr.storeTime = 0) ∧ t.hub.mem = s.hub.mem ∧
      t.harts.map (·.regs) = s.harts.map (·.regs) ∧ ∀ e ∈ t.hub.lines, e.2.wts = 0 ∧ e.2.rts = 0 := by
  have hgo : ¬ (s.hub.base < ltLimit ∧ s.hub.stamp < ltLimit) := by
    rw [ltLimit]
    omega
  refine ⟨_, if_neg hgo, rfl, rfl, fun x hx => ?_, rfl, ?_, fun x hx => ?_⟩
  · obtain ⟨y, -, rfl⟩ : ∃ y ∈ s.harts, y.pause = x := List.mem_map.mp hx
    exact ⟨rfl, rfl⟩
  · show (s.harts.map Hart.pause).map (·.regs) = s.harts.map (·.regs)
    rw [List.map_map]
    rfl
  · obtain ⟨y, -, hy⟩ := List.mem_filterMap.mp hx
    dsimp only at hy
    split at hy
    · cases hy
    · rw [← Option.some.inj hy]
      exact ⟨rfl, rfl⟩

/-- Settles O54: a unit that is fetched moves to a vault or is stamped at the root, an operation with nothing left is
done, a failing one sets REFUSED, and the hub answers a request by what it finds of the node. -/
theorem engineAndHubComplete : Obligations.EngineAndHubComplete := by
  unfold Obligations.EngineAndHubComplete
  intro s u h e
  refine ⟨fun o hrun htick hgot => ?_, fun o q hrun hturn hok => ?_, fun o hrun => ?_, fun r hreq hnone => ?_,
    fun hrise => congrArg _ (if_pos hrise), fun hearly => congrArg _ (if_neg (Nat.not_le.mpr hearly)),
    logicalTimePause_done⟩
  · have hm : Moves o u := ⟨hrun, htick, hgot⟩
    exact ⟨copyComplete_done e hm, fun off va pa vs hkind => copyComplete_vault e hm hkind,
      fun off va pa vs hkind hhyp hpick hfetch hdst hat hloc hvault _ =>
        copyComplete_memory e hm hkind hhyp hpick hfetch hdst hat hloc hvault⟩
  · refine ⟨fun data => netComplete_got e hrun hturn hok, netComplete_put e hrun hturn hok, fun data hkind => ?_⟩
    obtain ⟨heng, hpending, hregs, hmem⟩ := State.engFail_refused o.id u
    exact ⟨_, netComplete_failed e hrun hturn hkind, heng, hpending, hregs, hmem⟩
  · refine ⟨fun x hx hlate hnone hturn => ?_, engineVersionTimeout_waits e hrun⟩
    obtain ⟨heng, hpending, hregs, hmem⟩ := State.engFail_refused o.id u
    exact ⟨_, engineVersionTimeout_failed e hrun hx hlate hnone hturn, hpending, heng, hregs, hmem⟩
  · exact ⟨fun n => resolveComplete_open e hreq hnone,
      fun hkind hroot => ⟨_, execResolveComplete_root e hreq hnone hkind hroot, ⟨rfl, rfl, rfl⟩⟩,
      fun hkind hnode hgone => ⟨_, execResolveComplete_absent e hreq hnone hkind hnode hgone, ⟨rfl, rfl, rfl⟩⟩,
      fun x => resolveComplete_refute e hreq hnone, fun x => resolveComplete_confirm e hreq hnone⟩

end Sys2Proof.Machine
end
section
/-! Hypothesis instructions (R250 to R253): the request to the hub and its answer, and the node that a tread enters and
leaves. -/

namespace Sys2Proof.Machine

/-! ### Instructions that the hub answers -/

/-- The state after a request about `node` has been sent to the hub: the bundle stalls. -/
def State.hubAsked (kind : Nat) (node : Word) (s : State) : State :=
  (s.stall false).modMe (fun h =>
    { h with lsu := { h.lsu with hubReq := some ⟨s.me.ctl.pc, kind, node, none⟩ } })

theorem State.hubAsked_untouched (kind : Nat) (node : Word) (s : State) : Untouched s (s.hubAsked kind node) :=
  ⟨rfl, rfl, rfl, rfl, rfl, rfl, rfl, rfl⟩

/-- The state after the answer of the hub has been taken: the value and the time of LT land in 1 c. -/
def State.hubTaken (d : BitVec 6) (v : Word) (w : Nat) (s : State) : State :=
  (s.modMe (fun h => { h with lsu := { h.lsu with hubReq := none } })).withResult 1 1 d.toNat [.s d v, .lt w]

section
variable {i : Instr} {kind : Nat} {f : CR} {s : State}

theorem hubAsks_of_none (h : Ready f.gk.g i s) (hreq : s.me.lsu.hubReq = none) :
    hubAsks i kind f s = .next (s.hubAsked kind (s.me.regs.sReg f.a)) := by
  rw [hubAsks, ctSlot_of_ready h]
  simp only [hreq]
  rfl

theorem hubAsks_of_answered {v x : Word} {w : Nat} (h : Ready f.gk.g i s)
    (hreq : s.me.lsu.hubReq = some ⟨s.me.ctl.pc, kind, x, some (v, w)⟩) :
    hubAsks i kind f s = .next (s.hubTaken f.b v w) := by
  rw [hubAsks, ctSlot_of_ready h]
  simp only [hreq]
  exact if_pos ⟨trivial, trivial⟩

/-- An instruction that the hub answers sends its request and stalls, and takes the answer once it is there. -/
theorem exec_asksHub (hexec : exec i s = hubAsks i kind f s) (h : Ready f.gk.g i s) :
    (s.me.lsu.hubReq = none → ∃ t, exec i s = .next t ∧ Untouched s t ∧ t.me.iss.out = .stalled false ∧
      t.me.lsu.hubReq = some ⟨s.me.ctl.pc, kind, s.me.regs.sReg f.a, none⟩) ∧
    (∀ v w x, s.me.lsu.hubReq = some ⟨s.me.ctl.pc, kind, x, some (v, w)⟩ →
      exec i s = .next (s.hubTaken f.b v w)) :=
  ⟨fun hreq => ⟨_, hexec.trans (hubAsks_of_none h hreq), State.hubAsked_untouched .., rfl, rfl⟩,
    fun _ _ _ hreq => hexec.trans (hubAsks_of_answered h hreq)⟩

end

/-! ### Nodes entered and left -/

theorem exec_hypEnter (f : CR) (s : State) : exec (.hypEnter f) s = execHypEnter f s := rfl

theorem exec_hypLeave (f : CN) (s : State) : exec (.hypLeave f) s = execHypLeave f s := rfl

/-- The state after the hart has entered `node` with its handler at `a`. -/
def State.hypEntered (node : Word) (a : VAddr) (s : State) : State :=
  (s.modMe (fun h => { h with
    spr := { h.spr with hyp := node }, units := { h.units with hstack := (node.toNat, a) :: h.units.hstack } })).ok

theorem execHypEnter_of_child {f : CR} {s : State} {x : Node} (h : Ready f.gk.g (.hypEnter f) s)
    (hlive : s.hub.node s.me.partNo (s.me.regs.sReg f.a).toNat = some x) (hroot : x.id ≠ 0)
    (hparent : x.parent = s.me.spr.hyp.toNat) (hroom : s.me.units.hstack.length < 8) :
    exec (.hypEnter f) s =
      .next (s.hypEntered (s.me.regs.sReg f.a) (BitVec.ofNat 57 (s.me.regs.sReg f.b).toNat)) := by
  have hchild : (x.id ≠ 0 && x.parent = s.me.spr.hyp.toNat : Bool) = true := by simp [hroot, hparent]
  rw [exec_hypEnter, execHypEnter, ctSlot_of_ready h, BitVec.ofNat_toNat]
  simp only [hlive, hchild]
  exact if_neg (not_or.mpr ⟨Bool.false_ne_true, Nat.not_le.mpr hroom⟩)

/-- The state after the hart has left its node for the node `up`. -/
def State.hypLeft (up : Nat) (s : State) : State :=
  (s.modMe (fun h => { h with
    spr := { h.spr with hyp := BitVec.ofNat 64 up },
    units := { h.units with hstack := h.units.hstack.drop 1 } })).ok

section
variable {f : CN} {s : State}

theorem execHypLeave_of_root (h : Ready f.gk.g (.hypLeave f) s) (hroot : s.me.spr.hyp = 0) :
    exec (.hypLeave f) s = s.illegal 9 := by
  rw [exec_hypLeave, execHypLeave, ctSlot_of_ready h, if_pos hroot]

theorem execHypLeave_of_live {x : Node} (h : Ready f.gk.g (.hypLeave f) s) (hinside : s.me.spr.hyp ≠ 0)
    (hlive : s.hub.node s.me.partNo s.me.spr.hyp.toNat = some x) :
    exec (.hypLeave f) s = .next (s.hypLeft x.parent) := by
  rw [exec_hypLeave, execHypLeave, ctSlot_of_ready h, if_neg hinside, hlive]
  rfl

end

/-- Settles O29: the three requests share one rule, `exec_asksHub`; a child of the current node is entered, and a live
node is left for its parent. -/
theorem hypothesisInstructions : Obligations.HypothesisInstructions := by
  intro f n s asks
  refine ⟨exec_asksHub rfl, exec_asksHub rfl, exec_asksHub rfl, fun h x hlive hroot hparent hroom => ?_, fun h => ?_⟩
  · exact ⟨_, execHypEnter_of_child h hlive hroot hparent hroom, rfl, rfl, rfl, rfl, rfl, rfl, rfl, rfl⟩
  · exact ⟨execHypLeave_of_root h, fun x hinside hlive =>
      ⟨_, execHypLeave_of_live h hinside hlive, rfl, rfl, rfl, rfl, rfl, rfl, rfl, rfl⟩⟩

end Sys2Proof.Machine
end

section
/-! Vault banks (R304): `vbank.acq` and `vbank.rel` where a tread has them. -/

namespace Sys2Proof.Machine

section
variable {f : CR} {s : State}

/-- The package after its table of vault banks has changed. -/
def State.withBanks (m : NMap Nat) (s : State) : State := { s with hub := { s.hub with banks := m } }

/-- The banks that the mask register of the instruction names. -/
abbrev State.namedBanks (f : CR) (s : State) : List Nat := s.me.maskBanks (s.me.regs.sReg f.a)

theorem execVbankAcq_of_ready (h : TreadReady f.gk.g (.vbankAcq f) s) : exec (.vbankAcq f) s =
    if (s.namedBanks f).any (fun k => NMap.get 0 k s.hub.banks = 2) then .next (s.stall false)
    else .next (s.withBanks ((s.namedBanks f).foldl (fun m k => NMap.put 0 k 0 m) s.hub.banks)).issuedBare := by
  change execVbankAcq f s = _
  rw [execVbankAcq]
  exact treadCt_of_ready h

theorem execVbankRel_of_ready (h : TreadReady f.gk.g (.vbankRel f) s) : exec (.vbankRel f) s =
    .next (s.withBanks (((s.namedBanks f).filter s.hub.bankHeld).foldl (fun m k =>
      NMap.put 0 k (if s.busyBanks.contains k then 2 else 1) m) s.hub.banks)).issuedBare := by
  change execVbankRel f s = _
  rw [execVbankRel]
  exact treadCt_of_ready h

end

/-- Settles O31: `vbank.acq` by whether a named bank is draining, and `vbank.rel`. -/
theorem vaultBanksChangeHands : Obligations.VaultBanksChangeHands := by
  intro f s ks bank
  refine ⟨fun h => ⟨fun hnone => ?_, fun hdrains => ?_⟩, execVbankRel_of_ready⟩
  · exact (execVbankAcq_of_ready h).trans (if_neg (by simpa using hnone))
  · exact (execVbankAcq_of_ready h).trans (if_pos (by simpa using hdrains))

end Sys2Proof.Machine
end

section
/-! Queues and their packets (R257 to R272): what the hub's reads change, and what doorbells, packets, completions and
the commands of `QCTL` come to. -/

namespace Sys2Proof.Machine

/-! ### Reads of the hub -/

/-- What reads of the hub can leave, `n` free numbers used. -/
def HubReads (n : Nat) (s t : State) : Prop :=
  ∃ ls ds r, t = { s with free := s.free + n, hub := s.hub.withReads ls ds r }

theorem Hub.withReads_withReads (ls ls' : NMap LineMeta) (ds ds' : Vector Stack 12) (r r' : Version → Nat) (hb : Hub) :
    (hb.withReads ls ds r).withReads ls' ds' r' = hb.withReads ls' ds' (fun v => r' (v.withRts r)) := by
  simp only [Hub.withReads, List.map_map]
  rfl

theorem HubReads.refl (s : State) : HubReads 0 s s := by
  have hid : Version.withRts (·.rts) = id := rfl
  exact ⟨s.hub.lines, s.hub.dram, (·.rts), by simp only [Hub.withReads, hid, List.map_id, Nat.add_zero]⟩

theorem HubReads.trans {m n : Nat} {s t u : State} (hst : HubReads m s t) (htu : HubReads n t u) :
    HubReads (m + n) s u := by
  obtain ⟨ls, ds, r, rfl⟩ := hst
  obtain ⟨ls', ds', r', rfl⟩ := htu
  exact ⟨ls', ds', fun v => r' (v.withRts r), by simp only [Hub.withReads_withReads, Nat.add_assoc]⟩

theorem HubReads.readAt (part node a n i : Nat) (s : State) :
    HubReads 0 s { s with hub := s.hub.readAt part node a n i } := by
  obtain ⟨ls, ds, r, e⟩ := s.hub.readAt_frame part node a n i
  exact ⟨ls, ds, r, by rw [e, Nat.add_zero]⟩

theorem HubReads.hubSaw (part va n : Nat) (s : State) : HubReads 0 s (s.hubSaw part va n) := by
  unfold State.hubSaw
  split
  · refine List.foldlRecOn _ _ (.refl s) fun t ht line _ => ?_
    split
    · exact ht.trans (.readAt ..)
    · exact ht
  · exact .refl s

theorem HubReads.useFree {n : Nat} {s t : State} (h : HubReads n s t) :
    HubReads (n + 1) s { t with free := t.free + 1 } := by
  obtain ⟨ls, ds, r, rfl⟩ := h
  exact ⟨ls, ds, r, rfl⟩

theorem HubReads.free_eq {n : Nat} {s t : State} (h : HubReads n s t) : t.free = s.free + n := by
  obtain ⟨_, _, _, rfl⟩ := h
  rfl

/-! ### Queues -/

section
variable {s : State} {part q : Nat} {x : Queue}

theorem Hub.queue_of_sole {hb : Hub} (h : hb.queues = [x]) (hpart : x.part = part) (hq : x.q = q) :
    hb.queue part q = some x := by
  simp [Hub.queue, h, hpart, hq]

theorem State.setQueue_sole (f : Queue → Queue) (h : s.hub.queues = [x]) (hpart : x.part = part) (hq : x.q = q) :
    (s.setQueue part q f).hub.queues = [f x] := by
  simp [State.setQueue, h, hpart, hq]

/-! ### Doorbells (R259) -/

/-- The hub takes the doorbell of a queue. -/
def State.takeBell (part q : Nat) (s : State) : State :=
  { s with free := s.free + 1 }.setQueue part q (Queue.took .bell)

/-- The hub has read the WIDX `w` of a queue. -/
def State.sawWidx (part q : Nat) (x : Queue) (w : Nat) (s : State) : State :=
  (s.hubSaw part ((x.va + 56) % 2 ^ 57) 8).setQueue part q (fun y => { y with widx := w })

/-- An active queue takes a WIDX that does not overrun its ring. -/
theorem execDoorbell_of_active {bs : List Byte} (hfound : s.hub.queue part q = some x)
    (hbell : x.pend.contains .bell = true) (hactive : x.state = 1)
    (hread : (s.takeBell part q).hub.readVa (s.takeBell part q).free part ((x.va + 56) % 2 ^ 57) 8 = some bs)
    (hroom : (leBytes bs + 2 ^ 64 - x.ridx) % 2 ^ 64 ≤ 2 ^ x.log2n) :
    exec (.doorbell part q) s = .next ((s.takeBell part q).sawWidx part q x (leBytes bs)) := by
  unfold State.takeBell at hread
  change execDoorbell part q s = _
  simp only [execDoorbell, hfound, hbell, hread, hactive, if_neg (Nat.not_lt.mpr hroom)]
  rfl

/-- Only the queue changes, and what the home keeps of the lines that are read. -/
theorem State.sawWidx_takeBell_frame (hsole : s.hub.queues = [x]) (hpart : x.part = part) (hq : x.q = q) (w : Nat) :
    let t := (s.takeBell part q).sawWidx part q x w
    t.me = s.me ∧ t.ring = s.ring ∧ t.hub.mem = s.hub.mem ∧ t.hub.queues = [{ x.took .bell with widx := w }] := by
  have htook : (s.takeBell part q).hub.queues = [x.took .bell] :=
    State.setQueue_sole (s := { s with free := s.free + 1 }) _ hsole hpart hq
  obtain ⟨ls, ds, r, e⟩ := HubReads.hubSaw part ((x.va + 56) % 2 ^ 57) 8 (s.takeBell part q)
  rw [State.sawWidx, e]
  exact ⟨rfl, rfl, rfl, State.setQueue_sole _ htook hpart hq⟩

/-! ### Packets (R261, R266, R268, R269, R271) -/

/-- The hub has read the packet at `RIDX` of a queue. -/
def State.sawPacket (part : Nat) (x : Queue) (s : State) : State :=
  { s.hubSaw part ((x.base + 64 * (x.ridx % 2 ^ x.log2n)) % 2 ^ 57) 64 with free := s.free + 1 }

theorem HubReads.sawPacket (part : Nat) (x : Queue) (s : State) : HubReads 1 s (s.sawPacket part x) := by
  obtain ⟨ls, ds, r, e⟩ := HubReads.hubSaw part ((x.base + 64 * (x.ridx % 2 ^ x.log2n)) % 2 ^ 57) 64 s
  exact ⟨ls, ds, r, by rw [State.sawPacket, e]⟩

theorem processIf_of_packet {ty : Nat → Bool} {f : Queue → Nat → State → State} {p : Nat}
    (h : s.hub.nextPacket s.free part q = some (x, some p)) (hty : ty (p % 256) = true) :
    processIf part q ty f s = .next (f x p (s.sawPacket part x)) := by
  have hfree := (HubReads.hubSaw part ((x.base + 64 * (x.ridx % 2 ^ x.log2n)) % 2 ^ 57) 64 s).free_eq
  simp only [processIf, h, hty, if_true, hfree]
  rfl

theorem processIf_of_unreadable {ty : Nat → Bool} {f : Queue → Nat → State → State}
    (h : s.hub.nextPacket s.free part q = some (x, none)) :
    processIf part q ty f s = .next (State.abortPacket part q 5 none { s with free := s.free + 1 }) := by
  simp only [processIf, h]

theorem exec_dispatchPacket (part q : Nat) (s : State) : exec (.dispatchPacket part q) s =
    processIf part q (fun t => t ≠ 2 && t ≠ 3) State.dispatch s := rfl

theorem exec_barrierPacket (part q : Nat) (s : State) : exec (.barrierPacket part q) s =
    processIf part q (fun t => t = 2) State.barrier s := rfl

theorem exec_signalPacket (part q : Nat) (s : State) : exec (.signalPacket part q) s =
    processIf part q (fun t => t = 3) State.signalPacket s := rfl

/-- The package has a launch more (R264). -/
def State.addLaunch (l : Launch) (s : State) : State :=
  { s with hub := { s.hub with
    launched := s.hub.launched + 1, launches := s.hub.launches ++ [l],
    slots := NMap.put 0 (slotKey l.part l.queue l.slot) l.id s.hub.slots } }

/-- A good dispatch packet starts its launch: beside it the hub has but read. -/
theorem State.dispatch_of_launch {p : Nat} {l : Launch} (hlegal : packetIllegal p = false)
    (hl : s.hub.launchOf s.free x p = .ok l) : ∃ t, HubReads 1 s t ∧ s.dispatch x p = t.addLaunch l := by
  unfold State.dispatch
  rw [if_neg (by rw [hlegal]; decide)]
  extract_lets r t u v
  have ht : HubReads 0 s t := .hubSaw ..
  have hu : HubReads 0 s u := by
    unfold u
    split
    · exact ht
    · exact ht.trans (.hubSaw ..)
  refine ⟨v, hu.useFree, ?_⟩
  simp only [r, hl]
  rfl

theorem execDispatchPacket_of_launch {p : Nat} {l : Launch} (h : s.hub.nextPacket s.free part q = some (x, some p))
    (hty : p % 256 = 1) (hlegal : packetIllegal p = false)
    (hl : (s.sawPacket part x).hub.launchOf (s.free + 1) x p = .ok l) :
    ∃ t, HubReads 2 s t ∧ exec (.dispatchPacket part q) s = .next (t.addLaunch l) := by
  obtain ⟨t, ht, e⟩ := State.dispatch_of_launch hlegal hl
  refine ⟨t, (HubReads.sawPacket ..).trans ht, ?_⟩
  rw [exec_dispatchPacket, processIf_of_packet h (by simp [hty]), e]

theorem execDispatchPacket_of_illegal {p : Nat} (h : s.hub.nextPacket s.free part q = some (x, some p))
    (hbarrier : p % 256 ≠ 2) (hsignal : p % 256 ≠ 3) (hillegal : packetIllegal p = true) :
    exec (.dispatchPacket part q) s = .next ((s.sawPacket part x).abortPacket x.part x.q 1 (some p)) := by
  rw [exec_dispatchPacket, processIf_of_packet h (by simp [hbarrier, hsignal]), State.dispatch, if_pos hillegal]

/-- The dependency signals that a barrier packet lists (R266). -/
def barrierDeps (p : Nat) : List Nat :=
  ((List.range 5).map (fun k => bitsOf (64 * k + 127) (64 * k + 64) p)).filter (fun d => d ≠ 0)

theorem execBarrierPacket_of_legal {p : Nat} (h : s.hub.nextPacket s.free part q = some (x, some p))
    (hty : p % 256 = 2) (hlegal : packetIllegal p = false) (hout : packetWindow p = false) :
    exec (.barrierPacket part q) s = .next (((s.sawPacket part x).setQueue x.part x.q (fun y =>
      { y with barrier := some (barrierDeps p, bitsOf 447 384 p) })).evalBarrier x.part x.q) := by
  have hcsig : csigOf p = bitsOf 447 384 p := by simp [csigOf, hty]
  rw [exec_barrierPacket, processIf_of_packet h (by simp [hty]), State.barrier, if_neg (by simp [hlegal]),
    if_neg (by simp [hout]), hcsig]
  rfl

/-- What a signal packet makes of the word of its signal (R268). -/
def signalChange (p : Nat) (w : Word) : Word :=
  if p.testBit 12 then w - BitVec.ofNat 64 (bitsOf 191 128 p) else BitVec.ofNat 64 (bitsOf 191 128 p)

theorem execSignalPacket_of_legal {p : Nat} {t : State} (h : s.hub.nextPacket s.free part q = some (x, some p))
    (hty : p % 256 = 3) (hlegal : packetIllegal p = false) (hout : packetWindow p = false)
    (hatomic : (s.sawPacket part x).hubAtomic x.part (bitsOf 127 64 p % 2 ^ 57) (signalChange p) = some t) :
    exec (.signalPacket part q) s = .next (t.setRidx x.part x.q (x.ridx + 1)) := by
  unfold signalChange at hatomic
  rw [exec_signalPacket, processIf_of_packet h (by simp [hty]), State.signalPacket, if_neg (by simp [hlegal]),
    if_neg (by simp [hout])]
  simp only [hatomic]

/-! ### Waiting barrier packets (R266, R267) -/

theorem Hub.waiting_of_barrier (h : s.hub.queue part q = some x) (hactive : x.state = 1)
    (hwaits : x.barrier.isSome = true) : s.hub.waiting part q = true := by
  simp [Hub.waiting, h, hactive, hwaits]

theorem Hub.signalled_of_event (h : s.hub.queue part q = some x)
    (hevent : x.pend.contains .poke = true ∨ ∃ w ∈ s.hub.watches, w.who = Waiter.queue part q ∧ w.hit.isSome = true) :
    s.hub.signalled part q = true := by
  simpa [Hub.signalled, h] using hevent

theorem execBarrierEvaluate_of_signalled (hwaits : s.hub.waiting part q = true)
    (hevent : s.hub.signalled part q = true) : exec (.barrierEvaluate part q) s = .next (s.evalBarrier part q) :=
  congrArg Host.Outcome.next (if_pos ⟨hwaits, hevent⟩)

theorem execBarrierSignalReread_of_due {t0 : Nat} (h : s.hub.queue part q = some x)
    (hwaits : s.hub.waiting part q = true) (hreread : x.reread = some t0) (hdue : t0 ≤ s.hub.clk) :
    exec (.barrierSignalReread part q) s = .next (s.evalBarrier part q) := by
  refine congrArg Host.Outcome.next (if_pos ⟨hwaits, ?_⟩)
  simp [h, hreread, hdue]

/-- A barrier packet that lists no signal is satisfied as it is evaluated. -/
theorem State.evalBarrier_of_no_deps (h : s.hub.queue part q = some x) (hnone : x.barrier = some ([], 0)) :
    s.evalBarrier part q = State.setRidx part q (x.ridx + 1) (State.dropBarrier part q
      (State.setQueue part q (fun x => { x.took .poke with reread := none, deps := [] })
        { s with free := s.free + 1 })) := by
  simp only [State.evalBarrier, h, hnone]
  rfl

/-! ### Completion (R265) -/

theorem execDispatchComplete_of_sole {l : Launch} (hsole : s.hub.launches = [l]) (hdone : s.launchDone l = true)
    (hcsig : l.csig = 0) : exec (.dispatchComplete l.id) s =
      .next (State.dropHarts l.id { s with hub := { s.hub.unpin l.id with launches := [] } }) := by
  have hsig : (if l.killed then (true, s.csigMin l.part l.csig) else s.csigAdd l.part l.csig) = (true, s) := by
    simp [State.csigMin, State.csigAdd, hcsig]
  change execDispatchComplete l.id s = _
  simp [execDispatchComplete, hsole, hdone, hsig, Hub.unpin]

/-! ### `QCTL` (R258) -/

/-- A command of `QCTL` on a queue is given. -/
def QctlAsks (s : State) (part q n : Nat) : Prop :=
  wbits 63 62 (s.hub.part part).qctl = 1 ∧ wbits 15 14 (s.hub.part part).qctl = n ∧
    wbits 11 0 (s.hub.part part).qctl = q

theorem Hub.qctlIs_of_asks {n : Nat} {cmd : Nat → Bool} (h : QctlAsks s part q n) (hcmd : cmd n = true) :
    s.hub.qctlIs part q cmd = true := by
  obtain ⟨hgiven, hn, hq⟩ := h
  simp [Hub.qctlIs, hgiven, hn, hq, hcmd]

/-- The address of a queue's descriptor (R257). -/
abbrev Hub.descAddr (hb : Hub) (part q : Nat) : Nat := wbits 56 12 (hb.part part).qtb * 4096 + 64 * q

/-- A queue as it stands in a valid descriptor. -/
theorem Hub.readQueue_of_desc {hb : Hub} {fr st pa : Nat} {pas : List Nat} {bs : List Byte}
    (htable : (hb.part part).qtb.getLsbD 0 = true) (hread : hb.readVa fr part (hb.descAddr part q) 64 = some bs)
    (haddr : hb.hubAddrs fr part .store (hb.descAddr part q) 64 = some (pa :: pas)) (hok : descOk (leBytes bs) = true) :
    ∃ y, hb.readQueue fr part q st = some y ∧ y.part = part ∧ y.q = q ∧ y.va = hb.descAddr part q ∧ y.state = st ∧
      y.pend = [.bell] ∧ y.ridx = bitsOf 447 384 (leBytes bs) ∧ y.log2n = bitsOf 20 16 (leBytes bs) := by
  simp only [Hub.readQueue, htable, hread, haddr, hok]
  exact ⟨_, rfl, rfl, rfl, rfl, rfl, rfl, rfl, rfl⟩

theorem State.addQueue_of_none (h : s.hub.queues = []) (x : Queue) :
    s.addQueue x = { s with free := s.free + 1, hub := { s.hub with queues := [x] } } := by
  simp [State.addQueue, h]

theorem execQctlActivate_of_desc (hcmd : QctlAsks s part q 0) (hnone : s.hub.queues = [])
    (hdesc : s.hub.readQueue s.free part q 1 = some x) : exec (.qctlActivate part q) s =
      .next ((((s.addQueue x).setDesc part q 8 [0#8]).setDesc part q 0 [1#8]).endQctl part 2) := by
  have his := Hub.qctlIs_of_asks (cmd := fun c => c = 0 || c = 3) hcmd (by decide)
  obtain ⟨-, hn, -⟩ := hcmd
  have hfree : s.hub.queue part q = none := by simp [Hub.queue, hnone]
  change execQctlActivate part q s = _
  simp [execQctlActivate, his, hn, hfree, hdesc]

theorem State.unstart_of_no_launch (h : s.hub.launches = []) (part q : Nat) : s.unstart part q = s := by
  have hsame : { s with hub := { s.hub with launches := [] } } = s := by rw [← h]
  simp only [State.unstart, h, List.filter_nil, List.foldl_nil, hsame]

theorem execQctlDisable_of_none (hcmd : QctlAsks s part q 1) (hnone : s.hub.queues = [])
    (hidle : s.hub.launches = []) : exec (.qctlDisable part q) s = .next (s.endQctl part 2) := by
  have his := Hub.qctlIs_of_asks (cmd := fun c => c = 1) hcmd (by decide)
  have hstarting : s.hub.starting part q = false := by simp [Hub.starting, hidle]
  have hfree : s.hub.queue part q = none := by simp [Hub.queue, hnone]
  have hsame : { s with hub := { s.hub with queues := [] } } = s := by rw [← hnone]
  change execQctlDisable part q s = _
  simp [execQctlDisable, his, hstarting, State.unstart_of_no_launch hidle, hfree, hnone, hsame]

theorem execQctlReset_of_queue (hcmd : QctlAsks s part q 2) (h : s.hub.queue part q = some x) :
    exec (.qctlReset part q) s = if x.state ≠ 2 then .next (s.endQctl part 3)
      else .next ((((s.setQueue part q (fun x => { x with state := 1 }.enter .bell)).setDesc part q 8 [0#8]).setDesc
        part q 0 [1#8]).endQctl part 2) := by
  have his := Hub.qctlIs_of_asks (cmd := fun c => c = 2) hcmd (by decide)
  change execQctlReset part q s = _
  simp only [execQctlReset, his, h]
  rfl

end

end Sys2Proof.Machine
end

section
/-! The calender's decision at the placement of a gang (R307, R321 to R325): a hit, the fallback or a new entry. -/

namespace Sys2Proof.Machine

section
variable {s : State} {l : Launch} {g : Gang} {k : KHead} {chip flight : Nat}

/-! ### What a decision leaves -/

/-- The launch has its decision, and the gang holds its flights. -/
def Decided (s : State) (l : Launch) (g : Gang) (k : KHead) (chip flight : Nat) (base : Option Nat) (t : State) :
    Prop :=
  t.hub.mem = s.hub.mem ∧
    t.hub.launches.map (·.decisions) = [l.decisions ++ [{ prof := k.prof, base := base }]] ∧
    ∀ g' ∈ t.hub.launches.flatMap (·.gangs), g'.idx = g.idx → g'.chip = chip ∧ g'.flight = flight ∧ g'.prof = k.prof

/-- A gang on the flights that it takes. -/
def Gang.placedOn (chip flight prof : Nat) (g : Gang) : Gang := { g with chip := chip, flight := flight, prof := prof }

/-- A launch whose gang holds its flights. -/
def Launch.holding (g : Gang) (chip flight prof : Nat) (l : Launch) : Launch :=
  { l with gangs := l.gangs.map (fun x => if x.idx = g.idx then x.placedOn chip flight prof else x) }

theorem State.holdFlights_launches (hsole : s.hub.launches = [l]) (prof : Nat) :
    (s.holdFlights l g chip flight prof).hub.launches = [l.holding g chip flight prof] := by
  simp only [State.holdFlights, State.setGang, State.setLaunch, hsole, List.map_singleton, if_true]
  rfl

/-- A decision for a launch whose gang holds its flights. -/
theorem State.setDecision_decided {u : State} (hmem : u.hub.mem = s.hub.mem)
    (hsole : u.hub.launches = [l.holding g chip flight k.prof]) (base : Option Nat) :
    Decided s l g k chip flight base (u.setDecision l k.prof base) := by
  have hlaunches : (u.setDecision l k.prof base).hub.launches =
      [{ l.holding g chip flight k.prof with decisions := l.decisions ++ [{ prof := k.prof, base := base }] }] := by
    simp only [State.setDecision, State.setLaunch, hsole, List.map_singleton]
    exact congrArg (fun x => [x]) (if_pos rfl)
  refine ⟨(State.setDecision_hub_mem ..).trans hmem, by rw [hlaunches]; rfl, fun g' hg hidx => ?_⟩
  rw [hlaunches] at hg
  obtain ⟨x, -, rfl⟩ : ∃ x ∈ l.gangs, (if x.idx = g.idx then x.placedOn chip flight k.prof else x) = g' := by
    simpa [Launch.holding] using hg
  split_ifs at hidx ⊢ with hx
  · exact ⟨rfl, rfl, rfl⟩
  · exact absurd hidx hx

/-! ### The three decisions -/

theorem find_sole_kernel (h : l.kernels = [k]) : l.kernels.find? (fun x => x.prof = k.prof) = some k := by
  simp [h]

theorem execCalenderDecision_of_hit {y : Quire} (hdec : s.deciding l.id k.prof = some (l, g, chip, flight))
    (hkernel : l.kernels = [k]) (hsole : s.hub.quires = [y]) (hpart : y.part = l.part) (hkid : y.kid = k.kid)
    (hprof : y.prof = k.prof) (hfp : y.fp.toNat = crc64 (keyString k l)) (hkey : y.key = keyString k l) :
    exec (.calenderDecision l.id k.prof) s = .next ((s.holdFlights l g chip flight k.prof).quireHit l k y) := by
  have hquires : (s.holdFlights l g chip flight k.prof).hub.quires = [y] := hsole
  change execCalenderDecision l.id k.prof s = _
  simp [execCalenderDecision, hdec, find_sole_kernel hkernel, hquires, hpart, hkid, hprof, hfp, hkey]

theorem execCalenderDecision_of_no_quota (hdec : s.deciding l.id k.prof = some (l, g, chip, flight))
    (hkernel : l.kernels = [k]) (hnone : s.hub.quires = []) (hquota : s.hub.quireQuota l.part = 0) :
    exec (.calenderDecision l.id k.prof) s = .next (State.fallBack l k 8
      { s.holdFlights l g chip flight k.prof with free := s.free + 1 }) := by
  have hquires : (s.holdFlights l g chip flight k.prof).hub.quires = [] := hnone
  have hquota' : (s.holdFlights l g chip flight k.prof).hub.quireQuota l.part = 0 := hquota
  change execCalenderDecision l.id k.prof s = _
  simp only [execCalenderDecision, hdec, find_sole_kernel hkernel, hquires, hquota', List.find?_nil, if_true]
  rfl

theorem execCalenderDecision_of_residual {bs : List Byte}
    (hdec : s.deciding l.id k.prof = some (l, g, chip, flight)) (hkernel : l.kernels = [k])
    (hnone : s.hub.quires = []) (hquota : s.hub.quireQuota l.part ≠ 0)
    (hok : ((s.holdFlights l g chip flight k.prof).calEnv l k).specialise l k = .ok bs) :
    exec (.calenderDecision l.id k.prof) s = .next (State.newEntry l k bs
      { s.holdFlights l g chip flight k.prof with free := s.free + 1 }) := by
  have hquires : (s.holdFlights l g chip flight k.prof).hub.quires = [] := hnone
  have hquota' : (s.holdFlights l g chip flight k.prof).hub.quireQuota l.part ≠ 0 := hquota
  change execCalenderDecision l.id k.prof s = _
  simp only [execCalenderDecision, hdec, find_sole_kernel hkernel, hquires, hok, List.find?_nil, if_neg hquota']
  rfl

@[simp] theorem State.setDecision_part (l : Launch) (prof : Nat) (base : Option Nat) (s : State) (n : Nat) :
    (s.setDecision l prof base).hub.part n = s.hub.part n := rfl

/-- The fallback leaves its reason in `CALST` (R321). -/
theorem State.fallBack_calst {reason : Nat} (hreason : reason < 256) (hpart : l.part < 16) :
    wbits 7 0 ((s.fallBack l k reason).hub.parts[l.part]'hpart).calst = reason := by
  have hregs : (s.fallBack l k reason).hub.parts[l.part]'hpart = (s.fallBack l k reason).hub.part l.part := by
    simp [Hub.part, Nat.mod_eq_of_lt hpart]
  rw [hregs, State.fallBack, State.setDecision_part, State.setPart, Hub.part_setPart, if_pos rfl]
  exact (wbits_setBits_apart (by decide) (by decide) (by decide) ..).trans
    ((wbits_setBits_apart (by decide) (by decide) (by decide) ..).trans
      ((wbits_setBits_same (by decide) (by decide) ..).trans (Nat.mod_eq_of_lt hreason)))

end

/-! ### The obligation -/

/-- Settles O57: doorbells and packets, waiting barrier packets, completion, the commands of `QCTL`, and the calender's
decision. -/
theorem queuesAreProcessed : Obligations.QueuesAreProcessed := by
  intro s part q x s1 command packet read
  refine ⟨fun bs hsole hpart hq hbell hactive hread hroom => ?_, fun p l h hty hlegal hl => ?_,
    fun p => execDispatchPacket_of_illegal, fun p => execBarrierPacket_of_legal,
    fun p t => execSignalPacket_of_legal,
    fun h => ⟨(exec_dispatchPacket ..).trans (processIf_of_unreadable h),
      (exec_barrierPacket ..).trans (processIf_of_unreadable h),
      (exec_signalPacket ..).trans (processIf_of_unreadable h)⟩,
    fun h hactive hwaits => ?_, fun l hsole hdone hcsig _ => execDispatchComplete_of_sole hsole hdone hcsig,
    fun bs pa pas hcmd htable hnone => ?_, execQctlDisable_of_none, fun hcmd h => ?_,
    fun l g k chip flight hsole hkernel hdec => ?_⟩
  · exact ⟨execDoorbell_of_active (Hub.queue_of_sole hsole hpart hq) hbell hactive hread hroom,
      State.sawWidx_takeBell_frame hsole hpart hq _⟩
  · obtain ⟨t, ⟨ls, ds, r, rfl⟩, e⟩ := execDispatchPacket_of_launch h hty hlegal hl
    exact ⟨_, e, rfl, rfl, rfl, rfl, rfl, rfl, rfl, rfl⟩
  · have hwaiting := Hub.waiting_of_barrier h hactive hwaits
    refine ⟨fun hevent => execBarrierEvaluate_of_signalled hwaiting (Hub.signalled_of_event h hevent),
      fun t0 => execBarrierSignalReread_of_due h hwaiting, fun csig hbarrier hcsig => ?_⟩
    exact State.evalBarrier_of_no_deps h (hcsig ▸ hbarrier)
  · intro va hread haddr hok
    obtain ⟨y, hy, hpart, hq, hva, hstate, hpend, hridx, hlog⟩ := Hub.readQueue_of_desc (st := 1) htable hread haddr hok
    refine ⟨y, hpart, hq, hva, hstate, hpend, hridx, hlog, ?_⟩
    rw [execQctlActivate_of_desc hcmd hnone hy, State.addQueue_of_none hnone]
  · rw [execQctlReset_of_queue hcmd h]
    exact ⟨fun hstate => if_pos hstate, fun hstate => if_neg (not_not.mpr hstate)⟩
  · intro u decided
    have hheld : u.hub.launches = [l.holding g chip flight k.prof] := State.holdFlights_launches hsole k.prof
    refine ⟨fun y hquires hpart hkid hprof hfp hkey => ⟨execCalenderDecision_of_hit hdec hkernel hquires hpart hkid
      hprof hfp hkey, State.setDecision_decided rfl hheld _⟩, fun hquires hquota => ?_,
      fun bs hquires hquota hok => execCalenderDecision_of_residual hdec hkernel hquires hquota hok⟩
    exact ⟨_, execCalenderDecision_of_no_quota hdec hkernel hquires hquota, State.setDecision_decided rfl hheld _,
      State.fallBack_calst (by decide)⟩

end Sys2Proof.Machine
end

section
/-! Traps and the return from them (R335, R341, R370 to R380): what the entry of a handler writes, what `eret` brings
back, and the instructions that trap on purpose. -/

namespace Sys2Proof.Machine

/-! ### Fields of `PLV` -/

/-- A field that takes the value of another field of its size. -/
theorem wbits_setBits_wbits {h l h' l' : Nat} (hl : l ≤ h) (hh : h < 64) (hsize : h' + 1 - l' = h + 1 - l)
    (v w : Word) : wbits h l (setBits h l (wbits h' l' v) w) = wbits h' l' v := by
  rw [wbits_setBits_same hl hh, ← hsize]
  exact Nat.mod_mod ..

theorem wbits_setBits_zero {h l : Nat} (hl : l ≤ h) (hh : h < 64) (w : Word) : wbits h l (setBits h l 0 w) = 0 :=
  (wbits_setBits_same hl hh 0 w).trans (Nat.zero_mod _)

/-- The level of a hart is the field `CUR` of its `PLV`. -/
theorem Hart.level_eq_wbits (h : Hart) : h.level = wbits 1 0 h.spr.plv := rfl

/-- On entry to S its fields take the level and the enable of before, and those of M stay (R335). -/
theorem wbits_enterPlv_S (w : Word) :
    wbits 3 2 (enterPlv 1 w) = wbits 1 0 w ∧ wbits 8 8 (enterPlv 1 w) = wbits 6 6 w ∧
      wbits 6 6 (enterPlv 1 w) = 0 ∧ wbits 7 7 (enterPlv 1 w) = wbits 7 7 w ∧
      wbits 5 4 (enterPlv 1 w) = wbits 5 4 w := by
  simp (disch := decide) [enterPlv, wbits_setBits_wbits, wbits_setBits_zero, wbits_setBits_apart]

/-- On entry to M its fields take the level and the enable of before, and those of S stay (R335). -/
theorem wbits_enterPlv_M (w : Word) :
    wbits 5 4 (enterPlv 2 w) = wbits 1 0 w ∧ wbits 9 9 (enterPlv 2 w) = wbits 7 7 w ∧
      wbits 7 7 (enterPlv 2 w) = 0 ∧ wbits 6 6 (enterPlv 2 w) = wbits 6 6 w ∧
      wbits 3 2 (enterPlv 2 w) = wbits 3 2 w := by
  simp (disch := decide) [enterPlv, wbits_setBits_wbits, wbits_setBits_zero, wbits_setBits_apart]

/-- A return from S brings back the level and the enable that its entry saved, and leaves the enable of M (R379). -/
theorem wbits_leavePlv_S {w : Word} (h : wbits 1 0 w = 1) :
    wbits 1 0 (leavePlv w) = wbits 3 2 w ∧ wbits 6 6 (leavePlv w) = wbits 8 8 w ∧
      wbits 7 7 (leavePlv w) = wbits 7 7 w := by
  simp (disch := decide) [leavePlv, h, wbits_setBits_wbits, wbits_setBits_apart]

/-- A return from M brings back the level and the enable that its entry saved, and leaves the enable of S (R379). -/
theorem wbits_leavePlv_M {w : Word} (h : wbits 1 0 w = 2) :
    wbits 1 0 (leavePlv w) = wbits 5 4 w ∧ wbits 7 7 (leavePlv w) = wbits 9 9 w ∧
      wbits 6 6 (leavePlv w) = wbits 6 6 w := by
  simp (disch := decide) [leavePlv, h, wbits_setBits_wbits, wbits_setBits_apart]

/-! ### Fields of `TCAUSE` -/

/-- The bits `[27:24]` of `TCAUSE`: a slot with its valid bit, or nothing (R370). -/
def TrapInfo.slotField (t : TrapInfo) : Nat := match t.slot with
  | some sl => sl.bit + 8
  | none => 0

theorem slotBit_lt (sl : Slot) : sl.bit < 8 := by cases sl <;> decide

theorem TrapInfo.slotField_lt (t : TrapInfo) : t.slotField < 16 := by
  unfold TrapInfo.slotField
  split
  next sl _ => exact Nat.add_lt_add_right (slotBit_lt sl) 8
  next => decide

/-- A cause word is its fields side by side. -/
theorem toNat_causeWord (t : TrapInfo) (held : Bool) : (causeWord t held).toNat =
    t.code % 256 + t.info % 65536 * 256 + t.slotField * 16777216 + held.toNat * 4294967296 := by
  have hheld := Bool.toNat_le held
  rw [causeWord, TrapInfo.slotField, BitVec.toNat_ofNat]
  cases t.slot with
  | none => dsimp only; omega
  | some sl =>
    have hbit := slotBit_lt sl
    dsimp only
    omega

section
variable (t : TrapInfo) (held : Bool)

/-- Every field of a cause word (R370). -/
theorem wbits_causeWord :
    wbits 7 0 (causeWord t held) = t.code % 256 ∧ wbits 23 8 (causeWord t held) = t.info % 65536 ∧
      wbits 27 24 (causeWord t held) = t.slotField ∧ wbits 31 28 (causeWord t held) = 0 ∧
      wbits 32 32 (causeWord t held) = held.toNat ∧ wbits 63 33 (causeWord t held) = 0 := by
  have hfield := t.slotField_lt
  have hheld := Bool.toNat_le held
  simp only [wbits, bitsOf, toNat_causeWord, Nat.shiftRight_eq_div_pow]
  omega

theorem wbits_causeWord_slot {sl : Slot} (h : t.slot = some sl) :
    wbits 26 24 (causeWord t held) = sl.bit ∧ wbits 27 27 (causeWord t held) = 1 := by
  have hbit := slotBit_lt sl
  have hfield : t.slotField = sl.bit + 8 := by rw [TrapInfo.slotField, h]
  have hheld := Bool.toNat_le held
  simp only [wbits, bitsOf, toNat_causeWord, hfield, Nat.shiftRight_eq_div_pow]
  omega

end

/-! ### Entering a handler -/

/-- A trap from U holds the schedule of a tread (R374). -/
def Hart.holdsSched (h : Hart) : Bool := h.level = 0 && !h.isCore

theorem Hart.trapEntry_tcause (t : TrapInfo) (w : Word) (h : Hart) :
    (h.trapEntry t w).spr.tcause = causeWord t h.holdsSched := by
  rw [Hart.trapEntry_spr]
  rfl

theorem Hart.trapEntry_pc (t : TrapInfo) (w : Word) (h : Hart) : (h.trapEntry t w).ctl.pc =
    BitVec.ofNat 57 (if t.lvl = 2 then h.spr.mvec else h.spr.svec).toNat := by
  unfold Hart.trapEntry; rfl

theorem Hart.trapEntry_held (t : TrapInfo) (w : Word) (h : Hart) :
    (h.trapEntry t w).ctl.held = if h.holdsSched then some h.sched else h.ctl.held := by
  unfold Hart.trapEntry; rfl

theorem Hart.trapEntry_sched (t : TrapInfo) (w : Word) (h : Hart) :
    (h.trapEntry t w).sched = if h.holdsSched then Sched.empty else { h.sched with loop := none, hold := 0 } := by
  unfold Hart.trapEntry; rfl

theorem Hart.holdsSched_iff (h : Hart) : h.holdsSched = true ↔ h.level = 0 ∧ h.isCore = false := by
  simp [Hart.holdsSched]

/-- Settles O11: the fields of `PLV` and of `TCAUSE` one by one, and the schedule by whether it is held. -/
theorem trapEntersHandler : Obligations.TrapEntersHandler := by
  intro s t hlvl _ u held
  have hme : u.me = s.me.trapEntry t (s.titer s.me t.tpc.toNat t.slot.toList) := State.takeTrap_me ..
  have hheld : s.me.holdsSched = true ↔ held := s.me.holdsSched_iff
  obtain ⟨hcode, hinfo, hslot, hzero, hbit, hhigh⟩ := wbits_causeWord t s.me.holdsSched
  rw [hme, Hart.trapEntry_tcause, Hart.trapEntry_pc, Hart.trapEntry_held, Hart.trapEntry_sched, Hart.trapEntry_plv]
  refine ⟨Hart.trapEntry_level hlvl, fun h => ?_, fun h => ?_, hcode, hinfo, fun sl => wbits_causeWord_slot t _,
    fun h => ?_, fun h => ?_, fun h => ?_, hzero, hhigh, ?_, Hart.trapEntry_taddr .., Hart.trapEntry_regs ..,
    Hart.trapEntry_units .., Hart.trapEntry_writes .., State.takeTrap_ring .., State.takeTrap_hub_mem ..⟩
  · obtain ⟨hlevel, hold, hoff, hm, hml⟩ := wbits_enterPlv_S s.me.spr.plv
    rw [h]
    exact ⟨hlevel, hold, hoff, hm, hml, rfl⟩
  · obtain ⟨hlevel, hold, hoff, hs, hsl⟩ := wbits_enterPlv_M s.me.spr.plv
    rw [h]
    exact ⟨hlevel, hold, hoff, hs, hsl, rfl⟩
  · rw [hslot, TrapInfo.slotField, h]
  · rw [hbit, hheld.mpr h]
    exact ⟨rfl, rfl, rfl⟩
  · rw [hbit, Bool.eq_false_iff.mpr (mt hheld.mp h)]
    exact ⟨rfl, rfl, rfl⟩
  · rw [Hart.trapEntry_tpc, BitVec.toNat_ofNat, Nat.mod_eq_of_lt (by omega)]

/-! ### The return -/

/-- `eret` where its guard holds, by the level, the other slots and the results of the handler (R379). -/
theorem execEret_of_holds {f : CN} {s : State} (h : guardHolds f.gk.g s.me = true) : exec (.eret f) s =
    if s.me.level = 0 then s.privileged
    else if 1 < s.me.iss.ops then s.illegal 9
    else if !s.me.sched.pipe.isEmpty ∨ s.me.sched.mx.isSome then .next (s.stall false)
    else .next (s.modMe Hart.eretEntry) := by
  change execEret f s = _
  rw [execEret, guarded_of_holds h]

theorem Hart.eretEntry_plv (h : Hart) : h.eretEntry.spr.plv = leavePlv h.spr.plv := rfl

/-- Back at U the held schedule goes on, its loop where the handler has left `TPC` as it was (R374, R379). -/
theorem Hart.eretEntry_of_toU {h : Hart} (hU : h.eretEntry.level = 0) : h.eretEntry.ctl.held = none ∧
    h.eretEntry.sched = { h.ctl.held.getD h.sched with
      loop := if h.ctl.origin = some (BitVec.ofNat 57 h.spr.tpc.toNat) then (h.ctl.held.getD h.sched).loop
        else none } := by
  have hU' : wbits 1 0 (leavePlv h.spr.plv) = 0 := hU
  simp [Hart.eretEntry, hU']

/-- A return to another level leaves the schedule, and the one that is held. -/
theorem Hart.eretEntry_of_not_toU {h : Hart} (hU : h.eretEntry.level ≠ 0) :
    h.eretEntry.sched = h.sched ∧ h.eretEntry.ctl.held = h.ctl.held := by
  have hU' : ¬wbits 1 0 (leavePlv h.spr.plv) = 0 := hU
  simp [Hart.eretEntry, hU']

/-- Settles O12: the fields of `PLV` by the level of the handler, the schedule by the level of the return. -/
theorem eretReturnsFromHandler : Obligations.EretReturnsFromHandler := by
  intro f s hguard
  refine ⟨fun hlevel hops hpipe hmx => ⟨s.modMe Hart.eretEntry, ?_, rfl, fun hM => ?_, fun hS => ?_,
    Hart.eretEntry_of_toU, Hart.eretEntry_of_not_toU, rfl, rfl, rfl, rfl⟩, fun hU => ?_, fun hU hops => ?_⟩
  · rw [execEret_of_holds hguard, if_neg (by omega), if_neg (by omega), if_neg (by simp [hpipe, hmx])]
  · exact wbits_leavePlv_M hM
  · exact wbits_leavePlv_S hS
  · rw [Traps, execEret_of_holds hguard, if_pos hU, State.privileged, hU]
    rfl
  · rw [execEret_of_holds hguard, if_neg hU, if_pos hops]

/-! ### Traps on purpose -/

theorem exec_trap_of_holds {f : CI} {s : State} (h : guardHolds f.gk.g s.me = true) :
    exec (.trap f) s = .next (s.trapS clsSoft 4 f.imm.toNat 0) := by
  change execTrap f s = _
  rw [execTrap, guarded_of_holds h]

theorem exec_sys_of_holds {f : CI} {s : State} (h : guardHolds f.gk.g s.me = true) :
    exec (.sys f) s = .next (s.takeTrap
      { cls := clsAfter, code := 3, info := f.imm.toNat, slot := some .ct, tpc := s.nextAddr, taddr := 0,
        lvl := toPriv s.me.level }) := by
  change execSys f s = _
  rw [execSys, guarded_of_holds h]

theorem exec_bkpt_of_holds {f : CI} {s : State} (h : guardHolds f.gk.g s.me = true) : exec (.bkpt f) s =
    if s.me.level = 0 ∧ s.me.spr.dbg.getLsbD 4 then
      .next (s.modMe (fun h => { h with spr := { h.spr with dbg := setBits 4 4 0 h.spr.dbg } })).ok
    else .next (s.takeTrap
      { cls := clsSoft, code := 5, info := f.imm.toNat, slot := some .ct, tpc := s.me.ctl.pc, taddr := 0,
        lvl := if s.me.spr.dbg.getLsbD 3 then 2 else toS s.me.level }) := by
  change execBkpt f s = _
  rw [execBkpt, guarded_of_holds h]

/-- A breakpoint goes to M where `DBG.BKM` says so, and from M (R372, R392). -/
theorem bkptLevel (m : Bool) (lvl : Nat) :
    (if m then 2 else toS lvl) = if m = true ∨ lvl = 2 then 2 else 1 := by
  cases m <;> simp [toS]

/-- Settles O13: each of the three is one trap, but for a breakpoint that is skipped. -/
theorem trapInstructionsTrap : Obligations.TrapInstructionsTrap := by
  intro f s hguard
  refine ⟨exec_trap_of_holds hguard, exec_sys_of_holds hguard, fun hskip => ?_, fun hU hskip => ?_⟩
  · rw [Traps, exec_bkpt_of_holds hguard, if_neg hskip, bkptLevel]
  · refine ⟨_, (exec_bkpt_of_holds hguard).trans (if_pos ⟨hU, hskip⟩), ?_, rfl, rfl, rfl, rfl, rfl, rfl⟩
    exact (getLsbD_setBits (by decide) (by decide) ..).trans (if_pos ⟨le_rfl, le_rfl⟩)

end Sys2Proof.Machine
end

section
/-! The system slot (R336, R354, R355): the access of `rdsr` and `wrsr` to a register, and the invalidation that `tlbinv`
begins. -/

namespace Sys2Proof.Machine

section
variable {f : SI} {s : State}

/-! ### `rdsr` and `wrsr` -/

/-- `rdsr` by the access that the register permits at the current level (R336). -/
theorem execRdsr_of_holds (h : guardHolds f.gk.g s.me = true) : exec (.rdsr f) s =
    (sprAccess s.me.isCore f.imm.toNat).elim (s.illegal 5) (fun c =>
      if levelCell c s.me.level = .no then s.privileged else .next (s.writeS 1 f.d (sprRead f.imm.toNat s))) := by
  change execRdsr f s = _
  rw [execRdsr, guarded_of_holds h]
  cases haccess : sprAccess s.me.isCore f.imm.toNat <;> simp only [haccess] <;> rfl

/-- What `wrsr` does to a register that is not readable alone or closed at the current level (R340, R403). -/
def State.sprWrites (f : SI) (s : State) : Host.Outcome State Fault Refusal :=
  if f.imm.toNat = 0x0b ∧ s.me.units.mould.mode = .closing then s.illegal 9
  else .next (s.issue 1 0 0 [.spr s.me.level f.imm.toNat (s.me.regs.sReg f.a)])

/-- `wrsr` by the access that the register permits at the current level (R336). -/
theorem execWrsr_of_holds (h : guardHolds f.gk.g s.me = true) : exec (.wrsr f) s =
    (sprAccess s.me.isCore f.imm.toNat).elim (s.illegal 5) (fun c =>
      if levelCell c s.me.level = .no then s.privileged
      else if levelCell c s.me.level = .rw then s.sprWrites f
      else if higherRw c s.me.level then s.privileged else .next s.ok) := by
  change execWrsr f s = _
  rw [execWrsr, guarded_of_holds h]
  cases haccess : sprAccess s.me.isCore f.imm.toNat with
  | none => simp only [haccess, Option.elim]
  | some c => cases hcell : levelCell c s.me.level <;> simp [haccess, hcell, State.sprWrites]

end

section
variable {g : SR} {s : State}

/-! ### `tlbinv` and `tlbsync` -/

/-- The KIND that a `tlbinv` names (R354). -/
abbrev State.tlbKind (g : SR) (s : State) : Nat := wbits 2 0 (s.me.regs.sReg g.b)

/-- The invalidation that a `tlbinv` begins (R354). -/
def State.newTlbinv (g : SR) (s : State) : TlbInv :=
  { id := s.free, by_ := s.me.id, kind := s.tlbKind g,
    part := if s.me.level = 1 then s.me.partNo else wbits 11 8 (s.me.regs.sReg g.b),
    va := (s.me.regs.sReg g.a).toNat % 2 ^ 57, tick := s.hub.clk + Config.freeNat s.free, marks := none }

/-- The state after a `tlbinv` has begun an invalidation. -/
def State.beginTlbinv (x : TlbInv) (s : State) : State :=
  (State.modMe (fun h => { h with lsu := { h.lsu with tlbinvs := h.lsu.tlbinvs ++ [x.id] } })
    { s with free := s.free + 1, hub := { s.hub with tlbinvs := s.hub.tlbinvs ++ [x] } }).ok

theorem execTlbinv_of_holds (h : guardHolds g.gk.g s.me = true) : exec (.tlbinv g) s =
    if s.me.level = 0 ∨ (s.me.level = 1 ∧ 2 ≤ s.tlbKind g ∧ s.tlbKind g ≤ 4) then s.privileged
    else if 5 ≤ s.tlbKind g then s.illegal 9
    else if !s.hub.fenceDone 0 s.me ∨ s.me.tlbFull then .next (s.stall false)
    else .next (s.beginTlbinv (s.newTlbinv g)) := by
  change execTlbinv g s = _
  rw [execTlbinv, guarded_of_holds h]
  rfl

theorem execTlbsync_of_holds (h : guardHolds g.gk.g s.me = true) : exec (.tlbsync g) s =
    if s.me.level = 0 then s.privileged
    else if s.me.lsu.tlbinvs.isEmpty then .next s.ok else .next (s.stall false) := by
  change execTlbsync g s = _
  rw [execTlbsync, guarded_of_holds h]

end

/-- Settles O22: `rdsr` and `wrsr` by the cell of the register at the level, `tlbinv` and `tlbsync` by the level. -/
theorem systemRegistersObeyAccess : Obligations.SystemRegistersObeyAccess := by
  intro f g s
  refine ⟨fun h => ?_, fun h hU => ?_, fun h hS hlow hhigh => ?_⟩
  · intro n priv
    refine ⟨fun hnone => ?_, fun c hsome => ⟨fun hno => ?_, fun hcell => ?_, fun hro hhigher => ?_,
      fun hro hhigher => ?_, fun hrw => ?_⟩⟩
    · rw [execRdsr_of_holds h, execWrsr_of_holds h, hnone]
      exact ⟨rfl, rfl⟩
    · simp only [priv]
      rw [execRdsr_of_holds h, execWrsr_of_holds h, hsome]
      exact ⟨if_pos hno, if_pos hno⟩
    · rw [ScalarTakes, execRdsr_of_holds h, hsome]
      exact if_neg hcell
    · simp only [priv]
      rw [execWrsr_of_holds h, hsome]
      simp [hro, hhigher]
    · rw [execWrsr_of_holds h, hsome]
      have hissues : (if levelCell c s.me.level = .no then s.privileged
          else if levelCell c s.me.level = .rw then s.sprWrites f
          else if higherRw c s.me.level then s.privileged else .next s.ok) = .next s.ok := by
        simp [hro, hhigher]
      exact hissues
    · have hwrites : exec (.wrsr f) s = s.sprWrites f := by
        rw [execWrsr_of_holds h, hsome]
        simp [hrw]
      rw [hwrites]
      exact ⟨fun hkey hclosing => if_pos ⟨hkey, hclosing⟩, fun hfree => if_neg (not_and_or.mpr hfree)⟩
  · rw [execTlbinv_of_holds h, execTlbsync_of_holds h]
    exact ⟨if_pos (.inl hU), if_pos hU⟩
  · rw [execTlbinv_of_holds h]
    exact if_pos (.inr ⟨hS, hlow, hhigh⟩)

/-- Settles O23: an invalidation that is neither privileged nor of an unknown kind begins once nothing holds it back. -/
theorem tlbInvalidationBegins : Obligations.TlbInvalidationBegins := by
  intro g s h
  refine ⟨fun hdone hroom hmay => ⟨s.beginTlbinv (s.newTlbinv g), s.newTlbinv g, ?_, rfl, rfl, rfl, rfl, rfl, rfl, rfl,
    ⟨rfl, rfl, rfl, rfl, rfl, rfl, rfl, rfl⟩, rfl, rfl, rfl⟩, fun hlevel hnone => ?_, fun hlevel hsome => ?_⟩
  · replace hmay : s.me.level = 2 ∧ s.tlbKind g ≤ 4 ∨ s.me.level = 1 ∧ s.tlbKind g ≤ 1 := hmay
    have hkind : s.tlbKind g ≤ 4 ∧ ¬(s.me.level = 0 ∨ s.me.level = 1 ∧ 2 ≤ s.tlbKind g ∧ s.tlbKind g ≤ 4) := by
      omega
    rw [execTlbinv_of_holds h, if_neg hkind.2, if_neg (by omega), if_neg (by simp [hdone, hroom])]
  · rw [execTlbsync_of_holds h, if_neg hlevel, hnone]
    rfl
  · rw [execTlbsync_of_holds h, if_neg hlevel, if_neg (by simpa using hsome)]

end Sys2Proof.Machine
end

section
/-! Waits on semaphores and the clock, and the modulo sequencer (R288, R289, R291, R292, R418). -/

namespace Sys2Proof.Machine

/-! ### `wait.sem` and `sleep.until` -/

/-- A stall changes nothing that software sees. -/
theorem State.stall_untouched (p : Bool) (s : State) : Untouched s (s.stall p) := ⟨rfl, rfl, rfl, rfl, rfl, rfl, rfl, rfl⟩

/-- `wait.sem` where it executes: a Newel core traps (R305), a tread waits for the threshold (R288). -/
theorem execWaitSem_of_ready {f : CS} {s : State} (h : Ready f.gk.g (.waitSem f) s) : exec (.waitSem f) s =
    if s.me.isCore then s.illegal 9
    else if f.thr.toNat ≤ NMap.get 0 f.sem.toNat s.me.units.sem then .next s.issuedBare
    else .next (s.stall false) := by
  change execWaitSem f s = _
  rw [execWaitSem, treadCt]
  exact ctSlot_of_ready h

/-- The state in which a bundle stalls until `CLK` has reached `a` (R289). -/
def State.sleepsUntil (a : Nat) (s : State) : State :=
  (s.stall false).modMe (fun h => { h with ctl := { h.ctl with
    stall := h.ctl.stall.map (fun t => { t with asleep := some a }) } })

theorem State.sleepsUntil_asleep (a : Nat) (s : State) :
    (s.sleepsUntil a).me.ctl.stall.bind (·.asleep) = some a := rfl

theorem State.sleepsUntil_untouched (a : Nat) (s : State) : Untouched s (s.sleepsUntil a) :=
  ⟨rfl, rfl, rfl, rfl, rfl, rfl, rfl, rfl⟩

theorem execSleepUntil_of_ready {f : CR} {s : State} (h : Ready f.gk.g (.sleepUntil f) s) : exec (.sleepUntil f) s =
    if (s.me.regs.sReg f.a).toNat ≤ s.nextCycle then .next s.issuedBare
    else .next (s.sleepsUntil (s.me.regs.sReg f.a).toNat) := by
  change execSleepUntil f s = _
  rw [execSleepUntil]
  exact ctSlot_of_ready h

/-- Settles O25: each wait by its condition. -/
theorem semaphoreAndClockWaits : Obligations.SemaphoreAndClockWaits := by
  intro f r s
  refine ⟨fun h => ⟨fun hcore hmet => ?_, fun hcore hunmet => ?_, fun hcore => ?_⟩, fun h => ⟨fun hdue => ?_,
    fun hearly => ⟨s.sleepsUntil (s.me.regs.sReg r.a).toNat, ?_, rfl, State.sleepsUntil_untouched .., rfl,
      State.sleepsUntil_asleep ..⟩⟩⟩
  · rw [execWaitSem_of_ready h, hcore, if_neg Bool.false_ne_true, if_pos hmet]
  · rw [execWaitSem_of_ready h, hcore, if_neg Bool.false_ne_true, if_neg (Nat.not_le.mpr hunmet)]
  · rw [execWaitSem_of_ready h, if_pos hcore]
  · rw [execSleepUntil_of_ready h, if_pos hdue]
  · rw [execSleepUntil_of_ready h, if_neg (Nat.not_le.mpr hearly)]

/-! ### Reading the lines of a loop body -/

/-- What reading lines of code may change: the time, the hart's memory side, and what the hub notes of a read. -/
structure ReadsCode (s t : State) : Prop where
  regs : t.me.regs = s.me.regs
  spr : t.me.spr = { s.me.spr with lt := t.me.spr.lt }
  lt_le : s.me.spr.lt ≤ t.me.spr.lt
  ctl : t.me.ctl = s.me.ctl
  sched : t.me.sched = s.me.sched
  units : t.me.units = s.me.units
  mem : t.hub.mem = s.hub.mem
  ring : t.ring = s.ring

theorem ReadsCode.refl (s : State) : ReadsCode s s := ⟨rfl, rfl, le_rfl, rfl, rfl, rfl, rfl, rfl⟩

theorem ReadsCode.trans {s t u : State} (h : ReadsCode s t) (g : ReadsCode t u) : ReadsCode s u where
  regs := g.regs.trans h.regs
  spr := by rw [g.spr, h.spr]
  lt_le := h.lt_le.trans g.lt_le
  ctl := g.ctl.trans h.ctl
  sched := g.sched.trans h.sched
  units := g.units.trans h.units
  mem := g.mem.trans h.mem
  ring := g.ring.trans h.ring

theorem ReadsCode.raiseLt (t : Nat) (s : State) : ReadsCode s (s.modMe (Hart.raiseLt t)) :=
  ⟨rfl, rfl, Nat.le_max_left .., rfl, rfl, rfl, rfl, rfl⟩

theorem ReadsCode.fillLine (part node t pa n : Nat) (s : State) : ReadsCode s (s.fillLine part node t pa n) := by
  obtain ⟨lines, ds, r, free, seq, ws, ls, h⟩ := s.fillLine_frame part node t pa n
  rw [h]
  exact ⟨rfl, rfl, le_rfl, rfl, rfl, rfl, rfl, rfl⟩

theorem ReadsCode.readAt (part node a n t : Nat) (s : State) :
    ReadsCode s { s with hub := s.hub.readAt part node a n t } :=
  ⟨rfl, rfl, le_rfl, rfl, rfl, rfl, Hub.readAt_mem .., rfl⟩

theorem ReadsCode.fetchTime (la : Nat) (s : State) : ReadsCode s (s.fetchTime la) := by
  unfold State.fetchTime
  split
  · exact .refl s
  · split
    · exact .refl s
    · split
      · exact .raiseLt ..
      · refine .trans ?_ (.raiseLt ..)
        split
        · exact .fillLine ..
        · exact .readAt ..

theorem ReadsCode.fetchTimes (lines : List Nat) (s : State) :
    ReadsCode s (lines.foldl (fun s la => s.fetchTime la) s) := by
  induction lines generalizing s with
  | nil => exact .refl s
  | cons la lines ih => exact (ReadsCode.fetchTime la s).trans (ih _)

/-- Whether a sequencer runs or is held is as before. -/
theorem ReadsCode.looping {s t : State} (h : ReadsCode s t) : t.me.looping = s.me.looping := by
  rw [Hart.looping, Hart.looping, h.sched, h.ctl]

/-! ### `loop` -/

/-- The state after the modulo sequencer has been given a loop. -/
def State.startLoop (l : LoopSt) (s : State) : State :=
  (s.modMe (fun h => { h with sched := { h.sched with loop := some l } })).issuedBare

/-- What a `loop` of `n` trips ends in once its body has been read (R291, R292). -/
def loopOutcome (f : CL) (n : Nat) (body : List (VAddr × List Byte)) (after : VAddr) (ps : List (Nat × Nat)) : Sem :=
  fun u =>
    if n = 0 then .next (u.modMe (Hart.goTo after)).issuedBare
    else if u.me.looping ∨ body.length ≠ f.len.toNat + 1 ∨ !bodyOk (f.ii.toNat + 1) body then u.illegal 9
    else .next (u.startLoop ⟨0, n, f.ii.toNat + 1, body, after, u.me.ctl.pc, ps⟩)

section
variable {f : CL} {s : State} {body : List (VAddr × List Byte)} {after : VAddr}

/-- The trip count of a `loop` outside broadcast: none where its guard reads false (R291). -/
def State.loopTrips (f : CL) (s : State) : Nat := if guardHolds f.gk.g s.me then (s.me.regs.sReg f.a).toNat else 0

/-- `loop` outside broadcast, once its body has been read and no line of it has to be recalled (R418). -/
theorem execLoop_of_read (hcheck : kernelCheck s.me (.loop f) = none) (hcore : s.me.isCore = false)
    (hdec : s.me.ctl.dec = none)
    (hbody : s.readBody (f.len.toNat + 1 + 2 ^ 51) (s.me.ctl.pc.toNat + s.me.iss.len) (f.len.toNat + 1) [] =
      .ok body after)
    (hlines : ∀ la ∈ s.me.bodyLines body, s.fetchRecall la = none) : exec (.loop f) s =
      loopOutcome f (s.loopTrips f) body after []
        ((s.me.bodyLines body).foldl (fun s la => s.fetchTime la) s) := by
  have hrecall : (s.me.bodyLines body).findSome? (fun la => s.fetchRecall la) = none :=
    List.findSome?_eq_none_iff.mpr hlines
  have hdecided : ((s.me.bodyLines body).foldl (fun s la => s.fetchTime la) s).me.ctl.dec = none :=
    (congrArg Ctl.dec (ReadsCode.fetchTimes (s.me.bodyLines body) s).ctl).trans hdec
  change execLoop f s = _
  unfold execLoop
  simp only [hcheck, hcore, hdec, hbody, Bool.false_eq_true, if_false, Option.isSome_none, hrecall,
    hdecided, Option.map_none, Option.getD_none]
  rfl

/-- `loop` in broadcast goes by the decision of the leading rank (R131, R291). -/
theorem execLoop_of_decision {it : Item} (hcheck : kernelCheck s.me (.loop f) = none) (hcore : s.me.isCore = false)
    (hdec : s.me.ctl.dec = some it) : exec (.loop f) s =
      loopOutcome f it.trips it.code it.target it.pauses s := by
  change execLoop f s = _
  unfold execLoop
  simp only [hcheck, hcore, hdec, Bool.false_eq_true, if_false, Option.isSome_some, if_true, List.findSome?_nil,
    List.foldl_nil, Option.map_some, Option.getD_some]
  rfl

theorem loopOutcome_of_zero (f : CL) (body : List (VAddr × List Byte)) (after : VAddr) (ps : List (Nat × Nat))
    (u : State) : loopOutcome f 0 body after ps u = .next (u.modMe (Hart.goTo after)).issuedBare := rfl

theorem loopOutcome_of_legal {n : Nat} {ps : List (Nat × Nat)} {u : State} (hn : n ≠ 0) (hidle : u.me.looping = false)
    (hlen : body.length = f.len.toNat + 1) (hok : bodyOk (f.ii.toNat + 1) body = true) :
    loopOutcome f n body after ps u =
      .next (u.startLoop ⟨0, n, f.ii.toNat + 1, body, after, u.me.ctl.pc, ps⟩) := by
  rw [loopOutcome, if_neg hn, if_neg (by simp [hidle, hlen, hok])]

theorem loopOutcome_of_illegal {n : Nat} {ps : List (Nat × Nat)} {u : State} (hn : n ≠ 0)
    (hbad : u.me.looping = true ∨ bodyOk (f.ii.toNat + 1) body = false) :
    loopOutcome f n body after ps u = u.illegal 9 := by
  rw [loopOutcome, if_neg hn, if_pos (by obtain h | h := hbad <;> simp [h])]

end

/-- Settles O27: outside broadcast what `loop` ends in once its lines are read, in broadcast by the leading rank's
decision. -/
theorem loopStartsSequencer : Obligations.LoopStartsSequencer := by
  intro f s body after ready n starts
  refine ⟨fun hdec hbody hlines => ?_, fun it hdec hcheck hcore => ?_⟩
  · intro u skips
    have hreads : ReadsCode s u := .fetchTimes ..
    have hexec (hcheck : kernelCheck s.me (.loop f) = none) (hcore : s.me.isCore = false) :
        exec (.loop f) s = loopOutcome f (s.loopTrips f) body after [] u :=
      execLoop_of_read hcheck hcore hdec hbody hlines
    have hready (h : ready) : exec (.loop f) s = loopOutcome f n body after [] u := by
      obtain ⟨⟨hguard, hcheck⟩, hcore⟩ := h
      rw [hexec hcheck hcore, State.loopTrips, if_pos hguard]
    refine ⟨fun h hn => ?_, fun hguard hcheck hcore => ?_, fun h hn hidle hlen hok => ?_, fun h hn hbad => ?_⟩
    · exact (hready h).trans (by rw [hn, loopOutcome_of_zero])
    · refine (hexec hcheck hcore).trans ?_
      rw [State.loopTrips, hguard]
      exact loopOutcome_of_zero ..
    · refine ⟨_, (hready h).trans (loopOutcome_of_legal hn (hreads.looping.trans hidle) hlen hok), ?_, hreads.regs,
        hreads.spr, hreads.lt_le, rfl, hreads.units, rfl, hreads.mem, hreads.ring, rfl⟩
      rw [← hreads.sched, ← hreads.ctl]
      rfl
    · exact (hready h).trans (loopOutcome_of_illegal hn (hreads.looping.symm ▸ hbad))
  · have hexec := execLoop_of_decision (f := f) hcheck hcore hdec
    refine ⟨fun hzero => ?_, fun hn hcode htarget hidle hlen hok => ?_⟩
    · rw [hexec, hzero, loopOutcome_of_zero]
    · rw [hcode, htarget] at hexec
      exact ⟨_, hexec.trans (loopOutcome_of_legal hn hidle hlen hok), rfl, rfl, rfl, le_rfl, rfl, rfl, rfl, rfl, rfl,
        rfl⟩

end Sys2Proof.Machine
end

section
/-! Groups (R63 to R66, R299 to R303): arrivals, `bar.wait` and `grp.red`. -/

namespace Sys2Proof.Machine

/-! ### Arrivals -/

section
variable {n : Nat} {j : Fin 4} {ct : Bool} {contrib : Option Word} {s : State}

/-- The record of the arrivals that the bundle at the hart's pc has sent (R299). -/
def Hart.arrivalRecord (h : Hart) : GroupRec := match h.units.grec with
  | some r => if r.pc = h.ctl.pc then r else { pc := h.ctl.pc, ct := none, ec := none }
  | none => { pc := h.ctl.pc, ct := none, ec := none }

theorem Hart.arrivalRecord_pc (h : Hart) : h.arrivalRecord.pc = h.ctl.pc := by
  unfold Hart.arrivalRecord
  split
  · split
    next hpc => exact hpc
    next => rfl
  · rfl

/-- The record with an arrival of phase `a` at group `n` added. -/
def Hart.noteArrival (ct : Bool) (n a : Nat) (h : Hart) : GroupRec :=
  if ct then { h.arrivalRecord with ct := some (n, a) } else { h.arrivalRecord with ec := some (n, a) }

theorem Hart.noteArrival_spec (ct : Bool) (n a : Nat) (h : Hart) : (h.noteArrival ct n a).pc = h.ctl.pc ∧
    (if ct then (h.noteArrival ct n a).ct else (h.noteArrival ct n a).ec) = some (n, a) := by
  cases ct <;> exact ⟨h.arrivalRecord_pc, rfl⟩

/-- The state after an arrival at group `n`, of slot `j` of `GRPS`, has been sent (R300, R303). -/
def State.sendArrival (ct : Bool) (n : Nat) (j : Fin 4) (contrib : Option Word) (s : State) : State :=
  s.modMe (fun h => { h with units := { h.units with
    grec := some (h.noteArrival ct n (h.units.arrPhase[j]).toNat),
    arrPhase := h.units.arrPhase.set j.val (BitVec.ofNat 16 ((h.units.arrPhase[j]).toNat + 1)) j.isLt,
    arrivals := h.units.arrivals ++ [⟨n, (h.units.arrPhase[j]).toNat, contrib, h.iss.seq⟩] } })

theorem State.arrive_of_arrived {q : Nat} (h : s.me.arrived ct n = some q) :
    s.arrive ct n j contrib = (some q, s) := by
  simp only [State.arrive, h]

theorem State.arrive_of_other_phase (h : s.me.arrived ct n = none) (hphase : (s.me.units.arrPhase[j]).toNat ≠ s.phaseOf n) :
    s.arrive ct n j contrib = (none, s) := by
  simp only [State.arrive, h, if_pos hphase]

theorem State.arrive_of_current_phase (h : s.me.arrived ct n = none)
    (hphase : (s.me.units.arrPhase[j]).toNat = s.phaseOf n) :
    s.arrive ct n j contrib = (some (s.me.units.arrPhase[j]).toNat, s.sendArrival ct n j contrib) := by
  simp only [State.arrive, h, if_neg (not_not.mpr hphase)]
  rfl

/-- The phase that the hart will arrive at next is the one after (R300). -/
theorem State.sendArrival_arrPhase : (s.sendArrival ct n j contrib).me.units.arrPhase =
    s.me.units.arrPhase.set j.val (s.me.units.arrPhase[j] + 1) j.isLt := by
  have hnext (x : BitVec 16) : BitVec.ofNat 16 (x.toNat + 1) = x + 1 := BitVec.eq_of_toNat_eq (by simp)
  rw [State.sendArrival, State.modMe_me, hnext]

/-- An arrival that has been sent is in the bundle's record (R299). -/
theorem State.sendArrival_arrived :
    (s.sendArrival ct n j contrib).me.arrived ct n = some (s.me.units.arrPhase[j]).toNat := by
  obtain ⟨hpc, hslot⟩ := s.me.noteArrival_spec ct n (s.me.units.arrPhase[j]).toNat
  simp only [State.sendArrival, Hart.arrived, State.modMe, hpc, hslot, if_true]

/-! ### The control slot -/

theorem groupCt_of_slot {i : Instr} {f : CR} {k : Fin 4 → Sem} (h : TreadReady f.gk.g i s)
    (hslot : s.me.groupSlot f.imm.toNat = some j) : groupCt i f k s = k j s := by
  rw [groupCt, treadCt_of_ready h, hslot]

theorem State.stallOn_untouched (n p : Nat) (s : State) : Untouched s (s.stallOn n p) :=
  ⟨rfl, rfl, rfl, rfl, rfl, rfl, rfl, rfl⟩

/-- `bar.arrive` sends its arrival in the current phase. -/
theorem execBarArrive_of_current_phase {f : CR} (h : TreadReady f.gk.g (.barArrive f) s)
    (hslot : s.me.groupSlot f.imm.toNat = some j) (hnone : s.me.arrived true f.imm.toNat = none)
    (hphase : (s.me.units.arrPhase[j]).toNat = s.phaseOf f.imm.toNat) : exec (.barArrive f) s =
      .next ((s.sendArrival true f.imm.toNat j none).writeS 1 f.b (BitVec.ofNat 64 (s.phaseOf f.imm.toNat))) := by
  change execBarArrive f s = _
  rw [execBarArrive, groupCt_of_slot h hslot, State.arrive_of_current_phase hnone hphase, hphase]

/-- In another phase it stalls. -/
theorem execBarArrive_of_other_phase {f : CR} (h : TreadReady f.gk.g (.barArrive f) s)
    (hslot : s.me.groupSlot f.imm.toNat = some j) (hnone : s.me.arrived true f.imm.toNat = none)
    (hphase : (s.me.units.arrPhase[j]).toNat ≠ s.phaseOf f.imm.toNat) : exec (.barArrive f) s =
      .next (s.stallOn f.imm.toNat (s.me.phaseBefore j)) := by
  change execBarArrive f s = _
  rw [execBarArrive, groupCt_of_slot h hslot, State.arrive_of_other_phase hnone hphase]

/-- The release time of a group (R65). -/
def State.releaseOf (n : Nat) (s : State) : Nat := ((s.groupOf n).map (·.release)).getD 0

theorem barStatus_of_passed (lost : Bool) : barStatus false lost true = BitVec.ofNat 64 (1 + 2 * lost.toNat) := rfl

/-- `bar.wait` at its first examination (R301, R302). -/
theorem execBarWait_of_first {f : CR} (h : TreadReady f.gk.g (.barWait f) s)
    (hslot : s.me.groupSlot f.imm.toNat = some j) (hbar : s.me.ctl.bar = none) : exec (.barWait f) s =
      if s.phaseDone f.imm.toNat ((s.me.regs.sReg f.a).toNat % 65536) then
        .next ((s.modMe (Hart.raiseLt (s.releaseOf f.imm.toNat))).writeS 1 f.b
          (barStatus false (((s.groupOf f.imm.toNat).map (·.lost)).getD false) true))
      else if (s.me.regs.sReg f.b).getLsbD 0 then .next (s.writeS 1 f.b (barStatus true false false))
      else .next ((s.stallOn f.imm.toNat ((s.me.regs.sReg f.a).toNat % 65536)).modMe (Hart.keepSeen false)) := by
  have hfirst (done : Bool) : s.me.firstSeen done = done := by rw [Hart.firstSeen, hbar]
  change execBarWait f s = _
  rw [execBarWait, groupCt_of_slot h hslot]
  simp only [hfirst]
  cases hdone : s.phaseDone f.imm.toNat ((s.me.regs.sReg f.a).toNat % 65536) with
  | true => simp [State.releaseOf]
  | false => cases (s.me.regs.sReg f.b).getLsbD 0 <;> simp

/-! ### `grp.red` -/

/-- `grp.red` that has arrived at a phase: the result once it is complete, a stall before (R303). -/
theorem execGrpRed_of_arrival {e : EF} {a : Nat} {t : State} (h : EngineReady (.grpRed e) e s)
    (hslot : s.me.groupSlot (ecIdx e) = some j)
    (harrive : s.arrive false (ecIdx e) j (some (s.me.regs.sReg e.a)) = (some a, t)) : exec (.grpRed e) s =
      if t.phaseDone (ecIdx e) a then .next ((t.modMe (Hart.raiseLt (t.releaseOf (ecIdx e)))).issue 3 1 e.d.toNat
        (.s e.d (redPick (e.q.toNat % 4) (e.q.getLsbD 2) (((t.groupOf (ecIdx e)).map (·.last)).getD accStart)) ::
          sigEffs e.ws))
      else .next (t.stallOn (ecIdx e) a) := by
  change execGrpRed e s = _
  rw [execGrpRed]
  cases hdone : t.phaseDone (ecIdx e) a
  · refine ecSlot_of_ready h ?_
    simp only [hslot, harrive, hdone]
    rfl
  · refine ecSlot_of_ready h ?_
    simp only [hslot, harrive, hdone]
    rfl

/-- In a phase that is not the current one it stalls. -/
theorem execGrpRed_of_other_phase {e : EF} (h : EngineReady (.grpRed e) e s)
    (hslot : s.me.groupSlot (ecIdx e) = some j) (hnone : s.me.arrived false (ecIdx e) = none)
    (hphase : (s.me.units.arrPhase[j]).toNat ≠ s.phaseOf (ecIdx e)) :
    exec (.grpRed e) s = .next (s.stallOn (ecIdx e) (s.me.phaseBefore j)) := by
  change execGrpRed e s = _
  rw [execGrpRed]
  refine ecSlot_of_ready h ?_
  simp only [hslot, State.arrive_of_other_phase hnone hphase]

end

/-- Settles O28: arrivals by the phase, `bar.wait` by whether its phase is complete, `grp.red` by its arrival. -/
theorem groupsArriveWaitAndReduce : Obligations.GroupsArriveWaitAndReduce := by
  intro f e s j
  refine ⟨fun h hslot hnone hphase => ?_, fun h hslot hbar => ?_, fun h hslot a harrived => ?_,
    fun h hslot hnone => ?_, fun h hslot hnone hphase => ?_⟩
  · refine ⟨_, execBarArrive_of_current_phase h hslot hnone hphase, ?_, State.sendArrival_arrPhase, rfl, rfl, rfl, rfl, rfl,
      rfl⟩
    rw [← hphase]
    rfl
  · intro p g done
    refine ⟨fun hdone => ?_, fun hdone htest => ?_, fun hdone htest => ?_⟩
    · rw [execBarWait_of_first h hslot hbar, if_pos hdone, barStatus_of_passed]
      rfl
    · rw [execBarWait_of_first h hslot hbar, if_neg (Bool.eq_false_iff.mp hdone), if_pos htest]
      rfl
    · rw [execBarWait_of_first h hslot hbar, if_neg (Bool.eq_false_iff.mp hdone), if_neg (Bool.eq_false_iff.mp htest)]
      exact ⟨_, rfl, rfl, rfl, rfl, rfl, rfl, rfl, rfl, rfl, rfl⟩
  · rw [execGrpRed_of_arrival h hslot (State.arrive_of_arrived harrived)]
    exact ⟨fun hdone => if_pos hdone, fun hdone => ⟨_, if_neg (Bool.eq_false_iff.mp hdone), rfl,
      State.stallOn_untouched ..⟩⟩
  · intro a
    refine ⟨fun hphase hdone => ?_, fun hphase => ⟨_, execGrpRed_of_other_phase h hslot hnone hphase, rfl,
      State.stallOn_untouched .., rfl⟩⟩
    rw [execGrpRed_of_arrival h hslot (State.arrive_of_current_phase hnone hphase)]
    exact ⟨_, if_neg (Bool.eq_false_iff.mp hdone), rfl, ⟨rfl, rfl, rfl, rfl, rfl, rfl, rfl, rfl⟩, rfl, rfl, rfl,
      State.sendArrival_arrPhase, State.sendArrival_arrived⟩
  · exact ⟨_, execBarArrive_of_other_phase h hslot hnone hphase, rfl, State.stallOn_untouched .., rfl⟩

end Sys2Proof.Machine
end

section
/-! Words of the spec that decode to their instructions (R287, R326, R341, R379, R380, R414). -/

namespace Sys2Proof.Machine

/-- Settles O3, by evaluating the decoder at each word. -/
theorem specWordsDecode : Obligations.SpecWordsDecode := by
  unfold Obligations.SpecWordsDecode
  decide +kernel

end Sys2Proof.Machine
end

section
/-! Power, package reset and the management interface (R360, R362 to R364, R367, R424 to R430). -/

namespace Sys2Proof.Machine

/-! ### Islands -/

section
variable {i : Nat} {s : State}

/-- A level change that is under way ends once its time has come (R427). -/
theorem execIslandLevelChange_of_due {t0 t1 : Nat} (hi : i < 120) (hchg : (s.hub.island i).chg = some (t0, t1))
    (hdue : t1 ≤ s.hub.clk) : exec (.islandLevelChange i) s =
      .next (s.setIsland i { s.hub.island i with cur := t0, chg := none }) := by
  change execIslandLevelChange i s = _
  unfold execIslandLevelChange
  simp only [hchg, if_neg (Nat.not_le.mpr hi), if_neg (Nat.not_lt.mpr hdue)]

/-- An island that is not at its target begins a change, of at most 4,000 ticks (R427). -/
theorem execIslandLevelChange_of_target (hi : i < 120) (hchg : (s.hub.island i).chg = none)
    (htarget : s.islandTarget i ≠ (s.hub.island i).cur) : exec (.islandLevelChange i) s =
      .next (State.setIsland i { s.hub.island i with
        chg := some (s.islandTarget i, s.hub.clk + Config.freeNat s.free % 4001) } { s with free := s.free + 1 }) := by
  change execIslandLevelChange i s = _
  unfold execIslandLevelChange
  simp only [hchg, if_neg (Nat.not_le.mpr hi), if_neg htarget]
  rfl

end

/-! ### Samples of the power controller -/

/-- The hub with the power that its package has after a change. -/
def Hub.withPower (p : Power) (hb : Hub) : Hub := { hb with power := p }

theorem Hub.withPower_withPower (p q : Power) (hb : Hub) : (hb.withPower p).withPower q = hb.withPower q := rfl

theorem Hub.withPower_caps (p : Power) (hb : Hub) : (hb.withPower p).caps = hb.caps := by
  simp only [Hub.caps, Hub.island, Hub.withPower]

theorem Hub.withPower_moveCaps (p : Power) (m n : Nat) (hb : Hub) :
    (hb.withPower p).moveCaps m n = (hb.moveCaps m n).withPower p := by
  simp only [Hub.moveCaps, Hub.withPower]

theorem Hub.lowerCaps_withPower (p : Power) (hb : Hub) : (hb.withPower p).lowerCaps = hb.lowerCaps.withPower p := by
  simp only [Hub.lowerCaps, Hub.withPower_caps, Hub.withPower_moveCaps, apply_ite (Hub.withPower p)]

theorem Hub.raiseCaps_withPower (p : Power) (hb : Hub) : (hb.withPower p).raiseCaps = hb.raiseCaps.withPower p := by
  simp only [Hub.raiseCaps, Hub.withPower_caps, Hub.withPower_moveCaps, apply_ite (Hub.withPower p)]

/-- A reading of a junction: of an island or a stack (R425). -/
abbrev OfJunction (e : Nat × Nat) : Prop := e.1 / 512 = 2 ∨ e.1 / 512 = 3

theorem mem_junctions {t : Nat} {r : PowerReading} : t ∈ junctions r ↔ ∃ e ∈ r.sample, OfJunction e ∧ e.2 = t := by
  simp only [junctions, List.mem_map, List.mem_filter, Bool.or_eq_true, decide_eq_true_eq, and_assoc]

theorem any_junctions {limit : Nat} {r : PowerReading} :
    (junctions r).any (fun t => limit < t) = true ↔ ∃ e ∈ r.sample, OfJunction e ∧ limit < e.2 := by
  simp only [List.any_eq_true, decide_eq_true_eq, mem_junctions]
  exact ⟨fun ⟨_, ⟨e, he, hof, rfl⟩, hlt⟩ => ⟨e, he, hof, hlt⟩, fun ⟨e, he, hof, hlt⟩ => ⟨_, ⟨e, he, hof, rfl⟩, hlt⟩⟩

theorem all_junctions {p : Nat → Prop} [DecidablePred p] {r : PowerReading} :
    (junctions r).all (fun t => p t) = true ↔ ∀ e ∈ r.sample, OfJunction e → p e.2 := by
  simp only [List.all_eq_true, decide_eq_true_eq, mem_junctions]
  exact ⟨fun h e he hof => h _ ⟨e, he, hof, rfl⟩, fun h _ ⟨e, he, hof, ht⟩ => ht ▸ h e he hof⟩

section
variable {r : PowerReading} {s : State}

/-- The power of the package with a reading taken (R428). -/
def State.sampled (r : PowerReading) (s : State) : Power :=
  { s.hub.power with sample := (512, r.milliwatts) :: r.sample }

theorem execPowerControlSample_of_no_standby (h : s.hub.power.standby = false) :
    exec (.powerControlSample r) s = .next s := by
  change execPowerControlSample r s = _
  unfold execPowerControlSample
  exact if_pos (by simp [h])

theorem execPowerControlSample_of_dark (hstandby : s.hub.power.standby = true) (hdark : s.hub.dark = true) :
    exec (.powerControlSample r) s = .next { s with hub := s.hub.withPower (s.sampled r) } := by
  change execPowerControlSample r s = _
  unfold execPowerControlSample
  exact (if_neg (by simp [hstandby])).trans (if_pos hdark)

theorem execPowerControlSample_of_trip (hstandby : s.hub.power.standby = true) (hdark : s.hub.dark = false)
    (hhot : ∃ e ∈ r.sample, OfJunction e ∧ 115000 < e.2) : exec (.powerControlSample r) s =
      .next { s with hub := s.hub.withPower { s.sampled r with off := true, tripped := true } } := by
  change execPowerControlSample r s = _
  unfold execPowerControlSample
  exact (if_neg (by simp [hstandby])).trans ((if_neg (Bool.eq_false_iff.mp hdark)).trans (if_pos (any_junctions.mpr hhot)))

/-- The same with a count of readings with a margin. -/
def State.sampledAt (r : PowerReading) (n : Nat) (s : State) : Power := { s.sampled r with marginMs := n }

/-- A reading above the limit in force, or with a junction above 105 °C (R425, R428). -/
def State.tooHot (r : PowerReading) (s : State) : Prop :=
  1000 * s.hub.powerLimit < r.milliwatts ∨ ∃ e ∈ r.sample, OfJunction e ∧ 105000 < e.2

/-- A reading at 90 % of the limits at the most (R428). -/
def State.hasMargin (r : PowerReading) (s : State) : Prop :=
  10 * r.milliwatts ≤ 9 * (1000 * s.hub.powerLimit) ∧ ∀ e ∈ r.sample, OfJunction e → 10 * e.2 ≤ 9 * 105000

theorem not_tooHot_bool (h : ¬s.tooHot r) :
    ¬(1000 * s.hub.powerLimit < r.milliwatts ∨ (junctions r).any (fun t => 105000 < t) = true) :=
  fun h' => h (h'.imp_right any_junctions.mp)

/-- A reading under main power without a trip goes by the limit, and by the margin (R428). -/
theorem execPowerControlSample_of_main (hstandby : s.hub.power.standby = true) (hdark : s.hub.dark = false)
    (hcool : ∀ e ∈ r.sample, OfJunction e → e.2 ≤ 115000) : exec (.powerControlSample r) s =
      if 1000 * s.hub.powerLimit < r.milliwatts ∨ (junctions r).any (fun t => 105000 < t) then
        .next { s with hub := (s.hub.withPower (s.sampled r)).lowerCaps.withPower (s.sampledAt r 0) }
      else if 10 * r.milliwatts ≤ 9 * (1000 * s.hub.powerLimit) ∧ (junctions r).all (fun t => 10 * t ≤ 9 * 105000) then
        .next { s with hub := if Nat.min 10 (s.hub.power.marginMs + 1) = 10
          then (s.hub.withPower (s.sampledAt r (Nat.min 10 (s.hub.power.marginMs + 1)))).raiseCaps
          else s.hub.withPower (s.sampledAt r (Nat.min 10 (s.hub.power.marginMs + 1))) }
      else .next { s with hub := s.hub.withPower (s.sampledAt r 0) } := by
  have htrip : ¬(junctions r).any (fun t => 115000 < t) = true := fun h => by
    obtain ⟨e, he, hof, hlt⟩ := any_junctions.mp h
    exact absurd hlt (Nat.not_lt.mpr (hcool e he hof))
  change execPowerControlSample r s = _
  unfold execPowerControlSample
  exact (if_neg (by simp [hstandby])).trans ((if_neg (Bool.eq_false_iff.mp hdark)).trans (if_neg htrip))

section
variable (hstandby : s.hub.power.standby = true) (hdark : s.hub.dark = false)
  (hcool : ∀ e ∈ r.sample, OfJunction e → e.2 ≤ 115000)
include hstandby hdark hcool

theorem execPowerControlSample_of_hot (h : s.tooHot r) : exec (.powerControlSample r) s =
    .next { s with hub := s.hub.lowerCaps.withPower (s.sampledAt r 0) } := by
  rw [execPowerControlSample_of_main hstandby hdark hcool, if_pos (h.imp_right any_junctions.mpr),
    Hub.lowerCaps_withPower, Hub.withPower_withPower]

theorem execPowerControlSample_of_no_margin (h : ¬s.tooHot r) (hmargin : ¬s.hasMargin r) :
    exec (.powerControlSample r) s = .next { s with hub := s.hub.withPower (s.sampledAt r 0) } := by
  rw [execPowerControlSample_of_main hstandby hdark hcool, if_neg (not_tooHot_bool h),
    if_neg (fun h' => hmargin (h'.imp_right all_junctions.mp))]

theorem execPowerControlSample_of_margin (h : ¬s.tooHot r) (hmargin : s.hasMargin r) :
    (s.hub.power.marginMs < 9 → exec (.powerControlSample r) s =
      .next { s with hub := s.hub.withPower (s.sampledAt r (s.hub.power.marginMs + 1)) }) ∧
    (9 ≤ s.hub.power.marginMs → exec (.powerControlSample r) s =
      .next { s with hub := s.hub.raiseCaps.withPower (s.sampledAt r 10) }) := by
  rw [execPowerControlSample_of_main hstandby hdark hcool, if_neg (not_tooHot_bool h),
    if_pos (And.imp_right (all_junctions (p := fun t => 10 * t ≤ 9 * 105000)).mpr hmargin)]
  refine ⟨fun hfew => ?_, fun hten => ?_⟩
  · have hn : Nat.min 10 (s.hub.power.marginMs + 1) = s.hub.power.marginMs + 1 := Nat.min_eq_right (by omega)
    rw [hn, if_neg (by omega)]
  · have hn : Nat.min 10 (s.hub.power.marginMs + 1) = 10 := Nat.min_eq_left (by omega)
    rw [hn, if_pos rfl, Hub.raiseCaps_withPower]

end

end

/-! ### Loss of main power, and package reset -/

section
variable {s : State}

/-- Package reset, but for what `BSTAT` reports (R360, R362, R364). -/
def State.packageReset (s : State) : State :=
  { State.reset with inbox := s.inbox, free := s.free, hub := { State.reset.hub with flash := s.hub.flash } }

theorem execPackageReset_of_not_tripped (h : s.hub.power.tripped = false) :
    exec .packageReset s = .next s.packageReset :=
  congrArg Host.Outcome.next (if_neg (Bool.eq_false_iff.mp h))

/-- After a trip `BSTAT` reports it (R429). -/
theorem execPackageReset_of_tripped (h : s.hub.power.tripped = true) : exec .packageReset s =
    .next (s.packageReset.setMon (fun m => { m with bstat := setBits 23 16 5 m.bstat })) :=
  congrArg Host.Outcome.next (if_pos h)

end

/-! ### SPDM -/

section
variable {port : Nat} {s : State} {i : Instr} {ok : Spdm → Bool} {k : Spdm → Sem}

/-- The ports on which SPDM is answered (R424, R430). -/
def Hub.servesSpdm (port : Nat) (hb : Hub) : Prop := port = 0 ∨ port < 3 ∧ hb.dark = false

theorem onSpdm_of_served (h : s.hub.servesSpdm port) : onSpdm port ok k s =
    if ok (s.hub.spdmOf port) then k (s.hub.spdmOf port) s else .next (s.tell .unsupported) := by
  refine if_neg ?_
  obtain rfl | ⟨hport, hdark⟩ := h
  · simp
  · simp only [hdark, Bool.false_eq_true, and_false, or_false]
    omega

theorem length_bigBytes (n v : Nat) : (bigBytes n v).length = n := by
  rw [bigBytes, List.length_reverse, toBytes_length]

/-- A signature has 3,072 bits (R363). -/
theorem State.identitySignature_length (m : List Byte) (s : State) : (s.identitySignature m).length = 384 :=
  length_bigBytes ..

section
variable (port : Nat) (s : State)

theorem exec_getVersion : exec (.getVersion port) s = execGetVersion port s := rfl
theorem exec_getCapabilities : exec (.getCapabilities port) s = execGetCapabilities port s := rfl
theorem exec_negotiateAlgorithms (r : SpdmAlgs) :
    exec (.negotiateAlgorithms port r) s = execNegotiateAlgorithms port r s := rfl
theorem exec_getDigests : exec (.getDigests port) s = execGetDigests port s := rfl
theorem exec_getCertificate (off len : Nat) :
    exec (.getCertificate port off len) s = execGetCertificate port off len s := rfl
theorem exec_challenge (nonce : List Byte) : exec (.challenge port nonce) s = execChallenge port nonce s := rfl
theorem exec_getMeasurements (i : Nat) (nonce : List Byte) :
    exec (.getMeasurements port i nonce) s = execGetMeasurements port i nonce s := rfl

end

/-- What a request answers that is served and in its order. -/
theorem exec_spdm_of_ok (e : exec i s = onSpdm port ok k s) (h : s.hub.servesSpdm port)
    (hok : ok (s.hub.spdmOf port) = true) : exec i s = k (s.hub.spdmOf port) s := by
  rw [e, onSpdm_of_served h, if_pos hok]

/-- A request out of its order is not supported. -/
theorem exec_spdm_of_not_ok (e : exec i s = onSpdm port ok k s) (h : s.hub.servesSpdm port)
    (hok : ok (s.hub.spdmOf port) = false) : exec i s = .next (s.tell .unsupported) := by
  rw [e, onSpdm_of_served h, if_neg (Bool.eq_false_iff.mp hok)]

section
variable {i : Nat} {nonce : List Byte} (h : s.hub.servesSpdm port) (halgs : (s.hub.spdmOf port).algs = true)
include h halgs

theorem execGetMeasurements_of_served : exec (.getMeasurements port i nonce) s =
    if i = 0 then spdmSigned (s.hub.spdmOf port) (BitVec.ofNat 8 s.measurements.length :: nonce) s
    else if i = 255 then
      spdmSigned (s.hub.spdmOf port) (s.measurements.flatMap (fun m => BitVec.ofNat 8 m.1 :: m.2) ++ nonce) s
    else (s.measurement i).elim (.next (s.tell .unsupported)) (fun d =>
      spdmSigned (s.hub.spdmOf port) (BitVec.ofNat 8 i :: d ++ nonce) s) := by
  refine (exec_spdm_of_ok (exec_getMeasurements port s i nonce) h halgs).trans ?_
  cases s.measurement i <;> simp only [Option.elim]

/-- A measurement that is there is signed (R364, R367), and one that is not is not supported. -/
theorem execGetMeasurements_of_index (hfirst : i ≠ 0) (hall : i ≠ 255) : exec (.getMeasurements port i nonce) s =
    (s.measurement i).elim (.next (s.tell .unsupported)) (fun d =>
      spdmSigned (s.hub.spdmOf port) (BitVec.ofNat 8 i :: d ++ nonce) s) := by
  rw [execGetMeasurements_of_served h halgs, if_neg hfirst, if_neg hall]

end

end

/-- Settles O60: islands by the change under way, samples by what they read, and SPDM requests by the order that the
connection has reached. -/
theorem powerAndManagementAnswer : Obligations.PowerAndManagementAnswer := by
  intro s port nonce x on stores tells data signed id island powered
  refine ⟨fun i t0 t1 => execIslandLevelChange_of_due, fun i hi hchg htarget => ?_,
    fun r => execPowerControlSample_of_no_standby, fun r hstandby => ?_, fun r hstandby hdark hcool => ?_,
    ⟨Config.freeBool s.free, rfl⟩, rfl, execPackageReset_of_not_tripped, fun h => ?_, fun h => ?_, fun k i => rfl, rfl,
    fun w => rfl⟩
  · exact ⟨_, Nat.le_of_lt_succ (Nat.mod_lt _ (by decide)), execIslandLevelChange_of_target hi hchg htarget⟩
  · exact ⟨execPowerControlSample_of_dark hstandby, execPowerControlSample_of_trip hstandby⟩
  · intro p hot fine
    exact ⟨execPowerControlSample_of_hot hstandby hdark hcool,
      execPowerControlSample_of_no_margin hstandby hdark hcool,
      fun hhot hfine => (execPowerControlSample_of_margin hstandby hdark hcool hhot hfine).1,
      fun hhot hfine => (execPowerControlSample_of_margin hstandby hdark hcool hhot hfine).2⟩
  · refine ⟨_, execPackageReset_of_tripped h, ?_, rfl, rfl⟩
    exact wbits_setBits_same (by decide) (by decide) ..
  · replace h : s.hub.servesSpdm port := h
    refine ⟨exec_spdm_of_ok (exec_getVersion port s) h rfl,
      exec_spdm_of_ok (exec_getCapabilities port s) h, exec_spdm_of_not_ok (exec_getCapabilities port s) h,
      fun hcaps => exec_spdm_of_ok (exec_negotiateAlgorithms port s _) h (by simp [x, hcaps]),
      fun r hbad => exec_spdm_of_not_ok (exec_negotiateAlgorithms port s r) h ?_, fun halgs => ?_⟩
    · obtain hbad | hbad | hbad := hbad <;> simp [x, hbad]
    · have hlength (bs : List Byte) := State.identitySignature_length (x.transcript ++ bs) s
      refine ⟨exec_spdm_of_ok (exec_getDigests port s) h halgs,
        fun off len => exec_spdm_of_ok (exec_getCertificate port s off len) h halgs,
        ⟨hlength _, exec_spdm_of_ok (exec_challenge port s nonce) h halgs⟩,
        ⟨hlength _, (execGetMeasurements_of_served h halgs).trans (if_pos rfl)⟩,
        ⟨hlength _, (execGetMeasurements_of_served h halgs).trans ((if_neg (by decide)).trans (if_pos rfl))⟩,
        fun i d hfirst hall hd => ⟨hlength _, ?_⟩, fun i hfirst hall hnone => ?_⟩
      · rw [execGetMeasurements_of_index h halgs hfirst hall, hd]
        rfl
      · simp only [tells]
        rw [execGetMeasurements_of_index h halgs hfirst hall, hnone]
        rfl

end Sys2Proof.Machine
end

section
/-! Every step goes on (R424, R425, R430): each input from outside and each event of the agenda answers a next state,
and the turns and ticks do by their form. -/

namespace Sys2Proof.Machine

/-! ### Outcomes that are a next state -/

/-- An outcome that is a next state. -/
def Answered (o : Host.Outcome State Fault Refusal) : Prop := ∃ t, o = .next t

/-- A meaning that answers a next state wherever it is asked. -/
def Answers (k : Sem) : Prop := ∀ s, Answered (k s)

theorem answered_next (t : State) : Answered (.next t) := ⟨t, rfl⟩

theorem Answered.ite_of_imp {c : Prop} [Decidable c] {a b : Host.Outcome State Fault Refusal} (ha : c → Answered a)
    (hb : Answered b) : Answered (if c then a else b) := by
  split
  next hc => exact ha hc
  next => exact hb

theorem Answered.ite {c : Prop} [Decidable c] {a b : Host.Outcome State Fault Refusal} (ha : Answered a)
    (hb : Answered b) : Answered (if c then a else b) :=
  .ite_of_imp (fun _ => ha) hb

/-- A meaning that leaves memory as it is answers. -/
theorem KeepsMemory.answers {k : Sem} (hk : KeepsMemory k) : Answers k := fun s => by
  have h := hk s
  cases e : k s with
  | next t => exact answered_next t
  | fault f => rw [e] at h; cases h
  | refused r => rw [e] at h; cases h

/-! ### Events of harts, peers and links -/

theorem execExposedResultLands_answers (h : HartId) : Answers (execExposedResultLands h) := fun _ => answered_next _

theorem execXPassEntryArrives_answers (h : HartId) : Answers (execXPassEntryArrives h) := fun _ => answered_next _

theorem execWriteStamp_answers (h : HartId) : Answers (execWriteStamp h) := fun _ => answered_next _

theorem execAtomicAtHome_answers (h : HartId) : Answers (execAtomicAtHome h) := fun _ => answered_next _

theorem execVaultStoreLands_answers (h : HartId) : Answers (execVaultStoreLands h) := fun _ => answered_next _

theorem execCopyComplete_answers (h : HartId) (op : Nat) : Answers (execCopyComplete h op) := fun _ => answered_next _

theorem execResolveComplete_answers (h : HartId) : Answers (execResolveComplete h) := fun _ => answered_next _

theorem execCxlDeviceAcknowledgement_answers (tag : Nat) (data : List Byte) :
    Answers (execCxlDeviceAcknowledgement tag data) := fun _ => answered_next _

theorem execHostWriteComplete_answers (tag : Nat) (data : List Byte) : Answers (execHostWriteComplete tag data) :=
  fun _ => answered_next _

theorem execEvictionNotice_answers (peer line : Nat) : Answers (execEvictionNotice peer line) := fun _ =>
  .ite (answered_next _) (answered_next _)

theorem execInvalidationAck_answers (peer line : Nat) : Answers (execInvalidationAck peer line) := fun _ =>
  .ite (answered_next _) (.ite (answered_next _) (answered_next _))

theorem execRecallLine_answers (line : Nat) : Answers (execRecallLine line) := fun s => by
  unfold execRecallLine
  split
  · exact answered_next _
  · extract_lets done
    split
    · exact answered_next _
    · exact .ite (answered_next _) (answered_next _)

theorem execPeerFill_answers (peer line : Nat) (own : Bool) : Answers (execPeerFill peer line own) := fun s => by
  unfold execPeerFill
  extract_lets loc
  clear_value loc
  refine .ite (answered_next _) ?_
  split
  · exact answered_next _
  · exact .ite (answered_next _) (.ite (answered_next _) (.ite (answered_next _) (answered_next _)))

theorem execFlitReceive_answers (link seq : Nat) (crcOk : Bool) (payload : FlitPayload) :
    Answers (execFlitReceive link seq crcOk payload) := fun _ => .ite (answered_next _) (answered_next _)

theorem execDeadLink_answers (link : Nat) : Answers (execDeadLink link) := fun _ =>
  .ite (answered_next _) (answered_next _)

theorem execInboundHostRequest_answers (req : HostReq) : Answers (execInboundHostRequest req) := fun s => by
  unfold execInboundHostRequest
  extract_lets e _ part n
  refine .ite (answered_next _) ?_
  split
  · exact answered_next _
  · exact .ite (answered_next _) (.ite (answered_next _) (answered_next _))

theorem execIncomingRdma_answers (req : RdmaReq) : Answers (execIncomingRdma req) := fun s => by
  unfold execIncomingRdma
  split
  · exact answered_next _
  · refine .ite (answered_next _) ?_
    extract_lets wr n acc
    split
    · exact answered_next _
    · refine .ite (answered_next _) ?_
      split
      · exact answered_next _
      · exact answered_next _
      · exact .ite (answered_next _) (answered_next _)
      · exact answered_next _

/-! ### Events of queues -/

theorem processIf_answers (part q : Nat) (ty : Nat → Bool) (f : Queue → Nat → State → State) :
    Answers (processIf part q ty f) := fun s => by
  unfold processIf
  split
  · exact answered_next _
  · exact answered_next _
  · exact answered_next _

theorem execDispatchPacket_answers (part q : Nat) : Answers (execDispatchPacket part q) :=
  processIf_answers part q _ _

theorem execBarrierPacket_answers (part q : Nat) : Answers (execBarrierPacket part q) :=
  processIf_answers part q _ _

theorem execSignalPacket_answers (part q : Nat) : Answers (execSignalPacket part q) :=
  processIf_answers part q _ _

theorem execDoorbell_answers (part q : Nat) : Answers (execDoorbell part q) := fun s => by
  unfold execDoorbell
  split
  · exact answered_next _
  · refine .ite (answered_next _) (.ite (answered_next _) ?_)
    extract_lets bad
    split
    · exact answered_next _
    · exact .ite (answered_next _) (answered_next _)

theorem execBarrierEvaluate_answers (part q : Nat) : Answers (execBarrierEvaluate part q) := fun _ => answered_next _

theorem execBarrierSignalReread_answers (part q : Nat) : Answers (execBarrierSignalReread part q) := fun _ =>
  answered_next _

theorem execDispatchComplete_answers (launch : Nat) : Answers (execDispatchComplete launch) := fun s => by
  unfold execDispatchComplete
  split
  · exact answered_next _
  · exact .ite (answered_next _) (answered_next _)

theorem execQctlActivate_answers (part q : Nat) : Answers (execQctlActivate part q) := fun s => by
  unfold execQctlActivate
  refine .ite (answered_next _) (.ite (answered_next _) ?_)
  split
  · exact answered_next _
  · exact answered_next _

theorem execQctlDisable_answers (part q : Nat) : Answers (execQctlDisable part q) := fun _ =>
  .ite (answered_next _) (answered_next _)

theorem execQctlReset_answers (part q : Nat) : Answers (execQctlReset part q) := fun s => by
  unfold execQctlReset
  refine .ite (answered_next _) ?_
  split
  · exact .ite (answered_next _) (answered_next _)
  · exact answered_next _

/-! ### Events of gangs and chiplets, and the reset -/

theorem execGangPlace_answers (launch gang chip flight : Nat) : Answers (execGangPlace launch gang chip flight) :=
  fun s => by
    unfold execGangPlace
    split
    · exact answered_next _
    · split
      · exact .ite (answered_next _) (answered_next _)
      · exact answered_next _

theorem execGangRestore_answers (launch gang chip flight : Nat) : Answers (execGangRestore launch gang chip flight) :=
  fun s => by
    unfold execGangRestore
    split
    · exact answered_next _
    · refine .ite (answered_next _) ?_
      split
      · exact .ite (answered_next _) (answered_next _)
      · exact answered_next _

theorem execChctlReset_answers (chip : Nat) : Answers (execChctlReset chip) := fun _ =>
  .ite (answered_next _) (.ite (answered_next _) (.ite (answered_next _) (.ite (answered_next _) (answered_next _))))

theorem execPackageReset_answers : Answers execPackageReset := fun _ => answered_next _

/-! ### The agenda -/

theorem noEvent_answers : IfSome Answers none := trivial

theorem event_answers {k : Sem} (h : Answers k) : IfSome Answers (some k) := h

theorem State.writeEvent_answers (s : State) : IfSome Answers s.writeEvent := by
  unfold State.writeEvent
  extract_lets h due
  split
  · exact .ite (execAtomicAtHome_answers _) trivial
  · split
    · trivial
    · refine .ite trivial (.ite (execAtomicAtHome_answers _) (.ite ?_ (execWriteStamp_answers _)))
      split
      · exact .ite trivial (execPeerFill_answers _ _ _)
      · trivial

theorem State.loadEvent_answers (s : State) : IfSome Answers s.loadEvent := by
  unfold State.loadEvent
  extract_lets h
  split
  · trivial
  · refine .ite trivial ?_
    split
    · exact .ite trivial (execPeerFill_answers _ _ _)
    · exact .map (fun _ => (execLeaseFill_keepsMemory _ _).answers) _

theorem State.engineEvent_answers (s : State) : IfSome Answers s.engineEvent :=
  .findSome? (fun o => by
    extract_lets waits
    exact .ite noEvent_answers (.ite (event_answers (execEngineVersionTimeout_keepsMemory _ _).answers)
      (.ite noEvent_answers (.ite noEvent_answers (event_answers (execCopyComplete_answers _ _)))))) _

theorem State.vaultEvent_answers (s : State) : IfSome Answers s.vaultEvent :=
  .ite (execVaultStoreLands_answers _) trivial

theorem State.waitEvent_answers (s : State) : IfSome Answers s.waitEvent := by
  unfold State.waitEvent
  extract_lets h clk stopped x
  have hlands : Answers (if x then execXPassEntryArrives h.id else execExposedResultLands h.id) := by
    split
    · exact execXPassEntryArrives_answers _
    · exact execExposedResultLands_answers _
  refine .ite hlands <|
    .ite (execMxOccupancyEnd_keepsMemory _).answers <|
    .ite (.map (fun _ => (execTranslationWalk_keepsMemory _ _ _).answers) _) <|
    .ite (execFreezeEnd_keepsMemory _).answers <|
    .ite (execFreeze_keepsMemory _).answers <|
    .ite (execMissedPromiseLatch_keepsMemory _).answers <|
    .ite (execFenceTimeout_keepsMemory _).answers <|
    .ite (execSemGgLands_keepsMemory _).answers <|
    .ite (execResolveComplete_answers _) ?_
  split
  · exact .ite (execTimerExpiry_keepsMemory _).answers trivial
  · exact .map (fun _ => (execGroupArrival_keepsMemory _ _).answers) _

theorem State.hartEvent_answers (h : Hart) (s : State) : IfSome Answers (s.hartEvent h) := by
  unfold State.hartEvent
  split
  · trivial
  next t _ =>
    exact t.waitEvent_answers.orElse (t.vaultEvent_answers.orElse (t.writeEvent_answers.orElse
      (t.loadEvent_answers.orElse t.engineEvent_answers)))

theorem State.monEvent_answers (s : State) : IfSome Answers s.monEvent := by
  refine .orElse (.findSome? (fun w => ?_) _) (.findSome? (fun h => ?_) _)
  · split
    · exact .ite (execWatchTrigger_keepsMemory _).answers trivial
    · trivial
  · split
    · exact .ite (execMonWaitRecheck_keepsMemory _).answers trivial
    · trivial

theorem State.peerEvent_answers (s : State) : IfSome Answers s.peerEvent := by
  refine .orElse (.map (fun _ => (execLockedSequenceTimeout_keepsMemory _ _).answers) _)
    (.orElse (.findSome? (fun i => ?_) _) (.map (fun _ => execIncomingRdma_answers _) _))
  exact .ite noEvent_answers (.ite noEvent_answers (.ite (event_answers (execInvalidationAck_answers _ _))
    (event_answers (execRecallLine_answers _))))

theorem State.packageEvent_answers (s : State) : IfSome Answers s.packageEvent := by
  unfold State.packageEvent
  extract_lets clk tlb link isl stack
  have htlb : IfSome Answers tlb := .map (fun _ => (execTlbinvComplete_keepsMemory _).answers) _
  have hlink : IfSome Answers link := .findSome? (fun k => by
    extract_lets l
    exact .ite (event_answers (execDeadLink_answers _)) (.ite (event_answers fun _ => answered_next _)
      (.ite (event_answers (execReadyReturn_keepsMemory _).answers) noEvent_answers))) _
  have hisl : IfSome Answers isl := .findSome? (fun e => by
    extract_lets moves
    exact .ite (event_answers (execIslandLevelChange_keepsMemory _).answers) noEvent_answers) _
  have hstack : IfSome Answers stack := .findSome? (fun k =>
    .ite (event_answers (execHashVersionAdopt_keepsMemory _).answers) noEvent_answers) _
  exact .ite (event_answers execBaseTimeRise_keepsMemory.answers)
    (.ite (event_answers execLogicalTimePause_keepsMemory.answers) (htlb.orElse (hlink.orElse (hisl.orElse hstack))))

/-- A packet is processed by the event of its type. -/
theorem packetEvent_answers (p q k : Nat) : Answers (if k % 256 = 2 then execBarrierPacket p q
    else if k % 256 = 3 then execSignalPacket p q else execDispatchPacket p q) := by
  split
  · exact execBarrierPacket_answers p q
  · split
    · exact execSignalPacket_answers p q
    · exact execDispatchPacket_answers p q

theorem State.queueEvent_answers (s : State) : IfSome Answers s.queueEvent :=
  .findSome? (fun x => by
    extract_lets p q commanded
    split
    · exact execDoorbell_answers p q
    · exact execBarrierEvaluate_answers p q
    · trivial
    · refine .ite (.ite (event_answers (execBarrierEvaluate_answers p q))
        (.ite (event_answers (execBarrierSignalReread_answers p q)) noEvent_answers)) ?_
      split
      · exact packetEvent_answers p q _
      · exact execDispatchPacket_answers p q
      · trivial) _

theorem State.partCommand_answers (p : Nat) (s : State) : IfSome Answers (s.partCommand p) := by
  unfold State.partCommand
  extract_lets r q behind qctl ncrq saving preq
  have hqctl : IfSome Answers qctl := by
    refine .ite noEvent_answers ?_
    split
    · exact .ite noEvent_answers (event_answers (execQctlDisable_answers p q))
    · exact execQctlReset_answers p q
    · exact execQctlActivate_answers p q
  have hncrq : IfSome Answers ncrq := .ite noEvent_answers
    (.ite (event_answers (execNcrqMakeNoncoherent_keepsMemory p).answers)
      (event_answers (execNcrqMakeCoherent_keepsMemory p).answers))
  have hpreempt : IfSome Answers (if saving then none else some (execPreqPreempt p)) :=
    .ite noEvent_answers (event_answers (execPreqPreempt_keepsMemory p).answers)
  have hpreq : IfSome Answers preq := by
    refine .ite noEvent_answers ?_
    split
    · exact .ite noEvent_answers (event_answers (execPreqPreemptHold_keepsMemory p).answers)
    · exact (execPreqRelease_keepsMemory p).answers
    · exact (execPreqPreempt_keepsMemory p).answers
    · exact hpreempt
  exact hqctl.orElse (hncrq.orElse hpreq)

theorem State.monCommand_answers (s : State) : IfSome Answers s.monCommand := by
  unfold State.monCommand
  extract_lets c chip port part chctl n core writes ncore iso
  have hchctl : IfSome Answers chctl := by
    refine .ite noEvent_answers ?_
    split
    · exact (execChctlAssign_keepsMemory _ _).answers
    · exact .ite (event_answers (execChctlIsolate_keepsMemory _).answers) noEvent_answers
    · exact execChctlReset_answers _
    · exact (execChctlEnumerate_keepsMemory _).answers
    · exact (execChctlAssignPort_keepsMemory _ _).answers
    · exact (execChctlUnassignPort_keepsMemory _).answers
    · exact (execChctlUnassign_keepsMemory _).answers
  have hncore : IfSome Answers ncore := .ite noEvent_answers
    (.ite (event_answers (execNcoreHalt_keepsMemory _).answers)
      (.ite noEvent_answers (event_answers (execNcoreStart_keepsMemory _).answers)))
  have hiso : IfSome Answers iso := .findSome? (fun i =>
    .ite (event_answers (execIsolationSaveTimeout_keepsMemory _).answers)
      (.ite (event_answers (execIsolationDrainTimeout_keepsMemory _).answers) noEvent_answers)) _
  exact hiso.orElse (hchctl.orElse hncore)

theorem State.gangEvent_answers (l : Launch) (g : Gang) (s : State) : IfSome Answers (s.gangEvent l g) := by
  unfold State.gangEvent
  extract_lets clk hs met
  have hresume (w : Nat) (c : Prop) [Decidable c] :
      IfSome Answers (if c then some (execFlightResumeAtMeet l.id w) else none) :=
    .ite (event_answers (execFlightResumeAtMeet_keepsMemory _ _).answers) noEvent_answers
  have hmet : IfSome Answers met := .findSome? (fun h => by
    split
    · exact hresume _ _
    · exact hresume _ _
    · trivial) _
  have hsave : Answers (execContextSave l.id g.idx) := (execContextSave_keepsMemory _ _).answers
  have hwaits : IfSome Answers (if g.waits ∧ l.pri + g.aged < 7 ∧ g.waitSince + 16777216 * (g.aged + 1) ≤ clk then
      some (execAgingTick l.id g.idx)
      else if s.hub.unplaceable l g then some (execGangRestore l.id g.idx 0 0) else none) :=
    .ite (event_answers (execAgingTick_keepsMemory _ _).answers)
      (.ite (event_answers (execGangRestore_answers _ _ _ _)) noEvent_answers)
  split
  · exact hmet.orElse (.ite (event_answers (execGangPark_keepsMemory _ _).answers) noEvent_answers)
  · refine .ite noEvent_answers (.ite ?_ (event_answers hsave))
    split
    · exact (execContextSpill_keepsMemory _ _).answers
    · exact hsave
  · exact .ite (event_answers (execParkedGangWake_keepsMemory _ _).answers) noEvent_answers
  · exact hwaits
  · exact hwaits
  · trivial

theorem State.launchEvent_answers (l : Launch) (s : State) : IfSome Answers (s.launchEvent l) :=
  .ite (event_answers (execDispatchComplete_answers _)) (.findSome? (fun g => State.gangEvent_answers l g s) _)

theorem State.placeEvent_answers (p : Nat) (s : State) : IfSome Answers (s.placeEvent p) := by
  unfold State.placeEvent
  extract_lets place
  have hplace : IfSome Answers place := by
    unfold place
    split
    · trivial
    · refine .map (fun x => ?_) _
      split
      · exact execGangRestore_answers _ _ _ _
      · split
        · exact (execCalenderDecision_keepsMemory _ _).answers
        · exact execGangPlace_answers _ _ _ _
  refine hplace.orElse (.bind (fun x => .map (fun v => ?_) _) _)
  split
  · exact execSliceTimerTick_keepsMemory.answers
  · exact (execGangPreempt_keepsMemory _ _).answers

theorem State.nextEvent_answers (s : State) : IfSome Answers s.nextEvent := by
  unfold State.nextEvent
  have hharts : IfSome Answers (s.harts.findSome? (fun h => s.hartEvent h)) :=
    .findSome? (fun h => State.hartEvent_answers h s) _
  have hparts : IfSome Answers ((List.range 16).findSome? (fun p => s.partCommand p)) :=
    .findSome? (fun p => State.partCommand_answers p s) _
  have hlaunches : IfSome Answers (s.hub.launches.findSome? (fun l => s.launchEvent l)) :=
    .findSome? (fun l => State.launchEvent_answers l s) _
  have hplaces : IfSome Answers ((List.range 16).findSome? (fun p => s.placeEvent p)) :=
    .findSome? (fun p => State.placeEvent_answers p s) _
  exact hharts.orElse (s.packageEvent_answers.orElse (s.peerEvent_answers.orElse (s.monEvent_answers.orElse
    (s.monCommand_answers.orElse (hparts.orElse (s.queueEvent_answers.orElse (hlaunches.orElse
      (.ite noEvent_answers hplaces))))))))

/-! ### Inputs from outside -/

/-- What the outside supplies answers (R424, R430). -/
theorem exec_answers_of_external {i : Instr} (h : Instr.external i = true) : Answers (exec i) := by
  cases i with
  | evictionNotice _ _ => exact execEvictionNotice_answers _ _
  | netComplete _ _ _ _ => exact (execNetComplete_keepsMemory _ _ _ _).answers
  | uncorrectableError _ => exact (execUncorrectableError_keepsMemory _).answers
  | lineRead _ => exact (execLineRead_keepsMemory _).answers
  | tileRead part tid coords => exact (execTileRead_keepsMemory part tid coords).answers
  | regionClean _ _ => exact (execRegionClean_keepsMemory _ _).answers
  | regionInvalidate _ _ => exact (execRegionInvalidate_keepsMemory _ _).answers
  | configurationRead _ _ => exact (execConfigurationRead_keepsMemory _ _).answers
  | configurationWrite _ _ _ => exact (execConfigurationWrite_keepsMemory _ _ _).answers
  | beaterMove _ => exact (execBeaterMove_keepsMemory _).answers
  | patrolScrub _ | dramCalibration _ | linkCalibration _ | rowDisturbanceManagement _ => exact fun s => ⟨s, rfl⟩
  | flitReceive _ _ _ _ => exact execFlitReceive_answers _ _ _ _
  | linkUp _ _ => exact (execLinkUp_keepsMemory _ _).answers
  | hostSnoop _ _ => exact (execHostSnoop_keepsMemory _ _).answers
  | inboundHostRequest _ => exact execInboundHostRequest_answers _
  | incomingRdma _ => exact execIncomingRdma_answers _
  | powerControlSample _ => exact (execPowerControlSample_keepsMemory _).answers
  | thermalTrip => exact execThermalTrip_keepsMemory.answers
  | packageReset => exact execPackageReset_answers
  | getVersion _ => exact (execGetVersion_keepsMemory _).answers
  | getCapabilities _ => exact (execGetCapabilities_keepsMemory _).answers
  | negotiateAlgorithms _ _ => exact (execNegotiateAlgorithms_keepsMemory _ _).answers
  | getDigests _ => exact (execGetDigests_keepsMemory _).answers
  | getCertificate _ _ _ => exact (execGetCertificate_keepsMemory _ _ _).answers
  | challenge _ _ => exact (execChallenge_keepsMemory _ _).answers
  | getMeasurements _ _ _ => exact (execGetMeasurements_keepsMemory _ _ _).answers
  | readTelemetryMessage _ _ => exact (execReadTelemetryMessage_keepsMemory _ _).answers
  | readBstatMessage => exact execReadBstatMessage_keepsMemory.answers
  | setPwrctlOobMessage _ => exact (execSetPwrctlOobMessage_keepsMemory _).answers
  | readyReturn _ => exact (execReadyReturn_keepsMemory _).answers
  | cxlDeviceAcknowledgement _ _ => exact execCxlDeviceAcknowledgement_answers _ _
  | hostWriteComplete _ _ => exact execHostWriteComplete_answers _ _
  | mainInputOff => exact execMainInputOff_keepsMemory.answers
  | _ => exact absurd h Bool.false_ne_true

/-- What is served without main power is supplied from outside (R424, R430). -/
theorem Instr.external_of_standby {i : Instr} (h : Instr.standby i = true) : Instr.external i = true := by
  cases i with
  | packageReset | getVersion _ | getCapabilities _ | negotiateAlgorithms _ _ | getDigests _ | getCertificate _ _ _
    | challenge _ _ | getMeasurements _ _ _ | readTelemetryMessage _ _ | readBstatMessage | setPwrctlOobMessage _
    | thermalTrip | mainInputOff | powerControlSample _ => rfl
  | _ => exact absurd h Bool.false_ne_true

/-! ### One step -/

/-- What the package takes as an input, in whatever supply it is, is supplied from outside. -/
theorem external_of_taken {i : Instr} {s : State}
    (h : if !s.hub.power.standby then i = .packageReset
      else if s.hub.dark then Instr.standby i else Instr.external i) : Instr.external i = true := by
  by_cases hoff : (!s.hub.power.standby) = true
  · rw [if_pos hoff] at h
    exact h ▸ rfl
  · rw [if_neg hoff] at h
    by_cases hdark : s.hub.dark = true
    · rw [if_pos hdark] at h
      exact Instr.external_of_standby h
    · rwa [if_neg hdark] at h

theorem State.input_answered (i : Instr) (r : List Instr) (s : State) : Answered (s.input i r) :=
  .ite_of_imp (fun h => exec_answers_of_external (external_of_taken h) _) (answered_next _)

theorem State.inner_answered (s : State) : Answered s.inner := by
  unfold State.inner
  split
  · exact answered_next _
  · split
    next f e => exact s.nextEvent_answers.of_eq e s
    next => exact answered_next _

/-- Settles O5: an input and an event answer, a turn and a tick do by their form, and without main power and inputs the
step is the stop. -/
theorem everyStepGoesOn : Obligations.EveryStepGoesOn := fun s => by
  unfold Safe step
  split
  next i r _ => exact .inl (s.input_answered i r)
  next hinbox =>
    cases hdark : s.hub.dark with
    | true => exact .inr ⟨hinbox, rfl, rfl⟩
    | false => exact .inl s.inner_answered

end Sys2Proof.Machine
end
